-- ==== Sys2Proof/Word.lean ====
section
/-!
DEFINITION. The word types of the model: bytes and the register widths of the manual (00_scope.md R3).
-/

namespace Sys2Proof

/-- A byte of memory, of a descriptor or of a record. -/
abbrev Byte := BitVec 8

/-- A host port: H0 or H1 (R12). -/
abbrev Port := Fin 2

/-- An engine, E00 to E63 (R12). -/
abbrev Eng := Fin 64

/-- A partition, P0 to P7 (R12). -/
abbrev Part := Fin 8

/-- An HBM stack, M0 to M5 (R12). -/
abbrev Stack := Fin 6

/-- A peer port: X+, X-, Y+, Y-, Z+, Z- are 0 to 5 (R12). -/
abbrev PeerPort := Fin 6

/-- A command tag of a host port (R204). -/
abbrev Tag := Fin 1024

/-- A submission ring of a host port (R200). -/
abbrev RingNo := Fin 512

/-- A completion ring of a host port (R205). -/
abbrev CqNo := Fin 64

/-- A context (R196). -/
abbrev CtxNo := Fin 256

/-- A function of a host port: 0 the physical function, v + 1 virtual function v (16 CTX.FUNC). -/
abbrev Fn := Fin 17

/-- A task slot of an engine (R234, R401 window layout). -/
abbrev SlotNo := Fin 4

/-- A stream of an engine (R228). -/
abbrev StreamNo := Fin 16

/-- An entry of a partition's scale table (R277). -/
abbrev ScaleNo := Fin 1024

/-- A 32-bit register or free-running count, wrapping as R3 says. -/
abbrev W32 := BitVec 32

/-- A 64-bit register, count or engine mask. -/
abbrev W64 := BitVec 64

end Sys2Proof
end

