-- ==== Sys2Proof/Syntax.lean ====
section
/-!
DEFINITION. The commands of the block: one constructor of `Instr` per row of the table of operations and events.
Operands are what the sender, the wire or nature supplies, and the choices the manual leaves open (DESIGN CHOICE, log entry 9).
-/

namespace Sys2Proof

/-- What made a received flit bad or out of order (R286, R287, R290), and the flits before it of a packet that has not ended: those that have come
since the last packet or the last bad flit. -/
inductive BadFlit where
  /-- a byte of it lay in an uncorrectable codeword (R286); so many such codewords are met first with it -/
  | fec (before : List (List Byte)) (codewords : Nat)
  /-- its 256 bytes, for the CRC-32, FTYPE and SEQ to be tested (R287, R290) -/
  | flit (before : List (List Byte)) (bytes : List Byte)
  deriving DecidableEq, Repr

/-- A packet: the header of R303, its payload, and how its flits carried it: their VC, and the body bytes of the last one after
the payload. -/
structure Packet where
  dest : Nat
  src : Nat
  ptype : Nat
  detoured : Bool
  detours : Nat
  fields : List Byte
  payload : List Byte
  vc : Nat
  len : Nat := payload.length
  /-- PFLAGS bits [7:1] -/
  pflags : Nat := 0
  /-- header byte 11 -/
  byte11 : Nat := 0
  tail : List Byte := []
  deriving DecidableEq, Repr

/-- The identity record of an IDENT (R295). -/
structure IdentRec where
  node : Nat
  port : Nat
  dims : Nat
  credits : Nat
  version : Nat
  deriving DecidableEq, Repr

/-- What a port received, and whether in class 1 of its virtual channel (R292). -/
abbrev Arrived (α : Type) := α × Bool

/-- A departure notice (R317). -/
structure NoticeRec where
  kind : Nat
  port : Nat
  node : Nat
  engines : W64
  origin : Nat
  nseq : W32
  deriving DecidableEq, Repr

/-- What training step 2 receives on the eight physical lanes of a peer port: pattern and lane number of each one's alignment
codewords, none where it shows none (R285, R294). -/
structure LaneReport where
  lanes : List (Option (Nat × Nat))
  deriving DecidableEq, Repr

/-- The unit a detected fault or a corrected error belongs to (R321, R323). -/
inductive UnitId where
  | engine (e : Eng)
  | partition (p : Part)
  | memory (m : Stack)
  | peerPort (p : PeerPort)
  | hostPort (p : Port)
  | housekeeping
  | security
  | router
  | bridge
  | mmu
  deriving DecidableEq, Repr

/-- An immediate uncorrectable fault (R321, R329). -/
inductive UnitFault where
  /-- residue mismatch in an engine's arithmetic -/
  | residue (e : Eng)
  /-- parity error in an engine's accumulators, tables or sequencer -/
  | parity (e : Eng)
  /-- uncorrectable tile-memory error -/
  | tileMemory (e : Eng)
  /-- uncorrectable error of command data in a partition buffer: the command ends -/
  | bufferData (p : Port) (t : Tag)
  /-- uncorrectable error of control state in a partition buffer -/
  | bufferControl (q : Part)
  /-- parity error in a regulator's buckets -/
  | regulator (q : Part)
  /-- partition rail out of regulation -/
  | rail (q : Part)
  /-- a command read a poisoned completion of a host port -/
  | poisoned (p : Port) (t : Tag)
  /-- uncorrectable error in a context's ring, semaphore region, record or group entry -/
  | contextState (c : CtxNo)
  /-- uncorrectable control-state error of a memory controller -/
  | memoryControl (m : Stack)
  /-- uncorrectable control-state error of the device MMU -/
  | mmuControl
  /-- uncorrectable control-state error of the peer router -/
  | routerControl
  /-- uncorrectable control-state error of the die-to-die bridge -/
  | bridgeControl
  /-- uncorrectable housekeeping SRAM error -/
  | housekeepingSram
  deriving DecidableEq, Repr

/-- A domain with a watchdog of its own besides the engines (R326). -/
inductive Domain where
  | partitionControl (p : Part)
  | memoryController (m : Stack)
  | peerLink (p : PeerPort)
  | ringManager (p : Port)
  | router
  | bridge
  | mmu
  | housekeeping
  deriving DecidableEq, Repr

/-- A clock domain that a clock monitor watches (R327). -/
inductive ClockDomain where
  | engine (e : Eng)
  | partition (p : Part)
  | memoryController (m : Stack)
  | router
  | bridge
  | mmu
  | ringManager (p : Port)
  /-- the link clock of a peer port -/
  | peerLink (p : PeerPort)
  deriving DecidableEq, Repr

/-- What NEGOTIATE_ALGORITHMS offers: the bits of the SPDM standard for signature, hash, key exchange and AEAD algorithms, and those
of the measurement hashes (R377) (PRESUMED, log entry 60). -/
structure AlgOffer where
  asym : BitVec 32
  hash : BitVec 32
  dhe : BitVec 16
  aead : BitVec 16
  deriving DecidableEq, Repr

/-- Who asks for a firmware update, and the identifier of the component it brings (R380). -/
structure UpdateAgent where
  agent : Nat
  component : Nat
  deriving DecidableEq, Repr

/-- A reset whose deadline was missed (R330). -/
inductive MissedReset where
  | context (c : CtxNo)
  | engine (e : Eng)
  | partition (p : Part)
  | module
  deriving DecidableEq, Repr

/-- A sensor of the management endpoint (R379, R422). -/
inductive Sensor where
  | inputVoltage
  | inputCurrent
  | inputPower
  | auxVoltage
  | coldPlate
  | stack (m : Stack)
  | railCode (p : Part)
  | marginHours (p : Part)
  deriving DecidableEq, Repr

/-- A transport that serves SPDM (R377). -/
inductive Transport where
  /-- the DOE mailbox of a physical function -/
  | doe (p : Port)
  /-- MCTP over I3C -/
  | i3c
  /-- MCTP over PCIe vendor-defined messages -/
  | vdm
  deriving DecidableEq, Repr

/-- What an eye monitor reports of one lane (R354): the heights of the three PAM4 eyes in mV, and the width of the narrowest in
1/1,024 UI. -/
structure LaneEye where
  low : Nat
  middle : Nat
  high : Nat
  width : Nat
  deriving DecidableEq, Repr

/-- What a monitor of the 60 s cadence reports (R354). -/
inductive MonitorValue where
  /-- eight ring-oscillator counts of a partition -/
  | oscillators (p : Part) (counts : List Nat)
  /-- the eyes of a peer port's eight receive lanes -/
  | peerEye (p : PeerPort) (lanes : List LaneEye)
  /-- the same of a host port -/
  | hostEye (p : Port) (lanes : List LaneEye)
  /-- read and write timing margin of a stack's 32 channels, each in ps -/
  | hbmMargin (m : Stack) (channels : List (BitVec 8 × BitVec 8))
  deriving DecidableEq, Repr

/-- What a self-test item found in one partition (R363, R364): nature's. -/
structure ItemResult where
  fail : Bool
  failEngines : BitVec 8
  values : List Byte
  slacks : List Nat := []
  deriving DecidableEq, Repr

/-- The commands, in the table's order. -/
inductive Instr where
  -- descriptor opcodes at step 6 of R215
  | nop (p : Port) (t : Tag)
  | matmul (e : Eng) (k : SlotNo)
  | fused (p : Port) (t : Tag)
  | move (p : Port) (t : Tag)
  | convert (p : Port) (t : Tag)
  | vector (p : Port) (t : Tag)
  | solve (p : Port) (t : Tag)
  | route (p : Port) (t : Tag)
  | update (p : Port) (t : Tag)
  | setGroup (p : Port) (t : Tag)
  | scale (p : Port) (t : Tag)
  | collective (p : Port) (t : Tag)
  | sem (p : Port) (t : Tag)
  | cancel (p : Port) (t : Tag)
  | checkpoint (p : Port) (t : Tag)
  | restore (p : Port) (t : Tag)
  | selftest (p : Port) (t : Tag)
  -- from doorbell to completion
  | descriptorFetch (p : Port) (t : Tag)
  | descriptorChecks (p : Port) (t : Tag)
  | orderingRelease (p : Port) (t : Tag)
  | semaphoreWaitMet (p : Port) (t : Tag)
  | semaphoreRetest
  | predicateRead (p : Port) (t : Tag)
  | admission (p : Port) (t : Tag)
  | commandVisibility (p : Port) (t : Tag)
  | completionRecordWrite (p : Port) (t : Tag)
  | modTimeExpiry (p : Port) (c : CqNo)
  | submissionDoorbell (p : Port) (f : Fn) (r : RingNo) (size : Nat) (value : W64)
  | completionRingHead (p : Port) (f : Fn) (c : CqNo) (size : Nat) (value : W64)
  -- engines and streams
  | namedTileArrival (e : Eng) (k : SlotNo)
  | groupEntry (e : Eng) (k : SlotNo)
  | tileDrain (e : Eng) (k : SlotNo)
  | scaleTrackerAccess (q : Part) (n : ScaleNo) (step : W32) (report : Option (Option Int × Nat))
  | tableBuild (e : Eng)
  | taskSwitch (e : Eng)
  | switchBack (e : Eng)
  | streamRequestGrant (q : Part)
  | streamReadLanded (e : Eng) (s : StreamNo) (n : Nat)
  | streamWriteAcknowledged (e : Eng) (s : StreamNo) (n : Nat)
  | slotRelease (e : Eng) (s : StreamNo)
  | rateWindowExpiry (e : Eng)
  | streamTranslationFault (e : Eng) (s : StreamNo)
  | priResponse (n : Nat) (ok : Bool)
  | commandStopAtTile (p : Port) (t : Tag) (e : Eng)
  | meltComplete (p : Port) (t : Tag)
  -- contexts, rings and completion rings
  | ctxCreate (p : Port) (f : Fn) (c : CtxNo)
  | ctxAbort (p : Port) (f : Fn) (c : CtxNo)
  | ctxDestroy (p : Port) (f : Fn) (c : CtxNo)
  | ctxAdopt (p : Port) (f : Fn) (c : CtxNo) (q : CqNo)
  | contextRecordWrite (p : Port) (f : Fn) (c : CtxNo) (off size : Nat) (value : W64)
  | ringEnable (p : Port) (f : Fn) (r : RingNo)
  | ringStop (p : Port) (f : Fn) (r : RingNo)
  | ringDisable (p : Port) (f : Fn) (r : RingNo)
  | ringDisableComplete (p : Port) (r : RingNo)
  | ringPause (p : Port) (f : Fn) (r : RingNo)
  | ringResume (p : Port) (f : Fn) (r : RingNo)
  | cqEnable (p : Port) (f : Fn) (c : CqNo)
  | cqDisable (p : Port) (f : Fn) (c : CqNo)
  | cqDisableComplete (p : Port) (c : CqNo)
  | ringRecordWrite (p : Port) (f : Fn) (cq : Bool) (n : RingNo) (off size : Nat) (value : W64)
  -- set-up registers with behaviour of their own
  | faultResumeRetry (id : W32)
  | faultResumeAbort (id : W32)
  | memInval (p : Port) (c : CtxNo) (whole : Bool) (va : Nat)
  | memInvalComplete
  | retireConfirm (m : Stack)
  | fenceRelease (mask : W64)
  | partFenceRelease (mask : BitVec 8)
  | swresetEngine (e : Eng)
  | swresetPartition (q : Part)
  | swresetModule
  | setupLockTake (p : Port) (f : Fn)
  | replan (mask : BitVec 8)
  | ledgerRead (index : W32) (area : BitVec 2)
  | retrain (i : PeerPort)
  | peerNodeWrite (value : W64)
  | portDisable (p : Port)
  | streamCfgWrite (e : Eng) (value : W32)
  | streamCfgApply (e : Eng)
  | dbgQuiesce (value : W64)
  | quiesceTimeout (e : Eng)
  | groupRecordWrite (p : Port) (e : Eng) (k : StreamNo) (off size : Nat) (value : W64)
  | registerWrite (p : Port) (f : Fn) (off size : Nat) (value : W64)
  | bar4Read (p : Port) (off len : Nat) (bad : Bool)
  | bar4Write (p : Port) (off : Nat) (data : List Byte) (bad : Bool)
  -- host port events
  | perstAssert (p : Port)
  | perstDeassert (p : Port)
  | functionLevelReset (p : Port)
  | hostLinkDown (p : Port)
  | portDownTimeout (p : Port)
  | hostLinkUp (p : Port)
  -- peer links and packets
  | badFlitReceived (i : PeerPort) (why : BadFlit)
  | nak (i : PeerPort) (seq : BitVec 12)
  | ident (i : PeerPort) (rec : IdentRec)
  | identAck (i : PeerPort) (node : Nat)
  | identResend (i : PeerPort)
  | packetForward (i : PeerPort) (pkt : Packet) (dl : Bool)
  | write (i : PeerPort) (pkt : Arrived Packet)
  | read (i : PeerPort) (pkt : Arrived Packet)
  | writeAck (i : PeerPort) (pkt : Arrived Packet)
  | readData (i : PeerPort) (pkt : Arrived Packet)
  | peerResponseTimeout (txn : W32)
  | collUp (i : PeerPort) (pkt : Arrived Packet)
  | collDown (i : PeerPort) (pkt : Arrived Packet)
  | collPacketWaitTimeout (n : Nat)
  | notice (i : PeerPort) (rec : Arrived NoticeRec)
  | ackTimeout (i : PeerPort)
  | fecLockLost (i : PeerPort)
  | trainingStepComplete (i : PeerPort) (lanes : LaneReport)
  | trainingTimeout (i : PeerPort)
  -- faults and resets
  | hbmUncorrectableError (pa : Nat) (reader : Option (Port × Tag))
  -- `pa` is the address of a stack's line, and the symbols corrected in a codeword of a peer port
  | correctedError (u : UnitId) (pa : Nat)
  | unitFault (f : UnitFault)
  | engineHang (e : Eng)
  | domainWatchdogExpiry (d : Domain)
  | clockFault (d : ClockDomain)
  | contextAbortOnFault (c : CtxNo)
  | engineReset (e : Eng) (cause : BitVec 8)
  | engineResetComplete (e : Eng)
  | partitionReset (q : Part) (cause : BitVec 8)
  | partitionResetComplete (q : Part)
  | moduleReset (cause : BitVec 8)
  | powerCycleRequest (cause : BitVec 8)
  | powerCycleRepeat
  | deadlineMissed (r : MissedReset)
  -- power, clocks, start-up and temperature
  | inputUndervoltage
  | inputOvervoltage
  | inputOvercurrent
  | railStageShort (stage : Fin 22)
  | reversedInput
  | polarityRestored
  | inputBladeOpen
  | inputQualified
  | aux3v3Loss
  | aux3v3Rise
  | rootPllLock (strap : BitVec 3)
  | diesLoaded (accepted : Bool)
  -- the stacks that trained at once, and those that did on one of their two repeats
  | hbmTrainingComplete (trained again : BitVec 6)
  | thermalShutdown
  | thermalResume
  | sensorWarning (n : Sensor)
  | refclkLoss
  | refclkReturn
  -- ageing and self-test
  | pathDelaySample (e : Eng) (samples : List Nat)
  | monitorSample (v : MonitorValue)
  | hourlyLedgerSave
  | planTimer (q : Part)
  | railCodeStep (q : Part)
  | windowOpen (q : Part) (results : List ItemResult)
  | windowClose (q : Part)
  | preemptionTimeout (q : Part)
  -- security, management
  | getVersion (x : Transport)
  | getCapabilities (x : Transport)
  | negotiateAlgorithms (x : Transport) (offered : AlgOffer)
  | getDigests (x : Transport)
  | getCertificate (x : Transport) (slot : Fin 8) (off len : Nat)
  | challenge (x : Transport) (slot : Fin 8) (nonce : List Byte)
  | getMeasurements (x : Transport) (index : BitVec 8) (signed : Bool)
  | keyExchange (x : Transport) (slot : Fin 8) (share : List Byte)
  | finish (x : Transport) (session : Fin 4) (verify : List Byte)
  | keyUpdate (x : Transport) (session : Fin 4)
  | heartbeat (x : Transport) (session : Fin 4)
  | endSession (x : Transport) (session : Fin 4)
  | getCsr (x : Transport) (session : Option (Fin 4))
  | setCertificate (x : Transport) (session : Option (Fin 4)) (slot : Fin 8) (chain : List Byte)
  | ideKm (x : Transport) (session : Option (Fin 4)) (stream : Fin 8) (key : List Byte)
  | requestUpdate (agent : UpdateAgent)
  | firmwareImageWrite (off : Nat) (data : List Byte) (last : Bool)
  | activateFirmware
  | getSensorReading (n : Sensor)
  | setdasa (addr : BitVec 7)
  | rstdaa
  -- later rows of the table
  | idle (i : PeerPort) (ack : Option (BitVec 12)) (credit : W32)
  | alignmentCodeword (i : PeerPort)
  | powerGovernor (withhold : Bool)
  | portEnable (p : Port)
  | peerPortDisable (i : PeerPort)
  | trialTimeout
  | backgroundItemComplete (p : Port) (t : Tag) (q : Part) (result : ItemResult)
  | vfEnable (p : Port) (n : Nat)
  | bar4Resize (p : Port) (log2 : Nat)
  deriving DecidableEq, Repr

end Sys2Proof
end

