-- ==== Sys2Proof/Decode.lean ====
section
/-!
DEFINITION. Words that spell commands: the table of operations and events gives no row any bits, so there are none.
-/

namespace Sys2Proof

/-- The command that a word of the table's bits spells: none, since no row of the table gives bits. -/
def decodeTableWord (_nbits _w : Nat) : Option Instr := none

end Sys2Proof
end

