-- ==== Sys2Proof/Machine/Bits.lean ====
section
/-!
DEFINITION. Bit fields, sign extension, byte order (R3) and the sparse tables that hold the module's arrays.
-/

namespace Sys2Proof.Machine

/-- Little-endian reading of bytes (R3). -/
def leNat : List Byte → Nat
  | [] => 0
  | b :: bs => b.toNat + 256 * leNat bs

/-- The `n` bytes of `v`, lowest first (R3). -/
def toLe : Nat → Nat → List Byte
  | 0, _ => []
  | n + 1, v => BitVec.ofNat 8 v :: toLe n (v / 256)

/-- `len` bytes at byte offset `off`. -/
def slice (bs : List Byte) (off len : Nat) : List Byte := (bs.drop off).take len

/-- The little-endian field of `len` bytes at `off` (R3). -/
def fld (bs : List Byte) (off len : Nat) : Nat := leNat (slice bs off len)

/-- Bits [hi:lo] of a word (R3). -/
def bitsOf (v hi lo : Nat) : Nat := (v / 2 ^ lo) % 2 ^ (hi + 1 - lo)

/-- Bit `i` of a word (R3). -/
def bitOf (v i : Nat) : Bool := v / 2 ^ i % 2 == 1

/-- A bit as a number. -/
def b2n (b : Bool) : Nat := if b then 1 else 0

/-- The word with bit `i` set. -/
def setBit (v i : Nat) : Nat := if bitOf v i then v else v + 2 ^ i

/-- The word with bit `i` clear. -/
def clearBit (v i : Nat) : Nat := if bitOf v i then v - 2 ^ i else v

/-- Write `w` into the `len` bytes at `off`. -/
def patch (bs : List Byte) (off : Nat) (w : List Byte) : List Byte :=
  bs.take off ++ w ++ bs.drop (off + w.length)

/-- Every byte is zero (R4). -/
def allZero (bs : List Byte) : Bool := bs.all (· == 0)

/-- Division rounded up. -/
def ceilDiv (a b : Nat) : Nat := (a + b - 1) / b

/-- Round up to a multiple. -/
def roundUp (a b : Nat) : Nat := ceilDiv a b * b

/-- Two's-complement reading of the low `w` bits (R35). -/
def signedOf (w v : Nat) : Int :=
  let u := v % 2 ^ w
  if 2 * u < 2 ^ w then (u : Int) else (u : Int) - 2 ^ w

/-- Two's-complement encoding in `w` bits. -/
def unsignedOf (w : Nat) (v : Int) : Nat := (v % (2 ^ w : Int)).toNat

/-- A count that stops at `2^w - 1` (R90, R132, R194, R260). -/
def satAdd (w a b : Nat) : Nat := min (a + b) (2 ^ w - 1)

/-- Population count of the low `n` bits. -/
def popcount : Nat → Nat → Nat
  | 0, _ => 0
  | n + 1, v => v % 2 + popcount n (v / 2)

/-- The set bits below `n`, lowest first. -/
def setBits (n v : Nat) : List Nat := (List.range n).filter (bitOf v ·)

/-- Clamp an integer. -/
def clampI (lo hi x : Int) : Int := max lo (min hi x)

/-- Ceiling of an integer division. -/
def ceilDivI (a : Int) (b : Nat) : Int := -((-a) / (b : Int))

/-- Divide by `2^n`, to nearest with ties to even. -/
def roundShift (v : Int) (n : Nat) : Int :=
  if n = 0 then v
  else
    let q := v / 2 ^ n
    let r := v % 2 ^ n
    if 2 * r < 2 ^ n then q else if 2 * r > 2 ^ n then q + 1 else if q % 2 = 0 then q else q + 1

/-- Arithmetic shift right. -/
def asr (v : Int) (n : Nat) : Int := v / 2 ^ n

/-- An array of the module, held as key and value pairs with keys rising; an unlisted key holds the default. -/
abbrev Tab (α : Type) := List (Nat × α)

/-- Read an array entry. -/
def Tab.get {α : Type} (d : α) : Tab α → Nat → α
  | [], _ => d
  | (k, v) :: t, i => if i = k then v else Tab.get d t i

/-- Write an array entry. -/
def Tab.set {α : Type} : Tab α → Nat → α → Tab α
  | [], i, v => [(i, v)]
  | (k, w) :: t, i, v =>
    if i = k then (i, v) :: t else if i < k then (i, v) :: (k, w) :: t else (k, w) :: Tab.set t i v

/-- Apply a change to an array entry. -/
def Tab.upd {α : Type} (d : α) (t : Tab α) (i : Nat) (f : α → α) : Tab α := t.set i (f (t.get d i))

/-- The keys below a bound that an array lists: only these can differ from the default. -/
def Tab.keysBelow {α : Type} (n : Nat) (t : Tab α) : List (Fin n) :=
  t.filterMap fun x => if h : x.1 < n then some ⟨x.1, h⟩ else none

/-- Keys rise strictly. -/
def Tab.sorted {α : Type} : Tab α → Bool
  | [] => true
  | (k, _) :: t => (match t with | [] => true | (k', _) :: _ => decide (k < k')) && Tab.sorted t

/-- CRC over the bits of one byte, reflected form. -/
def crc32Byte : Nat → Nat → Nat
  | 0, c => c
  | n + 1, c => crc32Byte n (if c % 2 = 1 then (c / 2) ^^^ 0xEDB88320 else c / 2)

/-- IEEE 802.3 CRC-32 (R287, R308, R347, R356). -/
def crc32 (bs : List Byte) : Nat :=
  (bs.foldl (fun c b => crc32Byte 8 (c ^^^ b.toNat)) 0xFFFFFFFF) ^^^ 0xFFFFFFFF

/-- One byte into the CRC-64 register, most significant bit first. -/
def crc64Byte : Nat → Nat → Nat
  | 0, c => c
  | n + 1, c => crc64Byte n (if c / 2 ^ 63 % 2 = 1 then ((c * 2) % 2 ^ 64) ^^^ 0x42F0E1EBA9EA3693 else (c * 2) % 2 ^ 64)

/-- CRC-64 of ECMA-182, initial value 0, no reflection, no final XOR (R348). -/
def crc64 (bs : List Byte) : Nat := bs.foldl (fun c b => crc64Byte 8 (c ^^^ (b.toNat * 2 ^ 56))) 0

end Sys2Proof.Machine
end

