-- ==== Sys2Proof/Machine/Tables.lean ====
section
/-!
DEFINITION. The module's read-only tables (R46, R55, R59, R67, R138), each entry computed from the formula the manual
gives for it: powers of two by repeated square roots and logarithms by repeated squaring, in 128-bit fixed point, then
rounded once. Log entry 8 states the precision argument.
-/

namespace Sys2Proof.Machine

/-- Newton's iteration from above for the integer square root; the first argument bounds the iterations (DEDUCED, log entry 8). -/
def isqrtGo : Nat → Nat → Nat → Nat
  | 0, _, x => x
  | f + 1, n, x =>
    let y := (x + n / x) / 2
    if y < x then isqrtGo f n y else x

/-- Square root in 128-bit fixed point of a number in [1, 2]. -/
def sqrtFix (r : Nat) : Nat := isqrtGo 24 (r * 2 ^ 128) (3 * 2 ^ 127)

/-- Multiplies `acc` by 2^(i/2^k) bit by bit, `r` being the root in hand. -/
def exp2Go : Nat → Nat → Nat → Nat → Nat
  | 0, _, _, acc => acc
  | k + 1, i, r, acc =>
    let r' := sqrtFix r
    exp2Go k i r' (if bitOf i k then acc * r' / 2 ^ 128 else acc)

/-- 2^(i/2^k) in 128-bit fixed point, for i below 2^k. -/
def exp2Fix (i k : Nat) : Nat := exp2Go k i (2 ^ 129) (2 ^ 128)

/-- Binary digits of the base-2 logarithm by repeated squaring. -/
def log2Go : Nat → Nat → Nat → Nat
  | 0, _, acc => acc
  | n + 1, x, acc =>
    let y := x * x / 2 ^ 128
    if 2 ^ 129 ≤ y then log2Go n (y / 2) (2 * acc + 1) else log2Go n y (2 * acc)

/-- log2 of a 128-bit fixed-point number in [1, 2), in units of 2^-40. -/
def log2Fix (x : Nat) : Nat := log2Go 40 x 0

/-- The descent table entry as read: round(2^24 * 2^(-j/256)), with entry 0 read as 2^24 (R55). -/
def desc (j : Nat) : Nat :=
  if j = 0 then 2 ^ 24 else (exp2Fix (256 - j) 8 + 2 ^ 104) / 2 ^ 105

/-- The return table: round(2^24 * log2(1 + i/1024)), entry 1024 taken as 2^24 (R59). -/
def ret (i : Nat) : Nat :=
  if 1024 ≤ i then 2 ^ 24 else (log2Fix ((1024 + i) * 2 ^ 118) + 2 ^ 15) / 2 ^ 16

/-- 2^(-i/64) in 128-bit fixed point. -/
def negExp64 (i : Nat) : Nat :=
  if i % 64 = 0 then 2 ^ 128 / 2 ^ (i / 64) else exp2Fix (64 - i % 64) 6 / 2 ^ (1 + i / 64)

/-- The addition table: round(2^23 * log2(1 + 2^(-i/64))) (R67). -/
def phiTab (i : Nat) : Nat :=
  if i = 0 then 2 ^ 23 else (log2Fix (2 ^ 128 + negExp64 i) + 2 ^ 16) / 2 ^ 17

/-- The subtraction table: round(-2^23 * log2(1 - 2^(-(1 + i/64)))) (R67). -/
def psiTab (i : Nat) : Nat :=
  (2 ^ 40 - log2Fix (2 * (2 ^ 128 - negExp64 (64 + i))) + 2 ^ 16) / 2 ^ 17

/-- The power table: round(2^24 * 2^(i/1024)), entry 1024 taken as 2^25 (R138). -/
def powTab (i : Nat) : Nat :=
  if 1024 ≤ i then 2 ^ 25 else (exp2Fix i 10 + 2 ^ 103) / 2 ^ 104

/-- The probability table of a target with q = 2^lq steps a binade: round(p(i/64) * 65,536), entry 64 taken as 65,536 (R46). -/
def probTab (lq i : Nat) : Nat :=
  if 64 ≤ i then 65536
  else
    let num := exp2Fix i (6 + lq) - 2 ^ 128
    let den := exp2Fix 1 lq - 2 ^ 128
    (2 * 65536 * num + den) / (2 * den)

/-- log2 of a 54-bit significand, 24 fraction bits (the first lines of R59). -/
def retF (sig : Nat) : Nat :=
  let i := bitsOf sig 52 43
  let w := bitsOf sig 42 27
  let lo := ret i
  lo + (ret (i + 1) - lo) * w / 2 ^ 16

/-- 2^φ in units of 2^-24, for a 24-bit fraction φ (R138). -/
def powF (phi : Nat) : Nat :=
  let i := bitsOf phi 23 14
  let w := bitsOf phi 13 0
  powTab i + (powTab (i + 1) - powTab i) * w / 2 ^ 14

/-- Interpolation of R66 between entries a quarter apart. -/
def interp4 (t : Nat → Nat) (i w : Nat) : Int :=
  (t i : Int) + asr (((t (i + 1) : Int) - t i) * w) 2

/-- The Philox-4x32 multiplication, split into high and low words (R48). -/
def mulHiLo (a b : Nat) : Nat × Nat := (a * b / 2 ^ 32, a * b % 2 ^ 32)

/-- `n` rounds of Philox-4x32 in its published form (R48). -/
def philoxGo : Nat → Nat → Nat → Nat → Nat → Nat → Nat → List Nat
  | 0, _, _, c0, c1, c2, c3 => [c0, c1, c2, c3]
  | n + 1, k0, k1, c0, c1, c2, c3 =>
    let p0 := mulHiLo 0xD2511F53 c0
    let p1 := mulHiLo 0xCD9E8D57 c2
    philoxGo n ((k0 + 0x9E3779B9) % 2 ^ 32) ((k1 + 0xBB67AE85) % 2 ^ 32)
      (p1.1 ^^^ c1 ^^^ k0) p1.2 (p0.1 ^^^ c3 ^^^ k1) p0.2

/-- The four inputs of a draw (R48). -/
structure DrawKey where
  seed : Nat
  sid : Nat
  step : Nat
  deriving DecidableEq, Repr

/-- The unsigned 16-bit draw of an element; `c3` is zero but for compatibility mode (R48, R80, R96). -/
def draw16 (k : DrawKey) (c3 index : Nat) : Nat :=
  let call := index / 8
  let xs := philoxGo 10 (k.seed % 2 ^ 32) (k.seed / 2 ^ 32 % 2 ^ 32)
    (call % 2 ^ 32) (call / 2 ^ 32 % 2 ^ 13 + k.sid % 2 ^ 16 * 2 ^ 16) (k.step % 2 ^ 32) c3
  let d := index % 8
  let x := xs.getD (d / 2) 0
  if d % 2 = 0 then x % 2 ^ 16 else x / 2 ^ 16

end Sys2Proof.Machine
end

