-- ==== Sys2Proof/Machine/Num.lean ====
section
/-!
DEFINITION. Number formats and conversions (02_log_formats.md R26 to R49, R426; 03 R59, R60; 07 R137, R138, R148).
-/

namespace Sys2Proof.Machine

/-- A tensor format (R26). -/
inductive Fmt where
  | l16
  | l8
  | bf16
  | fp16
  | fp32
  | int (signed : Bool) (w : Nat)
  | t2
  | raw32
  deriving DecidableEq, Repr

/-- A value met by a conversion: exact dyadic, exact log code in 1/256 binade, or a wide log value (R40, R137). -/
inductive Num where
  | nan
  | inf (neg : Bool)
  | zero (neg : Bool)
  | lin (neg : Bool) (sig : Nat) (e : Int)
  | code (neg : Bool) (l : Int)
  | wide (neg : Bool) (lg : Int)
  deriving DecidableEq, Repr

/-- A converted element with its saturations and underflows (R47). -/
structure Res where
  v : Nat
  sat : Nat := 0
  under : Nat := 0
  deriving DecidableEq, Repr

/-- Width in bits of an element's container (R26, R34, R35). -/
def Fmt.bits : Fmt → Nat
  | .l16 => 16
  | .l8 => 8
  | .bf16 => 16
  | .fp16 => 16
  | .fp32 => 32
  | .int _ w => if w ≤ 1 then 1 else if w ≤ 2 then 2 else if w ≤ 4 then 4 else 8
  | .t2 => 2
  | .raw32 => 32

/-- Exponent bits and stored fraction bits of an IEEE format (R36). -/
def Fmt.ieee : Fmt → Option (Nat × Nat)
  | .bf16 => some (8, 7)
  | .fp16 => some (5, 10)
  | .fp32 => some (8, 23)
  | _ => none

/-- The log of a normalised significand: the highest set bit is bit `bitLen - 1`. -/
def bitLen (v : Nat) : Nat := if v = 0 then 0 else Nat.log2 v + 1

/-- Round `v * 2^e` once to `n` significant bits, ties to even: the significand and the exponent of its top bit. -/
def roundSig (n v : Nat) (e : Int) : Nat × Int :=
  let len := bitLen v
  if len ≤ n then (v * 2 ^ (n - len), e + len - 1)
  else
    let s := (roundShift v (len - n)).toNat
    if 2 ^ n ≤ s then (s / 2, e + len) else (s, e + len - 1)

/-- Decode an IEEE element (R36). -/
def decodeIeee (eb fb v : Nat) : Num :=
  let neg := bitOf v (eb + fb)
  let ex := bitsOf v (eb + fb - 1) fb
  let fr := v % 2 ^ fb
  let bias : Int := 2 ^ (eb - 1) - 1
  if ex = 2 ^ eb - 1 then (if fr = 0 then .inf neg else .nan)
  else if ex = 0 then (if fr = 0 then .zero neg else .lin neg fr (1 - bias - fb))
  else .lin neg (2 ^ fb + fr) (ex - bias - fb)

/-- Decode an L16 code (R27). -/
def decodeL16 (v : Nat) : Num :=
  let neg := bitOf v 15
  let m : Nat := v % 2 ^ 15
  if m = 0 then (if neg then .nan else .zero false)
  else if m = 32767 then .inf neg
  else .code neg ((m : Int) - 16384)

/-- Decode an L8 code with block scale `b` (R29, R30). -/
def decodeL8 (v : Nat) (b : Int) : Num :=
  let neg := bitOf v 7
  let m : Nat := v % 2 ^ 7
  if m = 0 then (if neg then .nan else .zero false)
  else .code neg (32 * ((m : Int) - 64) + 256 * b)

/-- An integer as an exact value. -/
def numOfInt (x : Int) : Num := if x = 0 then .zero false else .lin (decide (x < 0)) x.natAbs 0

/-- The value of a T2 code; the reserved code reads as 0 (R33). -/
def tritOf (v : Nat) : Int := if v % 4 = 1 then 1 else if v % 4 = 3 then -1 else 0

/-- Decode one element; `b` is the block scale of an L8 element. -/
def decodeFmt (f : Fmt) (v : Nat) (b : Int) : Num :=
  match f with
  | .l16 => decodeL16 (v % 2 ^ 16)
  | .l8 => decodeL8 (v % 2 ^ 8) b
  | .bf16 => decodeIeee 8 7 (v % 2 ^ 16)
  | .fp16 => decodeIeee 5 10 (v % 2 ^ 16)
  | .fp32 => decodeIeee 8 23 (v % 2 ^ 32)
  | .int sg w => numOfInt (if sg then signedOf w v else ((v % 2 ^ w : Nat) : Int))
  | .t2 => numOfInt (tritOf v)
  | .raw32 => numOfInt ((v % 2 ^ 32 : Nat) : Int)

/-- Signed value of a binary sign. -/
def sgn (neg : Bool) (v : Int) : Int := if neg then -v else v

/-- log2 of the magnitude in units of 2^-24 binade: exact for codes, through the return table otherwise (R59, R137) (DEDUCED, log entry 64). -/
def Num.lg : Num → Int
  | .lin _ sig e =>
    let r := roundSig 54 sig e
    r.2 * 2 ^ 24 + (retF r.1 : Int)
  | .code _ l => l * 2 ^ 16
  | .wide _ lg => lg
  | _ => 0

/-- The linear magnitude as significand, exponent and a flag for bits below: exact for dyadic values, the correctly
rounded exact power for codes (R42), and the power table for wide values (R138, R148). -/
def Num.linear : Num → Nat × Int × Bool
  | .lin _ sig e => (sig, e, false)
  | .code _ l =>
    let j := (l % 256).toNat
    if j = 0 then (1, l / 256, false) else (exp2Fix j 8, l / 256 - 128, true)
  | .wide _ lg => (powF (lg % 2 ^ 24).toNat, lg / 2 ^ 24 - 24, false)
  | _ => (0, 0, false)

/-- Steps a binade, offset and largest code of a log target, with log2 of the steps (R40, R43). -/
structure LogTarget where
  lq : Nat
  o : Int
  top : Int
  signBit : Nat
  deriving DecidableEq, Repr

/-- L16 as a log target. -/
def logL16 : LogTarget := ⟨8, 16384, 32766, 2 ^ 15⟩

/-- L8 as a log target. -/
def logL8 : LogTarget := ⟨3, 64, 127, 2 ^ 7⟩

/-- The stochastic code of R46, or of R426 below the smallest magnitude; `c` has 24 fraction bits, `r` is the draw. -/
def stochCode (t : LogTarget) (c : Int) (r : Nat) : Int :=
  if c < 2 ^ 24 then
    let g := (c - 2 ^ 24) / 2 ^ t.lq
    let n := (-(g / 2 ^ 24)).toNat
    let p := powF (g % 2 ^ 24).toNat / 2 ^ (n + 8)
    if r < p then 1 else 0
  else
    let k := c / 2 ^ 24
    let f16 := ((c % 2 ^ 24) / 2 ^ 8).toNat
    if f16 = 0 then k
    else
      let i := f16 / 2 ^ 10
      let w := f16 % 2 ^ 10
      let p := probTab t.lq i + (probTab t.lq (i + 1) - probTab t.lq i) * w / 2 ^ 10
      if r < p then k + 1 else k

/-- The code of R41 with the linear rule of R43 below code 1. -/
def nearestCode (t : LogTarget) (c : Int) : Int :=
  if c < 2 ^ 24 then (if (1 - 2 ^ t.lq) * 2 ^ 24 ≤ c then 1 else 0) else roundShift c 24

/-- The range rule (R43): saturation at the largest code, an underflow where a non-zero value becomes zero. -/
def rangeRule (t : LogTarget) (neg : Bool) (k : Int) : Res :=
  if t.top < k then ⟨t.top.toNat + (if neg then t.signBit else 0), 1, 0⟩
  else if k < 1 then ⟨0, 0, 1⟩
  else ⟨k.toNat + (if neg then t.signBit else 0), 0, 0⟩

/-- A finite log into a log format under block scale `b` (R40, R41, R45, R59, R148). -/
def toLogFmt (t : LogTarget) (b : Int) (stoch : Option Nat) (neg : Bool) (lg : Int) : Res :=
  let c := t.o * 2 ^ 24 + 2 ^ t.lq * (lg - b * 2 ^ 24)
  rangeRule t neg (match stoch with
    | some r => stochCode t c r
    | none => nearestCode t c)

/-- The canonical NaN of an IEEE format (R37). -/
def nanOf (eb fb : Nat) : Nat := (2 ^ eb - 1) * 2 ^ fb + 2 ^ (fb - 1)

/-- Round a magnitude once into an IEEE format with the largest-finite rule of R42. -/
def toIeee (eb fb : Nat) (neg : Bool) (sig : Nat) (e : Int) (sticky : Bool) : Res :=
  let sb := if neg then 2 ^ (eb + fb) else 0
  let bias : Int := 2 ^ (eb - 1) - 1
  -- the exact magnitude, two spare bits below for the sticky bit
  let v := sig * 4 + b2n sticky
  let ex : Int := e - 2 + bitLen v - 1
  let lowest : Int := max ex (1 - bias)
  -- value in units of the last place at exponent `lowest`
  let sh : Int := lowest - fb - (e - 2)
  let u : Nat := if sh ≤ 0 then v * 2 ^ (-sh).toNat else (roundShift v sh.toNat).toNat
  if u = 0 then ⟨sb, 0, 1⟩
  else
    let overrun := 2 ^ (fb + 1) ≤ u
    let ex' := if overrun then lowest + 1 else lowest
    let u' := if overrun then u / 2 else u
    if bias < ex' then ⟨sb + (2 ^ eb - 2) * 2 ^ fb + (2 ^ fb - 1), 1, 0⟩
    else if u' < 2 ^ fb then ⟨sb + u', 0, 0⟩
    else ⟨sb + (ex' + bias).toNat * 2 ^ fb + (u' - 2 ^ fb), 0, 0⟩

/-- The range of an integer width (R35). -/
def intRange (sg : Bool) (w : Nat) : Int × Int :=
  if sg then (-(2 ^ (w - 1)), 2 ^ (w - 1) - 1) else (0, 2 ^ w - 1)

/-- A magnitude into an integer: nearest even, or on the magnitude with a 16-bit draw (R44); the bits of a wider container are zero (R35; DESIGN
CHOICE, log entry 70). -/
def toInteger (sg : Bool) (w : Nat) (stoch : Option Nat) (neg : Bool) (sig : Nat) (e : Int) (sticky : Bool) : Res :=
  let v := sig * 4 + b2n sticky
  let sh : Int := e - 2
  let mag : Nat :=
    match stoch with
    | none => if 0 ≤ sh then v * 2 ^ sh.toNat else (roundShift v (-sh).toNat).toNat
    | some r =>
      if 0 ≤ sh then v * 2 ^ sh.toNat
      else
        let n := (-sh).toNat
        let k := v / 2 ^ n
        let f16 := (v % 2 ^ n) * 2 ^ 16 / 2 ^ n
        if f16 = 0 then k else if r < f16 then k + 1 else k
  let x := sgn neg mag
  let rg := intRange sg w
  if x < rg.1 then ⟨unsignedOf w rg.1, 1, 0⟩
  else if rg.2 < x then ⟨unsignedOf w rg.2, 1, 0⟩
  else ⟨unsignedOf w x, 0, 0⟩

/-- Conversion of a value into a format (R40 to R46, R426); `b` is the target's block scale, `stoch` the draw when
rounding is stochastic. An integer in keeps its value also into an IEEE format or another integer (DESIGN CHOICE, log entry 76). -/
def convertNum (x : Num) (f : Fmt) (b : Int) (stoch : Option Nat) : Res :=
  match f with
  | .l16 =>
    match x with
    | .nan => ⟨0x8000, 0, 0⟩
    | .inf neg => ⟨if neg then 0xFFFF else 0x7FFF, 0, 0⟩
    | .zero _ => ⟨0, 0, 0⟩
    | .lin neg _ _ => toLogFmt logL16 b stoch neg x.lg
    | .code neg _ => toLogFmt logL16 b stoch neg x.lg
    | .wide neg _ => toLogFmt logL16 b stoch neg x.lg
  | .l8 =>
    match x with
    | .nan => ⟨0x80, 0, 0⟩
    | .inf neg => ⟨if neg then 0xFF else 0x7F, 1, 0⟩
    | .zero _ => ⟨0, 0, 0⟩
    | .lin neg _ _ => toLogFmt logL8 b stoch neg x.lg
    | .code neg _ => toLogFmt logL8 b stoch neg x.lg
    | .wide neg _ => toLogFmt logL8 b stoch neg x.lg
  | .int sg w =>
    match x with
    | .nan => ⟨0, 1, 0⟩
    | .inf neg => ⟨unsignedOf w (if neg then (intRange sg w).1 else (intRange sg w).2), 1, 0⟩
    | .zero _ => ⟨0, 0, 0⟩
    | .lin neg sig e => toInteger sg w stoch neg sig e false
    | .code neg _ => toInteger sg w stoch neg x.linear.1 x.linear.2.1 x.linear.2.2
    | .wide neg _ => toInteger sg w stoch neg x.linear.1 x.linear.2.1 x.linear.2.2
  | f =>
    match f.ieee with
    | none => ⟨0, 0, 0⟩
    | some (eb, fb) =>
      match x with
      | .nan => ⟨nanOf eb fb, 0, 0⟩
      | .inf neg => ⟨(if neg then 2 ^ (eb + fb) else 0) + (2 ^ eb - 1) * 2 ^ fb, 0, 0⟩
      | .zero neg => ⟨if neg then 2 ^ (eb + fb) else 0, 0, 0⟩
      | .lin neg sig e => toIeee eb fb neg sig e false
      | .code neg _ => toIeee eb fb neg x.linear.1 x.linear.2.1 x.linear.2.2
      | .wide neg _ => toIeee eb fb neg x.linear.1 x.linear.2.1 x.linear.2.2

/-- The element format codes of R156 and R214. -/
def fmtOfCode (c : Nat) : Option Fmt :=
  match c with
  | 0 => some .l16
  | 1 => some .l8
  | 2 => some .bf16
  | 3 => some .fp16
  | 4 => some .fp32
  | 5 => some (.int true 8)
  | 6 => some (.int false 8)
  | 7 => some (.int true 4)
  | 8 => some (.int false 4)
  | _ => none

/-- The format codes a binding may carry: R156's, T2 and raw words (R214). -/
def bindFmtOfCode (c : Nat) : Option Fmt :=
  if c = 9 then some .t2 else if c = 10 then some .raw32 else fmtOfCode c

/-- The output format of an epilogue record; an integer's width code is that of R114's ACT field (R136). -/
def outFmtOf (outFmt outInt : Nat) : Fmt :=
  match outFmt with
  | 0 => .l16
  | 1 => .l8
  | 2 => .l8
  | 3 => .bf16
  | 4 => .fp16
  | 5 => .fp32
  | _ => if outInt ≤ 8 then .int false outInt else .int true (outInt - 7)

/-- Every element is zero in its format, either IEEE zero included (R172). -/
def isZeroElem (f : Fmt) (v : Nat) : Bool :=
  match decodeFmt f v 0 with
  | .zero _ => true
  | _ => false

/-- An element of `f` at element offset `i` of packed bytes (R34, R35). -/
def elemAt (f : Fmt) (bs : List Byte) (i : Nat) : Nat :=
  let w := f.bits
  if 8 ≤ w then fld bs (i * (w / 8)) (w / 8)
  else bitsOf (fld bs (i * w / 8) 1) (i * w % 8 + w - 1) (i * w % 8)

end Sys2Proof.Machine
end

