-- ==== Sys2Proof/Machine/Accum.lean ====
section
/-!
DEFINITION. Products, group sums, runs and totals (03 R50 to R58, 04 R70 to R80, R93, R96, 05 R101 to R106, 06 R123).
-/

namespace Sys2Proof.Machine

/-- One operand of a product: classified under R38, a log in 1/256 binade on the log path, a dyadic on the linear path. -/
inductive Opd where
  | nan
  | inf (neg : Bool)
  | zero
  | log (neg : Bool) (l : Int)
  | lin (neg : Bool) (sig : Nat) (e : Int)
  deriving DecidableEq, Repr

/-- One product of a group (R50, R51, R101). -/
inductive Prod1 where
  | skip
  | nan
  | inf (neg : Bool)
  | log (neg : Bool) (lam : Int)
  | lin (neg : Bool) (sig : Nat) (e : Int)
  deriving DecidableEq, Repr

/-- The result of a group, by the step of R56 that decides it. -/
inductive GroupRes where
  | nan
  | inf (neg : Bool)
  | nothing
  | sat (neg : Bool)
  | under
  | val (e : Int) (s : Int)
  deriving DecidableEq, Repr

/-- A run: zero, or a 24-bit significand with the exponent of its top bit (R73). -/
inductive Run where
  | zero
  | val (neg : Bool) (x : Int) (sig : Nat)
  deriving DecidableEq, Repr

/-- A total: zero with its anchor, a 54-bit significand with its exponent, an infinity, NaN (R71, R72, R74). -/
inductive Total where
  | zero (exp : Int)
  | fin (neg : Bool) (e : Int) (sig : Nat)
  | inf (neg : Bool)
  | nan
  deriving DecidableEq, Repr

/-- An accumulator entry (R70). -/
structure Entry where
  run : Run := .zero
  total : Total := .zero 0
  deriving DecidableEq, Repr

/-- The counts an entry step raises: saturations, underflows, window promotions (R90). -/
structure Cnt where
  sat : Nat := 0
  under : Nat := 0
  win : Nat := 0
  deriving DecidableEq, Repr

/-- Sum of counts. -/
def Cnt.add (a b : Cnt) : Cnt := ⟨a.sat + b.sat, a.under + b.under, a.win + b.win⟩

/-- An operand's class on the log path (R51), from its decoded value. -/
def opdOfNum : Num → Opd
  | .nan => .nan
  | .inf neg => .inf neg
  | .zero _ => .zero
  | .lin neg sig e => .lin neg sig e
  | .code neg l => .log neg l
  | .wide neg lg => .log neg (lg / 2 ^ 16)

/-- The product of two operands under R38, R50 and R101. -/
def mulOpd : Opd → Opd → Prod1
  | .nan, _ => .nan
  | _, .nan => .nan
  | .zero, .inf _ => .nan
  | .inf _, .zero => .nan
  | .zero, _ => .skip
  | _, .zero => .skip
  | .inf a, .inf b => .inf (a != b)
  | .inf a, .log b _ => .inf (a != b)
  | .inf a, .lin b _ _ => .inf (a != b)
  | .log a _, .inf b => .inf (a != b)
  | .lin a _ _, .inf b => .inf (a != b)
  | .log a l, .log b m => .log (a != b) (l + m)
  | .lin a s e, .lin b t f => .lin (a != b) (s * t) (e + f)
  | .log _ _, .lin _ _ _ => .skip
  | .lin _ _ _, .log _ _ => .skip

/-- A T2 weight on an L8 activation: a skipping trit skips NaN too (R38, R50). -/
def mulTrit (t : Int) (b : Opd) : Prod1 :=
  if t = 0 then .skip
  else
    match b with
    | .nan => .nan
    | .inf neg => .inf (neg != decide (t < 0))
    | .zero => .skip
    | .log neg l => .log (neg != decide (t < 0)) l
    | .lin neg s e => .lin (neg != decide (t < 0)) s e

/-- Whether a product is an infinity of the given sign. -/
def Prod1.isInf (neg : Bool) : Prod1 → Bool
  | .inf n => n == neg
  | _ => false

/-- Sign and log of a finite log product. -/
def Prod1.asLog : Prod1 → Option (Bool × Int)
  | .log neg l => some (neg, l)
  | _ => none

/-- Sign, significand and exponent of a finite linear product. -/
def Prod1.asLin : Prod1 → Option (Bool × Nat × Int)
  | .lin neg s e => some (neg, s, e)
  | _ => none

/-- Largest of a non-empty list of integers. -/
def maxI : List Int → Int
  | [] => 0
  | [x] => x
  | x :: xs => max x (maxI xs)

/-- Steps 3 to 6 of R56 on a finite group sum. -/
def finishGroup (e s : Int) : GroupRes :=
  if s = 0 then .nothing
  else if 255 < e then .sat (decide (s < 0))
  else if e < -255 then .under
  else .val e s

/-- The aligned term of a log product below reference `e` (R53): 0 when it is dropped. -/
def logTerm (e lam : Int) : Int :=
  let d := (256 * e - lam).toNat
  let n := d / 2 ^ 8
  if 40 ≤ n then 0 else (desc (d % 256) * 2 ^ (39 - n) : Nat)

/-- The exact sum of the finite log products of a group (R53, R54). -/
def sumLog (ps : List (Bool × Int)) : GroupRes :=
  match ps with
  | [] => .nothing
  | _ =>
    let e := ceilDivI (maxI (ps.map (·.2))) 256
    finishGroup e (ps.foldl (fun s p => s + sgn p.1 (logTerm e p.2)) 0)

/-- The top exponent of a linear product: 2^(t-1) <= |p| < 2^t (R102). -/
def topExp (s : Nat) (e : Int) : Int := e + bitLen s

/-- The exact sum of the finite linear products of a group (R102). -/
def sumLin (ps : List (Bool × Nat × Int)) : GroupRes :=
  match ps with
  | [] => .nothing
  | _ =>
    let e := maxI (ps.map fun p => topExp p.2.1 p.2.2)
    finishGroup e (ps.foldl (fun s p =>
      if 40 ≤ e - topExp p.2.1 p.2.2 then s
      else s + sgn p.1 ((p.2.1 * 2 ^ (p.2.2 + 63 - e).toNat : Nat) : Int)) 0)

/-- The group result (R56) of the products of one group, all of one path. -/
def groupSum (ps : List Prod1) : GroupRes :=
  if ps.contains .nan || (ps.any (·.isInf true) && ps.any (·.isInf false)) then .nan
  else if ps.any (·.isInf true) then .inf true
  else if ps.any (·.isInf false) then .inf false
  else
    match sumLog (ps.filterMap (·.asLog)) with
    | .nothing => sumLin (ps.filterMap (·.asLin))
    | r => r

/-- The group result of an exact integer on the serial path (R123). -/
def groupInt (x : Int) : GroupRes := if x = 0 then .nothing else .val 24 (x * 2 ^ 39)

/-! ### Entries -/

/-- A dyadic number m * 2^e. -/
abbrev Dy := Int × Int

/-- Exact sum of two dyadics. -/
def Dy.add (a b : Dy) : Dy :=
  let e := min a.2 b.2
  (a.1 * 2 ^ (a.2 - e).toNat + b.1 * 2 ^ (b.2 - e).toNat, e)

/-- The value of a run (R73). -/
def Run.dy : Run → Dy
  | .zero => (0, 0)
  | .val neg x sig => (sgn neg sig, x - 23)

/-- The value of a finite total (R71). -/
def Total.dy : Total → Dy
  | .fin neg e sig => (sgn neg sig, e - 53)
  | _ => (0, 0)

/-- The anchor: the EXP field of the total (R73, R74). -/
def Total.anchor : Total → Int
  | .zero exp => exp
  | .fin _ e _ => e
  | _ => -256

/-- Whether the entry is finite. -/
def Total.isFin : Total → Bool
  | .zero _ => true
  | .fin _ _ _ => true
  | _ => false

/-- One rounding to 24 bits, nearest even (R57). -/
def round24 (d : Dy) : Run :=
  if d.1 = 0 then .zero
  else let r := roundSig 24 d.1.natAbs d.2; .val (decide (d.1 < 0)) r.2 r.1

/-- One rounding to 54 bits into a total whose EXP was `exp`, with the range of R76. -/
def round54 (exp : Int) (d : Dy) : Total × Cnt :=
  if d.1 = 0 then (.zero exp, {})
  else
    let r := roundSig 54 d.1.natAbs d.2
    if 255 < r.2 then (.fin (decide (d.1 < 0)) 255 (2 ^ 54 - 1), { sat := 1 })
    else if r.2 < -255 then (.zero exp, { under := 1 })
    else (.fin (decide (d.1 < 0)) r.2 r.1, {})

/-- The entry with a new run: while the total is zero its EXP follows the run (R74). -/
def Entry.setRun (en : Entry) (r : Run) : Entry :=
  match en.total, r with
  | .zero _, .val _ x _ => { run := r, total := .zero (clampI (-255) 255 x) }
  | _, _ => { en with run := r }

/-- promote() of R75: the run is added into the total and rounded to 54 bits. -/
def Entry.promote (en : Entry) : Entry × Cnt :=
  match en.run with
  | .zero => (en, {})
  | .val _ _ _ =>
    if en.total.isFin then
      let t := round54 en.total.anchor (Dy.add en.total.dy en.run.dy)
      ({ run := .zero, total := t.1 }, t.2)
    else ({ en with run := .zero }, {})

/-- Whether the run lies more than 127 binades from a non-zero total (R75). -/
def Entry.outOfWindow (en : Entry) : Bool :=
  match en.total, en.run with
  | .fin _ e _, .val _ x _ => decide (x < e - 127 ∨ e + 127 < x)
  | _, _ => false

/-- The effect of a NaN, infinite or saturated group result on an entry (R77); others leave it. -/
def Entry.special (en : Entry) (g : GroupRes) : Entry × Cnt :=
  match g, en.total with
  | .nan, _ => ({ run := .zero, total := .nan }, {})
  | _, .nan => (en, match g with | .sat _ => { sat := 1 } | .under => { under := 1 } | _ => {})
  | .inf a, .inf b => if a = b then (en, {}) else ({ run := .zero, total := .nan }, {})
  | .inf a, _ => ({ run := .zero, total := .inf a }, {})
  | .sat _, .inf _ => (en, { sat := 1 })
  | .sat neg, _ => ({ run := .zero, total := .fin neg 255 (2 ^ 54 - 1) }, { sat := 1 })
  | .under, _ => (en, { under := 1 })
  | .nothing, _ => (en, {})
  | .val _ _, _ => (en, {})

/-- A group result enters an entry in ordered and fast modes, before the regular promotion (R57, R75, R77). -/
def Entry.enter (en : Entry) (g : GroupRes) : Entry × Cnt :=
  match g with
  | .val e s =>
    if en.total.isFin then
      let en1 := en.setRun (round24 (Dy.add en.run.dy (s, e - 63)))
      if en1.outOfWindow then
        let p := en1.promote
        (p.1, p.2.add { win := 1 })
      else (en1, {})
    else (en, {})
  | _ => en.special g

/-- A 24-bit stochastic rounding with the range of compatibility mode (R79, R80). -/
def roundStoch24 (r : Nat) (d : Dy) : Run × Cnt :=
  if d.1 = 0 then (.zero, {})
  else
    let v := d.1.natAbs
    let neg := decide (d.1 < 0)
    let len := bitLen v
    let s : Nat × Int :=
      if len ≤ 24 then (v * 2 ^ (24 - len), d.2 + len - 1)
      else
        let n := len - 24
        let q := v / 2 ^ n
        let f16 := (v % 2 ^ n) * 2 ^ 16 / 2 ^ n
        let q' := if r < f16 then q + 1 else q
        if 2 ^ 24 ≤ q' then (q' / 2, d.2 + len) else (q', d.2 + len - 1)
    if 255 < s.2 then (.val neg 255 (2 ^ 24 - 1), { sat := 1 })
    else if s.2 < -255 then (.zero, { under := 1 })
    else (.val neg s.2 s.1, {})

/-- A group result enters an entry in compatibility mode (R79). R77 applies unchanged, so a saturated group sets the total; R79 says that the total
stays zero: here the next group's sum takes that total in and returns it to zero (DESIGN CHOICE, log entry 68). -/
def Entry.enterCompat (en : Entry) (g : GroupRes) (r : Nat) : Entry × Cnt :=
  match g with
  | .val e s =>
    if en.total.isFin then
      let q := roundStoch24 r (Dy.add (Dy.add en.total.dy en.run.dy) (s, e - 63))
      (({ en with total := .zero en.total.anchor } : Entry).setRun q.1, q.2)
    else (en, {})
  | _ => en.special g

/-- A partial total as a group result of its kind (R93). -/
def Total.asGroup : Total → GroupRes
  | .nan => .nan
  | .inf neg => .inf neg
  | _ => .nothing

/-- A merge of an incoming partial total (R93), also the bias of R139. -/
def Entry.merge (en : Entry) (x : Total) : Entry × Cnt :=
  if x.isFin && en.total.isFin then
    if x.dy.1 = 0 then (en, {})
    else
      let t := round54 en.total.anchor (Dy.add en.total.dy x.dy)
      ({ en with total := t.1 }, t.2)
  else en.special x.asGroup

/-- A merge in compatibility mode: exact, then stochastic to 24 bits (R96). -/
def Entry.mergeCompat (en : Entry) (x : Total) (r : Nat) : Entry × Cnt :=
  if x.isFin && en.total.isFin then
    let q := roundStoch24 r (Dy.add en.total.dy x.dy)
    match q.1 with
    | .zero => ({ run := .zero, total := .zero en.total.anchor }, q.2)
    | .val neg e sig => ({ run := .zero, total := .fin neg e (sig * 2 ^ 30) }, q.2)
  else en.special x.asGroup

/-- The 64 bits of a total (R71, R72). -/
def Total.bits : Total → Nat
  | .zero exp => unsignedOf 9 exp * 2 ^ 54
  | .fin neg e sig => b2n neg * 2 ^ 63 + unsignedOf 9 e * 2 ^ 54 + sig
  | .inf neg => if neg then 0xC000000000000000 else 0x4000000000000000
  | .nan => 0x4020000000000000

/-- The total of 64 bits (R71, R72), for partial totals that arrive in packets. -/
def Total.ofBits (v : Nat) : Total :=
  let e := signedOf 9 (bitsOf v 62 54)
  let sig := v % 2 ^ 54
  if e = -256 then (if sig = 0 then .inf (bitOf v 63) else .nan)
  else if sig = 0 then .zero e
  else .fin (bitOf v 63) e sig

/-- The 32 bits of an entry's run (R73). -/
def Entry.runBits (en : Entry) : Nat :=
  match en.run with
  | .zero => 0
  | .val neg x sig => b2n neg * 2 ^ 31 + (x - en.total.anchor + 128).toNat % 256 * 2 ^ 23 + sig % 2 ^ 23

/-- A total as a value to convert (R59, R60). -/
def Total.num : Total → Num
  | .zero _ => .zero false
  | .fin neg e sig => .lin neg sig (e - 53)
  | .inf neg => .inf neg
  | .nan => .nan

/-- A finite value as a total: exact for up to 54 bits, L16 rounded once to 54 bits (R139, R310). -/
def Num.total (x : Num) : Total :=
  match x with
  | .nan => .nan
  | .inf neg => .inf neg
  | .zero _ => .zero 0
  | .lin neg sig e => (round54 0 (sgn neg sig, e)).1
  | .code neg _ =>
    let l := x.linear
    (round54 0 (sgn neg ((l.1 * 2 + b2n l.2.2 : Nat) : Int), l.2.1 - 1)).1
  | .wide neg _ =>
    let l := x.linear
    (round54 0 (sgn neg (l.1 : Int), l.2.1)).1

/-! ### Splitting FP32 -/

/-- Nearest even to 8 significant bits of a non-zero dyadic (R105). -/
def rn8 (d : Dy) : Dy :=
  if d.1 = 0 then (0, 0)
  else let r := roundSig 8 d.1.natAbs d.2; (sgn (decide (d.1 < 0)) r.1, r.2 - 7)

/-- The pieces h, m, l of an FP32 operand (R105). -/
def pieces (d : Dy) : List Dy :=
  let h := rn8 d
  let r := Dy.add d (-h.1, h.2)
  let m := rn8 r
  [h, m, Dy.add r (-m.1, m.2)]

/-- A dyadic as a linear operand. -/
def opdOfDy (d : Dy) : Opd := if d.1 = 0 then .zero else .lin (decide (d.1 < 0)) d.1.natAbs d.2

/-- The piece pairs of each pass (R107). -/
def passPieces (split3 : Bool) : List (Nat × Nat) :=
  if split3 then [(0, 0), (0, 1), (1, 0), (0, 2), (2, 0), (1, 1)] else [(0, 0), (0, 1), (1, 0)]

/-- The dyadic of a finite operand. -/
def Opd.dy : Opd → Dy
  | .lin neg sig e => (sgn neg sig, e)
  | _ => (0, 0)

/-- Whether an operand is NaN or infinite. -/
def Opd.special : Opd → Bool
  | .nan => true
  | .inf _ => true
  | _ => false

/-- The product of two FP32 operands in one pass: NaN and infinity take part in pass 0 only (R106, R107). -/
def splitProd (split3 : Bool) (pass : Nat) (a b : Opd) : Prod1 :=
  if a.special || b.special then (if pass = 0 then mulOpd a b else .skip)
  else
    let pq := (passPieces split3).getD pass (0, 0)
    mulOpd (opdOfDy ((pieces a.dy).getD pq.1 (0, 0))) (opdOfDy ((pieces b.dy).getD pq.2 (0, 0)))

end Sys2Proof.Machine
end

