-- ==== Sys2Proof/Machine/VecOps.lean ====
section
/-!
DEFINITION. The vector unit's operations on L16 codes (02 R28, R38, R39; 03 R66 to R69; 07 R155 to R158) and its program
interpreter (R152 to R154).
-/

namespace Sys2Proof.Machine

/-- The L16 codes that the manual names (R27). -/
def l16NaN : Nat := 0x8000

/-- Signed magnitude of a code for the order of R28; none for NaN. -/
def l16Key (c : Nat) : Option Int :=
  let m : Nat := c % 2 ^ 15
  if c % 2 ^ 16 = l16NaN then none else if bitOf c 15 then some (-(m : Int)) else some (m : Int)

/-- A finite code of the given sign, under R39. -/
def l16Clamp (neg : Bool) (m : Int) : Res :=
  if 32766 < m then ⟨32766 + (if neg then 2 ^ 15 else 0), 1, 0⟩
  else if m < 1 then ⟨0, 0, 1⟩
  else ⟨m.toNat + (if neg then 2 ^ 15 else 0), 0, 0⟩

/-- A signed zero-free infinity code (R27). -/
def l16Inf (neg : Bool) : Nat := if neg then 0xFFFF else 0x7FFF

/-- The sign inverted; zero and NaN stay (R27). -/
def l16Neg (c : Nat) : Nat := if c % 2 ^ 15 = 0 then c % 2 ^ 16 else c % 2 ^ 16 ^^^ 0x8000

/-- mul (R38). -/
def l16Mul (a b : Nat) : Res :=
  match decodeL16 a, decodeL16 b with
  | .nan, _ => ⟨l16NaN, 0, 0⟩
  | _, .nan => ⟨l16NaN, 0, 0⟩
  | .code s l, .code t m => l16Clamp (s != t) (l + m + 16384)
  | .inf _, .zero _ => ⟨l16NaN, 0, 0⟩
  | .zero _, .inf _ => ⟨l16NaN, 0, 0⟩
  | .zero _, _ => ⟨0, 0, 0⟩
  | _, .zero _ => ⟨0, 0, 0⟩
  | _, _ => ⟨l16Inf (bitOf a 15 != bitOf b 15), 0, 0⟩

/-- div (R38). -/
def l16Div (a b : Nat) : Res :=
  match decodeL16 a, decodeL16 b with
  | .nan, _ => ⟨l16NaN, 0, 0⟩
  | _, .nan => ⟨l16NaN, 0, 0⟩
  | .zero _, .zero _ => ⟨l16NaN, 0, 0⟩
  | .inf _, .inf _ => ⟨l16NaN, 0, 0⟩
  | .code s l, .code t m => l16Clamp (s != t) (l - m + 16384)
  | .zero _, _ => ⟨0, 0, 0⟩
  | _, .inf _ => ⟨0, 0, 0⟩
  | _, _ => ⟨l16Inf (bitOf a 15 != bitOf b 15), 0, 0⟩

/-- Half of an integer, to nearest with ties to even. -/
def halfEven (x : Int) : Int := roundShift x 1

/-- sqrt (R38, R155). -/
def l16Sqrt (a : Nat) : Res :=
  match decodeL16 a with
  | .zero _ => ⟨0, 0, 0⟩
  | .inf false => ⟨0x7FFF, 0, 0⟩
  | .code false l => l16Clamp false (halfEven (l + 32768))
  | _ => ⟨l16NaN, 0, 0⟩

/-- rsqrt (R38, R155). -/
def l16Rsqrt (a : Nat) : Res :=
  match decodeL16 a with
  | .zero _ => ⟨0x7FFF, 0, 0⟩
  | .inf false => ⟨0, 0, 0⟩
  | .code false l => l16Clamp false (halfEven (32768 - l))
  | _ => ⟨l16NaN, 0, 0⟩

/-- The subtraction of near operands through the 32-bit linear path, relative to A (R68): 24 fraction bits of code. -/
def nearSub (n : Nat) : Int :=
  let diff := 2 ^ 31 - desc n * 2 ^ 7
  let k := 32 - bitLen diff
  256 * (-((k : Int)) * 2 ^ 24 + (retF (diff * 2 ^ k * 2 ^ 22) : Int))

/-- Log-domain add of two finite codes: A the larger in magnitude or `a` when equal (R66). -/
def addFinite (sa : Bool) (ma : Int) (sb : Bool) (mb : Int) : Res :=
  let swap := decide (ma < mb)
  let s := if swap then sb else sa
  let m := max ma mb
  let n := (m - min ma mb).toNat
  if 2560 ≤ n then l16Clamp s m
  else if sa = sb then l16Clamp s (m + roundShift (interp4 phiTab (n / 4) (n % 4)) 15)
  else if n = 0 then ⟨0, 0, 0⟩
  else if n < 256 then l16Clamp s (roundShift (m * 2 ^ 24 + nearSub n) 24)
  else l16Clamp s (m - roundShift (interp4 psiTab ((n - 256) / 4) ((n - 256) % 4)) 15)

/-- add (R38, R66). -/
def l16Add (a b : Nat) : Res :=
  match decodeL16 a, decodeL16 b with
  | .nan, _ => ⟨l16NaN, 0, 0⟩
  | _, .nan => ⟨l16NaN, 0, 0⟩
  | .inf s, .inf t => if s = t then ⟨l16Inf s, 0, 0⟩ else ⟨l16NaN, 0, 0⟩
  | .inf s, _ => ⟨l16Inf s, 0, 0⟩
  | _, .inf t => ⟨l16Inf t, 0, 0⟩
  | .zero _, _ => ⟨b % 2 ^ 16, 0, 0⟩
  | _, .zero _ => ⟨a % 2 ^ 16, 0, 0⟩
  | .code s l, .code t m => addFinite s (l + 16384) t (m + 16384)
  | _, _ => ⟨l16NaN, 0, 0⟩

/-- sub: the subtrahend is negated first (R66). -/
def l16Sub (a b : Nat) : Res := l16Add a (l16Neg b)

/-- max (R38). -/
def l16Max (a b : Nat) : Nat :=
  match l16Key a, l16Key b with
  | none, _ => b % 2 ^ 16
  | _, none => a % 2 ^ 16
  | some x, some y => if x < y then b % 2 ^ 16 else a % 2 ^ 16

/-- min (R38). -/
def l16Min (a b : Nat) : Nat :=
  match l16Key a, l16Key b with
  | none, _ => b % 2 ^ 16
  | _, none => a % 2 ^ 16
  | some x, some y => if y < x then b % 2 ^ 16 else a % 2 ^ 16

/-- The comparisons of CMP by their code (R38, R155). -/
def l16Cmp (cond a b : Nat) : Bool :=
  match l16Key a, l16Key b with
  | some x, some y =>
    match cond with
    | 0 => decide (x = y)
    | 1 => decide (x ≠ y)
    | 2 => decide (x < y)
    | 3 => decide (x ≤ y)
    | 4 => decide (y < x)
    | _ => decide (y ≤ x)
  | _, _ => cond == 1

/-- clip (R38). -/
def l16Clip (x lo hi : Nat) : Nat :=
  if x % 2 ^ 16 = l16NaN then l16NaN else l16Min (l16Max x lo) hi

/-- sign (R38). -/
def l16Sign (x : Nat) : Nat :=
  if x % 2 ^ 16 = l16NaN then l16NaN
  else if x % 2 ^ 15 = 0 then 0 else if bitOf x 15 then 0xC000 else 0x4000

/-- The stochastic sum of R157 into a format, with its draw; an integer takes the linear value by the power table of R138 (DESIGN CHOICE, log entry
73). -/
def srsInto (f : Fmt) (a b : Nat) (r : Nat) : Res :=
  let through (x : Nat) : Res := convertNum (decodeL16 x) f 0 (some r)
  match decodeL16 a, decodeL16 b with
  | .nan, _ => through l16NaN
  | _, .nan => through l16NaN
  | .inf s, .inf t => through (if s = t then l16Inf s else l16NaN)
  | .inf s, _ => through (l16Inf s)
  | _, .inf t => through (l16Inf t)
  | .zero _, _ => through b
  | _, .zero _ => through a
  | .code sa la, .code sb lb =>
    let s := if la < lb then sb else sa
    let l := max la lb
    let n := (l - min la lb).toNat
    let t := desc (n % 256) * 2 ^ 22 / 2 ^ (n / 256)
    let v : Nat := if sa = sb then 2 ^ 46 + t else 2 ^ 46 - t
    if v = 0 then ⟨0, 0, 0⟩
    else
      let q := roundSig 54 v (-46)
      convertNum (.wide s (l * 2 ^ 16 + q.2 * 2 ^ 24 + (retF q.1 : Int))) f 0 (some r)
  | _, _ => through l16NaN

/-! ### Programs -/

/-- A decoded instruction word (R154). -/
structure VInstr where
  op : Nat
  dst : Nat
  a : Nat
  b : Nat
  c : Nat
  imm : Nat
  deriving DecidableEq, Repr

/-- The fields of an instruction word (R154). -/
def decodeV (w : Nat) : VInstr :=
  ⟨bitsOf w 31 26, bitsOf w 25 22, bitsOf w 21 18, bitsOf w 17 14, bitsOf w 13 10, bitsOf w 9 0⟩

/-- A program image (R153): its constants and its instructions. -/
structure Prog where
  consts : List Nat
  code : List VInstr
  deriving DecidableEq, Repr

/-- The program of a 256-byte image (R153). -/
def progOf (img : List Byte) : Prog :=
  { consts := (List.range 16).map fun c => fld img (8 + 4 * c) 4
    code := (List.range (fld img 0 1)).map fun p => decodeV (fld img (72 + 4 * p) 4) }

/-- Which tensors are bound, with formats, and whether block-scale loads are allowed (R214, R264, R265). -/
structure VBind where
  ins : List (Option Fmt)
  outs : List (Option Fmt)
  /-- whether the output has block scales of its own (R214) -/
  scaled : List Bool
  lds : Bool
  deriving DecidableEq, Repr

/-- Whether output `k` may be an output of SRS: L16, L8 without block scales, or an integer (R157). -/
def srsFmt (bd : VBind) (k : Nat) : Bool :=
  match bd.outs.getD k none with
  | some .l16 => true
  | some .l8 => !bd.scaled.getD k false
  | some (.int _ _) => true
  | _ => false

/-- Whether an instruction uses its fields as R154 to R157 allow, and names only bound tensors (R214). -/
def VInstr.ok (bd : VBind) (i : VInstr) : Bool :=
  let z (dst a b c : Bool) : Bool :=
    (dst || i.dst == 0) && (a || i.a == 0) && (b || i.b == 0) && (c || i.c == 0)
  let inOk : Bool := decide (i.imm < 4) && (bd.ins.getD i.imm none).isSome
  match i.op with
  | 0x00 => z false false false false && i.imm == 0
  | 0x01 => z true false false false && inOk
  | 0x02 => z true false false false && inOk && bd.lds
  | 0x03 => z true false false false && decide (i.imm < 16)
  | 0x04 => z false true false false && decide (i.imm < 2) && (bd.outs.getD i.imm none).isSome
  | 0x05 => z true true true false && decide (i.imm < 4) && srsFmt bd (i.imm % 2)
  | 0x08 => z true true true false && i.imm == 0
  | 0x09 => z true true true false && i.imm == 0
  | 0x0A => z true true true false && i.imm == 0
  | 0x0B => z true true true false && i.imm == 0
  | 0x0C => z true true false false && i.imm == 0
  | 0x0D => z true true false false && i.imm == 0
  | 0x0E => z true true true false && i.imm == 0
  | 0x0F => z true true true false && i.imm == 0
  | 0x10 => z true true true false && decide (i.imm < 6)
  | 0x11 => z true true true true && i.imm == 0
  | 0x12 => z true true true true && i.imm == 0
  | 0x13 => z true true true true && i.imm == 0
  | 0x14 => z true true false false && i.imm == 0
  | 0x18 =>
    match fmtOfCode (i.imm % 16), fmtOfCode (i.imm / 16 % 16) with
    | some f, some t =>
      z true true (bitOf i.imm 9) false && (!bitOf i.imm 9 || f == .l8 || t == .l8)
        && !(bitOf i.imm 8 && t.ieee.isSome)
    | _, _ => false
  | _ => false

/-- A program image keeps R153 and R154. -/
def progOk (bd : VBind) (img : List Byte) : Bool :=
  let n := fld img 0 1
  img.length == 256 && decide (1 ≤ n ∧ n ≤ 32) && allZero (slice img 1 7)
    && allZero (slice img (72 + 4 * n) (184 - 4 * n)) && (progOf img).code.all (·.ok bd)

/-- What an element's program reads: raw input elements, their scale bytes, formats, and the keys of its draws. -/
structure VIn where
  ins : List Nat
  scales : List Int
  outFmts : List Fmt
  key : DrawKey
  index : Nat
  deriving DecidableEq, Repr

/-- The registers, outputs and counts of one element's run (R152, R265). -/
structure VState where
  regs : List Nat
  outs : List (Option Nat)
  sat : Nat := 0
  under : Nat := 0
  deriving DecidableEq, Repr

/-- Low 16 bits of a register (R154). -/
def VState.r16 (v : VState) (i : Nat) : Nat := v.regs.getD i 0 % 2 ^ 16

/-- Write a register with a counted result. -/
def VState.put (v : VState) (dst : Nat) (r : Res) : VState :=
  { v with regs := v.regs.set dst (r.v % 2 ^ 32), sat := v.sat + r.sat, under := v.under + r.under }

/-- The stream identity of a stochastic instruction: SID + 1 for results that go to out1 next (R158). -/
def drawFor (io : VIn) (toOut1 : Bool) : Nat :=
  draw16 { io.key with sid := (io.key.sid + b2n toOut1) % 2 ^ 16 } 0 io.index

/-- Whether the next use of `dst` as a store is a store to out1 (R158). -/
def nextStoreOut1 (dst : Nat) : List VInstr → Bool
  | [] => false
  | i :: is =>
    if i.op = 0x04 ∧ i.a = dst then i.imm % 2 == 1
    else if i.dst = dst ∧ i.op ≠ 0x00 ∧ i.op ≠ 0x04 then false
    else nextStoreOut1 dst is

/-- One instruction on one element (R155 to R157). `rest` is what follows it in the program. A CVT from L8 to L8 takes the block scale of SRC_B on
both sides (R156; DESIGN CHOICE, log entry 80). -/
def vstep (consts : List Nat) (io : VIn) (i : VInstr) (rest : List VInstr) (v : VState) : VState :=
  let a := v.r16 i.a
  let b := v.r16 i.b
  let c := v.r16 i.c
  match i.op with
  | 0x01 => v.put i.dst ⟨io.ins.getD (i.imm % 4) 0, 0, 0⟩
  | 0x02 => v.put i.dst ⟨unsignedOf 32 (io.scales.getD (i.imm % 4) 0), 0, 0⟩
  | 0x03 => v.put i.dst ⟨consts.getD (i.imm % 16) 0, 0, 0⟩
  | 0x04 =>
    let w := (io.outFmts.getD (i.imm % 2) .raw32).bits
    { v with outs := v.outs.set (i.imm % 2) (some (v.regs.getD i.a 0 % 2 ^ w)) }
  | 0x05 =>
    let r := srsInto (io.outFmts.getD (i.imm % 2) .l16) a (if bitOf i.imm 1 then l16Neg b else b)
      (drawFor io (i.imm % 2 == 1))
    { v.put i.dst r with outs := v.outs.set (i.imm % 2) (some r.v) }
  | 0x08 => v.put i.dst (l16Add a b)
  | 0x09 => v.put i.dst (l16Sub a b)
  | 0x0A => v.put i.dst (l16Mul a b)
  | 0x0B => v.put i.dst (l16Div a b)
  | 0x0C => v.put i.dst (l16Sqrt a)
  | 0x0D => v.put i.dst (l16Rsqrt a)
  | 0x0E => v.put i.dst ⟨l16Max a b, 0, 0⟩
  | 0x0F => v.put i.dst ⟨l16Min a b, 0, 0⟩
  | 0x10 => v.put i.dst ⟨if l16Cmp (i.imm % 8) a b then 0x4000 else 0, 0, 0⟩
  | 0x11 => v.put i.dst ⟨if c ≠ 0 then v.regs.getD i.a 0 else v.regs.getD i.b 0, 0, 0⟩
  | 0x12 =>
    let d := l16Sub b a
    let p := l16Mul c d.v
    let s := l16Add a p.v
    v.put i.dst ⟨s.v, s.sat + p.sat + d.sat, s.under + p.under + d.under⟩
  | 0x13 => v.put i.dst ⟨l16Clip a b c, 0, 0⟩
  | 0x14 => v.put i.dst ⟨l16Sign a, 0, 0⟩
  | 0x18 =>
    let f := (fmtOfCode (i.imm % 16)).getD .l16
    let t := (fmtOfCode (i.imm / 16 % 16)).getD .l16
    let bs : Int := if bitOf i.imm 9 then signedOf 8 (v.regs.getD i.b 0) else 0
    let draw := if bitOf i.imm 8 then some (drawFor io (nextStoreOut1 i.dst rest)) else none
    v.put i.dst (convertNum (decodeFmt f (v.regs.getD i.a 0) (if f = .l8 then bs else 0)) t
      (if t = .l8 then bs else 0) draw)
  | _ => v

/-- The whole program on one element (R152). -/
def vrun (consts : List Nat) (io : VIn) : List VInstr → VState → VState
  | [], v => v
  | i :: is, v => vrun consts io is (vstep consts io i is v)

end Sys2Proof.Machine
end

