-- ==== Sys2Proof/Machine/Epilogue.lean ====
section
/-!
DEFINITION. The epilogue's stages on one element, and the row, square-sum and top-k statistics (07 R134 to R150).
-/

namespace Sys2Proof.Machine

/-- The fields of an epilogue record (R136). -/
structure EpiRec where
  stages : Nat
  outFmt : Nat
  outRound : Nat
  outInt : Nat
  scale : Nat
  expBase : Nat
  topk : Nat
  scaleId : Nat
  biasAddr : Nat
  scaleAddr : Nat
  funcAddr : Nat
  rowstatAddr : Nat
  topkAddr : Nat
  sqAddr : Nat
  bscaleAddr : Nat
  deriving DecidableEq, Repr

/-- The record of an 80-byte image (R136). -/
def epiOf (b : List Byte) : EpiRec :=
  { stages := fld b 0 1, outFmt := fld b 1 1, outRound := fld b 2 1, outInt := fld b 3 1, scale := fld b 4 2
    expBase := fld b 6 1, topk := fld b 7 1, scaleId := fld b 8 2, biasAddr := fld b 16 8, scaleAddr := fld b 24 8
    funcAddr := fld b 32 8, rowstatAddr := fld b 40 8, topkAddr := fld b 48 8, sqAddr := fld b 56 8
    bscaleAddr := fld b 64 8 }

/-- EPI_ADDR 0: every stage disabled, SCALE 1.0, nearest even (R135). -/
def epiDefault (outFmt : Nat) : EpiRec :=
  { stages := 0, outFmt := outFmt, outRound := 0, outInt := 0, scale := 0x4000, expBase := 0, topk := 0
    scaleId := 0xFFFF, biasAddr := 0, scaleAddr := 0, funcAddr := 0, rowstatAddr := 0, topkAddr := 0, sqAddr := 0
    bscaleAddr := 0 }

namespace Epi

/-- Stage bit names of R136. -/
def hasBias (e : EpiRec) : Bool := bitOf e.stages 0
def hasScaleVec (e : EpiRec) : Bool := bitOf e.stages 1
def hasFunc (e : EpiRec) : Bool := bitOf e.stages 2
def hasExp (e : EpiRec) : Bool := bitOf e.stages 3
def hasRowstat (e : EpiRec) : Bool := bitOf e.stages 4
def hasTopk (e : EpiRec) : Bool := bitOf e.stages 5
def hasSqstat (e : EpiRec) : Bool := bitOf e.stages 6
def noOut (e : EpiRec) : Bool := bitOf e.stages 7

end Epi

/-- An address field of a record: 52 bits, non-zero exactly when its stage is enabled (R136). -/
def addrField (on : Bool) (a : Nat) : Bool := if on then a != 0 && decide (a < 2 ^ 52) else a == 0

/-- An epilogue record keeps R136. -/
def epiOk (b : List Byte) : Bool :=
  let e := epiOf b
  b.length == 80 && decide (e.outFmt ≤ 6 ∧ e.outRound ≤ 1)
    && (if e.outFmt = 6 then decide (1 ≤ e.outInt ∧ e.outInt ≤ 15) else e.outInt == 0)
    && (match decodeL16 e.scale with | .code _ _ => true | _ => false)
    && (if Epi.hasExp e then decide (e.expBase ≤ 1) else e.expBase == 0)
    && (if Epi.hasTopk e then decide (1 ≤ e.topk ∧ e.topk ≤ 16) else e.topk == 0)
    && allZero (slice b 10 6) && allZero (slice b 72 8)
    && addrField (Epi.hasBias e) e.biasAddr && addrField (Epi.hasScaleVec e) e.scaleAddr
    && addrField (Epi.hasFunc e) e.funcAddr && addrField (Epi.hasRowstat e) e.rowstatAddr
    && addrField (Epi.hasTopk e) e.topkAddr && addrField (Epi.hasSqstat e) e.sqAddr
    && addrField (e.outFmt == 2) e.bscaleAddr
    && !(Epi.noOut e && !(Epi.hasRowstat e || Epi.hasTopk e || Epi.hasSqstat e))
    && !(e.outFmt == 2 && e.scaleId == 0xFFFF)
    && !(e.outRound == 1 && (e.outFmt == 3 || e.outFmt == 4 || e.outFmt == 5))

/-- A function table image keeps R141. -/
def funcOk (b : List Byte) : Bool :=
  b.length == 1040 && decide (fld b 2 1 ≤ 12) && fld b 3 1 == 0 && allZero (slice b 10 6)
    && (List.range 256).all fun s =>
      let w := fld b (16 + 4 * s) 4
      decide (w / 2 ^ 30 = 0) && decide (bitsOf w 29 28 < 3)

/-- A value between stages: a total or a wide log value (R137). -/
inductive EVal where
  | tot (t : Total)
  | wide (x : Num)
  deriving DecidableEq, Repr

/-- A stage's output with whether it saturated or underflowed. -/
structure EOut where
  v : EVal
  sat : Bool := false
  under : Bool := false
  deriving DecidableEq, Repr

/-- A wide log result under R137's range. -/
def mkWide (neg : Bool) (lg : Int) : EOut :=
  if 2 ^ 33 ≤ lg then ⟨.wide (.wide neg (2 ^ 33 - 1)), true, false⟩
  else if lg < -(2 ^ 33) then ⟨.wide (.zero false), false, true⟩
  else ⟨.wide (.wide neg lg), false, false⟩

/-- A value as a convertible number. -/
def EVal.num : EVal → Num
  | .tot t => t.num
  | .wide x => x

/-- A value in wide form (R137). -/
def EVal.toWide (v : EVal) : Num :=
  match v.num with
  | .lin neg sig e => .wide neg (Num.lg (.lin neg sig e))
  | .code neg l => .wide neg (l * 2 ^ 16)
  | x => x

/-- Whether a value is zero, infinite or NaN, for R38's rule for mul. -/
def mulClass (a b : Num) (neg : Bool) : Num :=
  match a, b with
  | .nan, _ => .nan
  | _, .nan => .nan
  | .zero _, .inf _ => .nan
  | .inf _, .zero _ => .nan
  | .zero _, _ => .zero false
  | _, .zero _ => .zero false
  | _, _ => .inf neg

/-- The sign of a value. -/
def Num.neg : Num → Bool
  | .inf n => n
  | .zero n => n
  | .lin n _ _ => n
  | .code n _ => n
  | .wide n _ => n
  | .nan => false

/-- Whether a value is finite and not zero. -/
def Num.finite : Num → Bool
  | .lin _ _ _ => true
  | .code _ _ => true
  | .wide _ _ => true
  | _ => false

/-- Stage 1, the scale (R140): `elem` is the scale element's code when there is one. -/
def stageScale (ep : EpiRec) (elem : Option Nat) (t : Total) : EOut :=
  let m1 : Int := (ep.scale % 2 ^ 15 : Nat)
  let s1 := bitOf ep.scale 15
  let en : Num := match elem with | none => .code false 0 | some c => decodeL16 c
  match en with
  | .code s2 l2 =>
    let d := m1 - 16384 + l2
    let neg := s1 != s2
    if d % 256 = 0 ∧ !Epi.hasFunc ep ∧ !Epi.hasExp ep then
      match t with
      | .fin n e sig =>
        let e' := e + d / 256
        if 255 < e' then ⟨.tot (.fin (n != neg) 255 (2 ^ 54 - 1)), true, false⟩
        else if e' < -255 then ⟨.tot (.zero 0), false, true⟩
        else ⟨.tot (.fin (n != neg) e' sig), false, false⟩
      | .inf n => ⟨.tot (.inf (n != neg)), false, false⟩
      | t => ⟨.tot t, false, false⟩
    else
      match (EVal.tot t).toWide with
      | .wide n lg => mkWide (n != neg) (lg + d * 2 ^ 16)
      | .inf n => ⟨.wide (.inf (n != neg)), false, false⟩
      | x => ⟨.wide x, false, false⟩
  | x => ⟨.wide (mulClass t.num x ((t.num.neg != s1) != x.neg)), false, false⟩

/-- An L16 code as a wide value. -/
def wideOfL16 (c : Nat) : Num :=
  match decodeL16 c with
  | .code neg l => .wide neg (l * 2 ^ 16)
  | x => x

/-- Stage 2, the function table image `b` (R142). -/
def stageFunc (b : List Byte) (v : EVal) : EOut :=
  match v.toWide with
  | .nan => ⟨.wide .nan, false, false⟩
  | .zero _ => ⟨.wide (wideOfL16 (fld b 4 2)), false, false⟩
  | .inf neg => ⟨.wide (wideOfL16 (if neg then fld b 8 2 else fld b 6 2)), false, false⟩
  | x =>
    let lg := x.lg
    let lo : Int := signedOf 16 (fld b 0 2) * 2 ^ 16
    let w : Int := 2 ^ (fld b 2 1 + 16)
    let s : Int := clampI 0 127 ((lg - lo) / w)
    let off := lg - (lo + s * w)
    let ent := fld b (16 + 4 * (s.toNat + if x.neg then 128 else 0)) 4
    let y0 := ent % 2 ^ 16
    let mode := bitsOf ent 29 28
    if mode = 2 then ⟨.wide x, false, false⟩
    else
      match decodeL16 y0 with
      | .code neg l =>
        if mode = 1 then ⟨.wide (wideOfL16 y0), false, false⟩
        else mkWide neg (l * 2 ^ 16 + asr (signedOf 12 (bitsOf ent 27 16) * off) 8)
      | y => ⟨.wide y, false, false⟩

/-- Stage 3, exponentiation (R143). -/
def stageExp (base : Nat) (v : EVal) : EOut :=
  let bq : Int := if base = 0 then 2 ^ 24 else 24204406
  match v.toWide with
  | .nan => ⟨.wide .nan, false, false⟩
  | .inf neg => ⟨.wide (if neg then .zero false else .inf false), false, false⟩
  | .zero _ => ⟨.wide (.wide false 0), false, false⟩
  | x =>
    let lg := x.lg
    if 9 * 2 ^ 24 ≤ lg then
      if x.neg then ⟨.wide (.zero false), false, true⟩ else ⟨.wide (.wide false (2 ^ 33 - 1)), true, false⟩
    else
      let p := powF (lg % 2 ^ 24).toNat
      let fl := lg / 2 ^ 24
      let mag : Nat := if 0 ≤ fl then p * 2 ^ fl.toNat else p / 2 ^ (-fl).toNat
      mkWide false (asr (sgn x.neg mag * bq) 24)

/-- Stages 1 to 3 of an element: the value of stage 1 and the value of stage 3 with its flags (R134, R139, R150). -/
def stages123 (ep : EpiRec) (func : List Byte) (bias elem : Option Nat) (t : Total) : EVal × EOut :=
  let biased : Total × Cnt :=
    match bias with
    | none => (t, {})
    | some c => let r := ({ run := .zero, total := t } : Entry).merge (decodeL16 c).total; (r.1.total, r.2)
  let o1 := stageScale ep elem biased.1
  let o2 := if Epi.hasFunc ep then stageFunc func o1.v else ⟨o1.v, false, false⟩
  let o3 := if Epi.hasExp ep then stageExp ep.expBase o2.v else ⟨o2.v, false, false⟩
  (o1.v, ⟨o3.v, decide (0 < biased.2.sat) || o1.sat || o2.sat || o3.sat,
    decide (0 < biased.2.under) || o1.under || o2.under || o3.under⟩)

/-- The L16 code that stages 4 and 5 read, uncounted (R144). -/
def EVal.l16 (v : EVal) : Nat := (convertNum v.num .l16 0 none).v

/-- Groups in order into one entry in ordered mode, promoted after every 16 and at the end (R75, R78). -/
def reduceGroups : Nat → Entry → List GroupRes → Entry
  | _, en, [] => en.promote.1
  | k, en, g :: gs =>
    let e1 := (en.enter g).1
    if k = 15 then reduceGroups 0 e1.promote.1 gs else reduceGroups (k + 1) e1 gs

/-- Products cut into groups of `g` (R52). -/
def groupsOf : Nat → Nat → List Prod1 → List GroupRes
  | 0, _, _ => []
  | _, _, [] => []
  | f + 1, g, ps => groupSum (ps.take g) :: groupsOf f g (ps.drop g)

/-- One reduction on the log path with GROUP 16 in ordered mode (R145, R162). -/
def reduce16 (ps : List Prod1) : Total := (reduceGroups 0 {} (groupsOf ps.length 16 ps)).total

/-- 1.0 as an operand. -/
def opdOne : Opd := .log false 0

/-- The sum of L16 values as products with 1.0 (R145). -/
def rowSum (vals : List Nat) : Total := reduce16 (vals.map fun v => mulOpd (opdOfNum (decodeL16 v)) opdOne)

/-- The sum of squares of L16 values (R146). -/
def sqSum (vals : List Nat) : Total :=
  reduce16 (vals.map fun v => mulOpd (opdOfNum (decodeL16 v)) (opdOfNum (decodeL16 v)))

/-- Number of values that are not NaN. -/
def presentCount (vals : List Nat) : Nat := (vals.filter fun v => v % 2 ^ 16 != l16NaN).length

/-- The largest value under R38, NaN when there is none. -/
def rowMax (vals : List Nat) : Nat := vals.foldl l16Max l16NaN

/-- Insert a value with its index into a list kept in descending order, ties to the lower index (R38, R147). -/
def insertDesc (v : Nat × Nat) : List (Nat × Nat) → List (Nat × Nat)
  | [] => [v]
  | w :: ws =>
    match l16Key v.1, l16Key w.1 with
    | some a, some b => if b < a then v :: w :: ws else w :: insertDesc v ws
    | _, _ => w :: insertDesc v ws

/-- The values that are not NaN, with their indices, in descending order (R38). -/
def sortDesc (vals : List Nat) : List (Nat × Nat) :=
  vals.zipIdx.foldl (fun acc v => if v.1 % 2 ^ 16 = l16NaN then acc else insertDesc v acc) []

/-- A row record (R145) with the saturations and underflows of its two conversions. -/
def rowRecord (vals : List Nat) (c : Nat) : List Byte × Cnt :=
  let t := rowSum vals
  let f := convertNum t.num .fp32 0 none
  let l := convertNum t.num .l16 0 none
  (toLe 4 f.v ++ toLe 2 l.v ++ toLe 2 (rowMax vals) ++ toLe 2 (presentCount vals) ++ toLe 2 0 ++ toLe 4 c,
    { sat := f.sat + l.sat, under := f.under + l.under })

/-- A top-k record (R147). -/
def topkRecord (k : Nat) (vals : List Nat) (c : Nat) : List Byte :=
  let best := sortDesc vals
  toLe 4 c ++ toLe 1 k ++ toLe 1 (presentCount vals) ++ toLe 2 0 ++
    (List.range 16).flatMap fun i =>
      if k ≤ i then toLe 4 0
      else match best[i]? with
        | some v => toLe 2 v.1 ++ toLe 2 v.2
        | none => toLe 2 l16NaN ++ toLe 2 0xFFFF

/-- A square-sum record (R146) of a tile of stage 1 values held by row: rows then columns, absent ones zero. -/
def sqRecord (rows : List (List Nat)) : List Byte × Cnt :=
  let conv (vals : List Nat) : Res := convertNum (sqSum vals).num .l16 0 none
  let rs := (List.range 64).map fun i =>
    match rows[i]? with | some r => conv r | none => ⟨0, 0, 0⟩
  let ncols := (rows.headD []).length
  let cs := (List.range 64).map fun j =>
    if j < ncols then conv (rows.filterMap fun r => r[j]?) else ⟨0, 0, 0⟩
  let all := rs ++ cs
  (all.flatMap fun r => toLe 2 r.v,
    { sat := all.foldl (fun n r => n + r.sat) 0, under := all.foldl (fun n r => n + r.under) 0 })

/-- log2 of the largest magnitude over values neither zero nor NaN, in 1/256 binade, an infinity counting as code 32767
(R150, R279, R281). -/
def maxMag (vals : List Nat) : Option Int :=
  let ms := (vals.map (· % 2 ^ 15)).filter (· != 0)
  if ms.isEmpty then none else some ((ms.foldl max 0 : Nat) - 16384 : Int)

/-- The block scale of MODE 1 (R281). -/
def blockScale (scale top : Int) (vals : List Nat) : Int :=
  match maxMag vals with
  | none => scale
  | some l => clampI (-128) 127 (ceilDivI (l + 256 - top) 256)

end Sys2Proof.Machine
end

