-- ==== Sys2Proof/Machine/State.lean ====
section
/-!
DEFINITION. The state of the module: every register, record, queue, buffer, tile, table and pin the manual names,
as plain data, and the queue of commands that wait. Multi-bit registers that only hold a number are Nat; free-running
counts and masks are bit vectors of the manual's width.
-/

namespace Sys2Proof.Machine

/-! ### Contexts, rings, completion rings (09 R196 to R227) -/

/-- STATE of a context record (R197). -/
inductive CtxState where
  | free
  | active
  | aborting
  | orphaned
  deriving DecidableEq, Repr

/-- A software abort or destruction, or an abort on a fault, that a context has under way (R199, R390): whether it ends in
destruction, and the command area that waits for it. -/
structure CtxEnd where
  destroy : Bool
  area : Option (Port × Fn)
  deriving DecidableEq, Repr

/-- A context record (R197) with CTX.FUNC and MEM.ROOT (16); `born` is the port whose function made it (R196). RINGS and IN_FLIGHT are counted from the rings and
tags. `ends` holds the aborts under way, `withdrawn` says that an adoption withdrew the host mappings (R226), `remapped` which 2 MiB regions are mapped again. -/
structure Ctx where
  state : CtxState := .free
  owner : Port := 0
  consent : Bool := false
  priv : Nat := 0
  pasid : Nat := 0
  seed : W64 := 0
  defPrec : Nat := 0
  defGroup : Nat := 0
  semLog2 : Nat := 0
  semBase : Nat := 0
  engineAllow : W64 := 0
  groupTable : Nat := 0
  stepPage : Nat := 0
  func : Fn := 0
  born : Port := 0
  rootValid : Bool := false
  root : Nat := 0
  ends : List CtxEnd := []
  withdrawn : Bool := false
  remapped : List Nat := []
  deriving DecidableEq, Repr

/-- STATE of a submission ring (R227). -/
inductive RingState where
  | disabled
  | active
  | stopped
  | error
  deriving DecidableEq, Repr

/-- What a command keeps when its context is freed while its record waits: its completion ring, and the context as it stood
(R199, R206, R220, R429). -/
structure Home where
  port : Port
  cq : CqNo
  ctx : Ctx
  deriving DecidableEq, Repr

/-- A submission ring record (R227) with its PAUSED bit, a requested DISABLE, and open SELECT 1 ranges (R223). -/
structure Ring where
  state : RingState := .disabled
  log2Len : Nat := 0
  ctx : CtxNo := 0
  cq : CqNo := 0
  err : Nat := 0
  base : Nat := 0
  head : W32 := 0
  tail : W32 := 0
  done : W32 := 0
  abandoned : Nat := 0
  paused : Bool := false
  disabling : Option Fn := none
  cancelRanges : List (W32 × W32) := []
  deriving DecidableEq, Repr

/-- STATE of a completion ring apart from FULL, which TAIL, HEAD and the length give (R206, R227). -/
inductive CqState where
  | disabled
  | active
  | error
  deriving DecidableEq, Repr

/-- A completion ring record (R227, R392) with the raised mark of R207 and a requested DISABLE. -/
structure Cq where
  state : CqState := .disabled
  log2Len : Nat := 4
  vector : Nat := 0
  modCount : Nat := 1
  modTime : Nat := 0
  base : Nat := 0
  tail : W32 := 0
  head : W32 := 0
  discarded : W32 := 0
  raised : Bool := false
  disabling : Option Fn := none
  deriving DecidableEq, Repr

/-- Where a command stands between fetch and record (R215, tag STATE of R227). -/
inductive Phase where
  /-- the tag is free -/
  | free
  /-- fetched, step 2 not yet passed -/
  | fetched
  /-- waiting at step 2 for a page-request response (R428) -/
  | priWait
  /-- waiting at step 4 for one, for its count record (R190) -/
  | priWait4
  /-- waiting at step 5 for one (R272, R344) -/
  | priWait5
  /-- step 3, ordering flags -/
  | ordering
  /-- step 3, semaphore -/
  | semaphore
  /-- step 4 -/
  | predicate
  /-- step 5 -/
  | admission
  /-- step 6 -/
  | running
  /-- work ended, steps 7 and 8 to come -/
  | ended
  /-- stopped by a cancellation or an abort, waiting for its stop or its melt -/
  | cancelling
  /-- step 8 passed, the record is ready (R206) -/
  | record
  deriving DecidableEq, Repr

/-- The outcome of an item in one partition (R364). -/
structure ItemOut where
  result : Nat
  windows : Nat
  preempted : Bool
  failEngines : Nat
  values : List Byte
  deriving DecidableEq, Repr

/-- The records of one MATMUL or FUSED stage, copied at step 2 (R428). -/
structure StageCopy where
  body : List Byte := []
  ext : List Byte := []
  epi : List Byte := []
  func : List Byte := []
  deriving DecidableEq, Repr

/-- SCALE, MODE and TOP of a tracker entry as read at step 5 (R281). -/
structure ScaleRead where
  scale : Int := 0
  mode : Nat := 0
  top : Int := 0
  deriving DecidableEq, Repr

/-- A segment of a collective at this module: its elements (bits of partial totals, or codes), the contributors folded
in, the highest rank folded in, and whether it has been sent on. -/
structure CollSeg where
  data : List Nat := []
  contrib : Nat := 0
  last : Nat := 0
  own : Bool := false
  sent : Bool := false
  deriving DecidableEq, Repr

/-- Progress of a collective held by its command (R305 to R320): its group sequence number, the EPOCH and DIGEST it runs
under, the contributors at its checks, its held inputs (one list for each contributor), its segments, the sealed ones with
their contributor count, the bytes received
from each node of an exchange, whether sealed segments were kept over a change of epoch, whether SRC is read here, and the ranges of DST
written or about to be written, by segment. -/
structure CollProg where
  active : Bool := false
  gseq : Nat := 0
  epoch : Nat := 0
  digest : Nat := 0
  atCheck : Nat := 0
  inputs : List (List Nat) := []
  segs : Tab CollSeg := []
  sealedSegs : Tab (Nat × List Nat) := []
  written : List Nat := []
  kept : Bool := false
  rx : Tab (Tab (List Byte)) := []
  reads : Bool := false
  wrote : List (Nat × Nat × Nat) := []
  deriving DecidableEq, Repr

/-- Progress of a CHECKPOINT or RESTORE (R344 to R350): the manifest or section table, the tables as they stood at the
snapshot point, the CRC of each finished section, the digest so far, the header, the image bytes that a peer has sent (`data`, in stream order) or is to
get (`out`), by the engine that carries them; the tensor bytes read so far of the section at hand (`cur`), and the pages read out of turn, by
address (`early`, R345). -/
structure SnapProg where
  tensors : List (Nat × Nat) := []
  lossFmt : Nat := 0xFF
  loss : Nat := 0
  tables : List (List Byte) := []
  crcs : List Nat := []
  digest : Nat := 0
  header : List Byte := []
  data : Tab (List Byte) := []
  out : Tab (List Byte) := []
  cur : List Byte := []
  early : List (Nat × List Byte) := []
  deriving DecidableEq, Repr

/-- STATE of a tile (R81). -/
inductive TileState where
  | free
  | busy
  | held
  | draining
  deriving DecidableEq, Repr

/-- An accumulator tile with its status record (R70, R73, R81, R90, R98). -/
structure Tile where
  state : TileState := .free
  cls : Nat := 0
  satFlag : Bool := false
  parked : Bool := false
  k : Nat := 0
  owner : CtxNo := 0
  group : Nat := 0
  mode : Nat := 0
  satCount : Nat := 0
  underCount : Nat := 0
  fenceCount : Nat := 0
  windowCount : Nat := 0
  groups : Nat := 0
  lastPort : Port := 0
  lastTag : Tag := 0
  entries : Tab Entry := []
  deriving DecidableEq, Repr

/-- Records copied at step 2 while others are still to be read: address, length and bytes (R428). -/
abbrev Copies := List (Nat × Nat × List Byte)

/-- A command that holds a tag: its descriptor and record copies, what it inherited, and what it has gathered. `maps` are the tile maps that
its stages' streams have read (R171, R230), `tested` the outcomes of the test of R193 on the gradient rows that have landed on each engine (true: all
zero), `granted` the entries accepted for each expert once a ROUTE has worked (R187). `causeAt` is the
HKCLK count at which its status was decided (R222), `cancellers` are the CANCELs that selected it, each with its order number (R224),
`home` is set when its context is freed before its record is written. `tilesFormed` and `tilesDrained` count the output tiles of each FUSED
stage whose reduction, and whose drain, has ended; `blocks` are the column blocks in its hand-over areas, two to a stage (R244). -/
structure Cmd where
  phase : Phase := .free
  ctx : CtxNo := 0
  ring : RingNo := 0
  index : Nat := 0
  count : W32 := 0
  order : Nat := 0
  desc : List Byte := []
  prec : Nat := 0
  group : Nat := 0
  seed : W64 := 0
  groupTable : Nat := 0
  stepPage : Nat := 0
  stages : List StageCopy := []
  prog : List Byte := []
  binds : List Byte := []
  xhdr : List Byte := []
  engines : W64 := 0
  scales : List ScaleRead := []
  entry : List Byte := []
  hotLr : Nat := 0
  factor : Nat := 0
  accepted : Nat := 0
  chosen : Option Eng := none
  status : Option Nat := none
  causeAt : W64 := 0
  home : Option Home := none
  copies : Copies := []
  maps : Tab (List Byte) := []
  tested : Tab (List Bool) := []
  granted : Option (List Nat) := none
  sat : Nat := 0
  under : Nat := 0
  aux0 : Nat := 0
  aux1 : Nat := 0
  regularised : Bool := false
  reduced : Bool := false
  predSkipped : Bool := false
  noSignal : Bool := false
  signalled : Bool := false
  faultPosted : Bool := false
  cancellers : List (Port × Tag × Nat) := []
  outs : Tab ItemOut := []
  progress : Nat := 0
  maxSeen : Option Int := none
  tilesFormed : Tab Nat := []
  tilesDrained : Tab Nat := []
  blocks : Tab (List (List Nat)) := []
  parts : List (Nat × Tile) := []
  coll : CollProg := {}
  snap : SnapProg := {}
  melted : Nat := 0
  recordPri : Bool := false
  time : W64 := 0
  deriving DecidableEq, Repr

/-- CTX.CMD and CTX.RESULT, RING.CMD, RING.RESULT, RING.COUNT and CTX.STAGE of one function's area (16 R389, R393). -/
structure Area where
  ctxCmd : Nat := 0
  ctxState : Nat := 0
  ctxReason : Nat := 0
  ctxCtx : Nat := 0
  ctxOp : Nat := 0
  stage : List Byte := List.replicate 64 0
  ringCmd : Nat := 0
  ringState : Nat := 0
  ringReason : Nat := 0
  ringCount : W32 := 0
  deriving DecidableEq, Repr

/-- PORT.VF_RINGS (16). -/
structure VfRings where
  ringFirst : Nat := 0
  ringCount : Nat := 0
  cqFirst : Nat := 0
  cqCount : Nat := 0
  ctxMax : Nat := 0
  deriving DecidableEq, Repr

/-- An MSI-X table entry with its pending bit (16 R396). -/
structure Msix where
  addr : Nat := 0
  data : Nat := 0
  ctl : Nat := 1
  pend : Bool := false
  deriving DecidableEq, Repr

/-- A fault queue or an error queue (16 R400). -/
structure Queue where
  base : Nat := 0
  log2Len : Nat := 4
  enable : Bool := false
  tail : W32 := 0
  head : W32 := 0
  dropped : Nat := 0
  deriving DecidableEq, Repr

/-- A host port (09 R200 to R207, R225; 16 PORT, RING, IRQ, MEM, RCV blocks; 15 R378). -/
structure HostPort where
  enable : Bool := true
  linkUp : Bool := true
  linkLost : Bool := false
  lostTooLong : Bool := false
  perst : Bool := false
  perstUntilUp : Bool := false
  bar4Base : Nat := 0
  bar4Log2 : Nat := 36
  vfRings : Tab VfRings := []
  vfEnabled : Nat := 0
  areas : Tab Area := []
  rings : Tab Ring := []
  cqs : Tab Cq := []
  tags : Tab Cmd := []
  rrNext : Nat := 0
  event : Nat := 0
  cause : Nat := 0
  msix : Tab Msix := []
  vfMsix : Tab Msix := []
  faultQ : Queue := {}
  errQ : Queue := {}
  ide : Tab (List Byte) := []
  deriving DecidableEq, Repr

/-! ### Engines (04, 06, 10, 12) -/

/-- How far the lane groups and the table builder of a serial-path stage have come since its first index, or since its banks were last lost (R125, R131):
the next free cycle of each of the 256 lane groups, the cycle after which each of the last two banks was finished (and how many were), the builder's
place in tables, and the cycles counted (R132). -/
structure Lanes where
  next : List Nat := List.replicate 256 0
  ends : List Nat := []
  pos : Nat := 0
  wheel : Nat := 0
  fall : Nat := 0
  skew : Nat := 0
  deriving DecidableEq, Repr

/-- The table builder of an engine: the stage whose tables the banks hold, the number of its next filling, and the reduction index of the
step boundary that a rebuilt bank begins from (R125, R131). -/
structure Builder where
  port : Port
  tag : Tag
  stage : Nat
  next : Nat
  lo : Nat
  deriving DecidableEq, Repr

/-- STATE of a task-slot record (16). -/
inductive SlotState where
  | free
  | admitted
  | head
  | ready
  | waiting
  | parked
  | draining
  | cancelling
  deriving DecidableEq, Repr

/-- A named command's standing at its tile (R85 to R89). -/
inductive TilePass where
  | none
  /-- it fills the tile -/
  | filling
  /-- it has joined the command ahead of it in the tile -/
  | joined
  deriving DecidableEq, Repr

/-- A task slot (16 task-slot record) with the engine's progress in the command's units (R211): `unit` is the unit whose tile is being
filled, `begun` says that a product of the command has been formed here, `filled` that the reduction of `unit` has ended and its tile waits
for the drain in progress (R84); `draining`, `drainStage`, `drainUnit` and `drainTile` are that drain (a named tile drains where it
stands), `sent` the bytes of its partial totals that have gone to the engine of part 0 (R211). `joinAfter` is the command that a named one has joined (R86), `rows` counts the rows done of a command that works row by row, `vec` says that
its work on the vector unit has begun (R159), and `lanes` the serial path's progress by stage. -/
structure Slot where
  state : SlotState := .free
  port : Port := 0
  tag : Tag := 0
  ctx : CtxNo := 0
  opcode : Nat := 0
  stage : Nat := 0
  streams : Nat := 0
  workset : Nat := 0
  unit : Nat := 0
  lastUnit : Nat := 0
  admitSeq : Nat := 0
  group : Nat := 0
  formed : List (Nat × GroupRes) := []
  hasFormed : Bool := false
  begun : Bool := false
  filled : Bool := false
  draining : Bool := false
  drainStage : Nat := 0
  drainUnit : Nat := 0
  drainTile : Tile := {}
  sent : Nat := 0
  pass : TilePass := .none
  joinAfter : Option (Port × Tag) := none
  tile : Tile := {}
  rows : Nat := 0
  vec : Bool := false
  lanes : Tab Lanes := []
  stopping : Bool := false
  stopped : Bool := false
  lateWait : Nat := 0
  deriving DecidableEq, Repr

/-- STATE of a stream record (R234); the three ways in which an issuing stream can wait follow from the rest. -/
inductive StreamState where
  | idle
  | issuing
  | halted
  | melting
  | complete
  deriving DecidableEq, Repr

/-- A request in flight: queue, address, stream offset, bytes, whether its data will be discarded as melt (R254) or because its
slot was taken back (R232), and the TXN of one to a peer (R304). -/
structure Req where
  queue : Nat
  va : Nat := 0
  off : Nat
  bytes : Nat
  txn : Option W32 := none
  melt : Bool := false
  reclaim : Bool := false
  deriving DecidableEq, Repr

/-- A stream record (R234) with its requests in flight, the operand it serves (`role`), the bytes of its guaranteed slots (`cap`), and the
log2 sizes of its further slots: those it holds and those that are being taken back, with the stream offset that each begins at (R232). `held` is the operand data in its slots: stream
offset, device virtual address and bytes. `refetch` names the units, by their place in the engine's list, whose block could not be kept
(R231, R259). The address of its next request follows from its command. -/
structure Strm where
  state : StreamState := .idle
  kind : Nat := 0
  queue : Nat := 0
  task : Nat := 0
  port : Port := 0
  tag : Tag := 0
  role : Nat := 0
  cap : Nat := 0
  further : List Nat := []
  returning : List (Nat × Nat) := []
  ckpt : Bool := false
  length : Nat := 0
  position : Nat := 0
  landed : Nat := 0
  consumed : Nat := 0
  windowStart : Nat := 0
  rate : Nat := 0
  peloton : W64 := 0
  faultId : W32 := 0
  faultKind : Nat := 0
  meltBytes : Nat := 0
  reqs : List Req := []
  held : List (Nat × Nat × List Byte) := []
  refetch : List Nat := []
  deriving DecidableEq, Repr

/-- A group record (R308). -/
structure GroupRec where
  id : Nat := 0
  state : Nat := 0
  ctx : CtxNo := 0
  epoch : W32 := 0
  seq : W64 := 0
  mapAddr : Nat := 0
  ndep : Nat := 0
  digest : Nat := 0
  deps : List Nat := []
  deriving DecidableEq, Repr

/-- An engine: task slots, streams, tiles, tables, configuration, counts and group records (16 Engine windows). `orphans` are the reads
still to land of streams whose command has ended without waiting for them: they hold their credits and slots (R254, R328). -/
structure Engine where
  slots : Tab Slot := []
  admitCount : Nat := 0
  head : Option SlotNo := none
  streams : Tab Strm := []
  orphans : List (StreamNo × Req) := []
  named : Tab Tile := []
  banks : Tab (List Byte) := []
  builder : Option Builder := none
  minLog2 : Nat := 0x0E
  maxLog2 : Nat := 0x12
  cfgPending : Option (Nat × Nat) := none
  qlimit : Tab Nat := []
  counts : Tab Nat := []
  groups : Tab GroupRec := []
  slack : Tab Nat := []
  deriving DecidableEq, Repr

/-! ### Partitions (10 R236, 11 R278, 14) -/

/-- A scale-table entry (R278) at its reset values. -/
structure ScaleEnt where
  step : W32 := 0
  est : Option Int := none
  stepMax : Option Int := none
  scale : Int := 0
  mode : Nat := 0
  top : Int := 2016
  smooth : Nat := 64
  raises : Nat := 0
  satStep : Nat := 0
  satTotal : Nat := 0
  reports : Nat := 0
  late : Nat := 0
  satFlag : Bool := false
  deriving DecidableEq, Repr

/-- A queued self-test item with the SELFTEST it belongs to and that command's order number; a lowering trial of the module's
own has none; `again` marks a REPLAN asked for while a lowering trial runs, which waits for the next plan (R358, R360, R363, R365). -/
structure TestItem where
  test : Nat
  cmd : Option (Port × Tag)
  order : Nat := 0
  arg : Nat
  preempted : Bool := false
  again : Bool := false
  deriving DecidableEq, Repr

/-- A margin plan waiting for its lowering trial; `own` where not only SELFTESTs have asked for it (R358, R365). -/
structure PlanWait where
  own : Bool
  code : Nat
  margin : Nat
  sref : Int
  payload : List Byte
  deriving DecidableEq, Repr

/-- A partition: regulator, scale table, self-test queue, rail and plan (10, 11, 14, 16). `spent` holds, in thirds of a
byte, how far each bucket lies below its DEPTH; `ckptSpent` the same for the budgets of R237; `sweep` the rail codes that a
SENSITIVITY sweep has reached, each with its smallest slack (R363); `lastPlan` the last PLAN payload (R364). While a lowering trial
runs, `replanQueued` tells that another plan is asked for and `raised` that an emergency raise has failed the trial (R359, R365). -/
structure Partition where
  regTotal : Nat := 0x04000C00
  regDest : Tab Nat := []
  spent : Tab Nat := []
  ckptSpent : Tab Nat := []
  scale : Tab ScaleEnt := []
  corrected : Nat := 0
  window : Bool := false
  preempting : Bool := false
  items : List TestItem := []
  running : List TestItem := []
  results : List ItemResult := []
  planCode : Nat := 0x40
  actualCode : Nat := 0x40
  target : Nat := 0x40
  raises : Nat := 0
  marginHours : Nat := 0xFFFFFFFF
  opSeconds : Nat := 0
  opTicks : Nat := 0
  planHours : Nat := 0
  lowering : Option PlanWait := none
  replanQueued : Bool := false
  raised : Bool := false
  sensitivity : Option Nat := none
  slackMin : Option Nat := none
  sweep : List (Nat × Nat) := []
  lastPlan : List Byte := []
  srefs : List (Nat × Int) := []
  oscillators : List Nat := []
  deriving DecidableEq, Repr

/-! ### Memory, peers, recovery, power, security -/

/-- A page request that waits for its response (R251, R428, R429). -/
inductive PriWait where
  | stream (e : Eng) (s : StreamNo) (fault : W32)
  | fetch (p : Port) (t : Tag)
  | record (p : Port) (t : Tag)
  | step4 (p : Port) (t : Tag)
  | step5 (p : Port) (t : Tag)
  deriving DecidableEq, Repr

/-- A page request: who waits, the host page, the device virtual address that asked for it, and whether it writes. -/
structure PriReq where
  wait : PriWait
  page : Nat
  va : Nat
  w : Bool
  deriving DecidableEq, Repr

/-- What ATS reports of a host page (R251). -/
inductive AtsState where
  | notPresent
  | noAccess
  deriving DecidableEq, Repr

/-- One HBM stack's retirement state (R342, R343, MEM.RETIRE, MEM.CORRECTED). -/
structure StackMem where
  retired : List Nat := []
  unrecorded : List Nat := []
  pending : List Nat := []
  pageErrors : Tab (List Nat) := []
  corrected : Nat := 0
  deriving DecidableEq, Repr

/-- Memory and the MEM block (16 R398 to R400; 13 R342, R343, R345): `invalJobs` holds the invalidations that
GO has started (a whole context, or one of its 2 MiB regions), `marked` the pages of snapshots in progress, `awaited` those of them that a write waits for, `torn` the bytes of
such pages that a host wrote through BAR4. -/
structure MemBlock where
  hbm : List Host.Cell := []
  host : Tab (List Host.Cell) := []
  ats : List (Nat × Nat × AtsState) := []
  pri : List PriReq := []
  invalCmd : Nat := 0
  invalJobs : List (CtxNo × Option Nat) := []
  resumeReg : Nat := 0
  lastFaultId : W32 := 0
  stackMems : Tab StackMem := []
  marked : List (Nat × Nat) := []
  awaited : List Nat := []
  torn : List Nat := []
  deriving DecidableEq, Repr

/-- STATE of a peer port (PEER.PORT_STATUS). -/
inductive LinkState where
  | disabled
  | step (n : Fin 4)
  | up
  | down
  | failed
  deriving DecidableEq, Repr

/-- A HEAD or DATA flit in the replay buffer (R287 to R289): its SEQ, its pair of VC and dateline class, FTYPE, LAST, its body. -/
structure Flit where
  seq : Nat
  pair : Nat
  head : Bool
  last : Bool
  body : List Byte
  deriving DecidableEq, Repr

/-- A peer port with its link layer (12 R286 to R298): replay buffer, how often each SEQ was resent, the SEQ expected next, whether a
flit has been accepted and its ACK is still to be sent, the NAK sent last, credits held, receive buffers in use and credits still to be returned by pair, packets
that wait to be sent. `partly` are the pair and the number of the flits accepted of a packet that has not ended (R290), `line` the bytes of sent flits
that are not laid into codewords yet (R285), `wentDown` says that a resumption under R291 is under way, `told` that a LINK_DOWN of this link stands (R317), `barred`
that the link has been lost or has FAILED and is not UP again (R301),
`failedHeld` that the port was FAILED when ENABLE or VALID was taken from it (R293). -/
structure PeerLink where
  enable : Bool := true
  retrain : Bool := false
  state : LinkState := .disabled
  polInv : Nat := 0
  reversed : Bool := false
  miswired : Bool := false
  unused : Bool := false
  laneFault : Bool := false
  identFault : Bool := false
  failStep : Nat := 0
  nbrNode : Nat := 0
  nbrPort : Nat := 0
  nbrSeen : Bool := false
  routeDir : Nat := 0xF
  counts : Tab Nat := []
  nextSeq : Nat := 0
  acked : Nat := 0
  replay : List Flit := []
  resends : Tab Nat := []
  expected : Nat := 0
  accepted : Bool := false
  ackDue : Bool := false
  discarding : Bool := false
  nakFor : Option (Nat × W64) := none
  credits : Tab Nat := []
  held : Tab Nat := []
  owed : Tab Nat := []
  txq : List (Packet × Bool) := []
  rrVc : Nat := 0
  partly : Nat × Nat := (0, 0)
  line : List Byte := []
  barred : Bool := false
  wentDown : Bool := false
  told : Bool := false
  failedHeld : Bool := false
  identGot : Bool := false
  identAcked : Bool := false
  codewords : Nat := 0
  deriving DecidableEq, Repr

/-- A peer-access window (16 PEER.WIN). -/
structure PeerWin where
  base : Nat := 0
  size : Nat := 0
  ctx : CtxNo := 0
  allNodes : Bool := false
  write : Bool := false
  read : Bool := false
  enable : Bool := false
  node : Nat := 0
  deriving DecidableEq, Repr

/-- A peer request of a CHECKPOINT or RESTORE that waits for its response (R304), with the stream that made it and its command's order
number; `dead` says that it has been abandoned (R254). -/
structure PeerTxn where
  txn : W32
  port : Port
  tag : Tag
  order : Nat
  eng : Eng
  stream : StreamNo
  read : Bool
  off : Nat
  len : Nat
  dead : Bool := false
  deriving DecidableEq, Repr

/-- A collective that has completed here while segments are still to come that its children need (R314): its group, its sequence number, its
descriptor, and those segments. -/
structure Relay where
  gid : Nat
  gseq : Nat
  desc : List Byte
  left : List Nat
  deriving DecidableEq, Repr

/-- The PEER block (12, 16). `downLinks` and `upLinks` are the links of nodes that LINK_DOWN notices have named, and those that the module knows to have
been UP: its neighbours' at its own ports, and those that LINK_UP notices have named (R317); `admitted` are the WRITE packets that a
window has let in and that wait for a marked page, with the window's context (R345, R401). -/
structure PeerBlock where
  nodeId : Nat := 0
  dxM1 : Nat := 0
  dyM1 : Nat := 0
  dzM1 : Nat := 0
  valid : Bool := false
  ports : Tab PeerLink := []
  windows : Tab PeerWin := []
  detours : List (Nat × Nat) := []
  downLinks : List (Nat × Nat) := []
  upLinks : List (Nat × Nat) := []
  admitted : List (Packet × CtxNo) := []
  relays : List Relay := []
  seen : List (Nat × Nat) := []
  nseq : W32 := 0
  discarded : Nat := 0
  staleEpoch : Nat := 0
  waiting : List (PeerPort × Packet × Bool) := []
  txns : List PeerTxn := []
  nextTxn : W32 := 0
  txOff : Bool := false
  deriving DecidableEq, Repr

/-- A module reset in progress (R332, R368, R417). -/
inductive ModReset where
  | none
  /-- running from step 8 of R367 -/
  | running
  /-- held at step 7 for the supplies -/
  | heldSupply
  /-- held at its start for REFCLK -/
  | heldRefclk
  deriving DecidableEq, Repr

/-- The RCV block (13 R334 to R337): `swRuns` holds level and target of the software resets that GO has started and that have
neither reached their outcome nor been handed over. -/
structure RcvBlock where
  lastLevel : Nat := 0
  cause : Nat := 0
  engine : Nat := 0
  partition : Nat := 0
  escalated : Bool := false
  moduleResets : Nat := 0
  inReset : W64 := 0
  partInReset : BitVec 8 := 0
  fence : W64 := 0
  partFence : BitVec 8 := 0
  fenceAll : Bool := false
  swLevel : Nat := 0
  swTarget : Nat := 0
  swRuns : List (Nat × Nat) := []
  modReset : ModReset := .none
  powerCycle : Bool := false
  cycleCause : Nat := 0
  ceTimes : Tab (Nat × Nat) := []
  deriving DecidableEq, Repr

/-- Power conversion, clocks, sensors and pins (17, 16 PWR). `thermal` says that a thermal shutdown's temperatures have not come down yet,
`thermalFault` that its start has not resumed (R422); `mated` is the presence loop (R418). -/
structure PwrBlock where
  aux : Bool := true
  pll : Bool := true
  hkRunning : Bool := true
  input48 : Bool := true
  mainOn : Bool := true
  refclk : Bool := true
  reversedNow : Bool := false
  thermal : Bool := false
  thermalFault : Bool := false
  stagesOff : Nat := 0
  shorted : Nat := 0
  reversed : Bool := false
  govLimit : Nat := 0x2BC
  withheld : Nat := 0
  governing : Bool := false
  sense : Nat := 0
  stackTemps : List Nat := []
  alertN : Bool := true
  readyN : Bool := false
  faultN : Bool := true
  thermN : Bool := true
  strap : Nat := 0
  mated : Bool := true
  i3cDynamic : Option (BitVec 7) := none
  deriving DecidableEq, Repr

/-- A flash bank (R370, R371): the bytes written into it, what follows them being erased; none for a bank that still holds the image
the module came with. -/
structure Bank where
  bytes : Option (List Byte) := none
  deriving DecidableEq, Repr

/-- One copy of the boot preference (R370, R374): the preferred bank, TRIAL, the sequence number and the CRC-32. -/
structure PrefCopy where
  bank : Nat := 0
  trial : Bool := false
  seq : Nat := 0
  crc : Nat := 0xB1C2A1A3
  deriving DecidableEq, Repr

/-- A firmware update in progress (R380). -/
structure FwUpdate where
  agent : Nat
  bank : Nat
  image : List Byte
  verified : Bool
  deriving DecidableEq, Repr

/-- Start-up and flash (15 R366 to R374, R380). `copies` are the two copies of the boot preference, `blowing` the SVN that the fuses are
being blown up to (R374, R382). `startHk` is the HKCLK count from which READY_MS runs (R369), `diesUp` says that step 9 is reached, `lostTrial` holds the
FAIL_CODE with which a trial bank has lost its preference (0: none), `lostRequested`
that the last loss of AUX_3V3 answered a power-cycle request, with the request's CAUSE. -/
structure BootBlock where
  phase : Nat := 4
  startHk : W64 := 0
  diesUp : Bool := true
  ready : Bool := true
  bank : Nat := 0
  fallback : Bool := false
  recovery : Bool := false
  failCode : Nat := 0
  hbmTrained : Nat := 0x3F
  readyMs : Nat := 0
  fwVersion : Nat := 0
  copies : PrefCopy × PrefCopy := ({}, {})
  trialRunning : Bool := false
  trialAtStart : Bool := false
  lostTrial : Nat := 0
  lostRequested : Option Nat := none
  banks : Tab Bank := []
  svnFuses : Nat := 0
  blowing : Option Nat := none
  revoked : Nat := 0
  keyDigests : Tab (List Byte) := []
  update : Option FwUpdate := none
  deriving DecidableEq, Repr

/-- One transport's SPDM connection (R377): how far it is negotiated, the bit of the signature algorithm selected, the sessions that wait for FINISH with what their key exchange held,
the established sessions and how often each one's keys were updated. -/
structure SpdmConn where
  version : Bool := false
  capabilities : Bool := false
  algorithms : Bool := false
  asym : Nat := 0
  handshaking : Tab (Nat × List Byte) := []
  sessions : List Nat := []
  keyGen : Tab Nat := []
  deriving DecidableEq, Repr

/-- Set-up lock, measurements and attestation (16 R386; 15 R375 to R378): `lockSnapshot` holds the RWL fields as they stood when the lock was
taken, `meas` measurements 1 to 9 as step 8 fixed them. -/
structure SecBlock where
  locked : Bool := false
  lockedBy : Port := 0
  lockedWrites : Nat := 0
  measSel : Nat := 1
  lockSnapshot : List Byte := []
  meas : List (List Byte) := []
  conns : Tab SpdmConn := []
  certs : Tab (List Byte) := []
  deriving DecidableEq, Repr

/-- The ablation ledger and the AGE block (14 R356, R357). -/
structure AgeBlock where
  lowMargin : Nat := 0
  exhausted : Nat := 0
  lowerFailed : Nat := 0
  replan : Nat := 0
  log : Tab (List Byte) := []
  plans : Tab (List Byte) := []
  planSeq : Nat := 0
  seq : Nat := 0
  modOpSeconds : Nat := 0
  savedOp : Tab Nat := []
  ledgerIndex : W32 := 0
  ledgerArea : BitVec 2 := 0
  ledgerData : List Byte := List.replicate 64 0
  hostEye : Tab (List Nat) := []
  hbmMargin : Tab (List Nat) := []
  peerEye : Tab (List Nat) := []
  deriving DecidableEq, Repr

/-- The DBG block (16, 04 R97). -/
structure DbgBlock where
  accSelect : Nat := 0
  viewSelect : Nat := 0
  quiesce : W64 := 0
  deriving DecidableEq, Repr

/-- What the module sends out, in order (DESIGN CHOICE, log entry 10). -/
inductive Output where
  /-- an MSI-X message: port, function, vector -/
  | msix (p : Port) (f : Fn) (vector : Nat)
  /-- data returned to a host read through BAR4, or a poisoned completion -/
  | bar4 (p : Port) (data : Option (List Byte))
  /-- a packet put on a peer port, with its flits -/
  | packet (i : PeerPort) (pkt : Packet) (dl : Bool) (flits : List (List Byte))
  /-- a NAK, an IDENT, an IDENT_ACK on a peer port, each in its LINK flit -/
  | nak (i : PeerPort) (seq : Nat) (flit : List Byte)
  | ident (i : PeerPort) (rec : IdentRec) (flit : List Byte)
  | identAck (i : PeerPort) (node : Nat) (flit : List Byte)
  /-- an IDLE flit -/
  | idle (i : PeerPort) (flit : List Byte)
  /-- flits resent on a peer port -/
  | resend (i : PeerPort) (seqs : List Nat) (flits : List (List Byte))
  /-- the data codewords since the last alignment codeword, and an alignment codeword: each the symbols of the eight lanes -/
  | alignment (i : PeerPort) (data : List (List (List Nat))) (lanes : List (List Nat))
  /-- a PCI Express page request under a PASID -/
  | pageRequest (p : Port) (pasid : Nat) (page : Nat)
  /-- a PLDM event by name, with its number -/
  | pldmEvent (name : String) (value : Nat)
  /-- a PLDM reply -/
  | pldm (name : String) (value : Nat)
  /-- an SPDM reply: transport, response name, its bytes -/
  | spdm (x : Transport) (name : String) (data : List Byte)
  /-- a host link going down as a surprise -/
  | linkDown (p : Port)
  deriving DecidableEq, Repr

/-- The state of the module. -/
structure State where
  hk : W64 := 0
  ports : Tab HostPort := []
  ctxs : Tab Ctx := []
  engines : Tab Engine := []
  parts : Tab Partition := []
  mem : MemBlock := {}
  peer : PeerBlock := {}
  rcv : RcvBlock := {}
  pwr : PwrBlock := {}
  boot : BootBlock := {}
  sec : SecBlock := {}
  age : AgeBlock := {}
  dbg : DbgBlock := {}
  out : List Output := []
  fresh : Nat := 0
  order : Nat := 0
  pending : List Instr := []
  deriving DecidableEq, Repr

/-- Why a step stops with a fault. The module answers every fault the manual describes with an effect (statuses, records,
resets), so no command raises one. -/
inductive Fault where
  /-- raised by no command: the manual gives every command an effect (DESIGN CHOICE, log entry 1); safe -/
  | none
  deriving DecidableEq, Repr

/-- Why a command is refused. -/
inductive Refusal where
  /-- raised by an arm of `exec` whose command has no meaning in the model yet; safe -/
  | notModelled (mnemonic : String)
  deriving DecidableEq, Repr

/-- What a command's meaning answers. -/
abbrev Out := Host.Outcome State Fault Refusal

/-- The module right after reset: started, READY, no context, nothing in flight (DESIGN CHOICE, log entries 2 to 7). -/
def State.reset : State := {}

end Sys2Proof.Machine
end

