-- ==== Sys2Proof/Machine/Ops.lean ====
section
/-!
DEFINITION. Reading and writing the named parts of the state, memory, and address translation (16 R395, R398; 10 R251).
-/

namespace Sys2Proof.Machine

/-! ### Parts of the state -/

/-- A host port. -/
def State.port (s : State) (p : Port) : HostPort := Tab.get {} s.ports p.val

/-- Replace a host port. -/
def State.setPort (s : State) (p : Port) (h : HostPort) : State := { s with ports := Tab.set s.ports p.val h }

/-- Change a host port. -/
def State.updPort (s : State) (p : Port) (f : HostPort → HostPort) : State := s.setPort p (f (s.port p))

/-- A submission ring. -/
def State.ring (s : State) (p : Port) (r : RingNo) : Ring := Tab.get {} (s.port p).rings r.val

/-- Change a submission ring. -/
def State.updRing (s : State) (p : Port) (r : RingNo) (f : Ring → Ring) : State :=
  s.updPort p fun h => { h with rings := Tab.upd {} h.rings r.val f }

/-- A completion ring. -/
def State.cq (s : State) (p : Port) (c : CqNo) : Cq := Tab.get {} (s.port p).cqs c.val

/-- Change a completion ring. -/
def State.updCq (s : State) (p : Port) (c : CqNo) (f : Cq → Cq) : State :=
  s.updPort p fun h => { h with cqs := Tab.upd {} h.cqs c.val f }

/-- The command that holds a tag. -/
def State.cmd (s : State) (p : Port) (t : Tag) : Cmd := Tab.get {} (s.port p).tags t.val

/-- Change the command that holds a tag. -/
def State.updCmd (s : State) (p : Port) (t : Tag) (f : Cmd → Cmd) : State :=
  s.updPort p fun h => { h with tags := Tab.upd {} h.tags t.val f }

/-- A function's command area. -/
def State.area (s : State) (p : Port) (f : Fn) : Area := Tab.get {} (s.port p).areas f.val

/-- Change a function's command area. -/
def State.updArea (s : State) (p : Port) (f : Fn) (g : Area → Area) : State :=
  s.updPort p fun h => { h with areas := Tab.upd {} h.areas f.val g }

/-- A context record. -/
def State.ctx (s : State) (c : CtxNo) : Ctx := Tab.get {} s.ctxs c.val

/-- Change a context record. -/
def State.updCtx (s : State) (c : CtxNo) (f : Ctx → Ctx) : State := { s with ctxs := Tab.upd {} s.ctxs c.val f }

/-- An engine. -/
def State.eng (s : State) (e : Eng) : Engine := Tab.get {} s.engines e.val

/-- Change an engine. -/
def State.updEng (s : State) (e : Eng) (f : Engine → Engine) : State :=
  { s with engines := Tab.upd {} s.engines e.val f }

/-- A task slot. -/
def State.slot (s : State) (e : Eng) (k : SlotNo) : Slot := Tab.get {} (s.eng e).slots k.val

/-- Change a task slot. -/
def State.updSlot (s : State) (e : Eng) (k : SlotNo) (f : Slot → Slot) : State :=
  s.updEng e fun g => { g with slots := Tab.upd {} g.slots k.val f }

/-- A stream. -/
def State.strm (s : State) (e : Eng) (i : StreamNo) : Strm := Tab.get {} (s.eng e).streams i.val

/-- Change a stream. -/
def State.updStrm (s : State) (e : Eng) (i : StreamNo) (f : Strm → Strm) : State :=
  s.updEng e fun g => { g with streams := Tab.upd {} g.streams i.val f }

/-- A partition. -/
def State.part (s : State) (q : Part) : Partition := Tab.get {} s.parts q.val

/-- Change a partition. -/
def State.updPart (s : State) (q : Part) (f : Partition → Partition) : State :=
  { s with parts := Tab.upd {} s.parts q.val f }

/-- A peer port. -/
def State.link (s : State) (i : PeerPort) : PeerLink := Tab.get {} s.peer.ports i.val

/-- Change a peer port. -/
def State.updLink (s : State) (i : PeerPort) (f : PeerLink → PeerLink) : State :=
  { s with peer := { s.peer with ports := Tab.upd {} s.peer.ports i.val f } }

/-- A stack's retirement state. -/
def State.stack (s : State) (m : Stack) : StackMem := Tab.get {} s.mem.stackMems m.val

/-- Change a stack's retirement state. -/
def State.updStack (s : State) (m : Stack) (f : StackMem → StackMem) : State :=
  { s with mem := { s.mem with stackMems := Tab.upd {} s.mem.stackMems m.val f } }

/-- The module sends something. -/
def State.emit (s : State) (o : Output) : State := { s with out := s.out ++ [o] }

/-- The partition of an engine (R13). -/
def partOf (e : Eng) : Part := ⟨e.val / 8, by omega⟩

/-- The engines of a partition. -/
def enginesOf (q : Part) : List Eng := (List.finRange 64).filter fun e => partOf e == q

/-- The engines of a mask, lowest first. -/
def maskEngines (m : W64) : List Eng := (List.finRange 64).filter fun e => m.getLsbD e.val

/-- The mask of one engine. -/
def engBit (e : Eng) : W64 := BitVec.ofNat 64 (2 ^ e.val)

/-- The mask of a partition's engines. -/
def partMask (q : Part) : W64 := BitVec.ofNat 64 (0xFF * 2 ^ (8 * q.val))

/-- The engines isolated by a fence of their own, of their partition or of a power-cycle request (R212, R334). -/
def State.isolated (s : State) (e : Eng) : Bool :=
  s.rcv.fence.getLsbD e.val || s.rcv.partFence.getLsbD (partOf e).val || s.rcv.fenceAll

/-- Engines in reset (RCV.IN_RESET, R336). -/
def State.inReset (s : State) (e : Eng) : Bool :=
  s.rcv.inReset.getLsbD e.val || s.rcv.partInReset.getLsbD (partOf e).val

/-- An engine's count at an offset of its window (16), raised and stopping at all ones (DESIGN CHOICE, log entry 14). -/
def Engine.bump (g : Engine) (off n : Nat) : Engine :=
  { g with counts := Tab.upd 0 g.counts ((off - 0x800) / 8) fun v => satAdd 64 v n }

/-- Raise a count of an engine. -/
def State.bump (s : State) (e : Eng) (off n : Nat) : State := s.updEng e fun g => g.bump off n

/-- Every command of the module that holds a tag, with its port and tag. -/
def State.cmds (s : State) : List (Port × Tag × Cmd) :=
  (List.finRange 2).flatMap fun p => (Tab.keysBelow 1024 (s.port p).tags).filterMap fun t =>
    let c := s.cmd p t
    if c.phase = .free then none else some (p, t, c)

/-- Every task slot held on an engine. -/
def State.slotsOf (s : State) (e : Eng) : List (SlotNo × Slot) :=
  (List.finRange 4).filterMap fun k =>
    let v := s.slot e k
    if v.state = .free then none else some (k, v)

/-- The task slots a command holds, by engine. -/
def State.cmdSlots (s : State) (p : Port) (t : Tag) : List (Eng × SlotNo × Slot) :=
  (Tab.keysBelow 64 s.engines).flatMap fun e => (s.slotsOf e).filterMap fun v =>
    if v.2.port = p ∧ v.2.tag = t then some (e, v.1, v.2) else none

/-- Commands of a submission ring that hold a tag (IN_FLIGHT of R227): the ring moves with its context (R226). -/
def State.ringInFlight (s : State) (p : Port) (r : RingNo) : Nat :=
  (s.cmds.filter fun c => c.2.2.ring == r && c.2.2.home.isNone && (s.ctx c.2.2.ctx).owner == p).length

/-- The commands of a context that hold a tag; a record that outlives its context is not among them (R199, R206). -/
def State.cmdsOf (s : State) (c : CtxNo) : List (Port × Tag × Cmd) :=
  s.cmds.filter fun x => x.2.2.ctx == c && x.2.2.home.isNone

/-- Commands of a context that hold a tag (IN_FLIGHT of R197). -/
def State.ctxInFlight (s : State) (c : CtxNo) : Nat := (s.cmdsOf c).length

/-- Submission rings bound to a context on its owner (RINGS of R197). -/
def State.ringsOf (s : State) (c : CtxNo) : List RingNo :=
  (Tab.keysBelow 512 (s.port (s.ctx c).owner).rings).filter fun r =>
    let g := s.ring (s.ctx c).owner r
    g.state != .disabled && g.ctx == c

/-- A host port is down (R225, R369). -/
def HostPort.isDown (h : HostPort) : Bool := !h.enable || h.perst || h.perstUntilUp || h.lostTooLong

/-! ### Memory -/

/-- HBM ends at 384 GiB (R24, R395). -/
def hbmBytes : Nat := 384 * 2 ^ 30

/-- What an unlisted address reads as (15 R367 step 11 for HBM; DESIGN CHOICE, log entry 6, for host memory). -/
def Memory.blank : Byte := 0

/-- The byte at an address. -/
def Memory.get : List Host.Cell → Nat → Byte
  | [], _ => Memory.blank
  | (k, v) :: m, a => if a = k then v else if a < k then Memory.blank else Memory.get m a

/-- Store a byte: a byte that an unlisted address reads as is not listed. -/
def Memory.put : List Host.Cell → Nat → Byte → List Host.Cell
  | [], a, b => if b = Memory.blank then [] else [(a, b)]
  | (k, v) :: m, a, b =>
    if a = k then (if b = Memory.blank then m else (a, b) :: m)
    else if a < k then (if b = Memory.blank then (k, v) :: m else (a, b) :: (k, v) :: m)
    else (k, v) :: Memory.put m a b

/-- The canonical form: addresses rise strictly from above `lo`, no byte equals what an unlisted address reads as. -/
def Memory.wfFrom : Nat → List Host.Cell → Bool
  | _, [] => true
  | lo, (k, v) :: m => decide (lo ≤ k) && v != Memory.blank && Memory.wfFrom (k + 1) m

/-- The canonical form of a memory. -/
def Memory.wf (m : List Host.Cell) : Bool := Memory.wfFrom 0 m

/-- Bytes from an address on. -/
def Memory.read (m : List Host.Cell) (a : Nat) : Nat → List Byte
  | 0 => []
  | n + 1 => Memory.get m a :: Memory.read m (a + 1) n

/-- Store bytes from an address on. -/
def Memory.write (m : List Host.Cell) (a : Nat) : List Byte → List Host.Cell
  | [] => m
  | b :: bs => Memory.write (Memory.put m a b) (a + 1) bs

/-- The stack and the index within it of a physical address's page (R395). -/
def pageStack (pa : Nat) : Stack := ⟨pa / 65536 % 6, Nat.mod_lt _ (by decide)⟩

/-- Page index within its stack (R395). -/
def pageIndex (pa : Nat) : Nat := pa / 65536 / 6

/-- Whether a physical page is retired (R342). -/
def State.retired (s : State) (pa : Nat) : Bool :=
  let k := s.stack (pageStack pa)
  k.retired.contains (pageIndex pa) || k.unrecorded.contains (pageIndex pa)

/-- Whether a physical address is served (R395). -/
def State.served (s : State) (pa : Nat) : Bool := decide (pa < hbmBytes) && !s.retired pa

/-- HBM bytes: an address at or above 384 GiB or in a retired page reads as zero (R395) (DEDUCED, log entry 16). -/
def State.hbmRead (s : State) (pa : Nat) : Nat → List Byte
  | 0 => []
  | n + 1 => (if s.served pa then Memory.get s.mem.hbm pa else 0) :: s.hbmRead (pa + 1) n

/-- Store HBM bytes: an address at or above 384 GiB or in a retired page ignores them (R395). -/
def State.hbmWrite (s : State) (pa : Nat) : List Byte → State
  | [] => s
  | b :: bs =>
    State.hbmWrite (if s.served pa then { s with mem := { s.mem with hbm := Memory.put s.mem.hbm pa b } } else s)
      (pa + 1) bs

/-- Host memory behind a port. -/
def State.hostMem (s : State) (p : Port) : List Host.Cell := Tab.get [] s.mem.host p.val

/-- Store bytes into host memory behind a port. -/
def State.hostWrite (s : State) (p : Port) (a : Nat) (bs : List Byte) : State :=
  { s with mem := { s.mem with host := Tab.set s.mem.host p.val (Memory.write (s.hostMem p) a bs) } }

/-! ### Translation -/

/-- Where an address of a context lies, or why it does not translate: KIND of R252. -/
inductive Xlate where
  | hbm (pa : Nat)
  | host (p : Port) (ha : Nat)
  | fault (kind : Nat)
  deriving DecidableEq, Repr

/-- Low VA bit of the index and the entry count's log2, by level (R398). -/
def levelShape (lvl : Nat) : Nat × Nat :=
  match lvl with
  | 1 => (48, 4)
  | 2 => (39, 9)
  | 3 => (30, 9)
  | 4 => (21, 9)
  | _ => (16, 5)

/-- Alignment of what an entry's ADDR must keep: the next table, or the page (R398). -/
def entryAlign (lvl : Nat) (page : Bool) : Nat :=
  if lvl = 5 then 65536 else if page then 2 ^ 21 else if lvl = 4 then 256 else 4096

/-- The walk from level `lvl` with the table at `table` (R398); `fuel` counts the levels left. -/
def State.walkFrom (s : State) (va : Nat) (w : Bool) : Nat → Nat → Nat → Nat ⊕ (Nat × Bool)
  | 0, _, _ => .inl 1
  | fuel + 1, lvl, table =>
    let sh := levelShape lvl
    let at_ := table + 8 * (va / 2 ^ sh.1 % 2 ^ sh.2)
    if s.retired at_ then .inl 2
    else
      let en := leNat (s.hbmRead at_ 8)
      let page := lvl == 5 || (lvl == 4 && bitOf en 1)
      let addr := bitsOf en 51 7 * 128
      if !bitOf en 0 then .inl 1
      else if bitsOf en 6 4 != 0 || bitsOf en 63 52 != 0 then .inl 2
      else if bitOf en 1 && decide (lvl < 4) then .inl 2
      else if bitOf en 3 && !page then .inl 2
      else if w && !bitOf en 2 then .inl 2
      else if addr % entryAlign lvl page != 0 then .inl 2
      else if page then .inr (addr + va % (if lvl = 5 then 65536 else 2 ^ 21), bitOf en 3)
      else s.walkFrom va w fuel (lvl + 1) addr

/-- What ATS reports of a host page behind a port (R251; DESIGN CHOICE, log entry 7). -/
def State.atsOf (s : State) (p : Port) (ha : Nat) : Option AtsState :=
  (s.mem.ats.find? fun x => x.1 == p.val && x.2.1 == ha / 65536).map (·.2.2)

/-- Translate an address through a context record for an access (R398, R226, R251, R342). -/
def State.xlateIn (s : State) (x : Ctx) (va : Nat) (w : Bool) : Xlate :=
  if 2 ^ 52 ≤ va then .fault 2
  else if !x.rootValid then .fault 1
  else
    match s.walkFrom va w 5 1 x.root with
    | .inl kind => .fault kind
    | .inr (a, false) => if s.retired a then .fault 2 else .hbm a
    | .inr (a, true) =>
      if x.withdrawn && !x.remapped.contains (va / 2 ^ 21) then .fault 1
      else
        match s.atsOf x.owner a with
        | none => .host x.owner a
        | some .notPresent => .fault 3
        | some .noAccess => .fault 4

/-- Translate an address of a context for an access. -/
def State.xlate (s : State) (c : CtxNo) (va : Nat) (w : Bool) : Xlate := s.xlateIn (s.ctx c) va w

/-- Store bytes where a translation leads; one that fails stores nothing. -/
def State.storeAt (s : State) (x : Xlate) (bs : List Byte) : State :=
  match x with
  | .fault _ => s
  | .hbm pa => s.hbmWrite pa bs
  | .host p ha => s.hostWrite p ha bs

/-- Why an access could not be made: KIND of R252 and the address; KIND 0 for a write that must wait for a marked page (R345). -/
structure XErr where
  kind : Nat
  va : Nat
  page : Nat := 0
  deriving DecidableEq, Repr

/-- Bytes left to the end of a 64 KiB page. -/
def pageLeft (va : Nat) : Nat := 65536 - va % 65536

/-- Read bytes of a context's address space, page by page. -/
def State.vreadGo (s : State) (c : CtxNo) : Nat → Nat → Nat → Except XErr (List Byte)
  | 0, _, _ => .ok []
  | fuel + 1, va, n =>
    if n = 0 then .ok []
    else
      let k := min n (pageLeft va)
      match s.xlate c va false with
      | .fault kind => .error { kind := kind, va := va }
      | .hbm pa =>
        match s.vreadGo c fuel (va + k) (n - k) with
        | .error x => .error x
        | .ok bs => .ok (s.hbmRead pa k ++ bs)
      | .host p ha =>
        match s.vreadGo c fuel (va + k) (n - k) with
        | .error x => .error x
        | .ok bs => .ok (Memory.read (s.hostMem p) ha k ++ bs)

/-- Read `n` bytes at a device virtual address. -/
def State.vread (s : State) (c : CtxNo) (va n : Nat) : Except XErr (List Byte) := s.vreadGo c (n / 65536 + 2) va n

/-- The number by which a page is marked: those of device memory first, then those behind each port (R345). -/
def Xlate.page : Xlate → Option Nat
  | .hbm pa => some (pa / 65536)
  | .host p ha => some (2 ^ 48 * (p.val + 1) + ha / 65536)
  | .fault _ => none

/-- Whether every byte of a range translates for writing and lies on no marked page (R345). -/
def State.writableGo (s : State) (c : CtxNo) : Nat → Nat → Nat → Option XErr
  | 0, _, _ => none
  | fuel + 1, va, n =>
    if n = 0 then none
    else
      let k := min n (pageLeft va)
      match s.xlate c va true with
      | .fault kind => some { kind := kind, va := va }
      | x =>
        let page := x.page.getD 0
        if s.mem.marked.any (·.2 == page) then some { kind := 0, va := va, page := page } else s.writableGo c fuel (va + k) (n - k)

/-- Store bytes of a context's address space, page by page, where `x` translates them; untranslatable pages are skipped. -/
def State.vwriteGo (x s : State) (c : CtxNo) : Nat → Nat → List Byte → State
  | 0, _, _ => s
  | fuel + 1, va, bs =>
    match bs with
    | [] => s
    | _ =>
      let k := min bs.length (pageLeft va)
      let s1 := match x.xlate c va true with
        | .fault _ => s
        | .hbm pa => s.hbmWrite pa (bs.take k)
        | .host p ha => s.hostWrite p ha (bs.take k)
      x.vwriteGo s1 c fuel (va + k) (bs.drop k)

/-- Write bytes at a device virtual address: all of them, or none with the reason (DEDUCED, log entry 16). -/
def State.vwrite (s : State) (c : CtxNo) (va : Nat) (bs : List Byte) : Except XErr State :=
  match s.writableGo c (bs.length / 65536 + 2) va bs.length with
  | some x => .error x
  | none => .ok (s.vwriteGo s c (bs.length / 65536 + 2) va bs)

/-! ### Descriptor fields (R208) -/

/-- A field of the command's descriptor. -/
def Cmd.f (c : Cmd) (off len : Nat) : Nat := fld c.desc off len

/-- OPCODE. -/
def Cmd.op (c : Cmd) : Nat := c.f 0 1

/-- FLAGS. -/
def Cmd.afterPrior (c : Cmd) : Bool := bitOf (c.f 1 1) 0
def Cmd.barrier (c : Cmd) : Bool := bitOf (c.f 1 1) 1
def Cmd.irqNow (c : Cmd) : Bool := bitOf (c.f 1 1) 2
def Cmd.sigAlways (c : Cmd) : Bool := bitOf (c.f 1 1) 3

/-- SYNC. -/
def Cmd.predOp (c : Cmd) : Nat := bitsOf (c.f 2 1) 2 0
def Cmd.waitEn (c : Cmd) : Bool := bitOf (c.f 2 1) 3
def Cmd.sigOp (c : Cmd) : Nat := bitsOf (c.f 2 1) 5 4

/-- REDUCE_MODE of a PRECB byte. -/
def modeOfPrecb (b : Nat) : Nat := bitsOf b 7 6

/-- STEP and SID. -/
def Cmd.step (c : Cmd) : Nat := c.f 44 4
def Cmd.sid (c : Cmd) : Nat := c.f 48 2

/-- The engines a command's ENGINE_MASK names, by opcode (bodies of 09). -/
def Cmd.mask (c : Cmd) : W64 :=
  BitVec.ofNat 64 (match c.op with
    | 0x01 => c.f 80 8
    | 0x03 => c.f 96 8
    | 0x06 => c.f 64 8
    | 0x08 => c.f 96 8
    | 0x0A => c.f 80 8
    | _ => 0)

/-- The semaphore address of an index, in the command's context (R217). -/
def State.semAddr (s : State) (c : Cmd) (i : Nat) : Nat := (s.ctx c.ctx).semBase + 8 * i

end Sys2Proof.Machine
end

