-- ==== Sys2Proof/Machine/Flags.lean ====
section
/-!
DEFINITION. Interrupts, cause bits, error and fault records, statuses, and how a command ends
(09 R206, R207, R218 to R222; 10 R250 to R256; 13 R323; 16 R396, R397, R400).
-/

namespace Sys2Proof.Machine

/-! ### Interrupts -/

/-- The function that holds a submission ring (R387). -/
def State.ringHolder (s : State) (p : Port) (r : RingNo) : Fn :=
  let h := s.port p
  match (List.finRange 16).find? fun v =>
    let a := Tab.get {} h.vfRings v.val
    decide (v.val < h.vfEnabled) && decide (a.ringFirst ≤ r.val ∧ r.val < a.ringFirst + a.ringCount) with
  | some v => ⟨v.val + 1, by omega⟩
  | none => 0

/-- The function that holds a completion ring (R387). -/
def State.cqHolder (s : State) (p : Port) (c : CqNo) : Fn :=
  let h := s.port p
  match (List.finRange 16).find? fun v =>
    let a := Tab.get {} h.vfRings v.val
    decide (v.val < h.vfEnabled) && decide (a.cqFirst ≤ c.val ∧ c.val < a.cqFirst + a.cqCount) with
  | some v => ⟨v.val + 1, by omega⟩
  | none => 0

/-- An MSI-X entry of a function; a virtual function has 128 (R396, R405). -/
def HostPort.msixOf (h : HostPort) (f : Fn) (vec : Nat) : Msix :=
  if f = 0 then Tab.get {} h.msix vec else Tab.get {} h.vfMsix (128 * (f.val - 1) + vec)

/-- Change an MSI-X entry of a function. -/
def HostPort.setMsix (h : HostPort) (f : Fn) (vec : Nat) (m : Msix) : HostPort :=
  if f = 0 then { h with msix := Tab.set h.msix vec m }
  else { h with vfMsix := Tab.set h.vfMsix (128 * (f.val - 1) + vec) m }

/-- Raise a vector of a function: sent when its entry is not masked, pending otherwise (R396). -/
def State.raiseVector (s : State) (p : Port) (f : Fn) (vec : Nat) : State :=
  if f ≠ 0 ∧ 128 ≤ vec then s
  else
    let m := (s.port p).msixOf f vec
    if bitOf m.ctl 0 then s.updPort p fun h => h.setMsix f vec { m with pend := true }
    else s.emit (.msix p f vec)

/-- Raise a completion ring's vector, once until its head is written (R207) (DEDUCED, log entry 18). -/
def State.raiseCq (s : State) (p : Port) (c : CqNo) : State :=
  if (s.cq p c).raised then s
  else (s.raiseVector p (s.cqHolder p c) (s.cq p c).vector).updCq p c fun q => { q with raised := true }

/-- The vector field and enable of a CAUSE bit in IRQ.EVENT (16). -/
def eventField (bit : Nat) : Nat × Nat :=
  if bit < 6 then (32, 43) else if bit = 6 then (48, 59) else if bit = 7 then (0, 11) else (16, 27)

/-- Set a CAUSE bit: its vector is raised when the bit goes from 0 to 1 with its enable set (R397). -/
def State.setCause (s : State) (p : Port) (bit : Nat) : State :=
  let h := s.port p
  if bitOf h.cause bit then s
  else
    let s1 := s.updPort p fun h => { h with cause := setBit h.cause bit }
    let fl := eventField bit
    if bitOf h.event fl.2 then s1.raiseVector p 0 (bitsOf h.event (fl.1 + 10) fl.1) else s1

/-- A module-wide event sets its CAUSE bit in both ports (R397). -/
def State.setCauseAll (s : State) (bit : Nat) : State := (s.setCause 0 bit).setCause 1 bit

/-! ### Queues and records -/

/-- Bits [47:0] of the HKCLK count (R220). -/
def State.time48 (s : State) : List Byte := toLe 6 (s.hk.toNat % 2 ^ 48)

/-- A queue is full (R400). -/
def Queue.full (q : Queue) : Bool := decide (2 ^ q.log2Len ≤ (q.tail - q.head).toNat)

/-- A dropped record is counted. -/
def Queue.drop (q : Queue) : Queue := { q with dropped := satAdd 32 q.dropped 1 }

/-- Write a record of a port's error queue, or drop and count it (R323, R400). -/
def State.postErrTo (s : State) (p : Port) (rec : List Byte) : State :=
  let h := s.port p
  if h.isDown || !h.errQ.enable || h.errQ.full then s.updPort p fun h => { h with errQ := h.errQ.drop }
  else
    ((s.hostWrite p (h.errQ.base + 32 * (h.errQ.tail.toNat % 2 ^ h.errQ.log2Len)) rec).updPort p fun h =>
      { h with errQ := { h.errQ with tail := h.errQ.tail + 1 } }).setCause p 7

/-- Write a record of a port's fault queue, or drop and count it (R252, R400). -/
def State.postFaultTo (s : State) (p : Port) (rec : List Byte) : State :=
  let h := s.port p
  if h.isDown || !h.faultQ.enable || h.faultQ.full then s.updPort p fun h => { h with faultQ := h.faultQ.drop }
  else
    ((s.hostWrite p (h.faultQ.base + 32 * (h.faultQ.tail.toNat % 2 ^ h.faultQ.log2Len)) rec).updPort p fun h =>
      { h with faultQ := { h.faultQ with tail := h.faultQ.tail + 1 } }).setCause p 8

/-- The fields of an error record (R323). -/
structure ErrRec where
  cls : Nat
  action : Nat := 0
  unit : Nat
  index : Nat := 0
  cmd : Option (Port × Tag) := none
  ctx : Nat := 0
  cause : Nat := 0
  addr : Nat := 0
  count : Nat := 1
  deriving DecidableEq, Repr

/-- A tag field: bits [9:0] the tag, bit 15 the port. -/
def tagField (p : Port) (t : Tag) : Nat := t.val + 2 ^ 15 * p.val

/-- The 32 bytes of an error record (R323). -/
def ErrRec.bytes (r : ErrRec) (time : List Byte) : List Byte :=
  toLe 1 r.cls ++ toLe 1 r.action ++ toLe 1 r.unit ++ toLe 1 r.index ++
    toLe 2 (match r.cmd with | some (p, t) => tagField p t + 2 ^ 14 | none => 0) ++
    toLe 1 (if r.cmd.isSome then r.ctx else 0) ++ toLe 1 r.cause ++ toLe 8 r.addr ++ toLe 4 r.count ++ toLe 4 0 ++
    time ++ toLe 2 0

/-- Both error queues receive every record (R323). -/
def State.postErr (s : State) (r : ErrRec) : State :=
  let b := r.bytes s.time48
  (s.postErrTo 0 b).postErrTo 1 b

/-- The next FAULT_ID: non-zero, wrapping from all ones to 1 (R252). -/
def nextFault (v : W32) : W32 := if v + 1 = 0 then 1 else v + 1

/-- Post a fault record of a command (R250, R252): FAULT_POSTED is set, the id is `lastFaultId` afterwards. -/
def State.postFault (s : State) (kind : Nat) (p : Port) (t : Tag) (engine stream : Nat) (w : Bool) (va : Nat) : State :=
  let c := s.cmd p t
  let x := s.ctx c.ctx
  let id := nextFault s.mem.lastFaultId
  let rec_ := toLe 1 kind ++ toLe 1 c.ctx.val ++ toLe 2 (tagField p t) ++ toLe 1 engine ++ toLe 1 stream ++
    toLe 1 (b2n w) ++ toLe 1 0 ++ toLe 8 va ++ toLe 4 x.pasid ++ toLe 4 id.toNat ++ s.time48 ++ toLe 2 0
  let s1 := ({ s with mem := { s.mem with lastFaultId := id } } : State).updCmd p t fun c => { c with faultPosted := true }
  s1.postFaultTo x.owner rec_

/-! ### How a command ends -/

/-- The statuses of R221 that end a command early. -/
def stCancelled : Nat := 0x10
def stDropped : Nat := 0x11
def stPartitionReset : Nat := 0x12
def stFaultAbort : Nat := 0x13
def stAccClass : Nat := 0x14
def stWorkset : Nat := 0x15
def stBadDescriptor : Nat := 0x16
def stDenied : Nat := 0x17

/-- The status a completion record carries: the first cause, or the highest full-effect status (R222). -/
def Cmd.finalStatus (c : Cmd) : Nat :=
  match c.status with
  | some st => st
  | none => if c.reduced then 3 else if c.regularised then 2 else if 0 < c.sat then 1 else 0

/-- Of two causes that arise in one HKCLK cycle, the one that comes first (R222). -/
def ranksFirst (st old : Nat) : Bool :=
  let l := [stPartitionReset, stDropped, stFaultAbort, stCancelled]
  l.contains st && l.contains old && decide (l.idxOf st < l.idxOf old)

/-- A cause arises at an HKCLK count: the first one decides, and among those of one cycle the one that ranks first (R222, R341). -/
def Cmd.fail (c : Cmd) (st : Nat) (now : W64) : Cmd :=
  match c.status with
  | none => { c with status := some st, causeAt := now }
  | some old => if c.causeAt = now ∧ ranksFirst st old then { c with status := some st } else c

/-- End a command that holds no work: it goes on to steps 7 to 9 (R215). -/
def State.endCmd (s : State) (p : Port) (t : Tag) (st : Nat) : State :=
  s.updCmd p t fun c => { c.fail st s.hk with phase := .ended }

/-- A command's work has ended with its own status. -/
def State.doneCmd (s : State) (p : Port) (t : Tag) : State := s.updCmd p t fun c => { c with phase := .ended }

/-- A read that is still to land, as opposed to a write to be acknowledged (R254). -/
def Strm.isRead (x : Strm) : Bool := x.kind != 1 && x.kind != 5

/-- The further slots of a read stream with the stream offsets they begin at: behind the guaranteed ones, one after the other. -/
def Strm.windows (x : Strm) : List (Nat × Nat) :=
  (x.further.foldl (fun (a : List (Nat × Nat) × Nat) l => (a.1 ++ [(l, a.2)], a.2 + 2 ^ l)) ([], x.consumed + x.cap)).1

/-- A request's bytes fall into a further slot. -/
def Req.into (r : Req) (w : Nat × Nat) : Bool := decide (w.2 < r.off + r.bytes ∧ r.off < w.2 + 2 ^ w.1)

/-- Further slots are given up: each returns at once, or as the last of the reads `fly` into it lands (R232, R254). -/
def Strm.giveUp (x : Strm) (fly : List Req) : Strm :=
  { x with further := [], returning := x.returning ++ x.windows.filter fun w => fly.any (·.into w) }

/-- Slots that were given up return once no read of `fly` is to land in them (R232, R254). -/
def Strm.return_ (x : Strm) (fly : List Req) : Strm :=
  { x with returning := x.returning.filter fun w => fly.any (·.into w) }

/-- Stop a stream (R254): reads in flight melt, those to peers are abandoned, writes in flight complete. -/
def Strm.stop (x : Strm) : Strm :=
  if x.state = .idle then x
  else
    let left := if x.isRead then (x.reqs.filter (·.queue != 8)).map fun r => { r with melt := true } else x.reqs
    { ((x.giveUp left).return_ left) with
      state := if left.isEmpty then .complete else .melting
      faultId := 0, faultKind := 0, reqs := left, held := [] }

/-- Stop every stream of a command on an engine. -/
def State.stopStreams (s : State) (e : Eng) (p : Port) (t : Tag) : State :=
  (List.finRange 16).foldl (fun s i =>
    let x := s.strm e i
    if x.state ≠ .idle ∧ x.port = p ∧ x.tag = t then s.updStrm e i Strm.stop else s) s

/-- Whether a read of a command is still in flight on an engine (R255). -/
def State.readsInFlight (s : State) (e : Eng) (p : Port) (t : Tag) : Bool :=
  (List.finRange 16).any fun i =>
    let x := s.strm e i
    x.state != .idle && x.port == p && x.tag == t && x.isRead && !x.reqs.isEmpty

/-- The named tile a slot's command fills, from its ACC field: 0 ACC0, 1 ACC1, none for AUTO. -/
def State.accOf (s : State) (v : Slot) : Option Nat :=
  let c := s.cmd v.port v.tag
  if c.op = 0x01 then (match bitsOf (c.f 51 1) 1 0 with | 1 => some 0 | 2 => some 1 | _ => none) else none

/-- A named tile of an engine. -/
def State.named (s : State) (e : Eng) (a : Nat) : Tile := Tab.get {} (s.eng e).named a

/-- Change a named tile. -/
def State.updNamed (s : State) (e : Eng) (a : Nat) (f : Tile → Tile) : State :=
  s.updEng e fun g => { g with named := Tab.upd {} g.named a f }

/-- The tile a slot's command is filling or draining. -/
def State.tileOf (s : State) (e : Eng) (k : SlotNo) : Tile :=
  match s.accOf (s.slot e k) with
  | some a => s.named e a
  | none => (s.slot e k).tile

/-- Change the tile a slot's command is filling or draining. -/
def State.updTile (s : State) (e : Eng) (k : SlotNo) (f : Tile → Tile) : State :=
  match s.accOf (s.slot e k) with
  | some a => s.updNamed e a f
  | none => s.updSlot e k fun v => { v with tile := f v.tile }

/-- Whether a slot's command owns the filling of its tile: not one that waits or has only joined. -/
def State.fills (s : State) (e : Eng) (k : SlotNo) : Bool :=
  match s.accOf (s.slot e k) with
  | some _ => (s.slot e k).pass == .filling
  | none => true

/-- A command hangs on the one that it has joined at a tile of one of its engines (R87). -/
def State.joinWaits (s : State) (p : Port) (t : Tag) : Bool := (s.cmdSlots p t).any fun x => x.2.2.joinAfter.isSome

/-- R256 on one engine: a tile being filled is cleared without a drain; one that drains completes, but for that of a command that hangs on
another, whose drain has not begun (R87). -/
def State.clearFilling (s : State) (e : Eng) (k : SlotNo) : State :=
  let v := s.slot e k
  let undrained := v.draining && s.joinWaits v.port v.tag
  let s1 := if (s.fills e k && (s.tileOf e k).state == .busy) || undrained then s.updTile e k fun _ => {} else s
  s1.updSlot e k fun v =>
    { v with
      formed := [], hasFormed := false, filled := false, stopped := true, state := .cancelling, draining := v.draining && !undrained }

/-- Whether an engine that is neither isolated nor in reset still drains a tile of the command. -/
def State.drains (s : State) (p : Port) (t : Tag) : Bool :=
  (s.cmdSlots p t).any fun x => x.2.2.draining && !s.isolated x.1 && !s.inReset x.1

/-- Stop a command's work on every engine it uses: its streams stop, its filling tiles clear (R254, R256). -/
def State.stopWork (s : State) (p : Port) (t : Tag) : State :=
  (s.cmdSlots p t).foldl (fun s x => (s.stopStreams x.1 p t).clearFilling x.1 x.2.1) s

/-- A test that runs in windows (R363). -/
def windowTest (t : Nat) : Bool := [1, 2, 0x10, 0x11, 0x20].contains t

/-- The queue of a partition changes: a pre-emption goes on only for the item that it was for, the first that needs a window (R361). -/
def Partition.setItems (a : Partition) (l : List TestItem) : Partition :=
  let first (l : List TestItem) : Option TestItem := l.find? fun i => windowTest i.test
  { a with items := l, preempting := a.preempting && first l == first a.items }

/-- A lowering trial is queued or runs (R358). -/
def Partition.trialItem (a : Partition) : Bool := (a.items ++ a.running).any fun i => i.test == 0x20

/-- Items that a partition's queue holds, those of the open window included: at most 16 (R360). -/
def Partition.queued (a : Partition) : Nat := a.items.length + a.running.length

/-- A lowering that waits has its trial queued, once the queue has room (R358, R360). -/
def Partition.queueTrial (a : Partition) : Partition :=
  if a.lowering.isNone || a.trialItem || decide (16 ≤ a.queued) then a
  else a.setItems (a.items ++ [{ test := 0x20, cmd := none, arg := 0 }])

/-- A lowering that only SELFTESTs asked for is dropped where none of them waits for it any longer; the trial of any other is queued
again (R358, R365). -/
def Partition.keepLowering (a : Partition) : Partition :=
  if a.trialItem then a
  else if a.lowering.any (·.own) then a.queueTrial
  else { a with lowering := none }

/-- The queued items of a SELFTEST are removed (R365). -/
def Partition.dropItems (a : Partition) (p : Port) (t : Tag) : Partition :=
  (a.setItems (a.items.filter fun i => i.cmd != some (p, t))).keepLowering

/-- Items, page marks and peer requests of a command go with it (R254, R345, R365). -/
def State.dropSide (s : State) (p : Port) (t : Tag) : State :=
  let left := s.mem.marked.filter fun m => m.1 != tagField p t
  let s1 := { s with
    mem := { s.mem with
      marked := left
      awaited := s.mem.awaited.filter fun a => left.any fun m => m.2 == a
      torn := s.mem.torn.filter fun a => left.any fun m => m.2 == a / 65536
      pri := s.mem.pri.filter fun w => match w.wait with
        | .stream e i _ => !((s.strm e i).port == p && (s.strm e i).tag == t)
        | .fetch p' t' => !(p' == p && t' == t)
        | .step4 p' t' => !(p' == p && t' == t)
        | .step5 p' t' => !(p' == p && t' == t)
        | .record _ _ => true }
    peer := { s.peer with txns := s.peer.txns.map fun x => if x.port = p ∧ x.tag = t ∧ x.read then { x with dead := true } else x } }
  (List.finRange 8).foldl (fun s q => s.updPart q (Partition.dropItems · p t)) s1

/-- The commands that have joined a command at a tile on an engine, whether or not their groups already enter (R86, R87). -/
def State.joinedTo (s : State) (p : Port) (t : Tag) : List (Port × Tag) :=
  (Tab.keysBelow 64 s.engines).flatMap fun e => (s.slotsOf e).filterMap fun v =>
    if v.2.joinAfter = some (p, t) then some (v.2.port, v.2.tag) else none

/-- Abort one command with a status (R222, R224, R254 to R256): before step 6 it ends at once, a running one stops and,
unless its status lets its record go first (R328), waits for its melt (DEDUCED, log entry 57). -/
def State.abortOne (s : State) (p : Port) (t : Tag) (st : Nat) : State :=
  match (s.cmd p t).phase with
  | .free => s
  | .record => s
  | .ended => ((s.cmdSlots p t).foldl (fun s x => s.stopStreams x.1 p t) s).updCmd p t fun c => c.fail st s.hk
  | .running =>
    ((s.stopWork p t).dropSide p t).updCmd p t fun c =>
      { c.fail st s.hk with phase := if st = stDropped ∨ st = stPartitionReset then .ended else .cancelling }
  | .cancelling =>
    ((s.stopWork p t).dropSide p t).updCmd p t fun c =>
      { c.fail st s.hk with phase := if st = stDropped ∨ st = stPartitionReset then .ended else .cancelling }
  | _ => (s.dropSide p t).endCmd p t st

/-- Abort a command and, with CANCELLED, the chain that joined behind it (R87). -/
def State.abortGo : Nat → State → Port → Tag → Nat → State
  | 0, s, p, t, st => s.abortOne p t st
  | fuel + 1, s, p, t, st =>
    let js := s.joinedTo p t
    js.foldl (fun s j => State.abortGo fuel s j.1 j.2 stCancelled) (s.abortOne p t st)

/-- Abort a command (R87, R222). -/
def State.abortCmd (s : State) (p : Port) (t : Tag) (st : Nat) : State := State.abortGo 4 s p t st

/-- A cause has arisen for a command: its status, unless it has one already or its record is formed (R222). -/
def State.markCmd (s : State) (p : Port) (t : Tag) (st : Nat) : State :=
  if (s.cmd p t).phase = .free ∨ (s.cmd p t).phase = .record then s else s.updCmd p t fun c => c.fail st s.hk

/-- Abort several commands for one cause: every one has its status before any is stopped, so that none that joined another
of them takes CANCELLED from it (R87, R222) (DEDUCED, log entry 19). -/
def State.abortCmds (s : State) (cs : List (Port × Tag)) (st : Nat) : State :=
  cs.foldl (fun s c => s.abortCmd c.1 c.2 st) (cs.foldl (fun s c => s.markCmd c.1 c.2 st) s)

/-- A running command that ends with an error of its own or a fault of its data (R321, R329). -/
def State.faultCmd (s : State) (p : Port) (t : Tag) : State := s.abortCmd p t stFaultAbort

/-- A command that filled a named tile to the end of its part leaves it HELD for its context; one that ends early leaves it
FREE (R78, R81, R256) (DEDUCED, log entry 28). -/
def State.leaveTiles (s : State) (p : Port) (t : Tag) : State :=
  let c := s.cmd p t
  (s.cmdSlots p t).foldl (fun s x =>
    match s.accOf x.2.2 with
    | some a =>
      if x.2.2.pass == .filling && (s.named x.1 a).state == .busy then
        s.updNamed x.1 a fun v => if c.finalStatus < 0x10 then { v with state := .held, owner := c.ctx } else {}
      else s
    | none => s) s

/-- The fate of the commands that joined one as it passes step 8: CANCELLED unless its status is OK, OK_SAT or
OK_REGULARISED; otherwise they no longer hang on it (R87) (DEDUCED, log entry 28). -/
def State.freeJoined (s : State) (p : Port) (t : Tag) : State :=
  let s1 := if (s.cmd p t).finalStatus ≤ 2 then s
    else (s.joinedTo p t).foldl (fun s j => s.abortCmd j.1 j.2 stCancelled) s
  { s1 with engines := s1.engines.map fun g => (g.1, { g.2 with slots := g.2.slots.map fun v =>
      (if v.2.joinAfter = some (p, t) then (v.1, { v.2 with joinAfter := none }) else v) }) }

/-- The streams and task slots of a command return (R206, R234, R258); reads still to land keep their credits and slots until they
do (R254). -/
def State.freeSlots (s : State) (p : Port) (t : Tag) : State :=
  let s1 := (Tab.keysBelow 64 s.engines).foldl (fun s e =>
    let mine := (List.finRange 16).filter fun i => let x := s.strm e i; x.state != .idle && x.port == p && x.tag == t
    if mine.isEmpty then s
    else s.updEng e fun g =>
      { g with
        orphans := g.orphans ++ mine.flatMap fun i => ((s.strm e i).reqs.filter fun r => r.melt).map fun r => (i, r)
        streams := g.streams.map fun x =>
          if x.2.state ≠ .idle ∧ x.2.port = p ∧ x.2.tag = t then (x.1, {}) else x }) s
  (s1.cmdSlots p t).foldl (fun s x => s.updEng x.1 fun g =>
    { g with
      slots := Tab.set g.slots x.2.1.val {}
      head := if g.head = some x.2.1 then none else g.head }) s1

/-- Release what a command holds on its engines as it passes step 8. -/
def State.releaseSlots (s : State) (p : Port) (t : Tag) : State := ((s.leaveTiles p t).freeJoined p t).freeSlots p t

end Sys2Proof.Machine
end

