-- ==== Sys2Proof/Machine/Contexts.lean ====
section
/-!
DEFINITION. Contexts: creation, abort, destruction, adoption, and writes of a context record
(09 R196 to R199, R225, R226; 16 R388 to R391).
-/

namespace Sys2Proof.Machine

/-- Whether a function of a port exists: the physical function, or an enabled virtual function (R387). -/
def State.fnUp (s : State) (p : Port) (f : Fn) : Bool := f == 0 || decide (f.val ≤ (s.port p).vfEnabled)

/-- Whether a function of a port is the one that made a context; the physical function of its owner stands in for that of the port that
made it (R196, R392). -/
def Ctx.madeBy (x : Ctx) (p : Port) (f : Fn) : Bool := x.func == f && (f == 0 || x.born == p)

/-- Whether a function may write a context's record: the owner's physical function, or the virtual function that made
the context (R196, R388). -/
def State.mayWriteCtx (s : State) (p : Port) (f : Fn) (c : CtxNo) : Bool :=
  let x := s.ctx c
  x.state != .free && x.owner == p && (f == 0 || x.madeBy p f) && s.fnUp p f

/-- The tiles a context holds are cleared (R99). -/
def State.clearHeld (s : State) (c : CtxNo) : State :=
  { s with engines := s.engines.map fun g => (g.1, { g.2 with named := g.2.named.map fun t =>
      if t.2.state = .held ∧ t.2.owner = c then (t.1, {}) else t }) }

/-- A ring leaves ACTIVE for STOPPED: the descriptors between HEAD and TAIL are abandoned and counted (R199, R393). -/
def Ring.stop (g : Ring) : Ring :=
  if g.state = .disabled then g
  else
    { g with
      state := .stopped
      abandoned := if g.state = .stopped then g.abandoned else satAdd 16 g.abandoned (g.tail - g.head).toNat
      cancelRanges := [] }

/-- Change every ring bound to a context on its owner. -/
def State.updRingsOf (s : State) (c : CtxNo) (f : Ring → Ring) : State :=
  s.updPort (s.ctx c).owner fun h => { h with rings := h.rings.map fun g =>
    if g.2.state ≠ .disabled ∧ g.2.ctx = c then (g.1, f g.2) else g }

/-- RING.RESULT leaves busy. -/
def State.answerRing (s : State) (p : Port) (f : Fn) (reason : Nat) : State :=
  s.updArea p f fun a => { a with ringState := if reason = 0 then 2 else 3, ringReason := reason }

/-- A DISABLE that waits on a ring of a port is done once the ring has gone from the port, DISABLED, with its context (R6, R393)
(DEDUCED, log entry 20). -/
def State.answerDisable (s : State) (p : Port) (g : Ring) : State :=
  match g.disabling with
  | some f => s.answerRing p f 0
  | none => s

/-- The submission rings of a context's owner that name it return to their reset values; RING.PAUSED is of domain MODULE and
stays (R9, R227, 16 Rings). -/
def State.clearRingsOf (s : State) (p : Port) (c : CtxNo) : State :=
  let gone := ((s.port p).rings.map (·.2)).filter fun g => g.ctx == c
  (gone.foldl (fun s g => s.answerDisable p g) s).updPort p fun h => { h with rings := h.rings.map fun g =>
    if g.2.ctx = c then (g.1, { paused := g.2.paused }) else g }

/-- The state a context returns to: ORPHANED while its owner is down (R199, R225) (DEDUCED, log entry 19). -/
def State.liveState (s : State) (c : CtxNo) : CtxState :=
  if (s.port (s.ctx c).owner).isDown then .orphaned else .active

/-- The start of an abort: ABORTING, every command ended with the status, rings stopped, tiles cleared (R199). -/
def State.beginAbort (s : State) (c : CtxNo) (st : Nat) : State :=
  let s1 := s.updCtx c fun x => { x with state := .aborting }
  let s2 := s1.abortCmds ((s1.cmdsOf c).map fun x => (x.1, x.2.1)) st
  (s2.updRingsOf c Ring.stop).clearHeld c

/-- Whether a completion ring holds as many unconsumed records as it has slots (R206). -/
def Cq.full (q : Cq) : Bool := decide (2 ^ q.log2Len ≤ (q.tail - q.head).toNat)

/-- The completion ring a command's record goes to: that of its ring on the context's owner (R220, R226); a record that
outlives its context goes where it was bound for. -/
def State.cqOf (s : State) (c : Cmd) : Port × CqNo :=
  match c.home with
  | some h => (h.port, h.cq)
  | none =>
    let p := (s.ctx c.ctx).owner
    (p, (s.ring p c.ring).cq)

/-- The context record a command's record is translated by (R429). -/
def State.ctxOf (s : State) (c : Cmd) : Ctx :=
  match c.home with
  | some h => h.ctx
  | none => s.ctx c.ctx

/-- The records of a context that still wait keep their way when the context is freed (R199, R206, R220) (DEDUCED, log
entry 66). -/
def State.keepHomes (s : State) (c : CtxNo) : State :=
  (s.cmdsOf c).foldl (fun s' x =>
    let q := s.cqOf x.2.2
    s'.updCmd x.1 x.2.1 fun y => { y with home := some ⟨q.1, q.2, s.ctx c⟩ }) s

/-- A command's part in an abort is over: its record is written, or formed and waiting under R206 (R199, R328). -/
def State.settled (s : State) (destroy : Bool) (c : Cmd) : Bool :=
  c.phase == .record && (!destroy || c.recordPri ||
    (let x := s.cqOf c; (s.cq x.1 x.2).full && (s.cq x.1 x.2).state == .active))

/-- A command area's operation is done or refused (16 CTX.RESULT). -/
def Area.ctxAnswer (a : Area) (st reason : Nat) : Area := { a with ctxState := st, ctxReason := reason }

/-- Answer the area that waits for an abort or a destruction. -/
def State.answerArea (s : State) (w : Option (Port × Fn)) (st reason : Nat) : State :=
  match w with
  | none => s
  | some (p, f) => s.updArea p f fun a => a.ctxAnswer st reason

/-- A context whose first abort has run its course returns to life, or is freed with its rings at reset values (R199,
R9); what waits behind runs against the state left (R390) (DEDUCED, log entry 19). -/
def State.settleGo : Nat → State → CtxNo → State
  | 0, s, _ => s
  | fuel + 1, s, c =>
    let x := s.ctx c
    match x.state, x.ends with
    | .aborting, w :: ws =>
      if (s.cmdsOf c).all fun y => s.settled w.destroy y.2.2 then
        if w.destroy then
          let s1 := ((s.keepHomes c).clearRingsOf x.owner c).updCtx c fun _ => {}
          ws.foldl (fun s w => s.answerArea w.area 3 2) (s1.answerArea w.area 2 0)
        else
          let s1 := (s.updCtx c fun x => { x with
            ends := ws
            state := if ws.isEmpty then s.liveState c else .aborting }).answerArea w.area 2 0
          State.settleGo fuel s1 c
      else s
    | _, _ => s

/-- Let a context's aborts end when their commands have completed. -/
def State.settle (s : State) (c : CtxNo) : State := s.settleGo 4096 c

/-- Queue an abort or destruction of a context, and start it unless one runs (R199, R390). -/
def State.endCtx (s : State) (c : CtxNo) (w : CtxEnd) (st : Nat) : State :=
  let x := s.ctx c
  let s1 := s.updCtx c fun x => { x with ends := x.ends ++ [w] }
  (if x.state = .aborting then s1 else s1.beginAbort c st).settle c

/-- A destruction that no command area asked for: at the end of a function reset, or of a module reset (R225, R332). -/
def State.destroyCtx (s : State) (c : CtxNo) : State :=
  if (s.ctx c).state = .free then s else s.endCtx c ⟨true, none⟩ stCancelled

/-- CTX.CMD takes an operation: the fields are kept, GO reads back as busy (R389). -/
def Area.take (a : Area) (op : Nat) (c : CtxNo) (q : Nat) : Area :=
  { a with ctxCmd := c.val + 256 * op + 2 ^ 16 * q, ctxState := 1, ctxReason := 0, ctxCtx := c.val, ctxOp := op }

/-- Whether a command area accepts a GO: its function exists and RESULT is not busy (R389, R406). -/
def State.areaFree (s : State) (p : Port) (f : Fn) : Bool := s.fnUp p f && (s.area p f).ctxState != 1

/-- STAGE keeps the rules of R197 (REASON 0x06). -/
def stageOk (b : List Byte) : Bool :=
  decide (fld b 2 1 < 2) && decide (fld b 3 1 < 4) && decide (fld b 4 4 < 2 ^ 20) && decide (fld b 16 1 ≤ 9)
    && decide (fld b 17 1 ≤ 3) && (decide (fld b 18 1 ≤ 16) || fld b 18 1 == 0xFF) && fld b 20 4 == 0
    && fld b 24 8 % 8 == 0 && decide (fld b 24 8 < 2 ^ 52) && fld b 40 8 % 4096 == 0 && decide (fld b 40 8 < 2 ^ 52)
    && fld b 48 8 % 4096 == 0 && decide (fld b 48 8 < 2 ^ 52) && allZero (slice b 58 6)

/-- CTX.STAGE as it reads: its reserved bits and bytes read as zero (R4, R197). -/
def stageRead (b : List Byte) : List Byte :=
  slice b 0 2 ++ toLe 1 (fld b 2 1 % 2) ++ toLe 1 (fld b 3 1 % 4) ++ toLe 4 (fld b 4 4 % 2 ^ 20) ++ slice b 8 12 ++
    toLe 4 0 ++ slice b 24 34 ++ toLe 6 0

/-- The context a create makes from STAGE (R390). -/
def ctxOfStage (b : List Byte) (p : Port) (f : Fn) : Ctx :=
  { state := .active, owner := p, consent := bitOf (fld b 2 1) 0, priv := fld b 3 1, pasid := fld b 4 4
    seed := BitVec.ofNat 64 (fld b 8 8), defPrec := fld b 16 1, defGroup := fld b 17 1, semLog2 := fld b 18 1
    semBase := fld b 24 8, engineAllow := BitVec.ofNat 64 (fld b 32 8), groupTable := fld b 40 8
    stepPage := fld b 48 8, func := f, born := p }

/-- Contexts that a function of a port has created and that are not FREE. -/
def State.ctxCount (s : State) (p : Port) (f : Fn) : Nat :=
  ((Tab.keysBelow 256 s.ctxs).filter fun c => let x := s.ctx c; x.state != .free && x.owner == p && x.madeBy p f).length

/-- Why a create is refused; 0 when it is not. READY and the set-up lock come first (R368, R386, R389; DEDUCED, log entry 12). -/
def State.createReason (s : State) (p : Port) (f : Fn) (c : CtxNo) : Nat :=
  let b := (s.area p f).stage
  if !s.boot.ready then 9
  else if !s.sec.locked then 10
  else if (s.ctx c).state ≠ .free then 1
  else if !stageOk b || (Tab.keysBelow 256 s.ctxs).any (fun d =>
      let x := s.ctx d; x.state == .active && x.owner == p && x.pasid == fld b 4 4) then 6
  else if f ≠ 0 ∧ (Tab.get {} (s.port p).vfRings (f.val - 1)).ctxMax ≤ s.ctxCount p f then 7
  else if f ≠ 0 ∧ fld b 3 1 ≠ 0 then 8
  else 0

/-- CTX_CREATE (R390). -/
def execCtxCreate (p : Port) (f : Fn) (c : CtxNo) (s : State) : Out :=
  .next (
    if !s.areaFree p f then s
    else
      let s1 := s.updArea p f fun a => a.take 1 c 0
      match s.createReason p f c with
      | 0 => ((s1.clearRingsOf p c).updCtx c fun _ =>
          { ctxOfStage (s.area p f).stage p f with state := if (s.port p).isDown then .orphaned else .active }).answerArea
            (some (p, f)) 2 0
      | r => s1.answerArea (some (p, f)) 3 r)

/-- The contexts that a port owns. -/
def State.owned (s : State) (p : Port) : List CtxNo :=
  (Tab.keysBelow 256 s.ctxs).filter fun c => (s.ctx c).state != .free && (s.ctx c).owner == p

/-- The contexts of a port are ORPHANED while it is down, and ACTIVE again when it stops being down (R225). -/
def State.followPort (s : State) (p : Port) : State :=
  let down := (s.port p).isDown
  (s.owned p).foldl (fun s c => s.updCtx c fun x =>
    if down && x.state == .active then { x with state := .orphaned }
    else if !down && x.state == .orphaned then { x with state := .active }
    else x) s

/-- CTX_ABORT (R199, R390). -/
def execCtxAbort (p : Port) (f : Fn) (c : CtxNo) (s : State) : Out :=
  .next (
    if !s.areaFree p f || !s.boot.ready then s
    else
      let s1 := s.updArea p f fun a => a.take 2 c 0
      if s.mayWriteCtx p f c then s1.endCtx c ⟨false, some (p, f)⟩ stCancelled
      else s1.answerArea (some (p, f)) 3 2)

/-- CTX_DESTROY (R199, R390). -/
def execCtxDestroy (p : Port) (f : Fn) (c : CtxNo) (s : State) : Out :=
  .next (
    if !s.areaFree p f || !s.boot.ready then s
    else
      let s1 := s.updArea p f fun a => a.take 3 c 0
      if s.mayWriteCtx p f c then s1.endCtx c ⟨true, some (p, f)⟩ stCancelled
      else s1.answerArea (some (p, f)) 3 2)

/-- R225: a context may be adopted from its owner by the other port. -/
def State.adoptable (s : State) (p : Port) (c : CtxNo) : Bool :=
  let x := s.ctx c
  x.owner != p && (x.state == .active || x.state == .orphaned) && ((s.port x.owner).isDown || x.consent)

/-- Why an adoption is refused (R226); 0 when it is not. -/
def State.adoptReason (s : State) (p : Port) (f : Fn) (c : CtxNo) (q : CqNo) : Nat :=
  if !s.adoptable p c then 3
  else if (s.cq p q).state ≠ .active ∨ (s.cq p q).full ∨ s.cqHolder p q ≠ f then 4
  else if (s.ringsOf c).any fun r => (s.ring p r).state != .disabled then 5
  else 0

/-- Whether a ring's base lies in device memory (R200). -/
def State.inDevice (s : State) (c : CtxNo) (va : Nat) : Bool :=
  match s.xlate c va false with
  | .hbm _ => true
  | _ => false

/-- A ring as it arrives on the adopter: one in host memory STOPPED with its unfetched descriptors abandoned (R226). -/
def Ring.arrive (g : Ring) (device : Bool) (q : CqNo) : Ring :=
  if device then { g with cq := q, disabling := none }
  else
    { g with
      cq := q, disabling := none, state := .stopped, err := 3, cancelRanges := []
      abandoned := if g.state = .stopped then g.abandoned else satAdd 16 g.abandoned (g.tail - g.head).toNat }

/-- Move the rings of a context to the same numbers on the adopter (R226 step 2). -/
def State.moveRings (s : State) (c : CtxNo) (p : Port) (q : CqNo) : State :=
  (s.ringsOf c).foldl (fun s' r =>
    let g := s.ring (s.ctx c).owner r
    ((s'.answerDisable (s.ctx c).owner g).updRing (s.ctx c).owner r fun _ => {}).updRing p r fun _ => g.arrive (s.inDevice c g.base) q) s

/-- CTX_ADOPT (R226); an adopter that is down itself owns it ORPHANED (R225). -/
def execCtxAdopt (p : Port) (f : Fn) (c : CtxNo) (q : CqNo) (s : State) : Out :=
  .next (
    if !s.areaFree p f || !s.boot.ready then s
    else
      let s1 := s.updArea p f fun a => a.take 4 c q.val
      match s.adoptReason p f c q with
      | 0 =>
        ((s1.moveRings c p q).updCtx c fun x => { x with
          owner := p, consent := false, withdrawn := true, remapped := []
          state := if (s.port p).isDown then .orphaned else .active }).answerArea
            (some (p, f)) 2 0
      | r => s1.answerArea (some (p, f)) 3 r)

/-- Write part of a register or record image: the bytes of the access replace those of the old image. -/
def mergeImage (old : List Byte) (off size : Nat) (v : W64) : List Byte := patch old off (toLe size v.toNat)

/-- The 64-byte image of a context record (R197). -/
def State.ctxImage (s : State) (c : CtxNo) : List Byte :=
  let x := s.ctx c
  toLe 1 (match x.state with | .free => 0 | .active => 1 | .aborting => 2 | .orphaned => 3) ++ toLe 1 x.owner.val ++
    toLe 1 (b2n x.consent) ++ toLe 1 x.priv ++ toLe 4 x.pasid ++ toLe 8 x.seed.toNat ++ toLe 1 x.defPrec ++
    toLe 1 x.defGroup ++ toLe 1 x.semLog2 ++ toLe 1 (s.ringsOf c).length ++ toLe 4 0 ++ toLe 8 x.semBase ++
    toLe 8 x.engineAllow.toNat ++ toLe 8 x.groupTable ++ toLe 8 x.stepPage ++ toLe 2 (s.ctxInFlight c) ++ toLe 6 0

/-- The mutable fields of R198 taken from an image: a value that R197 does not give a field leaves the field as it was. -/
def Ctx.rewrite (x : Ctx) (b : List Byte) : Ctx :=
  { x with
    consent := bitOf (fld b 2 1) 0
    seed := BitVec.ofNat 64 (fld b 8 8)
    defPrec := if fld b 16 1 ≤ 9 then fld b 16 1 else x.defPrec
    defGroup := if fld b 17 1 ≤ 3 then fld b 17 1 else x.defGroup
    groupTable := if fld b 40 8 % 4096 = 0 ∧ fld b 40 8 < 2 ^ 52 then fld b 40 8 else x.groupTable
    stepPage := if fld b 48 8 % 4096 = 0 ∧ fld b 48 8 < 2 ^ 52 then fld b 48 8 else x.stepPage }

/-- An aligned access of 4 or 8 bytes (R384). -/
def accessOk (off size : Nat) : Bool := (size == 4 || size == 8) && off % size == 0

/-- CONTEXT_RECORD_WRITE (R198, R388). -/
def execContextRecordWrite (p : Port) (f : Fn) (c : CtxNo) (off size : Nat) (v : W64) (s : State) : Out :=
  .next (
    if s.boot.ready && accessOk off size && decide (off + size ≤ 64) && s.mayWriteCtx p f c
        && (s.ctx c).state == .active then
      let b := mergeImage (s.ctxImage c) off size v
      s.updCtx c fun x => x.rewrite b
    else s)

end Sys2Proof.Machine
end

