-- ==== Sys2Proof/Machine/Rings.lean ====
section
/-!
DEFINITION. Doorbells, ring operations and ring records (09 R200 to R207; 16 R387, R392 to R394).
-/

namespace Sys2Proof.Machine

/-! ### Doorbells -/

/-- A ring goes to ERROR with a code, its completion ring's interrupt is raised (R202). -/
def State.ringError (s : State) (p : Port) (r : RingNo) (code : Nat) : State :=
  (s.updRing p r fun g => { g with state := .error, err := code, cancelRanges := [] }).raiseCq p (s.ring p r).cq

/-- SUBMISSION_DOORBELL (R202, R394, R368). -/
def execSubmissionDoorbell (p : Port) (f : Fn) (r : RingNo) (size : Nat) (value : W64) (s : State) : Out :=
  .next (
    let g := s.ring p r
    let new : W32 := value.setWidth 32
    if !s.boot.ready || size != 8 || s.ringHolder p r != f || g.state != .active then s
    else if 2 ^ g.log2Len < (new - g.head).toNat then s.ringError p r 1
    else if (new - g.head).toNat < (g.tail - g.head).toNat then s.ringError p r 4
    else s.updRing p r fun g => { g with tail := new })

/-- The vector is due by MOD_COUNT (R207) (DEDUCED, log entry 18). -/
def Cq.due (q : Cq) : Bool := decide (q.modCount ≤ (q.tail - q.head).toNat)

/-- COMPLETION_RING_HEAD (R201, R207, R394, R406). -/
def execCompletionRingHead (p : Port) (f : Fn) (c : CqNo) (size : Nat) (value : W64) (s : State) : Out :=
  .next (
    let q := s.cq p c
    let new : W32 := value.setWidth 32
    if !s.boot.ready || !(size == 4 || size == 8) || s.cqHolder p c != f
        || decide ((q.tail - q.head).toNat < (new - q.head).toNat) then s
    else
      let s1 := s.updCq p c fun q => { q with head := new, raised := false }
      if q.state ≠ .disabled ∧ (s1.cq p c).due then s1.raiseCq p c else s1)

/-- MOD_TIME_EXPIRY (R207): MOD_TIME is non-zero and a record is unconsumed. -/
def execModTimeExpiry (p : Port) (c : CqNo) (s : State) : Out :=
  .next (
    let q := s.cq p c
    if q.state = .disabled ∨ q.modTime = 0 ∨ q.tail = q.head then s else s.raiseCq p c)

/-! ### Ring operations -/

/-- Whether an area accepts a ring operation (R393, R406, R368). -/
def State.ringAreaFree (s : State) (p : Port) (f : Fn) : Bool :=
  s.boot.ready && s.fnUp p f && (s.area p f).ringState != 1

/-- RING.CMD takes an operation. -/
def State.takeRing (s : State) (p : Port) (f : Fn) (op n : Nat) : State :=
  s.updArea p f fun a => { a with ringCmd := n + 512 * op, ringState := 1, ringReason := 0 }

/-- Base and length of a ring keep R200 and R205. -/
def ringShapeOk (base log2 : Nat) : Bool := base % 4096 == 0 && decide (base < 2 ^ 52 ∧ 4 ≤ log2 ∧ log2 ≤ 16)

/-- REASON of RING.RESULT for an operation on a submission ring; 0 when it may go ahead (R393; DEDUCED, log entry 12). -/
def State.ringReason (s : State) (p : Port) (f : Fn) (r : RingNo) (op : Nat) : Nat :=
  let g := s.ring p r
  if s.ringHolder p r ≠ f then 2
  else
    match op with
    | 1 =>
      if g.state = .active then 1
      else if (s.ctx g.ctx).state ≠ .active ∨ (s.ctx g.ctx).owner ≠ p then 3
      else if !ringShapeOk g.base g.log2Len || (s.cq p g.cq).state != .active then 4
      else 0
    | 2 => if g.state = .active then 0 else 1
    | 3 => if g.state = .stopped ∨ g.state = .error then 0 else 1
    | 4 => if g.state = .active then 0 else 1
    | _ => if g.state = .active ∧ g.paused then 0 else 1

/-- One operation on a submission ring: taken, judged, and its effect applied when it may go ahead (DEDUCED, log entry 20). -/
def State.ringOp (s : State) (p : Port) (f : Fn) (r : RingNo) (op : Nat) (eff : State → State) : State :=
  if !s.ringAreaFree p f then s
  else
    match s.ringReason p f r op with
    | 0 => eff (s.takeRing p f op r.val)
    | x => (s.takeRing p f op r.val).answerRing p f x

/-- RING_ENABLE (R393 OP 1). -/
def execRingEnable (p : Port) (f : Fn) (r : RingNo) (s : State) : Out :=
  .next (s.ringOp p f r 1 fun s1 =>
    (s1.updRing p r fun g => { g with
      head := (s.area p f).ringCount, tail := (s.area p f).ringCount, err := 0, state := .active, cancelRanges := []
      disabling := none }).answerRing p f 0)

/-- RING_STOP (R393 OP 2). -/
def execRingStop (p : Port) (f : Fn) (r : RingNo) (s : State) : Out :=
  .next (s.ringOp p f r 2 fun s1 => (s1.updRing p r Ring.stop).answerRing p f 0)

/-- RING_DISABLE (R393 OP 3): busy until RING_DISABLE_COMPLETE. -/
def execRingDisable (p : Port) (f : Fn) (r : RingNo) (s : State) : Out :=
  .next (s.ringOp p f r 3 fun s1 => s1.updRing p r fun g => { g with disabling := some f })

/-- RING_DISABLE_COMPLETE (R393 OP 3). -/
def execRingDisableComplete (p : Port) (r : RingNo) (s : State) : Out :=
  .next (
    let g := s.ring p r
    match g.disabling with
    | none => s
    | some f =>
      if (g.state = .stopped ∨ g.state = .error) ∧ s.ringInFlight p r = 0 then
        (s.updRing p r fun g => { g with state := .disabled, disabling := none, cancelRanges := [] }).answerRing p f 0
      else s)

/-- RING_PAUSE (R393 OP 4). -/
def execRingPause (p : Port) (f : Fn) (r : RingNo) (s : State) : Out :=
  .next (s.ringOp p f r 4 fun s1 => (s1.updRing p r fun g => { g with paused := true }).answerRing p f 0)

/-- RING_RESUME (R393 OP 5). -/
def execRingResume (p : Port) (f : Fn) (r : RingNo) (s : State) : Out :=
  .next (s.ringOp p f r 5 fun s1 => (s1.updRing p r fun g => { g with paused := false }).answerRing p f 0)

/-- REASON of RING.RESULT for an operation on a completion ring (R393). -/
def State.cqReason (s : State) (p : Port) (f : Fn) (c : CqNo) (op : Nat) : Nat :=
  let q := s.cq p c
  if s.cqHolder p c ≠ f then 2
  else if op = 6 then
    (if q.state ≠ .disabled then 1 else if !ringShapeOk q.base q.log2Len then 4 else 0)
  else (if q.state = .disabled then 1 else 0)

/-- One operation on a completion ring (DEDUCED, log entry 20). -/
def State.cqOp (s : State) (p : Port) (f : Fn) (c : CqNo) (op : Nat) (eff : State → State) : State :=
  if !s.ringAreaFree p f then s
  else
    match s.cqReason p f c op with
    | 0 => eff (s.takeRing p f op c.val)
    | x => (s.takeRing p f op c.val).answerRing p f x

/-- CQ_ENABLE (R393 OP 6). -/
def execCqEnable (p : Port) (f : Fn) (c : CqNo) (s : State) : Out :=
  .next (s.cqOp p f c 6 fun s1 =>
    (s1.updCq p c fun q => { q with
      tail := (s.area p f).ringCount, head := (s.area p f).ringCount, state := .active, raised := false
      disabling := none }).answerRing p f 0)

/-- CQ_DISABLE (R393 OP 7): busy until CQ_DISABLE_COMPLETE. -/
def execCqDisable (p : Port) (f : Fn) (c : CqNo) (s : State) : Out :=
  .next (s.cqOp p f c 7 fun s1 => s1.updCq p c fun q => { q with disabling := some f })

/-- Records that wait for room in a completion ring (WAITING of R227). -/
def State.cqWaiting (s : State) (p : Port) (c : CqNo) : Nat :=
  (s.cmds.filter fun x => x.2.2.phase == .record && s.cqOf x.2.2 == (p, c)).length

/-- Every submission ring bound to a completion ring is DISABLED. -/
def State.cqUnbound (s : State) (p : Port) (c : CqNo) : Bool :=
  (Tab.keysBelow 512 (s.port p).rings).all fun r => (s.ring p r).state == .disabled || (s.ring p r).cq != c

/-- CQ_DISABLE_COMPLETE (R393 OP 7). -/
def execCqDisableComplete (p : Port) (c : CqNo) (s : State) : Out :=
  .next (
    match (s.cq p c).disabling with
    | none => s
    | some f =>
      if s.cqUnbound p c ∧ s.cqWaiting p c = 0 then
        (s.updCq p c fun q => { q with state := .disabled, disabling := none }).answerRing p f 0
      else s)

/-! ### Ring records -/

/-- STATE code of a submission ring (R227). -/
def RingState.code : RingState → Nat
  | .disabled => 0
  | .active => 1
  | .stopped => 2
  | .error => 3

/-- The 32-byte image of a submission ring record (R227). -/
def State.ringImage (s : State) (p : Port) (r : RingNo) : List Byte :=
  let g := s.ring p r
  toLe 1 g.state.code ++ toLe 1 g.log2Len ++ toLe 1 g.ctx.val ++ toLe 1 g.cq.val ++ toLe 1 g.err ++ toLe 3 0 ++
    toLe 8 g.base ++ toLe 4 g.head.toNat ++ toLe 4 g.tail.toNat ++ toLe 4 g.done.toNat ++
    toLe 2 (s.ringInFlight p r) ++ toLe 2 g.abandoned

/-- STATE code of a completion ring, FULL included (R206, R227). -/
def Cq.code (q : Cq) : Nat :=
  match q.state with
  | .disabled => 0
  | .active => if q.full then 2 else 1
  | .error => 3

/-- The 32-byte image of a completion ring record (R227). -/
def State.cqImage (s : State) (p : Port) (c : CqNo) : List Byte :=
  let q := s.cq p c
  toLe 1 q.code ++ toLe 1 q.log2Len ++ toLe 2 q.vector ++ toLe 2 q.modCount ++ toLe 2 q.modTime ++ toLe 8 q.base ++
    toLe 4 q.tail.toNat ++ toLe 4 q.head.toNat ++ toLe 4 q.discarded.toNat ++ toLe 2 (s.cqWaiting p c) ++ toLe 2 0

/-- A write of a submission ring record's set-up fields (R392). -/
def State.writeRingRecord (s : State) (p : Port) (f : Fn) (r : RingNo) (off size : Nat) (v : W64) : State :=
  let g := s.ring p r
  let b := mergeImage (s.ringImage p r) off size v
  let c : CtxNo := Fin.ofNat 256 (fld b 2 1)
  if s.ringHolder p r ≠ f ∨ g.state ≠ .disabled then s
  else if off < 4 ∧ ((s.ctx c).state = .free ∨ (s.ctx c).owner ≠ p ∨ !(s.ctx c).madeBy p f) then s
  else if h : fld b 3 1 < 64 then
    if off < 4 ∧ s.cqHolder p ⟨fld b 3 1, h⟩ ≠ f then s
    else s.updRing p r fun g => { g with log2Len := fld b 1 1, ctx := c, cq := ⟨fld b 3 1, h⟩, base := fld b 8 8 }
  else s

/-- A write of a completion ring record's set-up fields (R392). -/
def State.writeCqRecord (s : State) (p : Port) (f : Fn) (c : CqNo) (off size : Nat) (v : W64) : State :=
  let b := mergeImage (s.cqImage p c) off size v
  if s.cqHolder p c ≠ f then s
  else s.updCq p c fun q =>
    let q1 := { q with
      vector := if fld b 2 2 < 2048 then fld b 2 2 else q.vector
      modCount := if fld b 4 2 = 0 then q.modCount else fld b 4 2
      modTime := fld b 6 2 }
    if q.state = .disabled then { q1 with log2Len := fld b 1 1, base := fld b 8 8 } else q1

/-- RING_RECORD_WRITE (R392). -/
def execRingRecordWrite (p : Port) (f : Fn) (cq : Bool) (n : RingNo) (off size : Nat) (v : W64) (s : State) : Out :=
  .next (
    if !s.boot.ready || !accessOk off size || decide (32 < off + size) || !s.fnUp p f then s
    else if cq then
      (if h : n.val < 64 then s.writeCqRecord p f ⟨n.val, h⟩ off size v else s)
    else s.writeRingRecord p f n off size v)

end Sys2Proof.Machine
end

