-- ==== Sys2Proof/Machine/Pipeline.lean ====
section
/-!
DEFINITION. From doorbell to completion, but for the checks and admission: fetch, ordering, semaphores, visibility,
signal and record (09 R204 to R207, R215 to R220, R223 to R225, R429).
-/

namespace Sys2Proof.Machine

/-! ### Fetch -/

/-- Fetched commands that have not been admitted (R204, R216). -/
def Phase.before5 : Phase → Bool
  | .fetched => true
  | .priWait => true
  | .priWait4 => true
  | .priWait5 => true
  | .ordering => true
  | .semaphore => true
  | .predicate => true
  | .admission => true
  | _ => false

/-- Commands of a ring on its context's owner. -/
def State.ringCmds (s : State) (p : Port) (r : RingNo) : List (Port × Tag × Cmd) :=
  s.cmds.filter fun x => x.2.2.ring == r && x.2.2.home.isNone && (s.ctx x.2.2.ctx).owner == p

/-- A ring the ring manager may fetch from (R204, R225, R393). -/
def State.ringReady (s : State) (p : Port) (r : RingNo) : Bool :=
  let g := s.ring p r
  g.state == .active && !g.paused && g.head != g.tail
    && decide (((s.ringCmds p r).filter fun x => x.2.2.phase.before5).length < 16)
    && (!(s.port p).isDown || s.inDevice g.ctx g.base)

/-- The next ready ring in round robin (R204). -/
def State.nextRing (s : State) (p : Port) : Option RingNo :=
  let ready := (Tab.keysBelow 512 (s.port p).rings).filter fun r => s.ringReady p r
  match ready.find? fun r => decide ((s.port p).rrNext ≤ r.val) with
  | some r => some r
  | none => ready.head?

/-- A ring count lies in a SELECT 1 range (R223). -/
def inRange (r : W32 × W32) (c : W32) : Bool := decide ((c - r.1).toNat ≤ (r.2 - r.1).toNat)

/-- The command record a fetched descriptor starts (R215 step 1). -/
def fetchedCmd (g : Ring) (r : RingNo) (order : Nat) (d : List Byte) : Cmd :=
  { phase := .fetched, ctx := g.ctx, ring := r, index := g.head.toNat % 2 ^ g.log2Len, count := g.head, order := order
    desc := d, status := if g.cancelRanges.any (inRange · g.head) then some stCancelled else none }

/-- DESCRIPTOR_FETCH (R201, R204, R215 step 1, R223): the tag is the ring manager's choice (DESIGN CHOICE, log entry 9). A slot on a host page
that is not present is a failed read, without a page request (DESIGN CHOICE, log entry 69). -/
def execDescriptorFetch (p : Port) (t : Tag) (s : State) : Out :=
  .next (
    if (s.cmd p t).phase ≠ .free then s
    else
      match s.nextRing p with
      | none => s
      | some r =>
        let g := s.ring p r
        let s1 := s.updPort p fun h => { h with rrNext := (r.val + 1) % 512 }
        match s.vread g.ctx (g.base + 128 * (g.head.toNat % 2 ^ g.log2Len)) 128 with
        | .error _ => s1.updRing p r fun g => { g with state := .error, err := 2, cancelRanges := [] }
        | .ok d =>
          ({ (s1.updCmd p t fun _ => fetchedCmd g r s.order d) with order := s.order + 1 }).updRing p r fun g =>
            { g with head := g.head + 1, cancelRanges := g.cancelRanges.filter fun x => x.2 != g.head })

/-! ### Ordering, semaphores -/

/-- Earlier commands of a command's ring that hold a tag. -/
def State.earlier (s : State) (c : Cmd) : List (Port × Tag × Cmd) :=
  (s.cmdsOf c.ctx).filter fun x => x.2.2.ring == c.ring && decide (x.2.2.order < c.order)

/-- The ordering of R216 lets a command pass step 3. -/
def State.ordered (s : State) (c : Cmd) : Bool :=
  let es := s.earlier c
  es.all (fun x => !x.2.2.phase.before5) && (!c.afterPrior || es.isEmpty) && es.all fun x => !x.2.2.barrier

/-- Step 4 follows step 3: a predicate, or the count record of a gathered MATMUL, is read there (R178, R190). -/
def Cmd.reads4 (c : Cmd) : Bool :=
  c.predOp != 0 || ((c.op == 0x01 || c.op == 0x02) && (c.stages.any fun g => fld g.ext 32 8 != 0))

/-- A command moves past the waits it has met (R215 steps 3 to 5). -/
def Cmd.past (c : Cmd) (met : Bool) : Cmd :=
  { c with phase := if c.waitEn && !met then .semaphore else if c.reads4 then .predicate else .admission }

/-- ORDERING_RELEASE (R216). -/
def execOrderingRelease (p : Port) (t : Tag) (s : State) : Out :=
  .next (
    let c := s.cmd p t
    if c.phase = .ordering ∧ s.ordered c then s.updCmd p t fun c => c.past false else s)

/-- An access before step 6 that cannot be made ends its command with FAULT_ABORT and a fault record with ENGINE and STREAM
0xFF; `quiet` says that no signal is performed either (R217, R428). -/
def State.badRecord (s : State) (p : Port) (t : Tag) (w : Bool) (va kind : Nat) (quiet : Bool) : State :=
  (s.postFault kind p t 0xFF 0xFF w va).updCmd p t fun c =>
    { c.fail stFaultAbort s.hk with phase := .ended, noSignal := c.noSignal || quiet }

/-- A wait, predicate read or signal that reaches a HOST page or an untranslatable address (R217): FAULT_ABORT, no
signal, a fault record with ENGINE and STREAM 0xFF. -/
def State.badWord (s : State) (p : Port) (t : Tag) (w : Bool) (va kind : Nat) : State := s.badRecord p t w va kind true

/-- One test of a semaphore wait (R217). -/
def State.testWait (s : State) (p : Port) (t : Tag) : State :=
  let c := s.cmd p t
  if c.phase ≠ .semaphore then s
  else
    let va := s.semAddr c (c.f 4 2)
    match s.xlate c.ctx va false with
    | .hbm pa => if c.f 8 8 ≤ leNat (s.hbmRead pa 8) then s.updCmd p t fun c => c.past true else s
    | .host _ _ => s.badWord p t false va 2
    | .fault kind => s.badWord p t false va (if kind = 3 ∨ kind = 4 then 2 else kind)

/-- SEMAPHORE_WAIT_MET (R217). -/
def execSemaphoreWaitMet (p : Port) (t : Tag) (s : State) : Out := .next (s.testWait p t)

/-- SEMAPHORE_RETEST (R217): every waiting command is tested. -/
def execSemaphoreRetest (s : State) : Out := .next (s.cmds.foldl (fun s x => s.testWait x.1 x.2.1) s)

/-! ### Visibility, signal, record -/

/-- Whether a semaphore index lies in the context's region (R217). -/
def State.semIndexOk (s : State) (c : Cmd) (i : Nat) : Bool :=
  (s.ctx c.ctx).semLog2 != 0xFF && decide (i < 2 ^ (s.ctx c.ctx).semLog2)

/-- Whether the signal is performed (R217, R218, R181): SIG_OP 0 has none, and SIG_OP 3 is reserved. -/
def Cmd.signals (c : Cmd) : Bool :=
  (c.sigOp == 1 || c.sigOp == 2) && !c.noSignal && (c.sigAlways || c.predSkipped || decide (c.finalStatus < 0x10))

/-- The semaphore's value after a signal (R218). -/
def Cmd.sigValue (c : Cmd) (old : Nat) : Nat := if c.sigOp = 1 then (old + c.f 16 8) % 2 ^ 64 else c.f 16 8

/-- Step 8: the signal (R218); no address is formed from an index outside the region (R217). -/
def State.signal (s : State) (p : Port) (t : Tag) : State :=
  let c := s.cmd p t
  if !c.signals || !s.semIndexOk c (c.f 6 2) then s
  else
    let va := s.semAddr c (c.f 6 2)
    match s.xlate c.ctx va true with
    | .hbm pa =>
      (s.hbmWrite pa (toLe 8 (c.sigValue (leNat (s.hbmRead pa 8))))).updCmd p t fun c => { c with signalled := true }
    | .host _ _ => s.badWord p t true va 2
    | .fault kind => s.badWord p t true va (if kind = 3 ∨ kind = 4 then 2 else kind)

/-- The 32-byte completion record (R220), as record `n` of its ring. -/
def State.recordBytes (s : State) (p : Port) (t : Tag) (phase : Bool) : List Byte :=
  let c := s.cmd p t
  toLe 1 c.finalStatus ++
    toLe 1 (b2n phase + 2 * b2n c.predSkipped + 4 * b2n c.signalled + 8 * b2n c.faultPosted
      + 16 * b2n ((s.ctxOf c).owner != p)) ++
    toLe 1 c.op ++ toLe 1 c.ctx.val ++ toLe 2 c.ring.val ++ toLe 2 c.index ++ toLe 2 t.val ++
    toLe 6 (c.time.toNat % 2 ^ 48) ++ toLe 4 (min c.sat 0xFFFFFFFF) ++ toLe 4 (min c.under 0xFFFFFFFF) ++
    toLe 4 (c.aux0 % 2 ^ 32) ++ toLe 4 (c.aux1 % 2 ^ 32)

/-- A CANCEL that selected a command counts it and its melt as the command's record is written, unless the CANCEL has ended
and left its tag (R220, R224, R255). -/
def State.countCancelled (s : State) (c : Cmd) (q : Port × Tag × Nat) : State :=
  s.updCmd q.1 q.2.1 fun x =>
    if x.phase = .free ∨ x.order ≠ q.2.2 then x
    else { x with
      aux0 := x.aux0 + b2n (c.finalStatus == stCancelled)
      melted := x.melted + c.melted
      aux1 := ceilDiv (x.melted + c.melted) 1024 }

/-- The tag is released, and the CANCELs that selected its command learn of it (R220, R224). -/
def State.releaseTag (s : State) (p : Port) (t : Tag) : State :=
  let c := s.cmd p t
  let s1 := c.cancellers.foldl (fun s q => s.countCancelled c q) s
  (s1.updCmd p t fun _ => {}).settle c.ctx

/-- A record that is not written is counted, and its tag released (R225, R429). -/
def State.discardRecord (s : State) (p : Port) (t : Tag) (x : Port × CqNo) (err : Bool) : State :=
  (s.updCq x.1 x.2 fun q => { q with
    discarded := q.discarded + 1
    state := if err then .error else q.state }).releaseTag p t

/-- The host page that an address maps to through a context record. -/
def State.hostPage (s : State) (x : Ctx) (va : Nat) (w : Bool) : Nat :=
  match s.walkFrom va w 5 1 x.root with
  | .inr (a, _) => a / 65536
  | .inl _ => 0

/-- Ask for a host page under a context's PASID (R251, R428, R429) (DEDUCED, log entry 58). -/
def State.pageRequest (s : State) (x : Ctx) (va : Nat) (w : Bool) (wait : PriWait) : State :=
  let page := s.hostPage x va w
  ({ s with mem := { s.mem with pri := s.mem.pri ++ [{ wait := wait, page := page, va := va, w := w }] } } : State).emit
    (.pageRequest x.owner x.pasid page)

/-- A record is written into its slot and counted, and its vector raised when it is due (R205, R207, R220); DONE of a ring that has
gone with its context counts it no more. -/
def State.putRecord (s : State) (p : Port) (t : Tag) (x : Port × CqNo) (va : Nat) : State :=
  let c := s.cmd p t
  let q := s.cq x.1 x.2
  let s1 := s.storeAt (s.xlateIn (s.ctxOf c) va true) (s.recordBytes p t (!bitOf q.tail.toNat q.log2Len))
  let s2 := (s1.updCq x.1 x.2 fun q => { q with tail := q.tail + 1 }).updRing x.1 c.ring fun g =>
    if c.home.isSome then g else { g with done := g.done + 1 }
  (if c.irqNow || (s2.cq x.1 x.2).due then s2.raiseCq x.1 x.2 else s2).releaseTag p t

/-- COMPLETION_RECORD_WRITE (R205, R206, R207, R220, R225, R429). -/
def execCompletionRecordWrite (p : Port) (t : Tag) (s : State) : Out :=
  .next (
    let c := s.cmd p t
    let x := s.cqOf c
    let q := s.cq x.1 x.2
    let va := q.base + 32 * (q.tail.toNat % 2 ^ q.log2Len)
    if c.phase ≠ .record ∨ c.recordPri then s
    else
      match q.state with
      | .disabled => s
      | .error => s.discardRecord p t x false
      | .active =>
        match s.xlateIn (s.ctxOf c) va true with
        | .hbm _ => if q.full then s else s.putRecord p t x va
        | .host _ _ =>
          if (s.port x.1).isDown then s.discardRecord p t x false else if q.full then s else s.putRecord p t x va
        | .fault 3 =>
          if (s.port x.1).isDown then s.discardRecord p t x false
          else (s.pageRequest (s.ctxOf c) va true (.record p t)).updCmd p t fun c => { c with recordPri := true }
        | .fault _ => s.discardRecord p t x true)

/-! ### Melt -/

/-- MELT_COMPLETE (R255): the last outstanding read of a stopped command has landed, and nothing of it drains. -/
def execMeltComplete (p : Port) (t : Tag) (s : State) : Out :=
  .next (
    if (s.cmd p t).phase = .cancelling ∧ !s.drains p t
        ∧ (s.cmdSlots p t).all (fun x => !s.readsInFlight x.1 p t) then s.doneCmd p t
    else s)

end Sys2Proof.Machine
end

