-- ==== Sys2Proof/Machine/Operands.lean ====
section
/-!
DEFINITION. Operand forms: the fields of a MATMUL or a FUSED stage, its units, and the element formats it reads
(09 R208 to R214; 06 R114; 08 R167 to R171, R190, R191).
-/

namespace Sys2Proof.Machine

/-- The 128-byte descriptor image of a FUSED stage record: PRECB at byte 3, bytes 50 on from stage byte 2 (09 FUSED). -/
def stageBody (b : List Byte) : List Byte :=
  List.replicate 3 0 ++ slice b 0 1 ++ List.replicate 46 0 ++ slice b 2 78

/-- The fields of a MATMUL or of a FUSED stage, with what it inherits (R208 to R210). -/
structure MM where
  prec : Nat
  group : Nat
  mode : Nat
  serialW : Nat
  acc : Nat
  outFmt : Nat
  mflags : Nat
  m : Nat
  n : Nat
  k : Nat
  lda : Nat
  ldb : Nat
  ldc : Nat
  mask : W64
  a : Nat
  b : Nat
  c : Nat
  epiAddr : Nat
  extAddr : Nat
  aScale : Nat
  bScale : Nat
  maskAddr : Nat
  tileMap : Nat
  gather : Nat
  countAddr : Nat
  denseN : Nat
  t : Nat
  kSel : Nat
  epi : EpiRec
  func : List Byte
  map : Option (List Byte) := none
  deriving DecidableEq, Repr

/-- The fields of a stage copy under the context defaults `dp` and `dg`, with `acc` the ACCEPTED count when gathered. -/
def mmOf (g : StageCopy) (dp dg accepted : Nat) : MM :=
  let f := fld g.body
  let x := fld g.ext
  let precb := f 3 1
  let outFmt := f 52 1
  { prec := if precb % 16 = 0 then dp else precb % 16
    group := if bitsOf precb 5 4 = 0 then dg else bitsOf precb 5 4
    mode := modeOfPrecb precb, serialW := f 50 1, acc := f 51 1, outFmt := outFmt, mflags := f 53 1
    m := f 56 4, n := if x 32 8 != 0 then accepted else f 60 4, k := f 64 4
    lda := f 68 4, ldb := f 72 4, ldc := f 76 4, mask := BitVec.ofNat 64 (f 80 8)
    a := f 88 8, b := f 96 8, c := f 104 8, epiAddr := f 112 8, extAddr := f 120 8
    aScale := x 0 8, bScale := x 8 8, maskAddr := x 16 8, tileMap := x 24 8, gather := x 32 8, countAddr := x 40 8
    denseN := x 48 4, t := x 52 4, kSel := x 56 1
    epi := if f 112 8 = 0 then epiDefault outFmt else epiOf g.epi, func := g.func }

/-- Stage `i` of a command, with its tile map once its streams have read it. -/
def Cmd.mm (c : Cmd) (i : Nat) : MM :=
  { mmOf (c.stages.getD i {}) c.prec c.group c.accepted with map := (c.maps.find? (·.1 == i)).map (·.2) }

namespace MM

/-- Products per group (R52): GROUP codes 1, 2, 3 are 4, 8, 16. -/
def g (x : MM) : Nat := match x.group with | 1 => 4 | 2 => 8 | _ => 16

/-- Tiles by rows and columns (R211). -/
def mt (x : MM) : Nat := ceilDiv x.m 64
def nt (x : MM) : Nat := ceilDiv x.n 64
def q (x : MM) : Nat := x.mt * x.nt

/-- KSPLIT, SPARSE_CLASS and the MFLAGS bits. -/
def ksplit (x : MM) : Nat := bitsOf x.mflags 5 4
def sparse (x : MM) : Nat := bitsOf x.mflags 3 2
def gatherWeight (x : MM) : Bool := bitOf x.mflags 0
def scatter (x : MM) : Bool := bitOf x.mflags 1

/-- ACC_SEL, ACC_START, ACC_END, ACC_JOIN. -/
def accSel (x : MM) : Nat := bitsOf x.acc 1 0
def continues (x : MM) : Bool := bitOf x.acc 2
def holds (x : MM) : Bool := bitOf x.acc 3
def joins (x : MM) : Bool := bitOf x.acc 4

/-- Units (R211). -/
def units (x : MM) : Nat := x.q * 2 ^ x.ksplit

/-- Number of engines the mask names. -/
def nEng (x : MM) : Nat := popcount 64 x.mask.toNat

/-- Chunks of 16 groups, and the first and last chunk of part `j` (R211). -/
def chunks (x : MM) : Nat := ceilDiv x.k (16 * x.g)
def partLo (x : MM) (j : Nat) : Nat := j * x.chunks / 2 ^ x.ksplit
def partHi (x : MM) (j : Nat) : Nat := (j + 1) * x.chunks / 2 ^ x.ksplit

/-- Groups of the reduction, and those of part `j`: its first, and one past its last (R52, R211). -/
def groups (x : MM) : Nat := ceilDiv x.k x.g
def groupLo (x : MM) (j : Nat) : Nat := min x.groups (16 * x.partLo j)
def groupHi (x : MM) (j : Nat) : Nat := min x.groups (16 * x.partHi j)

/-- The class code of R88. -/
def cls (x : MM) : Nat :=
  if x.mode = 2 then 5
  else match x.prec with | 1 => 1 | 2 => 1 | 4 => 1 | 3 => 2 | 5 => 4 | _ => 3

/-- An integer format of R114's width codes. -/
def serialFmt (code : Nat) : Fmt :=
  if code = 0 then .t2 else if code ≤ 8 then .int false code else .int true (code - 7)

/-- Element format of operand A (R209, R114). -/
def fmtA (x : MM) : Fmt :=
  match x.prec with
  | 1 => .l8 | 2 => .l8 | 3 => .l16 | 4 => .t2 | 5 => serialFmt (x.serialW % 16) | 6 => .bf16 | 7 => .fp16 | _ => .fp32

/-- Element format of operand B. -/
def fmtB (x : MM) : Fmt :=
  match x.prec with
  | 1 => .l8 | 2 => .l8 | 3 => .l16 | 4 => .l8 | 5 => serialFmt (x.serialW / 16) | 6 => .bf16 | 7 => .fp16 | _ => .fp32

/-- The output format (R136). -/
def fmtC (x : MM) : Fmt := outFmtOf x.epi.outFmt x.epi.outInt

/-- Passes over the reduction: three or six for the FP32 splits (R107), one otherwise. -/
def passes (x : MM) : Nat := if x.prec = 8 then 3 else if x.prec = 9 then 6 else 1

/-- Columns of a row of the output (R191). -/
def outCols (x : MM) : Nat := if x.scatter then x.t * x.kSel else x.n

/-- Strides in bytes, packed ones rounded up to 16 (R210). -/
def packed (f : Fmt) (n : Nat) : Nat := roundUp (ceilDiv (n * f.bits) 8) 16
def rowLen (f : Fmt) (n : Nat) : Nat := ceilDiv (n * f.bits) 8
def ldaB (x : MM) : Nat := if x.lda = 0 then packed x.fmtA x.k else x.lda
def ldbB (x : MM) : Nat := if x.ldb = 0 then packed x.fmtB x.k else x.ldb
def ldcB (x : MM) : Nat := if x.ldc = 0 then packed x.fmtC x.outCols else x.ldc

end MM

/-- First unit and one past the last unit of the engine that is the `j`-th lowest of `n` (R211). -/
def unitLo (u n j : Nat) : Nat := j * u / n
def unitHi (u n j : Nat) : Nat := (j + 1) * u / n

/-- The rank of an engine among the set bits of a mask. -/
def maskRank (mask : W64) (e : Eng) : Nat := popcount e.val mask.toNat

/-- The units of an engine of a mask (R211). -/
def unitsOf (u : Nat) (mask : W64) (e : Eng) : Nat × Nat :=
  let n := popcount 64 mask.toNat
  if mask.getLsbD e.val then (unitLo u n (maskRank mask e), unitHi u n (maskRank mask e)) else (0, 0)

/-- The engines of a mask that take a unit (R211). -/
def usedEngines (u : Nat) (mask : W64) : List Eng :=
  (maskEngines mask).filter fun e => let r := unitsOf u mask e; decide (r.1 < r.2)

/-- FUSED stages of a command. -/
def Cmd.nStages (c : Cmd) : Nat := c.stages.length

/-- Units of a row-shared command (R211, R213, R261): rows of a MOVE, systems of a SOLVE, 64-row units of an UPDATE. -/
def Cmd.rowUnits (c : Cmd) : Nat :=
  match c.op with
  | 0x03 => c.f 76 4
  | 0x06 => c.f 56 4
  | 0x08 => ceilDiv (c.f 88 4) 64
  | _ => 0

/-- The lowest engine of each partition that ENGINE_ALLOW holds (R344). -/
def lowestPerPart (allow : W64) : List Eng :=
  (List.finRange 8).filterMap fun q => (enginesOf q).find? fun e => allow.getLsbD e.val

/-- The engine a command with an ENGINE field of 0xFF takes: the allowed engine with the fewest occupied task slots that is
not isolated, the lowest on a tie (09 CONVERT ENGINE). -/
def State.pickEngine (s : State) (allow : W64) : Option Eng :=
  let es := (maskEngines allow).filter fun e => !s.isolated e
  es.foldl (fun b e =>
    match b with
    | none => some e
    | some x => if (s.slotsOf e).length < (s.slotsOf x).length then some e else some x) none

/-- The engine of a SCALE command (R282). -/
def State.scaleEngine (s : State) (allow : W64) (q : Part) : Option Eng :=
  (enginesOf q).find? fun e => allow.getLsbD e.val && !s.isolated e

/-- The engines a command uses, as it stands at step 5 (R211, R213, R257, R282, R344). -/
def State.enginesUsed (s : State) (c : Cmd) : List Eng :=
  let allow := (s.ctx c.ctx).engineAllow
  match c.op with
  | 0x01 => usedEngines (c.mm 0).units c.mask
  | 0x02 => (List.finRange 64).filter fun e => (List.range c.nStages).any fun i => (c.mm i).mask.getLsbD e.val
  | 0x03 => usedEngines c.rowUnits c.mask
  | 0x06 => usedEngines c.rowUnits c.mask
  | 0x08 => if c.f 50 1 = 1 then [] else usedEngines c.rowUnits c.mask
  | 0x04 => if h : c.f 53 1 < 64 then [⟨c.f 53 1, h⟩] else (s.pickEngine allow).toList
  | 0x05 => if h : c.f 50 1 < 64 then [⟨c.f 50 1, h⟩] else (s.pickEngine allow).toList
  | 0x07 => if h : c.f 50 1 < 64 then [⟨c.f 50 1, h⟩] else (s.pickEngine allow).toList
  | 0x09 => if h : c.f 51 1 < 8 then (s.scaleEngine allow ⟨c.f 51 1, h⟩).toList else []
  | 0x0A => maskEngines c.mask
  | 0x0D => lowestPerPart allow
  | 0x0E => lowestPerPart allow
  | _ => []

/-- The lowest-numbered engine a command names (R194 PRED_SKIPPED). -/
def State.namedEngine (s : State) (c : Cmd) : Option Eng :=
  match c.op with
  | 0x02 =>
    (List.finRange 64).find? fun e => (List.range c.nStages).any fun i => (c.mm i).mask.getLsbD e.val
  | 0x01 => (maskEngines c.mask).head?
  | 0x03 => (maskEngines c.mask).head?
  | 0x06 => (maskEngines c.mask).head?
  | 0x08 => (maskEngines c.mask).head?
  | _ => (s.enginesUsed c).head?

end Sys2Proof.Machine
end

