-- ==== Sys2Proof/Machine/Checks.lean ====
section
/-!
DEFINITION. The checks of step 2: header, bodies, fetched records, privileges, isolation, semaphores
(09 R208 to R214, R217, R428; 07 R135, R141, R152, R161; 08 R166 to R168, R178, R182; 11 R261 to R277; 12 R305, R316).
-/

namespace Sys2Proof.Machine

/-! ### Header and reserved bytes -/

/-- The body bytes an opcode's table lists (09 opcode bodies): offset and length. -/
def bodyFields (op uop : Nat) : List (Nat × Nat) :=
  match op with
  | 0x01 => [(50, 4), (56, 72)]
  | 0x02 => [(50, 1), (56, 8)]
  | 0x03 => [(56, 48), (104, 1)]
  | 0x04 => [(50, 54)]
  | 0x05 => [(50, 1), (56, 24)]
  | 0x06 => [(50, 10), (64, 40)]
  | 0x07 => [(50, 26), (80, 24)]
  | 0x08 => if uop = 1 then [(50, 2), (52, 2), (56, 64)] else [(50, 4), (56, 56)]
  | 0x09 => [(50, 14)]
  | 0x0A => [(50, 5), (56, 48)]
  | 0x0C => [(50, 1), (52, 2), (56, 16)]
  | 0x0D => [(50, 1), (56, 20), (80, 8)]
  | 0x0E => [(50, 1), (56, 20), (80, 8)]
  | 0x0F => [(50, 3), (56, 16)]
  | _ => []

/-- Every body byte outside the listed fields is zero (R4). -/
def reservedOk (d : List Byte) (fs : List (Nat × Nat)) : Bool :=
  (d.zipIdx).all fun b => decide (b.2 < 50) || fs.any (fun f => decide (f.1 ≤ b.2 ∧ b.2 < f.1 + f.2)) || b.1 == 0

/-- Opcodes that use STEP, and SID (R208), and that may carry a predicate (R178). -/
def usesStep (op : Nat) : Bool := [1, 2, 4, 5, 8, 9, 0x0A, 0x0D].contains op
def usesSid (op : Nat) : Bool := [1, 2, 4, 5, 8, 0x0A].contains op
def mayPredicate (op : Nat) : Bool := [1, 2, 3, 4, 5, 6, 7, 8, 9].contains op

/-- An address field of 52 bits (R209 bodies, R398). -/
def addr52 (a : Nat) : Bool := decide (a < 2 ^ 52)

/-- The header keeps R208, R178, R217's field rules and R223's rule for CANCEL. -/
def headerOk (c : Cmd) : Bool :=
  decide (c.op ≤ 0x0F) && bitsOf (c.f 1 1) 7 4 == 0 && bitsOf (c.f 2 1) 7 6 == 0 && c.sigOp != 3
    && (c.waitEn || c.f 4 2 == 0) && (c.sigOp != 0 || c.f 6 2 == 0)
    && (c.op == 0x01 || c.f 3 1 == 0) && (c.op != 0x0C || c.f 8 8 == 0) && (usesStep c.op || c.f 44 4 == 0) && (usesSid c.op || c.f 48 2 == 0)
    && (if c.predOp = 0 then c.f 24 8 == 0 && c.f 32 8 == 0
        else c.predOp != 7 && mayPredicate c.op && addr52 (c.f 24 8) && c.f 24 8 % 8 == 0)
    && reservedOk c.desc (bodyFields c.op (c.f 50 1))

/-! ### MATMUL and FUSED stages -/

/-- A dimension from 1 to 2^24. -/
def dim24 (n : Nat) : Bool := decide (1 ≤ n ∧ n ≤ 2 ^ 24)

/-- A stride is 0, or a multiple of 16 that is at least the row length (R210). -/
def strideOk (stride len : Nat) : Bool := stride == 0 || (stride % 16 == 0 && decide (len ≤ stride))

/-- SCALE_ID names an entry or none (R277). -/
def scaleIdOk (i : Nat) : Bool := i == 0xFFFF || decide (i < 8192)

/-- The extension record, the epilogue record and the function table of a stage have been read, or are named by none: what only one that has
not been read decides is no breach yet (R215, R428). -/
def StageCopy.hasExt (g : StageCopy) (x : MM) : Bool := x.extAddr == 0 || g.ext.length == 64
def StageCopy.hasEpi (g : StageCopy) (x : MM) : Bool := x.epiAddr == 0 || g.epi.length == 80
def StageCopy.hasTable (g : StageCopy) (x : MM) : Bool := g.hasEpi x && (!Epi.hasFunc x.epi || g.func.length == 1040)

/-- The rules of R168, R190 and R210 to R212 that a stage's descriptor decides by itself. -/
def MM.bodyRules (x : MM) (d : List Byte) : Bool :=
  dim24 x.m && dim24 x.k && decide (1 ≤ x.prec ∧ x.prec ≤ 9) && decide (1 ≤ x.group ∧ x.group ≤ 3) && x.mode != 3
    && bitsOf x.acc 7 5 == 0 && x.accSel != 3 && bitsOf x.mflags 7 6 == 0 && x.sparse != 3 && x.mask != 0
    && (x.sparse == 0 || (x.lda == 0 && x.prec != 4 && x.prec != 5 && x.extAddr != 0))
    && (if x.prec = 5 then x.serialW / 16 != 0 else x.serialW == 0)
    && (if x.accSel = 0 then !x.continues && !x.holds && !x.joins else x.ksplit == 0)
    && (if x.epiAddr = 0 then decide (x.outFmt ≤ 6) && x.outFmt != 2 && x.outFmt != 6 else x.outFmt == 0)
    && strideOk x.lda (MM.rowLen x.fmtA x.k) && strideOk x.ldb (MM.rowLen x.fmtB x.k)
    && x.a % 16 == 0 && x.b % 16 == 0 && x.c % 16 == 0 && x.extAddr % 8 == 0
    && [x.a, x.b, x.c, x.epiAddr, x.extAddr].all addr52
    && reservedOk d (bodyFields 0x01 0)

/-- The rules that a stage's extension record decides with its descriptor (R166 to R168, R190, R191, R210, R212). -/
def MM.extRules (x : MM) (ext : List Byte) : Bool :=
  (x.gather != 0 || dim24 x.n) && (x.accSel == 0 || x.gather != 0 || x.q == x.nEng)
    && (x.gather != 0 || (!x.gatherWeight && !x.scatter))
    && (x.aScale == 0 || x.prec == 2) && (x.bScale == 0 || x.prec == 2 || x.prec == 4)
    && (if x.sparse = 0 then x.maskAddr == 0 else x.maskAddr != 0 && x.maskAddr % 2 == 0)
    && [x.aScale, x.bScale, x.maskAddr, x.tileMap, x.gather, x.countAddr].all addr52
    && allZero (slice ext 57 7) && ((x.countAddr != 0) == (x.gather != 0))
    && (if x.gather = 0 then x.denseN == 0 else decide (1 ≤ x.denseN))
    && (if x.scatter then dim24 x.t && decide (1 ≤ x.kSel ∧ x.kSel ≤ 16) else x.t == 0 && x.kSel == 0)

/-- The rules that a stage's epilogue record decides with its descriptor (R135, R136, R191, R277). -/
def MM.epiRules (x : MM) (epi : List Byte) (inner : Bool) : Bool :=
  (x.epiAddr == 0 || (epiOk epi && scaleIdOk x.epi.scaleId))
    && !(x.gatherWeight && Epi.hasScaleVec x.epi) && (x.c != 0 || inner || Epi.noOut x.epi)

/-- The rules of R210 to R212, R136, R166 to R168 and R190 that a stage's descriptor and the records of it that have been read decide. The
general bound of R48 on a scattered output is not judged: the rule names VECTOR and CONVERT as those that reach it (DESIGN CHOICE, log entry
21). -/
def MM.ok (x : MM) (g : StageCopy) (inner : Bool) : Bool :=
  x.bodyRules g.body && (!g.hasExt x || x.extRules g.ext) && (!g.hasEpi x || x.epiRules g.epi inner)
    && (!g.hasTable x || !Epi.hasFunc x.epi || funcOk g.func)
    && (!(g.hasExt x && g.hasEpi x)
      || (if x.gather != 0 && !x.scatter then x.ldc % 16 == 0 else strideOk x.ldc (MM.rowLen x.fmtC x.outCols)))

/-- The chain rules of R213 and R245 between stage `y` and the stage `x` before it. -/
def chainOk (x y : MM) : Bool :=
  y.b == 0 && y.gather == 0 && y.countAddr == 0 && y.denseN == 0 && !y.gatherWeight && !y.scatter
    && y.k == x.m && (x.gather != 0 || y.n == x.n) && decide (x.fmtC = y.fmtB) && x.epi.outFmt != 2

/-- A FUSED stage on its own (R213). -/
def fusedStageOk (x : MM) : Bool := x.nEng == 1 && x.accSel == 0 && x.ksplit == 0

/-- The rules that a stage record decides by itself, before the records it names are fetched (R210, R212, R213). -/
def stageOwnOk (c : Cmd) (b : List Byte) : Bool :=
  let g : StageCopy := { body := stageBody b }
  let x := mmOf g c.prec c.group 0
  x.ok g true && fusedStageOk x && fld b 1 1 == 0

/-- Every stage follows on from the one before it. -/
def chainAll : List MM → Bool
  | x :: y :: r => chainOk x y && chainAll (y :: r)
  | _ => true

/-! ### The other bodies -/

/-- First byte and one past the last of `rows` rows of `len` bytes `stride` apart. -/
def span (a rows len stride : Nat) : Nat × Nat := (a, a + (rows - 1) * stride + len)

/-- Two spans share no byte. -/
def disjoint (x y : Nat × Nat) : Bool := decide (x.2 ≤ y.1 ∨ y.2 ≤ x.1)

/-- An ENGINE field names an engine or lets the module choose. -/
def engineFieldOk (e : Nat) : Bool := decide (e < 64) || e == 0xFF

/-- MOVE (R213). -/
def moveOk (c : Cmd) : Bool :=
  let fill := bitOf (c.f 104 1) 0
  decide (1 ≤ c.f 72 4) && dim24 (c.f 76 4) && decide (c.f 104 1 < 2) && c.f 96 8 != 0 && addr52 (c.f 64 8)
    && (fill || (addr52 (c.f 56 8) &&
      disjoint (span (c.f 56 8) (c.f 76 4) (c.f 72 4) (c.f 80 8)) (span (c.f 64 8) (c.f 76 4) (c.f 72 4) (c.f 88 8))))

/-- CONVERT (R213, R156, R44, R277). -/
def convertOk (c : Cmd) : Bool :=
  match fmtOfCode (c.f 50 1), fmtOfCode (c.f 51 1) with
  | some a, some b =>
    decide (c.f 52 1 ≤ 1) && engineFieldOk (c.f 53 1) && scaleIdOk (c.f 54 2)
      && !(c.f 52 1 == 1 && b.ieee.isSome)
      && (c.f 54 2 == 0xFFFF || (if c.f 51 1 = 1 then c.f 80 8 != 0 else c.f 80 8 == 0))
      && [c.f 56 8, c.f 64 8, c.f 72 8, c.f 80 8].all addr52
      && decide (c.f 88 4 * c.f 92 4 ≤ 2 ^ 48)
      && (c.f 96 4 == 0 || decide (MM.rowLen a (c.f 88 4) ≤ c.f 96 4))
      && (c.f 100 4 == 0 || decide (MM.rowLen b (c.f 88 4) ≤ c.f 100 4))
  | _, _ => false

/-- A binding record (R214). -/
structure Bind where
  addr : Nat
  rs : Nat
  cs : Nat
  scale : Nat
  fmt : Nat
  deriving DecidableEq, Repr

/-- Binding record `i` of the 192 bytes at BIND_ADDR. -/
def bindOf (b : List Byte) (i : Nat) : Bind :=
  let f := fld (slice b (32 * i) 32)
  ⟨f 0 8, f 8 4, f 12 4, f 16 8, f 24 1⟩

/-- Its format, when it is bound. -/
def Bind.fmt? (b : Bind) : Option Fmt := if b.addr = 0 then none else bindFmtOfCode b.fmt

/-- First byte and one past the last byte of element (r, c). -/
def Bind.bytes (b : Bind) (w r c : Nat) : Nat × Nat :=
  let o := (r * b.rs + c * b.cs) * w
  (b.addr + o / 8, b.addr + (o + w + 7) / 8)

/-- Two bindings share a byte that holds bits of an element of each (R152): spans first, elements when they meet. -/
def bindOverlap (rows cols : Nat) (x y : Bind) : Bool :=
  match x.fmt?, y.fmt? with
  | some fx, some fy =>
    let last (b : Bind) (w : Nat) := (b.bytes w (rows - 1) (cols - 1)).2
    if rows = 0 ∨ cols = 0 ∨ disjoint (x.addr, last x fx.bits) (y.addr, last y fy.bits) then false
    else (List.range rows).any fun r => (List.range cols).any fun c =>
      (List.range rows).any fun r' => (List.range cols).any fun c' =>
        !disjoint (x.bytes fx.bits r c) (y.bytes fy.bits r' c')
  | _, _ => false

/-- Exactly in place: same address, strides and element width (R152). -/
def bindSame (x y : Bind) : Bool :=
  x.addr == y.addr && x.rs == y.rs && x.cs == y.cs && (x.fmt?.map Fmt.bits) == (y.fmt?.map Fmt.bits)

/-- The bindings of a VECTOR program (R214). -/
def vbindOf (b : List Byte) : VBind :=
  { ins := (List.range 4).map fun i => (bindOf b i).fmt?, outs := [4, 5].map fun i => (bindOf b i).fmt?
    scaled := [4, 5].map fun i => (bindOf b i).scale != 0, lds := true }

/-- VECTOR, with its program and binding records fetched (R152 to R154, R214). -/
def vectorOk (c : Cmd) : Bool :=
  let bs := (List.range 6).map (bindOf c.binds)
  let o0 := bindOf c.binds 4
  let o1 := bindOf c.binds 5
  engineFieldOk (c.f 50 1) && addr52 (c.f 56 8) && addr52 (c.f 64 8) && decide (c.f 72 4 * c.f 76 4 ≤ 2 ^ 48)
    && (List.range 6).all (fun i => allZero (slice c.binds (32 * i + 25) 7))
    && bs.all (fun b => b.addr == 0 || (addr52 b.addr && addr52 b.scale && decide (b.fmt ≤ 0xA)))
    && progOk (vbindOf c.binds) c.prog
    && [o0, o1].all (fun o => (List.range 4).all fun i =>
      let x := bindOf c.binds i
      bindSame o x || !bindOverlap (c.f 72 4) (c.f 76 4) o x)
    && !bindOverlap (c.f 72 4) (c.f 76 4) o0 o1

/-- SOLVE (R161). -/
def solveOk (c : Cmd) : Bool :=
  [8, 16, 32].contains (c.f 50 1) && decide (1 ≤ c.f 51 1 ∧ c.f 51 1 ≤ 64) && decide (1 ≤ c.f 52 2 ∧ c.f 52 2 ≤ 1024)
    && decide (c.f 54 2 < 0x4000) && decide (1 ≤ c.f 56 4 ∧ c.f 56 4 ≤ 65536) && c.f 64 8 != 0
    && [c.f 72 8, c.f 80 8, c.f 88 8, c.f 96 8].all addr52

/-- ROUTE (R182). -/
def routeOk (c : Cmd) : Bool :=
  let e := c.f 52 2
  engineFieldOk (c.f 50 1) && decide (1 ≤ c.f 51 1 ∧ c.f 51 1 ≤ 16 ∧ c.f 51 1 ≤ e) && decide (1 ≤ e ∧ e ≤ 4096)
    && decide (c.f 54 1 ≤ 1) && decide (c.f 55 1 < 4) && c.f 56 8 != 0 && addr52 (c.f 56 8)
    && decide (2 * e ≤ c.f 64 4) && c.f 64 4 % 2 == 0 && dim24 (c.f 68 4) && decide (c.f 72 4 ≤ 2 ^ 24)
    && [c.f 80 8, c.f 88 8, c.f 96 8].all fun a => a != 0 && a % 8 == 0 && addr52 a

/-- A parameter-group entry keeps the rules of R272 and R273; SET_STEP is not among them. -/
def groupEntryOk (b : List Byte) : Bool :=
  decide (fld b 20 1 < 8) && (if bitOf (fld b 20 1) 2 then decide (fld b 21 1 ≤ 15) else fld b 21 1 == 0)
    && fld b 22 2 == 0 && allZero (slice b 28 36)

/-- The bindings of an update program (R264, R265). -/
def updateBind (c : Cmd) : VBind :=
  { ins := [some .l16, some .l16, fmtOfCode (c.f 51 1), some .l16], outs := [some .l16, some .l16], scaled := [false, false], lds := false }

/-- UPDATE but for its program (R261 to R264, R272, R273). -/
def updateOwnOk (c : Cmd) : Bool :=
  decide (c.f 52 2 < 4096) && c.groupTable != 0 && decide (c.f 51 1 ≤ 4)
    && (if c.f 50 1 = 1 then groupEntryOk (slice c.desc 56 64) && fld c.desc 80 4 == 0
        else c.f 50 1 == 0 && dim24 (c.f 88 4) && dim24 (c.f 92 4) && c.f 96 8 != 0
          && [c.f 56 8, c.f 64 8, c.f 72 8].all (fun a => a != 0 && a % 16 == 0 && addr52 a) && addr52 (c.f 80 8)
          && strideOk (c.f 104 4) (4 * c.f 92 4)
          && strideOk (c.f 108 4) (MM.rowLen ((fmtOfCode (c.f 51 1)).getD .l16) (c.f 92 4)))

/-- UPDATE, with its program fetched (R265). -/
def updateOk (c : Cmd) : Bool := updateOwnOk c && (c.f 50 1 == 1 || progOk (updateBind c) c.prog)

/-- SCALE (R282). -/
def scaleOk (c : Cmd) : Bool :=
  decide (c.f 50 1 ≤ 2) && decide (c.f 51 1 < 8) && decide (1 ≤ c.f 54 2) && decide (c.f 52 2 + c.f 54 2 ≤ 1024)
    && (c.f 50 1 == 2 || c.f 56 8 % 32 == 0) && addr52 (c.f 56 8)

/-- COLLECTIVE's own fields (R305). -/
def collectiveOk (c : Cmd) : Bool :=
  let cop := c.f 50 1
  let fmt := c.f 51 1
  let sparse := cop == 8 || cop == 9
  decide (cop ≤ 9) && decide (fmt ≤ 5) && decide (c.f 54 1 < 2)
    && (if fmt = 0 then decide (cop ≤ 3) else if fmt = 5 then [4, 5, 8, 9].contains cop else true)
    && (c.f 54 1 == 0 || decide (cop ≤ 3)) && (sparse || (c.f 88 8 == 0 && c.f 96 8 == 0))
    && [c.f 56 8, c.f 64 8, c.f 88 8, c.f 96 8].all addr52 && c.f 80 8 != 0

/-- The exchange header of a sparse COLLECTIVE (R316). -/
def xhdrOk (b : List Byte) : Bool :=
  decide (1 ≤ fld b 0 4 ∧ fld b 0 4 ≤ 4096) && fld b 4 4 != 0 && fld b 8 4 != 0 && fld b 8 4 % 16 == 0
    && fld b 12 4 == 0

/-- CANCEL (R223). -/
def cancelOk (c : Cmd) : Bool :=
  decide (c.f 50 1 ≤ 2) && !c.waitEn && c.predOp == 0 && !c.afterPrior && decide (c.f 52 2 < 512)
    && (c.f 50 1 != 1 || decide ((c.f 60 4 + 2 ^ 32 - c.f 56 4) % 2 ^ 32 ≤ 65535))

/-- CHECKPOINT and RESTORE fields (09 body table). -/
def snapOk (c : Cmd) : Bool :=
  decide (c.f 50 1 ≤ 100) && addr52 (c.f 56 8) && addr52 (c.f 64 8)
    && (bitOf (c.f 72 4) 31 || decide (c.f 72 4 < 2 ^ 17))

/-- SELFTEST codes and masks (R363). -/
def selftestOk (c : Cmd) : Bool :=
  let t := c.f 50 2
  let m := c.f 52 1
  (if [1, 2, 3, 4, 0x10, 0x11, 0x20].contains t then m != 0 else if t = 0x30 ∨ t = 0x31 then m == 0 else false)
    && c.f 56 8 != 0 && c.f 56 8 % 64 == 0 && addr52 (c.f 56 8)

/-! ### Fetching records -/

/-- Why the records of a command cannot all be copied: one breaks its rules, or one cannot be read (R428). -/
inductive RecErr where
  | bad
  | at_ (x : XErr)
  deriving DecidableEq, Repr

/-- Fetching records: the copies made so far outlive a record that cannot be read yet. -/
abbrev Fetch := ExceptT RecErr (StateM Copies)

/-- A record of `n` bytes: the copy made before, or read now; each is read once (R428). -/
def State.copyRec (s : State) (c : CtxNo) (va n : Nat) : Fetch (List Byte) := do
  let got ← (get : StateM Copies Copies)
  match got.find? fun g => g.1 == va && g.2.1 == n with
  | some g => pure g.2.2
  | none =>
    match s.vread c va n with
    | .error x => throw (.at_ x)
    | .ok b =>
      (set (got ++ [(va, n, b)]) : StateM Copies Unit)
      pure b

/-- An epilogue record and the function table that it names (R135, R141). -/
def State.copyEpi (s : State) (c : CtxNo) (va : Nat) : Fetch (List Byte × List Byte) := do
  if va = 0 then pure ([], [])
  else
    let epi ← s.copyRec c va 80
    if !epiOk epi then throw .bad
    else
      let fa := (epiOf epi).funcAddr
      let func ← if fa = 0 then pure [] else s.copyRec c fa 1040
      pure (epi, func)

/-- The records that a MATMUL or a stage names, read in turn (R428). -/
def State.fetchStage (s : State) (c : CtxNo) (body : List Byte) : Fetch StageCopy := do
  let ext ← if fld body 120 8 = 0 then pure (List.replicate 64 0) else s.copyRec c (fld body 120 8) 64
  let e ← s.copyEpi c (fld body 112 8)
  pure { body := body, ext := ext, epi := e.1, func := e.2 }

/-- Stage records of a FUSED command, and what they name; a stage record that breaks a rule by itself names no record (R213). -/
def State.fetchStages (s : State) (c : Cmd) (va : Nat) : Nat → Fetch (List StageCopy)
  | 0 => pure []
  | n + 1 => do
    let b ← s.copyRec c.ctx va 80
    if !stageOwnOk c b then throw .bad
    else
      let g ← s.fetchStage c.ctx (stageBody b)
      let r ← s.fetchStages c (va + 80) n
      pure (g :: r)

/-- ACC as a tile number, END, EPI_ADDR of a tile record (R306). -/
def Cmd.tileAcc (b : List Byte) : Nat := fld b 0 1 - 1

/-- A tile record keeps R306. -/
def tileRecOk (b : List Byte) : Bool :=
  decide (1 ≤ fld b 0 1 ∧ fld b 0 1 ≤ 2 ∧ fld b 1 1 ≤ 1) && allZero (slice b 2 6) && addr52 (fld b 8 8) && allZero (slice b 16 16)

/-- A COLLECTIVE on tiles that drains its result through an epilogue (R306). -/
def Cmd.drainsTiles (c : Cmd) : Bool := c.op == 0x0A && c.f 51 1 == 0 && fld c.xhdr 1 1 == 0

/-- The tile record of a COLLECTIVE of CFMT 0, with the epilogue that its END 0 names (R135, R306). -/
def State.fetchTiles (s : State) (c : Cmd) : Fetch Cmd := do
  let b ← s.copyRec c.ctx (c.f 56 8) 32
  if !tileRecOk b then throw .bad
  else
    let epi := if fld b 1 1 = 0 then fld b 8 8 else 0
    let g ← s.fetchStage c.ctx (List.replicate 112 0 ++ toLe 8 epi ++ List.replicate 8 0)
    pure { c with xhdr := b, stages := [g] }

/-- The command with its records copied (R428). -/
def State.fetchGo (s : State) (c : Cmd) : Fetch Cmd :=
  match c.op with
  | 0x01 => do
    let g ← s.fetchStage c.ctx c.desc
    pure { c with stages := [g] }
  | 0x02 => do
    let gs ← s.fetchStages c (c.f 56 8) (min (c.f 50 1) 4)
    pure { c with stages := gs }
  | 0x05 => do
    let p ← s.copyRec c.ctx (c.f 56 8) 256
    let b ← s.copyRec c.ctx (c.f 64 8) 192
    pure { c with prog := p, binds := b }
  | 0x08 => do
    let p ← if c.f 50 1 = 1 then pure [] else s.copyRec c.ctx (c.f 56 8) 256
    pure { c with prog := p }
  | 0x0A =>
    if c.f 51 1 = 0 then s.fetchTiles c
    else do
      let x ← if c.f 50 1 = 8 ∨ c.f 50 1 = 9 then s.copyRec c.ctx (c.f 96 8) 16 else pure []
      pure { c with xhdr := x }
  | _ => pure c

/-- The command with its records copied, or why not and the copies made so far (R428). -/
def State.fetchRecords (s : State) (c : Cmd) : Except (RecErr × Copies) Cmd :=
  match (s.fetchGo c).run c.copies with
  | (.ok c', _) => .ok { c' with copies := [] }
  | (.error x, got) => .error (x, got)

/-- The addresses of the records that step 2 still has to read, as far as they are known: the first and the last byte of each (R428). -/
def State.recordsToRead (s : State) (c : Cmd) : List Nat :=
  let r := (s.fetchGo c).run c.copies
  (r.2.drop c.copies.length).flatMap (fun g => [g.1, g.1 + g.2.1 - 1]) ++ (match r.1 with
    | .error (.at_ x) => [x.va]
    | _ => [])

/-- What a record's address must keep before it is read: its alignment and 52 bits. -/
def recordAddrsOk (c : Cmd) : Bool :=
  match c.op with
  | 0x01 => addr52 (c.f 120 8) && c.f 120 8 % 8 == 0 && addr52 (c.f 112 8)
  | 0x02 => decide (2 ≤ c.f 50 1 ∧ c.f 50 1 ≤ 4) && addr52 (c.f 56 8) && c.f 56 8 % 8 == 0
  | 0x05 => addr52 (c.f 56 8) && addr52 (c.f 64 8)
  | 0x08 => addr52 (c.f 56 8) || c.f 50 1 == 1
  | 0x0A => addr52 (c.f 96 8)
  | _ => true

/-- The rules of a body that need no fetched record: BAD_DESCRIPTOR ranks ahead of a record that cannot be read (R215). -/
def bodyOwnOk (c : Cmd) : Bool :=
  match c.op with
  | 0x01 => (mmOf { body := c.desc } c.prec c.group 0).ok { body := c.desc } false
  | 0x05 => engineFieldOk (c.f 50 1) && decide (c.f 72 4 * c.f 76 4 ≤ 2 ^ 48)
  | 0x08 => updateOwnOk c
  | 0x0A => collectiveOk c
  | _ => true

/-- The body of a command with its records keeps the rules that give BAD_DESCRIPTOR. -/
def bodyOk (c : Cmd) : Bool :=
  match c.op with
  | 0x01 => (c.mm 0).ok (c.stages.getD 0 {}) false
  | 0x02 =>
    let xs := (List.range c.nStages).map c.mm
    (List.range c.nStages).all (fun i =>
      (c.mm i).ok (c.stages.getD i {}) (decide (i + 1 < c.f 50 1)) && fusedStageOk (c.mm i)) && chainAll xs
  | 0x03 => moveOk c
  | 0x04 => convertOk c
  | 0x05 => vectorOk c
  | 0x06 => solveOk c
  | 0x07 => routeOk c
  | 0x08 => updateOk c
  | 0x09 => scaleOk c
  | 0x0A =>
    let x := c.mm 0
    collectiveOk c && (!(c.f 50 1 == 8 || c.f 50 1 == 9) || xhdrOk c.xhdr)
      && (!c.drainsTiles || (scaleIdOk x.epi.scaleId
        && (!(c.stages.getD 0 {}).hasTable x || !Epi.hasFunc x.epi || funcOk x.func)))
  | 0x0B => c.waitEn || c.sigOp != 0
  | 0x0C => cancelOk c
  | 0x0D => snapOk c
  | 0x0E => snapOk c
  | 0x0F => selftestOk c
  | _ => true

/-! ### Semaphores, group records, privileges -/

/-- The semaphore indices are inside the region (R217). -/
def State.semOk (s : State) (c : Cmd) : Bool :=
  (!c.waitEn || s.semIndexOk c (c.f 4 2)) && (c.sigOp == 0 || s.semIndexOk c (c.f 6 2))

/-- The wait, signal and predicate words of a command, with whether each is written; no address is formed from an index outside
the region (R217). -/
def State.words (s : State) (c : Cmd) : List (Nat × Bool) :=
  (if c.waitEn && s.semIndexOk c (c.f 4 2) then [(s.semAddr c (c.f 4 2), false)] else [])
    ++ (if c.sigOp != 0 && s.semIndexOk c (c.f 6 2) then [(s.semAddr c (c.f 6 2), true)] else [])
    ++ (if c.predOp != 0 then [(c.f 24 8, false)] else [])

/-- Some word of the command lies in a HOST page (R217). -/
def State.wordHost (s : State) (c : Cmd) : Bool :=
  (s.words c).any fun x => match s.xlate c.ctx x.1 x.2 with
    | .host _ _ => true
    | .fault k => k == 3 || k == 4
    | .hbm _ => false

/-- The first word of the command that does not translate, with its KIND (R217). -/
def State.wordFault (s : State) (c : Cmd) : Option (Nat × Bool × Nat) :=
  (s.words c).findSome? fun x => match s.xlate c.ctx x.1 x.2 with
    | .fault k => if k = 1 ∨ k = 2 then some (x.1, x.2, k) else none
    | _ => none

/-- The group record of an engine for a group, in any slot (R308). -/
def State.groupOf (s : State) (e : Eng) (id : Nat) : Option (Nat × GroupRec) :=
  (s.eng e).groups.find? fun g => g.2.state != 0 && g.2.id == id

/-- A group record but for its counts (R305, R309). -/
def GroupRec.bare (g : GroupRec) : GroupRec := { g with seq := 0 }

/-- The membership map's entry of a node (R309). -/
def State.mapEntry (s : State) (c : CtxNo) (g : GroupRec) (node : Nat) : Nat :=
  match s.vread c (g.mapAddr + 8 * node) 8 with
  | .ok b => leNat b
  | .error _ => 0

/-- A contributor has departed from a record (R308, R309). -/
def GroupRec.departs (g : GroupRec) (node e : Nat) : Bool :=
  (g.deps.take g.ndep).any fun d => d % 2 ^ 17 == node && (bitOf d 23 || bitsOf d 22 17 == e)

/-- The live engines of a node (R309). -/
def State.liveOf (s : State) (g : GroupRec) (node : Nat) : List Nat :=
  let m := s.mapEntry g.ctx g node
  (List.range 64).filter fun e => bitOf m e && !g.departs node e

/-- The live member modules with their live engines, ascending (R309). -/
def State.members (s : State) (g : GroupRec) : List (Nat × List Nat) :=
  (List.range 131072).filterMap fun n => let es := s.liveOf g n; if es.isEmpty then none else some (n, es)

/-- Contributors of a list of members: engines with CFMT 0, modules otherwise (R309). -/
def contributors (cfmt : Nat) (ms : List (Nat × List Nat)) : Nat :=
  if cfmt = 0 then (ms.map fun m => m.2.length).sum else ms.length

/-- The group records of a collective's engines. -/
def State.collRecords (s : State) (c : Cmd) : List (Option (Nat × GroupRec)) :=
  (maskEngines c.mask).map fun e => s.groupOf e (c.f 52 2)

/-- R305's rules on the group records that give BAD_DESCRIPTOR. -/
def State.collOk (s : State) (c : Cmd) : Bool :=
  if c.op != 0x0A then true
  else
    let rs := s.collRecords c
    rs.all (·.isSome) &&
      (let gs := rs.filterMap id
       gs.all (fun g => g.2.bare == ((gs.headD (0, {})).2).bare)
        && (c.f 51 1 != 0 || (match gs.head? with
          | some g => s.mapEntry g.2.ctx g.2 s.peer.nodeId == c.mask.toNat
          | none => false)))

/-- SCALE_ID of a stage whose epilogue record has been read (R277, R428). -/
def Cmd.scaleOf (c : Cmd) (i : Nat) : Nat := if (c.stages.getD i {}).hasEpi (c.mm i) then (c.mm i).epi.scaleId else 0xFFFF

/-- Scale-table entries a command names (R277). -/
def Cmd.scaleIds (c : Cmd) : List Nat :=
  (match c.op with
    | 0x01 => [c.scaleOf 0]
    | 0x02 => (List.range c.nStages).map c.scaleOf
    | 0x04 => [c.f 54 2]
    | 0x0A => if c.drainsTiles then [c.scaleOf 0] else []
    | _ => []).filter (· != 0xFFFF)

/-- A partition holds an engine of a mask. -/
def partAllowed (allow : W64) (q : Part) : Bool := (enginesOf q).any fun e => allow.getLsbD e.val

/-- The engines a descriptor names by mask or by number. -/
def Cmd.named (c : Cmd) : W64 :=
  match c.op with
  | 0x02 => (List.range c.nStages).foldl (fun m i => m ||| (c.mm i).mask) 0
  | 0x04 => if c.f 53 1 < 64 then BitVec.ofNat 64 (2 ^ c.f 53 1) else 0
  | 0x05 => if c.f 50 1 < 64 then BitVec.ofNat 64 (2 ^ c.f 50 1) else 0
  | 0x07 => if c.f 50 1 < 64 then BitVec.ofNat 64 (2 ^ c.f 50 1) else 0
  | _ => c.mask

/-- The command is DENIED (R212, R209 bodies, R221, R277, R282, R305). -/
def State.denied (s : State) (c : Cmd) : Bool :=
  let x := s.ctx c.ctx
  (c.named &&& ~~~x.engineAllow) != 0
    || (c.op == 0x0F && !bitOf x.priv 0) || ((c.op == 0x0D || c.op == 0x0E) && !bitOf x.priv 1)
    || c.scaleIds.any (fun i => !(if h : i / 1024 < 8 then partAllowed x.engineAllow ⟨i / 1024, h⟩ else true))
    || (c.op == 0x09 && !(if h : c.f 51 1 < 8 then partAllowed x.engineAllow ⟨c.f 51 1, h⟩ else true))
    || (c.op == 0x0A && (s.collRecords c).any fun g => match g with | some r => r.2.ctx != c.ctx | none => false)

/-- The command names an isolated engine (R212). -/
def State.namesIsolated (s : State) (c : Cmd) : Bool := (maskEngines c.named).any s.isolated

/-- The contributors that a collective's group record holds as it passes its checks (R315), and whether the module reads SRC: with
CFMT 0 the tiles are the input, and a BROADCAST has the root's alone (R305, R306). -/
def State.withContributors (s : State) (c : Cmd) : Cmd :=
  match (s.collRecords c).head? with
  | some (some g) =>
    if c.op = 0x0A then
      let ms := s.members g.2
      { c with coll := { c.coll with
        atCheck := contributors (c.f 51 1) ms
        reads := c.f 51 1 != 0 && (c.f 50 1 != 4 || (ms.headD (0, [])).1 == s.peer.nodeId) } }
    else c
  | _ => c

/-- Where a command goes once its checks are passed (R215, R216). -/
def Cmd.passed (c : Cmd) : Cmd := { c with phase := if c.op = 0x0C then .running else .ordering }

/-- What a command inherits from its context at step 2 (R198). -/
def State.inherit (s : State) (c : Cmd) : Cmd :=
  let x := s.ctx c.ctx
  { c with prec := x.defPrec, group := x.defGroup, seed := x.seed, groupTable := x.groupTable, stepPage := x.stepPage }

/-- A command that its checks end; a word of its own in a HOST page, or one that does not translate, leaves it without its signal
(R217, R221). -/
def State.endChecks (s : State) (p : Port) (t : Tag) (c : Cmd) (st : Nat) : State :=
  (s.endCmd p t st).updCmd p t fun x => { x with noSignal := s.wordHost c || (s.wordFault c).isSome }

/-- The checks once the records are fetched: BAD_DESCRIPTOR, then DENIED, then DROPPED, then the untranslatable word of
R217, then a stale group record (R215, R217, R318) (DEDUCED, log entry 21). -/
def State.judge (s : State) (p : Port) (t : Tag) (c : Cmd) : State :=
  let s1 := s.updCmd p t fun _ => c
  if !bodyOk c || !s.semOk c || !s.collOk c || s.wordHost c then s1.endChecks p t c stBadDescriptor
  else if s.denied c then s1.endChecks p t c stDenied
  else if s.namesIsolated c then s1.endChecks p t c stDropped
  else
    match s.wordFault c with
    | some (va, w, k) => s1.badWord p t w va k
    | none =>
      if (s.collRecords c).any (fun g => c.op == 0x0A && (match g with | some r => r.2.state == 2 | none => false)) then
        s1.endCmd p t stFaultAbort
      else s1.updCmd p t fun c => (s.withContributors c).passed

/-- The copy of a record among those made so far; nothing where it has not been read. -/
def Copies.record (got : Copies) (va n : Nat) : List Byte := ((got.find? fun g => g.1 == va && g.2.1 == n).map (·.2.2)).getD []

/-- A stage with what has been read of its records. -/
def Copies.stage (got : Copies) (body : List Byte) : StageCopy :=
  let epi := got.record (fld body 112 8) 80
  { body := body, epi := epi
    ext := if fld body 120 8 = 0 then List.replicate 64 0 else got.record (fld body 120 8) 64
    func := if epi.isEmpty || (epiOf epi).funcAddr == 0 then [] else got.record (epiOf epi).funcAddr 1040 }

/-- A command with the records that have been read so far. -/
def Cmd.soFar (c : Cmd) (got : Copies) : Cmd :=
  match c.op with
  | 0x01 => { c with stages := [got.stage c.desc] }
  | 0x02 =>
    let bs := ((List.range (min (c.f 50 1) 4)).map fun i => got.record (c.f 56 8 + 80 * i) 80).takeWhile fun b => !b.isEmpty
    { c with stages := bs.map fun b => got.stage (stageBody b) }
  | 0x05 => { c with prog := got.record (c.f 56 8) 256 }
  | 0x0A =>
    let b := if c.f 51 1 = 0 then got.record (c.f 56 8) 32 else []
    if b.isEmpty then c
    else
      let epi := if fld b 1 1 = 0 then fld b 8 8 else 0
      { c with xhdr := b, stages := [got.stage (List.replicate 112 0 ++ toLe 8 epi ++ List.replicate 8 0)] }
  | _ => c

/-- The records read so far break no rule, whatever the others hold; a program read without its bindings breaks none that some bindings
would let it keep (R153, R215). -/
def Cmd.soFarOk (c : Cmd) : Bool :=
  match c.op with
  | 0x01 => bodyOk c
  | 0x02 => bodyOk c
  | 0x05 =>
    let any_ (f : Fmt) (sc : Bool) : VBind :=
      { ins := List.replicate 4 (some .l16), outs := [some f, some f], scaled := [sc, sc], lds := true }
    c.prog.isEmpty || progOk (any_ .l16 false) c.prog
  | 0x0A => c.stages.isEmpty || bodyOk c
  | _ => true

/-- A record that cannot be read (R428): what the descriptor and the records read so far decide ranks ahead of it (R215); a page that
is not present is asked for, and the copies made so far are kept; anything else ends the command with a fault record and no other
effect (DEDUCED, log entry 21). -/
def State.unread (s : State) (p : Port) (t : Tag) (c : Cmd) (x : XErr) (got : Copies) : State :=
  let known := c.soFar got
  if !known.soFarOk || !s.semOk c || !s.collOk c || s.wordHost c then s.endChecks p t c stBadDescriptor
  else if s.denied known then s.endChecks p t c stDenied
  else if s.namesIsolated known then s.endChecks p t c stDropped
  else if x.kind = 3 then
    (s.pageRequest (s.ctx c.ctx) x.va false (.fetch p t)).updCmd p t fun c => { c with phase := .priWait, copies := got }
  else s.badRecord p t false x.va x.kind true

/-- Step 2 of a fetched command (R215, R223, R428). -/
def State.checks (s : State) (p : Port) (t : Tag) : State :=
  let c := s.inherit (s.cmd p t)
  match c.status with
  | some st => s.endCmd p t st
  | none =>
    if !headerOk c || !recordAddrsOk c || !bodyOwnOk c then s.endChecks p t c stBadDescriptor
    else
      match s.fetchRecords c with
      | .ok c' => s.judge p t c'
      | .error (.bad, _) => s.endChecks p t c stBadDescriptor
      | .error (.at_ x, got) => s.unread p t c x got

/-- DESCRIPTOR_CHECKS (R215 step 2). -/
def execDescriptorChecks (p : Port) (t : Tag) (s : State) : Out :=
  .next (if (s.cmd p t).phase = .fetched then s.checks p t else s)

end Sys2Proof.Machine
end

