-- ==== Sys2Proof/Machine/Scales.lean ====
section
/-!
DEFINITION. The scale tracker and the SCALE command (11 R277 to R283; 07 R150).
-/

namespace Sys2Proof.Machine

/-- Step `t'` is later than step `t` (R279). -/
def laterStep (t' t : W32) : Bool := decide (1 ≤ (t' - t).toNat ∧ (t' - t).toNat ≤ 2 ^ 31 - 1)

/-- EST after a step closes (R280). -/
def ScaleEnt.newEst (en : ScaleEnt) : Option Int :=
  match en.stepMax, en.est with
  | none, e => e
  | some m, none => some m
  | some m, some e => some (e + asr ((m - e) * en.smooth) 8)

/-- SCALE after a step closes with estimate `e` (R280). -/
def ScaleEnt.newScale (en : ScaleEnt) (e : Int) : Int :=
  let b := ceilDivI (e + 256 - en.top) 256
  clampI (-128) 127 (
    if 0 < en.satStep then max b (en.scale + 2)
    else if en.scale < b then b
    else if b ≤ en.scale - 2 then en.scale - 1
    else en.scale)

/-- close() of R280. -/
def ScaleEnt.close (en : ScaleEnt) (t : W32) : ScaleEnt :=
  let e := en.newEst
  let en1 : ScaleEnt := match e with
    | none => en
    | some v => { en with
        est := e
        scale := en.newScale v
        raises := if 0 < en.satStep then satAdd 16 en.raises 1 else en.raises
        satFlag := decide (0 < en.satStep) }
  { en1 with step := t, stepMax := none, satStep := 0, reports := 0 }

/-- What every access does first: a later step closes the entry's step (R279). -/
def ScaleEnt.access (en : ScaleEnt) (t : W32) : ScaleEnt := if laterStep t en.step then en.close t else en

/-- A report folds in: its magnitude in 1/256 binade and its saturations (R279). -/
def ScaleEnt.report (en : ScaleEnt) (t : W32) (mag : Option Int) (sat : Nat) : ScaleEnt :=
  let en1 := en.access t
  { en1 with
    late := if laterStep en.step t then satAdd 16 en1.late 1 else en1.late
    stepMax := match mag, en1.stepMax with
      | none, m => m
      | some a, none => some a
      | some a, some b => some (max a b)
    satStep := (en1.satStep + sat) % 2 ^ 32
    satTotal := satAdd 32 en1.satTotal sat
    reports := (en1.reports + 1) % 2 ^ 32 }

/-- A log value as 16 bits, 0x8000 for none (R278). -/
def logImage (v : Option Int) : List Byte := toLe 2 (match v with | none => 0x8000 | some x => unsignedOf 16 x)

/-- A log value of 16 bits. -/
def logOf (v : Nat) : Option Int := if v = 0x8000 then none else some (signedOf 16 v)

/-- The 32-byte image of an entry (R278). -/
def ScaleEnt.image (en : ScaleEnt) : List Byte :=
  toLe 4 en.step.toNat ++ logImage en.est ++ logImage en.stepMax ++ toLe 1 (unsignedOf 8 en.scale) ++ toLe 1 en.mode ++
    toLe 2 (unsignedOf 16 en.top) ++ toLe 2 en.smooth ++ toLe 2 en.raises ++ toLe 4 en.satStep ++ toLe 4 en.satTotal ++
    toLe 4 en.reports ++ toLe 2 en.late ++ toLe 1 (b2n en.satFlag) ++ toLe 1 0

/-- The entry an image gives (R278, R282). -/
def scaleOfImage (b : List Byte) : ScaleEnt :=
  { step := BitVec.ofNat 32 (fld b 0 4), est := logOf (fld b 4 2), stepMax := logOf (fld b 6 2)
    scale := signedOf 8 (fld b 8 1), mode := fld b 9 1, top := signedOf 16 (fld b 10 2), smooth := fld b 12 2
    raises := fld b 14 2, satStep := fld b 16 4, satTotal := fld b 20 4, reports := fld b 24 4, late := fld b 28 2
    satFlag := bitOf (fld b 30 1) 0 }

/-- An image SCALE may write (R282). -/
def scaleImageOk (b : List Byte) : Bool :=
  decide (fld b 9 1 ≤ 1) && decide (1 ≤ fld b 12 2 ∧ fld b 12 2 ≤ 256) && decide (fld b 30 1 < 2) && fld b 31 1 == 0

/-- An entry of a partition's scale table. -/
def State.scaleEnt (s : State) (q : Part) (n : Nat) : ScaleEnt := Tab.get {} (s.part q).scale n

/-- Change an entry of a partition's scale table. -/
def State.updScale (s : State) (q : Part) (n : Nat) (f : ScaleEnt → ScaleEnt) : State :=
  s.updPart q fun a => { a with scale := Tab.upd {} a.scale n f }

/-- The partition and entry of a SCALE_ID (R277). -/
def scalePlace (id : Nat) : Part × Nat := (⟨id / 1024 % 8, Nat.mod_lt _ (by decide)⟩, id % 1024)

/-- A command reports to an entry, when it names one (R150, R279). -/
def State.scaleReport (s : State) (id : Nat) (step : Nat) (mag : Option Int) (sat : Nat) : State :=
  if id = 0xFFFF then s
  else s.updScale (scalePlace id).1 (scalePlace id).2 fun en => en.report (BitVec.ofNat 32 step) mag sat

/-- SCALE, MODE and TOP as a command reads them at step 5 (R281): the access may close the entry's step. -/
def State.scaleRead (s : State) (id : Nat) (step : Nat) : State × ScaleRead :=
  if id = 0xFFFF then (s, {})
  else
    let s1 := s.updScale (scalePlace id).1 (scalePlace id).2 fun en => en.access (BitVec.ofNat 32 step)
    let en := s1.scaleEnt (scalePlace id).1 (scalePlace id).2
    (s1, { scale := en.scale, mode := en.mode, top := en.top })

/-- SCALE_TRACKER_ACCESS (R279): a report, or an access without one, reaches an entry. -/
def execScaleTrackerAccess (q : Part) (n : ScaleNo) (step : W32) (report : Option (Option Int × Nat)) (s : State) :
    Out :=
  .next (match report with
    | some (mag, sat) => s.updScale q n.val fun en => en.report step mag sat
    | none => s.updScale q n.val fun en => en.access step)

/-- Change the COUNT entries from FIRST on, entry `i` of them by `f i`. -/
def State.updScales (s : State) (q : Part) (first : Nat) (f : Nat → ScaleEnt → ScaleEnt) : Nat → State
  | 0 => s
  | n + 1 => (s.updScales q first f n).updScale q (first + n) (f n)

/-- The images of COUNT entries from FIRST on. -/
def State.scaleImages (s : State) (q : Part) (first n : Nat) : List Byte :=
  (List.range n).flatMap fun i => (s.scaleEnt q (first + i)).image

/-- The work of a SCALE command (R282). -/
def State.scaleWork (s : State) (p : Port) (t : Tag) (c : Cmd) (q : Part) : Except XErr State :=
  let first := c.f 52 2
  let n := c.f 54 2
  let step := BitVec.ofNat 32 c.step
  match c.f 50 1 with
  | 0 => do
    let s1 := s.updScales q first (fun _ en => en.access step) n
    let s2 ← s1.vwrite c.ctx (c.f 56 8) (s1.scaleImages q first n)
    pure (s2.doneCmd p t)
  | 1 => do
    let b ← s.vread c.ctx (c.f 56 8) (32 * n)
    pure (
      if (List.range n).all fun i => scaleImageOk (slice b (32 * i) 32) then
        (s.updScales q first (fun i _ => scaleOfImage (slice b (32 * i) 32)) n).doneCmd p t
      else s.endCmd p t stBadDescriptor)
  | _ => pure ((s.updScales q first (fun _ _ => {}) n).doneCmd p t)

/-- A write waits for a marked page, which its CHECKPOINT reads next (R345). -/
def State.awaitPage (s : State) (page : Nat) : State :=
  if s.mem.awaited.contains page then s else { s with mem := { s.mem with awaited := s.mem.awaited ++ [page] } }

/-- The state a piece of work leaves: the state itself when an access must wait for its translation (R250), or for a marked page
(R345). -/
def State.orWait (s : State) (r : Except XErr State) : State :=
  match r with
  | .ok s' => s'
  | .error x => if x.kind = 0 then s.awaitPage x.page else s

/-- Nothing keeps the units of an engine from their work: no window and no pre-emption of its partition, no quiesce, no
fence and no reset (R334, R360, R361, R404). -/
def State.mayRun (s : State) (e : Eng) : Bool :=
  let a := s.part (partOf e)
  !a.window && !a.preempting && !s.dbg.quiesce.getLsbD e.val && !s.isolated e && !s.inReset e

end Sys2Proof.Machine
end

