-- ==== Sys2Proof/Machine/Segments.lean ====
section
/-!
DEFINITION. Where the operands of a command lie: elements of A, B and C, tile maps, gather lists, and the address ranges
each stream of a command covers, in the order the engine uses them (09 R210, R211, R214; 08 R167 to R171, R190, R191;
10 R229, R231, R243, R257).
-/

namespace Sys2Proof.Machine

/-! ### MATMUL operands -/

namespace MM

/-- Row tile, column tile and part of unit `u` (R211). -/
def unitI (x : MM) (u : Nat) : Nat := u / 2 ^ x.ksplit / x.nt
def unitC (x : MM) (u : Nat) : Nat := u / 2 ^ x.ksplit % x.nt
def unitJ (x : MM) (u : Nat) : Nat := u % 2 ^ x.ksplit

/-- Rows of row tile `i`, and columns of column tile `c`, that exist. -/
def rowsIn (x : MM) (i : Nat) : List Nat := (List.range (min 64 (x.m - 64 * i))).map (64 * i + ·)
def colsIn (x : MM) (c : Nat) : List Nat := (List.range (min 64 (x.n - 64 * c))).map (64 * c + ·)

/-- Reduction steps of 64 indices in part `j`: first and one past the last. -/
def stepLo (x : MM) (j : Nat) : Nat := x.groupLo j * x.g / 64
def stepHi (x : MM) (j : Nat) : Nat := ceilDiv (min x.k (x.groupHi j * x.g)) 64
def stepsIn (x : MM) (j : Nat) : List Nat := (List.range (x.stepHi j - x.stepLo j)).map (x.stepLo j + ·)

/-- Indices of reduction step `t`. -/
def stepLen (x : MM) (t : Nat) : Nat := min 64 (x.k - 64 * t)

/-- Slots of a compressed group (R167), and the groups of a row (R168). -/
def slotsC (x : MM) : Nat := if x.sparse = 1 then 8 else 4
def gk (x : MM) : Nat := ceilDiv x.k 16

/-- Bytes of an element of the compressed operand (R168). -/
def elemBytes (x : MM) : Nat := x.fmtA.bits / 8

/-- Address of the slots of compressed group `g` of row `r`, and of its mask (R168). -/
def slotsAt (x : MM) (r g : Nat) : Nat := x.a + (r * x.gk + g) * x.slotsC * x.elemBytes
def maskAt (x : MM) (r g : Nat) : Nat := x.maskAddr + 2 * (r * x.gk + g)

/-- Bit `i × KT + t` of the tile map (R171). -/
def mapBit (x : MM) (i t : Nat) : Nat := i * ceilDiv x.k 64 + t

/-- Index of a logical column of B in the tensor that holds it: TOKEN when gathered (R190). -/
def colOf (x : MM) (tok : Nat → Nat) (n : Nat) : Nat := if x.gather = 0 then n else tok n

end MM

/-- Bytes of a stage's tile map: one bit for each tile of A (R171). -/
def MM.mapBytes (x : MM) : Nat := ceilDiv (ceilDiv x.m 64 * ceilDiv x.k 64) 8

/-- Whether tile (i, t) of A is absent (R171), by the map as the stage's streams have read it; an error while they have not. -/
def MM.tileAbsent (x : MM) (i t : Nat) : Except XErr Bool :=
  if x.tileMap = 0 then .ok false
  else
    match x.map with
    | some b => .ok (!bitOf (fld b (x.mapBit i t / 8) 1) (x.mapBit i t % 8))
    | none => .error { kind := 1, va := x.tileMap }

/-- Memory as the units of an engine see it: the operand data that has landed in a command's slots, the latest first, before the address
space itself (R15, R228). -/
structure View where
  state : State
  landed : List (Nat × List Byte) := []
  deriving DecidableEq, Repr

/-- Memory as it stands, with no operand data in slots. -/
def State.view (s : State) : View := { state := s }

/-- A byte of operand data that has landed. -/
def View.byteAt (w : View) (a : Nat) : Option Byte :=
  (w.landed.find? fun h => decide (h.1 ≤ a ∧ a < h.1 + h.2.length)).map fun h => h.2.getD (a - h.1) 0

/-- Read `n` bytes at a device virtual address: bytes that have landed need no translation any more. -/
def View.vread (w : View) (c : CtxNo) (va n : Nat) : Except XErr (List Byte) :=
  if w.landed.isEmpty then w.state.vread c va n
  else
    let own := (List.range n).map fun i => w.byteAt (va + i)
    if own.all Option.isSome then .ok (own.map (·.getD 0))
    else
      match w.state.vread c va n with
      | .error e => .error e
      | .ok b => .ok ((b.zip own).map fun x => x.2.getD x.1)

/-- The memory that a slot's work sees: with the data in the slots of its command's streams on the engine. -/
def State.asLanded (s : State) (e : Eng) (v : Slot) : View :=
  { state := s
    landed := (List.finRange 16).flatMap fun i =>
      let x := s.strm e i
      if x.state = .idle ∨ x.port ≠ v.port ∨ x.tag ≠ v.tag then [] else (x.held.map (·.2)).reverse }

/-- Entry `n` of the gather list: TOKEN, RANK, WEIGHT (R187). -/
def View.gatherEntry (s : View) (ctx : CtxNo) (x : MM) (n : Nat) : Except XErr (Nat × Nat × Nat) :=
  match s.vread ctx (x.gather + 8 * n) 8 with
  | .ok b => .ok (fld b 0 4, fld b 4 1, fld b 6 2)
  | .error e => .error e

/-- Column of the output tensor that column `n` of the result goes to (R191). -/
def View.outCol (s : View) (ctx : CtxNo) (x : MM) (n : Nat) : Except XErr Nat :=
  if x.scatter then
    match s.gatherEntry ctx x n with
    | .ok (tok, rank, _) => .ok (tok * x.kSel + rank)
    | .error e => .error e
  else .ok n

/-! ### Address ranges of a MATMUL's streams -/

/-- Which stream of a MATMUL or stage it is. -/
inductive Role where
  | a | b | c | aScale | bScale | mask | gather | bias | scaleVec | rowstat | topk | sq | bscale
  deriving DecidableEq, Repr

/-- The roles, in the order of their codes. -/
def Role.all : List Role := [.a, .b, .c, .aScale, .bScale, .mask, .gather, .bias, .scaleVec, .rowstat, .topk, .sq, .bscale]

/-- A role writes. -/
def Role.writes (r : Role) : Bool := [Role.c, .rowstat, .topk, .sq, .bscale].contains r

/-- Whether a stage has the stream (R257); `handed` says that B arrives by hand-over. -/
def MM.has (x : MM) (r : Role) : Bool :=
  match r with
  | .a => true
  | .b => true
  | .c => !Epi.noOut x.epi
  | .aScale => x.aScale != 0
  | .bScale => x.bScale != 0
  | .mask => x.maskAddr != 0
  | .gather => x.gather != 0
  | .bias => x.epi.biasAddr != 0
  | .scaleVec => x.epi.scaleAddr != 0
  | .rowstat => x.epi.rowstatAddr != 0
  | .topk => x.epi.topkAddr != 0
  | .sq => x.epi.sqAddr != 0
  | .bscale => x.epi.bscaleAddr != 0

/-- First byte and bytes of elements `lo .. lo + n - 1` of a packed run of elements. -/
def elemSpan (base bits lo n : Nat) : Nat × Nat := (base + lo * bits / 8, ceilDiv (n * bits) 8)

/-- Runs of 16 indices in reduction step `t`: first index and number. A segment of a tensor operand holds one for all its rows or columns, as the
smallest slot does in every format (R229) (DEDUCED, log entry 24). -/
def MM.runsIn (x : MM) (t : Nat) : List (Nat × Nat) :=
  (List.range (ceilDiv (x.stepLen t) 16)).map fun u => (64 * t + 16 * u, min 16 (x.stepLen t - 16 * u))

/-- The segments of one unit (i, c, j) of a stage in one role, each a list of ranges, over some of its reduction steps; `abs t` says that tile (i, t)
of A is absent, `tok n` gives the TOKEN of column `n`, `oc n` its output column. -/
def MM.segs (x : MM) (r : Role) (i c j : Nat) (steps : List Nat) (abs : Nat → Bool) (tok oc : Nat → Nat) : List (List (Nat × Nat)) :=
  let rows := x.rowsIn i
  let cols := x.colsIn c
  let kept := steps.filter fun t => !abs t
  let ng (t : Nat) : Nat := ceilDiv (x.stepLen t) 16
  let sc (t : Nat) : Nat := ceilDiv (x.stepLen t) 32
  match r with
  | .a => kept.flatMap fun t => (x.runsIn t).map fun k => rows.map fun r =>
      if x.sparse = 0 then elemSpan (x.a + r * x.ldaB) x.fmtA.bits k.1 k.2
      else (x.slotsAt r (k.1 / 16), x.slotsC * x.elemBytes)
  | .b => steps.flatMap fun t => (x.runsIn t).map fun k => cols.map fun n =>
      elemSpan (x.b + x.colOf tok n * x.ldbB) x.fmtB.bits k.1 k.2
  | .c =>
    if j ≠ 0 then []
    else rows.map fun r =>
      if x.scatter then cols.map fun n => elemSpan (x.c + r * x.ldcB) x.fmtC.bits (oc n) 1
      else [elemSpan (x.c + r * x.ldcB) x.fmtC.bits (64 * c) cols.length]
  | .aScale => kept.map fun t => rows.map fun r => (x.aScale + r * ceilDiv x.k 32 + 2 * t, sc t)
  | .bScale => steps.map fun t => cols.map fun n =>
      (x.bScale + x.colOf tok n * ceilDiv x.k 32 + 2 * t, sc t)
  | .mask => kept.map fun t => rows.map fun r => (x.maskAt r (4 * t), 2 * ng t)
  | .gather => [[(x.gather + 8 * (64 * c), 8 * cols.length)]]
  | .bias => if j = 0 then [[(x.epi.biasAddr + 2 * (64 * c), 2 * cols.length)]] else []
  | .scaleVec => if j = 0 then [[(x.epi.scaleAddr + 2 * (64 * c), 2 * cols.length)]] else []
  | .rowstat => if j = 0 then [rows.map fun r => (x.epi.rowstatAddr + (r * x.nt + c) * 16, 16)] else []
  | .topk => if j = 0 then [rows.map fun r => (x.epi.topkAddr + (r * x.nt + c) * 72, 72)] else []
  | .sq => if j = 0 then [[(x.epi.sqAddr + (i * x.nt + c) * 256, 256)]] else []
  | .bscale =>
    if j = 0 then [rows.map fun r => (x.epi.bscaleAddr + r * ceilDiv x.n 32 + 2 * c, ceilDiv cols.length 32)] else []

/-- Sum of the bytes of ranges. -/
def segBytes (l : List (Nat × Nat)) : Nat := (l.map (·.2)).sum

/-- Whether a unit's block of an operand is the one the unit before it used (R231). -/
def MM.sameBlock (x : MM) (r : Role) (u v : Nat) : Bool :=
  match r with
  | .a => x.unitI u == x.unitI v && x.unitJ u == x.unitJ v
  | .b => x.unitC u == x.unitC v && x.unitJ u == x.unitJ v
  | _ => false

/-- Units of a FUSED stage in its own order, column tile by column tile (R243). -/
def MM.fusedUnits (x : MM) : List Nat := (List.range x.nt).flatMap fun c => (List.range x.mt).map fun i => i * x.nt + c

/-- A read of the memory the streams use that falls back on a default where it cannot be translated. -/
def orElse {α : Type} (d : α) (r : Except XErr α) : α := match r with | .ok v => v | .error _ => d

/-- Where a range lies that no device virtual address names: in a hand-over area (R244), or at a peer (R304). -/
def handBase : Nat := 2 ^ 60
def peerBase : Nat := 2 ^ 61

/-- A stage of a FUSED command that hands its output over to the next (R213, R244). -/
def Cmd.inner (c : Cmd) (st : Nat) : Bool := c.op == 0x02 && decide (st + 1 < c.nStages)

/-- Bytes that an output tile of a stage takes in its column block (R244). -/
def MM.handTile (x : MM) : Nat := 4096 * x.fmtC.bits / 8

/-- The segments of one unit of a stage in one role, over some of its reduction steps; a column block that is handed over lies in its
area, a quarter of an output tile to a segment, and C_ADDR of an inner stage has the output written to memory as well (R213, R229, R244). -/
def State.stageSegs (s : State) (c : Cmd) (st : Nat) (r : Role) (u : Nat) (steps : List Nat) : List (List (Nat × Nat)) :=
  let x := c.mm st
  let mem := x.segs r (x.unitI u) (x.unitC u) (x.unitJ u) steps (fun t => orElse false (x.tileAbsent (x.unitI u) t))
    (fun n => (orElse (0, 0, 0) (s.view.gatherEntry c.ctx x n)).1) (fun n => orElse 0 (s.view.outCol c.ctx x n))
  if c.op = 0x02 ∧ r = .b ∧ st ≠ 0 then
    let y := c.mm (st - 1)
    steps.flatMap fun t => (List.range 4).map fun q =>
      [(handBase + (x.unitC u * y.mt + t) * y.handTile + q * (y.handTile / 4), y.handTile / 4)]
  else if r = .c ∧ c.inner st then
    [(handBase + (x.unitC u * x.mt + x.unitI u) * x.handTile, x.handTile)] :: (if x.c = 0 ∨ Epi.noOut x.epi then [] else mem)
  else mem

/-- The segments of one unit in one role, and its bytes. -/
def State.unitSegs (s : State) (c : Cmd) (st : Nat) (r : Role) (u : Nat) : List (List (Nat × Nat)) :=
  s.stageSegs c st r u ((c.mm st).stepsIn ((c.mm st).unitJ u))
def State.unitBytes (s : State) (c : Cmd) (st : Nat) (r : Role) (u : Nat) : Nat := segBytes (s.unitSegs c st r u).flatten

/-- Unit `u` uses the block of a role that the unit `v` before it used, and the block is small enough to be kept (R231). -/
def State.keeps (s : State) (c : Cmd) (st : Nat) (r : Role) (v u : Nat) : Bool :=
  (c.mm st).sameBlock r v u && decide (s.unitBytes c st r u ≤ 2 ^ 20)

/-- The segments of a list of units from place `i` on: a block kept from the unit before is not fetched again, but for the places in `rf`
(R231, R259). -/
def State.unitsSegs (s : State) (c : Cmd) (st : Nat) (r : Role) (rf : List Nat) (prev : Option Nat) (i : Nat) :
    List Nat → List (List (Nat × Nat))
  | [] => []
  | u :: us =>
    let keep := match prev with
      | some v => s.keeps c st r v u && !rf.contains i
      | none => false
    (if keep then [] else s.unitSegs c st r u) ++ s.unitsSegs c st r rf (some u) (i + 1) us

/-- Units `lo` to `hi - 1`. -/
def unitRange (lo hi : Nat) : List Nat := (List.range (hi - lo)).map (lo + ·)

/-! ### The other opcodes -/

/-- Packed or given stride of a row of `n` elements (R210, R213, R262). -/
def strideOf (f : Fmt) (n stride : Nat) : Nat := if stride = 0 then MM.packed f n else stride

/-- `rows` ranges of `len` bytes, `stride` apart. -/
def rowSegs (base stride len : Nat) (rows : List Nat) : List (Nat × Nat) := rows.map fun r => (base + r * stride, len)

/-- Rows of the tensor that an engine works on: its units under R211, 64 rows to a unit for UPDATE (R261). -/
def Cmd.rowsOn (c : Cmd) (e : Eng) : List Nat :=
  let u := unitsOf c.rowUnits c.mask e
  match c.op with
  | 0x08 => unitRange (min (c.f 88 4) (64 * u.1)) (min (c.f 88 4) (64 * u.2))
  | _ => unitRange u.1 u.2

/-- The formats of CONVERT. -/
def Cmd.from (c : Cmd) : Fmt := (fmtOfCode (c.f 50 1)).getD .l16
def Cmd.to (c : Cmd) : Fmt := (fmtOfCode (c.f 51 1)).getD .l16

/-- Element format and bytes of a CFMT code (R305): 0 for partial totals. -/
def cfmtBytes (code : Nat) : Nat := match code with | 0 => 8 | 1 => 2 | 2 => 2 | 3 => 2 | 4 => 4 | _ => 1

/-- The ranges of row `r` of binding `b` (R214). -/
def Bind.rowSegs (b : Bind) (r cols : Nat) : List (Nat × Nat) :=
  let w := (b.fmt?.getD .l16).bits
  (List.range cols).map fun c => elemSpan b.addr w (r * b.rs + c * b.cs) 1

/-- An UPDATE whose group entry has rows with an all-zero gradient skipped (R193). -/
def Cmd.lazy_ (c : Cmd) : Bool := c.op == 0x08 && bitOf (fld c.entry 20 1) 0

/-- The gradient row of an UPDATE is all zero (R193). -/
def View.zeroGrad (w : View) (c : Cmd) (r : Nat) : Bool :=
  let gf := (fmtOfCode (c.f 51 1)).getD .l16
  let cols := c.f 92 4
  let base := c.f 72 8 + r * strideOf gf cols (c.f 108 4)
  match w.vread c.ctx base (MM.rowLen gf cols) with
  | .ok b => (List.range cols).all fun i => isZeroElem gf (bitsOf (leNat b) (i * gf.bits + gf.bits - 1) (i * gf.bits))
  | .error _ => false

/-- Outcomes of the test of R193 on an engine's rows, in order, as far as their gradients have landed. -/
def Cmd.testedOn (c : Cmd) (e : Eng) : List Bool := Tab.get [] c.tested e.val

/-! ### Snapshots -/

/-- Round up to 4 KiB. -/
def up4k (n : Nat) : Nat := roundUp n 4096

/-- Bytes of the sections of a snapshot, in order. -/
def snapSizes (tensors : List (Nat × Nat)) (tables : List (List Byte)) : List Nat :=
  tensors.map (·.2) ++ tables.map (·.length)

/-- A snapshot lies at a peer (R349). -/
def Cmd.atPeer (c : Cmd) : Bool := !bitOf (c.f 72 4) 31

/-- The digest-only form of R348. -/
def Cmd.digestOnly (c : Cmd) : Bool := c.f 64 8 == 0 && c.f 80 8 == 0 && bitOf (c.f 72 4) 31

/-- Sizes and offsets of the sections of a snapshot (R347). -/
def Cmd.secSizes (c : Cmd) : List Nat := snapSizes c.snap.tensors c.snap.tables
def secOffset (sizes : List Nat) (k : Nat) : Nat := 4096 + ((sizes.take k).map up4k).sum

/-- Where the image of a snapshot begins: at TARGET, here or at the peer. -/
def Cmd.imageAt (c : Cmd) : Nat := (if c.atPeer then peerBase else 0) + c.f 64 8

/-- Sections that a CHECKPOINT goes through: those of the image, or the tensors alone (R347, R348). -/
def Cmd.snapSecs (c : Cmd) : Nat := c.snap.tensors.length + if c.digestOnly then 0 else 3

/-- The engine that carries section `k` of a snapshot: the sections go round the command's engines, one in each partition, and the header
goes with the first (R344) (DESIGN CHOICE, log entry 34). -/
def Cmd.carrier (c : Cmd) (k : Nat) : Option Eng :=
  let es := maskEngines c.engines
  es[k % es.length]?
def Cmd.carries (c : Cmd) (e : Eng) (k : Nat) : Bool := c.carrier k == some e

/-- The parts of a list, one for each section from the first on, that an engine carries. -/
def Cmd.carried {α : Type} (c : Cmd) (e : Eng) (l : List α) : List α := (l.zipIdx.filter fun x => c.carries e x.2).map (·.1)

/-- Section entry `k` of a header: KIND, CRC, OFFSET, BYTES, SRC (R347). -/
def secEntry (h : List Byte) (k : Nat) : Nat × Nat × Nat × Nat × Nat :=
  let o := 64 + 32 * k
  (fld h o 1, fld h (o + 4) 4, fld h (o + 8) 8, fld h (o + 16) 8, fld h (o + 24) 8)

/-- The sections that the header of a RESTORE names, once it is read. -/
def Cmd.secsNamed (c : Cmd) : List (Nat × Nat × Nat × Nat × Nat) := (List.range (fld c.snap.header 6 2)).map (secEntry c.snap.header)

/-- The ranges of a RESTORE's streams on an engine: the header and the sections that the engine carries, and the tensors it writes (R350). -/
def Cmd.loadSegs (c : Cmd) (e : Eng) : List (Nat × Nat) :=
  (if c.carries e 0 then [(c.imageAt, 4096)] else []) ++ (c.carried e c.secsNamed).map fun x => (c.imageAt + x.2.2.1, x.2.2.2.1)
def Cmd.restoreSegs (c : Cmd) (e : Eng) : List (Nat × Nat) :=
  ((c.carried e c.secsNamed).filter fun x => x.1 == 1).map fun x => (x.2.2.2.2, x.2.2.2.1)

/-! ### The streams of a command -/

/-- The ranges of the streams of a command that works row by row, row by row: role code, whether it writes, ranges (R193, R213, R214,
R257, R262). -/
def Cmd.rowPlan (c : Cmd) (e : Eng) : List (Nat × Bool × List (List (Nat × Nat))) :=
  let rows := c.rowsOn e
  let each (base stride len : Nat) (l : List Nat) : List (List (Nat × Nat)) := (rowSegs base stride len l).map ([·])
  match c.op with
  | 0x03 =>
    (if bitOf (c.f 104 1) 0 then [] else [(0, false, each (c.f 56 8) (c.f 80 8) (c.f 72 4) rows)])
      ++ [(1, true, each (c.f 64 8) (c.f 88 8) (c.f 72 4) rows)]
  | 0x04 =>
    let rs := List.range (c.f 92 4)
    let nb := ceilDiv (c.f 88 4) 32
    [(0, false, each (c.f 56 8) (strideOf c.from (c.f 88 4) (c.f 96 4)) (MM.rowLen c.from (c.f 88 4)) rs),
      (1, true, each (c.f 64 8) (strideOf c.to (c.f 88 4) (c.f 100 4)) (MM.rowLen c.to (c.f 88 4)) rs)]
      ++ (if c.f 72 8 = 0 then [] else [(2, false, each (c.f 72 8) nb nb rs)])
      ++ (if c.f 80 8 = 0 then [] else [(3, c.f 54 2 != 0xFFFF, each (c.f 80 8) nb nb rs)])
  | 0x05 =>
    let rs := List.range (c.f 72 4)
    let nb := ceilDiv (c.f 76 4) 32
    ((List.range 6).filter fun i => (bindOf c.binds i).addr != 0).map (fun i =>
      (i, decide (4 ≤ i), rs.map fun r => (bindOf c.binds i).rowSegs r (c.f 76 4)))
    ++ ((List.range 4).filter fun i => (bindOf c.binds i).scale != 0).map fun i =>
      (6 + i, false, each (bindOf c.binds i).scale nb nb rs)
  | 0x06 =>
    let n := c.f 52 2
    let r := c.f 51 1
    -- the lower triangle of each A alone is read (R161)
    [(0, false, rows.map fun i => (List.range n).map fun y => (c.f 72 8 + 2 * n * n * i + 2 * n * y, 2 * (y + 1))), (1, false, each (c.f 80 8) (2 * n * r) (2 * n * r) rows),
      (2, true, each (c.f 88 8) (2 * n * r) (2 * n * r) rows), (3, true, each (c.f 96 8) 16 16 rows)]
  | 0x08 =>
    let cols := c.f 92 4
    let gf := (fmtOfCode (c.f 51 1)).getD .l16
    let st := rows.zipIdx.map fun (r, i) => if (c.testedOn e).getD i false then [] else rowSegs (c.f 64 8) (strideOf .raw32 cols (c.f 104 4)) (4 * cols) [r]
    [(0, false, st), (1, false, each (c.f 72 8) (strideOf gf cols (c.f 108 4)) (MM.rowLen gf cols) rows), (2, true, st),
      (3, false, rows.zipIdx.map fun r => if r.2 = 0 ∧ c.f 80 8 ≠ 0 then [(c.f 80 8, 2 * c.f 88 4)] else [])]
  | _ => []

/-- The segments of the stream of a stage in one role on an engine (R257). -/
def State.roleSegs (s : State) (c : Cmd) (e : Eng) (role : Nat) (rf : List Nat) : List (List (Nat × Nat)) :=
  let st := role / 16
  let us := if c.op = 0x02 then (c.mm st).fusedUnits else let u := unitsOf (c.mm st).units c.mask e; unitRange u.1 u.2
  s.unitsSegs c st (Role.all.getD (role % 16) .a) rf none 0 us

/-- Streams of a command on an engine: role code, whether it writes, and its ranges (R257). -/
def State.streamPlan (s : State) (c : Cmd) (e : Eng) : List (Nat × Bool × List (Nat × Nat)) :=
  match c.op with
  | 0x01 => (Role.all.zipIdx.filter fun r => (c.mm 0).has r.1).map fun r => (r.2, r.1.writes, (s.roleSegs c e r.2 []).flatten)
  | 0x02 =>
    ((List.range c.nStages).filter fun i => (c.mm i).mask.getLsbD e.val).flatMap fun i =>
      (Role.all.zipIdx.filter fun r => (c.mm i).has r.1 || (r.1 == .c && c.inner i)).map fun r =>
        (16 * i + r.2, r.1.writes, (s.roleSegs c e (16 * i + r.2) []).flatten)
  | 0x07 =>
    let t := c.f 68 4
    let ex := c.f 52 2
    let cap := if c.f 72 4 = 0 then t else c.f 72 4
    [(0, false, rowSegs (c.f 56 8) (c.f 64 4) (2 * ex) (List.range t)), (1, true, [(c.f 80 8, 8 * c.f 51 1 * t)]),
      (2, true, (c.granted.getD []).zipIdx.map fun n => (c.f 88 8 + 8 * n.2 * cap, 8 * n.1)), (3, true, [(c.f 96 8, 8 * ex)])]
  | 0x09 => [(0, c.f 50 1 == 0, if c.f 50 1 = 2 then [] else [(c.f 56 8, 32 * c.f 54 2)])]
  | 0x0A =>
    -- the lowest engine moves the data (DESIGN CHOICE, log entry 37); what is written to DST is known as it is written
    let mine := c.chosen == some e
    [(0, false, if mine && c.coll.reads then [(c.f 56 8, c.f 72 8 * cfmtBytes (c.f 51 1))] else []),
      (1, true, if mine then c.coll.wrote.map (·.2) else [])]
      ++ (if c.f 50 1 = 8 ∨ c.f 50 1 = 9 then [(2, false, if mine then [(c.f 88 8, 8 * fld c.xhdr 0 4 * fld c.xhdr 4 4)] else []),
          (3, false, if mine then [(c.f 96 8 + 16, 8 * fld c.xhdr 0 4)] else [])] else [])
  | 0x0D =>
    let sizes := c.secSizes
    [(0, false, c.carried e c.snap.tensors),
      (1, true, if c.digestOnly then [] else
        c.carried e (sizes.zipIdx.map fun z => (c.imageAt + secOffset sizes z.2, z.1)) ++ if c.carries e 0 then [(c.imageAt, 4096)] else [])]
  | 0x0E => [(0, false, c.loadSegs e), (1, true, c.restoreSegs e)]
  | _ => (c.rowPlan e).map fun r => (r.1, r.2.1, r.2.2.flatten)

/-- The ranges of the stream of a role code, with the places in `rf` fetched again. -/
def State.streamSegs (s : State) (c : Cmd) (e : Eng) (role : Nat) (rf : List Nat) : List (Nat × Nat) :=
  if (c.op = 0x01 ∨ c.op = 0x02) ∧ !rf.isEmpty then (s.roleSegs c e role rf).flatten
  else
    match (s.streamPlan c e).find? fun p => p.1 == role with
    | some p => p.2.2
    | none => []

/-! ### When a command's work may go on -/

/-- A command of an opcode stands at step 6 (R215). -/
def State.running (s : State) (p : Port) (t : Tag) (op : Nat) : Bool := (s.cmd p t).phase == .running && (s.cmd p t).op == op

/-- Requests in flight whose data, or acknowledgement, a stream will have: a peloton's member has them of its leader (R242). -/
def State.flying (s : State) (x : Strm) : List Req :=
  (if x.kind ≠ 3 then x.reqs
    else (maskEngines x.peloton).flatMap fun f => (List.finRange 16).flatMap fun j =>
      let y := s.strm f j
      if y.kind = 2 ∧ y.port = x.port ∧ y.tag = x.tag ∧ y.role = x.role then y.reqs else []).filter fun r => !r.melt && !r.reclaim

/-- How far a stream has come without a gap: every byte before has landed in its slots, or has been acknowledged, whatever the order in which
requests end (R229, R247). -/
def State.landedTo (s : State) (x : Strm) : Nat := (s.flying x).foldl (fun m r => min m r.off) x.position

/-- The read streams of a command on an engine hold, each for its role, the bytes that its work needs next (R247, R250): a halted
stream keeps nothing waiting that does not need it. -/
def State.inputsIn (s : State) (e : Eng) (p : Port) (t : Tag) (need : Nat → Nat) : Bool :=
  (List.finRange 16).all fun i =>
    let x := s.strm e i
    x.state == .idle || x.port != p || x.tag != t || !x.isRead || decide (min x.length (need x.role) ≤ s.landedTo x)

/-- The vector unit of an engine runs no other slot's command (R159). -/
def State.vectorFree (s : State) (e : Eng) (k : SlotNo) : Bool := (s.slotsOf e).all fun w => w.1 == k || !w.2.vec

/-- Opcodes whose work is the vector unit's (R159, R189). -/
def onVectorUnit (op : Nat) : Bool := [4, 5, 6, 7, 8].contains op

/-- A command in a slot may work on its engine: nothing holds the engine, and the vector unit is its own or free if it uses it. -/
def State.slotRuns (s : State) (e : Eng) (k : SlotNo) : Bool :=
  let v := s.slot e k
  s.mayRun e && !v.stopped && (!onVectorUnit v.opcode || s.vectorFree e k)

/-- Rows of a row-by-row command on an engine. -/
def Cmd.rowCount (c : Cmd) (e : Eng) : Nat :=
  match c.op with
  | 0x04 => c.f 92 4
  | 0x05 => c.f 72 4
  | _ => (c.rowsOn e).length

/-- The tensor's number of the slot's next row. -/
def Cmd.rowAt (c : Cmd) (e : Eng) (n : Nat) : Nat := if c.op = 0x04 ∨ c.op = 0x05 then n else (c.rowsOn e).getD n 0

/-- Bytes of a role up to and with row `n` of an engine's rows. -/
def Cmd.rowBytes (c : Cmd) (e : Eng) (n role : Nat) : Nat :=
  match (c.rowPlan e).find? fun r => r.1 == role with
  | some r => segBytes ((r.2.2.take (n + 1)).flatten)
  | none => 0

/-- A slot can do its next row: it has one, and the row's inputs are in. -/
def State.rowReady (s : State) (p : Port) (t : Tag) (x : Eng × SlotNo × Slot) : Bool :=
  let c := s.cmd p t
  decide (x.2.2.rows < c.rowCount x.1) && s.slotRuns x.1 x.2.1 && s.inputsIn x.1 p t (c.rowBytes x.1 x.2.2.rows)

/-- The slot that does the next row of a row-by-row command: its engines work side by side, and a step takes the lowest that can
(DEDUCED, log entry 25). -/
def State.rowSlot (s : State) (p : Port) (t : Tag) (op : Nat) : Option (Eng × SlotNo × Slot) :=
  if s.running p t op then (s.cmdSlots p t).find? (s.rowReady p t) else none

/-- The slot of a command that works as a whole on one engine, once all its inputs are in. -/
def State.wholeSlot (s : State) (p : Port) (t : Tag) (op : Nat) : Option (Eng × SlotNo × Slot) :=
  if s.running p t op then
    (s.cmdSlots p t).find? fun x => s.slotRuns x.1 x.2.1 && s.inputsIn x.1 p t fun _ => 2 ^ 64
  else none

/-- A row is done: its slot goes on to the next, and the command ends after the last row of its last engine. -/
def State.rowDone (s : State) (p : Port) (t : Tag) (e : Eng) (k : SlotNo) : State :=
  let c := s.cmd p t
  let s1 := s.updSlot e k fun v =>
    { v with
      rows := v.rows + 1, vec := onVectorUnit c.op
      unit := if c.op = 0x04 ∨ c.op = 0x05 then 0
        else (unitsOf c.rowUnits c.mask e).1 + (v.rows + 1) / (if c.op = 0x08 then 64 else 1) }
  if (s1.cmdSlots p t).all (fun x => decide (c.rowCount x.1 ≤ x.2.2.rows)) then s1.doneCmd p t else s1

/-- A command that works as a whole has begun on its slot's engine. -/
def State.beginOn (s : State) (e : Eng) (k : SlotNo) : State := s.updSlot e k fun v => { v with vec := onVectorUnit v.opcode }

/-- Active streams A of a command on an engine (R257). -/
def State.streamsA (s : State) (c : Cmd) (e : Eng) : Nat := (s.streamPlan c e).length

end Sys2Proof.Machine
end

