-- ==== Sys2Proof/Machine/Admission.lean ====
section
/-!
DEFINITION. Steps 4 and 5: the predicate, the count record of a gathered command, and admission with its working set,
streams and pelotons (08 R178 to R181, R190; 09 R215; 10 R238, R241, R245, R257 to R259; 11 R272 to R276, R281;
13 R344 to R346).
-/

namespace Sys2Proof.Machine

/-! ### Step 4 -/

/-- PRED_OP on the word W (R178). -/
def predTrue (op w v : Nat) : Bool :=
  match op with
  | 1 => w == v
  | 2 => w != v
  | 3 => decide (v ≤ w)
  | 4 => decide (w < v)
  | 5 => (BitVec.ofNat 64 w &&& BitVec.ofNat 64 v) != 0
  | 6 => (BitVec.ofNat 64 w &&& BitVec.ofNat 64 v) == 0
  | _ => true

/-- The rules that wait for the ACCEPTED count (R190, R210, R212, R213). -/
def Cmd.gatherOk (c : Cmd) : Bool :=
  let x := c.mm 0
  dim24 x.n && (x.accSel == 0 || x.q == x.nEng)
    && (x.scatter || strideOk x.ldc (MM.rowLen x.fmtC x.n))
    && (List.range c.nStages).all fun i => i == 0 || (c.mm i).n == x.n

/-- The count record of a gathered command, once the predicate is true (R190) (DEDUCED, log entry 22). -/
def State.readCount (s : State) (p : Port) (t : Tag) : State :=
  let c := s.cmd p t
  let x := c.mm 0
  if (c.op ≠ 0x01 ∧ c.op ≠ 0x02) ∨ x.gather = 0 then s.updCmd p t fun c => { c with phase := .admission }
  else
    match s.vread c.ctx x.countAddr 4 with
    | .error e =>
      if e.kind = 3 then (s.pageRequest (s.ctx c.ctx) e.va false (.step4 p t)).updCmd p t fun c => { c with phase := .priWait4 }
      else s.badRecord p t false e.va e.kind false
    | .ok b =>
      let c1 := { c with accepted := fld b 0 4 }
      let s1 := s.updCmd p t fun _ => c1
      if c1.accepted = 0 then s1.doneCmd p t
      else if c1.gatherOk then s1.updCmd p t fun c => { c with phase := .admission }
      else s1.endCmd p t stBadDescriptor

/-- A false predicate (R181, R194). -/
def State.predFalse (s : State) (p : Port) (t : Tag) : State :=
  let s1 := (s.updCmd p t fun c => { c with predSkipped := true }).doneCmd p t
  match s.namedEngine (s.cmd p t) with
  | some e => s1.bump e 0x870 1
  | none => s1

/-- PREDICATE_READ (R178 to R181, R190, R217). -/
def execPredicateRead (p : Port) (t : Tag) (s : State) : Out :=
  .next (
    let c := s.cmd p t
    if c.phase ≠ .predicate then s
    else if c.predOp = 0 then s.readCount p t
    else
      match s.xlate c.ctx (c.f 24 8) false with
      | .hbm pa =>
        if predTrue c.predOp (leNat (s.hbmRead pa 8)) (c.f 32 8) then s.readCount p t else s.predFalse p t
      | .host _ _ => s.badWord p t false (c.f 24 8) 2
      | .fault k => s.badWord p t false (c.f 24 8) (if k = 3 ∨ k = 4 then 2 else k))

/-! ### Working sets -/

/-- Minimum slot size of an engine in KiB (R232, R257). -/
def Engine.minKib (g : Engine) : Nat := 2 ^ (g.minLog2 - 10)

/-- Residency X of a MATMUL or stage, its table banks and its parked-tile reserve, in KiB (R257). -/
def MM.extraKib (x : MM) : Nat :=
  48 + (if x.prec = 5 then 128 else 0) + (if x.prec = 8 ∨ x.prec = 9 then 8 * x.g else 0)

/-- T, V and X of a command on an engine, in KiB (R257). -/
def Cmd.extraKib (c : Cmd) (e : Eng) : Nat :=
  match c.op with
  | 0x01 => (c.mm 0).extraKib
  | 0x02 => (((List.range c.nStages).filter fun i => (c.mm i).mask.getLsbD e.val).map fun i => (c.mm i).extraKib).sum
  | 0x06 => ceilDiv (2 * c.f 52 2 * c.f 52 2 + 4 * c.f 52 2 * c.f 51 1) 1024
  | 0x07 => 32
  | _ => 0

/-- The working set W of a command on an engine, in KiB (R257). -/
def State.workset (s : State) (c : Cmd) (e : Eng) : Nat := 2 * (s.eng e).minKib * s.streamsA c e + c.extraKib e

/-- Streams in use, and pool reserved, on an engine (R258). -/
def State.streamsUsed (s : State) (e : Eng) : Nat :=
  ((List.finRange 16).filter fun i => (s.strm e i).state != .idle).length
def State.reservedKib (s : State) (e : Eng) : Nat := ((s.slotsOf e).map fun v => v.2.workset).sum

/-- Hand-over bytes of a FUSED command in a partition: two column blocks for each later stage there (R244). -/
def Cmd.handover (c : Cmd) (q : Part) : Nat :=
  (((List.range c.nStages).filter fun i => 0 < i && (maskEngines (c.mm i).mask).any fun e => partOf e == q).map fun i =>
    2 * ((c.mm (i - 1)).mt * 4096 * (c.mm i).fmtB.bits / 8)).sum

/-- Hand-over bytes of the resident FUSED commands in a partition (R245). -/
def State.handoverUsed (s : State) (q : Part) : Nat :=
  ((s.cmds.filter fun x => x.2.2.op == 0x02 && !(s.cmdSlots x.1 x.2.1).isEmpty).map fun x => x.2.2.handover q).sum

/-- The command can never be admitted (R245, R258). -/
def State.tooLarge (s : State) (c : Cmd) (es : List Eng) : Bool :=
  es.any (fun e => decide (16 < s.streamsA c e ∨ 6032 < s.workset c e))
    || (c.op == 0x02 && (List.finRange 8).any fun q => decide (16 * 2 ^ 20 < c.handover q))

/-- Every engine has room for the command (R233, R245, R258). -/
def State.room (s : State) (c : Cmd) (es : List Eng) : Bool :=
  es.all (fun e => decide ((s.slotsOf e).length < 4) && decide (s.streamsUsed e + s.streamsA c e ≤ 16)
      && decide (s.reservedKib e + s.workset c e ≤ 6032) && (s.eng e).cfgPending.isNone)
    && (c.op != 0x02 || (List.finRange 8).all fun q => decide (s.handoverUsed q + c.handover q ≤ 16 * 2 ^ 20))

/-! ### Streams at admission -/

/-- ACLK cycles of a unit at full pace with no skipped work (R103, R108, R117, R176). -/
def MM.unitCycles (x : MM) (j : Nat) : Nat :=
  let cost : Nat := match x.prec with | 1 => 8 | 2 => 8 | 4 => 8 | 3 => 16 | _ => 32
  let cost := if x.sparse = 1 then cost / 2 else if x.sparse = 2 then cost / 4 else cost
  if x.prec = 5 then
    let planes := match x.fmtA with | .int _ w => w | _ => 1
    let slices := match x.fmtB with | .int _ w => ceilDiv w 4 | _ => 1
    ((x.stepsIn j).map fun t => ceilDiv (x.stepLen t) 16 * planes * slices).sum
  else x.passes * ((x.stepsIn j).map fun t => ceilDiv (cost * x.stepLen t) 64).sum

/-- Issue cycles of an instruction for a batch of 512 elements (R155). -/
def VInstr.issue (ins outs : List (Option Fmt)) (i : VInstr) : Nat :=
  let wide (l : List (Option Fmt)) (n : Nat) : Nat := match l.getD n none with | some f => if f.bits = 32 then 2 else 1 | _ => 1
  let isLog (c : Nat) : Bool := decide (c ≤ 1)
  match i.op with
  | 0x01 => wide ins (i.imm % 4)
  | 0x04 => wide outs (i.imm % 2)
  | 0x05 => 2
  | 0x08 => 2
  | 0x09 => 2
  | 0x12 => 5
  | 0x18 => if isLog (i.imm % 16) && isLog (i.imm / 16 % 16) then 1 else 2
  | _ => 1

/-- Issue cycles of a program per batch (R159). -/
def progIssue (bd : VBind) (img : List Byte) : Nat := ((progOf img).code.map (·.issue bd.ins bd.outs)).sum

/-- C of R238 for the commands of the vector unit on an engine: for an UPDATE that of its first unit there (R155, R159, R160, R165, R189). -/
def Cmd.vecCycles (c : Cmd) (e : Eng) : Nat :=
  match c.op with
  | 0x04 =>
    let n := c.f 88 4 * c.f 92 4
    if c.f 50 1 ≤ 1 ∧ c.f 51 1 ≤ 1 then ceilDiv n 512 else ceilDiv n 256
  | 0x05 => ceilDiv (c.f 72 4 * c.f 76 4) 512 * progIssue (vbindOf c.binds) c.prog
  | 0x06 =>
    let n := c.f 52 2
    ceilDiv (n ^ 3) 49152 + 112 * n + ceilDiv (n * n * c.f 51 1) 2048
  | 0x07 => ceilDiv (c.f 68 4 * c.f 52 2) 256 + 2 * ceilDiv (c.f 68 4 * c.f 51 1) 16 + 4 * c.f 52 2 + 64
  | _ => ceilDiv (((c.rowsOn e).take 64).length * c.f 92 4) 512 * progIssue (updateBind c) c.prog

/-- REG_DEST at reset (R236). -/
def regDestReset (d : Nat) : Nat :=
  if d < 6 then 0x01000800 else if d < 8 then 0x00400040 else if d = 8 then 0x010002A0 else 0x04000C00

/-- RATE of a bucket register, with 0 read as 1, and DEPTH in bytes, at least 4 KiB (R236). -/
def regRate (v : Nat) : Nat := max 1 (v % 2 ^ 16)
def regDepth (v : Nat) : Nat := 1024 * max 4 (v / 2 ^ 16)

/-- A destination's bucket register of a partition. -/
def Partition.dest (a : Partition) (d : Nat) : Nat := Tab.get (regDestReset d) a.regDest d

/-- Tokens for a request of `b` bytes to destination `d` in a partition's total bucket and in the destination's, and their spending (R236).
Buckets are kept in thirds of a byte. -/
def Partition.hasTokens (a : Partition) (d b : Nat) : Bool :=
  decide (Tab.get 0 a.spent 10 + 3 * b ≤ 3 * regDepth a.regTotal) && decide (Tab.get 0 a.spent d + 3 * b ≤ 3 * regDepth (a.dest d))
def Partition.take (a : Partition) (d b : Nat) : Partition :=
  { a with spent := Tab.upd 0 (Tab.upd 0 a.spent 10 fun v => v + 3 * b) d fun v => v + 3 * b }

/-- The destination queue of an address of a context, of a hand-over area, or of a peer (R240). -/
def State.queueOf (s : State) (ctx : CtxNo) (va : Nat) (w : Bool) : Nat :=
  if peerBase ≤ va then 8 else if handBase ≤ va then 9 else
  match s.xlate ctx va w with
  | .hbm pa => (pageStack pa).val
  | .host p _ => 6 + p.val
  | .fault _ => 0

/-- The nominal RATE of a stream (R238): `first` holds the bytes of the command's first unit on the engine. -/
def State.nominal (s : State) (c : Cmd) (e : Eng) (role queue first : Nat) : Nat :=
  let r := match c.op with
    | 0x01 => 2048 * first / (c.mm 0).unitCycles ((c.mm 0).unitJ (unitsOf (c.mm 0).units c.mask e).1)
    | 0x02 => 2048 * first / (c.mm (role / 16)).unitCycles 0
    | 0x04 => 2048 * first / c.vecCycles e
    | 0x05 => 2048 * first / c.vecCycles e
    | 0x06 => 2048 * first / c.vecCycles e
    | 0x07 => 2048 * first / c.vecCycles e
    | 0x08 => 2048 * first / c.vecCycles e
    | _ => regRate ((s.part (partOf e)).dest queue) * 8192 / 9
  max 1 r

/-- Bytes that the first unit of a command on an engine moves in a role (R238). -/
def State.firstBytes (s : State) (c : Cmd) (e : Eng) (role : Nat) (segs : List (Nat × Nat)) : Nat :=
  match c.op with
  | 0x01 => s.unitBytes c 0 (Role.all.getD role .a) (unitsOf (c.mm 0).units c.mask e).1
  | 0x02 => s.unitBytes c (role / 16) (Role.all.getD (role % 16) .a) 0
  | 0x08 => segBytes (segs.take 64)
  | 0x06 => segBytes (segs.take (if role = 0 then c.f 52 2 else 1))
  | 0x07 => if role = 2 then 8 * c.f 52 2 * (if c.f 72 4 = 0 then c.f 68 4 else c.f 72 4) else segBytes segs
  | _ => segBytes segs

/-- Whether two engines belong to one peloton class for A or B (R241). -/
def MM.sameClass (x : MM) (onB : Bool) (mask : W64) (e f : Eng) : Bool :=
  let u := unitsOf x.units mask e
  let v := unitsOf x.units mask f
  u.2 - u.1 == v.2 - v.1 && decide (u.1 < u.2) && (List.range (u.2 - u.1)).all fun k =>
    x.unitJ (u.1 + k) == x.unitJ (v.1 + k)
      && (if onB then x.unitC (u.1 + k) == x.unitC (v.1 + k) else x.unitI (u.1 + k) == x.unitI (v.1 + k))

/-- The peloton of an engine for a role of a MATMUL; 0 outside a peloton (R241). -/
def Cmd.peloton (c : Cmd) (e : Eng) (role : Nat) : W64 :=
  if c.op = 0x01 ∧ role ≤ 1 then
    let x := c.mm 0
    let es := (usedEngines x.units c.mask).filter fun f => x.sameClass (role == 1) c.mask e f
    if es.length < 2 then 0 else es.foldl (fun m f => m ||| engBit f) 0
  else 0

/-- The stream of a plan entry as admission sets it up (R228, R229, R238, R241). -/
def State.newStream (s : State) (p : Port) (t : Tag) (c : Cmd) (e : Eng) (k : SlotNo)
    (r : Nat × Bool × List (Nat × Nat)) : Strm :=
  let pel := c.peloton e r.1
  let readOver := c.op == 0x02 && r.1 % 16 == 1 && decide (16 ≤ r.1)
  let writeOver := r.1 % 16 == 2 && c.inner (r.1 / 16)
  let queue := match r.2.2.head? with | some g => s.queueOf c.ctx g.1 r.2.1 | none => 0
  { state := .issuing
    kind := if readOver then 4 else if writeOver then 5 else if r.2.1 then 1
      else if pel = 0 then 0 else if (maskEngines pel).head? = some e then 2 else 3
    queue := queue, task := k.val, port := p, tag := t, role := r.1
    cap := 2 * 2 ^ (s.eng e).minLog2, ckpt := c.op == 0x0D || c.op == 0x0E, length := segBytes r.2.2
    rate := s.nominal c e r.1 queue (s.firstBytes c e r.1 r.2.2), peloton := pel }

/-- Idle streams of an engine, lowest first. -/
def State.idleStreams (s : State) (e : Eng) : List StreamNo :=
  (List.finRange 16).filter fun i => (s.strm e i).state == .idle

/-- The lowest free task slot of an engine. -/
def State.freeSlot (s : State) (e : Eng) : Option SlotNo :=
  (List.finRange 4).find? fun k => (s.slot e k).state == .free

/-- The units an engine takes of a command (R211). -/
def Cmd.slotUnits (c : Cmd) (e : Eng) : Nat × Nat :=
  match c.op with
  | 0x01 => unitsOf (c.mm 0).units c.mask e
  | 0x03 => unitsOf c.rowUnits c.mask e
  | 0x06 => unitsOf c.rowUnits c.mask e
  | 0x08 => unitsOf c.rowUnits c.mask e
  | _ => (0, 0)

/-- Bytes of further slots that a stream holds, and that are being taken back (R232). -/
def Strm.furtherBytes (x : Strm) : Nat := (x.further.map (2 ^ ·)).sum
def Strm.returningBytes (x : Strm) : Nat := (x.returning.map (2 ^ ·.1)).sum

/-- KiB of the slot pool beyond the guaranteed slots of resident commands: further slots, those that are still to return, and the
slots that reads of commands gone hold till they land (R232, R254). -/
def State.furtherKib (s : State) (e : Eng) : Nat :=
  ((List.finRange 16).map fun i =>
    let x := s.strm e i
    if x.state = .idle then 0 else (x.furtherBytes + x.returningBytes) / 1024).sum
    + (s.eng e).minKib * ceilDiv (((s.eng e).orphans.map (·.2.bytes)).sum) (2 ^ (s.eng e).minLog2)

/-- A read stream loses the slots that hold its bytes from `lim` on: what has landed there is discarded at once, what is in
flight (`reqs`, its own or its peloton leader's) when it lands (R232). The stream, and the bytes discarded now. -/
def Strm.stepBack (x : Strm) (lim : Nat) (reqs : List Req) : Strm × Nat :=
  let far := reqs.filter fun r => decide (lim < r.off + r.bytes) && !r.melt && !r.reclaim
  let pos := far.foldl (fun m r => min m r.off) (min lim x.position)
  let gone := x.position - pos - (far.map (·.bytes)).sum
  ({ x with
      position := pos, landed := x.landed - gone
      held := (x.held.filter fun h => decide (h.1 < pos)).map fun h => (h.1, h.2.1, h.2.2.take (pos - h.1))
      reqs := x.reqs.map fun r => if far.contains r then { r with reclaim := true } else r }, gone)

/-- The streams that a stream's operand is delivered to: every member of its peloton, or itself (R242). -/
def State.pelotonOf (s : State) (e : Eng) (i : StreamNo) : List (Eng × StreamNo) :=
  let x := s.strm e i
  if x.peloton = 0 then [(e, i)]
  else (maskEngines x.peloton).filterMap fun f =>
    ((List.finRange 16).find? fun j =>
      let y := s.strm f j
      y.state != .idle && y.port == x.port && y.tag == x.tag && y.role == x.role).map fun j => (f, j)

/-- A stream with nothing left to move is COMPLETE; a peloton's member when the last of its bytes has been delivered. -/
def Strm.close (x : Strm) : Strm :=
  if x.reqs.isEmpty && (x.state == .melting || (x.state == .issuing && decide (x.length ≤ x.position)
      && (x.kind != 3 || decide (x.length ≤ x.landed)))) then { x with state := .complete }
  else x

/-- A slot that was taken back with reads in flight has returned once the last of the reads into it has landed (R232). -/
def State.returned (s : State) (e : Eng) (i : StreamNo) : State :=
  let fly := ((s.pelotonOf e i).flatMap fun y => (s.strm y.1 y.2).reqs).filter (·.reclaim)
  (s.pelotonOf e i).foldl (fun s y => s.updStrm y.1 y.2 fun z => z.return_ fly) s

/-- Operand data that lands in a slot: what the array, its epilogue and the vector unit use is kept as it stands now (R15, R228). -/
def Strm.takeIn (x : Strm) (r : Req) (data : List Byte) : Strm :=
  { x with landed := x.landed + r.bytes, held := if data.isEmpty then x.held else x.held ++ [(r.off, r.va, data)] }.close

/-- The stream of a command on an engine that serves a role. -/
def State.roleStrm (s : State) (e : Eng) (p : Port) (t : Tag) (role : Nat) : Strm :=
  (((List.finRange 16).map (s.strm e)).find? fun x => x.state != .idle && x.port == p && x.tag == t && x.role == role).getD {}

/-- The streams of a command on an engine take the lengths that their ranges have by now: those that what has been read, or worked out, has
settled (R171, R187, R193). -/
def State.refit (s : State) (e : Eng) (p : Port) (t : Tag) : State :=
  (List.finRange 16).foldl (fun s i =>
    let x := s.strm e i
    if x.state ≠ .idle ∧ x.port = p ∧ x.tag = t then
      let n := segBytes (s.streamSegs (s.cmd p t) e x.role x.refetch)
      s.updStrm e i fun z =>
        ({ z with length := n, state := if z.state = .complete ∧ z.position < n then .issuing else z.state } : Strm).close
    else s) s

/-- The gradient rows of an UPDATE that have landed whole on an engine are tested, and the streams of the state leave out those that are
skipped (R193). -/
def State.testRows (s : State) (p : Port) (t : Tag) (e : Eng) : State :=
  let c := s.cmd p t
  let old := c.testedOn e
  let in_ := s.landedTo (s.roleStrm e p t 1)
  let rows := ((c.rowsOn e).zipIdx.drop old.length).takeWhile fun r => decide (c.rowBytes e r.2 1 ≤ in_)
  let w := s.asLanded e { port := p, tag := t }
  if rows.isEmpty then s
  else (s.updCmd p t fun c => { c with tested := Tab.set c.tested e.val (old ++ rows.map fun r => w.zeroGrad c r.1) }).refit e p t

/-- The `n`-th request in flight of a stream is over (R232, R240, R242, R254): data is delivered to every member of a peloton, or discarded as
melt or as reclaimed; a write is acknowledged. -/
def State.landReq (s : State) (e : Eng) (i : StreamNo) (n : Nat) : State :=
  let x := s.strm e i
  match x.reqs[n]? with
  | none => s
  | some r =>
    let s1 := s.updStrm e i fun x => { x with reqs := x.reqs.eraseIdx n }
    if !x.isRead then s1.updStrm e i fun x => { x with landed := x.landed + r.bytes }.close
    else if r.melt then
      ((s1.bump e 0x8A8 r.bytes).updCmd x.port x.tag fun c => { c with melted := c.melted + r.bytes }).updStrm e i
        fun x => ({ x with meltBytes := x.meltBytes + r.bytes }.return_ x.reqs).close
    else if r.reclaim then ((s1.bump e 0x8B0 r.bytes).updStrm e i Strm.close).returned e i
    else
      let c := s.cmd x.port x.tag
      let data := if c.op ≤ 0x08 ∧ r.va < handBase then orElse [] (s.vread c.ctx r.va r.bytes) else []
      let s2 := (s1.pelotonOf e i).foldl (fun s y => s.updStrm y.1 y.2 fun z => z.takeIn r data) s1
      if c.lazy_ && x.role == 1 then s2.testRows x.port x.tag e else s2

/-- The `n`-th read still to land of a stream number whose command has gone lands: it is melt, and its credit and slot return (R254). -/
def State.landOrphan (s : State) (e : Eng) (i : StreamNo) (n : Nat) : State :=
  match ((s.eng e).orphans.filter (·.1 == i))[n]? with
  | none => s
  | some r => (s.updEng e fun g => { g with orphans := g.orphans.erase r }).bump e 0x8A8 r.2.bytes

/-- The largest free further slot of an engine, as log2 (R232). -/
def State.furtherSlot (s : State) (e : Eng) : Option Nat :=
  let g := s.eng e
  let free := 6032 - s.reservedKib e - s.furtherKib e
  ((List.range (g.maxLog2 + 1 - g.minLog2)).map fun i => g.maxLog2 - i).find? fun l => decide (2 ^ (l - 10) ≤ free)

/-- A stream takes a further slot (R232). -/
def State.takeFurther (s : State) (e : Eng) (i : StreamNo) : State :=
  match s.furtherSlot e with
  | some l => s.updStrm e i fun x => { x with further := x.further ++ [l] }
  | none => s

/-- Further slots that hold nothing any more return: those without which `n` bytes still fit (R232) (DEDUCED, log entry 24). -/
def Strm.trim (x : Strm) (n : Nat) : Strm :=
  { x with further := (x.further.foldl (fun (a : List Nat × Nat) l =>
      if n ≤ a.2 then a else (a.1 ++ [l], a.2 + 2 ^ l)) ([], x.cap)).1 }

/-- The further slots of a stream are taken back: each at once, or when the reads in flight into it have landed; those of a write stream stay till
the results in them are written (R232) (DEDUCED, log entry 24). -/
def State.reclaim (s : State) (e : Eng) (i : StreamNo) : State :=
  let x := s.strm e i
  if x.state = .idle ∨ x.further.isEmpty ∨ !x.isRead then s
  else
    let reqs := (s.pelotonOf e i).flatMap fun y => (s.strm y.1 y.2).reqs
    let s1 := (s.pelotonOf e i).foldl (fun s y =>
      let r := (s.strm y.1 y.2).stepBack (x.consumed + x.cap) reqs
      (s.updStrm y.1 y.2 fun _ => r.1).bump y.1 0x8B0 r.2) s
    let fly := ((s1.pelotonOf e i).flatMap fun y => (s1.strm y.1 y.2).reqs).filter (·.reclaim)
    s1.updStrm e i fun x => x.giveUp fly

/-- Take back further slots, the lowest stream's first, until a working set fits into the pool (R232, R258) (DEDUCED, log entry 24). -/
def State.makeRoom (s : State) (e : Eng) (kib : Nat) : State :=
  (List.finRange 16).foldl (fun s i =>
    if s.reservedKib e + kib + s.furtherKib e ≤ 6032 then s else s.reclaim e i) s

/-- Give a command its task slot, working set and streams on one engine (R228, R258). -/
def State.takeSlot (s : State) (p : Port) (t : Tag) (c : Cmd) (e : Eng) : State :=
  match s.freeSlot e with
  | none => s
  | some k =>
    let plan := s.streamPlan c e
    let ids := (s.idleStreams e).take plan.length
    let u := c.slotUnits e
    let s1 := (plan.zip ids).foldl (fun s x => s.updStrm e x.2 fun _ => s.newStream p t c e k x.1)
      (s.makeRoom e (s.workset c e))
    s1.updEng e fun g =>
      { g with
        admitCount := g.admitCount + 1
        slots := Tab.set g.slots k.val
          { state := .admitted, port := p, tag := t, ctx := c.ctx, opcode := c.op
            streams := ids.foldl (fun m i => m + 2 ^ i.val) 0, workset := s.workset c e
            unit := u.1, lastUnit := u.2, admitSeq := g.admitCount } }

/-! ### What step 5 reads and copies -/

/-- What reading at step 5 gives: the command with it, a status that ends it, a fault of a record-like access, or a page
to wait for. -/
inductive Step5 where
  | go (c : Cmd)
  | stop (st : Nat)
  | fault (kind va : Nat) (w : Bool)
  | page (c : Cmd) (va : Nat)
  deriving DecidableEq, Repr

/-- An access of step 5 that cannot be translated (R272, R429's form for host pages); the command keeps what it has read meanwhile. -/
def step5Err (c : Cmd) (e : XErr) (w : Bool) : Step5 := if e.kind = 3 then .page c e.va else .fault e.kind e.va w

/-- A finite positive L16 code. -/
def l16Pos (v : Nat) : Bool := match decodeL16 v with | .code neg _ => !neg | _ => false

/-- Some byte of the statistics area of a factored UPDATE lies on a HOST page, whatever ATS reports of it (R268). -/
def State.statOutside (s : State) (c : Cmd) : Bool :=
  let m := c.f 88 4
  let n := c.f 92 4
  let a := c.f 80 8
  let len := 64 * ceilDiv (2 * m) 64 + 64 * ceilDiv (2 * n) 64 + ceilDiv m 64 * ceilDiv n 64 * 256
  len != 0 && (List.range ((a + len - 1) / 65536 + 1 - a / 65536)).any fun k =>
    match s.xlate c.ctx (max a (65536 * (a / 65536 + k))) false with | .host _ _ => true | .fault k => k == 3 || k == 4 | .hbm _ => false

/-- The hot slot of an UPDATE whose entry has been read (R275, R276). -/
def State.hotEntry (s : State) (c : Cmd) : Step5 :=
  if !bitOf (fld c.entry 20 1) 2 then .go { c with hotLr := fld c.entry 0 2 }
  else if c.stepPage = 0 then .stop stBadDescriptor
  else
    match s.vread c.ctx (c.stepPage + 16 * fld c.entry 21 1) 16 with
    | .error e => step5Err c e false
    | .ok h =>
      if fld h 0 4 ≠ c.step ∨ !allZero (slice h 6 10) then .stop stBadDescriptor
      else .go { c with hotLr := fld h 4 2 }

/-- The entry of an UPDATE with its FACTORED and HOT rules (R267 to R276). -/
def State.updateEntry (s : State) (c : Cmd) (b : List Byte) : Step5 :=
  let fac := bitOf (fld b 20 1) 1
  if !groupEntryOk b then .stop stBadDescriptor
  else if fac && s.statOutside c then .stop stBadDescriptor
  else if (if fac then c.f 80 8 = 0 ∨ c.f 80 8 % 64 ≠ 0 ∨ !l16Pos (fld b 12 2) else c.f 80 8 ≠ 0) then .stop stBadDescriptor
  else s.hotEntry { c with entry := b }

/-- The group entry of an UPDATE (R272, R274): read once, though its hot slot is waited for. -/
def State.readGroup (s : State) (c : Cmd) : Step5 :=
  let va := c.groupTable + 64 * c.f 52 2
  if !c.entry.isEmpty then s.hotEntry c
  else
  match s.xlate c.ctx va false with
  | .hbm pa => s.updateEntry c (s.hbmRead pa 64)
  | .host _ _ => .stop stBadDescriptor
  | .fault k => if k = 3 ∨ k = 4 then .stop stBadDescriptor else .fault k va false

/-- The 128-byte image of a group record (R308). -/
def GroupRec.image (g : GroupRec) : List Byte :=
  toLe 2 g.id ++ toLe 1 g.state ++ toLe 1 g.ctx.val ++ toLe 4 g.epoch.toNat ++ toLe 8 g.seq.toNat ++ toLe 8 g.mapAddr ++
    toLe 1 g.ndep ++ toLe 3 0 ++ toLe 4 g.digest ++ toLe 32 0 ++ (List.range 16).flatMap fun i => toLe 4 (g.deps.getD i 0)

/-- Partitions of a mask of engines, ascending. -/
def partsOfMask (m : W64) : List Part := (List.finRange 8).filter fun q => partAllowed m q

/-- The tables of a snapshot: group table, scale tables, group records (R344, R347). -/
def State.snapTables (s : State) (c : Cmd) : Except XErr (List (List Byte)) :=
  let allow := (s.ctx c.ctx).engineAllow
  let gt : Except XErr (List Byte) := if c.groupTable = 0 then .ok (List.replicate 262144 0) else s.vread c.ctx c.groupTable 262144
  match gt with
  | .error e => .error e
  | .ok g => .ok [g, (partsOfMask allow).flatMap fun q => s.scaleImages q 0 1024,
      (maskEngines allow).flatMap fun e => (List.range 16).flatMap fun k =>
        let r := Tab.get {} (s.eng e).groups k
        if r.state ≠ 0 ∧ r.ctx = c.ctx then r.image else List.replicate 128 0]

/-- The size of a snapshot: its header and its 4 KiB-aligned sections (R347). -/
def snapBytes (sizes : List Nat) : Nat :=
  4096 + ((sizes.dropLast.map up4k).sum + sizes.getLast?.getD 0)

/-- A manifest keeps R346. -/
def manifestOk (h : List Byte) (ts : List (Nat × Nat)) : Bool :=
  decide (fld h 0 2 ≤ 120) && (decide (fld h 2 1 ≤ 4) || fld h 2 1 == 0xFF) && allZero (slice h 3 5)
    && (fld h 2 1 != 0xFF || fld h 8 8 == 0) && addr52 (fld h 8 8)
    && ts.all (fun t => decide (1 ≤ t.2) && addr52 t.1)
    && (ts.zipIdx).all fun a => (ts.zipIdx).all fun b => a.2 == b.2 || disjoint (a.1.1, a.1.1 + a.1.2) (b.1.1, b.1.1 + b.1.2)

/-- The pages that hold a byte of a range, in device memory or behind a port (R345). -/
def State.pagesOf (s : State) (ctx : CtxNo) (va n : Nat) : List Nat :=
  (List.range ((va % 65536 + n + 65535) / 65536)).filterMap fun i => (s.xlate ctx (va / 65536 * 65536 + 65536 * i) false).page

/-- The snapshot point of a CHECKPOINT (R344 to R346): manifest, loss value and tables. -/
def State.readManifest (s : State) (c : Cmd) : Step5 :=
  if c.f 56 8 % 8 ≠ 0 then .stop stBadDescriptor
  else
    match s.vread c.ctx (c.f 56 8) 16 with
    | .error e => step5Err c e false
    | .ok h =>
      if 120 < fld h 0 2 then .stop stBadDescriptor
      else
        match s.vread c.ctx (c.f 56 8 + 16) (16 * fld h 0 2) with
        | .error e => step5Err c e false
        | .ok b =>
          let ts := (List.range (fld h 0 2)).map fun i => (fld b (16 * i) 8, fld b (16 * i + 8) 8)
          if !manifestOk h ts then .stop stBadDescriptor
          else
            let lossLen := match fmtOfCode (fld h 2 1) with | some f => f.bits / 8 | none => 0
            match s.vread c.ctx (fld h 8 8) lossLen, s.snapTables c with
            | .error e, _ => step5Err c e false
            | _, .error e => step5Err c e false
            | .ok l, .ok tabs =>
              if !c.digestOnly && decide (c.f 80 8 < snapBytes (snapSizes ts tabs)) then .stop stBadDescriptor
              else .go { c with snap := { tensors := ts, lossFmt := fld h 2 1, loss := leNat l, tables := tabs
                                          digest := crc64 (toLe 4 c.step) } }

/-- What step 5 reads, by opcode. -/
def State.readStep5 (s : State) (c : Cmd) : Step5 :=
  match c.op with
  | 0x08 => s.readGroup c
  | 0x0D => s.readManifest c
  | _ => .go c

/-- Mark the pages of a snapshot's tensors (R345). -/
def State.markPages (s : State) (p : Port) (t : Tag) (c : Cmd) : State :=
  let pages := (c.snap.tensors.flatMap fun x => s.pagesOf c.ctx x.1 x.2).eraseDups
  { s with mem := { s.mem with marked := s.mem.marked ++ pages.map fun g => (tagField p t, g) } }

/-- The scale-table entries a command reads at step 5, one for each stage (R281). -/
def State.readScales (s : State) (step : Nat) : List Nat → State × List ScaleRead
  | [] => (s, [])
  | i :: is =>
    let a := s.scaleRead i step
    let b := a.1.readScales step is
    (b.1, a.2 :: b.2)

/-- SCALE_ID of each stage of a command, or of a CONVERT. -/
def Cmd.stageScales (c : Cmd) : List Nat :=
  match c.op with
  | 0x01 => [(c.mm 0).epi.scaleId]
  | 0x02 => (List.range c.nStages).map fun i => (c.mm i).epi.scaleId
  | 0x04 => [c.f 54 2]
  | 0x0A => if c.drainsTiles then [(c.mm 0).epi.scaleId] else []
  | _ => []

/-! ### ADMISSION -/

/-- Opcodes that take an engine (R257, R273). -/
def Cmd.needsEngine (c : Cmd) : Bool :=
  match c.op with
  | 0x00 => false
  | 0x0B => false
  | 0x0C => false
  | 0x0F => false
  | _ => true

/-- The tile map of a stage is read into its control area as its streams begin, where it translates; else as they come to it (R171, R230, R428)
(DESIGN CHOICE, log entry 24). -/
def State.readMap (s : State) (c : Cmd) (st : Nat) : Cmd :=
  let x := c.mm st
  if x.tileMap = 0 ∨ x.map.isSome then c
  else
    match s.vread c.ctx x.tileMap x.mapBytes with
    | .ok b => { c with maps := Tab.set c.maps st b }
    | .error _ => c

/-- Every tile map of a command that translates. -/
def State.readMaps (s : State) (c : Cmd) : Cmd :=
  if c.op = 0x01 ∨ c.op = 0x02 then (List.range c.nStages).foldl s.readMap c else c

/-- Admit a command to its engines with what step 5 has read. -/
def State.takeIn (s : State) (p : Port) (t : Tag) (c : Cmd) (es : List Eng) : State :=
  let r := s.readScales c.step c.stageScales
  let s1 := if c.op = 0x0D then r.1.markPages p t c else r.1
  let c1 := { c with
    phase := .running, scales := r.2, chosen := es.head?
    engines := es.foldl (fun m e => m ||| engBit e) 0 }
  let c2 := s1.readMaps c1
  es.foldl (fun s e => s.takeSlot p t c2 e) (s1.updCmd p t fun _ => c2)

/-- The engines of a command at step 5: the one that was chosen for it as it came there (R211, R215, R282), or those it names. -/
def State.enginesAt5 (s : State) (c : Cmd) : List Eng :=
  match c.chosen with
  | some e => [e]
  | none => s.enginesUsed c

/-- A command whose engine the module chooses keeps the choice while it waits at step 5 (R282) (DEDUCED, log entry 9). -/
def State.keepChoice (s : State) (p : Port) (t : Tag) (es : List Eng) : State :=
  s.updCmd p t fun c => { c with
    chosen := if c.op = 0x04 ∨ c.op = 0x05 ∨ c.op = 0x07 ∨ c.op = 0x09 then es.head? else c.chosen }

/-- ADMISSION (R215 step 5, R258): everything but a set-group, which acts in its own row. -/
def execAdmission (p : Port) (t : Tag) (s : State) : Out :=
  .next (
    let c := s.cmd p t
    let es := s.enginesAt5 c
    if c.phase ≠ .admission ∨ (c.op = 0x08 ∧ c.f 50 1 = 1) then s
    else if !c.needsEngine then s.updCmd p t fun c => { c with phase := .running }
    else if es.isEmpty || es.any s.isolated then s.endCmd p t stDropped
    else if s.tooLarge c es then s.endCmd p t stWorkset
    else if !s.room c es then s.keepChoice p t es
    else
      match s.readStep5 c with
      | .go c' => s.takeIn p t c' es
      | .stop st => s.endCmd p t st
      | .fault k va w => (s.postFault k p t 0xFF 0xFF w va).endCmd p t stFaultAbort
      | .page c' va => (s.pageRequest (s.ctx c.ctx) va false (.step5 p t)).updCmd p t fun _ => { c' with phase := .priWait5 })

end Sys2Proof.Machine
end

