-- ==== Sys2Proof/Config.lean ====
section
/-!
DEFINITION. The free values: what the manual leaves open on this module. They have no body, so no proof can see what they
are (DESIGN CHOICE, log entry 5).
-/

namespace Sys2Proof

/-- Whether a link of another node, by node and port, was UP (R317; DESIGN CHOICE, log entry 36: the module is told of links that go down). -/
opaque Config.linkWasUp : Nat → Nat → Bool

/-- Lane symbols 10 to 15 of an alignment codeword during training step 1: the transmit-preset exchange, whose coding the manual leaves open (R285, R293;
DESIGN CHOICE, log entry 36). -/
opaque Config.presetSymbol : Nat → Nat → Nat → Nat

/-- K_SEL of the ROUTE whose lists lie at an address: SPARSE_RETURN uses it and no field of its command gives it (R316; DESIGN CHOICE, log entry 59). -/
opaque Config.sparseKSel : Nat → Nat

/-- The `n`-th value that the manual leaves open. -/
opaque Config.freeValue : Nat → W64

/-- Bytes of the `n`-th value of a given length that the manual leaves open. -/
opaque Config.freeBytes : Nat → Nat → List Byte

/-- The image that a bank held when the module was delivered (R425, Ordering information; DESIGN CHOICE, log entry 53). -/
opaque Config.factoryImage : Nat → List Byte

/-- SHA-512 (00 Standards): the model needs no value of it. -/
opaque Config.sha512 : List Byte → List Byte

/-- RSASSA-PSS verification of R373: modulus, message, signature. -/
opaque Config.pssVerify : List Byte → List Byte → List Byte → Bool

/-- A signature with the device key (R376). -/
opaque Config.signature : List Byte → List Byte

/-- The certificate chain of slot 0 and the certificate request of the device key (R376). -/
opaque Config.slot0Chain : List Byte
opaque Config.deviceCsr : List Byte

/-- The boot ROM version (R375). -/
opaque Config.romVersion : List Byte

/-- What a requester's FINISH must carry, by the key exchange and the requester's share (R377). -/
opaque Config.finishMac : Nat → List Byte → List Byte

/-- A raw byte of an engine's tile memory as the aperture reads it (16, debug window). -/
opaque Config.tileMemory : Nat → Nat → Nat → Byte

/-- ADDR of the record of a stream that moves a hand-over block, by engine and stream (R234, R244; DESIGN CHOICE, log entry 24). -/
opaque Config.handAddr : Nat → Nat → Nat → W64

/-- Which of an engine's tiles a physical accumulator holds (R97). -/
opaque Config.physical : Nat → Nat → Nat → Nat

end Sys2Proof
end

