-- ==== Sys2Proof/Machine/Routing.lean ====
section
/-!
DEFINITION. The torus, routes and detours, packets with their flits and credits, notices, departures and group records
(12 R287 to R292, R297 to R303, R309, R317, R318).
-/

namespace Sys2Proof.Machine

/-! ### The torus -/

/-- Coordinate `d` of a node: x, y, z are 0, 1, 2 (R297). -/
def coord (n d : Nat) : Nat := if d = 0 then bitsOf n 16 11 else if d = 1 then bitsOf n 10 5 else bitsOf n 4 0

/-- The node of three coordinates (R297). -/
def nodeOf (x y z : Nat) : Nat := x * 2 ^ 11 + y * 2 ^ 5 + z

/-- Size of a dimension. -/
def PeerBlock.size (b : PeerBlock) (d : Nat) : Nat := 1 + (if d = 0 then b.dxM1 else if d = 1 then b.dyM1 else b.dzM1)

/-- Directions X+, X-, Y+, Y-, Z+, Z- are 0 to 5. The node one hop away in a direction. -/
def PeerBlock.neighbour (b : PeerBlock) (n dir : Nat) : Nat :=
  let m (d : Nat) : Nat :=
    if d = dir / 2 then (if dir % 2 = 0 then coord n d + 1 else coord n d + b.size d - 1) % b.size d else coord n d
  nodeOf (m 0) (m 1) (m 2)

/-- A hop crosses the wrap link of its ring (R299). -/
def PeerBlock.wraps (b : PeerBlock) (n dir : Nat) : Bool :=
  if dir % 2 = 0 then coord n (dir / 2) + 1 == b.size (dir / 2) else coord n (dir / 2) == 0

/-- The direction of dimension order from a node to another: the shorter way, + when both are equally long (R299). -/
def PeerBlock.dirTo (b : PeerBlock) (n dest : Nat) : Option Nat :=
  match [0, 1, 2].find? fun d => coord n d != coord dest d with
  | none => none
  | some d =>
    let delta := (coord dest d + b.size d - coord n d) % b.size d
    some (if 2 * delta ≤ b.size d then 2 * d else 2 * d + 1)

/-- The opposite direction. -/
def opposite (dir : Nat) : Nat := if dir % 2 = 0 then dir + 1 else dir - 1

/-- A link that the detour table names from either end (R301). -/
def PeerBlock.blocked (b : PeerBlock) (n dir : Nat) : Bool :=
  b.detours.contains (n, dir) || b.detours.contains (b.neighbour n dir, opposite dir)

/-- The ports of a node that have a link: both of each dimension of size 2 or more (DEDUCED, log entry 13). -/
def PeerBlock.linksOf (b : PeerBlock) : List Nat := (List.range 6).filter fun p => decide (1 < b.size (p / 2))

/-- A link of a node was UP: the module knows so of its own ports' links and of those that LINK_UP notices name (R317); which others were is left open
(DESIGN CHOICE, log entry 36). -/
def PeerBlock.wasUp (b : PeerBlock) (n p : Nat) : Bool := b.upLinks.contains (n, p) || Config.linkWasUp n p

/-- A node has departed: every link of it that was UP is down (R317). -/
def PeerBlock.departed (b : PeerBlock) (n : Nat) : Bool :=
  n != b.nodeId && b.downLinks.any (·.1 == n) && (b.linksOf ++ (b.upLinks.filter (·.1 == n)).map (·.2)).all fun p =>
    b.downLinks.contains (n, p) || !b.wasUp n p

/-- Directions that a neighbour is adjacent in (R298). -/
def PeerBlock.dirsOf (b : PeerBlock) (n : Nat) : List Nat := (List.range 6).filter fun d => b.neighbour b.nodeId d == n

/-- The next node on the route from a node, detours included (R299, R301, R312). -/
def PeerBlock.nextNode (b : PeerBlock) (n dest : Nat) : Option Nat :=
  match b.dirTo n dest with
  | none => none
  | some d =>
    let m := b.neighbour n d
    if !b.blocked n d && (m == dest || !b.departed m) then some m
    else
      let d' := 2 * ((d / 2 + 1) % 3)
      some (b.neighbour n (if b.blocked n d' then d' + 1 else d'))

/-! ### Packets -/

/-- Virtual channel of a PTYPE (R303). -/
def vcOf (ptype : Nat) : Nat :=
  if ptype = 1 ∨ ptype = 3 then 0 else if ptype = 2 ∨ ptype = 4 then 1 else if ptype = 0x20 then 3 else 2

/-- Flits of a packet: 192 bytes of payload in the head, 240 in each data flit (R303). -/
def flitsOf (k : Packet) : Nat := 1 + ceilDiv (k.payload.length - 192) 240

/-- The pair of virtual channel and dateline class that a packet's flits carry (R292). -/
def pairOf (k : Packet) (dl : Bool) : Nat := 2 * k.vc + b2n dl

/-- A field of a packet header at its offset in R303. -/
def pf (k : Packet) (off len : Nat) : Nat := fld k.fields (off - 12) len

/-- The 48-byte packet header (R303). -/
def headerBytes (k : Packet) : List Byte :=
  toLe 3 k.dest ++ toLe 3 k.src ++ toLe 1 k.ptype ++ toLe 1 (b2n k.detoured + 2 * k.pflags) ++ toLe 2 k.len ++ toLe 1 k.detours ++
    toLe 1 k.byte11 ++ k.fields

/-- The bodies of a packet's flits, the last one's bytes after the payload as they came (R303). -/
def bodiesOf (k : Packet) : List (List Byte) :=
  let n := flitsOf k
  (List.range n).map fun j =>
    (if j = 0 then headerBytes k ++ k.payload.take 192 else (k.payload.drop (192 + 240 * (j - 1))).take 240) ++
      (if j + 1 = n then k.tail else [])

/-- A packet keeps R303: LEN, reserved bytes, VC, and the sizes of its PTYPE; COLL_UP and COLL_DOWN carry R311's fields. -/
def packetFormed (k : Packet) : Bool :=
  [1, 2, 3, 4, 0x10, 0x11, 0x20].contains k.ptype && k.vc == vcOf k.ptype && k.len == k.payload.length && decide (k.len ≤ 4032)
    && k.pflags == 0 && k.byte11 == 0 && allZero k.tail && decide (k.detours ≤ 8)
    && (match k.ptype with
      | 1 => allZero (k.fields.drop 12)
      | 3 => decide (pf k 24 4 ≤ 4032)
      | 0x20 => k.payload.length == 32
      | 0x10 => allZero (k.fields.drop 32)
      | 0x11 => decide (pf k 44 1 ≤ 1) && allZero (k.fields.drop 33)
      | _ => true)

/-- Indices of a port's counts; corrected codewords have no register (R286). -/
def cntFecSymbols : Nat := 0
def cntFecUncorrectable : Nat := 1
def cntCrcErrors : Nat := 2
def cntReplayed : Nat := 3
def cntLinkDowns : Nat := 4
def cntFlitsDiscarded : Nat := 5
def cntForwarded : Nat := 6
def cntFecCodewords : Nat := 7

/-- Raise a count of a peer port. -/
def PeerLink.bump (l : PeerLink) (i n : Nat) : PeerLink := { l with counts := Tab.upd 0 l.counts i fun v => satAdd 64 v n }

/-! ### Flits -/

/-- The 256 bytes of a flit that a port sends: the link header with the last SEQ accepted and up to 15 credits of each pair, the
body, and the CRC-32 (R287 to R289, R292). -/
def PeerLink.flit (l : PeerLink) (ftype fflags seq : Nat) (body : List Byte) : List Byte :=
  let credit := ((List.range 8).map fun i => min 15 (Tab.get 0 l.owed i) * 2 ^ (4 * i)).sum
  let b := toLe 1 ftype ++ toLe 1 fflags ++ toLe 2 seq ++ toLe 2 (if l.accepted then (l.expected + 4095) % 4096 + 2 ^ 15 else 0) ++
    toLe 4 credit ++ toLe 2 0 ++ body.take 240 ++ List.replicate (240 - body.length) 0
  b ++ toLe 4 (crc32 b)

/-- What a sent flit has told: its ACK, and the credits that it returned; its bytes wait for their codewords (R285). -/
def PeerLink.paid (l : PeerLink) (b : List Byte) : PeerLink :=
  { l with
    ackDue := false, owed := (List.range 8).map fun i => (i, Tab.get 0 l.owed i - min 15 (Tab.get 0 l.owed i))
    line := l.line ++ b }

/-- A HEAD or DATA flit as it is sent (R287, R289). -/
def PeerLink.sendFlit (l : PeerLink) (x : Flit) : List Byte × PeerLink :=
  let b := l.flit (if x.head then 1 else 2) (x.pair / 2 % 4 + 4 * (x.pair % 2) + 8 * b2n x.last) x.seq x.body
  (b, l.paid b)

/-- Several flits as they are sent, in order. -/
def PeerLink.sendFlits (l : PeerLink) : List Flit → List (List Byte) × PeerLink
  | [] => ([], l)
  | x :: xs =>
    let r := l.sendFlit x
    let rs := r.2.sendFlits xs
    (r.1 :: rs.1, rs.2)

/-- The module sends a flit that is neither HEAD nor DATA, unless its transmitters are off (R288, R333). -/
def State.linkFlit (s : State) (i : PeerPort) (ftype : Nat) (body : List Byte) (o : List Byte → Output) : State :=
  let b := (s.link i).flit ftype 0 0 body
  if s.peer.txOff then s else (s.updLink i (·.paid b)).emit (o b)

/-- IDLE flits carry an ACK and credits that no other flit has carried yet (R288, R289, R292) (DESIGN CHOICE, log entry 36: IDLE flits that say
nothing new are left out). -/
def State.idleGo (i : PeerPort) : Nat → State → State
  | 0, s => s
  | n + 1, s =>
    let l := s.link i
    if s.peer.txOff || l.state != .up || !(l.ackDue || l.owed.any (·.2 != 0)) then s
    else State.idleGo i n (s.linkFlit i 0 [] (.idle i))
def State.idleBack (s : State) (i : PeerPort) : State := State.idleGo i 140 s

/-- A packet may be sent: every flit of it has a credit and a place in the replay buffer (R289, R292) (DEDUCED, log entry 36). -/
def PeerLink.canSend (l : PeerLink) (k : Packet) (dl : Bool) : Bool :=
  l.state == .up && decide (flitsOf k ≤ Tab.get 0 l.credits (pairOf k dl)) && decide (l.replay.length + flitsOf k ≤ 1024)

/-- The packet of a virtual channel that is ready: the first one that is first of its own pair and may be sent (R292, R300). -/
def PeerLink.ready (l : PeerLink) (v : Nat) : Option (Packet × Bool) :=
  l.txq.find? fun x => x.1.vc == v && (l.txq.find? fun y => y.1.vc == v && y.2 == x.2) == some x && l.canSend x.1 x.2

/-- The packet that an output sends next: management first, then the other channels in turn (R300). -/
def PeerLink.pick (l : PeerLink) : Option (Packet × Bool) :=
  [3, l.rrVc % 3, (l.rrVc + 1) % 3, (l.rrVc + 2) % 3].findSome? l.ready

/-- The flits that a packet becomes at an output (R289, R303). -/
def PeerLink.flitsFor (l : PeerLink) (k : Packet) (dl : Bool) : List Flit :=
  (bodiesOf k).zipIdx.map fun b =>
    { seq := (l.nextSeq + b.2) % 4096, pair := pairOf k dl, head := b.2 == 0, last := b.2 + 1 == flitsOf k, body := b.1 }

/-- The flits of a packet are numbered, kept for replay, and paid for (R289, R292). -/
def PeerLink.take (l : PeerLink) (k : Packet) (dl : Bool) : PeerLink :=
  { l with
    txq := l.txq.erase (k, dl)
    rrVc := if k.vc = 3 then l.rrVc else (k.vc + 1) % 3
    replay := l.replay ++ l.flitsFor k dl
    nextSeq := (l.nextSeq + flitsOf k) % 4096
    credits := Tab.upd 0 l.credits (pairOf k dl) (fun v => v - flitsOf k) }

/-- Send what an output can send. -/
def State.pumpGo (i : PeerPort) : Nat → State → State
  | 0, s => s
  | fuel + 1, s =>
    match (s.link i).pick with
    | none => s
    | some (k, dl) =>
      let r := (s.link i).sendFlits ((s.link i).flitsFor k dl)
      State.pumpGo i fuel ((s.updLink i fun _ => r.2.take k dl).emit (.packet i k dl r.1))

/-- Send what an output can send; the transmitters are off after a power-cycle request (R18, R333). -/
def State.pump (s : State) (i : PeerPort) : State := if s.peer.txOff then s else State.pumpGo i (s.link i).txq.length s

/-- A packet joins the queue of an output. -/
def State.enqueue (s : State) (i : PeerPort) (k : Packet) (dl : Bool) : State :=
  (s.updLink i fun l => { l with txq := l.txq ++ [(k, dl)] }).pump i

/-! ### Routes from this module -/

/-- What an output direction offers (R298, R301): a port that is UP, a link the detour table blocks, or one that it does
not record. -/
inductive Hop where
  | port (i : PeerPort)
  | blocked
  | lost
  deriving DecidableEq, Repr

/-- The ports that a direction would have if they were UP: those whose last neighbour lies that way, or that are named after it. -/
def State.portsTo (s : State) (d : Nat) : List PeerPort :=
  (List.finRange 6).filter fun i =>
    let l := s.link i
    if l.nbrSeen then (s.peer.dirsOf l.nbrNode).contains d else i.val == d

/-- The output of a direction: a port that is not UP bars the way, and loses the packet only where its link has been lost or FAILED, is not UP
again, and the detour table could not hold it (R298, R301, R302) (DEDUCED, log entry 36). -/
def State.outFor (s : State) (d : Nat) : Hop :=
  match (List.finRange 6).find? fun i => (s.link i).state == .up && (s.link i).routeDir == d with
  | some i =>
    if s.peer.detours.contains (s.peer.nodeId, i.val) || s.peer.detours.contains ((s.link i).nbrNode, (s.link i).nbrPort)
    then .blocked else .port i
  | none =>
    if (s.portsTo d).any fun i => (s.link i).barred && !s.peer.detours.contains (s.peer.nodeId, i.val) then .lost else .blocked

/-- The dateline class of a packet on its next hop (R299, R301). -/
def PeerBlock.classFor (b : PeerBlock) (k : Packet) (dl : Bool) (from_ : Option Nat) (d : Nat) : Bool :=
  k.detoured || b.wraps b.nodeId d || (dl && (match from_ with | some f => f / 2 == d / 2 | none => true))

/-- The detour of a packet whose hop in direction `d` is barred (R301, R302). -/
def State.detour (s : State) (k : Packet) (d : Nat) : Option (PeerPort × Packet × Bool) :=
  let k' := { k with detoured := true, detours := k.detours + 1 }
  let d' := 2 * ((d / 2 + 1) % 3)
  if 8 ≤ k.detours then none
  else
    match s.outFor d', s.outFor (d' + 1) with
    | .port i, _ => some (i, k', true)
    | _, .port i => some (i, k', true)
    | _, _ => none

/-- The output, header and class of a packet, or none where it is discarded (R299, R301, R302). -/
def State.route (s : State) (k : Packet) (dl : Bool) (from_ : Option Nat) : Option (PeerPort × Packet × Bool) :=
  if s.peer.departed k.dest then none
  else
    match s.peer.dirTo s.peer.nodeId k.dest with
    | none => none
    | some d =>
      match s.outFor d with
      | .lost => none
      | .blocked => s.detour k d
      | .port i =>
        if (s.link i).nbrNode != k.dest && s.peer.departed (s.link i).nbrNode then s.detour k d
        else some (i, k, s.peer.classFor k dl from_ d)

/-- A packet is discarded and counted (R302). -/
def State.discardPacket (s : State) : State := { s with peer := { s.peer with discarded := satAdd 64 s.peer.discarded 1 } }

/-- Send a packet on its route, or discard it; the transmitters are off after a power-cycle request (R18, R333). -/
def State.sendOn (s : State) (k : Packet) (dl : Bool) (from_ : Option Nat) : State :=
  if s.peer.txOff then s
  else
    match s.route k dl from_ with
    | some (i, k', c) => s.enqueue i k' c
    | none => s.discardPacket

/-- Send a packet of the module's own. -/
def State.sendPacket (s : State) (k : Packet) : State := s.sendOn k false none

/-- A packet of the module's own: its fields padded to the 36 bytes of TYPE_FIELDS (R303). -/
def State.packetTo (s : State) (dest ptype : Nat) (fields payload : List Byte) : Packet :=
  { dest := dest, src := s.peer.nodeId, ptype := ptype, detoured := false, detours := 0
    fields := fields ++ List.replicate (36 - fields.length) 0, payload := payload, vc := vcOf ptype }

/-! ### Group records -/

/-- A departure is recorded: a DEP entry and the next EPOCH, or the record becomes stale (R308, R318) (DEDUCED, log entry 38). -/
def GroupRec.addDep (g : GroupRec) (d : Nat) : GroupRec :=
  if 16 ≤ g.ndep then { g with state := 2 }
  else { g with deps := g.deps.take g.ndep ++ List.replicate (g.ndep - g.deps.length) 0 ++ [d], ndep := g.ndep + 1, epoch := g.epoch + 1, digest := g.digest ^^^ crc32 (toLe 4 d) }

/-- Change every active group record. -/
def State.mapGroups (s : State) (f : GroupRec → GroupRec) : State :=
  { s with engines := s.engines.map fun g => (g.1, { g.2 with groups := g.2.groups.map fun r =>
      if r.2.state = 1 then (r.1, f r.2) else r }) }

/-- Engines of a node depart (R318). -/
def State.departEngines (s : State) (node : Nat) (engines : W64) : State :=
  s.mapGroups fun g => (maskEngines engines).foldl (fun g' e =>
    if g'.state == 1 && (s.liveOf g node).contains e.val then g'.addDep (node + e.val * 2 ^ 17) else g') g

/-- A node departs as a whole (R318). -/
def State.departNode (s : State) (node : Nat) : State :=
  s.mapGroups fun g => if (s.liveOf g node).isEmpty then g else g.addDep (node + 2 ^ 23)

/-! ### Notices -/

/-- The payload of a notice (R317). -/
def noticeBytes (r : NoticeRec) : List Byte :=
  toLe 1 r.kind ++ toLe 1 r.port ++ toLe 2 0 ++ toLe 4 r.node ++ toLe 8 r.engines.toNat ++ toLe 4 r.origin ++
    toLe 4 r.nseq.toNat ++ toLe 8 0

/-- A notice is remembered among the last 256 (R317). -/
def PeerBlock.remember (b : PeerBlock) (r : NoticeRec) : PeerBlock :=
  let l := b.seen ++ [(r.origin, r.nseq.toNat)]
  { b with seen := l.drop (l.length - 256) }

/-- A notice is flooded on every UP port but the one it came by (R317) (DEDUCED, log entry 36). -/
def State.flood (s : State) (r : NoticeRec) (from_ : Option PeerPort) : State :=
  if s.peer.txOff then s
  else (List.finRange 6).foldl (fun s i =>
    if (s.link i).state = .up ∧ some i ≠ from_ then
      s.enqueue i (s.packetTo (s.link i).nbrNode 0x20 [] (noticeBytes r)) false
    else s) s

/-- Record a blocked link, if the table has room (R301). -/
def PeerBlock.block (b : PeerBlock) (n p : Nat) : PeerBlock :=
  if b.detours.contains (n, p) || decide (64 ≤ b.detours.length) then b else { b with detours := b.detours ++ [(n, p)] }

/-- What a notice says takes effect (R301, R317, R318). -/
def State.applyNotice (s : State) (r : NoticeRec) : State :=
  match r.kind with
  | 1 =>
    let gone := s.peer.departed r.node
    let b := s.peer.block r.node r.port
    let s1 := { s with peer := { b with
      downLinks := if b.downLinks.contains (r.node, r.port) then b.downLinks else b.downLinks ++ [(r.node, r.port)] } }
    if !gone && s1.peer.departed r.node then s1.departNode r.node else s1
  | 2 =>
    { s with peer := { s.peer with
      detours := s.peer.detours.filter (· != (r.node, r.port)), downLinks := s.peer.downLinks.filter (· != (r.node, r.port))
      upLinks := s.peer.upLinks.filter (· != (r.node, r.port)) ++ [(r.node, r.port)] } }
  | 3 => s.departEngines r.node r.engines
  | _ => s

/-- The module issues a notice (R317). -/
def State.issueNotice (s : State) (kind port node : Nat) (engines : W64) : State :=
  let r : NoticeRec := { kind := kind, port := port, node := node, engines := engines, origin := s.peer.nodeId
                         nseq := s.peer.nseq }
  let s1 := { s with peer := { (s.peer.remember r) with nseq := s.peer.nseq + 1 } }
  (s1.applyNotice r).flood r none

/-- A fault fences engines of the module, or ends their contribution: ENGINE_DEPART (R317). -/
def State.departOwn (s : State) (engines : W64) : State :=
  if s.peer.valid && engines != 0 then s.issueNotice 3 0 s.peer.nodeId engines else s.departEngines s.peer.nodeId engines

/-! ### Links going down -/

/-- A packet that waited at a link that is gone is routed again (R301). -/
def State.reroute (s : State) (l : List (Packet × Bool)) : State := l.foldl (fun s x => s.sendOn x.1 x.2 none) s

/-- ROUTE_DIR and UNUSED: UP ports in order, each the first direction not served yet; a port that is not UP serves none (R298). -/
def State.reroutes (s : State) : State :=
  ((List.finRange 6).foldl (fun (a : State × List Nat) i =>
    if (a.1.link i).state ≠ .up then (a.1.updLink i fun l => { l with routeDir := 0xF, unused := false }, a.2)
    else
      match (a.1.peer.dirsOf (a.1.link i).nbrNode).find? fun d => !a.2.contains d with
      | some d => (a.1.updLink i fun l => { l with routeDir := d, unused := false }, a.2 ++ [d])
      | none => (a.1.updLink i fun l => { l with routeDir := 0xF, unused := true }, a.2)) (s, [])).1

/-- A link that was UP is lost: the port leaves UP, the routes follow, its link is blocked and a LINK_DOWN notice goes out (R291, R298, R301,
R317). -/
def State.linkLost (s : State) (i : PeerPort) (st : LinkState) : State :=
  let l := s.link i
  let s1 := s.updLink i fun l => { l with
    state := st, txq := [], discarding := false, nakFor := none, wentDown := true, told := true, barred := true, identGot := false
    identAcked := false, owed := [], ackDue := false }
  let s2 := { s1 with peer := s1.peer.block s.peer.nodeId i.val }.reroutes
  (s2.issueNotice 1 l.nbrPort l.nbrNode 0).reroute (l.txq.filter fun x => x.1.vc != 3)

/-- R291: an UP link goes down, is counted, and retrains; an error record of class 7 tells of it (R323). -/
def State.linkDown (s : State) (i : PeerPort) : State :=
  if (s.link i).state = .up then
    ((s.linkLost i .down).updLink i fun l => l.bump cntLinkDowns 1).postErr { cls := 7, unit := 3, index := i.val }
  else s

/-- Flits of a packet that were still to come: without those accepted before a bad one (R290). -/
def PeerLink.toCome (l : PeerLink) (k : Packet) : Nat := flitsOf k - l.partly.2

/-- So many flits of a pair are accepted in order (R289, R290, R292). -/
def PeerLink.accept (l : PeerLink) (pair n : Nat) : PeerLink :=
  { l with
    expected := (l.expected + n) % 4096, accepted := true, ackDue := true, discarding := false, nakFor := none
    held := Tab.upd 0 l.held pair (fun v => v + n) }

/-- The last flit of a packet arrives in order on an UP port: its flits have taken buffers (R290 to R292); none where it is not received (DEDUCED,
log entry 36). -/
def State.receive (s : State) (i : PeerPort) (k : Packet) (dl : Bool) : Option State :=
  if (s.link i).state ≠ .up then none
  else some (s.updLink i fun l => { (l.accept (pairOf k dl) (l.toCome k)) with partly := (0, 0) })

/-- A flit of the packet would arrive without a credit (R292). -/
def PeerLink.overrun (l : PeerLink) (k : Packet) (dl : Bool) : Bool :=
  decide (256 < Tab.get 0 l.held (pairOf k dl) + Tab.get 0 l.owed (pairOf k dl) + l.toCome k)

/-- The buffers of a packet are free again, and their credits go back (R292). -/
def State.release (s : State) (i : PeerPort) (k : Packet) (dl : Bool) : State :=
  let n := min (flitsOf k) (Tab.get 0 (s.link i).held (pairOf k dl))
  (s.updLink i fun l =>
    { l with held := Tab.upd 0 l.held (pairOf k dl) (fun v => v - n), owed := Tab.upd 0 l.owed (pairOf k dl) (fun v => v + n) }).idleBack i

/-- What every received packet does: nothing on a port that is not UP, the link's loss without a credit, otherwise `f`,
which says whether the packet's buffers stay in use. -/
def State.onPacket (s : State) (i : PeerPort) (k : Packet) (dl : Bool) (f : State → State × Bool) : State :=
  match s.receive i k dl with
  | none => s
  | some s1 =>
    if (s.link i).overrun k dl then s.linkDown i
    else
      let r := f s1
      if r.2 then r.1.idleBack i else r.1.release i k dl

/-! ### Peer-access windows -/

/-- The window that serves a request of a node (R304, R401). -/
def State.windowFor (s : State) (src addr len : Nat) (w : Bool) : Option PeerWin :=
  ((List.range 8).map fun i => Tab.get {} s.peer.windows i).find? fun x =>
    x.enable && x.size != 0 && (s.ctx x.ctx).state == .active && (x.allNodes || x.node == src)
      && (if w then x.write else x.read) && decide (x.base ≤ addr ∧ addr + len ≤ x.base + x.size)

/-- Answer a request. -/
def State.answerPacket (s : State) (k : Packet) (ptype status : Nat) (data : List Byte) : State :=
  s.sendPacket (s.packetTo k.src ptype (toLe 4 (pf k 20 4) ++ toLe 1 status) data)

/-- The context whose address space a WRITE goes to: that of the window which let it in when it came, or lets it in now (R401). -/
def State.writeCtx (s : State) (k : Packet) : Option CtxNo :=
  match s.peer.admitted.find? (·.1 == k) with
  | some x => some x.2
  | none => (s.windowFor k.src (pf k 12 8) k.payload.length true).map (·.ctx)

/-- Serve a WRITE, or name the page of it that a checkpoint has marked and the context that it waits with (R304, R345, R401). -/
def State.serveWrite (s : State) (k : Packet) : Except (Nat × CtxNo) State :=
  let s0 : State := { s with peer := { s.peer with admitted := s.peer.admitted.filter (·.1 != k) } }
  match s.writeCtx k with
  | none => .ok (s0.answerPacket k 2 1 [])
  | some c =>
    match s0.vwrite c (pf k 12 8) k.payload with
    | .ok s1 => .ok (s1.answerPacket k 2 0 [])
    | .error e => if e.kind = 0 then .error (e.page, c) else .ok (s0.answerPacket k 2 1 [])

/-- Serve a READ (R304, R401). -/
def State.serveRead (s : State) (k : Packet) : State :=
  let n := pf k 24 4
  match s.windowFor k.src (pf k 12 8) n false with
  | none => s.answerPacket k 4 1 []
  | some x =>
    match s.vread x.ctx (pf k 12 8) n with
    | .ok b => s.answerPacket k 4 0 b
    | .error _ => s.answerPacket k 4 1 []

/-- A packet is kept in its buffers. -/
def State.keepPacket (s : State) (i : PeerPort) (k : Packet) (dl : Bool) : State :=
  { s with peer := { s.peer with waiting := s.peer.waiting ++ [(i, k, dl)] } }

/-- Forward a packet for another module (R299 to R302); forwarding stops with a power-cycle request (R18, R333). -/
def State.forward (s : State) (i : PeerPort) (k : Packet) (dl : Bool) : State :=
  if s.peer.txOff then s
  else
    let from_ := if (s.link i).routeDir < 6 then some (s.link i).routeDir else none
    match s.route k dl from_ with
    | none => s.discardPacket
    | some (j, k', c) => (s.updLink j fun l => l.bump cntForwarded (flitsOf k)).enqueue j k' c

/-- A packet for this module is handled by `f`, or discarded where it breaks R303 (R302); one for another module is forwarded. -/
def State.atHome (s : State) (i : PeerPort) (k : Packet) (dl : Bool) (f : State → State × Bool) : State :=
  s.onPacket i k dl fun s1 =>
    if k.dest ≠ s.peer.nodeId then (s1.forward i k dl, false) else if packetFormed k then f s1 else (s1.discardPacket, false)

end Sys2Proof.Machine
end

