-- ==== Sys2Proof/Machine/Groups.lean ====
section
/-!
DEFINITION. Reading the operands of one group and forming its results, with the counts that skipping raises
(03 R50 to R58; 04 R80; 05 R100 to R108; 06 R114 to R128, R132; 08 R167 to R177, R190, R194).
-/

namespace Sys2Proof.Machine

/-! ### Elements -/

/-- `n` elements of `bits` bits from element `lo` of the run that starts at `base` (R34, R35, R210). -/
def View.readElems (s : View) (ctx : CtxNo) (base bits lo n : Nat) : Except XErr (List Nat) :=
  let off := lo * bits % 8
  match s.vread ctx (base + lo * bits / 8) (ceilDiv (off + n * bits) 8) with
  | .error e => .error e
  | .ok b => .ok ((List.range n).map fun i => bitsOf (leNat b) (off + i * bits + bits - 1) (off + i * bits))

/-- One row of A or one column of B over the indices of a group: codes, none for a missing element, and the block scale
(R31, R32, R168). -/
structure Line where
  codes : List (Option Nat)
  scale : Int := 0
  deriving DecidableEq, Repr

/-- A signed scale byte of an array, 0 for an array at address 0 (R32). -/
def View.scaleByte (s : View) (ctx : CtxNo) (arr i : Nat) : Except XErr Int :=
  if arr = 0 then .ok 0
  else
    match s.vread ctx (arr + i) 1 with
    | .ok b => .ok (signedOf 8 (fld b 0 1))
    | .error e => .error e

/-- The set bits of a mask word below the end of the reduction, and the first S_c of them (R169). -/
def maskSet (w g k : Nat) : List Nat := (List.range 16).filter fun i => bitOf w i && decide (16 * g + i < k)

/-- The slot of index bit `i` of a compressed group: none when it is missing (R167, R169). -/
def slotOf (sc w g k i : Nat) : Option Nat := (((maskSet w g k).take sc).findIdx? (· == i))

/-- The mask word of a compressed group of a row. -/
def View.maskWord (s : View) (ctx : CtxNo) (x : MM) (r g : Nat) : Except XErr Nat :=
  match s.vread ctx (x.maskAt r g) 2 with
  | .ok b => .ok (leNat b)
  | .error e => .error e

/-- Row `r` of A over indices `k0 .. k0 + n - 1`, all in one 16-index group when compressed. -/
def View.rowLine (s : View) (ctx : CtxNo) (x : MM) (absent : Bool) (r k0 n : Nat) : Except XErr Line :=
  if absent then .ok { codes := List.replicate n none }
  else do
    let sc ← s.scaleByte ctx x.aScale (r * ceilDiv x.k 32 + k0 / 32)
    if x.sparse = 0 then
      let es ← s.readElems ctx (x.a + r * x.ldaB) x.fmtA.bits k0 n
      pure { codes := es.map some, scale := sc }
    else
      let g := k0 / 16
      let w ← s.maskWord ctx x r g
      let es ← s.readElems ctx (x.slotsAt r g) x.fmtA.bits 0 x.slotsC
      pure { codes := (List.range n).map fun i => (slotOf x.slotsC w g x.k (k0 % 16 + i)).map fun j => es.getD j 0
             scale := sc }

/-- Where the columns of B come from: memory, or the hand-over block of the stage before (R213, R244). -/
abbrev BSrc := Option (List (List Nat))

/-- Column `n` of B over indices `k0 .. k0 + len - 1`; of a gathered command the column that TOKEN gives, also one at or beyond DENSE_N
(R190; DESIGN CHOICE, log entry 79). -/
def View.colLine (s : View) (ctx : CtxNo) (x : MM) (src : BSrc) (n k0 len : Nat) : Except XErr Line := do
  let tok ← if x.gather = 0 then pure n else (match s.gatherEntry ctx x n with | .ok v => pure v.1 | .error e => .error e)
  let sc ← s.scaleByte ctx x.bScale (tok * ceilDiv x.k 32 + k0 / 32)
  match src with
  | some cols => pure { codes := (((cols.getD (n % 64) []).drop k0).take len).map some, scale := sc }
  | none =>
    let es ← s.readElems ctx (x.b + tok * x.ldbB) x.fmtB.bits k0 len
    pure { codes := es.map some, scale := sc }

/-- The operands of a line on the log and linear paths: a missing element is zero (R58, R174). -/
def Line.opds (l : Line) (f : Fmt) : List Opd :=
  l.codes.map fun c => match c with | none => .zero | some v => opdOfNum (decodeFmt f v l.scale)

/-- The integers of a line on the serial path, and the trits of a T2 line. -/
def Line.ints (l : Line) (f : Fmt) : List Int :=
  l.codes.map fun c => match c with
    | none => 0
    | some v => match f with
      | .int sg w => if sg then signedOf w v else ((v % 2 ^ w : Nat) : Int)
      | _ => tritOf v

/-- The group result of one lane in one pass (R50, R56, R101, R107, R123). -/
def MM.lane (x : MM) (pass : Nat) (a b : Line) : GroupRes :=
  match x.prec with
  | 5 => groupInt (((a.ints x.fmtA).zip (b.ints x.fmtB)).foldl (fun n p => n + p.1 * p.2) 0)
  | 4 => groupSum (((a.ints .t2).zip (b.opds x.fmtB)).map fun p => mulTrit p.1 p.2)
  | 8 => groupSum (((a.opds .fp32).zip (b.opds .fp32)).map fun p => splitProd false pass p.1 p.2)
  | 9 => groupSum (((a.opds .fp32).zip (b.opds .fp32)).map fun p => splitProd true pass p.1 p.2)
  | _ => groupSum (((a.opds x.fmtA).zip (b.opds x.fmtB)).map fun p => mulOpd p.1 p.2)

/-- Apply a read to each of a list, stopping at the first access that fails. -/
def eachE {α β : Type} (f : α → Except XErr β) : List α → Except XErr (List β)
  | [] => .ok []
  | a :: as =>
    match f a with
    | .error e => .error e
    | .ok b =>
      match eachE f as with
      | .error e => .error e
      | .ok bs => .ok (b :: bs)

/-- The entry of tile row `r` and column `n`, from their numbers in the tensor. -/
def entryNo (r n : Nat) : Nat := 64 * (r % 64) + n % 64

/-- The results of one group of output tile (i, c): those lanes to which it contributes something. -/
def View.groupResults (s : View) (ctx : CtxNo) (x : MM) (src : BSrc) (i c g pass : Nat) :
    Except XErr (List (Nat × GroupRes)) := do
  let k0 := g * x.g
  let n := min x.g (x.k - k0)
  let absent ← x.tileAbsent i (k0 / 64)
  let rows ← eachE (fun r => (s.rowLine ctx x absent r k0 n).map fun l => (r, l)) (x.rowsIn i)
  let cols ← eachE (fun m => (s.colLine ctx x src m k0 n).map fun l => (m, l)) (x.colsIn c)
  pure (rows.flatMap fun r => cols.filterMap fun m =>
    match x.lane pass r.2 m.2 with
    | .nothing => none
    | v => some (entryNo r.1 m.1, v))

/-! ### The order of groups in a unit -/

/-- One group of a unit's reduction: its number, its pass, and whether its pass over its chunk ends with it (R108). -/
structure GroupAt where
  g : Nat
  pass : Nat
  passEnd : Bool
  seq : Nat
  deriving DecidableEq, Repr

/-- Groups that a part forms, passes counted (R107, R108). -/
def MM.partGroups (x : MM) (j : Nat) : Nat := (x.groupHi j - x.groupLo j) * x.passes

/-- The `n`-th group that part `j` forms. -/
def MM.groupAt (x : MM) (j n : Nat) : GroupAt :=
  let ci := n / (16 * x.passes)
  let start := x.groupLo j + 16 * ci
  let gc := max 1 (min 16 (x.groupHi j - start))
  let rem := n - 16 * x.passes * ci
  { g := start + rem % gc, pass := rem / gc, passEnd := decide (1 < x.passes) && rem % gc + 1 == gc
    seq := x.groupLo j * x.passes + n }

/-! ### Counts -/

/-- Whether a line's elements are all zero in the format (R172). -/
def Line.zero (l : Line) (f : Fmt) : Bool :=
  l.codes.all fun c => match c with | none => true | some v => isZeroElem f v

/-- Whether a line holds a NaN or an infinity (R174). -/
def Line.special (l : Line) (f : Fmt) : Bool := (l.opds f).any Opd.special

/-- A path on which R174 makes NaNs: not T2 × L8, not serial. -/
def MM.nanPath (x : MM) : Bool := x.prec != 4 && x.prec != 5

/-- Counts of one reduction step of an output tile: absent, zero activation, special NaNs (R173, R174, R194). -/
def View.stepCounts (s : View) (ctx : CtxNo) (x : MM) (src : BSrc) (i c t : Nat) : Except XErr (List (Nat × Nat)) := do
  let n := x.stepLen t
  let absent ← x.tileAbsent i t
  -- 16 indices at a time: a compressed row is read group by group
  let parts := (List.range (ceilDiv n 16)).map fun u => (64 * t + 16 * u, min 16 (n - 16 * u))
  let cols ← eachE (fun m => eachE (fun q => s.colLine ctx x src m q.1 q.2) parts) (x.colsIn c)
  let zeroAct := cols.all fun l => l.all fun q => q.zero x.fmtB
  if absent then
    let sp := (cols.filter fun l => l.any fun q => q.special x.fmtB).length
    pure [(0x858, 1), (0x868, if x.nanPath then sp * (x.rowsIn i).length else 0)]
  else if zeroAct then
    let rows ← eachE (fun r => eachE (fun q => s.rowLine ctx x false r q.1 q.2) parts) (x.rowsIn i)
    let sp := (rows.filter fun l => l.any fun q => q.special x.fmtA).length
    pure [(0x860, 1), (0x868, if x.nanPath then sp * (x.colsIn c).length else 0)]
  else pure []

/-- Counts of the compressed groups of 16 indices from `k0` on (R168, R169, R174, R194) (DEDUCED, log entry 30). -/
def View.compressedCounts (s : View) (ctx : CtxNo) (x : MM) (src : BSrc) (i c k0 : Nat) :
    Except XErr (List (Nat × Nat)) := do
  let absent ← x.tileAbsent i (k0 / 64)
  if x.sparse = 0 || absent then pure []
  else
    let n := min 16 (x.k - k0)
    let words ← eachE (fun r => s.maskWord ctx x r (k0 / 16)) (x.rowsIn i)
    let cols ← eachE (fun m => s.colLine ctx x src m k0 n) (x.colsIn c)
    let overrun := (words.map fun w => (maskSet w (k0 / 16) x.k).length - x.slotsC).sum
    let hit (w : Nat) (l : Line) : Bool := ((l.opds x.fmtB).zipIdx).any fun o =>
      o.1.special && (slotOf x.slotsC w (k0 / 16) x.k o.2).isNone
    let nan := (words.map fun w => (cols.filter (hit w)).length).sum
    pure [(0x848, words.length), (0x850, overrun), (0x868, nan)]

/-- Planes of a weight format, and slices of an activation format (R115, R116). -/
def planesOf (f : Fmt) : Nat := match f with | .int _ w => w | _ => 1
def slicesOf (f : Fmt) : Nat := match f with | .int _ w => ceilDiv w 4 | _ => 1

/-- Planes of a row, or slices of a column, that are not zero over a step (R127). -/
def Line.planes (l : Line) (f : Fmt) : Nat :=
  match f with
  | .int _ w => ((List.range w).filter fun p => l.codes.any fun c => bitOf (c.getD 0) p).length
  | _ => if (l.ints .t2).all (· == 0) then 0 else 1
def Line.slices (l : Line) (f : Fmt) : Nat :=
  match f with
  | .int _ w => ((List.range (ceilDiv w 4)).filter fun q => l.codes.any fun c =>
      bitsOf (c.getD 0) (min (4 * q + 3) (w - 1)) (4 * q) != 0).length
  | _ => 0

/-- Reserved trits of a line (R33). -/
def Line.reserved (l : Line) : Nat := (l.codes.filter fun c => (c.getD 0) % 4 == 2).length

/-- Counts of one serial step of 16 indices from `k0` on (R127, R132, R177). -/
def View.serialCounts (s : View) (ctx : CtxNo) (x : MM) (src : BSrc) (i c k0 : Nat) :
    Except XErr (List (Nat × Nat)) := do
  let n := min 16 (x.k - k0)
  let absent ← x.tileAbsent i (k0 / 64)
  let rows ← eachE (fun r => s.rowLine ctx x absent r k0 n) (x.rowsIn i)
  let cols ← eachE (fun m => s.colLine ctx x src m k0 n) (x.colsIn c)
  let np := rows.map fun l => l.planes x.fmtA
  let ns := cols.map fun l => l.slices x.fmtB
  let done := np.sum * ns.sum
  pure [(0x810, done), (0x818, 4096 * planesOf x.fmtA * slicesOf x.fmtB - done)]

/-! ### The lane groups of a serial tile (R122, R125 to R129; DEDUCED, log entry 61) -/

/-- Tables that a builder writes in an ACLK cycle (R122). -/
def MM.buildRate (x : MM) : Nat := if x.fmtA = .t2 then 256 else 1024

/-- Slots of a table, and reduction indices that a bank covers (R117, R121). -/
def MM.tableSlots (x : MM) : Nat := if x.fmtA = .t2 then 4 else 1
def MM.bankIndices (x : MM) : Nat := 256 / (x.tableSlots * slicesOf x.fmtB)

/-- First and last index of part `j`, and the banks its indices take. -/
def MM.partK0 (x : MM) (j : Nat) : Nat := x.groupLo j * x.g
def MM.partK1 (x : MM) (j : Nat) : Nat := min x.k (x.groupHi j * x.g)
def MM.banksOf (x : MM) (j : Nat) : Nat := ceilDiv (x.partK1 j - x.partK0 j) x.bankIndices

/-- The bits of slice `q` of an activation code (R116). -/
def sliceBits (f : Fmt) (q code : Nat) : Nat :=
  match f with
  | .int _ w => bitsOf code (min (4 * q + 3) (w - 1)) (4 * q)
  | _ => 0

/-- A reduction step that is absent or a zero activation tile (R171, R172). -/
def View.stepSkipped (s : View) (ctx : CtxNo) (x : MM) (src : BSrc) (i c t : Nat) : Except XErr Bool := do
  let absent ← x.tileAbsent i t
  let cols ← eachE (fun m => s.colLine ctx x src m (64 * t) (x.stepLen t)) (x.colsIn c)
  pure (absent || cols.all fun l => l.zero x.fmtB)

/-- A step of 16 indices as the lanes meet it: the planes of each of the 64 rows that are not zero, the slices of each of the 64
columns that are not zero, and the cycle from which each table can be read, by activation group, column and slice. -/
structure LaneStep where
  planes : List Nat
  slices : List (List Nat)
  ready : List (List (List Nat))
  deriving DecidableEq, Repr

/-- The builder writes the tables of one step in slot order from place `pos` on; an all-zero one takes no time (R121, R122). -/
def buildStep (f : Fmt) (rate pos : Nat) (cols : List (List Nat)) : List (List (List Nat)) × Nat :=
  let cell (a : List Nat × Nat) (u : Nat) (codes : List Nat) (q : Nat) : List Nat × Nat :=
    let p := if ((codes.drop (4 * u)).take 4).any fun v => sliceBits f q v != 0 then a.2 + 1 else a.2
    (a.1 ++ [ceilDiv p rate], p)
  (List.range 4).foldl (fun (b : List (List (List Nat)) × Nat) u =>
    let r := cols.foldl (fun (d : List (List Nat) × Nat) codes =>
      let e := (List.range (slicesOf f)).foldl (fun a q => cell a u codes q) (([] : List Nat), d.2)
      (d.1 ++ [e.1], e.2)) (([] : List (List Nat)), b.2)
    (b.1 ++ [r.1], r.2)) ([], pos)

/-- One lane group through a step, cycle by cycle from `t` on: a pass in one cycle where the tables that its lanes still need can
be read, and otherwise one activation group directly (R126, R128). `n` counts passes done and `u` activation groups of the
present ones; the lanes are their slices with their columns. -/
def laneCycles (planes : Nat) (ready : List (List (List Nat))) (lanes : List (Nat × List Nat)) :
    Nat → Nat → Nat → Nat → Nat → Nat → Nat × Nat × Nat
  | 0, t, _, _, wheel, fall => (t, wheel, fall)
  | fuel + 1, t, n, u, wheel, fall =>
    let act := lanes.filter fun l => decide (n < planes * l.2.length)
    if act.isEmpty then (t, wheel, fall)
    else
      let ok := act.all fun l => ((ready.drop u).map fun g => (g.getD l.1 []).getD (l.2.getD (n % l.2.length) 0) 0).all (decide <| · ≤ t)
      let over_ := ok || u == 3
      laneCycles planes ready lanes fuel (t + 1) (if over_ then n + 1 else n) (if over_ then 0 else u + 1)
        (wheel + (16 - act.length)) (if ok then fall else fall + 1)

/-- One lane group through one step, no earlier than `gate` (R126 to R129): its next free cycle, and the freewheel, fall-back and
skew-wait cycles it adds. -/
def LaneStep.group (w : LaneStep) (gate g next : Nat) : Nat × Nat × Nat × Nat :=
  let t := max next gate
  let planes := w.planes.getD (g / 4) 0
  let lanes := (List.range 16).map fun l => (16 * (g % 4) + l, w.slices.getD (16 * (g % 4) + l) [])
  let most := (lanes.map fun l => l.2.length).foldl max 0
  if planes * most = 0 then (t + 1, 0, 0, t - next)
  else
    let r := laneCycles planes w.ready lanes (4 * planes * most + 1) t 0 0 0 0
    (r.1, r.2.1, r.2.2, t - next)

/-- Every lane group takes a step; `gate` is the first cycle at which the step may begin. -/
def Lanes.take (a : Lanes) (gate : Nat) (w : LaneStep) : Lanes :=
  let r := (a.next.zipIdx).map fun v => w.group gate v.2 v.1
  { a with
    next := r.map (·.1), wheel := a.wheel + (r.map fun v => v.2.1).sum, fall := a.fall + (r.map fun v => v.2.2.1).sum
    skew := a.skew + (r.map fun v => v.2.2.2).sum }

/-- Step `n` of part `j` on the lanes (R125, R126, R129, R131): the bank before last must be finished before the step begins, and before the
builder begins its bank; banks follow one another from unit to unit. -/
def View.laneStep (s : View) (ctx : CtxNo) (x : MM) (src : BSrc) (i c j n : Nat) (a : Lanes) : Except XErr Lanes := do
  let k0 := x.partK0 j + 16 * n
  let len := min 16 (x.k - k0)
  let perBank := x.bankIndices / 16
  let gate := if a.ends.length < 2 then 0 else a.ends.getD (a.ends.length - 2) 0
  let pos := if n % perBank = 0 then max a.pos (gate * x.buildRate) else a.pos
  let last := (n + 1) % perBank == 0 || decide (x.partK1 j ≤ k0 + 16)
  let skip ← s.stepSkipped ctx x src i c (k0 / 64)
  let absent ← x.tileAbsent i (k0 / 64)
  let rows ← eachE (fun r => s.rowLine ctx x absent r k0 len) (x.rowsIn i)
  let cols ← eachE (fun m => (s.colLine ctx x src m k0 len).map fun l => l.codes.map fun v => v.getD 0) (x.colsIn c)
  let built := if skip then ([], pos)
    else buildStep x.fmtB x.buildRate pos (cols ++ List.replicate (64 - cols.length) [])
  let w : LaneStep :=
    { planes := if skip then [] else rows.map fun l => l.planes x.fmtA
      slices := if skip then [] else cols.map fun v => (List.range (slicesOf x.fmtB)).filter fun q => v.any fun y => sliceBits x.fmtB q y != 0
      ready := built.1 }
  let b := ({ a with pos := built.2 } : Lanes).take gate w
  let ends := if last then a.ends.drop (a.ends.length - 1) ++ [b.next.foldl max 0] else a.ends
  pure { b with ends := ends }

/-- FREEWHEEL_CYCLES, FALLBACK_CYCLES and SKEW_WAIT_CYCLES that a step adds (R126, R128, R129, R132). -/
def Lanes.counts (a b : Lanes) : List (Nat × Nat) := [(0x820, b.wheel - a.wheel), (0x828, b.fall - a.fall), (0x830, b.skew - a.skew)]

/-- Reserved trits of the group's weights (R33). -/
def View.tritCounts (s : View) (ctx : CtxNo) (x : MM) (i k0 n : Nat) : Except XErr (List (Nat × Nat)) := do
  if x.fmtA ≠ .t2 then pure []
  else
    let absent ← x.tileAbsent i (k0 / 64)
    let rows ← eachE (fun r => s.rowLine ctx x absent r k0 n) (x.rowsIn i)
    pure [(0x800, (rows.map Line.reserved).sum)]

/-- Every count that forming a group of part `j` raises, those of a step, of a compressed group and of a serial step as each begins, and how
far the lanes come with it (DEDUCED, log entry 30). -/
def View.groupCounts (s : View) (ctx : CtxNo) (x : MM) (src : BSrc) (i c j : Nat) (a : GroupAt) (l : Lanes) :
    Except XErr (List (Nat × Nat) × Lanes) := do
  let k0 := a.g * x.g
  let n := min x.g (x.k - k0)
  let st ← if k0 % 64 = 0 then s.stepCounts ctx x src i c (k0 / 64) else pure []
  let cp ← if k0 % 16 = 0 ∧ a.pass = 0 then s.compressedCounts ctx x src i c k0 else pure []
  let se ← if x.prec = 5 ∧ k0 % 16 = 0 then s.serialCounts ctx x src i c k0 else pure []
  let tr ← s.tritCounts ctx x i k0 n
  let ln ← if x.prec = 5 ∧ k0 % 16 = 0 then s.laneStep ctx x src i c j ((k0 - x.partK0 j) / 16) l else pure l
  pure (st ++ cp ++ se ++ tr ++ l.counts ln, ln)

/-- Raise the counts of a list on an engine. -/
def State.bumps (s : State) (e : Eng) (l : List (Nat × Nat)) : State :=
  l.foldl (fun s x => if x.2 = 0 then s else s.bump e x.1 x.2) s

/-! ### Groups into a tile -/

/-- Change every entry a tile lists, adding up their counts. -/
def Tile.mapEntries (t : Tile) (f : Entry → Entry × Cnt) : Tile × Cnt :=
  let r := t.entries.map fun x => (x.1, f x.2)
  ({ t with entries := r.map fun x => (x.1, x.2.1) }, r.foldl (fun n x => n.add x.2.2) {})

/-- Add counts to a tile's (R90). -/
def Tile.count (t : Tile) (n : Cnt) : Tile :=
  { t with
    satFlag := t.satFlag || decide (0 < n.sat), satCount := satAdd 32 t.satCount n.sat
    underCount := satAdd 32 t.underCount n.under, windowCount := satAdd 32 t.windowCount n.win }

/-- promote() of every entry (R75). -/
def Tile.promote (t : Tile) : Tile × Cnt :=
  let r := t.mapEntries Entry.promote
  (r.1.count r.2, r.2)

/-- The derailleur fence (R88): it promotes a compatibility-mode tile too, whose total the next group takes back into its sum
(DESIGN CHOICE, log entry 68). -/
def Tile.fence (t : Tile) (cls group : Nat) : Tile × Cnt :=
  let r := t.promote
  ({ r.1 with k := 0, cls := cls, group := group, fenceCount := satAdd 32 t.fenceCount 1 }, r.2)

/-- One group's results enter a tile: run by run, then k and the regular promotion, or the promotion that ends a pass
(R75, R77, R79, R80, R108); `draw n` is the draw of entry `n`. In compatibility mode a pass that ends promotes nothing, as R79 says that no
promotion takes place, and takes k to 0, as R108 says; k counts groups modulo 16 there (DESIGN CHOICE, log entry 32). -/
def Tile.enter (t : Tile) (compat passEnd : Bool) (draw : Nat → Nat) (gs : List (Nat × GroupRes)) : Tile × Cnt :=
  let r := gs.foldl (fun (a : Tab Entry × Cnt) g =>
    let en := Tab.get {} a.1 g.1
    let q := if compat then en.enterCompat g.2 (draw g.1) else en.enter g.2
    (Tab.set a.1 g.1 q.1, a.2.add q.2)) (t.entries, ({} : Cnt))
  let t1 := { (t.count r.2) with entries := r.1, groups := t.groups + 1 }
  if !compat && (passEnd || t.k + 1 == 16) then
    let p := t1.promote
    ({ p.1 with k := 0 }, r.2.add p.2)
  else ({ t1 with k := if passEnd then 0 else (t.k + 1) % 16 }, r.2)

end Sys2Proof.Machine
end

