-- ==== Sys2Proof/Machine/Tiles.lean ====
section
/-!
DEFINITION. MATMUL and FUSED: forming groups, groups into tiles, named tiles, and draining a tile through the epilogue
(04 R75 to R99; 07 R134 to R151; 08 R190, R191; 09 R211, R213; 10 R243, R244, R246).
-/

namespace Sys2Proof.Machine

/-! ### Draws -/

/-- The generator inputs of a command (R48). -/
def Cmd.key (c : Cmd) : DrawKey := { seed := c.seed.toNat, sid := c.sid, step := c.step }

/-- The draw of an entry of tile (i, ct) in compatibility mode (R80, R96) (DEDUCED, log entry 32). -/
def View.entryDraw (s : View) (c : Cmd) (x : MM) (i ct c3 n : Nat) : Nat :=
  draw16 c.key (c3 % 2 ^ 32)
    ((64 * i + n / 64) * x.outCols + orElse 0 (s.outCol c.ctx x (64 * ct + n % 64)))

/-! ### The epilogue on a tile -/

/-- An L16 vector element per column; none where the vector is not there (R139, R140). -/
def View.colVec (s : View) (ctx : CtxNo) (a : Nat) (cols : List Nat) : Except XErr (List (Option Nat)) :=
  if a = 0 then .ok (cols.map fun _ => none)
  else eachE (fun n => (s.vread ctx (a + 2 * n) 2).map fun b => some (leNat b)) cols

/-- The scale elements of a tile's columns: SCALE_ADDR, or WEIGHT of the gather list (R140, R191). -/
def View.scaleVec (s : View) (ctx : CtxNo) (x : MM) (cols : List Nat) : Except XErr (List (Option Nat)) :=
  if x.gatherWeight then eachE (fun n => (s.gatherEntry ctx x n).map fun v => some v.2.2) cols
  else s.colVec ctx x.epi.scaleAddr cols

/-- An element of a tile after stage 3: its row, its column, stage 1 and stage 3 values with flags. -/
structure Elem where
  row : Nat
  col : Nat
  one : EVal
  three : EOut
  deriving DecidableEq, Repr

/-- Block scale of OUT_FMT 2 for the values of one block (R149, R281); 0 in any other format. -/
def MM.outScale (x : MM) (sr : ScaleRead) (vals : List Nat) : Int :=
  if x.epi.outFmt ≠ 2 then 0 else if sr.mode = 0 then sr.scale else blockScale sr.scale sr.top vals

/-- The elements of one row of a tile in blocks of 32 columns. -/
def blocks32 {α : Type} (l : List α) : List (List α) := if l.length ≤ 32 then [l] else [l.take 32, l.drop 32]

/-- One row converted: codes with counts, and the block-scale bytes (R149) (DEDUCED, log entry 31). -/
def MM.convertRow (x : MM) (c : Cmd) (sr : ScaleRead) (oc : List (Nat × Nat)) (row : List Elem) :
    List Res × List Int :=
  let bs := (blocks32 row).map fun b => (x.outScale sr (b.map fun e => e.three.v.l16), b)
  (bs.flatMap fun b => b.2.map fun e =>
    let ocol := Tab.get 0 oc e.col
    let draw := if x.epi.outRound = 1 then some (draw16 c.key 0 (e.row * x.outCols + ocol)) else none
    convertNum e.three.v.num x.fmtC b.1 draw, bs.map (·.1))

/-- Store one element of a packed row: elements narrower than a byte replace their bits (R34, R35) (DEDUCED, log entry 31). -/
def State.putElem (s : State) (ctx : CtxNo) (base bits i v : Nat) : Except XErr State :=
  if 8 ≤ bits then s.vwrite ctx (base + i * (bits / 8)) (toLe (bits / 8) v)
  else do
    let off := i * bits % 8
    let b ← s.vread ctx (base + i * bits / 8) 1
    let old := leNat b
    s.vwrite ctx (base + i * bits / 8) (toLe 1 (old - bitsOf old (off + bits - 1) off * 2 ^ off + v % 2 ^ bits * 2 ^ off))

/-- Store elements one by one. -/
def State.putElems (s : State) (ctx : CtxNo) (base bits : Nat) : List (Nat × Nat) → Except XErr State
  | [] => .ok s
  | (i, v) :: r =>
    match s.putElem ctx base bits i v with
    | .ok s' => s'.putElems ctx base bits r
    | .error e => .error e

/-- Store one row of output codes at its columns (R210, R191). -/
def State.putRow (s : State) (ctx : CtxNo) (x : MM) (r c0 : Nat) (oc : List Nat) (codes : List Nat) : Except XErr State :=
  let base := x.c + r * x.ldcB
  let w := x.fmtC.bits
  if Epi.noOut x.epi ∨ x.c = 0 then .ok s
  else if x.scatter ∨ w < 8 then s.putElems ctx base w (oc.zip codes)
  else s.vwrite ctx (base + c0 * (w / 8)) (codes.flatMap fun v => toLe (w / 8) v)

/-- Write a list of (address, bytes), all or none. -/
def State.writeAll (s : State) (ctx : CtxNo) : List (Nat × List Byte) → Except XErr State
  | [] => .ok s
  | (a, b) :: r =>
    match s.vwrite ctx a b with
    | .ok s' => s'.writeAll ctx r
    | .error e => .error e

/-- Write every row of a tile. -/
def State.putRows (s : State) (ctx : CtxNo) (x : MM) (c0 : Nat) (oc : List Nat) : List (Nat × List Nat) →
    Except XErr State
  | [] => .ok s
  | (r, codes) :: rest =>
    match s.putRow ctx x r c0 oc codes with
    | .ok s' => s'.putRows ctx x c0 oc rest
    | .error e => .error e

/-- The records of stages 4 and 5 of a tile, with the counts of their conversions (R144 to R147). -/
def MM.records (x : MM) (i ct : Nat) (rows : List (Nat × List Elem)) : List (Nat × List Byte) × Cnt :=
  let vals (l : List Elem) : List Nat := l.map fun e => e.three.v.l16
  let rs := if Epi.hasRowstat x.epi then rows.map fun r =>
    (x.epi.rowstatAddr + (r.1 * x.nt + ct) * 16, rowRecord (vals r.2) ct) else []
  let tk := if Epi.hasTopk x.epi then rows.map fun r =>
    (x.epi.topkAddr + (r.1 * x.nt + ct) * 72, topkRecord x.epi.topk (vals r.2) ct) else []
  let sq := if Epi.hasSqstat x.epi then
    [(x.epi.sqAddr + (i * x.nt + ct) * 256, sqRecord (rows.map fun r => r.2.map fun e => e.one.l16))] else []
  (rs.map (fun r => (r.1, r.2.1)) ++ tk ++ sq.map fun r => (r.1, r.2.1),
    (rs.map (·.2.2) ++ sq.map (·.2.2)).foldl Cnt.add {})

/-- What draining a tile gives: the state after its writes and report, the output codes by row, and its counts. -/
structure Drained where
  state : State
  codes : List (List Nat)
  cnt : Cnt
  deriving Repr

/-- Drain tile (i, ct) of a stage through its epilogue (R134, R149, R150), with the magnitude at stage 3 in the report also where stage 6 is off (DESIGN
CHOICE, log entry 74); the tile is already promoted and merged, and `w` is
memory as the epilogue reads its vectors. -/
def State.drain (s : State) (w : View) (c : Cmd) (x : MM) (sr : ScaleRead) (i ct : Nat) (tile : Tile) : Except XErr Drained := do
  let cols := x.colsIn ct
  let bias ← w.colVec c.ctx x.epi.biasAddr cols
  let sv ← w.scaleVec c.ctx x cols
  let oc ← eachE (w.outCol c.ctx x) cols
  let rows := (x.rowsIn i).map fun r => (r, (cols.zip (bias.zip sv)).map fun n =>
    let o := stages123 x.epi x.func n.2.1 n.2.2 (Tab.get {} tile.entries (entryNo r n.1)).total
    ({ row := r, col := n.1, one := o.1, three := o.2 } : Elem))
  let conv := rows.map fun r => (r.1, r.2, x.convertRow c sr (cols.zip oc) r.2)
  let recs := x.records i ct rows
  let s1 ← s.putRows c.ctx x (64 * ct) oc (conv.map fun r => (r.1, r.2.2.1.map (·.v)))
  let bsb := if x.epi.outFmt = 2 ∧ !Epi.noOut x.epi then conv.map fun r =>
    (x.epi.bscaleAddr + r.1 * ceilDiv x.n 32 + 2 * ct, r.2.2.2.map fun b => BitVec.ofNat 8 (unsignedOf 8 b)) else []
  let s2 ← s1.writeAll c.ctx (bsb ++ recs.1)
  let noConv := Epi.noOut x.epi
  let sat := (conv.map fun r => ((r.2.1.zip r.2.2.1).map fun e =>
    b2n (e.1.three.sat || (!noConv && decide (0 < e.2.sat)))).sum).sum
  let under := (conv.map fun r => ((r.2.1.zip r.2.2.1).map fun e =>
    b2n (e.1.three.under || (!noConv && decide (0 < e.2.under)))).sum).sum
  let mag := maxMag (rows.flatMap fun r => r.2.map fun e => if e.three.v.l16 = l16NaN then 0 else e.three.v.l16)
  pure { state := s2.scaleReport x.epi.scaleId c.step mag (tile.satCount + sat)
         codes := conv.map fun r => r.2.2.1.map (·.v)
         cnt := { sat := sat + recs.2.sat, under := under + recs.2.under } }

/-! ### MATMUL -/

/-- Add saturations and underflows to a command's. -/
def Cmd.tally (c : Cmd) (n : Cnt) : Cmd := { c with sat := c.sat + n.sat, under := c.under + n.under }

/-- Reduction steps among counts that were skipped as absent or zero activation (R220). -/
def skippedSteps (ns : List (Nat × Nat)) : Nat := ((ns.filter fun x => x.1 == 0x858 || x.1 == 0x860).map (·.2)).sum

/-! #### Where a slot stands -/

/-- A slot stands at the start of an output tile: nothing of it has been formed. -/
def Slot.atStart (v : Slot) : Bool := v.group == 0 && !v.hasFormed && !v.filled

/-- A stage of a FUSED command runs on an engine (R213). -/
def Cmd.stageOn (c : Cmd) (e : Eng) (st : Nat) : Bool := (c.mm st).mask.getLsbD e.val

/-- Output tiles of a stage whose reduction, and whose drain, has ended. -/
def Cmd.formedOf (c : Cmd) (st : Nat) : Nat := Tab.get 0 c.tilesFormed st
def Cmd.drainedOf (c : Cmd) (st : Nat) : Nat := Tab.get 0 c.tilesDrained st

/-- A FUSED stage may begin its `n`-th tile: the column block it reads has been handed over, and the one it writes into is free (R243,
R244). -/
def Cmd.stageOpen (c : Cmd) (st n : Nat) : Bool :=
  let ct := n / (c.mm st).mt
  decide (n < (c.mm st).q)
    && (st == 0 || decide ((ct + 1) * (c.mm (st - 1)).mt ≤ c.drainedOf (st - 1)))
    && (!c.inner st || decide (ct < 2) || decide ((ct - 1) * (c.mm (st + 1)).mt ≤ c.formedOf (st + 1)))

/-- Stage and unit of the next tile that a FUSED command may begin on an engine: that of its last stage first, so that blocks come free
(DEDUCED, log entry 29). -/
def Cmd.fusedNext (c : Cmd) (e : Eng) : Option (Nat × Nat) :=
  (((List.range c.nStages).reverse.filter fun st => c.stageOn e st && c.stageOpen st (c.formedOf st)).head?).map fun st =>
    (st, (c.mm st).fusedUnits.getD (c.formedOf st) 0)

/-- Stage and unit of the tile that takes a slot's next group: none once every reduction of the command has ended there. -/
def Cmd.nextTile (c : Cmd) (e : Eng) (v : Slot) : Option (Nat × Nat) :=
  if c.op = 0x02 then (if v.atStart then c.fusedNext e else some (v.stage, v.unit))
  else if v.unit < v.lastUnit then some (0, v.unit) else none

/-- Every product of the slot's command on its engine has been formed, or it forms no more. -/
def Cmd.productsOver (c : Cmd) (e : Eng) (v : Slot) : Bool :=
  v.stopped || (!v.filled && (if c.op = 0x02 then
      (List.range c.nStages).all fun st => !c.stageOn e st || decide ((c.mm st).q ≤ c.formedOf st)
    else decide (v.lastUnit ≤ v.unit)))

/-- The units of a stage on an engine in their order, and the place of the one that is filled. -/
def Cmd.stageUnits (c : Cmd) (e : Eng) (st : Nat) : List Nat :=
  if c.op = 0x02 then (c.mm st).fusedUnits else unitRange (c.slotUnits e).1 (c.slotUnits e).2
def Cmd.stageAt (c : Cmd) (e : Eng) (v : Slot) (st : Nat) : Nat :=
  if c.op = 0x02 then c.formedOf st else v.unit - (c.slotUnits e).1

/-- The units of a command are all done on every engine: its work has ended. -/
def State.finishUnits (s : State) (p : Port) (t : Tag) : State :=
  let c := s.cmd p t
  if c.phase = .running ∧ (s.cmdSlots p t).all (fun x => c.productsOver x.1 x.2.2 && !x.2.2.draining) then s.doneCmd p t else s

/-! #### Operands in their slots -/

/-- A role whose bytes follow the reduction steps of a unit. -/
def Role.stepped (r : Role) : Bool := [Role.a, .b, .aScale, .bScale, .mask].contains r

/-- The step up to which a unit's next group needs its operands, the first index whose data the slots still hold for a pass, and the first step that
some pass still needs (R107, R108, R172): none once every group of the unit is formed. The chunk of an FP32 split goes into the piece workspace of R257 as it lands, and
every pass finds it there (R108) (DEDUCED, log entry 24). -/
def MM.nextStep (x : MM) (v : Slot) (u : Nat) : Option (Nat × Nat × Nat) :=
  let j := x.unitJ u
  let n := if v.hasFormed then v.group + 1 else v.group
  if v.filled ∨ x.partGroups j ≤ n then none
  else
    let a := x.groupAt j n
    let first := x.groupLo j + 16 * (n / (16 * x.passes))
    let last := max first (min (first + 16) (x.groupHi j) - 1)
    some ((if a.pass = 0 then a.g else last) * x.g / 64, if x.passes = 1 then a.g * x.g else 64 * (last * x.g / 64 + 1),
      (if a.pass + 1 = x.passes then a.g else first) * x.g / 64)

/-- Bytes of a role over the steps of unit `u` up to and without `t`. -/
def State.bytesTo (s : State) (c : Cmd) (st : Nat) (r : Role) (u t : Nat) : Nat :=
  segBytes (s.stageSegs c st r u (((c.mm st).stepsIn ((c.mm st).unitJ u)).filter fun k => decide (k < t))).flatten

/-- Bytes of a role over the indices of unit `u` that lie before the run of 16 with index `k`; whole steps, but for the two operands (R229). -/
def State.bytesUpTo (s : State) (c : Cmd) (st : Nat) (r : Role) (u k : Nat) : Nat :=
  s.bytesTo c st r u (k / 64)
    + (if r = .a ∨ r = .b then segBytes ((s.stageSegs c st r u [k / 64]).take (k % 64 / 16)).flatten else 0)

/-- Bytes of a role over the first `n` units of an engine. -/
def State.bytesBefore (s : State) (c : Cmd) (e : Eng) (st : Nat) (r : Role) (rf : List Nat) (n : Nat) : Nat :=
  segBytes (s.unitsSegs c st r rf none 0 ((c.stageUnits e st).take n)).flatten

/-- The unit at place `n` uses the block that the unit before it used, kept in the stream's slots (R231). -/
def State.keptAt (s : State) (c : Cmd) (e : Eng) (st : Nat) (r : Role) (rf : List Nat) (n : Nat) : Bool :=
  let us := c.stageUnits e st
  match us[n]?, (if n = 0 then none else us[n - 1]?) with
  | some u, some v => s.keeps c st r v u && !rf.contains n
  | _, _ => false

/-- Bytes of a read stream that must be in its slots before the slot's next group can be formed (R229, R247). -/
def State.needed (s : State) (e : Eng) (v : Slot) (x : Strm) : Nat :=
  let c := s.cmd v.port v.tag
  let st := x.role / 16
  let r := Role.all.getD (x.role % 16) .a
  let n := c.stageAt e v st
  let before := s.bytesBefore c e st r x.refetch n
  match c.nextTile e v with
  | none => before
  | some (st', u) =>
    if st' ≠ st ∨ s.keptAt c e st r x.refetch n then before
    else
      match (c.mm st).nextStep v u with
      | none => if r.stepped then before + s.unitBytes c st r u else before
      | some (t, _) =>
        if r.stepped then before + s.bytesTo c st r u (t + 1)
        else if r = .gather then before + s.unitBytes c st r u
        else before

/-- The place, down from `n`, of the unit that fetched the block which the unit at `n` still uses. -/
def State.keptFrom (s : State) (c : Cmd) (e : Eng) (st : Nat) (r : Role) (rf : List Nat) : Nat → Nat
  | 0 => 0
  | n + 1 => if s.keptAt c e st r rf (n + 1) then s.keptFrom c e st r rf n else n + 1

/-- Bytes of a read stream of a stage that its slots need hold no more, where no block is kept for a later unit if `drop` is set; with `all` only those
that no pass of the chunk at hand reads again (R229, R231): between the passes of an FP32 split the chunk lies in the piece workspace of
R257 (DEDUCED, log entry 24). -/
def State.used (s : State) (e : Eng) (v : Slot) (x : Strm) (drop all : Bool) : Nat :=
  let c := s.cmd v.port v.tag
  let st := x.role / 16
  let r := Role.all.getD (x.role % 16) .a
  let n := c.stageAt e v st
  let rf := x.refetch
  if (c.stageUnits e st).length ≤ n ∧ !v.draining ∨ c.phase ≠ .running then x.length
  else if !r.stepped then
    -- what a drain reads is released with it
    s.bytesBefore c e st r rf (if v.draining ∧ v.drainStage = st then n - 1 else n)
  else
    let start := s.bytesBefore c e st r rf (s.keptFrom c e st r rf n)
    if !drop && s.keptAt c e st r rf (n + 1) then start
    else
      match c.nextTile e v with
      | some (st', u) =>
        if st' ≠ st then s.bytesBefore c e st r rf n
        else
          start + (match (c.mm st).nextStep v u with
            | some t => if all then s.bytesTo c st r u t.2.2 else s.bytesUpTo c st r u t.2.1
            | none => s.unitBytes c st r u)
      | none => s.bytesBefore c e st r rf n

/-- The operands of a slot's next step lie in its slots (R15, R247). -/
def State.operandsIn (s : State) (e : Eng) (v : Slot) : Bool :=
  (List.finRange 16).all fun i =>
    let x := s.strm e i
    x.state == .idle || x.port != v.port || x.tag != v.tag || !x.isRead || decide (s.needed e v x ≤ s.landedTo x)

/-! #### Groups -/

/-- A serial-path slot stands between steps of 16 indices; any other stands between groups (R131, R248). -/
def State.betweenSteps (s : State) (v : Slot) : Bool :=
  let x := (s.cmd v.port v.tag).mm v.stage
  !v.hasFormed && (x.prec != 5 || (v.group * x.g) % 16 == 0)

/-- The array of an engine may take a group of a slot's command: it is running, neither parked nor stopped, and the array
is its own or free. A quiesce stops it at a group boundary, or at a step boundary of the serial path. A new tile is not begun on an engine that is held or for a command that is to stop (R16, R224, R246, R247,
R334, R361, R404). -/
def State.arrayFree (s : State) (e : Eng) (k : SlotNo) : Bool :=
  let v := s.slot e k
  let g := s.eng e
  (v.opcode == 0x01 || v.opcode == 0x02) && v.state != .free && v.state != .parked && v.state != .cancelling && !v.stopped
    && (s.cmd v.port v.tag).phase == .running && (g.head.isNone || g.head == some k) && !s.isolated e && !s.inReset e
    && !(s.part (partOf e)).window && (!s.betweenSteps v || !s.dbg.quiesce.getLsbD e.val) && (!v.atStart || (s.mayRun e && !v.stopping))

/-- A named command has its tile; an AUTO one needs none (R82, R85). A command over several engines has reached its tile on every one, and
so forms no product where one of them turns it away (R87, R89). -/
def State.hasTile (s : State) (e : Eng) (k : SlotNo) : Bool :=
  let v := s.slot e k
  (s.accOf v).isNone || (s.fills e k && (s.cmdSlots v.port v.tag).all fun x =>
    x.2.2.pass != .none || x.2.2.begun || decide (x.2.2.lastUnit ≤ x.2.2.unit))

/-- A drain of a slot's command is in progress on an engine: it has formed its last product there, and its record is still to come
(R246) (DEDUCED, log entry 25). -/
def State.drainingOn (s : State) (e : Eng) (k : SlotNo) : Bool :=
  let v := s.slot e k
  v.draining || v.filled || (v.begun && (s.cmd v.port v.tag).productsOver e v)

/-- An engine that a pre-emption has stopped at an output-tile boundary, with no drain in progress but one that waits for the command ahead of
its own at a named tile (R87, R361) (DEDUCED, log entry 42). -/
def State.atBoundary (s : State) (e : Eng) : Bool :=
  (s.slotsOf e).all fun v =>
    let waits := v.2.draining && s.joinWaits v.2.port v.2.tag
    (!v.2.draining || waits) && (!v.2.filled || waits)
      && ((v.2.opcode != 1 && v.2.opcode != 2) || v.2.group == 0 && !v.2.hasFormed || v.2.filled || v.2.state == .parked)

/-- A slot's command has begun on the engine's vector unit. -/
def State.onVector (s : State) (v : Slot) : Bool := v.vec && (s.cmd v.port v.tag).phase == .running

/-- Another command's drain is in progress on the engine while the slot's has formed no product there; one that has joined the commands
ahead of it at its named tile waits for none of theirs (R86, R246). -/
def State.drainBlocks (s : State) (e : Eng) (k : SlotNo) : Bool :=
  let v := s.slot e k
  !v.begun && (s.slotsOf e).any fun w =>
    w.1 != k && s.drainingOn e w.1 && !(v.joinAfter.isSome && s.accOf v == s.accOf w.2)

/-- A tile as a command starts to fill it from zero (R70, R90). -/
def freshTile (x : MM) (ctx : CtxNo) (p : Port) (t : Tag) : Tile :=
  { state := .busy, cls := x.cls, owner := ctx, group := x.g, mode := x.mode, lastPort := p, lastTag := t }

/-- The array is free for another command once the slot's has no product left to form on the engine. -/
def State.leaveArray (s : State) (e : Eng) (k : SlotNo) : State :=
  let v := s.slot e k
  if (s.cmd v.port v.tag).productsOver e v then s.updEng e fun g => { g with head := if g.head = some k then none else g.head }
  else s

/-- A reduction of the slot's has ended: its next unit follows. -/
def State.unitFormed (s : State) (e : Eng) (k : SlotNo) : State :=
  let v := s.slot e k
  (s.updSlot e k fun w => { w with unit := if v.opcode = 0x02 then w.unit else w.unit + 1, group := 0, filled := false }).updCmd v.port v.tag
    fun c => if c.op = 0x02 then { c with tilesFormed := Tab.upd 0 c.tilesFormed v.stage (· + 1) } else c

/-- The slot's tile begins its drain; an AUTO command goes on with its other tile meanwhile (R82, R84). -/
def State.startDrain (s : State) (e : Eng) (k : SlotNo) : State :=
  let v := s.slot e k
  let s1 := s.updTile e k fun t => { t with state := .draining }
  let s2 := s1.updSlot e k fun w =>
    { w with
      draining := true, drainStage := v.stage, drainUnit := v.unit
      drainTile := if (s.accOf v).isNone then w.tile else {}, tile := if (s.accOf v).isNone then {} else w.tile }
  let s3 := (s2.unitFormed e k).leaveArray e k
  s3.updSlot e k fun w => { w with state := if (s3.cmd v.port v.tag).productsOver e w then .draining else w.state }

/-- The reduction of the slot's unit has ended: its tile goes to the drain, waits for the drain before it (R84), or stays for the HOLD
(R78). -/
def State.endReduction (s : State) (e : Eng) (k : SlotNo) : State :=
  let v := s.slot e k
  let x := (s.cmd v.port v.tag).mm v.stage
  if x.accSel != 0 && x.holds then (s.unitFormed e k).leaveArray e k
  else if v.draining then s.updSlot e k fun v => { v with filled := true }
  else s.startDrain e k

/-- Where the columns of B of a stage come from. -/
def Cmd.srcOf (c : Cmd) (st ct : Nat) : BSrc :=
  if c.op = 0x02 ∧ st ≠ 0 then some (Tab.get [] c.blocks (2 * (st - 1) + ct % 2)) else none

/-- The filling of the table banks that holds group `m` of the unit a stage has come to on an engine, counted since the command's first
index (R125). -/
def Cmd.bankAt (c : Cmd) (e : Eng) (v : Slot) (st m : Nat) : Nat :=
  let x := c.mm st
  (((c.stageUnits e st).take (c.stageAt e v st)).map fun u => x.banksOf (x.unitJ u)).sum + m * x.g / x.bankIndices

/-- The table banks serve the serial-path stage that forms products: tables of another are gone, and the builder begins at the step
boundary that this one has come to (R122, R125, R131). -/
def State.claimBanks (s : State) (e : Eng) (c : Cmd) (v : Slot) (st u : Nat) : State :=
  let x := c.mm st
  let mine (b : Builder) : Bool := b.port == v.port && b.tag == v.tag && b.stage == st
  if x.prec ≠ 5 ∨ (s.eng e).builder.any mine then s
  else s.updEng e fun g => { g with
    banks := []
    builder := some { port := v.port, tag := v.tag, stage := st, next := c.bankAt e v st v.group, lo := x.partK0 (x.unitJ u) + v.group * x.g / 16 * 16 } }

/-- The serial path's progress in a stage: from the start again where its banks have been lost (R125, R131). -/
def State.lanesOf (s : State) (e : Eng) (v : Slot) (st : Nat) : Lanes :=
  if (s.eng e).builder.any fun b => b.port == v.port && b.tag == v.tag && b.stage == st then Tab.get {} v.lanes st else {}

/-- The array may form a group of a slot's command: it is free for it, no drain is in the way, the operands are in their slots, and a tile
takes the group (R16, R246, R247). -/
def State.canForm (s : State) (e : Eng) (k : SlotNo) : Bool :=
  let v := s.slot e k
  s.arrayFree e k && s.hasTile e k && !v.hasFormed && !v.filled && !s.drainBlocks e k && s.operandsIn e v
    && ((s.cmd v.port v.tag).nextTile e v).isSome

/-- A slot's command forms the next group of its tile; a new AUTO tile starts from zero (R16, R211, R243). -/
def State.formGroup (s : State) (e : Eng) (k : SlotNo) : State :=
  let v := s.slot e k
  let c := s.cmd v.port v.tag
  if !s.canForm e k then s
  else
    match c.nextTile e v with
    | none => s
    | some (st, u) =>
      let x := c.mm st
      let s1 := (if (s.tileOf e k).state = .free then s.updTile e k fun _ => freshTile x c.ctx v.port v.tag else s).updSlot
        e k fun v => { v with state := .head, begun := true, stage := st, unit := u }
      let s2 := s1.updEng e fun g => { g with head := some k }
      let j := x.unitJ u
      if x.partGroups j ≤ v.group then s2.endReduction e k
      else
        let a := x.groupAt j v.group
        let ct := x.unitC u
        let w := s.asLanded e v
        match w.groupResults c.ctx x (c.srcOf st ct) (x.unitI u) ct a.g a.pass,
            w.groupCounts c.ctx x (c.srcOf st ct) (x.unitI u) ct j a (s.lanesOf e v st) with
        | .ok gs, .ok ns =>
          (((s2.updSlot e k fun v => { v with
            formed := gs, hasFormed := true, lanes := if x.prec = 5 then Tab.set v.lanes st ns.2 else v.lanes }).bumps e ns.1).updCmd
              v.port v.tag fun c => { c with aux1 := c.aux1 + skippedSteps ns.1 }).claimBanks e c v st u
        | _, _ => s

/-- MATMUL (R211): the slot's command forms the next group of its unit. -/
def execMatmul (e : Eng) (k : SlotNo) (s : State) : Out :=
  .next (if (s.slot e k).opcode = 0x01 then s.formGroup e k else s)

/-- FUSED (R213, R243, R244): the command forms the next group of a tile on the lowest of its engines that can (DEDUCED, log entry 29). -/
def execFused (p : Port) (t : Tag) (s : State) : Out :=
  .next (
    if (s.cmd p t).op ≠ 0x02 then s
    else
      match (s.cmdSlots p t).find? fun x => s.canForm x.1 x.2.1 with
      | some x => s.formGroup x.1 x.2.1
      | none => s)

/-- The command that joined the slot's takes the tile over, with a fence where its class or group size differs (R86,
R88). -/
def State.passOn (s : State) (e : Eng) (k : SlotNo) : State :=
  let v := s.slot e k
  match s.accOf v, (s.slotsOf e).find? fun w =>
      w.2.pass == .joined && w.2.joinAfter == some (v.port, v.tag) && w.2.state != .cancelling && !w.2.stopped with
  | some a, some w =>
    let c := s.cmd w.2.port w.2.tag
    let x := c.mm 0
    let t := s.named e a
    let fen := t.cls != x.cls || t.group != x.g
    let f := if fen then t.fence x.cls x.g else (t, {})
    (((s.updNamed e a fun _ => { f.1 with mode := x.mode, lastPort := w.2.port, lastTag := w.2.tag }).updCmd w.2.port w.2.tag
      fun c => { c.tally f.2 with aux0 := c.aux0 + b2n fen }).updSlot e w.1 fun w =>
        { w with pass := .filling, tile := { t with state := .held, owner := c.ctx } }).updSlot e k fun v => { v with pass := .none }
  | _, _ => s

/-- GROUP_ENTRY (R75, R77 to R80, R108): the formed group enters every run. -/
def execGroupEntry (e : Eng) (k : SlotNo) (s : State) : Out :=
  .next (
    let v := s.slot e k
    let c := s.cmd v.port v.tag
    let x := c.mm v.stage
    if !s.arrayFree e k || !v.hasFormed then s
    else
      let j := x.unitJ v.unit
      let a := x.groupAt j v.group
      let r := (s.tileOf e k).enter (x.mode == 2) a.passEnd
        (fun n => (s.asLanded e v).entryDraw c x (x.unitI v.unit) (x.unitC v.unit) (2 ^ 31 + a.seq) n) v.formed
      let s1 := ((s.updTile e k fun _ => r.1).updCmd v.port v.tag fun c => c.tally r.2).updSlot e k fun v =>
        { v with formed := [], hasFormed := false, group := v.group + 1 }
      if v.group + 1 < x.partGroups j then s1
      else
        let s2 := s1.endReduction e k
        if x.accSel != 0 && x.holds then (s2.passOn e k).finishUnits v.port v.tag else s2)

/-! ### Draining -/

/-- Parts of a tile merged into the tile of part 0 in the given order (R93, R96, R211), whose saturations the report then counts with those of the
merges (R90; DESIGN CHOICE, log entry 71). -/
def View.mergeParts (s : View) (c : Cmd) (x : MM) (i ct : Nat) (base : Tile) (ps : List (Nat × Tile)) : Tile × Cnt :=
  ps.foldl (fun a p =>
    let r := p.2.entries.foldl (fun (b : Tab Entry × Cnt) en =>
      let old := Tab.get {} b.1 en.1
      let q := if x.mode = 2 then
          old.mergeCompat en.2.total (s.entryDraw c x i ct (0xC0000000 + x.unitJ p.1) en.1)
        else old.merge en.2.total
      (Tab.set b.1 en.1 q.1, b.2.add q.2)) (a.1.entries, ({} : Cnt))
    ({ (a.1.count r.2) with entries := r.1 }, a.2.add r.2)) (base, {})

/-- The parts of tile `q` that have arrived: the first is part 0; the others in part order, or as they came in fast mode (DEDUCED, log entry 62). -/
def MM.partsOf (x : MM) (q : Nat) (ps : List (Nat × Tile)) : Option (Tile × List (Nat × Tile)) :=
  let mine := ps.filter fun p => p.1 / 2 ^ x.ksplit == q
  match mine.find? fun p => x.unitJ p.1 == 0 with
  | none => none
  | some p0 =>
    if mine.length < 2 ^ x.ksplit then none
    else
      let rest := mine.filter fun p => x.unitJ p.1 != 0
      some (p0.2, if x.mode = 1 then rest
        else (List.range (2 ^ x.ksplit)).filterMap fun j => rest.find? fun p => x.unitJ p.1 == j)

/-- The columns of a hand-over block with the rows of one more output tile below them (R244). -/
def addRows (cols : List (List Nat)) (rows : List (List Nat)) : List (List Nat) :=
  (List.range ((rows.headD []).length)).map fun j => cols.getD j [] ++ rows.map fun r => r.getD j 0

/-- The drain of a tile, once its parts are there; an inner stage's output joins its column block. -/
def State.drainUnit (s : State) (w : View) (c : Cmd) (st u : Nat) (tile : Tile) (cnt : Cnt) :
    Except XErr (State × Cmd) := do
  let x := c.mm st
  let c1 := c.tally cnt
  let (full, parts, c2) ← (if x.ksplit = 0 then pure (some tile, [], c1)
    else
      let ps := c.parts ++ [(u, tile)]
      match x.partsOf (u / 2 ^ x.ksplit) ps with
      | none => pure (none, ps, c1)
      | some (b, rest) =>
        let m := w.mergeParts c x (x.unitI u) (x.unitC u) b rest
        pure (some m.1, ps.filter fun p => p.1 / 2 ^ x.ksplit != u / 2 ^ x.ksplit, c1.tally m.2))
  match full with
  | none => pure (s, { c2 with parts := parts })
  | some t => do
    let d ← s.drain w c x (c.scales.getD st {}) (x.unitI u) (x.unitC u) t
    let key := 2 * st + x.unitC u % 2
    let old := if x.unitI u = 0 then [] else Tab.get [] c.blocks key
    pure (d.state, { (c2.tally d.cnt) with
      parts := parts
      blocks := if c.inner st then Tab.set c.blocks key (addRows old d.codes) else c.blocks
      tilesDrained := if c.op = 0x02 then Tab.upd 0 c.tilesDrained st (· + 1) else c.tilesDrained })

/-- The tile that a slot's drain reads. -/
def State.drainTileOf (s : State) (e : Eng) (k : SlotNo) : Tile :=
  match s.accOf (s.slot e k) with
  | some a => s.named e a
  | none => (s.slot e k).drainTile

/-- A slot's drain is over: its tile is free, and one that waits begins its own (R78, R84). -/
def State.endDrain (s : State) (e : Eng) (k : SlotNo) : State :=
  let v := s.slot e k
  let s1 := (match s.accOf v with | some a => s.updNamed e a fun _ => {} | none => s).updSlot e k fun w =>
    { w with draining := false, drainTile := {}, sent := 0, pass := .none }
  if v.filled then s1.startDrain e k else s1

/-- Bytes of a write stream of a stage over the output tiles that have drained, and over the one that drains now as well if `now` is set. -/
def State.drainedBytes (s : State) (e : Eng) (v : Slot) (x : Strm) (now : Bool) : Nat :=
  let c := s.cmd v.port v.tag
  let st := x.role / 16
  let here := b2n (now && v.draining && v.drainStage == st && !s.joinWaits v.port v.tag)
  s.bytesBefore c e st (Role.all.getD (x.role % 16) .a) []
    (if c.op = 0x02 then c.drainedOf st + here
      else (if v.draining then v.drainUnit else v.unit) - (c.slotUnits e).1 + here)

/-- Sections of a CHECKPOINT that are complete (R347): those written and the one that waits to be. -/
def Cmd.secsReady (c : Cmd) : Nat :=
  match c.snap.tensors[c.progress]? with
  | some t => c.progress + b2n (decide (t.2 ≤ c.snap.cur.length))
  | none => c.progress + 1

/-- Bytes of a snapshot that a CHECKPOINT has for its write stream on an engine: the sections that the engine carries, and the header once all are
acknowledged (R349); for a peer only what has been set down to be sent. -/
def Cmd.snapProduced (c : Cmd) (e : Eng) : Nat :=
  if c.atPeer then (Tab.get [] c.snap.out e.val).length
  else (c.carried e (c.secSizes.take c.secsReady)).sum + (if c.snapSecs < c.progress ∧ c.carries e 0 then 4096 else 0)

/-- Bytes of the tensors that a RESTORE has for its write stream on an engine: those of the sections done, and of the one at hand. -/
def Cmd.loadedTensors (c : Cmd) (e : Eng) : Nat :=
  (((c.carried e (c.secsNamed.take (c.progress + 1))).filter fun x => x.1 == 1).map (·.2.2.2.1)).sum


/-- Bytes that a write stream's command has for it: those of the output tiles drained or in their drain, of the rows done or at hand, or all of
them once its work has ended (DEDUCED, log entry 25). -/
def State.produced (s : State) (e : Eng) (x : Strm) : Nat :=
  let c := s.cmd x.port x.tag
  let v := s.slot e (Fin.ofNat 4 x.task)
  if c.phase ≠ .running then x.length
  else
    match c.op with
    | 0x01 => s.drainedBytes e v x true
    | 0x02 => s.drainedBytes e v x true
    | 0x07 => if s.inputsIn e x.port x.tag fun _ => 2 ^ 64 then x.length else 0
    | 0x09 => x.length
    | 0x0A => x.length
    | 0x0D => c.snapProduced e
    | 0x0E => c.loadedTensors e
    | _ =>
      if s.inputsIn e x.port x.tag (c.rowBytes e v.rows) then c.rowBytes e v.rows x.role
      else if v.rows = 0 then 0
      else c.rowBytes e (v.rows - 1) x.role

/-- A write stream of the stage that drains has no room for the tile's output: results still wait in its slots, and the tile's do not fit
beside them (R229, R235) (DEDUCED, log entry 25). -/
def State.lacksRoom (s : State) (e : Eng) (v : Slot) (x : Strm) : Bool :=
  let c := s.cmd v.port v.tag
  let done := s.drainedBytes e v x false
  x.state != .idle && x.port == v.port && x.tag == v.tag && !x.isRead && x.role / 16 == v.drainStage && decide (x.position < done)
    && decide (x.cap + x.furtherBytes
      < done - x.position + s.unitBytes c v.drainStage (Role.all.getD (x.role % 16) .a) v.drainUnit)

/-- Every write stream of a stage has room for the tile that drains. -/
def State.drainRoom (s : State) (e : Eng) (v : Slot) : Bool := (List.finRange 16).all fun i => !s.lacksRoom e v (s.strm e i)

/-- Write streams without room for the tile that drains take further slots (R232). -/
def State.drainSlots (s : State) (e : Eng) (v : Slot) : State :=
  (List.finRange 16).foldl (fun s i => if s.lacksRoom e v (s.strm e i) then s.takeFurther e i else s) s

/-- Bytes of a part's partial totals that an engine still has to send to the engine of part 0 (R211): none where it is the same. -/
def State.partLeft (s : State) (e : Eng) (v : Slot) : Nat :=
  let c := s.cmd v.port v.tag
  let x := c.mm 0
  let u := v.drainUnit
  let first := u / 2 ^ x.ksplit * 2 ^ x.ksplit
  if c.op ≠ 0x01 ∨ x.ksplit = 0 ∨ x.unitJ u = 0 ∨ decide ((c.slotUnits e).1 ≤ first ∧ first < (c.slotUnits e).2) then 0
  else 8 * (x.rowsIn (x.unitI u)).length * (x.colsIn (x.unitC u)).length - v.sent

/-- The vectors and the gather entries that the epilogue of a slot's drain reads have landed (R250, R257). -/
def State.drainIn (s : State) (e : Eng) (v : Slot) : Bool :=
  let c := s.cmd v.port v.tag
  let n := if c.op = 0x02 then c.drainedOf v.drainStage else v.drainUnit - (c.slotUnits e).1
  (List.finRange 16).all fun i =>
    let x := s.strm e i
    let r := Role.all.getD (x.role % 16) .a
    x.state == .idle || x.port != v.port || x.tag != v.tag || !x.isRead || x.role / 16 != v.drainStage || r.stepped
      || decide (min x.length (s.bytesBefore c e v.drainStage r x.refetch (n + 1)) ≤ s.landedTo x)

/-- TILE_DRAIN (R78, R87, R93, R134, R211): the final promotion, the merge of parts, and the epilogue; partial totals for another engine are
sent 4 KiB at a time first, metered against the sender's buckets. A command that has joined another drains once that one has completed. -/
def execTileDrain (e : Eng) (k : SlotNo) (s : State) : Out :=
  .next (
    let v := s.slot e k
    let c := s.cmd v.port v.tag
    let q := partOf e
    if !v.draining ∨ c.phase = .free ∨ s.inReset e ∨ s.isolated e ∨ s.joinWaits v.port v.tag then s
    else if 0 < s.partLeft e v then
      let b := min 4096 (s.partLeft e v)
      if (s.part q).hasTokens 9 b then (s.updPart q fun a => a.take 9 b).updSlot e k fun v => { v with sent := v.sent + b } else s
    else if !s.drainIn e v then s
    else if !s.drainRoom e v then s.drainSlots e v
    else
      let p := (s.drainTileOf e k).promote
      s.orWait ((s.drainUnit (s.asLanded e v) c v.drainStage v.drainUnit p.1 p.2).map fun r =>
        ((r.1.updCmd v.port v.tag fun _ => r.2).endDrain e k).finishUnits v.port v.tag))

/-! ### Named tiles -/

/-- The slot of the last command of a chain at a named tile of an engine (R86). -/
def State.chainTail (s : State) (e : Eng) (a : Nat) : Option Slot :=
  let vs := (s.slotsOf e).filter fun w => s.accOf w.2 == some a && w.2.pass != .none && w.2.state != .cancelling
  (vs.find? fun w => !vs.any fun y => y.2.joinAfter == some (w.2.port, w.2.tag) && y.2.pass == .joined).map (·.2)

/-- A command takes a named tile: new from zero, or continued with a fence where class or group size differs (R87, R88). -/
def State.takeTile (s : State) (e : Eng) (k : SlotNo) (a : Nat) (cont : Bool) : State :=
  let v := s.slot e k
  let c := s.cmd v.port v.tag
  let x := c.mm 0
  let t := s.named e a
  let fen := cont && (t.cls != x.cls || t.group != x.g)
  let r := if !cont then (freshTile x c.ctx v.port v.tag, ({} : Cnt))
    else
      let f := if fen then t.fence x.cls x.g else (t, {})
      ({ f.1 with state := .busy, mode := x.mode, lastPort := v.port, lastTag := v.tag }, f.2)
  ((s.updNamed e a fun _ => r.1).updCmd v.port v.tag fun c => { c.tally r.2 with aux0 := c.aux0 + b2n fen }).updSlot e k fun v =>
    { v with pass := .filling, tile := t }

/-- A named command is turned away at one of its tiles: those that it has reached on its other engines are as it found them (R87, R89). -/
def State.turnAway (s : State) (p : Port) (t : Tag) (st : Nat) : State :=
  let s1 := (s.cmdSlots p t).foldl (fun s x =>
    match s.accOf x.2.2 with
    | some a =>
      if x.2.2.pass == .filling && !x.2.2.begun then
        (s.updNamed x.1 a fun _ => x.2.2.tile).updSlot x.1 x.2.1 fun v => { v with pass := .none, tile := {} }
      else s
    | none => s) s
  (s1.updCmd p t fun c => { c with aux0 := 0, sat := 0, under := 0 }).abortCmd p t st

/-- NAMED_TILE_ARRIVAL (R85 to R89). -/
def execNamedTileArrival (e : Eng) (k : SlotNo) (s : State) : Out :=
  .next (
    let v := s.slot e k
    let c := s.cmd v.port v.tag
    let x := c.mm 0
    match s.accOf v with
    | none => s
    | some a =>
      if c.phase ≠ .running ∨ v.pass ≠ .none ∨ v.lastUnit ≤ v.unit ∨ v.state = .cancelling then s
      else
        let t := s.named e a
        match t.state with
        | .draining => s
        | .free => s.takeTile e k a false
        | .held =>
          if t.owner ≠ c.ctx then s.turnAway v.port v.tag stDenied
          else if !x.continues && !x.joins then s.takeTile e k a false
          else if (t.cls == 5) != (x.cls == 5) then s.turnAway v.port v.tag stAccClass
          else s.takeTile e k a true
        | .busy =>
          match s.chainTail e a with
          | none => s
          | some w =>
            let y := (s.cmd w.port w.tag).mm 0
            if w.ctx ≠ c.ctx ∨ !x.joins then s
            else if !y.holds then s.turnAway v.port v.tag stBadDescriptor
            else if (y.cls == 5) != (x.cls == 5) then s.turnAway v.port v.tag stAccClass
            else
              let s1 := s.updSlot e k fun v => { v with pass := .joined, joinAfter := some (w.port, w.tag) }
              -- the command ahead may already have entered its last group
              if w.lastUnit ≤ w.unit then
                match (s1.slotsOf e).find? fun z => z.2.tag == w.tag && z.2.port == w.port with
                | some z => s1.passOn e z.1
                | none => s1
              else s1)

end Sys2Proof.Machine
end

