-- ==== Sys2Proof/Machine/Vector.lean ====
section
/-!
DEFINITION. The commands of the vector unit and MOVE: VECTOR, CONVERT, SOLVE, ROUTE, UPDATE with its set-group
(07 R152 to R165; 08 R182 to R193; 09 R213, R214; 11 R261 to R276).
-/

namespace Sys2Proof.Machine

/-- A read of `n` bytes as a number. -/
def State.readNat (s : State) (ctx : CtxNo) (a n : Nat) : Except XErr Nat :=
  match s.vread ctx a n with
  | .ok b => .ok (leNat b)
  | .error e => .error e

/-- Fold a fallible change of the state over a list. -/
def foldE {α σ : Type} (f : σ → α → Except XErr σ) (s : σ) : List α → Except XErr σ
  | [] => .ok s
  | a :: as =>
    match f s a with
    | .ok s' => foldE f s' as
    | .error e => .error e

/-- Do the next row of a row-by-row command on the engine that can, by `f` of memory as that engine sees it and of the row's number. -/
def State.doRow (s : State) (p : Port) (t : Tag) (op : Nat) (f : View → Cmd → Nat → Except XErr State) : State :=
  match s.rowSlot p t op with
  | none => s
  | some x =>
    let c := s.cmd p t
    s.orWait ((f (s.asLanded x.1 x.2.2) c (c.rowAt x.1 x.2.2.rows)).map fun s1 => s1.rowDone p t x.1 x.2.1)

/-- A command with no row has nothing to do. -/
def State.noRows (s : State) (p : Port) (t : Tag) (op : Nat) : Bool :=
  s.running p t op && (s.cmdSlots p t).all fun x => (s.cmd p t).rowCount x.1 == 0

/-! ### MOVE -/

/-- The bytes of a MOVE's next row (R213). -/
def View.moveRow (s : View) (c : Cmd) (r : Nat) : Except XErr (List Byte) :=
  if bitOf (c.f 104 1) 0 then .ok ((List.range (c.f 72 4)).map fun b => c.desc.getD (56 + b % 8) 0)
  else s.vread c.ctx (c.f 56 8 + r * c.f 80 8) (c.f 72 4)

/-- MOVE (R213): one row. -/
def execMove (p : Port) (t : Tag) (s : State) : Out :=
  .next (s.doRow p t 0x03 fun w c r => do
    let b ← w.moveRow c r
    s.vwrite c.ctx (c.f 64 8 + r * c.f 88 8) b)

/-! ### CONVERT -/

/-- Block scale of a block of an L8 side: the byte of an array, 0 at address 0 (R213). -/
def View.convScale (s : View) (ctx : CtxNo) (arr r nb k : Nat) : Except XErr Int := s.scaleByte ctx arr (r * nb + k)

/-- One block of 32 columns of a CONVERT row: codes with counts, the destination scale, and the L16 codes of its values
(R149, R160, R281). -/
def View.convBlock (s : View) (c : Cmd) (r k : Nat) : Except XErr (List Res × Int × List Nat) := do
  let cols := c.f 88 4
  let nb := ceilDiv cols 32
  let n := min 32 (cols - 32 * k)
  let es ← s.readElems c.ctx (c.f 56 8 + r * strideOf c.from cols (c.f 96 4)) c.from.bits (32 * k) n
  let sb ← if c.from = .l8 then s.convScale c.ctx (c.f 72 8) r nb k else pure 0
  let vals := es.map fun v => decodeFmt c.from v sb
  let l16 := vals.map fun v => (convertNum v .l16 0 none).v
  let mags := l16.map fun v => if v = l16NaN then 0 else v
  let sr := c.scales.getD 0 {}
  let db ← if c.to ≠ .l8 then pure 0
    else if c.f 54 2 = 0xFFFF then s.convScale c.ctx (c.f 80 8) r nb k
    else pure (if sr.mode = 0 then sr.scale else blockScale sr.scale sr.top mags)
  let res := (vals.zipIdx).map fun v =>
    convertNum v.1 c.to db (if c.f 52 1 = 1 then some (draw16 c.key 0 (r * cols + 32 * k + v.2)) else none)
  pure (res, db, mags)

/-- The larger of two magnitudes. -/
def maxOpt (a b : Option Int) : Option Int :=
  match a, b with
  | none, b => b
  | a, none => a
  | some x, some y => some (max x y)

/-- One row of a CONVERT. -/
def State.convRow (s : State) (p : Port) (t : Tag) (w : View) (c : Cmd) (r : Nat) : Except XErr State := do
  let cols := c.f 88 4
  let nb := ceilDiv cols 32
  let bs ← eachE (w.convBlock c r) (List.range nb)
  let codes := bs.flatMap (·.1)
  let base := c.f 64 8 + r * strideOf c.to cols (c.f 100 4)
  let s1 ← if 8 ≤ c.to.bits then s.vwrite c.ctx base (codes.flatMap fun v => toLe (c.to.bits / 8) v.v)
    else s.putElems c.ctx base c.to.bits ((codes.zipIdx).map fun v => (v.2, v.1.v))
  let s2 ← if c.to = .l8 ∧ c.f 54 2 ≠ 0xFFFF then
      s1.vwrite c.ctx (c.f 80 8 + r * nb) (bs.map fun b => BitVec.ofNat 8 (unsignedOf 8 b.2.1))
    else pure s1
  let cnt : Cnt := { sat := (codes.map (·.sat)).sum, under := (codes.map (·.under)).sum }
  pure (s2.updCmd p t fun c => { c.tally cnt with maxSeen := maxOpt c.maxSeen (maxMag (bs.flatMap (·.2.2))) })

/-- CONVERT (R160, R213, R279): one row, and with the last its report. -/
def execConvert (p : Port) (t : Tag) (s : State) : Out :=
  .next (
    let report (s : State) (c : Cmd) : State := s.scaleReport (c.f 54 2) c.step c.maxSeen c.sat
    if s.noRows p t 0x04 then (report s (s.cmd p t)).doneCmd p t
    else s.doRow p t 0x04 fun w c r => do
      let s1 ← s.convRow p t w c r
      pure (if c.f 92 4 ≤ r + 1 then report s1 (s1.cmd p t) else s1))

/-! ### VECTOR -/

/-- The raw bits of element (r, c) of a binding. -/
def View.bindElem (s : View) (ctx : CtxNo) (b : Bind) (r c : Nat) : Except XErr Nat :=
  match b.fmt? with
  | none => .ok 0
  | some f => (s.readElems ctx b.addr f.bits (r * b.rs + c * b.cs) 1).map fun l => l.headD 0

/-- The scale byte that covers element (r, c) of a binding (R214). -/
def View.bindScale (s : View) (ctx : CtxNo) (b : Bind) (cols r c : Nat) : Except XErr Int :=
  s.scaleByte ctx b.scale (r * ceilDiv cols 32 + c / 32)

/-- One element of a VECTOR (R152). -/
def View.vecElem (s : View) (c : Cmd) (r col : Nat) : Except XErr VState := do
  let bs := (List.range 6).map (bindOf c.binds)
  let ins ← eachE (fun b => s.bindElem c.ctx b r col) (bs.take 4)
  let scs ← eachE (fun b => s.bindScale c.ctx b (c.f 76 4) r col) (bs.take 4)
  let io : VIn := { ins := ins, scales := scs, outFmts := (bs.drop 4).map fun b => b.fmt?.getD .raw32, key := c.key
                    index := r * c.f 76 4 + col }
  let pr := progOf c.prog
  pure (vrun pr.consts io pr.code { regs := List.replicate 16 0, outs := [none, none] })

/-- Store the outputs of an element. -/
def State.putOuts (s : State) (c : Cmd) (r col : Nat) (v : VState) : Except XErr State :=
  foldE (fun s o =>
    let b := bindOf c.binds (4 + o)
    match v.outs.getD o none, b.fmt? with
    | some x, some f => s.putElem c.ctx b.addr f.bits (r * b.rs + col * b.cs) x
    | _, _ => .ok s) s [0, 1]

/-- One row of a VECTOR: every element is read before its own outputs are written (R152), as its inputs landed in the slots (R15)
(DESIGN CHOICE, log entry 72). -/
def State.vecRow (s : State) (p : Port) (t : Tag) (w : View) (c : Cmd) (r : Nat) : Except XErr State :=
  (foldE (fun (a : State × Cnt) col => do
    let v ← w.vecElem c r col
    let s1 ← a.1.putOuts c r col v
    pure (s1, a.2.add { sat := v.sat, under := v.under })) (s, {}) (List.range (c.f 76 4))).map fun a =>
      a.1.updCmd p t fun c => c.tally a.2

/-- VECTOR (R152): one row of elements. -/
def execVector (p : Port) (t : Tag) (s : State) : Out :=
  .next (if s.noRows p t 0x05 then s.doneCmd p t else s.doRow p t 0x05 (s.vecRow p t))

/-! ### SOLVE -/

/-- The lower-triangle index of (r, c). -/
def triIx (r c : Nat) : Nat := r * (r + 1) / 2 + c

/-- One reduction of R162: the original value times 1.0, then the negated products, rounded to L16. -/
def redL16 (first : Nat) (ps : List (Nat × Nat)) : Res :=
  convertNum (reduce16 (mulOpd (opdOfNum (decodeL16 first)) opdOne ::
    ps.map fun q => mulOpd (opdOfNum (decodeL16 (l16Neg q.1))) (opdOfNum (decodeL16 q.2)))).num .l16 0 none

/-- A factorisation in progress: L by `triIx`, regularised pivots, the first of them, the smallest ratio, counts. -/
structure SolveState where
  l : Tab Nat := []
  reg : Nat := 0
  first : Nat := 0xFFFF
  ratio : Option Nat := none
  nanSeen : Bool := false
  sat : Nat := 0
  under : Nat := 0
  deriving DecidableEq, Repr

/-- Count a conversion. -/
def SolveState.cnt (v : SolveState) (r : Res) : SolveState := { v with sat := v.sat + r.sat, under := v.under + r.under }

/-- An entry of L. -/
def SolveState.get (v : SolveState) (r c : Nat) : Nat := Tab.get 0 v.l (triIx r c)

/-- Pairs (l[r][k], l[c][k]) for k below `c`. -/
def SolveState.pairs (v : SolveState) (r c : Nat) : List (Nat × Nat) := (List.range c).map fun k => (v.get r k, v.get c k)

/-- d is NaN or at most thr under R28 (R163). -/
def pivotLow (d thr : Nat) : Bool := d == l16NaN || l16Cmp 3 d thr

/-- Column `c` of the factorisation (R162, R163); the ratio for MIN_RATIO and the floor product count like every other operation (DESIGN CHOICE, log
entry 75). -/
def SolveState.column (a : Nat → Nat → Nat) (n ref thr : Nat) (v : SolveState) (c : Nat) : SolveState :=
  let d := redL16 (a c c) (v.pairs c c)
  let q := l16Div d.v ref
  let low := pivotLow d.v thr
  let root := l16Sqrt (if low then thr else d.v)
  let v1 := ((v.cnt d).cnt q).cnt root
  let v2 := { v1 with
    nanSeen := v1.nanSeen || d.v == l16NaN
    ratio := some (match v1.ratio with | none => q.v | some m => l16Min m q.v)
    reg := v1.reg + b2n low
    first := if low ∧ v1.first = 0xFFFF then c else v1.first
    l := Tab.set v1.l (triIx c c) root.v }
  (List.range (n - (c + 1))).foldl (fun v i =>
    let r := c + 1 + i
    let x := redL16 (a r c) (v.pairs r c)
    let y := l16Div x.v root.v
    { ((v.cnt x).cnt y) with l := Tab.set v.l (triIx r c) y.v }) v2

/-- The two substitutions for one right-hand side (R162): y ascending, then x descending. -/
def SolveState.substitute (v : SolveState) (n : Nat) (b : Nat → Nat) : List Nat × SolveState :=
  let fwd := (List.range n).foldl (fun (acc : List Nat × SolveState) c =>
    let x := redL16 (b c) ((List.range c).map fun k => (v.get c k, acc.1.getD k 0))
    let y := l16Div x.v (v.get c c)
    (acc.1 ++ [y.v], (acc.2.cnt x).cnt y)) ([], v)
  (List.range n).foldl (fun (acc : List Nat × SolveState) i =>
    let c := n - 1 - i
    -- `acc.1` holds x[c + 1 ..]
    let x := redL16 (fwd.1.getD c 0) ((List.range (n - 1 - c)).map fun j => (v.get (c + 1 + j) c, acc.1.getD j 0))
    let y := l16Div x.v (v.get c c)
    (y.v :: acc.1, (acc.2.cnt x).cnt y)) ([], fwd.2)

/-- Largest diagonal element under R38; 1.0 with a flag when it is not positive and finite (R162). -/
def solveRef (diag : List Nat) : Nat × Bool :=
  let m := diag.foldl l16Max l16NaN
  if l16Pos m then (m, false) else (0x4000, true)

/-- NaN or infinity. -/
def l16Bad (v : Nat) : Bool := match decodeL16 v with | .nan => true | .inf _ => true | _ => false

/-- One system solved: X by right-hand side, status record, and the state of the factorisation (R162 to R164) (DEDUCED, log entry 33;
DESIGN CHOICE, log entry 75, for the record of a system that is not solved). -/
def solveSystem (n r floor : Nat) (a b : Nat → Nat → Nat) : List Nat × List Byte × SolveState × Bool :=
  let bad := (List.range n).any (fun i => (List.range (i + 1)).any fun j => l16Bad (a i j))
    || (List.range r).any fun q => (List.range n).any fun i => l16Bad (b q i)
  let ref := solveRef ((List.range n).map fun i => a i i)
  let rec_ (v : SolveState) : List Byte :=
    toLe 2 v.reg ++ toLe 2 v.first ++ toLe 2 (if v.nanSeen then l16NaN else v.ratio.getD l16NaN) ++ toLe 2 ref.1 ++
      toLe 1 (b2n bad + 2 * b2n ref.2) ++ toLe 7 0
  if bad then (List.replicate (n * r) l16NaN, rec_ {}, {}, true)
  else
    let thr := l16Mul (if floor = 0 then 0x2C00 else floor) ref.1
    let v := (List.range n).foldl (SolveState.column a n ref.1 thr.v) (({} : SolveState).cnt thr)
    let xs := (List.range r).foldl (fun (acc : List Nat × SolveState) q =>
      let z := acc.2.substitute n (b q)
      (acc.1 ++ z.1, z.2)) ([], v)
    (xs.1, rec_ v, xs.2, false)

/-- One system of a SOLVE command: only the lower triangle of A is read (R161). -/
def State.solveOne (s : State) (p : Port) (t : Tag) (w : View) (c : Cmd) (i : Nat) : Except XErr State := do
  let n := c.f 52 2
  let r := c.f 51 1
  let ab ← eachE (fun x => w.vread c.ctx (c.f 72 8 + 2 * n * n * i + 2 * n * x) (2 * (x + 1))) (List.range n)
  let bb ← w.vread c.ctx (c.f 80 8 + 2 * n * r * i) (2 * n * r)
  let z := solveSystem n r (c.f 54 2) (fun x y => fld (ab.getD x []) (2 * y) 2) (fun q x => fld bb (2 * (q * n + x)) 2)
  let s1 ← s.vwrite c.ctx (c.f 88 8 + 2 * n * r * i) (z.1.flatMap fun v => toLe 2 v)
  let s2 ← s1.vwrite c.ctx (c.f 96 8 + 16 * i) z.2.1
  pure (s2.updCmd p t fun c =>
    { c.tally { sat := z.2.2.1.sat, under := z.2.2.1.under } with
      aux0 := c.aux0 + b2n (decide (0 < z.2.2.1.reg)), aux1 := c.aux1 + b2n z.2.2.2
      regularised := c.regularised || decide (0 < z.2.2.1.reg) })

/-- SOLVE (R161 to R164): one system. -/
def execSolve (p : Port) (t : Tag) (s : State) : Out :=
  .next (s.doRow p t 0x06 (s.solveOne p t))

/-! ### ROUTE -/

/-- The softmax weights of R184 over the present ranks of a token, with their counts. -/
def softmax (vals : List Nat) : List Nat × Cnt :=
  let s0 := vals.headD 0
  let add (n : Cnt) (r : Res) : Cnt := n.add { sat := r.sat, under := r.under }
  if s0 = 0x7FFF then
    let k := (vals.filter (· == 0x7FFF)).length
    let w := l16Div 0x4000 (convertNum (numOfInt k) .l16 0 none).v
    (vals.map fun v => if v = 0x7FFF then w.v else 0, add {} w)
  else if s0 = 0xFFFF then
    let w := l16Div 0x4000 (convertNum (numOfInt vals.length) .l16 0 none).v
    (vals.map fun _ => w.v, add {} w)
  else
    let xs := (vals.zipIdx).map fun v =>
      if v.2 = 0 then (⟨0x4000, 0, 0⟩ : Res)
      else
        let d := l16Sub v.1 s0
        let e := stageExp 1 (.wide (wideOfL16 d.v))
        let r := convertNum e.v.num .l16 0 none
        ⟨r.v, d.sat + r.sat + b2n e.sat, d.under + r.under + b2n e.under⟩
    let sum := (xs.drop 1).foldl (fun (a : Nat × Cnt) x => let r := l16Add a.1 x.v; (r.v, add a.2 r)) ((xs.headD ⟨0, 0, 0⟩).v, {})
    let ws := xs.map fun x => l16Div x.v sum.1
    (ws.map (·.v), ws.foldl add (xs.foldl add sum.2))

/-- A chosen entry: token, rank, expert, weight. -/
structure Choice where
  tok : Nat
  rank : Nat
  expert : Nat
  weight : Nat
  deriving DecidableEq, Repr

/-- The choices of one token from its L16 scores (R183, R184). -/
def chooseFor (tok k : Nat) (soft : Bool) (scores : List Nat) : List Choice × Cnt :=
  let best := (sortDesc scores).take k
  let w := if soft then softmax (best.map (·.1)) else (best.map (·.1), ({} : Cnt))
  (((best.zip w.1).zipIdx).map fun b => ⟨tok, b.2, b.1.1.2, b.1.2⟩, w.2)

/-- Capacity granted in order (R185): the accepted choices, and the dropped count of each expert. -/
def grantCap (cap : Nat) : List Choice → Tab (List Choice) → Tab Nat → Tab (List Choice) × Tab Nat
  | [], acc, drop => (acc, drop)
  | x :: xs, acc, drop =>
    let l := Tab.get [] acc x.expert
    if l.length < cap then grantCap cap xs (Tab.set acc x.expert (l ++ [x])) drop
    else grantCap cap xs acc (Tab.upd 0 drop x.expert (· + 1))

/-- Accepted choices of an expert in token order (R187). -/
def insertTok (x : Choice) : List Choice → List Choice
  | [] => [x]
  | y :: ys => if x.tok < y.tok then x :: y :: ys else y :: insertTok x ys

/-- The whole ROUTE (R183 to R188); its gather-list stream moves the accepted entries alone (R187). -/
def State.routeWork (s : State) (p : Port) (t : Tag) (w : View) (c : Cmd) : Except XErr State := do
  let e := c.f 52 2
  let k := c.f 51 1
  let toks := c.f 68 4
  let cap := if c.f 72 4 = 0 then toks else c.f 72 4
  let soft := bitOf (c.f 55 1) 1
  let rows ← eachE (fun tok => w.vread c.ctx (c.f 56 8 + tok * c.f 64 4) (2 * e)) (List.range toks)
  let conv := rows.map fun b => (List.range e).map fun j =>
    let v := fld b (2 * j) 2
    if c.f 54 1 = 1 then convertNum (decodeFmt .bf16 v 0) .l16 0 none else ⟨v, 0, 0⟩
  let chosen := (conv.zipIdx).map fun r => chooseFor r.2 k soft (r.1.map (·.v))
  let byTok := chosen.flatMap (·.1)
  let order := if bitOf (c.f 55 1) 0 then (List.range k).flatMap fun r => byTok.filter (·.rank == r) else byTok
  let g := grantCap cap order [] []
  let lists := (List.range e).map fun x => (Tab.get [] g.1 x).foldl (fun l y => insertTok y l) []
  let cntb := (List.range e).flatMap fun x => toLe 4 (lists.getD x []).length ++ toLe 4 (Tab.get 0 g.2 x)
  let gw := (lists.zipIdx).map fun l => (c.f 88 8 + 8 * l.2 * cap, l.1.flatMap fun y =>
    toLe 4 y.tok ++ toLe 1 y.rank ++ toLe 1 0 ++ toLe 2 y.weight)
  let recs := (List.range toks).flatMap fun tok => (List.range k).flatMap fun r =>
    match ((chosen.getD tok ([], {})).1)[r]? with
    | none => toLe 2 0xFFFF ++ toLe 2 0 ++ toLe 4 0xFFFFFFFF
    | some y =>
      toLe 2 y.expert ++ toLe 2 y.weight ++ toLe 4 (((lists.getD y.expert []).findIdx? (· == y)).getD 0xFFFFFFFF)
  let s1 ← s.writeAll c.ctx ((c.f 96 8, cntb) :: (c.f 80 8, recs) :: gw)
  let cnt := chosen.foldl (fun (n : Cnt) x => n.add x.2)
    { sat := ((conv.flatMap id).map (·.sat)).sum, under := ((conv.flatMap id).map (·.under)).sum }
  let s2 := s1.updCmd p t fun c =>
    { c.tally cnt with
      granted := some (lists.map List.length)
      aux0 := (g.2.map (·.2)).sum
      aux1 := (chosen.filter fun x => decide (x.1.length < k)).length }
  pure (((s2.cmdSlots p t).foldl (fun s x => s.refit x.1 p t) s2).doneCmd p t)

/-- ROUTE (R182 to R189). -/
def execRoute (p : Port) (t : Tag) (s : State) : Out :=
  .next (match s.wholeSlot p t 0x07 with
    | some x => s.orWait ((s.routeWork p t (s.asLanded x.1 x.2.2) (s.cmd p t)).map fun s1 => s1.beginOn x.1 x.2.1)
    | none => s)

/-! ### UPDATE -/

/-- Offsets of κ and of the records in a statistics area (R268). -/
def statK (rows : Nat) : Nat := 64 * ceilDiv (2 * rows) 64
def statRec (rows cols : Nat) : Nat := statK rows + 64 * ceilDiv (2 * cols) 64

/-- A list of L16 codes in memory. -/
def State.l16s (s : State) (ctx : CtxNo) (a n : Nat) : Except XErr (List Nat) := s.view.readElems ctx a 16 0 n

/-- The step sums of the rows, or of the columns (R269). -/
def State.stepSums (s : State) (c : Cmd) (rows : Bool) : Except XErr (List Res) := do
  let r := c.f 88 4
  let q := c.f 92 4
  let mt := ceilDiv r 64
  let nt := ceilDiv q 64
  let base := c.f 80 8 + statRec r q
  eachE (fun i => do
    let vals ← eachE (fun k =>
      if rows then s.readNat c.ctx (base + (i / 64 * nt + k) * 256 + 2 * (i % 64)) 2
      else s.readNat c.ctx (base + (k * nt + i / 64) * 256 + 128 + 2 * (i % 64)) 2) (List.range (if rows then nt else mt))
    pure (convertNum (rowSum vals).num .l16 0 none)) (List.range (if rows then r else q))

/-- A factor vector advanced (R270). -/
def advance (c : Cmd) (dsid : Nat) (old sums : List Nat) : List Res :=
  ((old.zip sums).zipIdx).map fun x =>
    let a := l16Mul (fld c.entry 8 2) x.1.1
    let b := l16Mul (fld c.entry 10 2) x.1.2
    let r := srsInto .l16 a.v b.v (draw16 { c.key with sid := (c.sid + dsid) % 2 ^ 16 } 0 x.2)
    ⟨r.v, a.sat + b.sat + r.sat, a.under + b.under + r.under⟩

/-- Counts of a list of conversions. -/
def sumRes (l : List Res) : Cnt := { sat := (l.map (·.sat)).sum, under := (l.map (·.under)).sum }

/-- The prologue of a factored pass (R270): factors written back, S kept for the rows. Rows that LAZY will have skipped take part in it: R193 keeps
their statistics from the rows' own pass, and R270 names every row (DESIGN CHOICE, log entry 77). -/
def State.prologue (s : State) (p : Port) (t : Tag) (c : Cmd) : Except XErr State := do
  let r := c.f 88 4
  let q := c.f 92 4
  let ri ← s.stepSums c true
  let sj ← s.stepSums c false
  let rho ← s.l16s c.ctx (c.f 80 8) r
  let kap ← s.l16s c.ctx (c.f 80 8 + statK r) q
  let rho' := advance c 2 rho (ri.map (·.v))
  let kap' := advance c 3 kap (sj.map (·.v))
  let s1 ← s.writeAll c.ctx [(c.f 80 8, rho'.flatMap fun v => toLe 2 v.v),
    (c.f 80 8 + statK r, kap'.flatMap fun v => toLe 2 v.v)]
  let sum := convertNum (rowSum (rho'.map (·.v))).num .l16 0 none
  pure (s1.updCmd p t fun c =>
    { c.tally ((((sumRes ri).add (sumRes sj)).add (sumRes rho')).add ((sumRes kap').add (sumRes [sum]))) with
      factor := sum.v + 2 ^ 16 })

/-- v̂ of an element, whether the floor replaced it, and its counts (R271). -/
def vHat (s rho kappa eps : Nat) : Nat × Bool × Cnt :=
  if s = 0 ∨ rho = 0 then (eps, true, {})
  else
    let m := l16Mul rho kappa
    let d := l16Div m.v s
    let n : Cnt := { sat := m.sat + d.sat, under := m.under + d.under }
    if d.v = 0 then (eps, true, n) else (d.v, false, n)

/-- One row of an UPDATE (R262 to R266, R271, R193). -/
def State.updateRow (s : State) (p : Port) (t : Tag) (w : View) (c : Cmd) (r : Nat) : Except XErr State := do
  let cols := c.f 92 4
  let gf := (fmtOfCode (c.f 51 1)).getD .l16
  let flags := fld c.entry 20 1
  let grad ← w.readElems c.ctx (c.f 72 8 + r * strideOf gf cols (c.f 108 4)) gf.bits 0 cols
  if bitOf flags 0 && grad.all (isZeroElem gf) then
    let e := ((maskEngines c.mask).find? fun e => (c.rowsOn e).contains r).getD 0
    pure ((s.bump e 0x878 1).updCmd p t fun c => { c with aux0 := c.aux0 + 1 })
  else
    let base := c.f 64 8 + r * strideOf .raw32 cols (c.f 104 4)
    let st ← w.vread c.ctx base (4 * cols)
    let fac := bitOf flags 1
    let rho ← if fac then s.readNat c.ctx (c.f 80 8 + 2 * r) 2 else pure 0
    let kap ← if fac then s.l16s c.ctx (c.f 80 8 + statK (c.f 88 4)) cols else pure []
    let eps := fld c.entry 12 2
    let pr := progOf c.prog
    let regs := List.replicate 8 0 ++ [c.hotLr, fld c.entry 2 2, fld c.entry 4 2, fld c.entry 6 2, eps, fld c.entry 14 2,
      fld c.entry 16 2, fld c.entry 18 2]
    let els := (List.range cols).map fun j =>
      let v := if fac then vHat (c.factor % 2 ^ 16) rho (kap.getD j 0) eps else (0, false, {})
      let pa := fld st (4 * j) 2
      let mo := fld st (4 * j + 2) 2
      let io : VIn := { ins := [pa, mo, grad.getD j 0, v.1], scales := [0, 0, 0, 0], outFmts := [.l16, .l16], key := c.key
                        index := r * cols + j }
      (v, vrun pr.consts io pr.code { regs := regs, outs := [some pa, some mo] })
    let s1 ← s.vwrite c.ctx base (els.flatMap fun e =>
      toLe 2 ((e.2.outs.getD 0 none).getD 0) ++ toLe 2 ((e.2.outs.getD 1 none).getD 0))
    let cnt := els.foldl (fun (n : Cnt) e => (n.add e.1.2.2).add { sat := e.2.sat, under := e.2.under }) {}
    let floored := els.any fun e => e.1.2.1
    pure (s1.updCmd p t fun c =>
      { c.tally cnt with aux1 := c.aux1 + b2n floored, regularised := c.regularised || floored })

/-- The slot of the lowest engine that has units of an UPDATE, which runs the prologue (R270) (DEDUCED, log entry 77). -/
def State.firstSlot (s : State) (p : Port) (t : Tag) : Option (Eng × SlotNo × Slot) :=
  (s.cmdSlots p t).head?.filter fun x => s.running p t 0x08 && s.rowReady p t x

/-- UPDATE (R261 to R271): the prologue of a factored pass, then one row at a time. -/
def execUpdate (p : Port) (t : Tag) (s : State) : Out :=
  .next (
    let c := s.cmd p t
    if c.f 50 1 ≠ 0 then s
    else if bitOf (fld c.entry 20 1) 1 && c.factor == 0 then
      (match s.firstSlot p t with
        | some x => s.orWait ((s.prologue p t c).map fun s1 => s1.beginOn x.1 x.2.1)
        | none => s)
    else s.doRow p t 0x08 (s.updateRow p t))

/-! ### SCALE -/

/-- SCALE (R282). -/
def execScale (p : Port) (t : Tag) (s : State) : Out :=
  .next (match s.wholeSlot p t 0x09 with
    | some _ => s.orWait (s.scaleWork p t (s.cmd p t) ⟨(s.cmd p t).f 51 1 % 8, Nat.mod_lt _ (by decide)⟩)
    | none => s)

/-- SET_GROUP (R272, R273): the entry is written as the command passes step 5. -/
def execSetGroup (p : Port) (t : Tag) (s : State) : Out :=
  .next (
    let c := s.cmd p t
    if c.phase ≠ .admission ∨ c.op ≠ 0x08 ∨ c.f 50 1 ≠ 1 then s
    else
      let va := c.groupTable + 64 * c.f 52 2
      match s.xlate c.ctx va true with
      | .host _ _ => s.endCmd p t stBadDescriptor
      | .fault k =>
        if k = 3 ∨ k = 4 then s.endCmd p t stBadDescriptor
        else (s.postFault k p t 0xFF 0xFF true va).endCmd p t stFaultAbort
      | .hbm _ =>
        s.orWait ((s.vwrite c.ctx va (patch (slice c.desc 56 64) 24 (toLe 4 c.step))).map fun s1 => s1.doneCmd p t))

end Sys2Proof.Machine
end

