-- ==== Sys2Proof/Machine/Collectives.lean ====
section
/-!
DEFINITION. COLLECTIVE: contributions, fast trees and ordered chains, sealed segments, exchanges of rows, and what a change
of epoch does (12 R305 to R320).
-/

namespace Sys2Proof.Machine

/-! ### Fields -/

/-- Fields of a COLLECTIVE. -/
def Cmd.cop (c : Cmd) : Nat := c.f 50 1
def Cmd.cfmt (c : Cmd) : Nat := c.f 51 1
def Cmd.gid (c : Cmd) : Nat := c.f 52 2
def Cmd.chain (c : Cmd) : Bool := bitOf (c.f 54 1) 0

/-- A sum operation (R310). -/
def Cmd.sums (c : Cmd) : Bool := decide (c.cop ≤ 3)

/-- The sparse operations (R316). -/
def Cmd.sparse (c : Cmd) : Bool := decide (8 ≤ c.cop)

/-- The element format of a CFMT (R305). -/
def cfmtFmt (code : Nat) : Fmt := match code with | 1 => .l16 | 2 => .bf16 | 3 => .fp16 | 4 => .fp32 | _ => .int false 8

/-- Elements of the operation: 4,096 entries with CFMT 0 (R306). -/
def Cmd.elems (c : Cmd) : Nat := if c.cfmt = 0 then 4096 else c.f 72 8

/-- Bytes of an element as it travels, and elements of a segment (R310). -/
def Cmd.wide (c : Cmd) : Nat := if c.sums then 8 else cfmtBytes c.cfmt
def Cmd.perSeg (c : Cmd) : Nat := 4032 / c.wide

/-- Segments of one module's elements. -/
def Cmd.nSegs (c : Cmd) : Nat := ceilDiv c.elems c.perSeg

/-- Elements of segment `k`: those of its module's run (DEDUCED, log entry 37). -/
def Cmd.segElems (c : Cmd) (k : Nat) : Nat := min c.perSeg (c.elems - c.perSeg * (k % c.nSegs))

/-- A segment's payload, and back. -/
def segBytesOf (w : Nat) (data : List Nat) : List Byte := data.flatMap fun v => toLe w v
def segOfBytes (w : Nat) (b : List Byte) : List Nat := (List.range (b.length / w)).map fun i => fld b (w * i) w

/-! ### The group -/

/-- The record a COLLECTIVE uses, and a record of a group held by any engine. -/
def State.recordOf (s : State) (c : Cmd) : Option GroupRec := (((s.collRecords c).head?).getD none).map (·.2)
def State.anyRecord (s : State) (gid : Nat) : Option GroupRec :=
  ((List.finRange 64).findSome? fun e => s.groupOf e gid).map (·.2)

/-- A live member's place in the order of nodes (R309). -/
def rankIn (ms : List (Nat × List Nat)) (n : Nat) : Nat := (ms.findIdx? fun m => m.1 == n).getD ms.length

/-- The first contributor rank of a member (R309). -/
def firstRank (cfmt : Nat) (ms : List (Nat × List Nat)) (n : Nat) : Nat := contributors cfmt (ms.take (rankIn ms n))

/-- The contributors a member holds. -/
def ownCount (cfmt : Nat) (ms : List (Nat × List Nat)) (n : Nat) : Nat := contributors cfmt (ms.filter (·.1 == n))

/-- The first live member on a node's route to the root (R312). -/
def PeerBlock.parentGo (b : PeerBlock) (ms : List (Nat × List Nat)) (root : Nat) : Nat → Nat → Option Nat
  | 0, _ => none
  | fuel + 1, n =>
    match b.nextNode n root with
    | none => none
    | some m => if ms.any (·.1 == m) then some m else b.parentGo ms root fuel m

/-- The parent of a member in the tree of a root (R312). -/
def PeerBlock.parent (b : PeerBlock) (ms : List (Nat × List Nat)) (root n : Nat) : Option Nat := b.parentGo ms root 256 n

/-- The children of a member in the tree of a root. -/
def PeerBlock.children (b : PeerBlock) (ms : List (Nat × List Nat)) (root n : Nat) : List Nat :=
  (ms.map (·.1)).filter fun m => m != root && b.parent ms root m == some n

/-- A member lies in the subtree of another. -/
def PeerBlock.under (b : PeerBlock) (ms : List (Nat × List Nat)) (root top : Nat) : Nat → Nat → Bool
  | 0, _ => false
  | fuel + 1, n =>
    n == top || (match b.parent ms root n with | some m => b.under ms root top fuel m | none => false)

/-- Members of a subtree. -/
def PeerBlock.subtree (b : PeerBlock) (ms : List (Nat × List Nat)) (root top : Nat) : List (Nat × List Nat) :=
  ms.filter fun m => b.under ms root top ms.length m.1

/-- The member that seals: the root, or the end of the chain (R313, R314). -/
def Cmd.sealer (c : Cmd) (ms : List (Nat × List Nat)) : Nat :=
  (if c.chain then (ms.getLast?.getD (0, [])) else ms.headD (0, [])).1

/-- The elements of the result that a module of a rank receives: first and one past the last (R305, R307). -/
def Cmd.share (c : Cmd) (nm k : Nat) : Nat × Nat :=
  match c.cop with
  | 2 => if k = 0 then (0, c.elems) else (0, 0)
  | 3 => (k * c.elems / nm, (k + 1) * c.elems / nm)
  | _ => (0, c.elems)

/-- Whether a module of a rank needs segment `k` (R314). -/
def Cmd.needs (c : Cmd) (nm rank k : Nat) : Bool :=
  let sh := c.share nm rank
  if c.cop = 5 then true else decide (c.perSeg * k < sh.2 ∧ sh.1 < c.perSeg * k + c.segElems k)

/-- Every segment of the operation: a run for each module in an ALLGATHER. -/
def Cmd.allSegs (c : Cmd) (nm : Nat) : List Nat := List.range (if c.cop = 5 then nm * c.nSegs else c.nSegs)

/-! ### Elements -/

/-- A merge of two partial totals (R93, R310). -/
def mergeBits (a b : Nat) : Nat × Cnt :=
  let r := Entry.merge { total := Total.ofBits a } (Total.ofBits b)
  (r.1.total.bits, r.2)

/-- Whether `a` is smaller than `b`; none where one is NaN. -/
def numLess (a b : Num) : Option Bool :=
  let key (x : Num) : Option (Nat × Dy) :=
    match x with
    | .nan => none
    | .inf neg => some (if neg then 0 else 2, (0, 0))
    | .zero _ => some (1, (0, 0))
    | .lin neg sig e => some (1, (sgn neg sig, e))
    | x => let l := x.linear; some (1, (sgn x.neg l.1, l.2.1))
  match key a, key b with
  | some x, some y => some (decide (x.1 < y.1) || (x.1 == y.1 && decide ((Dy.add x.2 (-y.2.1, y.2.2)).1 < 0)))
  | _, _ => none

/-- A code is a NaN. -/
def codeNaN (f : Fmt) (v : Nat) : Bool := match decodeFmt f v 0 with | .nan => true | _ => false

/-- A code as it is written: a NaN of an IEEE format canonical (R37). -/
def codeCanon (f : Fmt) (v : Nat) : Nat :=
  match f.ieee with
  | some (eb, fb) => if codeNaN f v then nanOf eb fb else v
  | none => v

/-- MAX or MIN of two codes: a NaN gives way (R38), and a NaN is written canonical (R37). -/
def codeBest (f : Fmt) (max : Bool) (a b : Nat) : Nat :=
  if f = .l16 then (if max then l16Max a b else l16Min a b)
  else
    if codeNaN f a then codeCanon f b
    else if codeNaN f b then a
    else if max then (if numLess (decodeFmt f a 0) (decodeFmt f b 0) = some true then b else a)
    else (if numLess (decodeFmt f b 0) (decodeFmt f a 0) = some true then b else a)

/-- Fold a contribution into a segment's elements. -/
def Cmd.foldSeg (c : Cmd) (acc x : List Nat) : List Nat × Cnt :=
  if acc.isEmpty then (if c.sums then x else x.map (codeCanon (cfmtFmt c.cfmt)), {})
  else if c.sums then
    let rs := (acc.zip x).map fun v => mergeBits v.1 v.2
    (rs.map (·.1), rs.foldl (fun n r => n.add r.2) {})
  else ((acc.zip x).map fun v => codeBest (cfmtFmt c.cfmt) (c.cop == 6) v.1 v.2, {})

/-- round54(total / C) of ALLREDUCE_MEAN (R310). -/
def divTotal (n : Nat) (v : Nat) : Nat × Cnt :=
  match Total.ofBits v with
  | .fin neg e sig =>
    let m : Nat := 2 * (sig * 2 ^ 66 / n) + b2n (sig * 2 ^ 66 % n != 0)
    let r := round54 e (sgn neg (m : Int), e - 120)
    (r.1.bits, r.2)
  | _ => (v, {})

/-- An element as it enters: a total of a sum, a code otherwise (R310). -/
def Cmd.enterElem (c : Cmd) (v : Nat) : Nat := if c.sums then (decodeFmt (cfmtFmt c.cfmt) v 0).total.bits else v

/-- A result element as it leaves to DST (R310): one that is no result of a sum is copied as it came, a NaN of BROADCAST, ALLGATHER or a sparse
operation with it (R37, R38, R305; DESIGN CHOICE, log entry 78). -/
def Cmd.leaveElem (c : Cmd) (v : Nat) : Res :=
  if c.sums then convertNum (Total.ofBits v).num (cfmtFmt c.cfmt) 0 none else ⟨v, 0, 0⟩

/-! ### Packets of a collective -/

/-- TYPE_FIELDS of COLL_UP and COLL_DOWN (R311). -/
def Cmd.collFields (c : Cmd) (seg contrib last : Nat) (down : Bool) : List Byte :=
  toLe 2 c.gid ++ toLe 1 c.cop ++ toLe 1 c.cfmt ++ toLe 4 c.coll.epoch ++ toLe 4 c.coll.digest ++ toLe 8 c.coll.gseq ++
    toLe 4 seg ++ toLe 4 contrib ++ toLe 4 (if c.chain then last else 0xFFFFFFFF) ++ toLe 1 (b2n down)

/-- Send a segment up or along the chain. -/
def State.sendUp (s : State) (c : Cmd) (to_ seg contrib last : Nat) (data : List Byte) : State :=
  s.sendPacket (s.packetTo to_ 0x10 (c.collFields seg contrib last false) data)

/-- Send a sealed segment down (R314): in ordered mode all the ranks below CONTRIB are folded in (R311). -/
def State.sendDown (s : State) (c : Cmd) (to_ seg contrib : Nat) (data : List Nat) : State :=
  s.sendPacket (s.packetTo to_ 0x11 (c.collFields seg contrib (contrib - 1) true) (segBytesOf c.wide data))

/-- Change the collective of a command. -/
def State.updColl (s : State) (p : Port) (t : Tag) (f : CollProg → CollProg) : State :=
  s.updCmd p t fun c => { c with coll := f c.coll }

/-- A sealed segment is kept here and sent to the children that need it, in the tree of the sealer (R314). -/
def State.keepSealed (s : State) (p : Port) (t : Tag) (ms : List (Nat × List Nat)) (k contrib : Nat) (data : List Nat) :
    State :=
  let c := s.cmd p t
  let root := if c.cop = 5 then (ms.headD (0, [])).1 else c.sealer ms
  let s1 := s.updColl p t fun g => { g with sealedSegs := Tab.set g.sealedSegs k (contrib, data) }
  (s.peer.children ms root s.peer.nodeId).foldl (fun s n =>
    if (s.peer.subtree ms root n).any fun m => c.needs ms.length (rankIn ms m.1) k then s.sendDown c n k contrib data
    else s) s1

/-- Seal a segment (R310, R314). -/
def State.sealSeg (s : State) (p : Port) (t : Tag) (ms : List (Nat × List Nat)) (k contrib : Nat) (data : List Nat) :
    State :=
  let c := s.cmd p t
  let rs := if c.cop = 1 then data.map (divTotal contrib) else data.map fun v => (v, ({} : Cnt))
  (s.updCmd p t fun c => c.tally (rs.foldl (fun n r => n.add r.2) {})).keepSealed p t ms k contrib (rs.map (·.1))

/-- A segment whose contributors are all in goes on: up the tree, along the chain, or sealed (R312, R313). -/
def State.passSeg (s : State) (p : Port) (t : Tag) (ms : List (Nat × List Nat)) (k : Nat) : State :=
  let c := s.cmd p t
  let me := s.peer.nodeId
  let g := Tab.get {} c.coll.segs k
  let root := (ms.headD (0, [])).1
  let want := if c.chain then firstRank c.cfmt ms me + ownCount c.cfmt ms me
    else contributors c.cfmt (s.peer.subtree ms root me)
  if g.sent || !g.own || g.contrib != want then s
  else
    let s1 := s.updColl p t fun x => { x with segs := Tab.set x.segs k { g with sent := true } }
    if me == c.sealer ms then s1.sealSeg p t ms k g.contrib g.data
    else
      let to_ := if c.chain then ((ms.drop (rankIn ms me + 1)).headD (0, [])).1 else (s.peer.parent ms root me).getD root
      s1.sendUp c to_ k g.contrib g.last (segBytesOf c.wide g.data)

/-- Fold a contribution of `n` contributors into segment `k`. -/
def State.foldIn (s : State) (p : Port) (t : Tag) (k n last : Nat) (own : Bool) (x : List Nat) : State :=
  s.updCmd p t fun c =>
    let g := Tab.get {} c.coll.segs k
    let r := c.foldSeg g.data x
    { c.tally r.2 with coll := { c.coll with
        segs := Tab.set c.coll.segs k { g with data := r.1, contrib := g.contrib + n, last := max g.last last, own := g.own || own } } }

/-- The module's own contributors fold into segment `k`, in ascending rank (R312, R313). -/
def State.foldOwn (s : State) (p : Port) (t : Tag) (ms : List (Nat × List Nat)) (k : Nat) : State :=
  let c := s.cmd p t
  let r0 := firstRank c.cfmt ms s.peer.nodeId
  (c.coll.inputs.zipIdx).foldl (fun s x =>
    s.foldIn p t k 1 (r0 + x.2) true ((x.1.drop (c.perSeg * k)).take c.perSeg)) s

/-- A segment is held sealed (R314, R320). -/
def Cmd.isSealed (c : Cmd) (k : Nat) : Bool := c.coll.sealedSegs.any (·.1 == k)

/-- The module's contribution starts, or starts again: its segments that are not held sealed go into the tree, into the chain, or are
sealed (R312 to R314, R320). -/
def State.startSegs (s : State) (p : Port) (t : Tag) (ms : List (Nat × List Nat)) : State :=
  let c := s.cmd p t
  let me := s.peer.nodeId
  let root := (ms.headD (0, [])).1
  let mine (k : Nat) : List Nat := ((c.coll.inputs.headD []).drop (c.perSeg * k)).take c.perSeg
  match c.cop with
  | 4 =>
    if me = root ∧ !c.coll.inputs.isEmpty then
      ((List.range c.nSegs).filter fun k => !c.isSealed k).foldl (fun s k => s.sealSeg p t ms k 1 (mine k)) s
    else s
  | 5 => (((List.range c.nSegs).map fun k => (k, rankIn ms me * c.nSegs + k)).filter fun k => !c.isSealed k.2).foldl (fun s k =>
      if me = root then s.sealSeg p t ms k.2 1 (mine k.1)
      else s.sendUp c ((s.peer.parent ms root me).getD root) k.2 1 0 (segBytesOf c.wide (mine k.1))) s
  | _ => ((List.range c.nSegs).filter fun k => !c.isSealed k).foldl (fun s k =>
      if c.chain && rankIn ms me != 0 then s else (s.foldOwn p t ms k).passSeg p t ms k) s

/-! ### What is written to DST -/

/-- The stream of a command on its chosen engine that serves a role has `n` more bytes to move. -/
def State.growStream (s : State) (p : Port) (t : Tag) (role n : Nat) : State :=
  match (s.cmd p t).chosen with
  | none => s
  | some e =>
    match (List.finRange 16).find? fun i => let x := s.strm e i; x.state != .idle && x.port == p && x.tag == t && x.role == role with
    | some i => s.updStrm e i fun x => { x with length := x.length + n, state := if x.state = .complete then .issuing else x.state }
    | none => s

/-- Bytes of piece `k` of the result are about to be written, in these ranges: the write stream moves them (R228). -/
def State.tellWrite (s : State) (p : Port) (t : Tag) (k : Nat) (ws : List (Nat × Nat)) : State :=
  if (s.cmd p t).coll.wrote.any (·.1 == k) then s
  else
    let rs := (ws.filter fun w => w.2 != 0).map fun w => (k, w)
    (s.updColl p t fun g => { g with wrote := g.wrote ++ rs }).growStream p t 1 (rs.map (·.2.2)).sum

/-- Write piece `k` of the result to DST (R314): the state once it is announced, and whether it could be stored. -/
def State.putDst (s : State) (p : Port) (t : Tag) (k : Nat) (ws : List (Nat × List Byte)) : State × Bool :=
  let s1 := s.tellWrite p t k (ws.map fun w => (w.1, w.2.length))
  match s1.writeAll (s1.cmd p t).ctx ws with
  | .ok s2 => (s2, true)
  | .error x => (s1.orWait (.error x), false)

/-! ### Sparse exchanges -/

/-- E, CAPACITY and ROW_BYTES of the exchange header. -/
def Cmd.xE (c : Cmd) : Nat := fld c.xhdr 0 4
def Cmd.xCap (c : Cmd) : Nat := fld c.xhdr 4 4
def Cmd.xRow (c : Cmd) : Nat := fld c.xhdr 8 4

/-- Experts of the member of a rank, ascending (R316). -/
def Cmd.expertsOf (c : Cmd) (nm rank : Nat) : List Nat := (List.range c.xE).filter fun e => e % nm == rank

/-- Accepted entries of an expert by this module's count record (R186, R316). -/
def State.acceptedOf (s : State) (c : Cmd) (e : Nat) : Except XErr Nat := s.readNat c.ctx (c.f 96 8 + 16 + 8 * e) 4

/-- TOKEN and RANK of an accepted entry (R187). -/
def State.listEntry (s : State) (c : Cmd) (e i : Nat) : Except XErr (Nat × Nat) := do
  let b ← s.vread c.ctx (c.f 88 8 + 8 * (e * c.xCap + i)) 8
  pure (fld b 0 4, fld b 4 1)

/-- Place of the rows, and of the count, that a module of rank `me` keeps for expert `e` and source rank `src` (R316). -/
def Cmd.xBase (c : Cmd) (nm e src : Nat) : Nat := (e / nm * nm + src) * c.xCap * c.xRow
def Cmd.xCount (c : Cmd) (nm e src : Nat) : Nat := c.f 96 8 + 16 + 8 * c.xE + 4 * (e / nm * nm + src)

/-- What this module sends to the member of a rank: in an exchange the counts of its experts and then their rows, in a
return the rows that came from it (R316; the order is DESIGN CHOICE, log entry 23). -/
def State.sparseOut (s : State) (c : Cmd) (nm me to_ : Nat) : Except XErr (List Byte) :=
  if c.cop = 8 then do
    let es := c.expertsOf nm to_
    let ns ← eachE (s.acceptedOf c) es
    let rows ← eachE (fun x => eachE (fun i => do
      let en ← s.listEntry c x.1 i
      s.vread c.ctx (c.f 56 8 + en.1 * c.xRow) c.xRow) (List.range x.2)) (es.zip ns)
    pure (ns.flatMap (fun n => toLe 4 n) ++ (rows.flatten).flatten)
  else do
    let es := c.expertsOf nm me
    let ns ← eachE (fun e => s.readNat c.ctx (c.xCount nm e to_) 4) es
    let rows ← eachE (fun x => eachE (fun i =>
      s.vread c.ctx (c.f 56 8 + c.xBase nm x.1 to_ + i * c.xRow) c.xRow) (List.range x.2)) (es.zip ns)
    pure (rows.flatten).flatten

/-- Cut bytes into segments. -/
def cut (n : Nat) (b : List Byte) : List (List Byte) :=
  (List.range (max 1 (ceilDiv b.length n))).map fun k => (b.drop (n * k)).take n

/-- Bytes that have arrived in one piece from the start of a source's run. -/
def arrived (rx : Tab (List Byte)) : List Byte := (List.range rx.length).flatMap fun k => Tab.get [] rx k

/-- Bytes that the run of a source holds in all, once that is known. -/
def State.sparseLen (s : State) (c : Cmd) (nm me src : Nat) (b : List Byte) : Except XErr (Option Nat) :=
  if c.cop = 8 then
    let n := (c.expertsOf nm me).length
    pure (if b.length < 4 * n then none else some (4 * n + ((List.range n).map fun i => fld b (4 * i) 4).sum * c.xRow))
  else do
    let ns ← eachE (s.acceptedOf c) (c.expertsOf nm src)
    pure (some (ns.sum * c.xRow))

/-- What a source has sent, with the places it goes to (R316): rows and counts of an exchange, or returned rows. -/
def State.sparseIn (s : State) (c : Cmd) (nm me src : Nat) (b : List Byte) : Except XErr (List (Nat × List Byte)) :=
  if c.cop = 8 then
    let es := c.expertsOf nm me
    let ns := es.zipIdx.map fun x => (x.1, fld b (4 * x.2) 4)
    pure (ns.foldl (fun (a : List (Nat × List Byte) × Nat) x =>
      (a.1 ++ [(c.f 64 8 + c.xBase nm x.1 src, slice b a.2 (x.2 * c.xRow)), (c.xCount nm x.1 src, toLe 4 x.2)], a.2 + x.2 * c.xRow))
      ([], 4 * es.length)).1
  else do
    let es := c.expertsOf nm src
    let ns ← eachE (s.acceptedOf c) es
    let places ← eachE (fun x => eachE (fun i => s.listEntry c x.1 i) (List.range x.2)) (es.zip ns)
    pure (places.flatten.zipIdx.map fun x =>
      (c.f 64 8 + (x.1.1 * Config.sparseKSel (c.f 88 8) + x.1.2) * c.xRow, slice b (x.2 * c.xRow) c.xRow))

/-- The counts of departed sources read zero (R316): the count words that the members at the checks would have filled and the live ones do not (DEDUCED, log entry 59). -/
def Cmd.sparseZero (c : Cmd) (nm me : Nat) : List (Nat × List Byte) :=
  let old := c.coll.atCheck
  let live := (c.expertsOf nm me).flatMap fun e => (List.range nm).map fun r => c.xCount nm e r
  if c.cop ≠ 8 ∨ old ≤ nm then []
  else (((List.range (ceilDiv c.xE old * old)).map fun k => c.f 96 8 + 16 + 8 * c.xE + 4 * k).filter fun a => !live.contains a).map fun a =>
    (a, toLe 4 0)

/-- The exchange is over once every live member's run is in. -/
def State.sparseDone (s : State) (p : Port) (t : Tag) (c : Cmd) (ms : List (Nat × List Nat)) : Except XErr State := do
  let me := rankIn ms s.peer.nodeId
  let runs ← eachE (fun m => do
    let b := arrived (Tab.get [] c.coll.rx m.1)
    let n ← s.sparseLen c ms.length me (rankIn ms m.1) b
    pure (m.1, b, match n with | some k => decide (k ≤ b.length) && (decide (0 < k) || (Tab.get [] c.coll.rx m.1).length != 0)
                               | none => false)) ms
  if runs.all (·.2.2) then do
    let ws ← eachE (fun r => s.sparseIn c ms.length me (rankIn ms r.1) r.2.1) runs
    let r := s.putDst p t 0 (ws.flatten ++ c.sparseZero ms.length me)
    pure (if r.2 then (r.1.updCmd p t fun c =>
        { c with aux0 := ms.length, reduced := decide (ms.length < c.coll.atCheck) }).doneCmd p t
      else r.1)
  else pure s

/-- Send the module's runs (R316): its own stays here. -/
def State.sparseStart (s : State) (p : Port) (t : Tag) (c : Cmd) (ms : List (Nat × List Nat)) : Except XErr State := do
  let me := rankIn ms s.peer.nodeId
  let runs ← eachE (fun m => (s.sparseOut c ms.length me (rankIn ms m.1)).map fun b => (m.1, cut 4032 b)) ms
  pure (runs.foldl (fun s r =>
    if r.1 = s.peer.nodeId then
      s.updColl p t fun g => { g with rx := Tab.set g.rx r.1 (r.2.zipIdx.map fun x => (x.2, x.1)) }
    else r.2.zipIdx.foldl (fun s x => s.sendUp (s.cmd p t) r.1 x.2 1 0 x.1) s) s)

/-! ### Tiles of CFMT 0 -/

/-- The 64 x 64 output of the drained tile. -/
def collMM (epi : EpiRec) (func : List Byte) (mask : W64) (dst : Nat) : MM :=
  { prec := 1, group := 3, mode := 0, serialW := 0, acc := 0, outFmt := 0, mflags := 0, m := 64, n := 64, k := 64, lda := 0
    ldb := 0, ldc := 0, mask := mask, a := 0, b := 0, c := dst, epiAddr := 0, extAddr := 0, aScale := 0, bScale := 0
    maskAddr := 0, tileMap := 0, gather := 0, countAddr := 0, denseN := 0, t := 0, kSel := 0, epi := epi, func := func }

/-- A row record over the present columns only: the sum keeps the columns' places. -/
def shareRow (vals : List (Option Nat)) : List Byte × Cnt :=
  let t := rowSum (vals.map (·.getD 0))
  let f := convertNum t.num .fp32 0 none
  let l := convertNum t.num .l16 0 none
  let vs := vals.filterMap id
  (toLe 4 f.v ++ toLe 2 l.v ++ toLe 2 (rowMax vs) ++ toLe 2 (presentCount vs) ++ toLe 2 0 ++ toLe 4 0,
    { sat := f.sat + l.sat, under := f.under + l.under })

/-- The records of a drained share (R144 to R147, R307). -/
def shareRecords (x : MM) (rows : List (Nat × List (Option Elem))) : List (Nat × List Byte) × Cnt :=
  let v (e : Option Elem) : Option Nat := e.map fun e => e.three.v.l16
  let rs := if Epi.hasRowstat x.epi then rows.map fun r => (x.epi.rowstatAddr + r.1 * 16, shareRow (r.2.map v)) else []
  let tk := if Epi.hasTopk x.epi then rows.map fun r =>
    (x.epi.topkAddr + r.1 * 72, topkRecord x.epi.topk (r.2.map fun e => (v e).getD l16NaN) 0) else []
  let all := (List.range 64).map fun i => match rows.find? (·.1 == i) with
    | some r => r.2.map fun e => match e with | some e => e.one.l16 | none => 0
    | none => List.replicate 64 0
  let sq := if Epi.hasSqstat x.epi then [(x.epi.sqAddr, sqRecord all)] else []
  (rs.map (fun r => (r.1, r.2.1)) ++ tk ++ sq.map fun r => (r.1, r.2.1), (rs.map (·.2.2) ++ sq.map (·.2.2)).foldl Cnt.add {})

/-- Drain the entries lo .. hi - 1 of a result to DST, each at its place in the tile (R306, R307), from the tile that reports `tileSat`
saturations of its own (R90, R150). -/
def State.drainShare (s : State) (c : Cmd) (x : MM) (sr : ScaleRead) (tileSat : Nat) (data : List Nat) (lo hi : Nat) :
    Except XErr (State × Cnt) := do
  let cols := List.range 64
  let bias ← s.view.colVec c.ctx x.epi.biasAddr cols
  let sv ← s.view.colVec c.ctx x.epi.scaleAddr cols
  let rows := ((List.range 64).map fun r => (r, (cols.zip (bias.zip sv)).map fun n =>
    if lo ≤ 64 * r + n.1 ∧ 64 * r + n.1 < hi then
      let o := stages123 x.epi x.func n.2.1 n.2.2 (Total.ofBits (data.getD (64 * r + n.1) 0))
      some ({ row := r, col := n.1, one := o.1, three := o.2 } : Elem)
    else none)).filter fun r => r.2.any (·.isSome)
  let conv := rows.map fun r => (r.1, ([r.2.take 32, r.2.drop 32]).map fun h =>
    let es := h.filterMap id
    let sc := x.outScale sr (es.map fun e => e.three.v.l16)
    (sc, es.map fun e =>
      (e, convertNum e.three.v.num x.fmtC sc (if x.epi.outRound = 1 then some (draw16 c.key 0 (64 * e.row + e.col)) else none))))
  let s1 ← foldE (fun (s : State) r =>
    if Epi.noOut x.epi then Except.ok s
    else s.putElems c.ctx (x.c + r.1 * x.ldcB) x.fmtC.bits (r.2.flatMap fun h => h.2.map fun e => (e.1.col, e.2.v))) s conv
  let bsb := if x.epi.outFmt = 2 ∧ !Epi.noOut x.epi then conv.flatMap fun r => (r.2.zipIdx.filter fun h => !h.1.2.isEmpty).map
    fun h => (x.epi.bscaleAddr + 2 * r.1 + h.2, [BitVec.ofNat 8 (unsignedOf 8 h.1.1)]) else []
  let recs := shareRecords x rows
  let s2 ← s1.writeAll c.ctx (bsb ++ recs.1)
  let es := conv.flatMap fun r => r.2.flatMap (·.2)
  let live := !Epi.noOut x.epi
  let sat := (es.map fun e => b2n (e.1.three.sat || (live && decide (0 < e.2.sat)))).sum
  let under := (es.map fun e => b2n (e.1.three.under || (live && decide (0 < e.2.under)))).sum
  let mag := maxMag (es.map fun e => if e.1.three.v.l16 = l16NaN then 0 else e.1.three.v.l16)
  pure (s2.scaleReport x.epi.scaleId c.step mag (tileSat + sat), { sat := sat + recs.2.sat, under := under + recs.2.under })

/-- What the contributing tiles of a module take with END 1: the share, zero elsewhere; FREE with an empty share (R307). -/
def shareTile (t : Tile) (data : List Nat) (lo hi : Nat) : Tile :=
  if hi ≤ lo then {}
  else { t with entries := (List.range (hi - lo)).map fun i => (lo + i, { total := Total.ofBits (data.getD (lo + i) 0) }) }

/-- The 64 x 64 tile that a collective drains, with its epilogue (R306). -/
def Cmd.collTile (c : Cmd) : MM := collMM (c.mm 0).epi (c.mm 0).func c.mask (c.f 64 8)

/-- The ranges that draining entries lo .. hi - 1 writes: rows of DST, block scales, records (R307). -/
def Cmd.shareRanges (c : Cmd) (lo hi : Nat) : List (Nat × Nat) :=
  let x := c.collTile
  let rows := if hi ≤ lo ∨ !c.drainsTiles then [] else (List.range 64).filter fun r => decide (lo < 64 * r + 64 ∧ 64 * r < hi)
  (if Epi.noOut x.epi then [] else rows.map fun r => (x.c + r * x.ldcB, x.ldcB))
    ++ (if x.epi.bscaleAddr = 0 then [] else rows.map fun r => (x.epi.bscaleAddr + 2 * r, 2))
    ++ (if x.epi.rowstatAddr = 0 then [] else rows.map fun r => (x.epi.rowstatAddr + 16 * r, 16))
    ++ (if x.epi.topkAddr = 0 then [] else rows.map fun r => (x.epi.topkAddr + 72 * r, 72))
    ++ (if x.epi.sqAddr = 0 ∨ rows.isEmpty then [] else [(x.epi.sqAddr, 256)])

/-- The result of CFMT 0 reaches the tiles, or DST through the epilogue, with the records and the scale of steps 2 and 5 (R281, R306, R307); the report
counts the saturations of the lowest engine's tile (R90, R150; DESIGN CHOICE, log entry 71). -/
def State.finishTiles (s : State) (c : Cmd) (data : List Nat) (lo hi : Nat) : Except XErr (State × Cnt) := do
  let a := Cmd.tileAcc c.xhdr
  let es := maskEngines c.mask
  if !c.drainsTiles then
    pure (es.foldl (fun s e => s.updNamed e a fun t => shareTile t data lo hi) s, {})
  else do
    let sat := match es.head? with | some e => (s.named e a).satCount | none => 0
    let d ← if hi ≤ lo then pure (s, ({} : Cnt)) else s.drainShare c c.collTile (c.scales.getD 0 {}) sat data lo hi
    pure (es.foldl (fun s e => s.updNamed e a fun _ => {}) d.1, d.2)

/-! ### Activation, writing, completion -/

/-- The contributing tiles of a collective, promoted (R306); none where one of them is not there yet (DEDUCED, log entry 39). -/
inductive TileInput where
  | ready (s : State) (inputs : List (List Nat)) (cnt : Cnt)
  | wait
  | bad (st : Nat)

/-- Entries of a tile as partial totals. -/
def tileTotals (t : Tile) : List Nat := (List.range 4096).map fun n => (Tab.get {} t.entries n).total.bits

/-- The tiles of the mask's engines as inputs. -/
def State.tileInputs (s : State) (c : Cmd) (a : Nat) : TileInput :=
  let es := maskEngines c.mask
  let ts := es.map fun e => s.named e a
  if ts.any fun t => t.state == .busy || t.state == .draining then .wait
  else if ts.any fun t => t.state == .free then .bad stBadDescriptor
  else if ts.any fun t => t.owner != c.ctx then .bad stDenied
  else if ts.any fun t => t.cls == 5 then .bad stAccClass
  else
    let s1 := es.foldl (fun s e => s.updNamed e a fun t => { t.promote.1 with k := 0 }) s
    .ready s1 (es.map fun e => tileTotals (s1.named e a)) (ts.foldl (fun n t => n.add t.promote.2) {})

/-- The elements of SRC as they enter. -/
def State.srcInputs (s : State) (c : Cmd) : Except XErr (List (List Nat)) :=
  let w := cfmtBytes c.cfmt
  match s.vread c.ctx (c.f 56 8) (c.elems * w) with
  | .error e => .error e
  | .ok b => .ok [(segOfBytes w b).map c.enterElem]

/-- Segments of the result already here are written to DST (R314): those of the module's share only (DEDUCED, log entry 37). -/
def State.writeSeg (s : State) (p : Port) (t : Tag) (ms : List (Nat × List Nat)) (k : Nat) : State :=
  let c := s.cmd p t
  let w := cfmtBytes c.cfmt
  let sh := c.share ms.length (rankIn ms s.peer.nodeId)
  let data := (Tab.get (0, []) c.coll.sealedSegs k).2
  let base := if c.cop = 5 then k / c.nSegs * c.elems + c.perSeg * (k % c.nSegs) else c.perSeg * k
  let es := (data.zipIdx.map fun x => (base + x.2, c.leaveElem x.1)).filter fun x =>
    c.cop == 5 || (decide (sh.1 ≤ x.1) && decide (x.1 < sh.2))
  let r := s.putDst p t k (match es.head? with
    | some x => [(c.f 64 8 + x.1 * w, es.flatMap fun y => toLe w y.2.v)]
    | none => [])
  if !r.2 then r.1
  else r.1.updCmd p t fun c =>
    { c.tally { sat := (es.map (·.2.sat)).sum, under := (es.map (·.2.under)).sum } with
      coll := { c.coll with written := c.coll.written ++ [k] } }

/-- The segments that members below this module need and that have not come yet: they are forwarded when they do, though the collective has completed
here (R314) (DEDUCED, log entry 37). -/
def State.relayOn (s : State) (p : Port) (t : Tag) (ms : List (Nat × List Nat)) : State :=
  let c := s.cmd p t
  let root := if c.cop = 5 then (ms.headD (0, [])).1 else c.sealer ms
  let below := (s.peer.children ms root s.peer.nodeId).flatMap fun n => (s.peer.subtree ms root n).map (·.1)
  let left := (c.allSegs ms.length).filter fun k => !c.isSealed k && below.any fun n => c.needs ms.length (rankIn ms n) k
  if left.isEmpty then s
  else { s with peer := { s.peer with relays := s.peer.relays ++ [{ gid := c.gid, gseq := c.coll.gseq, desc := c.desc, left := left }] } }

/-- A sealed segment of a collective that has completed here goes on to the children that need it (R314). -/
def State.relayDown (s : State) (k : Packet) (g : GroupRec) : State :=
  let seg := fld k.fields 20 4
  match s.peer.relays.find? fun r => r.gid == fld k.fields 0 2 && r.gseq == fld k.fields 12 8 && r.left.contains seg with
  | none => s
  | some r =>
    let c : Cmd := { desc := r.desc }
    let ms := s.members g
    let root := if c.cop = 5 then (ms.headD (0, [])).1 else c.sealer ms
    let r' := { r with left := r.left.filter (· != seg) }
    let s1 : State := { s with peer := { s.peer with
      relays := (s.peer.relays.filter (· != r)) ++ if r'.left.isEmpty then [] else [r'] } }
    (s1.peer.children ms root s1.peer.nodeId).foldl (fun s n =>
      if (s.peer.subtree ms root n).any fun m => c.needs ms.length (rankIn ms m.1) seg then s.sendPacket (s.packetTo n 0x11 k.fields k.payload)
      else s) s1

/-- Write what can be written, and complete once every needed segment is held and every contribution sent (R314, R315). -/
def State.advanceColl (s : State) (p : Port) (t : Tag) (ms : List (Nat × List Nat)) : State :=
  let c := s.cmd p t
  let rank := rankIn ms s.peer.nodeId
  let need := (c.allSegs ms.length).filter fun k => c.needs ms.length rank k
  let s1 := if c.cfmt = 0 then s
    else need.foldl (fun s k =>
      let g := (s.cmd p t).coll
      if g.sealedSegs.any (·.1 == k) && !g.written.contains k then s.writeSeg p t ms k else s) s
  let c1 := s1.cmd p t
  let g := c1.coll
  let held := need.all fun k => if c.cfmt = 0 then g.sealedSegs.any (·.1 == k) else g.written.contains k
  let gave := c.cop == 4 || c.cop == 5
    || (List.range c.nSegs).all fun k => (Tab.get {} g.segs k).sent || g.sealedSegs.any (·.1 == k)
  if !held || !gave then s1
  else
    let final := match g.sealedSegs.head? with
      | some x => if c.sums || c.cop == 6 || c.cop == 7 then x.2.1 else contributors c.cfmt ms
      | none => contributors c.cfmt ms
    let sh := c.share ms.length rank
    let s1 := if c.cfmt = 0 then s1.tellWrite p t 0 (c.shareRanges sh.1 sh.2) else s1
    let s2 := if c.cfmt ≠ 0 then Except.ok (s1, ({} : Cnt))
      else
        s1.finishTiles c1 ((List.range c.nSegs).flatMap fun k => match g.sealedSegs.find? (·.1 == k) with
          | some x => x.2.2
          | none => List.replicate (c.segElems k) 0) sh.1 sh.2
    match s2 with
    | .error _ => s1
    | .ok (s3, n) => (s3.updCmd p t fun c =>
        { c.tally n with aux0 := final, reduced := decide (final < g.atCheck) }).relayOn p t ms |>.doneCmd p t

/-- A collective goes on as far as it can. -/
def State.goOn (s : State) (p : Port) (t : Tag) (ms : List (Nat × List Nat)) : State :=
  let c := s.cmd p t
  if c.phase != .running || !c.coll.active then s
  else if c.sparse then s.orWait (s.sparseDone p t c ms)
  else s.advanceColl p t ms

/-! ### Packets, epochs -/

/-- The collectives in flight of a group. -/
def State.collsOf (s : State) (gid : Nat) : List (Port × Tag × Cmd) :=
  s.cmds.filter fun x => x.2.2.op == 0x0A && x.2.2.phase == .running && x.2.2.coll.active && x.2.2.gid == gid

/-- Start a collective's data again under its record (R320). -/
def State.restartColl (s : State) (p : Port) (t : Tag) (g : GroupRec) : State :=
  let ms := s.members g
  let s1 := s.updColl p t fun x =>
    { x with epoch := g.epoch.toNat, digest := g.digest, segs := [], sealedSegs := [], written := [], rx := [], kept := false, wrote := x.wrote.map fun w => (2 ^ 64, w.2) }
  if (s1.cmd p t).sparse then s1.orWait (s1.sparseStart p t (s1.cmd p t) ms) else s1.startSegs p t ms

/-- What a change of epoch does to a collective (R318, R320): without a sealed segment it restarts; sealed segments stand, go to the children of the new tree,
and the others start again (DEDUCED, log entry 38). -/
def State.syncColl (s : State) (p : Port) (t : Tag) : State :=
  let c := s.cmd p t
  match s.recordOf c with
  | none => s
  | some g =>
    if c.coll.epoch = g.epoch.toNat ∧ c.coll.digest = g.digest ∧ g.state = 1 then s
    else if g.state = 2 then s.faultCmd p t
    else if c.coll.sealedSegs.isEmpty then s.restartColl p t g
    else
      let ms := s.members g
      let s1 := s.updColl p t fun x => { x with
        epoch := g.epoch.toNat, digest := g.digest, kept := true, segs := x.segs.filter fun y => c.isSealed y.1 }
      let root := if c.cop = 5 then (ms.headD (0, [])).1 else c.sealer ms
      let s2 := (s.peer.children ms root s.peer.nodeId).foldl (fun s n =>
        c.coll.sealedSegs.foldl (fun s x => s.sendDown (s.cmd p t) n x.1 x.2.1 x.2.2) s) s1
      s2.startSegs p t ms

/-- Every collective in flight follows its record. -/
def State.syncColls (s : State) : State :=
  (s.cmds.filter fun x => x.2.2.op == 0x0A && x.2.2.phase == .running && x.2.2.coll.active).foldl
    (fun s x => s.syncColl x.1 x.2.1) s

/-- Fields of a collective packet. -/
def cf (k : Packet) (off len : Nat) : Nat := fld k.fields (off - 12) len

/-- The parent's restarted traffic shows that a segment which a module lacks is sealed nowhere (R320) (DEDUCED, log entry 38). -/
def State.lostSeg (s : State) (c : Cmd) (ms : List (Nat × List Nat)) (seg src : Nat) : Bool :=
  let root := if c.cop = 5 then (ms.headD (0, [])).1 else c.sealer ms
  c.coll.kept && !c.isSealed seg && s.peer.parent ms root s.peer.nodeId == some src

/-- A COLL_UP of a collective in flight (R310, R312, R313, R316, R320): a segment held sealed takes no more. -/
def State.takeUp (s : State) (p : Port) (t : Tag) (g : GroupRec) (k : Packet) : State :=
  let seg := cf k 32 4
  let s0 := if s.lostSeg (s.cmd p t) (s.members g) seg k.src then s.restartColl p t g else s
  let c := s0.cmd p t
  let ms := s0.members g
  let data := segOfBytes c.wide k.payload
  if c.sparse then
    (s0.updColl p t fun x => { x with rx := Tab.upd [] x.rx k.src fun r => Tab.set r seg k.payload }).goOn p t ms
  else if c.isSealed seg then s0
  else if c.cop = 5 then
    let root := (ms.headD (0, [])).1
    if s0.peer.nodeId = root then (s0.sealSeg p t ms seg (cf k 36 4) data).goOn p t ms
    else s0.sendUp c ((s0.peer.parent ms root s0.peer.nodeId).getD root) seg (cf k 36 4) 0 k.payload
  else
    let s1 := s0.foldIn p t seg (cf k 36 4) (cf k 40 4 % 2 ^ 32) false data
    let s2 := if c.chain then s1.foldOwn p t ms seg else s1
    (s2.passSeg p t ms seg).goOn p t ms

/-- A COLL_DOWN of a collective in flight (R314). -/
def State.takeDown (s : State) (p : Port) (t : Tag) (g : GroupRec) (k : Packet) : State :=
  let c := s.cmd p t
  let ms := s.members g
  if c.coll.sealedSegs.any (·.1 == cf k 32 4) then s
  else (s.keepSealed p t ms (cf k 32 4) (cf k 36 4) (segOfBytes c.wide k.payload)).goOn p t ms

/-- Whether a packet waits in its buffer, is discarded with its count raised, is dropped, or is taken (R319). -/
inductive CollFate where
  | wait
  | stale
  | drop
  | take (p : Port) (t : Tag) (g : GroupRec)

/-- The fate of a collective packet. -/
def State.collFate (s : State) (k : Packet) : CollFate :=
  match s.anyRecord (cf k 12 2) with
  | none => .drop
  | some g =>
    if cf k 16 4 < g.epoch.toNat then .stale
    else if cf k 16 4 ≠ g.epoch.toNat ∨ cf k 20 4 ≠ g.digest then .wait
    else
      match (s.collsOf (cf k 12 2)).find? fun x => x.2.2.coll.gseq == cf k 24 8 with
      | some x => .take x.1 x.2.1 g
      | none => if g.seq.toNat ≤ cf k 24 8 then .wait else .drop

/-- A collective packet for this module: the state, and whether its buffers stay in use. -/
def State.collPacket (s : State) (i : PeerPort) (k : Packet) (dl : Bool) : State × Bool :=
  match s.collFate k with
  | .wait => (s.keepPacket i k dl, true)
  | .stale => ({ s with peer := { s.peer with staleEpoch := satAdd 64 s.peer.staleEpoch 1 } }, false)
  | .drop =>
    (match s.anyRecord (cf k 12 2) with
      | none => s.discardPacket
      | some g => if k.ptype = 0x11 then s.relayDown k g else s, false)
  | .take p t g => ((if k.ptype = 0x10 then s.takeUp p t g k else s.takeDown p t g k), false)

/-- A WRITE for this module: it waits while a page of it is marked (R304, R345). -/
def State.writePacket (s : State) (i : PeerPort) (k : Packet) (dl : Bool) : State × Bool :=
  match s.serveWrite k with
  | .ok s1 => (s1, false)
  | .error w =>
    let s1 : State := { s with peer := { s.peer with admitted := s.peer.admitted.filter (·.1 != k) ++ [(k, w.2)] } }
    ((s1.awaitPage w.1).keepPacket i k dl, true)

/-- Waiting packets are looked at again. -/
def State.retryWaiting (s : State) : State :=
  s.peer.waiting.foldl (fun s x =>
    let r := if x.2.1.ptype = 1 then s.writePacket x.1 x.2.1 x.2.2 else s.collPacket x.1 x.2.1 x.2.2
    if r.2 then r.1 else r.1.release x.1 x.2.1 x.2.2) { s with peer := { s.peer with waiting := [] } }

/-- What follows a change of group records: collectives follow, waiting packets are looked at again. -/
def State.afterRecords (s : State) : State := s.syncColls.retryWaiting

/-- A collective starts (R220, R308, R309): it takes its group sequence number, which AUX1 reports however it ends, and its inputs. -/
def State.activateColl (s : State) (p : Port) (t : Tag) (g : GroupRec) (inputs : List (List Nat)) : State :=
  let c := s.cmd p t
  let s1 := (maskEngines c.mask).foldl (fun s e => s.updEng e fun x => { x with groups := x.groups.map fun r =>
    if r.2.state ≠ 0 ∧ r.2.id = c.gid then (r.1, { r.2 with seq := r.2.seq + 1 }) else r }) s
  s1.updCmd p t fun c => { c with
    aux1 := g.seq.toNat % 2 ^ 32
    coll := { c.coll with active := true, gseq := g.seq.toNat, epoch := g.epoch.toNat, digest := g.digest, inputs := inputs } }

/-- An earlier collective of the group has not started yet (R309). -/
def State.collBehind (s : State) (c : Cmd) : Bool :=
  s.cmds.any fun x => x.2.2.op == 0x0A && x.2.2.phase == .running && !x.2.2.coll.active && x.2.2.gid == c.gid
    && decide (x.2.2.order < c.order)

/-- The first work of a collective. -/
def State.beginColl (s : State) (p : Port) (t : Tag) : State :=
  let c := s.cmd p t
  match s.recordOf c with
  | none => s.faultCmd p t
  | some g =>
    if g.state ≠ 1 then s.faultCmd p t
    else if s.collBehind c then s
    else
      let ms := s.members g
      let go (s' : State) (inputs : List (List Nat)) : State :=
        let s1 := s'.activateColl p t g inputs
        (((if c.sparse then s1.orWait (s1.sparseStart p t (s1.cmd p t) ms) else s1.startSegs p t ms).goOn p t ms)).retryWaiting
      if c.cfmt = 0 then
        match s.tileInputs c (Cmd.tileAcc c.xhdr) with
        | .wait => s
        | .bad st => s.abortCmd p t st
        | .ready s1 ins n => go (s1.updCmd p t fun c => c.tally n) ins
      else if c.sparse || !c.coll.reads then go s []
      else
        match s.srcInputs c with
        | .error _ => s
        | .ok ins => go s ins

/-- The engine that moves a collective's data is free to, and what its read streams fetch is in. -/
def State.collIn (s : State) (p : Port) (t : Tag) : Bool :=
  (s.cmdSlots p t).any fun x =>
    some x.1 == (s.cmd p t).chosen && s.slotRuns x.1 x.2.1 && s.inputsIn x.1 p t fun _ => 2 ^ 64

/-- A module that a change of epoch makes the root of a BROADCAST reads its SRC, and begins once that is in (R320). -/
def State.lateRoot (s : State) (p : Port) (t : Tag) (ms : List (Nat × List Nat)) : State :=
  let c := s.cmd p t
  if c.cop ≠ 4 ∨ !c.coll.inputs.isEmpty ∨ (ms.headD (0, [])).1 ≠ s.peer.nodeId then s
  else if !c.coll.reads then (s.updColl p t fun g => { g with reads := true }).growStream p t 0 (c.f 72 8 * cfmtBytes c.cfmt)
  else if !s.collIn p t then s
  else
    match s.srcInputs c with
    | .error _ => s
    | .ok ins => (s.updColl p t fun g => { g with inputs := ins }).startSegs p t ms

/-- COLLECTIVE (R305 to R320): it starts, then writes and completes as its segments arrive. -/
def execCollective (p : Port) (t : Tag) (s : State) : Out :=
  .next (
    let c := s.cmd p t
    if !s.running p t 0x0A ∨ (s.cmdSlots p t).all (fun x => !s.slotRuns x.1 x.2.1) then s
    else if !c.coll.active then (if s.collIn p t then s.beginColl p t else s)
    else
      let s1 := s.syncColl p t
      match s1.recordOf c with
      | some g => (s1.lateRoot p t (s1.members g)).goOn p t (s1.members g)
      | none => s1)

/-- A collective that ends early departs from its group, as its peers see it (R315, R317) (DEDUCED, log entry 38). -/
def State.departColl (s : State) (c : Cmd) : State :=
  if c.op = 0x0A ∧ c.coll.active ∧ 0x10 ≤ c.finalStatus then
    match s.recordOf c with
    | some g =>
      let gone := (maskEngines c.mask).filter fun e => (s.liveOf g s.peer.nodeId).contains e.val
      if gone.isEmpty then s else s.departOwn (gone.foldl (fun m e => m ||| engBit e) 0)
    | none => s
  else s

/-- The writes of a command are out: all of them where it took its effect, those that were issued otherwise; a fenced engine's are
discarded (R219, R254, R328, R334). -/
def State.writesOut (s : State) (p : Port) (t : Tag) : Bool :=
  let full := decide ((s.cmd p t).finalStatus < 0x10)
  (Tab.keysBelow 64 s.engines).all fun e => s.isolated e || s.inReset e || (List.finRange 16).all fun i =>
    let x := s.strm e i
    x.state == .idle || x.port != p || x.tag != t || x.isRead || (x.reqs.isEmpty && (!full || decide (x.length ≤ x.landed)))

/-- A command that has joined another at a tile takes its status only after that one has (R87). -/
def State.joinOpen (s : State) (p : Port) (t : Tag) : Bool :=
  decide ((s.cmd p t).finalStatus < 0x10) && s.joinWaits p t

/-- The header of a CHECKPOINT lies in memory only where the command completes with OK (R341, R349); where its page translates no more, nothing is
stored. -/
def State.storeHeader (s : State) (p : Port) (t : Tag) : State :=
  let c := s.cmd p t
  if c.op ≠ 0x0D ∨ c.atPeer ∨ 0x10 ≤ c.finalStatus ∨ c.snap.header.isEmpty then s
  else s.vwriteGo s c.ctx 3 (c.f 64 8) c.snap.header

/-- The header of a CHECKPOINT would lie on a page that another one has marked and not yet read (R345). -/
def State.headerWaits (s : State) (p : Port) (t : Tag) : Option Nat :=
  let c := s.cmd p t
  if c.op ≠ 0x0D ∨ c.atPeer ∨ 0x10 ≤ c.finalStatus ∨ c.snap.header.isEmpty then none
  else
    match s.writableGo c.ctx 3 (c.f 64 8) 4096 with
    | some x => if x.kind = 0 then some x.page else none
    | none => none

/-- COMMAND_VISIBILITY (R87, R206, R218, R219, R234, R328): steps 7 and 8 of a command whose work has ended, whose drains are over and
whose writes are acknowledged; its slots, working set and streams return, and its record is formed. -/
def execCommandVisibility (p : Port) (t : Tag) (s : State) : Out :=
  .next (
    if (s.cmd p t).phase ≠ .ended ∨ s.drains p t ∨ !s.writesOut p t ∨ s.joinOpen p t then s
    else
      match s.headerWaits p t with
      | some g => s.awaitPage g
      | none =>
        (((((((s.departColl (s.cmd p t)).signal p t).storeHeader p t).releaseSlots p t).dropSide p t).updCmd p t fun c =>
          { c with phase := .record, time := s.hk }).settle (s.cmd p t).ctx).afterRecords)

/-- COLL_PACKET_WAIT_TIMEOUT (R319): the `n`-th waiting packet waits for its epoch no longer. -/
def execCollPacketWaitTimeout (n : Nat) (s : State) : Out :=
  .next (match s.peer.waiting[n]? with
    | none => s
    | some (i, k, dl) =>
      if k.ptype = 1 then s
      else match s.anyRecord (cf k 12 2) with
      | some g =>
        if cf k 16 4 = g.epoch.toNat ∧ cf k 20 4 = g.digest then s
        else
          ({ s with peer := { s.peer with
            waiting := s.peer.waiting.eraseIdx n, staleEpoch := satAdd 64 s.peer.staleEpoch 1 } }).release i k dl
      | none =>
        ({ s with peer := { s.peer with
          waiting := s.peer.waiting.eraseIdx n, staleEpoch := satAdd 64 s.peer.staleEpoch 1 } }).release i k dl)

end Sys2Proof.Machine
end

