-- ==== Sys2Proof/Machine/Links.lean ====
section
/-!
DEFINITION. Peer ports: received flits, retry, identity, training, and the packets a module receives
(12 R285 to R304, R317; 16 R401).
-/

namespace Sys2Proof.Machine

/-! ### Retry and credits -/

/-- HKCLK cycles of 1 µs. -/
def hkMicro : W64 := 188

/-- A bad flit, or one out of order, on an UP port: it and those behind it are discarded, and one NAK a microsecond goes out for a SEQ (R290)
(DEDUCED, log entry 35). -/
def State.badFlit (s : State) (i : PeerPort) : State :=
  let l := s.link i
  let last := (l.expected + 4095) % 4096
  let quiet := match l.nakFor with
    | some x => x.1 == last && decide (s.hk - x.2 < hkMicro)
    | none => false
  if l.state ≠ .up then s
  else
    let s1 := s.updLink i fun l => { l with discarding := true, nakFor := if quiet then l.nakFor else some (last, s.hk) }
    if quiet then s1 else s1.linkFlit i 3 (toLe 1 1 ++ toLe 1 0 ++ toLe 2 last) (.nak i last)

/-- A flit's CRC does not match (R287). -/
def crcBad (b : List Byte) : Bool := crc32 (b.take 252) != fld b 252 4

/-- A flit is bad by its FTYPE, or is a HEAD or DATA flit whose SEQ is not the next one expected (R287, R290). -/
def PeerLink.refuses (l : PeerLink) (b : List Byte) : Bool :=
  decide (3 < fld b 0 1) || ((fld b 0 1 == 1 || fld b 0 1 == 2) && fld b 2 2 % 4096 != l.expected)

/-- FEC and CRC are decoded: the port is UP, or has FEC lock in training (R286, R293). -/
def LinkState.decodes : LinkState → Bool
  | .up => true
  | .step n => n.val == 3
  | _ => false

/-- A flit that is good, in order, and not the last of its packet. -/
def PeerLink.partOk (l : PeerLink) (b : List Byte) : Bool :=
  !crcBad b && !l.refuses b && (fld b 0 1 == 1 || fld b 0 1 == 2) && !bitOf (fld b 1 1) 3

/-- The pair of virtual channel and dateline class that a flit carries (R287, R292). -/
def flitPair (b : List Byte) : Nat := 2 * (fld b 1 1 % 4) + fld b 1 1 / 4 % 2

/-- Flits of a packet that has not ended are accepted one by one, as long as they are good and in order; without a credit the link goes down (R289 to
R292). -/
def State.takePart (s : State) (i : PeerPort) : List (List Byte) → State
  | [] => s
  | b :: bs =>
    let l := s.link i
    let j := flitPair b
    if l.state ≠ .up ∨ !l.partOk b then s
    else if 256 < Tab.get 0 l.held j + Tab.get 0 l.owed j + 1 then s.linkDown i
    else (s.updLink i fun l => { (l.accept j 1) with partly := (j, l.partly.2 + 1) }).takePart i bs

/-- A flit that is bad by the FEC, by its CRC or FTYPE, or out of order; a good one that is expected does nothing here. -/
def State.judgeFlit (s : State) (i : PeerPort) (why : BadFlit) : State :=
  match why with
  | .fec _ n => (s.updLink i fun l => l.bump cntFecUncorrectable n).badFlit i
  | .flit _ b =>
    if crcBad b then (s.updLink i fun l => l.bump cntCrcErrors 1).badFlit i
    else if (s.link i).refuses b then s.badFlit i
    else s

/-- The flits of an unfinished packet that came before a bad one. -/
def badBefore : BadFlit → List (List Byte)
  | .fec l _ => l
  | .flit l _ => l

/-- BAD_FLIT_RECEIVED (R286, R287, R290): the flits before it are accepted, so that the NAK names the last of them. -/
def execBadFlitReceived (i : PeerPort) (why : BadFlit) (s : State) : Out :=
  .next (if (s.link i).state.decodes then (s.takePart i (badBefore why)).judgeFlit i why else s)

/-- The unacknowledged flits after a SEQ (R290). -/
def PeerLink.after (l : PeerLink) (seq : Nat) : List Flit :=
  match l.replay.findIdx? fun x => x.seq == seq with
  | some k => l.replay.drop (k + 1)
  | none => l.replay

/-- Flits are resent in order and counted; the 16th time of one takes the link down (R290, R291); not with the transmitters off (R333). -/
def State.resend (s : State) (i : PeerPort) (fl : List Flit) : State :=
  if s.peer.txOff || fl.isEmpty then s
  else
    let r := (s.link i).sendFlits fl
    let s1 := (s.updLink i fun _ =>
      { (r.2.bump cntReplayed fl.length) with resends := fl.foldl (fun t x => Tab.upd 0 t x.seq fun v => v + 1) r.2.resends }).emit
        (.resend i (fl.map (·.seq)) r.1)
    if fl.any fun x => decide (16 ≤ Tab.get 0 (s1.link i).resends x.seq) then s1.linkDown i else s1

/-- NAK (R290). -/
def execNak (i : PeerPort) (seq : BitVec 12) (s : State) : Out :=
  .next (if (s.link i).state = .up then s.resend i ((s.link i).after seq.toNat) else s)

/-- An ACK releases the flits up to it (R289). -/
def PeerLink.acknowledge (l : PeerLink) (a : Nat) : PeerLink :=
  match l.replay.findIdx? fun x => x.seq == a with
  | some k =>
    let gone := (l.replay.take (k + 1)).map (·.seq)
    { l with replay := l.replay.drop (k + 1), acked := a, resends := l.resends.filter fun x => !gone.contains x.1 }
  | none => l

/-- CREDIT counts return buffers (R287, R292). -/
def PeerLink.credit (l : PeerLink) (w : Nat) : PeerLink :=
  { l with credits := (List.range 8).foldl (fun t j => Tab.upd 0 t j fun v => min 256 (v + bitsOf w (4 * j + 3) (4 * j))) l.credits }

/-- IDLE (R287 to R289, R292): ACK and CREDIT of a received flit. -/
def execIdle (i : PeerPort) (ack : Option (BitVec 12)) (credit : W32) (s : State) : Out :=
  .next (
    if (s.link i).state ≠ .up then s
    else
      (s.updLink i fun l =>
        let l1 := match ack with | some a => l.acknowledge a.toNat | none => l
        l1.credit credit.toNat).pump i)

/-- ACK_TIMEOUT (R291). -/
def execAckTimeout (i : PeerPort) (s : State) : Out :=
  .next (if (s.link i).replay.isEmpty then s else (s.linkDown i).afterRecords)

/-- FEC_LOCK_LOST (R291). -/
def execFecLockLost (i : PeerPort) (s : State) : Out := .next (s.linkDown i).afterRecords

/-! ### The FEC code -/

/-- Twice an element of GF(2^10), by IEEE 802.3's field polynomial x^10 + x^3 + 1 (R284; PRESUMED, log entry 36). -/
def gfDouble (a : Nat) : Nat := if a < 512 then 2 * a else (2 * a) ^^^ 0x409

/-- The product of two elements, by the bits of the second. -/
def gfMulGo : Nat → Nat → Nat → Nat → Nat
  | 0, _, _, r => r
  | n + 1, a, b, r => gfMulGo n (gfDouble a) (b / 2) (if b % 2 = 1 then r ^^^ a else r)
def gfMul (a b : Nat) : Nat := gfMulGo 10 a b 0

/-- The generator polynomial of RS(544,514), highest power first: its roots are the powers 0 to 29 of 2 (PRESUMED, log entry 36). -/
def rsGenerator : List Nat :=
  ((List.range 30).foldl (fun (g : List Nat × Nat) _ =>
    (((g.1 ++ [0]).zip (0 :: g.1)).map fun (x : Nat × Nat) => x.1 ^^^ gfMul x.2 g.2, gfDouble g.2)) ([1], 1)).1

/-- The 30 parity symbols of 514 message symbols (R284). -/
def rsParity (msg : List Nat) : List Nat :=
  let g := rsGenerator.drop 1
  msg.foldl (fun p m =>
    let q := m ^^^ p.headD 0
    let sh := p.drop 1 ++ [0]
    if q = 0 then sh else (sh.zip g).map fun x => x.1 ^^^ gfMul x.2 q) (List.replicate 30 0)

/-- The message symbols of a port's alignment codeword (R285): on each lane the pattern, the lane, the port, and the presets while step 1 of
training runs. -/
def alignmentMessage (i : PeerPort) (step1 : Bool) : List Nat :=
  (List.range 514).map fun k =>
    let j := k / 8
    if j < 8 then 0x2B5
    else if j = 8 then k % 8
    else if j = 9 then i.val
    else if j < 16 ∧ step1 = true then Config.presetSymbol i.val (k % 8) j % 1024
    else 0

/-- A codeword's symbols by lane: symbol k goes to lane k mod 8 (R285). -/
def stripe (w : List Nat) : List (List Nat) := (List.range 8).map fun n => (List.range 68).map fun j => w.getD (8 * j + n) 0

/-- The message symbols that bytes fill, ten bits to each, a byte's lowest bit first (R284, R285; PRESUMED, log entry 36). -/
def symbolsOf (b : List Byte) : List Nat := (List.range (8 * b.length / 10)).map fun k => bitsOf (leNat b) (10 * k + 9) (10 * k)

/-- A codeword of 514 message symbols, by lane (R284, R285). -/
def codeword (m : List Nat) : List (List Nat) := stripe (m ++ rsParity m)

/-- The data codewords that the bytes of flits fill, two for each 1,285 bytes (R285). -/
def codewordsOf : Nat → List Byte → List (List (List Nat))
  | 0, _ => []
  | n + 1, b =>
    let m := symbolsOf (b.take 1285)
    [codeword (m.take 514), codeword (m.drop 514)] ++ codewordsOf n (b.drop 1285)

/-- Training step 1 runs (R293). -/
def LinkState.inStep1 : LinkState → Bool
  | .step n => n.val == 0
  | .down => true
  | _ => false

/-- ALIGNMENT_CODEWORD (R285): sent after every 4,095 data codewords while the transmitter runs; the flits sent since the last one are laid into theirs (DESIGN
CHOICE, log entry 36: IDLE flits that say nothing new are left out of them). -/
def execAlignmentCodeword (i : PeerPort) (s : State) : Out :=
  .next (if (s.link i).state = .disabled ∨ (s.link i).state = .failed ∨ s.peer.txOff then s
    else
      let b := (s.link i).line
      (s.updLink i fun l => { l with codewords := l.codewords + 1, line := l.line.drop (b.length / 1285 * 1285) }).emit
        (.alignment i (codewordsOf (b.length / 1285) b) (codeword (alignmentMessage i (s.link i).state.inStep1))))

/-! ### Training -/

/-- A port may train (R293). -/
def State.mayTrain (s : State) (i : PeerPort) : Bool := s.peer.valid && (s.link i).enable && !s.peer.txOff

/-- Training from step 1. -/
def State.train (s : State) (i : PeerPort) : State :=
  if s.mayTrain i then s.updLink i fun l =>
    { l with
      state := .step 0, polInv := 0, reversed := false, miswired := false, laneFault := false, identFault := false
      failStep := 0, identGot := false, identAcked := false, failedHeld := false, line := [] }
  else s

/-- The step of R293 that a port is in. -/
def LinkState.stepNo : LinkState → Nat
  | .step n => n.val + 1
  | .down => 1
  | .up => 5
  | _ => 0

/-- Training ends in FAILED: the replay buffer is discarded and counted, the link is blocked, and what a resumption would have kept is over
(R291, R293, R301). -/
def State.failPort (s : State) (i : PeerPort) : State :=
  let s1 := s.updLink i fun l =>
    { (l.bump cntFlitsDiscarded l.replay.length) with
      state := .failed, failStep := l.state.stepNo, replay := [], resends := [], retrain := false, wentDown := false, nextSeq := 0
      expected := 0, accepted := false, ackDue := false, owed := [], partly := (0, 0), line := [], barred := true }
  { s1 with peer := s1.peer.block s.peer.nodeId i.val }

/-- The module's own identity record for a port (R295). -/
def State.identOf (s : State) (i : PeerPort) : IdentRec :=
  { node := s.peer.nodeId, port := i.val, dims := s.peer.dxM1 + s.peer.dyM1 * 2 ^ 6 + s.peer.dzM1 * 2 ^ 12
    credits := 256, version := 1 }

/-- The IDENT of a port goes out in its LINK flit (R288, R295). -/
def State.sendIdent (s : State) (i : PeerPort) : State :=
  let r := s.identOf i
  s.linkFlit i 3 (toLe 1 2 ++ toLe 3 r.node ++ toLe 1 r.port ++ toLe 3 r.dims ++ toLe 2 r.credits ++ toLe 1 r.version) (.ident i r)

/-- Flits of a pair among a list. -/
def pairCount (l : List Flit) (pair : Nat) : Nat := (l.filter fun x => x.pair == pair).length

/-- A port comes UP (R291 to R293, R298, R317): credits are new, what was not acknowledged is resent, routes follow, and a link whose loss was told
is told to be back (DEDUCED, log entry 35). -/
def State.portUp (s : State) (i : PeerPort) : State :=
  let l := s.link i
  let s1 := s.updLink i fun l =>
    { l with
      state := .up, retrain := false, wentDown := false, told := false, barred := false, resends := [], discarding := false, nakFor := none, owed := []
      credits := (List.range 8).map fun j => (j, 256 - pairCount l.replay j)
      held := (List.range 8).map fun j => (j, ((s.peer.waiting.filter fun x => x.1 == i && pairOf x.2.1 x.2.2 == j).map
        fun x => flitsOf x.2.1).sum + if l.partly.1 = j then l.partly.2 else 0) }
  let s2 := { s1 with peer := { s1.peer with
    detours := s1.peer.detours.filter fun x => x != (s.peer.nodeId, i.val) && x != (l.nbrNode, l.nbrPort)
    downLinks := s1.peer.downLinks.filter fun x => x != (l.nbrNode, l.nbrPort)
    upLinks := s1.peer.upLinks.filter (· != (l.nbrNode, l.nbrPort)) ++ [(l.nbrNode, l.nbrPort)] } }
  let s3 := s2.reroutes.resend i l.replay
  (if l.told then s3.issueNotice 2 l.nbrPort l.nbrNode 0 else s3).pump i

/-- A lane's identity with its polarity: inverted where it receives the pattern inverted in every bit; none where it shows no alignment
codeword (R285, R294). -/
def laneId : Option (Nat × Nat) → Option (Bool × Nat)
  | some (p, n) => if p = 0x2B5 then some (false, n) else if p = 0x2B5 ^^^ 0x3FF then some (true, n ^^^ 0x3FF) else none
  | none => none

/-- What training step 2 finds (R294): the lanes to invert and whether the order is reversed; none is LANE_FAULT. -/
def laneOrder (r : LaneReport) : Option (Nat × Bool) :=
  let ids := r.lanes.filterMap laneId
  let pol := (ids.zipIdx.map fun x => if x.1.1 then 2 ^ x.2 else 0).sum
  if r.lanes.length ≠ 8 ∨ ids.length ≠ 8 then none
  else if ids.map (·.2) = List.range 8 then some (pol, false)
  else if ids.map (·.2) = (List.range 8).reverse then some (pol, true)
  else none

/-- TRAINING_STEP_COMPLETE (R293, R294). -/
def execTrainingStepComplete (i : PeerPort) (lanes : LaneReport) (s : State) : Out :=
  .next (
    if !s.mayTrain i then s
    else
      match (s.link i).state with
      | .down => s.updLink i fun l => { l with state := .step 1 }
      | .step n =>
        match n.val with
        | 0 => s.updLink i fun l => { l with state := .step 1 }
        | 1 =>
          match laneOrder lanes with
          | none => (s.failPort i).updLink i fun l => { l with laneFault := true }
          | some (pol, rev) =>
            let s1 := s.updLink i fun l => { l with state := .step 2, polInv := pol, reversed := rev }
            if pol ≠ 0 ∨ rev = true then s1.setCauseAll i.val else s1
        | 2 => (s.updLink i fun l => { l with state := .step 3 }).sendIdent i
        | _ => if (s.link i).identGot && (s.link i).identAcked then (s.portUp i).afterRecords else s
      | _ => s)

/-- TRAINING_TIMEOUT (R293). -/
def execTrainingTimeout (i : PeerPort) (s : State) : Out :=
  .next (match (s.link i).state with
    | .down => s.failPort i
    | .step _ => s.failPort i
    | _ => s)

/-- The neighbour that training step 4 expects at a port (R296). -/
def State.wired (s : State) (i : PeerPort) (rec : IdentRec) : Bool :=
  s.peer.neighbour s.peer.nodeId i.val == rec.node && opposite i.val == rec.port

/-- IDENT (R291, R295, R296). -/
def execIdent (i : PeerPort) (rec : IdentRec) (s : State) : Out :=
  .next (
    let l := s.link i
    let s1 := s.linkFlit i 3 (toLe 1 3 ++ toLe 3 rec.node) (.identAck i rec.node)
    match l.state with
    | .up => s1
    | .step n =>
      if n.val ≠ 3 then s
      else if rec.dims ≠ (s.identOf i).dims ∨ rec.version ≠ 1 ∨ rec.credits ≠ 256 then
        (s1.failPort i).updLink i fun l => { l with identFault := true }
      else if l.wentDown && l.nbrSeen && (l.nbrNode != rec.node || l.nbrPort != rec.port) then s1.failPort i
      else
        let s2 := s1.updLink i fun l =>
          { l with
            nbrNode := rec.node, nbrPort := rec.port, nbrSeen := true, identGot := true, miswired := !s.wired i rec
            nextSeq := if l.wentDown then l.nextSeq else 0, expected := if l.wentDown then l.expected else 0
            accepted := l.wentDown && l.accepted, partly := if l.wentDown then l.partly else (0, 0)
            replay := if l.wentDown then l.replay else [] }
        if s.wired i rec then s2 else s2.setCauseAll i.val
    | _ => s)

/-- IDENT_ACK (R295): one that names the module's identity ends the sending of IDENT. -/
def execIdentAck (i : PeerPort) (node : Nat) (s : State) : Out :=
  .next (if (s.link i).state = .step 3 ∧ node = s.peer.nodeId then s.updLink i fun l => { l with identAcked := true } else s)

/-- IDENT_RESEND (R295). -/
def execIdentResend (i : PeerPort) (s : State) : Out :=
  .next (if (s.link i).state = .step 3 ∧ (s.link i).identAcked = false then s.sendIdent i else s)

/-- A port is taken out of UP for `st`: no loss of R291, so the link is not counted as down, and no resumption ties it to the neighbour that it
had (R291, R296). -/
def State.dropPort (s : State) (i : PeerPort) (st : LinkState) : State :=
  if (s.link i).state = .up then (s.linkLost i st).updLink i fun l => { l with wentDown := false }
  else s.updLink i fun l => { l with state := st, failedHeld := l.failedHeld || l.state == .failed }

/-- A request to train from step 1 (R293) (DEDUCED, log entry 35). -/
def State.retrainPort (s : State) (i : PeerPort) : State :=
  let s1 := s.updLink i fun l => { l with retrain := true }
  if !s.mayTrain i then s1 else (s1.dropPort i .disabled).train i

/-- RETRAIN (R293). -/
def execRetrain (i : PeerPort) (s : State) : Out := .next (if s.boot.ready then (s.retrainPort i).afterRecords else s)

/-- ENABLE of a peer port written 0: the port is held DISABLED (R293). -/
def State.disablePeer (s : State) (i : PeerPort) : State :=
  ((s.updLink i fun l => { l with enable := false }).dropPort i .disabled).updLink i fun l => { l with retrain := false }

/-- PEER_PORT_DISABLE (R293). -/
def execPeerPortDisable (i : PeerPort) (s : State) : Out := .next (if s.boot.ready then (s.disablePeer i).afterRecords else s)

/-- A port held DISABLED goes on: it trains, unless it was FAILED before and no RETRAIN has been requested (R293). -/
def State.startPort (s : State) (i : PeerPort) : State :=
  let l := s.link i
  if l.state ≠ .disabled ∨ !s.mayTrain i then s
  else if l.failedHeld && !l.retrain then s.updLink i fun l => { l with state := .failed, failedHeld := false }
  else s.train i

/-- ENABLE of a peer port written 1: a held port goes on. -/
def State.enablePeer (s : State) (i : PeerPort) : State := (s.updLink i fun l => { l with enable := true }).startPort i

/-- A write that the set-up lock ignores is counted (R8, R386) (DEDUCED, log entry 51). -/
def State.lockedWrite (s : State) : State := { s with sec := { s.sec with lockedWrites := satAdd 32 s.sec.lockedWrites 1 } }

/-- PEER.NODE takes a value (R293, R297, R386). -/
def State.writeNode (s : State) (v : Nat) : State :=
  let dx := bitsOf v 25 20
  let dy := bitsOf v 31 26
  let dz := bitsOf v 36 32
  let n := bitsOf v 16 0
  if s.sec.locked then s.lockedWrite
  else if bitOf v 63 && (decide (dx < coord n 0) || decide (dy < coord n 1) || decide (dz < coord n 2)) then s
  else
    let s1 := { s with peer := { s.peer with nodeId := n, dxM1 := dx, dyM1 := dy, dzM1 := dz, valid := bitOf v 63 } }
    if bitOf v 63 && !s.peer.valid then (List.finRange 6).foldl (fun s i => s.startPort i) s1
    else if !bitOf v 63 && s.peer.valid then (List.finRange 6).foldl (fun s i => s.dropPort i .disabled) s1
    else s1

/-- PEER_NODE_WRITE (R297). -/
def execPeerNodeWrite (value : W64) (s : State) : Out :=
  .next (if s.boot.ready then (s.writeNode value.toNat).afterRecords else s)

/-! ### Packets -/

/-- A packet for this module is another command's: one of a PTYPE of R303, and a NOTICE only where it is formed as R303 and R317 ask. -/
def otherRow (k : Packet) : Bool := [1, 2, 3, 4, 0x10, 0x11].contains k.ptype || (k.ptype == 0x20 && packetFormed k)

/-- PACKET_FORWARD (R299 to R302): a packet for another module; one that has arrived with an unknown PTYPE, or a NOTICE that breaks R303 or R317, is
discarded here (DEDUCED, log entry 36). -/
def execPacketForward (i : PeerPort) (pkt : Packet) (dl : Bool) (s : State) : Out :=
  .next (if pkt.dest = s.peer.nodeId ∧ otherRow pkt then s else (s.atHome i pkt dl fun s => (s, false)).afterRecords)

/-- WRITE (R304, R401). -/
def execWrite (i : PeerPort) (pkt : Arrived Packet) (s : State) : Out :=
  .next (if pkt.1.ptype ≠ 1 then s else (s.atHome i pkt.1 pkt.2 fun s => s.writePacket i pkt.1 pkt.2).afterRecords)

/-- READ (R304, R401). -/
def execRead (i : PeerPort) (pkt : Arrived Packet) (s : State) : Out :=
  .next (if pkt.1.ptype ≠ 3 then s else (s.atHome i pkt.1 pkt.2 fun s => (s.serveRead pkt.1, false)).afterRecords)

/-- The command that made a peer request still holds its tag and is at work. -/
def State.asks (s : State) (x : PeerTxn) : Bool :=
  (s.cmd x.port x.tag).phase == .running && (s.cmd x.port x.tag).order == x.order

/-- A peer request is over: its stream's request goes with its credit, its bytes moved if `ok` is set (R240, R304). -/
def State.endTxn (s : State) (x : PeerTxn) (ok : Bool) : State :=
  match (s.strm x.eng x.stream).reqs.findIdx? fun r => r.txn == some x.txn with
  | none => s
  | some n => if ok then s.landReq x.eng x.stream n
    else s.updStrm x.eng x.stream fun z => { z with reqs := z.reqs.eraseIdx n }.close

/-- A response to a request of this module: the command takes it, or ends with FAULT_ABORT where it is denied; one to an abandoned read counts as
melt; one that nothing waits for is dropped (R254, R304) (DEDUCED, log entry 40). -/
def State.takeResponse (s : State) (k : Packet) (read : Bool) : State :=
  match s.peer.txns.find? fun x => x.txn.toNat == pf k 12 4 && x.read == read with
  | none => s
  | some x =>
    let s1 := { s with peer := { s.peer with txns := s.peer.txns.filter (· != x) } }
    if x.dead then
      let s2 := s1.bump x.eng 0x8A8 x.len
      if (s.cmd x.port x.tag).phase = .free ∨ (s.cmd x.port x.tag).order ≠ x.order then s2
      else
        let s3 := s2.updCmd x.port x.tag fun c => { c with melted := c.melted + x.len }
        let y := s.strm x.eng x.stream
        if y.state = .idle ∨ y.port ≠ x.port ∨ y.tag ≠ x.tag then s3
        else s3.updStrm x.eng x.stream fun y => { y with meltBytes := y.meltBytes + x.len }
    else if pf k 16 1 ≠ 0 then
      let s2 := s1.endTxn x false
      if s.asks x then s2.faultCmd x.port x.tag else s2
    else if read then
      let put (d : List Byte) : List Byte := patch (d ++ List.replicate (x.off - d.length) 0) x.off (k.payload.take x.len)
      (s1.endTxn x true).updCmd x.port x.tag fun c => { c with snap := { c.snap with data := Tab.upd [] c.snap.data x.eng.val put } }
    else s1.endTxn x true

/-- WRITE_ACK (R304). -/
def execWriteAck (i : PeerPort) (pkt : Arrived Packet) (s : State) : Out :=
  .next (if pkt.1.ptype ≠ 2 then s else (s.atHome i pkt.1 pkt.2 fun s => (s.takeResponse pkt.1 false, false)).afterRecords)

/-- READ_DATA (R304). -/
def execReadData (i : PeerPort) (pkt : Arrived Packet) (s : State) : Out :=
  .next (if pkt.1.ptype ≠ 4 then s else (s.atHome i pkt.1 pkt.2 fun s => (s.takeResponse pkt.1 true, false)).afterRecords)

/-- PEER_RESPONSE_TIMEOUT (R304): the command that waits ends with FAULT_ABORT; an abandoned request is forgotten. -/
def execPeerResponseTimeout (txn : W32) (s : State) : Out :=
  .next (match s.peer.txns.find? fun x => x.txn == txn with
    | none => s
    | some x =>
      let s1 := ({ s with peer := { s.peer with txns := s.peer.txns.filter (· != x) } } : State).endTxn x false
      if !x.dead && s.asks x then s1.faultCmd x.port x.tag else s1)

/-- COLL_UP (R310 to R313, R319). -/
def execCollUp (i : PeerPort) (pkt : Arrived Packet) (s : State) : Out :=
  .next (if pkt.1.ptype ≠ 0x10 then s
    else (s.atHome i pkt.1 pkt.2 fun s => s.syncColls.collPacket i pkt.1 pkt.2).afterRecords)

/-- COLL_DOWN (R314, R319). -/
def execCollDown (i : PeerPort) (pkt : Arrived Packet) (s : State) : Out :=
  .next (if pkt.1.ptype ≠ 0x11 then s
    else (s.atHome i pkt.1 pkt.2 fun s => s.syncColls.collPacket i pkt.1 pkt.2).afterRecords)

/-- The packet that carries a notice. -/
def noticePacket (s : State) (rec : NoticeRec) : Packet := s.packetTo s.peer.nodeId 0x20 [] (noticeBytes rec)

/-- NOTICE (R301, R302, R317, R318): taken and flooded once for each (ORIGIN, NSEQ); one that breaks R303 comes as a PACKET_FORWARD, which discards
it. -/
def execNotice (i : PeerPort) (rec : Arrived NoticeRec) (s : State) : Out :=
  .next (
    (s.onPacket i (noticePacket s rec.1) rec.2 fun s1 =>
      if s1.peer.seen.contains (rec.1.origin, rec.1.nseq.toNat) then (s1, false)
      else ((({ s1 with peer := s1.peer.remember rec.1 }).applyNotice rec.1).flood rec.1 (some i), false)).afterRecords)

end Sys2Proof.Machine
end

