-- ==== Sys2Proof/Machine/Ledger.lean ====
section
/-!
DEFINITION. The ablation ledger and page retirement (13 R342, R343; 14 R355 to R357).
-/

namespace Sys2Proof.Machine

/-- A 64-byte ledger record (R356). -/
def ledgerRecord (type unit index seq op : Nat) (payload : List Byte) : List Byte :=
  let b := toLe 1 type ++ toLe 1 unit ++ toLe 1 index ++ toLe 1 0 ++ toLe 4 seq ++ toLe 8 op ++
    (payload ++ List.replicate (44 - payload.length) 0).take 44
  b ++ toLe 4 (crc32 b)

/-- Records of the log, and of the plans (R356). -/
def logRecords : Nat := 524288
def planRecords : Nat := 14336

/-- Write a record: into the log, the oldest giving way, and a PLAN record into the plans as well (R356). -/
def State.ledger (s : State) (type unit index op : Nat) (payload : List Byte) : State :=
  let a := s.age
  let b := ledgerRecord type unit index a.seq op payload
  { s with age := { a with
    log := Tab.set a.log (a.seq % logRecords) b
    seq := a.seq + 1
    plans := if type = 2 then Tab.set a.plans (a.planSeq % planRecords) b else a.plans
    planSeq := if type = 2 then a.planSeq + 1 else a.planSeq } }

/-- Operating seconds of a partition (R355). -/
def State.opOf (s : State) (q : Part) : Nat := (s.part q).opSeconds

/-- UNIT of a partition in records (R323). -/
def unitPart : Nat := 1

/-- Room in a stack's list of retired pages (R343). -/
def StackMem.full (k : StackMem) : Bool := decide (4096 ≤ k.retired.length)

/-- A page is retired: recorded while its list has room, otherwise held until the next module reset; class 8 and a RETIRE
record are written (R342, R343, R356). `why` is 1 uncorrectable, 2 confirmed after pending. -/
def State.retire (s : State) (m : Stack) (page why : Nat) (post : Bool) : State :=
  let k := s.stack m
  if k.retired.contains page || k.unrecorded.contains page then s
  else
    let s1 := s.updStack m fun k =>
      { k with
        retired := if k.full then k.retired else k.retired ++ [page]
        unrecorded := if k.full then k.unrecorded ++ [page] else k.unrecorded
        pending := k.pending.filter (· != page) }
    let s2 := if k.full then s1 else s1.ledger 6 2 m.val s.age.modOpSeconds (toLe 1 m.val ++ toLe 4 page ++ toLe 1 why)
    if post then s2.postErr { cls := 8, unit := 2, index := m.val, addr := (6 * page + m.val) * 65536 } else s2

/-- RETIRE_CONFIRM: every pending page of the stack is retired (R342). -/
def State.confirmRetire (s : State) (m : Stack) : State :=
  (s.stack m).pending.foldl (fun s g => s.retire m g 2 true) s

/-- RETIRE_CONFIRM (R342). -/
def execRetireConfirm (m : Stack) (s : State) : Out := .next (if s.boot.ready then s.confirmRetire m else s)

end Sys2Proof.Machine
end

