-- ==== Sys2Proof/Machine/Snapshots.lean ====
section
/-!
DEFINITION. CHECKPOINT and RESTORE (13 R344 to R350).
-/

namespace Sys2Proof.Machine

/-- CRC-64 carried on from a value (R348). -/
def crc64From (c : Nat) (bs : List Byte) : Nat := bs.foldl (fun c b => crc64Byte 8 (c ^^^ (b.toNat * 2 ^ 56))) c

/-- The slot of a snapshot command that carries section `k`, if it may work (R344). -/
def State.snapSlot (s : State) (p : Port) (t : Tag) (op k : Nat) : Option (Eng × SlotNo × Slot) :=
  if s.running p t op then (s.cmdSlots p t).find? fun x => (s.cmd p t).carries x.1 k && s.slotRuns x.1 x.2.1 else none

/-- Bytes set down to be sent to the peer, behind what an engine has sent or still has to send (R349). -/
def State.setDown (s : State) (p : Port) (t : Tag) (e : Eng) (b : List Byte) : State :=
  s.updCmd p t fun c => { c with snap := { c.snap with out := Tab.upd [] c.snap.out e.val (· ++ b) } }

/-- Store bytes of the image that an engine carries: locally at their offset, or set down for the peer (R349). -/
def State.storeImage (s : State) (p : Port) (t : Tag) (e : Eng) (off : Nat) (b : List Byte) : Except XErr State :=
  let c := s.cmd p t
  if c.atPeer then .ok (s.setDown p t e b) else s.vwrite c.ctx (c.f 64 8 + off) b

/-! ### CHECKPOINT -/

/-- What a CHECKPOINT has not read yet of its tensors: the rest of the one at hand and those behind it. -/
def Cmd.snapRest (c : Cmd) : List (Nat × Nat) :=
  match c.snap.tensors.drop c.progress with
  | [] => []
  | x :: r => (x.1 + c.snap.cur.length, x.2 - c.snap.cur.length) :: r

/-- Pages that have been read are unmarked, and what waited for them is looked at again (R345). -/
def State.unmark (s : State) (p : Port) (t : Tag) : State :=
  let c := s.cmd p t
  let left := c.snapRest.flatMap fun x => if x.2 = 0 then [] else s.pagesOf c.ctx x.1 x.2
  let rest := s.mem.marked.filter fun m => m.1 != tagField p t || left.contains m.2
  ({ s with mem := { s.mem with
    marked := rest, awaited := s.mem.awaited.filter fun a => rest.any fun m => m.2 == a
    torn := s.mem.torn.filter fun a => rest.any fun m => m.2 == a / 65536 } } : State).retryWaiting

/-- Bytes of a tensor as the snapshot takes them: those that a host wrote into a marked page through BAR4 are left open
(R345) (DEDUCED, log entry 34). -/
def State.tornOver (s : State) (ctx : CtxNo) (va : Nat) (bs : List Byte) : List Byte :=
  if s.mem.torn.isEmpty then bs
  else
    let free := Config.freeBytes s.fresh bs.length
    bs.zipIdx.map fun x =>
      match s.xlate ctx (va + x.2) false with
      | .hbm pa => if s.mem.torn.contains pa then free.getD x.2 0 else x.1
      | _ => x.1

/-- KIND of section `k` (R347). -/
def Cmd.secKind (c : Cmd) (k : Nat) : Nat := if k < c.snap.tensors.length then 1 else 2 + (k - c.snap.tensors.length)

/-- The 4 KiB header of a snapshot (R347). -/
def State.snapHeader (s : State) (c : Cmd) : List Byte :=
  let sizes := c.secSizes
  let n := sizes.length
  let entries := (List.range n).flatMap fun k =>
    toLe 1 (c.secKind k) ++ toLe 3 0 ++ toLe 4 (c.snap.crcs.getD k 0) ++ toLe 8 (secOffset sizes k) ++
      toLe 8 (sizes.getD k 0) ++ toLe 8 (if k < c.snap.tensors.length then (c.snap.tensors.getD k (0, 0)).1 else 0)
  let h := toLe 4 0x314B434A ++ toLe 2 1 ++ toLe 2 n ++ toLe 4 c.step ++ toLe 1 c.ctx.val ++ toLe 1 1 ++ toLe 2 0 ++
    toLe 4 s.peer.nodeId ++ toLe 4 0 ++ toLe 8 c.snap.digest ++ toLe 4 c.snap.loss ++ toLe 1 c.snap.lossFmt ++ toLe 3 0 ++
    toLe 8 (snapBytes sizes) ++ toLe 4 0 ++ toLe 12 0 ++ entries
  let b := h ++ List.replicate (4096 - h.length) 0
  patch b 48 (toLe 4 (crc32 b))

/-- The digest in AUX0 and AUX1 (R220). -/
def Cmd.digestAux (c : Cmd) : Cmd := { c with aux0 := c.snap.digest % 2 ^ 32, aux1 := c.snap.digest / 2 ^ 32 }

/-- The piece of the tensor at hand that lies on one page: its address and length. -/
def Cmd.snapPiece (c : Cmd) : Nat × Nat :=
  let x := c.snapRest.headD (0, 0)
  (x.1, min x.2 (pageLeft x.1))

/-- Bytes of a piece as the snapshot takes them: read out of turn before, or as they stand now. -/
def State.pieceBytes (s : State) (c : Cmd) (x : Nat × Nat) : Except XErr (List Byte) :=
  match c.snap.early.find? (·.1 == x.1) with
  | some b => .ok b.2
  | none => (s.vread c.ctx x.1 x.2).map (s.tornOver c.ctx x.1)

/-- Read the next piece of the tensor at hand. -/
def State.readPiece (s : State) (p : Port) (t : Tag) : Except XErr State := do
  let c := s.cmd p t
  let x := c.snapPiece
  let b ← s.pieceBytes c x
  pure ((({ s with fresh := s.fresh + 1 } : State).updCmd p t fun c =>
    { c with snap := { c.snap with cur := c.snap.cur ++ b, early := c.snap.early.filter (·.1 != x.1) } }).unmark p t)

/-- The pieces of the unread tensors that lie on a physical page. -/
def State.piecesOn (s : State) (c : Cmd) (page : Nat) : List (Nat × Nat) :=
  c.snapRest.flatMap fun x => (List.range ((x.1 % 65536 + x.2 + 65535) / 65536)).filterMap fun i =>
    let lo := max x.1 (x.1 / 65536 * 65536 + 65536 * i)
    let hi := min (x.1 + x.2) (x.1 / 65536 * 65536 + 65536 * (i + 1))
    if hi ≤ lo then none
    else if (s.xlate c.ctx lo false).page = some page then some (lo, hi - lo) else none

/-- A marked page that a write waits for is read next, and unmarked (R345). -/
def State.readEarly (s : State) (p : Port) (t : Tag) (page : Nat) : Except XErr State := do
  let c := s.cmd p t
  let bs ← eachE (fun x => (s.pieceBytes c x).map fun b => (x.1, b)) (s.piecesOn c page)
  pure ((({ s with
    fresh := s.fresh + 1
    mem := { s.mem with marked := s.mem.marked.filter (· != (tagField p t, page)) } } : State).updCmd p t fun c =>
      { c with snap := { c.snap with early := c.snap.early.filter (fun x => !bs.any (·.1 == x.1)) ++ bs } }).unmark p t)

/-- The bytes of the section at hand: a tensor once all of it is read, or a table. -/
def Cmd.section_ (c : Cmd) : Option (List Byte) :=
  match c.snap.tensors[c.progress]? with
  | some x => if x.2 ≤ c.snap.cur.length then some c.snap.cur else none
  | none => some (c.snap.tables.getD (c.progress - c.snap.tensors.length) [])

/-- A section of a CHECKPOINT is complete: it enters the digest if it is a tensor, its CRC is taken, and it is stored. -/
def State.saveSection (s : State) (p : Port) (t : Tag) (e : Eng) (b : List Byte) : Except XErr State :=
  let c := s.cmd p t
  let s1 := s.updCmd p t fun c => { c with progress := c.progress + 1, snap := { c.snap with
    cur := [], crcs := c.snap.crcs ++ [crc32 b]
    digest := if c.progress < c.snap.tensors.length then crc64From c.snap.digest b else c.snap.digest } }
  if c.digestOnly then .ok s1 else s1.storeImage p t e (secOffset c.secSizes c.progress) b

/-- The section whose carrier does a CHECKPOINT's next step: the one at hand, then the first, which the header goes with. -/
def Cmd.sectionAt (c : Cmd) : Nat := if c.progress < c.snapSecs then c.progress else 0

/-- Where section `k` begins in the read stream of the engine that carries it. -/
def Cmd.readPos (c : Cmd) (e : Eng) (k : Nat) : Nat := ((c.carried e (c.snap.tensors.take k)).map (·.2)).sum

/-- Every byte that a CHECKPOINT has set down so far is acknowledged, on every engine (R349). -/
def State.snapAcked (s : State) (p : Port) (t : Tag) : Bool :=
  (s.cmdSlots p t).all fun x => decide ((s.cmd p t).snapProduced x.1 ≤ s.landedTo (s.roleStrm x.1 p t 1))

/-- The header is made, and its write begins (R347, R349): a peer is sent it now, memory has it as the command completes with OK. -/
def State.setHeader (s : State) (p : Port) (t : Tag) (e : Eng) : State :=
  let c := s.cmd p t
  let h := s.snapHeader c
  let s1 := s.updCmd p t fun c => { c with progress := c.progress + 1, snap := { c.snap with header := h } }
  if c.atPeer then s1.setDown p t e h else s1

/-- CHECKPOINT (R344 to R349): pages that a write waits for first, then section by section, then the header once everything is
acknowledged, and its end once that is too. -/
def execCheckpoint (p : Port) (t : Tag) (s : State) : Out :=
  .next (
    let c := s.cmd p t
    match s.snapSlot p t 0x0D c.sectionAt with
    | none => s
    | some x =>
      match s.mem.awaited.find? fun g => s.mem.marked.contains (tagField p t, g) with
      | some g => s.orWait (s.readEarly p t g)
      | none =>
        if c.progress < c.snapSecs then
          match c.section_ with
          | some b => s.orWait (s.saveSection p t x.1 b)
          | none =>
            if c.readPos x.1 c.progress + c.snap.cur.length + c.snapPiece.2 ≤ s.landedTo (s.roleStrm x.1 p t 0) then s.orWait (s.readPiece p t)
            else s
        else if c.digestOnly then (s.updCmd p t Cmd.digestAux).doneCmd p t
        else if !s.snapAcked p t then s
        else if c.progress = c.snapSecs then s.setHeader p t x.1
        else (s.updCmd p t Cmd.digestAux).doneCmd p t)

/-! ### RESTORE -/

/-- Where section `k` of a RESTORE begins in the read stream of the engine that carries it: behind the header on the first. -/
def Cmd.loadPos (c : Cmd) (e : Eng) (k : Nat) : Nat :=
  (if c.carries e 0 then 4096 else 0) + ((c.carried e (c.secsNamed.take k)).map (·.2.2.2.1)).sum

/-- Bytes of the image that have landed, from their place `pos` in an engine's stream and offset `off` in the image; none where they are still to come. -/
def State.loadImage (s : State) (e : Eng) (p : Port) (t : Tag) (pos off n : Nat) : Except XErr (Option (List Byte)) :=
  let c := s.cmd p t
  if s.landedTo (s.roleStrm e p t 0) < pos + n then .ok none
  else if c.atPeer then .ok (some ((List.range n).map fun i => (Tab.get [] c.snap.data e.val).getD (pos + i) 0))
  else (s.vread c.ctx (c.f 64 8 + off) n).map some

/-- The header of a snapshot is good for a context (R350). -/
def headerGood (h : List Byte) (ctx : CtxNo) : Bool :=
  fld h 0 4 == 0x314B434A && fld h 4 2 == 1 && bitOf (fld h 13 1) 0 && fld h 12 1 == ctx.val
    && fld h 48 4 == crc32 (patch h 48 (toLe 4 0)) && decide (3 ≤ fld h 6 2 ∧ fld h 6 2 ≤ 123)

/-- A list without the zeros it ends in. -/
def trimZeros : List Nat → List Nat
  | [] => []
  | a :: l => if a = 0 ∧ trimZeros l = [] then [] else a :: trimZeros l

/-- The group record of a 128-byte image (R308). -/
def groupOfImage (b : List Byte) : GroupRec :=
  { id := fld b 0 2, state := fld b 2 1, ctx := Fin.ofNat 256 (fld b 3 1), epoch := BitVec.ofNat 32 (fld b 4 4)
    seq := BitVec.ofNat 64 (fld b 8 8), mapAddr := fld b 16 8, ndep := fld b 24 1, digest := fld b 28 4
    deps := trimZeros ((List.range 16).map fun i => fld b (64 + 4 * i) 3) }

/-- Scale tables of the partitions of ENGINE_ALLOW (R347, R350). -/
def State.restoreScales (s : State) (c : Cmd) (b : List Byte) : State :=
  ((partsOfMask (s.ctx c.ctx).engineAllow).zipIdx).foldl (fun s q =>
    s.updScales q.1 0 (fun i _ => scaleOfImage (slice b (32768 * q.2 + 32 * i) 32)) 1024) s

/-- Group records of the engines of ENGINE_ALLOW; a slot of another context is left alone (R347, R350) (DEDUCED, log entry 34). -/
def State.restoreGroups (s : State) (c : Cmd) (b : List Byte) : State :=
  ((maskEngines (s.ctx c.ctx).engineAllow).zipIdx).foldl (fun s e =>
    s.updEng e.1 fun g => { g with groups := (List.range 16).foldl (fun t k =>
      let old := Tab.get {} t k
      if old.state ≠ 0 ∧ old.ctx ≠ c.ctx then t else Tab.set t k (groupOfImage (slice b (2048 * e.2 + 128 * k) 128))) g.groups }) s

/-- Write a section where it belongs (R350). -/
def State.writeSection (s : State) (c : Cmd) (kind src : Nat) (b : List Byte) : Except XErr State :=
  match kind with
  | 1 => s.vwrite c.ctx src b
  | 2 => if c.groupTable = 0 then .ok s else s.vwrite c.ctx c.groupTable b
  | 3 => .ok (s.restoreScales c b)
  | 4 => .ok (s.restoreGroups c b)
  | _ => .ok s

/-- The destinations of the sections `k` onward of a failed RESTORE hold values that the manual leaves open (R350) (DEDUCED, log entry 34). -/
def State.spoil (s : State) (c : Cmd) (k : Nat) : State :=
  (((List.range (fld c.snap.header 6 2)).drop k).map (secEntry c.snap.header)).foldl (fun s x =>
    let free := Config.freeBytes s.fresh x.2.2.2.1
    match s.writeSection c x.1 x.2.2.2.2 ((List.range x.2.2.2.1).map fun i => free.getD i 0) with
    | .ok s1 => { s1 with fresh := s1.fresh + 1 }
    | .error _ => s) s

/-- The header of a RESTORE is here: it is checked, and what it names is fetched and written on the engines that carry it (R350). -/
def State.takeHeader (s : State) (p : Port) (t : Tag) (h : List Byte) : State :=
  if !headerGood h (s.cmd p t).ctx then s.endCmd p t stBadDescriptor
  else
    let ts := ((List.range (fld h 6 2)).map (secEntry h)).filter fun x => x.1 == 1
    let s1 := s.updCmd p t fun c => { c with snap := { c.snap with
      header := h, tensors := ts.map fun x => (x.2.2.2.2, x.2.2.2.1), digest := crc64 (toLe 4 (fld h 8 4)) } }
    (s1.cmdSlots p t).foldl (fun s x => s.refit x.1 p t) s1

/-- The section whose carrier does a RESTORE's next step: the first for the header and the end. -/
def Cmd.loadAt (c : Cmd) : Nat := if c.snap.header.isEmpty ∨ fld c.snap.header 6 2 ≤ c.progress then 0 else c.progress

/-- One step of a RESTORE on the engine that carries it (R350). -/
def State.restoreStep (s : State) (e : Eng) (p : Port) (t : Tag) : Except XErr State := do
  let c := s.cmd p t
  let h := c.snap.header
  if h.isEmpty then
    match (← s.loadImage e p t 0 0 4096) with
    | none => pure s
    | some h => pure (s.takeHeader p t h)
  else if fld h 6 2 ≤ c.progress then
    if c.snap.digest = fld h 24 8 then pure ((s.updCmd p t Cmd.digestAux).doneCmd p t)
    else pure ((s.spoil c 0).faultCmd p t)
  else
    let (kind, crc, off, n, src) := secEntry h c.progress
    match (← s.loadImage e p t (c.loadPos e c.progress) off n) with
    | none => pure s
    | some b =>
      if crc32 b ≠ crc then pure ((s.spoil c c.progress).faultCmd p t)
      else
        let s1 ← s.writeSection c kind src b
        pure (s1.updCmd p t fun c => { c with progress := c.progress + 1, snap := { c.snap with
          digest := if kind = 1 then crc64From c.snap.digest b else c.snap.digest } })

/-- RESTORE (R350): the header, then a section at a time, then the digest. -/
def execRestore (p : Port) (t : Tag) (s : State) : Out :=
  .next (match s.snapSlot p t 0x0E (s.cmd p t).loadAt with
    | none => s
    | some x => s.orWait ((s.restoreStep x.1 p t).map State.afterRecords))

end Sys2Proof.Machine
end

