-- ==== Sys2Proof/Machine/Selftest.lean ====
section
/-!
DEFINITION. Ageing, margin plans, self-test and calibration (14 R353 to R365).
-/

namespace Sys2Proof.Machine

/-! ### Plans -/

/-- Operating hours of a partition (R355). -/
def Partition.hours (a : Partition) : Nat := a.opSeconds / 3600

/-- Whether a PLAN record exists for a partition. -/
def Partition.planned (a : Partition) : Bool := !a.srefs.isEmpty

/-- DRIFT in 0.0001 ps per 1,000 h, as a fraction: the larger of 0.20 ps and the fitted fall of S_REF (R358). -/
def driftOf (ps : List (Nat × Int)) : Int × Int :=
  let n : Int := ps.length
  let sh : Int := (ps.map fun p => (p.1 : Int)).sum
  let ss : Int := (ps.map (·.2)).sum
  let hs : Int := (ps.map fun p => (p.1 : Int) * p.2).sum
  let hh : Int := (ps.map fun p => (p.1 : Int) * p.1).sum
  let den := n * hh - sh * sh
  let num := -(n * hs - sh * ss) * 1000
  if den ≤ 0 then (2000, 1) else if num ≤ 2000 * den then (2000, 1) else (num, den)

/-- What a plan gives. -/
structure Plan where
  code : Nat
  margin : Nat
  sref : Int
  drift : Nat
  vreq : Int
  deriving DecidableEq, Repr

/-- The plan of R358 from the smallest slack in 0.25 ps; lengths in 0.0001 ps, voltages in 0.1 mV. -/
def Partition.plan (a : Partition) (smin : Nat) : Plan :=
  let k : Int := (a.sensitivity.getD 800 : Nat)
  let v : Int := 7000 + 25 * (a.actualCode : Int)
  let x : Int := 2500 * (smin : Int) - 300000
  let sref : Int := 2500 * (smin : Int) + k * (8000 - v)
  let d := driftOf ((a.srefs.drop (a.srefs.length - 7)) ++ [(a.hours, sref)])
  -- vtgt - 700 mV in 0.1 mV is num / (k * d.2)
  let num : Int := (v - 7000) * k * d.2 - x * d.2 + d.1
  let raw := ceilDivI num (25 * k * d.2).toNat
  let code := (clampI 0 64 raw).toNat
  { code := if code + 2 < a.planCode then a.planCode - 2 else code
    margin := (clampI 0 0xFFFFFFFF ((8600 * k - v * k + x) * d.2 * 1000 / d.1)).toNat
    sref := sref, drift := (d.1 / d.2 / 100).toNat, vreq := 10 * v - 10 * x / k }

/-- The PLAN payload (R356): S_MIN, S_REF, K, DRIFT, V_REQ, codes, MARGIN_HOURS, LOWER_RESULT; `open_` stands for a V_REQ that its
two bytes of 0.01 mV do not hold, which the manual leaves open (DEDUCED, log entry 41). -/
def planPayload (smin k old open_ : Nat) (pl : Plan) : List Byte :=
  let vreq := if 0 ≤ pl.vreq ∧ pl.vreq < 65536 then pl.vreq.toNat else open_ % 65536
  toLe 2 smin ++ toLe 2 (pl.sref / 2500).toNat ++ toLe 2 k ++ toLe 2 pl.drift ++ toLe 2 vreq ++ toLe 1 old ++
    toLe 1 pl.code ++ toLe 4 pl.margin

/-- A bit of AGE.PLAN_CTL's masks. -/
def orBit (m i : Nat) : Nat := setBit m i

/-- A plan whose outcome is known: codes, margin, LOW_MARGIN, the PLAN record, the request cleared (R358, R359), and a PLDM event where the
margin falls below its warning threshold (R422). `lower` is LOWER_RESULT: 0 no lowering, 1 pass, 2 fail. -/
def State.finishPlan (s : State) (q : Part) (code margin : Nat) (sref : Int) (payload : List Byte) (lower : Nat) : State :=
  let s1 := s.updPart q fun a =>
    { a with
      planCode := code, target := code, marginHours := margin, planHours := a.hours, lowering := none, replanQueued := false
      lastPlan := payload ++ toLe 1 lower
      slackMin := none, srefs := (a.srefs ++ [(a.hours, sref)]).drop (a.srefs.length + 1 - 8) }
  let s2 := { s1 with age := { s1.age with
    replan := clearBit s1.age.replan q.val
    lowMargin := if margin < 8760 then orBit s1.age.lowMargin q.val else s1.age.lowMargin
    lowerFailed := if lower = 2 then orBit s1.age.lowerFailed q.val else s1.age.lowerFailed } }
  let s3 := s2.ledger 2 unitPart q.val (s.opOf q) (payload ++ toLe 1 lower)
  if margin < 8760 then
    let s4 := s3.setCauseAll 6
    if 8760 ≤ (s.part q).marginHours then s4.emit (.pldmEvent "sensor warning" (24 + q.val)) else s4
  else s3

/-- A free value: what the manual leaves open, fresh each time (DESIGN CHOICE, log entry 5). -/
def State.free (s : State) : State × W64 := ({ s with fresh := s.fresh + 1 }, Config.freeValue s.fresh)

/-- Make the plan of a partition (R358): a rise takes effect at once, a lowering waits for a window. A plan made while a lowering
waits takes that one's place, and one asked for while its trial runs is made after it (R359, R365); `own` where no SELFTEST asks for
it. The state, and the payload of a plan whose outcome is known (DEDUCED, log entry 41). -/
def State.makePlan (s : State) (q : Part) (own : Bool) : State × Option (List Byte) :=
  let a := s.part q
  if a.running.any (fun i => i.test == 0x20) then (s.updPart q fun a => { a with replanQueued := a.replanQueued || own }, none)
  else
    let r := match a.slackMin with
      | some v => (s, v)
      | none => let x := s.free; (x.1, x.2.toNat % 2 ^ 12)
    let o := r.1.free
    let pl := a.plan r.2
    let payload := planPayload r.2 (a.sensitivity.getD 800) a.planCode o.2.toNat pl
    if pl.code < a.planCode then
      (o.1.updPart q fun a => { a with
        lowering := some { own := own || a.lowering.any (·.own), code := pl.code, margin := pl.margin, sref := pl.sref, payload := payload } },
        none)
    else (o.1.finishPlan q pl.code pl.margin pl.sref payload 0, some payload)

/-- The rail code that a lowering trial moves to: one below the new plan code (R353, R358). -/
def PlanWait.trialCode (w : PlanWait) : Nat := w.code - 1

/-- A SENSITIVITY sweep goes on: fewer than 10 codes down, not at code 0, and no slack below 15 ps at the code it stands at (R363). -/
def Partition.sweeps (a : Partition) : Bool :=
  decide (0 < a.actualCode ∧ a.planCode < a.actualCode + 10)
    && !(a.sweep.any fun x => x.1 == a.actualCode && decide (x.2 < 60))

/-- RAIL_CODE_STEP (R353): outside a window, one code toward the target; inside, a lowering trial and a SENSITIVITY sweep step the
rail down (DEDUCED, log entry 41). -/
def execRailCodeStep (q : Part) (s : State) : Out :=
  .next (
    let a := s.part q
    let down : State := s.updPart q fun a => { a with actualCode := a.actualCode - 1 }
    if a.window then
      (if a.running.any (fun i => i.test == 0x11) && a.sweeps then down
       else if a.running.any (fun i => i.test == 0x20) && !a.raised
           && (a.lowering.any fun w => decide (w.trialCode < a.actualCode)) then down
       else s)
    else if a.actualCode < a.target ∧ a.actualCode < 64 then s.updPart q fun a => { a with actualCode := a.actualCode + 1 }
    else if a.target < a.actualCode ∧ a.planCode < a.actualCode then
      s.updPart q fun a => { a with actualCode := a.actualCode - 1 }
    else s)

/-! ### SELFTEST -/

/-- The worse of two results, in the order 1, 3, 2, 0 (R364). -/
def worse (a b : Nat) : Nat :=
  if a = 1 ∨ b = 1 then 1 else if a = 3 ∨ b = 3 then 3 else if a = 2 ∨ b = 2 then 2 else 0

/-- Entries of the result record that a SELFTEST waits for (R364). -/
def Cmd.testKeys (c : Cmd) : List Nat :=
  match c.f 50 2 with
  | 0x30 => List.range 8
  | 0x31 => List.range 6
  | _ => setBits 8 (c.f 52 1)

/-- The 272-byte result record (R364). -/
def Cmd.testRecord (c : Cmd) (result : Nat) (time : List Byte) : List Byte :=
  toLe 2 (c.f 50 2) ++ toLe 1 (c.f 52 1) ++ toLe 1 result ++ time ++ toLe 6 0 ++ (List.range 8).flatMap fun p =>
    match c.outs.find? (·.1 == p) with
    | some o => toLe 1 o.2.result ++ toLe 1 o.2.windows ++ toLe 1 (b2n o.2.preempted) ++ toLe 1 0 ++ toLe 1 o.2.failEngines ++
        toLe 3 0 ++ (o.2.values ++ List.replicate 24 0).take 24
    | none => toLe 1 0xFF ++ List.replicate 31 0

/-- A SELFTEST whose items all have a result writes its record and ends (R364). -/
def State.finishTest (s : State) (p : Port) (t : Tag) : State :=
  let c := s.cmd p t
  if c.phase ≠ .running ∨ c.op ≠ 0x0F ∨ c.progress = 0 ∨ !(c.testKeys.all fun k => c.outs.any (·.1 == k)) then s
  else
    let result := (c.outs.map (·.2.result)).foldl worse 0
    let mask (f : Nat → Bool) : Nat := ((c.outs.filter fun o => f o.2.result).map fun o => 2 ^ o.1).sum
    let aux1 := mask (· == 1) + 256 * mask fun r => r == 2 || r == 3
    s.orWait ((s.vwrite c.ctx (c.f 56 8) (c.testRecord result s.time48)).map fun s1 =>
      ((s1.ledger 3 5 0 s.age.modOpSeconds (toLe 2 (c.f 50 2) ++ toLe 1 (c.f 52 1) ++ toLe 4 result ++ toLe 4 aux1)).updCmd p t
        fun c => { c with aux0 := result, aux1 := aux1 }).doneCmd p t)

/-- An entry of a SELFTEST has its result. -/
def State.testOut (s : State) (p : Port) (t : Tag) (k : Nat) (o : ItemOut) : State :=
  (s.updCmd p t fun c => { c with outs := Tab.set c.outs k o }).finishTest p t

/-- The engines of a partition that an item's mask names: a mask of zero names them all (R363). -/
def itemEngines (q : Part) (arg : Nat) : List Eng :=
  (enginesOf q).filter fun e => arg == 0 || bitOf arg e.val

/-- An item of a SELFTEST has its result: it goes to that command, unless the command has ended and left its tag (R364, R365). -/
def State.itemOut (s : State) (q : Part) (it : TestItem) (o : ItemOut) : State :=
  match it.cmd with
  | none => s
  | some (p, t) => if (s.cmd p t).order = it.order ∧ (s.cmd p t).op = 0x0F then s.testOut p t q.val o else s

/-- What a SELFTEST's REPLAN item gives once its plan is made without a window of its own (R363, R364). -/
def planOut (b : List Byte) : ItemOut :=
  { result := 0, windows := 0, preempted := false, failEngines := 0, values := b.take 24 }

/-- A plan has its outcome: the trials that wait for it are withdrawn, and their SELFTESTs have it as their result (R358, R363, R365). -/
def State.withdrawTrials (s : State) (q : Part) (o : ItemOut) : State :=
  let shares (i : TestItem) : Bool := i.test == 0x20 && !i.again
  ((s.part q).items.filter shares).foldl (fun s i => s.itemOut q i o)
    (s.updPart q fun a => a.setItems (a.items.filter fun i => !shares i))

/-- The plan of a partition is made, and what waited for it has it or waits for its trial. -/
def State.planFor (s : State) (q : Part) (own : Bool) : State :=
  let r := s.makePlan q own
  match r.2 with
  | some b => r.1.withdrawTrials q (planOut b)
  | none => r.1.updPart q Partition.queueTrial

/-- A plan that no SELFTEST asked for. -/
def State.planNow (s : State) (q : Part) : State := s.planFor q true

/-- REPLAN (R358): a request for each partition of the mask. -/
def execReplan (mask : BitVec 8) (s : State) : Out :=
  .next (
    if !s.boot.ready then s
    else (List.finRange 8).foldl (fun s q =>
      if mask.getLsbD q.val then
        ({ s with age := { s.age with replan := orBit s.age.replan q.val } } : State).planNow q
      else s) s)

/-- PLAN_TIMER (R358): every 1,000 operating hours, and at the first start without a PLAN record. -/
def execPlanTimer (q : Part) (s : State) : Out :=
  .next (
    let a := s.part q
    if s.boot.ready && (!a.planned || decide (a.planHours + 1000 ≤ a.hours)) then s.planNow q else s)

/-- An item for a fenced engine or partition runs without a window (R362); a sweep runs only inside one, which a partition fenced as a
whole opens at once (R353) (DEDUCED, log entry 42). -/
def State.itemFenced (s : State) (q : Part) (it : TestItem) : Bool :=
  it.test != 0x20 && it.test != 0x11 && !(itemEngines q it.arg).isEmpty && (itemEngines q it.arg).all s.isolated

/-- The items of a partition that wait for a window; a lowering is deferred while a fence covers the partition (R360, R362, R365). -/
def State.windowItems (s : State) (q : Part) : List TestItem :=
  (s.part q).items.filter fun i =>
    windowTest i.test && !s.itemFenced q i && !(i.test == 0x20 && (enginesOf q).all s.isolated)

/-- The engine mask of a SELFTEST whose test takes one; PDM_SAMPLE reads every monitor, and SENSITIVITY and REPLAN move the whole partition's
rail (R363) (DEDUCED, log entry 42). -/
def Cmd.testMask (c : Cmd) : Nat := if [0x10, 0x11, 0x20].contains (c.f 50 2) then 0 else c.f 64 8

/-- A SELFTEST's test code has an item in the queue of each of its partitions (R363). -/
def Cmd.queues (c : Cmd) : Bool := c.f 50 2 != 0x30 && c.f 50 2 != 0x31

/-- Queue a SELFTEST's item in a partition: a REPLAN makes its plan at once and waits only for a lowering (R363). -/
def State.queueItem (s : State) (p : Port) (t : Tag) (q : Part) : State :=
  let c := s.cmd p t
  let test := c.f 50 2
  let put (s : State) (again : Bool) : State := s.updPart q fun a => a.setItems
    (a.items ++ [{ test := test, cmd := some (p, t), order := c.order, arg := c.testMask, again := again }])
  if test = 0x20 then
    let r := s.makePlan q false
    match r.2 with
    | some b => (r.1.withdrawTrials q (planOut b)).testOut p t q.val (planOut b)
    | none => put r.1 ((s.part q).running.any fun i => i.test == 0x20)
  else if c.queues then put s false
  else s

/-- SELFTEST (R360, R363, R364): its items are queued once every queue has room, and it ends when all have results. -/
def execSelftest (p : Port) (t : Tag) (s : State) : Out :=
  .next (
    let c := s.cmd p t
    if c.phase ≠ .running ∨ c.op ≠ 0x0F then s
    else if c.progress = 0 then
      let qs := (List.finRange 8).filter fun q => bitOf (c.f 52 1) q.val
      if c.queues && qs.any fun q => decide (16 ≤ (s.part q).queued) then s
      else qs.foldl (fun s q => s.queueItem p t q) (s.updCmd p t fun c => { c with progress := 1 })
    else s.finishTest p t)

/-! ### Windows -/

/-- µs of an item in a window (R353, R363): a lowering steps down, runs ARRAY_BIST and steps up (DEDUCED, log entry 42). -/
def itemMicros (it : TestItem) : Nat :=
  match it.test with | 1 => 18 | 2 => 6 | 0x10 => 2 | 0x11 => 36 | _ => 30

/-- The items of a queue that fit into 40 µs, SENSITIVITY alone (R360, R363). -/
def fitItems : Nat → List TestItem → List TestItem
  | _, [] => []
  | left, it :: r =>
    if it.test = 0x11 then (if left = 40 then [it] else [])
    else if itemMicros it ≤ left then it :: fitItems (left - itemMicros it) r
    else []

/-- An engine forms no product, drains nothing and runs nothing on its vector unit (R360): no command holds its array, no drain of
one is in progress, and none has begun on its vector unit (DEDUCED, log entry 42). -/
def State.betweenCommands (s : State) (e : Eng) : Bool :=
  (s.eng e).head.isNone && (s.slotsOf e).all fun v => !s.drainingOn e v.1 && !s.onVector v.2

/-- WINDOW_OPEN (R360, R361): the items that fit run, with nature's results. -/
def execWindowOpen (q : Part) (results : List ItemResult) (s : State) : Out :=
  .next (
    let a := s.part q
    let es := (enginesOf q).filter fun e => !s.isolated e
    let ready := if a.preempting then es.all s.atBoundary else es.all s.betweenCommands
    let its := fitItems 40 (s.windowItems q)
    if a.window || its.isEmpty || !ready || s.rcv.partInReset.getLsbD q.val then s
    else s.updPart q fun a =>
      { a with
        window := true, preempting := false, results := results, sweep := []
        running := its.map fun i => { i with preempted := a.preempting }
        items := its.foldl (fun l i => l.erase i) a.items })

/-- The outcome of a lowering trial (R358): the rail settles at the new code, or at the old one, and stays above either where an
emergency raise has failed the trial (R359). The REPLANs that shared the plan have it as their result, and a plan asked for meanwhile is
made now (R365). The state, the PLAN payload, and whether the trial failed. -/
def State.endTrial (s : State) (q : Part) (it : TestItem) (fail : Bool) : State × List Byte × Bool :=
  let a := s.part q
  match a.lowering with
  | none => (s, a.lastPlan, fail)
  | some w =>
    let failed := fail || a.raised
    let code := if failed then a.planCode else w.code
    let s1 := (s.finishPlan q code w.margin w.sref w.payload (if failed then 2 else 1)).updPart q fun b =>
      { b with actualCode := if a.raised then max code a.actualCode else code, raised := false }
    let b := (s1.part q).lastPlan
    let s2 := s1.withdrawTrials q
      { result := b2n failed, windows := 1, preempted := it.preempted, failEngines := 0, values := b.take 24 }
    let more := (s2.part q).items.any fun i => i.test == 0x20
    let s3 := s2.updPart q fun x => x.setItems (x.items.map fun i => { i with again := false })
    (if a.replanQueued || more then s3.planFor q a.replanQueued else s3, b, failed)

/-- k of a SENSITIVITY sweep in 0.001 ps/mV: the least-squares slope of slack over the codes it reached; none for fewer than two
codes (R363) (DEDUCED, log entry 42). -/
def sweepSlope (l : List (Nat × Nat)) : Option Int :=
  let n : Int := l.length
  let sx : Int := (l.map fun x => (x.1 : Int)).sum
  let sy : Int := (l.map fun x => (x.2 : Int)).sum
  let xy : Int := (l.map fun x => (x.1 : Int) * x.2).sum
  let xx : Int := (l.map fun x => (x.1 : Int) * x.1).sum
  let den := n * xx - sx * sx
  if l.length < 2 ∨ den ≤ 0 then none else some (100 * (n * xy - sx * sy) / den)

/-- The end of a SENSITIVITY sweep (R353, R363): the rail returns to the plan code, k is kept for the plans to come, and VALUES holds k
and the number of codes reached. -/
def State.endSweep (s : State) (q : Part) : State × Option (List Byte) :=
  let a := s.part q
  let s1 := s.updPart q fun a => { a with actualCode := a.planCode, sweep := [] }
  match sweepSlope a.sweep with
  | none => (s1, none)
  | some k => (s1.updPart q fun a => { a with sensitivity := if 0 < k then some (k.toNat % 65536) else a.sensitivity },
      some (toLe 2 (unsignedOf 16 k) ++ toLe 1 a.sweep.length))

/-- The window of a partition ends. -/
def State.shutWindow (s : State) (q : Part) : State :=
  s.updPart q fun a => { a with window := false, running := [], results := [] }

/-- A lowering trial of the open window that has not yet stood one code below the new plan code (R358). -/
def Partition.inTrial (a : Partition) : Bool :=
  a.running.any (fun i => i.test == 0x20) && !a.raised && (a.lowering.any fun w => decide (w.trialCode < a.actualCode))

/-- A fault closes a window at once: the running item is incomplete, the rail is back at its plan code, later items stay queued; a lowering
whose trial is cut off has it queued again, unless only that item asked for it, and a plan asked for meanwhile is made now
(R353, R358, R365) (DEDUCED, log entry 41). -/
def State.breakWindow (s : State) (q : Part) : State :=
  let a := s.part q
  if !a.window then s
  else
    let s1 := (s.shutWindow q).updPart q fun b =>
      Partition.keepLowering { b with
        items := (a.running.tail ++ b.items).map fun i => { i with again := false }
        sweep := [], actualCode := max b.planCode b.actualCode, raised := false, replanQueued := false }
    let s2 := match a.running.head? with
      | none => s1
      | some it => s1.itemOut q it { result := 3, windows := 1, preempted := it.preempted, failEngines := 0, values := [] }
    let more := ((a.running.tail ++ a.items).any fun i => i.again)
    if a.replanQueued || more then s2.planFor q a.replanQueued else s2

/-- The watchdog of an engine counts: no window holds its partition, no pre-emption has stopped an engine of it, and the engine is
neither quiesced nor fenced nor in reset (R325, R334, R361, R404). -/
def State.watched (s : State) (e : Eng) : Bool :=
  let a := s.part (partOf e)
  !a.window && !(a.preempting && ((enginesOf (partOf e)).filter fun f => !s.isolated f).any s.atBoundary)
    && !s.dbg.quiesce.getLsbD e.val && !s.isolated e && !s.inReset e

/-- PREEMPTION_TIMEOUT (R361): no window within 100 ms of an item reaching the head. -/
def execPreemptionTimeout (q : Part) (s : State) : Out :=
  .next (
    if (s.windowItems q).isEmpty || (s.part q).window then s else s.updPart q fun a => { a with preempting := true })

/-! ### Monitors -/

/-- A sample below half the guard, in 0.25 ps: one code up at once, or EXHAUSTED (R359); it stops a SENSITIVITY sweep, whose rail
then stands one above the plan code (R365) (DEDUCED, log entry 41). -/
def State.emergency (s : State) (e : Eng) (monitor slack : Nat) : State :=
  let q := partOf e
  let a := s.part q
  let s0 := if a.running.any (fun i => i.test == 0x11) then s.breakWindow q else s
  let code := (s0.part q).actualCode
  let pay (kind : Nat) : List Byte := toLe 1 kind ++ toLe 1 e.val ++ toLe 1 monitor ++ toLe 2 slack ++ toLe 1 code
  if 64 ≤ code then
    (({ s0 with age := { s0.age with exhausted := orBit s0.age.exhausted q.val } } : State).ledger 4 unitPart q.val (s.opOf q)
      (pay 2)).setCauseAll 6
  else
    let s1 := (s0.updPart q fun a =>
      { a with actualCode := a.actualCode + 1, target := max a.target (a.actualCode + 1), raises := satAdd 16 a.raises 1 }).ledger
        4 unitPart q.val (s.opOf q) (pay 1)
    (s1.updPart q fun a => { a with raised := a.running.any fun i => i.test == 0x20 }).planNow q

/-- The smaller of a kept minimum and a sample. -/
def minOpt (a : Option Nat) (b : Nat) : Option Nat := match a with | none => some b | some x => some (min x b)

/-- A SENSITIVITY sweep that has stepped the rail below its plan code: its monitors' samples are the sweep's (R363). -/
def Partition.sweeping (a : Partition) : Bool :=
  a.running.any (fun i => i.test == 0x11) && decide (a.actualCode < a.planCode)

/-- The smallest slack at the code that a sweep stands at. -/
def Partition.sweepSample (a : Partition) (v : Nat) : Partition :=
  match a.sweep.find? fun x => x.1 == a.actualCode with
  | some _ => { a with sweep := a.sweep.map fun x => if x.1 = a.actualCode then (x.1, min x.2 v) else x }
  | none => { a with sweep := a.sweep ++ [(a.actualCode, v)] }

/-- The samples of an engine's 16 monitors: the hour's smallest is kept with its monitor, one below half the guard raises the rail, and those
of a sweep tell it its slope and its end (R354, R359, R363) (DEDUCED, log entry 42). -/
def State.sampled (s : State) (e : Eng) (samples : List Nat) : State :=
  (samples.take 16).zipIdx.foldl (fun s x =>
    let v := x.1 % 2 ^ 12
    if (s.part (partOf e)).sweeping then s.updPart (partOf e) fun a => a.sweepSample v else
    let s1 := s.updEng e fun g =>
      if g.slack.isEmpty || decide (v < Tab.get 0 g.slack 0) then { g with slack := [(0, v), (1, x.2)] } else g
    let s2 := s1.updPart (partOf e) fun a => { a with slackMin := minOpt a.slackMin v }
    if v < 60 then s2.emergency e x.2 v else s2) s

/-- PATH_DELAY_SAMPLE (R354, R359, R363). -/
def execPathDelaySample (e : Eng) (samples : List Nat) (s : State) : Out := .next (s.sampled e samples)

/-! ### What an item gives -/

/-- The sixteen samples that a PDM_SAMPLE item reads on an engine of its partition (R363). -/
def itemSamples (r : ItemResult) (e : Eng) : List Nat := (r.slacks.drop (16 * (e.val % 8))).take 16

/-- PDM_SAMPLE reads every monitor of the partition, and VALUES holds the engines' smallest slacks, two bytes each (R363, R364)
(DEDUCED, log entry 42). -/
def State.readMonitors (s : State) (q : Part) (r : ItemResult) : State × List Byte :=
  ((enginesOf q).foldl (fun s e => s.sampled e (itemSamples r e)) s,
    (enginesOf q).flatMap fun e => toLe 2 ((itemSamples r e).foldl min 0xFFF))

/-- One item of a closing window has its result (R358, R363, R364). -/
def State.endItem (s : State) (q : Part) (it : TestItem) (r : ItemResult) : State :=
  let o : ItemOut := { result := b2n r.fail, windows := 1, preempted := it.preempted, failEngines := r.failEngines.toNat, values := [] }
  match it.test with
  | 0x20 =>
    let x := s.endTrial q it r.fail
    x.1.itemOut q it { o with result := b2n x.2.2, values := x.2.1.take 24 }
  | 0x11 =>
    let x := s.endSweep q
    match x.2 with
    | some v => x.1.itemOut q it { o with values := v }
    | none => x.1.itemOut q it { o with result := 3 }
  | 0x10 => let x := s.readMonitors q r; x.1.itemOut q it { o with values := x.2 }
  | _ => s.itemOut q it o

/-- WINDOW_CLOSE (R358, R360): a lowering trial runs at its code before its window closes. -/
def execWindowClose (q : Part) (s : State) : Out :=
  .next (
    let a := s.part q
    if !a.window || a.inTrial then s
    else ((a.running.zipIdx).foldl (fun s x =>
      s.endItem q x.1 (a.results.getD x.2 { fail := false, failEngines := 0, values := [] })) (s.shutWindow q)).updPart q
        Partition.queueTrial)

/-- An engine's tile memory after a march: what it held is gone (R363). -/
def Engine.marched (g : Engine) : Engine := { g with banks := [], builder := none }

/-- BACKGROUND_ITEM_COMPLETE (R362 to R364): an item that needs no window has its result, once the engines it names are out of their resets;
a march whose units are not fenced is not run. A partition buffer that is fenced holds nothing that a march could destroy (R328)
(DEDUCED, log entry 42). -/
def execBackgroundItemComplete (p : Port) (t : Tag) (q : Part) (result : ItemResult) (s : State) : Out :=
  .next (
    let c := s.cmd p t
    let test := c.f 50 2
    let mine := (s.part q).items.find? fun i => i.cmd == some (p, t)
    let named := itemEngines q c.testMask
    if c.phase ≠ .running ∨ c.op ≠ 0x0F ∨ c.progress = 0 ∨ !c.testKeys.contains q.val ∨ c.outs.any (·.1 == q.val) then s
    else if c.queues && (mine.all fun i => windowTest test && !s.itemFenced q i) then s
    else if c.queues && named.any s.inReset then s
    else
      let ran := if result.fail then 1 else 0
      let res := match test with
        | 3 => if named.all s.isolated then ran else if named.any s.isolated then worse ran 2 else 2
        | 4 => if s.rcv.partFence.getLsbD q.val || s.rcv.fenceAll then ran else 2
        | _ => ran
      let s1 := if c.queues then s.updPart q fun a => a.setItems (a.items.filter fun i => i.cmd != some (p, t)) else s
      let r : State × List Byte := match test with
        | 3 => ((named.filter s.isolated).foldl (fun s e => s.updEng e Engine.marched) s1, [])
        | 0x10 => s1.readMonitors q result
        | 0x30 => (s1, result.values)
        | 0x31 => (s1, result.values)
        | _ => (s1, [])
      r.1.testOut p t q.val
        { result := res, windows := 0, preempted := false, failEngines := result.failEngines.toNat, values := r.2 })

/-! ### Values over the hour -/

/-- The smaller of two eyes or margins over the hour, value by value with its lane or channel. -/
def worstEye (old : List Nat) (a b la lb : Nat) : List Nat :=
  match old with
  | [x, y, lx, ly] => (if a < x then [a] else [x]) ++ (if b < y then [b] else [y]) ++ (if a < x then [la] else [lx])
      ++ (if b < y then [lb] else [ly])
  | _ => [a, b, la, lb]

/-- The smallest value of a list with its place, the first of equals; 0 of an empty list. -/
def leastAt (l : List Nat) : Nat × Nat :=
  let m := (l.drop 1).foldl min (l.headD 0)
  (m, l.idxOf m)

/-- The smallest eye height and width of a port's lanes with the lane of each (R354, R356). -/
def LaneEye.height (l : LaneEye) : Nat := min l.low (min l.middle l.high)
def keepEyes (old : List Nat) (ls : List LaneEye) : List Nat :=
  let h := leastAt ((ls.take 8).map LaneEye.height)
  let w := leastAt ((ls.take 8).map (·.width))
  if ls.isEmpty then old else worstEye old h.1 w.1 h.2 w.2

/-- MONITOR_SAMPLE (R354). -/
def execMonitorSample (v : MonitorValue) (s : State) : Out :=
  .next (match v with
    | .oscillators q counts => s.updPart q fun a => { a with oscillators := counts.take 8 }
    | .peerEye i ls => { s with age := { s.age with peerEye := Tab.upd [] s.age.peerEye i.val fun o => keepEyes o ls } }
    | .hostEye p ls => { s with age := { s.age with hostEye := Tab.upd [] s.age.hostEye p.val fun o => keepEyes o ls } }
    | .hbmMargin m cs =>
      let r := leastAt ((cs.take 32).map fun c => c.1.toNat)
      let w := leastAt ((cs.take 32).map fun c => c.2.toNat)
      if cs.isEmpty then s
      else { s with age := { s.age with
        hbmMargin := Tab.upd [] s.age.hbmMargin m.val fun o => worstEye o r.1 w.1 r.2 w.2 } })

/-- The MEASURE payload of a partition (R356). -/
def State.measure (s : State) (q : Part) : List Byte :=
  ((enginesOf q).flatMap fun e =>
    let g := s.eng e
    toLe 2 (if g.slack.isEmpty then 0xFFF else Tab.get 0 g.slack 0 + 2 ^ 12 * Tab.get 0 g.slack 1)) ++
    ((List.range 8).flatMap fun i => toLe 2 ((s.part q).oscillators.getD i 0 / 16)) ++ toLe 1 (s.part q).actualCode

/-- The MEASURE payload of a port or a stack. -/
def eyePayload (l : List Nat) : List Byte := l.flatMap fun v => toLe 2 v

/-- HOURLY_LEDGER_SAVE (R355, R356): MEASURE records of partitions, peer ports, host ports and stacks; the hour begins anew. -/
def execHourlyLedgerSave (s : State) : Out :=
  .next (
    let op := s.age.modOpSeconds
    let s1 := (List.finRange 8).foldl (fun (s : State) q => s.ledger 1 unitPart q.val (s.opOf q) (s.measure q)) s
    let s2 := (List.finRange 6).foldl (fun (s : State) i => s.ledger 1 3 i.val op (eyePayload (Tab.get [] s.age.peerEye i.val))) s1
    let s3 := (List.finRange 2).foldl (fun (s : State) p => s.ledger 1 4 p.val op (eyePayload (Tab.get [] s.age.hostEye p.val))) s2
    let s4 := (List.finRange 6).foldl (fun (s : State) m => s.ledger 1 2 m.val op (eyePayload (Tab.get [] s.age.hbmMargin m.val))) s3
    { s4 with
      engines := s4.engines.map fun g => (g.1, { g.2 with slack := [] })
      age := { s4.age with peerEye := [], hostEye := [], hbmMargin := [], savedOp :=
        ((List.finRange 8).map fun q => (q.val, (s.part q).opSeconds)) ++ [(8, op)] } })

/-- The record that a read of the ledger gives, through AGE.LEDGER_CTL or through PLDM: one with a wrong CRC, or none, reads with TYPE 0 (R356, R357). -/
def State.ledgerAt (s : State) (index : Nat) (area : Nat) : List Byte :=
  let ok (b : List Byte) : List Byte :=
    if b.length = 64 ∧ fld b 60 4 = crc32 (b.take 60) then b else toLe 1 0 ++ (b ++ List.replicate 64 0).tail.take 63
  match area with
  | 0 => ok (Tab.get [] s.age.log index)
  | 1 => ok (Tab.get [] s.age.plans index)
  | 2 => (List.range 16).flatMap fun j =>
      let n := 16 * index + j
      match (Tab.get {} s.mem.stackMems (n / 4096) : StackMem).retired[n % 4096]? with
      | some g => toLe 4 (g + 2 ^ 31)
      | none => toLe 4 0
  | _ => List.replicate 64 0

/-- LEDGER_READ (R357). -/
def execLedgerRead (index : W32) (area : BitVec 2) (s : State) : Out :=
  .next (
    if !s.boot.ready then s
    else { s with age := { s.age with
      ledgerIndex := index, ledgerArea := area, ledgerData := s.ledgerAt index.toNat area.toNat } })

end Sys2Proof.Machine
end

