-- ==== Sys2Proof/Machine/Control.lean ====
section
/-!
DEFINITION. NOP, SEM, CANCEL, and the stop of a cancelled command at its output tiles (09 R209, R217, R223, R224).
-/

namespace Sys2Proof.Machine

/-- Work at step 6 that has nothing to do: the command goes on to its steps 7 to 9. -/
def State.nothingToDo (s : State) (p : Port) (t : Tag) (op : Nat) : State :=
  if (s.cmd p t).phase = .running ∧ (s.cmd p t).op = op then s.doneCmd p t else s

/-- NOP (R209). -/
def execNop (p : Port) (t : Tag) (s : State) : Out := .next (s.nothingToDo p t 0x00)

/-- SEM (R209, R217): its wait is step 3 and its signal step 8. -/
def execSem (p : Port) (t : Tag) (s : State) : Out := .next (s.nothingToDo p t 0x0B)

/-- A CANCEL selects a command of its context (R223). -/
def Cmd.selects (c x : Cmd) : Bool :=
  x.ctx == c.ctx && x.home.isNone && (match c.f 50 1 with
    | 0 => (BitVec.ofNat 32 (x.f 40 4) &&& BitVec.ofNat 32 (c.f 68 4)) == (BitVec.ofNat 32 (c.f 64 4) &&& BitVec.ofNat 32 (c.f 68 4))
    | 1 => x.ring.val == c.f 52 2 && inRange (BitVec.ofNat 32 (c.f 56 4), BitVec.ofNat 32 (c.f 60 4)) x.count
    | _ => true)

/-- What a selection does to one command: before step 6 it ends at once; a running one is to stop at its next output tile on
each engine, or now where it holds none; one whose work has ended keeps its status (R224). -/
def State.selectCmd (s : State) (by_ : Port × Tag × Nat) (p : Port) (t : Tag) : State :=
  let s1 := s.updCmd p t fun c => { c with cancellers := c.cancellers ++ [by_] }
  match (s.cmd p t).phase with
  | .running =>
    if (s1.cmdSlots p t).isEmpty then
      s1.abortCmd p t stCancelled
    else (s1.cmdSlots p t).foldl (fun s x => s.updSlot x.1 x.2.1 fun v => { v with stopping := true }) s1
  | .ended => s1
  | .record => s1
  | .cancelling => s1
  | _ => s1.abortCmd p t stCancelled

/-- SELECT 1 reaches counts not yet fetched while HEAD has not passed LAST (R223). -/
def State.addRange (s : State) (c : Cmd) : State :=
  let p := (s.ctx c.ctx).owner
  let first : W32 := BitVec.ofNat 32 (c.f 56 4)
  let last : W32 := BitVec.ofNat 32 (c.f 60 4)
  if h : c.f 52 2 < 512 then
    let g := s.ring p ⟨c.f 52 2, h⟩
    if c.f 50 1 = 1 ∧ g.state = .active ∧ g.ctx = c.ctx ∧ (last - g.head).toNat < 2 ^ 31 then
      s.updRing p ⟨c.f 52 2, h⟩ fun g => { g with cancelRanges := g.cancelRanges ++ [(first, last)] }
    else s
  else s

/-- CANCEL (R223, R224): it selects once, and completes when every command it selected has written its record (DEDUCED, log entry 57). -/
def execCancel (p : Port) (t : Tag) (s : State) : Out :=
  .next (
    let c := s.cmd p t
    if c.phase ≠ .running ∨ c.op ≠ 0x0C then s
    else if c.progress = 0 then
      let picked := s.cmds.filter fun x => c.selects x.2.2 && (x.1 != p || x.2.1 != t)
      (picked.foldl (fun s x => s.selectCmd (p, t, c.order) x.1 x.2.1) (s.updCmd p t fun c => { c with progress := 1 })).addRange c
    else if s.cmds.any fun x => x.2.2.cancellers.contains (p, t, c.order) then s
    else s.doneCmd p t)

/-- The next output-tile boundary is out of reach: the array waits for a stream that is halted (R224, R250, R254). -/
def State.haltedShort (s : State) (e : Eng) (v : Slot) : Bool :=
  !v.hasFormed && (List.finRange 16).any fun i =>
    let x := s.strm e i
    x.state == .halted && x.port == v.port && x.tag == v.tag && x.isRead && decide (s.landedTo x < s.needed e v x)

/-- A command may stop on an engine: at the start of an output tile, once its last tile has filled, where the boundary is out of reach, where
a quiesce holds the array inside a tile, or at once when it fills no tiles (R224, R254, R406). -/
def State.mayStop (s : State) (e : Eng) (v : Slot) : Bool :=
  v.stopping && !v.stopped
    && ((v.opcode != 1 && v.opcode != 2) || v.atStart || v.filled || v.pass == .joined || s.haltedShort e v
      || (s.dbg.quiesce.getLsbD e.val && s.betweenSteps v))

/-- Every output tile of the slot's command on the engine has finished filling. -/
def Cmd.allFilled (c : Cmd) (e : Eng) (v : Slot) : Bool :=
  if v.opcode = 1 then v.unit == v.lastUnit || (v.filled && v.unit + 1 == v.lastUnit)
  else v.opcode == 2 && (List.range c.nStages).all fun st =>
    !c.stageOn e st || decide ((c.mm st).q ≤ c.formedOf st + b2n (v.filled && v.stage == st))

/-- COMMAND_STOP_AT_TILE (R224): the command stops on the engine; once it has stopped on every engine its status is
judged. -/
def execCommandStopAtTile (p : Port) (t : Tag) (e : Eng) (s : State) : Out :=
  .next (
    let mine := (s.cmdSlots p t).filter fun x => x.1 == e && s.mayStop e x.2.2
    if (s.cmd p t).phase ≠ .running ∨ mine.isEmpty then s
    else
      let s1 := mine.foldl (fun s x => s.updSlot x.1 x.2.1 fun v => { v with stopped := true }) s
      let all := s1.cmdSlots p t
      if all.any fun x => !x.2.2.stopped then s1
      else if all.all fun x => (s1.cmd p t).allFilled x.1 x.2.2 then s1.finishUnits p t
      else s1.abortCmd p t stCancelled)

end Sys2Proof.Machine
end

