-- ==== Sys2Proof/Machine/Streams.lean ====
section
/-!
DEFINITION. Streams after admission: grants, data, slots, rates, faults inside a stream, task switches, and the serial
path's table builder (06 R119 to R125, R131; 10 R228 to R256).
-/

namespace Sys2Proof.Machine

/-! ### What a stream moves next -/

/-- CONSUMED of a stream (R234). -/
def State.consumedOf (s : State) (e : Eng) (x : Strm) : Nat := if x.isRead then x.consumed else s.produced e x

/-- Filled bytes of a stream (R238). -/
def State.filled (s : State) (e : Eng) (x : Strm) : Nat :=
  if x.isRead then x.landed - x.consumed else x.cap + x.furtherBytes - (s.produced e x - x.position)

/-- Time-to-dry (R238). -/
def State.ttd (s : State) (e : Eng) (x : Strm) : Nat := min 0xFFFFFFFF (s.filled e x * 1024 / max 1 x.rate)

/-- TTD of a peloton is the smallest of its members' (R242). -/
def State.ttdOf (s : State) (e : Eng) (i : StreamNo) : Nat :=
  (s.pelotonOf e i).foldl (fun m y => min m (s.ttd y.1 (s.strm y.1 y.2))) (s.ttd e (s.strm e i))

/-- The address and the bytes left of the range that holds offset `o`. -/
def placeIn : List (Nat × Nat) → Nat → Option (Nat × Nat)
  | [], _ => none
  | (a, n) :: r, o => if o < n then some (a + o, n - o) else placeIn r (o - n)

/-- The first page of a range that does not translate for reading. -/
def State.firstFault (s : State) (ctx : CtxNo) (va n : Nat) : Option Nat :=
  ((List.range ((va % 65536 + n + 65535) / 65536)).map fun i => max va (65536 * (va / 65536 + i))).find? fun a =>
    match s.xlate ctx a false with | .fault _ => true | _ => false

/-- A stream of A, its scales or its masks waits for the tile map of its stage, which tells it what to fetch: the address that the map is read at
next, where the page that is missing is asked for as for any request of the stream (R171, R250, R428) (DESIGN CHOICE, log entry 24). -/
def State.mapOwed (s : State) (x : Strm) : Option Nat :=
  let c := s.cmd x.port x.tag
  let y := c.mm (x.role / 16)
  if (c.op = 0x01 ∨ c.op = 0x02) ∧ [Role.a, .aScale, .mask].contains (Role.all.getD (x.role % 16) .b) ∧ y.tileMap ≠ 0 ∧ y.map.isNone then
    some ((s.firstFault c.ctx y.tileMap y.mapBytes).getD y.tileMap)
  else none

/-- Bytes of a stream that its command knows to be wanted by now: those of a row of the state only once the row's gradient is tested (R193). -/
def State.wanted (s : State) (e : Eng) (x : Strm) : Nat :=
  let c := s.cmd x.port x.tag
  let n := (c.testedOn e).length
  if c.lazy_ ∧ x.role = 0 ∧ n < c.rowCount e then (if n = 0 then 0 else min x.length (c.rowBytes e (n - 1) 0)) else x.length

/-- Whole segments packed into slots of `size` bytes: the bytes of each slot (R229). -/
def packSlots (size : Nat) : Nat → List Nat → List Nat
  | used, [] => if used = 0 then [] else [used]
  | used, n :: r => if used = 0 ∨ used + n ≤ size then packSlots size (used + n) r else used :: packSlots size n r

/-- Bytes of the slots of an operand's stream, slot by slot: no slot holds segments of two units (R229) (DEDUCED, log entry 24). -/
def State.slotSizes (s : State) (c : Cmd) (e : Eng) (size role : Nat) (rf : List Nat) : List Nat :=
  let st := role / 16
  let r := Role.all.getD (role % 16) .a
  ((c.stageUnits e st).zipIdx).flatMap fun u =>
    if s.keptAt c e st r rf u.2 then [] else packSlots size 0 ((s.unitSegs c st r u.1).map segBytes)

/-- Where the slot ends that holds offset `o`. -/
def endIn : List Nat → Nat → Nat → Nat
  | [], b, _ => b
  | n :: r, b, o => if o < b + n then b + n else endIn r (b + n) o

/-- Where a stream's slot ends that holds an offset: after whole segments for an operand of the array, after SLOT_MIN bytes for any other
stream (R229, R239). -/
def State.slotEnd (s : State) (e : Eng) (x : Strm) (o : Nat) : Nat :=
  let c := s.cmd x.port x.tag
  let size := 2 ^ (s.eng e).minLog2
  if (c.op = 0x01 ∨ c.op = 0x02) ∧ x.role % 16 ≤ 1 then endIn (s.slotSizes c e size x.role x.refetch) 0 o
  else min x.length ((o / size + 1) * size)

/-- The address of a stream's next request, and the bytes left of its range (ADDR of R234). -/
def State.nextPlace (s : State) (e : Eng) (x : Strm) : Option (Nat × Nat) :=
  match s.mapOwed x with
  | some va => some (va, 1)
  | none =>
    if s.wanted e x ≤ x.position then none else placeIn (s.streamSegs (s.cmd x.port x.tag) e x.role x.refetch) x.position

/-- A request: its address and bytes: at most 4 KiB, crossing neither a slot nor a 4 KiB boundary of its address; to a peer at most what a packet
carries (R239, R303). -/
def State.nextReq (s : State) (e : Eng) (x : Strm) : Option (Nat × Nat) :=
  (s.nextPlace e x).map fun r =>
    if (s.mapOwed x).isSome then r
    else (r.1, min r.2 (min (min (if peerBase ≤ r.1 then 4032 else 4096) (4096 - r.1 % 4096))
      (min (s.slotEnd e x x.position - x.position) (s.wanted e x - x.position))))

/-- Whether a stream's next address translates; a hand-over area and a peer need no translation here. -/
def State.reachable (s : State) (x : Strm) (va : Nat) : Bool :=
  decide (handBase ≤ va) || (match s.xlate (s.cmd x.port x.tag).ctx va (!x.isRead) with | .fault _ => false | _ => true)

/-! ### Eligibility -/

/-- A hand-over read may fetch: the output tile that it reads of the stage before has been written (R244). -/
def State.handReady (s : State) (x : Strm) (va : Nat) : Bool :=
  let c := s.cmd x.port x.tag
  let st := x.role / 16 - 1
  x.kind != 4 || decide (va < handBase) || (Tab.keysBelow 64 s.engines).any fun e => (List.finRange 16).any fun i =>
    let y := s.strm e i
    y.kind == 5 && y.port == x.port && y.tag == x.tag && y.role / 16 == st
      && decide (s.bytesBefore c e st .c [] ((va - handBase) / (c.mm st).handTile + 1) ≤ s.landedTo y)

/-- The pool is short till slots that were taken back have returned: the command admitted last waits for them (R232, R258). -/
def State.poolShort (s : State) (e : Eng) (x : Strm) : Bool :=
  decide (6032 < s.reservedKib e + s.furtherKib e)
    && decide ((s.slot e (Fin.ofNat 4 x.task)).admitSeq + 1 = (s.eng e).admitCount)

/-- Room in a stream's slots for its next request (R229, R232, R239). -/
def State.roomFor (s : State) (e : Eng) (x : Strm) (b : Nat) : Bool :=
  if x.isRead then decide (x.position + b ≤ s.slotEnd e x (s.slotEnd e x x.consumed) + x.furtherBytes) && !s.poolShort e x
  else decide (x.position + b ≤ s.produced e x)

/-- A stream has room for its next request, or a further slot to take for it. -/
def State.canHold (s : State) (e : Eng) (x : Strm) (b : Nat) : Bool :=
  s.roomFor e x b || (x.isRead && !s.poolShort e x && (s.furtherSlot e).isSome)

/-- The limit of a queue (R240). -/
def Engine.limit (g : Engine) (q : Nat) : Nat :=
  1 + Tab.get (if q < 6 then 0x3F else if q < 8 then 0xFF else if q = 8 then 0x7F else 0x1F) g.qlimit q

/-- Requests in flight in a queue of an engine, those of commands gone among them (R240, R254). -/
def State.inFlight (s : State) (e : Eng) (q : Nat) : Nat :=
  ((List.finRange 16).map fun i => ((s.strm e i).reqs.filter fun r => r.queue == q).length).sum
    + ((s.eng e).orphans.filter fun r => r.2.queue == q).length

/-- BUDGET percent of a CHECKPOINT or RESTORE. -/
def Cmd.budget (c : Cmd) : Nat := if c.f 50 1 = 0 then 10 else c.f 50 1

/-- Tokens for a request of `b` bytes to destination `d`, in the buckets of a partition and, for a CHECKPOINT or RESTORE, in
its own (R236, R237). The partition's buckets are kept in thirds of a byte, the command's in hundredths of those; the command's hold no less than the
4 KiB that every bucket holds at least, so that BUDGET 1 does not stop it for good (R236, R259) (DEDUCED, log entry 23). -/
def State.tokens (s : State) (q : Part) (x : Strm) (d b : Nat) : Bool :=
  let a := s.part q
  let pct := (s.cmd x.port x.tag).budget
  let key (k : Nat) : Nat := 16 * tagField x.port x.tag + k
  let hasCk (spent v : Nat) : Bool := decide (spent + 300 * b ≤ 3 * max (100 * 4096) (regDepth v * pct))
  a.hasTokens d b
    && (!x.ckpt || (hasCk (Tab.get 0 a.ckptSpent (key 10)) a.regTotal && hasCk (Tab.get 0 a.ckptSpent (key d)) (a.dest d)))

/-- The queue a stream's next request goes to (R240). -/
def State.queueFor (s : State) (x : Strm) (va : Nat) : Nat := s.queueOf (s.cmd x.port x.tag).ctx va (!x.isRead)

/-- How a stream stands toward its next request: 1 may issue, 2 no slot, 3 no token, 4 no credit; 0 nothing to issue
(STATE of R234). -/
def State.standing (s : State) (e : Eng) (i : StreamNo) : Nat :=
  let x := s.strm e i
  match s.nextReq e x with
  | none => 0
  | some (va, b) =>
    let d := s.queueFor x va
    if !s.handReady x va || (s.pelotonOf e i).any fun y => !s.canHold y.1 (s.strm y.1 y.2) b || (s.strm y.1 y.2).state == .halted then 2
    else if !s.tokens (partOf e) x d b then 3
    else if (s.eng e).limit d ≤ s.inFlight e d then 4
    else 1

/-- A stream that issues for itself: not a peloton's member, on an engine that is neither isolated nor in reset (R242). -/
def State.issues (s : State) (e : Eng) (i : StreamNo) : Bool :=
  let x := s.strm e i
  x.state == .issuing && x.kind != 3 && !s.isolated e && !s.inReset e
    && (match s.nextReq e x with | some r => s.reachable x r.1 | none => false) && s.standing e i == 1

/-! ### STREAM_REQUEST_GRANT -/

/-- Spend tokens (R236, R237). -/
def Partition.spend (a : Partition) (x : Strm) (d b : Nat) : Partition :=
  let key (k : Nat) : Nat := 16 * tagField x.port x.tag + k
  let up (t : Tab Nat) (k : Nat) : Tab Nat := Tab.upd 0 t k fun v => v + 300 * b
  { a.take d b with ckptSpent := if x.ckpt then up (up a.ckptSpent (key 10)) (key d) else a.ckptSpent }

/-- A request to a peer goes out as a WRITE or READ packet and is remembered till its response (R304, R349, R350); any other sends no packet
(DESIGN CHOICE, log entry 40: TXN numbers count up). -/
def State.sendRequest (s : State) (e : Eng) (i : StreamNo) (va b : Nat) : State × Option W32 :=
  if va < peerBase then (s, none)
  else
    let x := s.strm e i
    let c := s.cmd x.port x.tag
    let node := c.f 72 4 % 2 ^ 17
    let txn := s.peer.nextTxn
    let head := toLe 8 (va - peerBase) ++ toLe 4 txn.toNat
    let s1 : State := { s with peer := { s.peer with
      nextTxn := txn + 1
      txns := s.peer.txns ++ [{ txn := txn, port := x.port, tag := x.tag, order := c.order, eng := e, stream := i, read := x.isRead
                                off := x.position, len := b }] } }
    (s1.sendPacket (if x.isRead then s1.packetTo node 3 (head ++ toLe 4 b) []
      else s1.packetTo node 1 head (((Tab.get [] c.snap.out e.val).drop x.position).take b)), some txn)

/-- A command's stage reads its tile map, and its streams learn what there is to fetch (R171). -/
def State.takeMap (s : State) (p : Port) (t : Tag) (st : Nat) : State :=
  let s1 := s.updCmd p t fun c => s.readMap c st
  (s1.cmdSlots p t).foldl (fun s x => s.refit x.1 p t) s1

/-- Issue a stream's next request: every member of a peloton moves with its leader, taking a further slot where it has no room (R232,
R242). A map that the stream waits for is read instead. -/
def State.issue (s : State) (e : Eng) (i : StreamNo) : State :=
  let x := s.strm e i
  match s.nextReq e x with
  | none => s
  | some (va, b) =>
    if (s.mapOwed x).isSome then s.takeMap x.port x.tag (x.role / 16)
    else
    let d := s.queueFor x va
    let r := s.sendRequest e i va b
    let s1 := (s.pelotonOf e i).foldl (fun s y =>
      (if s.roomFor y.1 (s.strm y.1 y.2) b then s else s.takeFurther y.1 y.2).updStrm y.1 y.2 fun z =>
        { z with position := z.position + b }) r.1
    (s1.updStrm e i fun z =>
      { z with queue := d, reqs := z.reqs ++ [{ queue := d, va := va, off := x.position, bytes := b, txn := r.2 }] }).updPart (partOf e)
        fun a => a.spend x d b

/-- The stream of a partition with the smallest key (TTD, engine, stream) (R239). -/
def State.winner (s : State) (q : Part) : Option (Eng × StreamNo) :=
  let cands := (enginesOf q).flatMap fun e => ((List.finRange 16).filter fun i => s.issues e i).map fun i => (e, i)
  cands.foldl (fun b x =>
    match b with
    | none => some x
    | some y => if s.ttdOf x.1 x.2 < s.ttdOf y.1 y.2 then some x else some y) none

/-- STREAM_REQUEST_GRANT (R232, R236 to R242): no new request in a window of the partition (R360). -/
def execStreamRequestGrant (q : Part) (s : State) : Out :=
  .next (
    if (s.part q).window then s
    else
      match s.winner q with
      | some (e, i) => s.issue e i
      | none => s)

/-! ### Data -/

/-- STREAM_READ_LANDED (R232, R240, R242, R254): the `n`-th read in flight of a stream lands, those of its command before those of commands that
have gone; a read of a peer ends with its response instead. -/
def execStreamReadLanded (e : Eng) (i : StreamNo) (n : Nat) (s : State) : Out :=
  .next (
    let x := s.strm e i
    match x.reqs[n]? with
    | some r => if x.isRead && r.txn.isNone then s.landReq e i n else s
    | none => s.landOrphan e i (n - x.reqs.length))

/-- STREAM_WRITE_ACKNOWLEDGED (R232, R240): the credit returns, and further slots whose results are written with it. -/
def execStreamWriteAcknowledged (e : Eng) (i : StreamNo) (n : Nat) (s : State) : Out :=
  .next (
    let x := s.strm e i
    match x.reqs[n]? with
    | none => s
    | some r =>
      if x.isRead || r.txn.isSome then s
      else
        let s1 := s.landReq e i n
        s1.updStrm e i fun z => z.trim (s1.produced e z - z.landed))

/-- Bytes of a read stream that may be released: all of them that have landed, and for a MATMUL or FUSED those that the array has used for
good (R229) (DEDUCED, log entry 24). -/
def State.releasable (s : State) (e : Eng) (x : Strm) : Nat :=
  let v := s.slot e (Fin.ofNat 4 x.task)
  if (v.opcode = 1 ∨ v.opcode = 2) ∧ v.state ≠ .free then min (s.landedTo x) (s.used e v x false false) else s.landedTo x

/-- Bytes of a stream whose data its command needs no more: what no pass reads again, what rows not yet done do not read; a ROUTE keeps all it
has (R107, R228). -/
def State.spentTo (s : State) (e : Eng) (v : Slot) (x : Strm) : Nat :=
  if v.opcode = 1 ∨ v.opcode = 2 then s.used e v x false true
  else if v.opcode = 7 ∨ v.rows = 0 then 0
  else (s.cmd x.port x.tag).rowBytes e (v.rows - 1) x.role

/-- The array waits for bytes of a stream that find no slot, and the block at hand, which could be kept for the next unit, takes all there are
(R231, R259). -/
def State.starved (s : State) (e : Eng) (i : StreamNo) : Bool :=
  let x := s.strm e i
  let v := s.slot e (Fin.ofNat 4 x.task)
  let c := s.cmd x.port x.tag
  let st := x.role / 16
  let r := Role.all.getD (x.role % 16) .a
  let n := c.stageAt e v st
  (v.opcode == 1 || v.opcode == 2) && v.state != .free && x.state == .issuing && decide (s.landedTo x < s.needed e v x)
    && s.keptAt c e st r x.refetch (n + 1) && decide (x.position ≤ s.bytesBefore c e st r x.refetch (n + 1))
    && (match s.nextReq e x with | some q => !s.canHold e x q.2 | none => false)

/-- The block at hand is not kept for the unit after it, which fetches it again (R231, R259). -/
def State.giveUpKept (s : State) (e : Eng) (i : StreamNo) : State :=
  let x := s.strm e i
  let n := (s.cmd x.port x.tag).stageAt e (s.slot e (Fin.ofNat 4 x.task)) (x.role / 16)
  (s.pelotonOf e i).foldl (fun s y => s.updStrm y.1 y.2 fun z =>
    let rf := z.refetch ++ [n + 1]
    { z with refetch := rf, length := segBytes (s.streamSegs (s.cmd z.port z.tag) y.1 z.role rf) }) s

/-- SLOT_RELEASE (R229, R231, R232, R259): the array has used every index of the next slot; its bytes are consumed, and further slots that hold
nothing any more return. -/
def execSlotRelease (e : Eng) (i : StreamNo) (s : State) : Out :=
  .next (
    let x := s.strm e i
    if x.state = .idle ∨ x.state = .melting ∨ !x.isRead then s
    else
      let s1 := if s.starved e i then s.giveUpKept e i else s
      let y := s1.strm e i
      let v := s.slot e (Fin.ofNat 4 x.task)
      let next := s1.slotEnd e y y.consumed
      if y.consumed = next ∨ s1.releasable e y < next then s
      else
        let gone := min next (s1.spentTo e v y)
        s1.updStrm e i fun z =>
          { z with consumed := next, held := z.held.filter fun h => decide (gone < h.1 + h.2.2.length) }.trim (z.position - next))

/-- RATE_WINDOW_EXPIRY (R238). -/
def execRateWindowExpiry (e : Eng) (s : State) : Out :=
  .next ((List.finRange 16).foldl (fun s i =>
    let x := s.strm e i
    if x.state = .idle then s
    else
      let c := s.consumedOf e x
      let d := c - x.windowStart
      s.updStrm e i fun x => { x with windowStart := c, rate := if d = 0 then x.rate else d }) s)

/-! ### Faults inside a stream -/

/-- Every stream of a peloton halts at the request; what was issued after it melts (R242, R250). -/
def State.halt (s : State) (e : Eng) (i : StreamNo) (id : W32) (kind : Nat) : State :=
  (s.pelotonOf e i).foldl (fun s y => s.updStrm y.1 y.2 fun z =>
    { z with
      state := .halted, faultId := id, faultKind := kind
      reqs := z.reqs.map fun r => if z.position ≤ r.off then { r with melt := true } else r }) s

/-- STREAM_TRANSLATION_FAULT (R250 to R252): the stream's next request cannot be translated. -/
def execStreamTranslationFault (e : Eng) (i : StreamNo) (s : State) : Out :=
  .next (
    let x := s.strm e i
    if x.state ≠ .issuing ∨ x.kind = 3 ∨ s.standing e i = 2 then s
    else
      match s.nextReq e x with
      | none => s
      | some (va, _) =>
        if handBase ≤ va then s
        else
        match s.xlate (s.cmd x.port x.tag).ctx va (!x.isRead) with
        | .fault kind =>
          let s1 := (s.postFault kind x.port x.tag e.val i.val (!x.isRead) va).bump e 0x8A0 1
          if kind = 4 then s1.faultCmd x.port x.tag
          else
            let s2 := s1.halt e i s1.mem.lastFaultId kind
            if kind = 3 then
              s2.pageRequest (s.ctx (s.cmd x.port x.tag).ctx) va (!x.isRead) (.stream e i s1.mem.lastFaultId)
            else s2
        | _ => s)

/-- A halted stream issues again from POSITION. -/
def State.resumeStream (s : State) (e : Eng) (i : StreamNo) : State :=
  (s.pelotonOf e i).foldl (fun s y => s.updStrm y.1 y.2 fun z =>
    if z.state = .halted then { z with state := .issuing, faultId := 0, faultKind := 0 } else z) s

/-- The halted stream that a FAULT_ID of KIND 1 or 2 names (R252). -/
def State.faulted (s : State) (id : W32) : Option (Eng × StreamNo) :=
  ((Tab.keysBelow 64 s.engines).flatMap fun e => (List.finRange 16).map fun i => (e, i)).find? fun y =>
    let x := s.strm y.1 y.2
    x.state == .halted && x.faultId == id && id != 0 && (x.faultKind == 1 || x.faultKind == 2) && x.kind != 3

/-- MEM.FAULT_RESUME takes a GO, which is cleared once it is applied or ignored. -/
def State.takeResume (s : State) (id : W32) (abort : Bool) : State :=
  { s with mem := { s.mem with resumeReg := id.toNat + 2 ^ 32 * b2n abort } }

/-- FAULT_RESUME_RETRY (R252). -/
def execFaultResumeRetry (id : W32) (s : State) : Out :=
  .next (
    if !s.boot.ready then s
    else
      let s1 := s.takeResume id false
      match s.faulted id with
      | some (e, i) => s1.resumeStream e i
      | none => s1)

/-- FAULT_RESUME_ABORT (R252). -/
def execFaultResumeAbort (id : W32) (s : State) : Out :=
  .next (
    if !s.boot.ready then s
    else
      let s1 := s.takeResume id true
      match s.faulted id with
      | some (e, i) => s1.faultCmd (s.strm e i).port (s.strm e i).tag
      | none => s1)

/-- The context and port of a page request's command. -/
def State.priCmd (s : State) (w : PriWait) : Port × Tag :=
  match w with
  | .stream e i _ => ((s.strm e i).port, (s.strm e i).tag)
  | .fetch p t => (p, t)
  | .record p t => (p, t)
  | .step4 p t => (p, t)
  | .step5 p t => (p, t)

/-- A page request that has been met: the waiter goes on where it stood (R251, R428, R429). -/
def State.priOk (s : State) (w : PriWait) : State :=
  match w with
  | .stream e i id => if (s.strm e i).faultId = id then s.resumeStream e i else s
  | .fetch p t => s.updCmd p t fun c => if c.phase = .priWait then { c with phase := .fetched } else c
  | .record p t => s.updCmd p t fun c => { c with recordPri := false }
  | .step4 p t => if (s.cmd p t).phase = .priWait4 then s.readCount p t else s
  | .step5 p t => s.updCmd p t fun c => if c.phase = .priWait5 then { c with phase := .admission } else c

/-- A page request that fails ends its command with FAULT_ABORT and a fault record of KIND 4, or loses its record (R251,
R428, R429). -/
def State.priFail (s : State) (w : PriWait) (va : Nat) (wr : Bool) : State :=
  match w with
  | .stream e i id =>
    let x := s.strm e i
    if x.faultId = id then (s.postFault 4 x.port x.tag e.val i.val wr va).faultCmd x.port x.tag else s
  | .fetch p t => if (s.cmd p t).phase = .priWait then s.badRecord p t wr va 4 true else s
  | .record p t => (s.updCmd p t fun c => { c with recordPri := false }).discardRecord p t (s.cqOf (s.cmd p t)) true
  | .step4 p t => if (s.cmd p t).phase = .priWait4 then s.badRecord p t wr va 4 false else s
  | .step5 p t => if (s.cmd p t).phase = .priWait5 then s.badRecord p t wr va 4 false else s

/-- PRI_RESPONSE (R251): the answer to the `n`-th page request that waits. -/
def execPriResponse (n : Nat) (ok : Bool) (s : State) : Out :=
  .next (
    match s.mem.pri[n]? with
    | none => s
    | some r =>
      let c := s.priCmd r.wait
      let owner := (s.ctxOf (s.cmd c.1 c.2)).owner
      let s1 := { s with mem := { s.mem with
        pri := s.mem.pri.eraseIdx n
        ats := if ok then s.mem.ats.filter fun a => !(a.1 == owner.val && a.2.1 == r.page && a.2.2 == AtsState.notPresent) else s.mem.ats } }
      if ok then s1.priOk r.wait else s1.priFail r.wait r.va r.w)

/-! ### ENG.STREAM_CFG -/

/-- STREAM_CFG_APPLY (R233): with no resident command the pending value applies. -/
def State.applyCfg (s : State) (e : Eng) : State :=
  match (s.eng e).cfgPending with
  | some v => if (s.slotsOf e).isEmpty then
      s.updEng e fun g => { g with minLog2 := v.1, maxLog2 := v.2, cfgPending := none } else s
  | none => s

/-- STREAM_CFG_APPLY (R233). -/
def execStreamCfgApply (e : Eng) (s : State) : Out := .next (s.applyCfg e)

/-- A write of ENG.STREAM_CFG: one that breaks R232 is ignored as a whole; otherwise it waits until no command is resident. -/
def State.writeCfg (s : State) (e : Eng) (value : Nat) : State :=
  let lo := bitsOf value 4 0
  let hi := bitsOf value 12 8
  if 12 ≤ lo ∧ lo ≤ hi ∧ hi ≤ 18 then (s.updEng e fun g => { g with cfgPending := some (lo, hi) }).applyCfg e else s

/-- STREAM_CFG_WRITE (R232, R233). -/
def execStreamCfgWrite (e : Eng) (value : W32) (s : State) : Out :=
  .next (if s.boot.ready then s.writeCfg e value.toNat else s)

/-! ### Task switches -/

/-- A resident MATMUL or FUSED command is ready for the array (R247). -/
def State.readyFor (s : State) (e : Eng) (k : SlotNo) : Bool :=
  let v := s.slot e k
  (v.opcode == 0x01 || v.opcode == 0x02) && v.state != .free && v.state != .cancelling && !v.stopped && !v.filled
    && ((s.cmd v.port v.tag).nextTile e v).isSome && (s.cmd v.port v.tag).phase == .running && s.hasTile e k && s.operandsIn e v

/-- The head has data to wait for: operands of its next step that are not in its slots, or a column block (R244, R247). -/
def State.lateData (s : State) (e : Eng) (v : Slot) : Bool :=
  !v.hasFormed && !v.filled && !(s.operandsIn e v && ((s.cmd v.port v.tag).nextTile e v).isSome)

/-- The earliest admitted of some slots. -/
def State.earliest (s : State) (e : Eng) (l : List SlotNo) : Option SlotNo :=
  l.foldl (fun b k =>
    match b with
    | none => some k
    | some j => if (s.slot e k).admitSeq < (s.slot e j).admitSeq then some k else some j) none

/-- The head is parked, and another slot becomes the head (R83, R248); the table banks are not saved (R131). -/
def State.switchTo (s : State) (e : Eng) (h k : SlotNo) : State :=
  let live := (s.tileOf e h).state == .busy
  let s1 := (if live then (s.updTile e h fun t => { t with parked := true }).bump e 0x890 1 else s).updSlot e h fun v =>
    { v with state := .parked }
  (((s1.updTile e k fun t => { t with parked := false }).updSlot e k fun v => { v with state := .ready }).updEng e fun g =>
    { g with head := some k, banks := [], builder := none }).bump e 0x888 1

/-- TASK_SWITCH (R247, R248): after 256 ACLK cycles of late data, to the earliest admitted command that is ready (DEDUCED, log entry 26). -/
def execTaskSwitch (e : Eng) (s : State) : Out :=
  .next (
    match (s.eng e).head with
    | none => s
    | some h =>
      let v := s.slot e h
      if !s.lateData e v || !s.betweenSteps v || s.dbg.quiesce.getLsbD e.val then s
      else
        let s1 := s.bump e 0x880 256
        match s.earliest e ((List.finRange 4).filter fun k => k != h && s.readyFor e k) with
        | some k => s1.switchTo e h k
        | none => s1)

/-- SWITCH_BACK (R249): to an earlier-admitted parked command that is ready, at an output-tile boundary of the head; an engine that a
pre-emption has stopped stays stopped (R361). -/
def execSwitchBack (e : Eng) (s : State) : Out :=
  .next (
    let ks := (List.finRange 4).filter fun k => (s.slot e k).state == .parked && s.readyFor e k
    if s.dbg.quiesce.getLsbD e.val || (s.part (partOf e)).preempting && s.atBoundary e then s
    else
      match (s.eng e).head with
      | none =>
        match s.earliest e ks with
        | some k => (((s.updTile e k fun t => { t with parked := false }).updSlot e k fun v => { v with state := .ready }).updEng e
            fun g => { g with head := some k }).bump e 0x888 1
        | none => s
      | some h =>
        let v := s.slot e h
        match s.earliest e (ks.filter fun k => decide ((s.slot e k).admitSeq < v.admitSeq)) with
        | some k =>
          if v.atStart || (s.lateData e v && s.betweenSteps v) then s.switchTo e h k else s
        | none => s)

/-! ### The table builder -/

/-- The serial-path work of a stage on an engine: its slot, stage, units in order, the place of the unit it stands at, and the group there. -/
structure Serial where
  no : SlotNo
  slot : Slot
  stage : Nat
  units : List Nat
  at_ : Nat
  group : Nat
  deriving DecidableEq, Repr

/-- The serial-path stage of a slot that has work on an engine: the one that is at a tile, else the first that has tiles left (R119). -/
def State.serialOf (s : State) (e : Eng) (k : SlotNo) : Option Serial :=
  let v := s.slot e k
  let c := s.cmd v.port v.tag
  let on (st : Nat) : Bool := (c.mm st).prec == 5 && (if c.op = 0x02 then c.stageOn e st else true)
    && decide (c.stageAt e v st < (c.stageUnits e st).length)
  let sts := if c.op = 0x02 then List.range c.nStages else if c.op = 0x01 then [0] else []
  if c.phase ≠ .running then none
  else
    ((if !v.atStart ∧ on v.stage then some v.stage else sts.find? on)).map fun st =>
      { no := k, slot := v, stage := st, units := c.stageUnits e st, at_ := c.stageAt e v st
        group := if v.atStart || v.stage != st then 0
          else if v.filled then (c.mm st).partGroups ((c.mm st).unitJ v.unit) else v.group }

/-- The serial-path stage that the builder serves: the head's, else that of the earliest admitted command that is not parked (DEDUCED, log entry
27). -/
def State.serialAt (s : State) (e : Eng) : Option Serial :=
  let of (k : SlotNo) : Option Serial := s.serialOf e k
  match (s.eng e).head with
  | some h => of h
  | none =>
    match s.earliest e (((s.slotsOf e).map (·.1)).filter fun k => (s.slot e k).state != .parked && (of k).isSome) with
    | some k => of k
    | none => none

/-- Place of the unit, and bank within it, of the `n`-th filling since the stage's first index. -/
def fillAt (x : MM) : List Nat → Nat → Nat → Option (Nat × Nat × Nat)
  | [], _, _ => none
  | u :: us, i, n => if n < x.banksOf (x.unitJ u) then some (i, u, n) else fillAt x us (i + 1) (n - x.banksOf (x.unitJ u))

/-- The filling that the lanes read: the one that covers the group the stage stands at. -/
def Serial.current (w : Serial) (x : MM) : Nat :=
  ((w.units.take w.at_).map fun u => x.banksOf (x.unitJ u)).sum + w.group * x.g / x.bankIndices

/-- The value of slice `q` of an activation code (R116). -/
def sliceOf (f : Fmt) (q code : Nat) : Int :=
  match f with
  | .int sg w =>
    let hi := min (4 * q + 3) (w - 1)
    let v := bitsOf code hi (4 * q)
    if sg && q + 1 == ceilDiv w 4 then signedOf (hi + 1 - 4 * q) v else (v : Int)
  | _ => 0

/-- Balanced-ternary digits of `u`, lowest first (R120). -/
def tritDigits : Nat → Int → List Int
  | 0, _ => []
  | n + 1, u => (if u % 3 = 2 then -1 else u % 3) :: tritDigits n (if u % 3 = 2 then (u + 1) / 3 else u / 3)

/-- One table as it is stored (R119 to R121). -/
def tableBytes (trit : Bool) (ys : List Int) : List Byte :=
  if trit then ((List.range 41).map fun (u : Nat) =>
    BitVec.ofInt 8 (((tritDigits 4 (u : Int)).zip ys).map fun p => p.1 * p.2).sum) ++ List.replicate 23 0
  else (List.range 16).map fun b => BitVec.ofInt 8 ((ys.zipIdx.map fun p => if bitOf b p.2 then p.1 else 0)).sum

/-- The tables of one bank: activation group by group, column by column, slice by slice (R121), from the step boundary `lo`
on (R131), but for the skipped reduction steps (R177); what no step of the part fills is zero (DESIGN CHOICE, log entry 27). The bytes, and the tables
built and skipped. -/
def View.bankOf (s : View) (ctx : CtxNo) (x : MM) (src : BSrc) (u blk lo : Nat) : Except XErr (List Byte × Nat × Nat) := do
  let j := x.unitJ u
  let k0 := x.partK0 j + blk * x.bankIndices
  let k1 := min (x.partK1 j) (k0 + x.bankIndices)
  let cols ← eachE (fun n => (s.colLine ctx x src n k0 (k1 - k0)).map fun l => l.codes.map fun c => c.getD 0) (x.colsIn (x.unitC u))
  let trit := x.tableSlots == 4
  let steps := (List.range (ceilDiv x.k 64)).filter fun t => decide (k0 < 64 * t + 64 ∧ 64 * t < k1)
  let skips ← eachE (fun t => (s.stepSkipped ctx x src (x.unitI u) (x.unitC u) t).map fun b => (t, b)) steps
  let tabs := (List.range (x.bankIndices / 4)).flatMap fun g => (List.range 64).flatMap fun c =>
    (List.range (slicesOf x.fmtB)).map fun q =>
      let ys := (List.range 4).map fun i => sliceOf x.fmtB q ((cols.getD c []).getD (4 * g + i) 0)
      let there := decide (lo ≤ k0 + 4 * g ∧ k0 + 4 * g < roundUp k1 16) && !Tab.get false skips ((k0 + 4 * g) / 64)
      (there, if there then ys else [0, 0, 0, 0])
  pure (tabs.flatMap fun t => tableBytes trit t.2, (tabs.filter fun t => t.2.any (· != 0)).length,
    (tabs.filter fun t => t.1 && t.2.all (· == 0)).length)

/-- The operands that the tables of a bank are built from are in: the activations of its indices in the stage's slots, or its column block handed
over (R15, R244). -/
def State.bankIn (s : State) (e : Eng) (w : Serial) (n u blk : Nat) : Bool :=
  let c := s.cmd w.slot.port w.slot.tag
  let x := c.mm w.stage
  let hi := min (x.partK1 (x.unitJ u)) (x.partK0 (x.unitJ u) + (blk + 1) * x.bankIndices)
  (w.stage == 0 || c.op != 0x02 || decide ((x.unitC u + 1) * (c.mm (w.stage - 1)).mt ≤ c.drainedOf (w.stage - 1)))
    && (List.finRange 16).all fun i =>
      let y := s.strm e i
      y.state == .idle || y.port != w.slot.port || y.tag != w.slot.tag || y.role != 16 * w.stage + 1
        || decide (s.bytesBefore c e w.stage .b y.refetch n
            + (if s.keptAt c e w.stage .b y.refetch n then 0 else s.bytesTo c w.stage .b u (ceilDiv hi 64)) ≤ s.landedTo y)

/-- The builder as it stands for a stage: its own progress, or from the step boundary that the stage has come to, with empty banks, where it served
another or none (R125, R131). -/
def State.builderFor (s : State) (e : Eng) (w : Serial) : Builder :=
  let x := (s.cmd w.slot.port w.slot.tag).mm w.stage
  match (s.eng e).builder with
  | some b => if b.port = w.slot.port ∧ b.tag = w.slot.tag ∧ b.stage = w.stage then b else fresh x
  | none => fresh x
where
  fresh (x : MM) : Builder :=
    { port := w.slot.port, tag := w.slot.tag, stage := w.stage, next := w.current x
      lo := x.partK0 (x.unitJ (w.units.getD w.at_ 0)) + w.group * x.g / 16 * 16 }

/-- TABLE_BUILD (R122, R125, R131): the next bank in order is filled, once what it held before has been used and the activations are in. A builder
that begins anew has the lane groups meet its tables from there on (R126, R131). -/
def execTableBuild (e : Eng) (s : State) : Out :=
  .next (
    match s.serialAt e with
    | none => s
    | some w =>
      let c := s.cmd w.slot.port w.slot.tag
      let x := c.mm w.stage
      let b := s.builderFor e w
      match fillAt x w.units 0 b.next with
      | none => s
      | some (n, u, blk) =>
        if w.current x + 1 < b.next ∨ s.inReset e ∨ s.isolated e ∨ !s.bankIn e w n u blk then s
        else
          match (s.asLanded e w.slot).bankOf c.ctx x (c.srcOf w.stage (x.unitC u)) u blk b.lo with
          | .error _ => s
          | .ok (bytes, built, skipped) =>
            let fresh := (s.eng e).builder != some b
            let s1 := if fresh then s.updSlot e w.no fun v => { v with lanes := Tab.set v.lanes w.stage {} } else s
            ((s1.updEng e fun g => { g with
              banks := Tab.set (if fresh then [] else g.banks) (b.next % 2) bytes
              builder := some { b with next := b.next + 1, lo := 0 } }).bump e 0x838 built).bump e 0x840 skipped)

end Sys2Proof.Machine
end

