-- ==== Sys2Proof/Machine/Resets.lean ====
section
/-!
DEFINITION. What resets and fences do: the shared operations of the ladder, the choice of a flash bank, and the steps of a
start (13 R328 to R337, R342, R343; 15 R366 to R374; 00 R9).
-/

namespace Sys2Proof.Machine

/-! ### Records and causes -/

/-- CLASS of an error record, by the CAUSE of the action (R323, R336). -/
def classOfCause (cause : Nat) : Nat :=
  match cause with
  | 0x01 => 3
  | 0x02 => 4
  | 0x03 => 5
  | 0x04 => 5
  | 0x07 => 11
  | 0x08 => 6
  | 0x09 => 10
  | _ => 2

/-- RCV.RESET_CAUSE takes the last reset action (R336) (DEDUCED, log entry 44). -/
def RcvBlock.note (r : RcvBlock) (level cause engine partition : Nat) (esc : Bool) : RcvBlock :=
  { r with lastLevel := level, cause := cause, engine := engine, partition := partition, escalated := esc }

/-- A RESET record of the ledger (R356) (DEDUCED, log entry 43). -/
def State.ledgerReset (s : State) (unit index level cause stage : Nat) : State :=
  let op := if unit = 0 ∧ index < 64 then s.opOf (partOf (Fin.ofNat 64 index))
    else if unit = 1 ∧ index < 8 then s.opOf (Fin.ofNat 8 index) else s.age.modOpSeconds
  s.ledger 5 unit index op (toLe 1 level ++ toLe 1 cause ++ toLe 1 stage)

/-- Housekeeping has started: AUX_3V3 is present and the root PLL has locked. Without that nothing acts and every output stays
high-impedance (R366, R415, R417, R425). -/
def State.powered (s : State) : Bool := s.pwr.aux && s.pwr.pll

/-- A wider reset runs, a power cycle is requested, or the module is unpowered: a trigger within starts nothing (R331, R333, R425). -/
def State.wideReset (s : State) : Bool := s.rcv.modReset != .none || s.rcv.powerCycle || !s.powered

/-- A trigger that only its record tells of (R331, R341). -/
def State.recordOnly (s : State) (r : ErrRec) : State :=
  if s.powered then s.postErr { r with action := 0, cause := 0 } else s

/-- UNIT and INDEX in the record of a reset that a command gives with its cause alone: power conversion with the stage of a partition's
rail, the router for 0x0B, the MMU, housekeeping, or the unit that is reset (R323, R414) (DESIGN CHOICE, log entry 44). -/
def unitOfCause (cause unit index stage : Nat) : Nat × Nat :=
  match cause with
  | 0x07 => (10, stage)
  | 0x0B => (7, 0)
  | 0x0C => (9, 0)
  | 0x0D => (5, 0)
  | _ => (unit, index)

/-! ### Level 1 -/

/-- A context abort on a fault (R199, R323, R328). -/
def State.faultContext (s : State) (c : CtxNo) (r : ErrRec) : State :=
  if (s.ctx c).state = .free ∨ s.wideReset ∨ (s.ctx c).ends.any (fun w => w.area.isNone && !w.destroy) then s.recordOnly r
  else
    (({ s with rcv := s.rcv.note 1 0x0A 0 0 false } : State).postErr { r with action := 2, cause := 0 }).endCtx c ⟨false, none⟩
      stFaultAbort

/-! ### Level 2 -/

/-- The commands with a task slot on some engines end with a status (R328). -/
def State.dropOn (s : State) (es : List Eng) (st : Nat) : State :=
  let cs := (es.flatMap fun e => (s.slotsOf e).map fun v => (v.2.port, v.2.tag)).eraseDups
  s.abortCmds cs st

/-- Engines of a mask that hold an active group record (R338). -/
def State.grouped (s : State) (es : List Eng) : W64 :=
  es.foldl (fun m e => if (s.eng e).groups.any (fun g => g.2.state == 1) then m ||| engBit e else m) 0

/-- A quiesce ends at a fence or a reset (R404). -/
def State.unquiesce (s : State) (mask : W64) : State := { s with dbg := { s.dbg with quiesce := s.dbg.quiesce &&& ~~~mask } }

/-- The ranges of a list that lie between two offsets of its stream. -/
def between : List (Nat × Nat) → Nat → Nat → List (Nat × Nat)
  | [], _, _ => []
  | (a, n) :: r, lo, hi =>
    let x := min lo n
    let y := min hi n
    (if x < y then [(a + x, y - x)] else []) ++ between r (lo - n) (hi - n)

/-- What a write stream of a fenced engine had not written and acknowledged is left open: those writes are discarded, and R221 leaves the
output of their command unspecified (R334) (DESIGN CHOICE, log entry 57). -/
def State.spoilStream (s : State) (e : Eng) (x : Strm) : State :=
  if x.state = .idle ∨ x.isRead then s
  else
    let c := s.cmd x.port x.tag
    let left := x.reqs.map (fun r => (r.off, r.off + r.bytes)) ++ [(x.position, s.produced e x)]
    (left.flatMap fun b => between (s.streamSegs c e x.role []) b.1 b.2).foldl (fun s g =>
      if handBase ≤ g.1 then s
      else
        let free := Config.freeBytes s.fresh g.2
        match s.vwrite c.ctx g.1 ((List.range g.2).map fun i => free.getD i 0) with
        | .ok s1 => { s1 with fresh := s1.fresh + 1 }
        | .error _ => s) s

/-- The same of every write stream of some engines, before their commands end. -/
def State.spoilWrites (s : State) (es : List Eng) : State :=
  es.foldl (fun s e => (List.finRange 16).foldl (fun s i => s.spoilStream e (s.strm e i)) s) s

/-- A fenced engine's writes that have not been acknowledged are discarded (R334). -/
def State.dropWrites (s : State) (es : List Eng) : State :=
  es.foldl (fun s e => s.updEng e fun g => { g with streams := g.streams.map fun x =>
    if x.2.isRead then x else (x.1, { x.2 with reqs := [] }.close) }) s

/-- A software reset that GO has started and that still runs: its level's outcome is not reached, and no wider reset has taken over
(R331, R337). -/
def RcvBlock.swRunning (r : RcvBlock) (x : Nat × Nat) : Bool :=
  !r.powerCycle &&
    (if x.1 = 4 then r.modReset != .none
     else r.modReset == .none && (if x.1 = 3 then r.partInReset.getLsbD x.2 else r.inReset.getLsbD x.2))

/-- RCV.SWRESET.GO is cleared once every level it asked for has its outcome or is handed over (R337). -/
def RcvBlock.swDone (r : RcvBlock) : RcvBlock := { r with swRuns := r.swRuns.filter r.swRunning }

/-- An engine reset begins: the fence is up, its commands end with DROPPED, its departure is told (R328, R334, R338). -/
def State.resetEngine (s : State) (e : Eng) (cause : Nat) (esc : Bool) (r : ErrRec) : State :=
  if s.wideReset || s.inReset e then s.recordOnly r
  else
    let s0 := (s.breakWindow (partOf e)).unquiesce (engBit e)
    let s1 := ({ s0 with rcv := { (s0.rcv.note 2 cause e.val (partOf e).val esc) with
      fence := s0.rcv.fence ||| engBit e, inReset := s0.rcv.inReset ||| engBit e } } : State).postErr
        { r with action := 3, cause := cause }
    let s2 := (((s1.ledgerReset 0 e.val 2 cause 0).spoilWrites [e]).dropOn [e] stDropped).dropWrites [e]
    (s2.departOwn (s.grouped [e])).afterRecords

/-- An engine at its reset values: what its wider domain MODULE holds stays (R9, R233, R240, R328). -/
def Engine.atReset (g : Engine) : Engine :=
  { minLog2 := g.minLog2, maxLog2 := g.maxLog2, cfgPending := g.cfgPending, qlimit := g.qlimit, slack := g.slack }

/-! ### Level 3 -/

/-- SELFTESTs with an item queued or running in a partition (R365). -/
def State.testsOn (s : State) (q : Part) : List (Port × Tag) :=
  (((s.part q).items ++ (s.part q).running).filterMap (·.cmd)).eraseDups

/-- A partition reset begins (R328, R334, R365). -/
def State.resetPartition (s : State) (q : Part) (cause : Nat) (esc : Bool) (r : ErrRec) : State :=
  if s.wideReset || s.rcv.partInReset.getLsbD q.val then s.recordOnly r
  else
    let bit : BitVec 8 := BitVec.ofNat 8 (2 ^ q.val)
    let s0 := s.unquiesce (partMask q)
    let s1 := ({ s0 with rcv := RcvBlock.swDone { (s0.rcv.note 3 cause 0 q.val esc) with
      partFence := s0.rcv.partFence ||| bit, partInReset := s0.rcv.partInReset ||| bit
      inReset := s0.rcv.inReset &&& ~~~partMask q } } : State).postErr { r with action := 4, cause := cause }
    let s2 := (((s1.ledgerReset unitPart q.val 3 cause 0).spoilWrites (enginesOf q)).dropOn (enginesOf q)
      stPartitionReset).dropWrites (enginesOf q)
    let s3 := (s.testsOn q).foldl (fun s c => s.abortCmd c.1 c.2 stPartitionReset) s2
    let s4 := s3.updPart q fun a =>
      { a with
        window := false, preempting := false, items := [], running := [], results := [], lowering := none
        sweep := [], replanQueued := false, raised := false, actualCode := max a.planCode a.actualCode }
    (s4.departOwn (s.grouped (enginesOf q))).afterRecords

/-- A partition at its reset values: what MODULE and POWER hold stays. A sweep or trial is over and its rail back at the plan code; a rail
above it comes down code by code (R9, R328, R353, R365). -/
def Partition.atReset (a : Partition) : Partition :=
  { a with
    spent := [], ckptSpent := [], scale := [], corrected := 0, window := false, preempting := false, items := []
    running := [], results := [], lowering := none, sweep := [], replanQueued := false, raised := false
    actualCode := max a.planCode a.actualCode, target := a.planCode }

/-! ### The flash banks (R371 to R374) -/

/-- The other bank. -/
def otherBank (b : Nat) : Nat := 1 - b

/-- A bank of the flash. -/
def BootBlock.bankAt (b : BootBlock) (i : Nat) : Bank := Tab.get {} b.banks i

/-- The bytes of a bank, as far as they were written (R370, R371). -/
def BootBlock.imageOf (b : BootBlock) (i : Nat) : List Byte := ((b.bankAt i).bytes).getD (Config.factoryImage i)

/-- SVN, VERSION and SVN_COMMIT of a bank's header (R371). -/
def BootBlock.svnOf (b : BootBlock) (i : Nat) : Nat := fld (b.imageOf i) 12 4
def BootBlock.versionOf (b : BootBlock) (i : Nat) : Nat := fld (b.imageOf i) 16 8
def BootBlock.commitsOf (b : BootBlock) (i : Nat) : Bool := bitOf (fld (b.imageOf i) 33 1) 0

/-- A component entry lies within the image, behind the header, at a multiple of 4,096 (R371, R373). -/
def entryInside (img : List Byte) (c : Nat) : Bool :=
  let o := 64 + 96 * c
  fld img (o + 4) 4 % 4096 == 0 && decide (4096 ≤ fld img (o + 4) 4 ∧ fld img (o + 4) 4 + fld img (o + 8) 4 ≤ fld img 24 8)

/-- Reserved bytes of a header and the entries past COMPONENTS are zero (R371, R373) (DEDUCED, log entry 53). -/
def headerReservedOk (img : List Byte) : Bool :=
  let n := fld img 6 2
  decide (fld img 33 1 < 2) && allZero (slice img 34 30) && allZero (slice img 2624 1472)
    && allZero (slice img (64 + 96 * n) (1536 - 96 * n))
    && (List.range n).all fun c =>
      allZero (slice img (65 + 96 * c) 3) && allZero (slice img (76 + 96 * c) 4) && allZero (slice img (144 + 96 * c) 16)

/-- Every required component is named once (R371). -/
def componentsNamed (img : List Byte) : Bool :=
  let types := (List.range (fld img 6 2)).map fun c => fld img (64 + 96 * c) 1
  ((List.range 5).all fun t => types.count (t + 1) == 1) && decide (types.count 6 ≤ 1) && (types.all fun t => decide (1 ≤ t ∧ t ≤ 6))

/-- The components of some types each have the SHA-512 that their DIGEST gives (R373). -/
def componentsOk (img : List Byte) (types : Nat → Bool) : Bool :=
  (List.range (fld img 6 2)).all fun c =>
    !types (fld img (64 + 96 * c) 1) ||
      Config.sha512 (slice img (fld img (68 + 96 * c) 4) (fld img (72 + 96 * c) 4)) == slice img (80 + 96 * c) 64

/-- Types 1 and 2 are checked at step 4, the others at step 8 (R373). -/
def atStep4 (t : Nat) : Bool := decide (t ≤ 2)

/-- FAIL_CODE of an image under R373 where the components of some types are read; 0 when it is valid (R369). -/
def BootBlock.imageCode (b : BootBlock) (img : List Byte) (types : Nat → Bool) : Nat :=
  let n := fld img 6 2
  if slice img 0 4 ≠ [0x46, 0x58, 0x4A, 0x46] ∨ fld img 4 2 ≠ 1 ∨ n < 5 ∨ 16 < n ∨ !headerReservedOk img then 1
  else if fld img 8 4 ≠ 0x6440 then 2
  else if 8 ≤ fld img 32 1 ∨ bitOf b.revoked (fld img 32 1)
      ∨ Config.sha512 (slice img 1600 512) ≠ Tab.get [] b.keyDigests (fld img 32 1) then 3
  else if fld img 12 4 < b.svnFuses ∨ 64 < fld img 12 4 then 4
  else if !Config.pssVerify (slice img 1600 512) (slice img 0 2112) (slice img 2112 512) then 5
  else if 2 ^ 25 < fld img 24 8 ∨ !(List.range n).all (entryInside img) then 7
  else if !componentsNamed img || !componentsOk img types then 6
  else 0

/-- FAIL_CODE of a bank at a start (R369, R373): its header and the components of step 4. The image that the module came with is
valid as long as the SVN floor has not passed it (DESIGN CHOICE, log entry 53). -/
def BootBlock.bankCode (b : BootBlock) (i : Nat) : Nat :=
  match (b.bankAt i).bytes with
  | none => if b.svnOf i < b.svnFuses then 4 else 0
  | some img => b.imageCode img atStep4

/-- The components that step 8 reads are those of the bank's DIGESTs (R373). -/
def BootBlock.diesOk (b : BootBlock) (i : Nat) : Bool :=
  match (b.bankAt i).bytes with
  | none => true
  | some img => componentsOk img fun t => !atStep4 t

/-- CRC-32 of a copy of the boot preference: over bank, TRIAL and sequence number (R370) (DESIGN CHOICE, log entry 53). -/
def PrefCopy.sum (c : PrefCopy) : Nat := crc32 (toLe 1 c.bank ++ toLe 1 (b2n c.trial) ++ toLe 4 c.seq)

/-- The second copy of the boot preference is the one that counts: it is good, and the first is not or is older (R370). -/
def BootBlock.secondCopy (b : BootBlock) : Bool :=
  b.copies.2.crc == b.copies.2.sum && (b.copies.1.crc != b.copies.1.sum || decide (b.copies.1.seq < b.copies.2.seq))

/-- The boot preference (R374). -/
def BootBlock.pref (b : BootBlock) : PrefCopy := if b.secondCopy then b.copies.2 else b.copies.1
def BootBlock.preferred (b : BootBlock) : Nat := b.pref.bank
def BootBlock.trial (b : BootBlock) : Bool := b.pref.trial

/-- The boot preference is written: into the copy that does not count, with the next sequence number (R370, R374). -/
def BootBlock.prefer (b : BootBlock) (bank : Nat) (trial : Bool) : BootBlock :=
  let c0 : PrefCopy := { bank := bank, trial := trial, seq := (b.pref.seq + 1) % 2 ^ 32 }
  let c := { c0 with crc := c0.sum }
  { b with copies := if b.secondCopy then (c, b.copies.2) else (b.copies.1, c) }

/-- The start's choice of a bank (R374): the preferred one, the other with FALLBACK, or recovery, which follows a rejection of both. A
rejected trial bank loses its preference, and a trial bank lost before shows the FAIL_CODE it was lost with (DEDUCED, log entry 53). -/
def BootBlock.choose (b0 : BootBlock) : BootBlock :=
  let b := { b0 with trialAtStart := b0.trial }
  let p := b.preferred
  let c := b.bankCode p
  let lost := if b.trial then b.prefer (otherBank p) false else b
  if c = 0 then
    { b with
      bank := p, fallback := b.lostTrial != 0, failCode := b.lostTrial, recovery := false
      trialRunning := b.trial, lostTrial := 0, fwVersion := b.versionOf p }
  else if b.bankCode (otherBank p) = 0 then
    { lost with
      bank := otherBank p, fallback := true, failCode := c, recovery := false, trialRunning := false, lostTrial := 0
      fwVersion := b.versionOf (otherBank p) }
  else
    { lost with bank := p, fallback := true, failCode := c, recovery := true, trialRunning := false, lostTrial := 0
                fwVersion := 0 }

/-! ### Levels 4 and 5 -/

/-- Pending pages are retired and recorded while the list has room; those beyond it, and retirements that were never
recorded, lapse (R343). -/
def StackMem.atReset (k : StackMem) : StackMem :=
  { retired := k.retired ++ (k.pending.filter fun g => !k.retired.contains g).take (4096 - k.retired.length) }

/-- The stacks' lists after a module reset: each page that is retired posts an error record of class 8 and has its RETIRE record
(R342, R343, R356) (DEDUCED, log entry 45). -/
def State.settlePages (s : State) : State :=
  (List.finRange 6).foldl (fun s m =>
    let k := s.stack m
    let s1 := ((k.pending.filter fun g => !k.retired.contains g).take (4096 - k.retired.length)).foldl
      (fun (s : State) g => (s.ledger 6 2 m.val s.age.modOpSeconds (toLe 1 m.val ++ toLe 4 g ++ toLe 1 2)).postErr
        { cls := 8, unit := 2, index := m.val, addr := (6 * g + m.val) * 65536 }) s
    s1.updStack m StackMem.atReset) s

/-- A host port after a module reset: pins and what the host holds stay, its link is down (R332, R368, R378). -/
def HostPort.atReset (h : HostPort) : HostPort :=
  { linkUp := false, perst := h.perst, perstUntilUp := h.perst || h.perstUntilUp }

/-- The peer block after a module reset: PEER.NODE stays (R297, R339). -/
def PeerBlock.atReset (b : PeerBlock) : PeerBlock :=
  { nodeId := b.nodeId, dxM1 := b.dxM1, dyM1 := b.dyM1, dzM1 := b.dzM1, valid := b.valid, txOff := b.txOff
    nseq := b.nseq }

/-- Every register and record of domain MODULE and below at its reset value; the ledger, the flash, the POWER domain and the
host's memory stay; HBM reads as zero (R9, R332, R356, R365, R374) (DEDUCED, log entry 45). The SPDM connections of the two DOE mailboxes go with
their links; those of I3C and of vendor messages stay (DESIGN CHOICE, log entry 49). -/
def State.clearModule (s : State) : State :=
  let s1 := s.settlePages
  { s1 with
    ports := (List.finRange 2).map fun (p : Port) => (p.val, (s1.port p).atReset)
    ctxs := [], engines := []
    parts := (List.finRange 8).map fun (q : Part) => (q.val, { (s1.part q).atReset with regTotal := 0x04000C00, regDest := [] })
    mem := { s1.mem with hbm := [], pri := [], invalCmd := 0, invalJobs := [], resumeReg := 0, marked := [], awaited := [], torn := [] }
    peer := s1.peer.atReset
    rcv := { s1.rcv with
      inReset := BitVec.ofNat 64 (2 ^ 64 - 1), partInReset := 0, fence := 0, partFence := 0, swLevel := 0
      swTarget := 0, swRuns := [], ceTimes := [] }
    pwr := { s1.pwr with govLimit := 0x2BC, withheld := 0, governing := false, sense := 0, stackTemps := [], readyN := true }
    boot := { s1.boot.choose with phase := if s1.pwr.mainOn then 1 else 0, startHk := s1.hk, diesUp := false, ready := false, hbmTrained := 0, readyMs := 0, update := none }
    sec := { certs := s1.sec.certs, conns := s1.sec.conns.filter fun c => decide (2 ≤ c.1) }
    age := { s1.age with
      lowMargin := 0, exhausted := 0, lowerFailed := 0, replan := 0, ledgerIndex := 0, ledgerArea := 0
      ledgerData := List.replicate 64 0, hostEye := [], hbmMargin := [], peerEye := [] }
    dbg := {} }

/-- Both host links go down as a surprise (R332). -/
def State.dropHosts (s : State) : State :=
  (List.finRange 2).foldl (fun s p => if (s.port p).linkUp then s.emit (.linkDown p) else s) s

/-- The dies lose their supplies or their clock while a module reset runs: they are back in reset with their links down, and the start
waits again at its hold; one that waits for REFCLK goes on waiting for it (R332, R368, R417). -/
def State.holdStart (s : State) (hold : ModReset) : State :=
  let s1 := s.dropHosts
  { s1 with
    ports := (List.finRange 2).map fun (p : Port) => (p.val, (s1.port p).atReset)
    peer := s1.peer.atReset
    rcv := { s1.rcv with
      inReset := BitVec.ofNat 64 (2 ^ 64 - 1), modReset := if s1.rcv.modReset = .heldRefclk then .heldRefclk else hold }
    boot := { s1.boot with phase := if s1.pwr.mainOn then 1 else 0, diesUp := false, hbmTrained := 0 } }

/-- A module reset begins (R328, R332, R368): the start resumes at step 8, or is held; a trigger while one runs, or after a
power-cycle request, is recorded only (R331) (DEDUCED, log entry 45). -/
def State.resetModule (s : State) (cause : Nat) (esc : Bool) (hold : ModReset) (r : ErrRec) : State :=
  if s.rcv.powerCycle || !s.powered then s.recordOnly r
  else if s.rcv.modReset ≠ .none then
    let s1 := s.recordOnly r
    if hold = .running then s1 else s1.holdStart hold
  else
    let soft := s.rcv.swRuns.contains (4, 0)
    let s1 := (s.postErr { r with action := 5, cause := cause }).ledgerReset r.unit r.index 4 cause 0
    let s2 := ((s1.spoilWrites (Tab.keysBelow 64 s.engines)).dropHosts).clearModule
    { s2 with rcv := { (s2.rcv.note 4 cause 0 0 esc) with
      modReset := hold, moduleResets := satAdd 16 s.rcv.moduleResets 1, swRuns := if soft then [(4, 0)] else [] } }

/-- A power-cycle request (R330, R333, R343, R357): pages settle, the RESET record is written, every partition is fenced, the
transmitters and the host links are off, the tray controller is asked; after one, a trigger is recorded only (R331) (DEDUCED, log
entry 46). -/
def State.requestCycle (s : State) (cause stage : Nat) (esc : Bool) (r : ErrRec) : State :=
  if s.rcv.powerCycle || !s.powered then s.recordOnly r
  else
    let s0 := (List.finRange 6).foldl (fun s m => s.confirmRetire m) s
    let s1 := (s0.postErr { r with action := 6, cause := cause }).ledgerReset r.unit r.index 5 cause stage
    let s2 := (s1.spoilWrites (Tab.keysBelow 64 s.engines)).dropHosts
    let s3 := { s2 with
      rcv := { (s2.rcv.note 5 cause 0 0 esc) with
        powerCycle := true, fenceAll := true, partFence := 0xFF, modReset := .none, cycleCause := cause, swRuns := [] }
      ports := (List.finRange 2).map fun (p : Port) => (p.val, { s2.port p with linkUp := false, linkLost := true, lostTooLong := true })
      peer := { s2.peer with txOff := true }
      pwr := { s2.pwr with alertN := false, readyN := true }
      boot := { s2.boot with update := none }
      dbg := { s2.dbg with quiesce := 0 } }
    ((s3.followPort 0).followPort 1).emit (.pldmEvent "power-cycle request" cause)

/-! ### Steps of a start -/

/-- Step 7 (R367): the main rails are up, every partition rail at code 64. -/
def State.mainRails (s : State) : State :=
  { s with
    pwr := { s.pwr with mainOn := true }
    boot := { s.boot with phase := if s.boot.phase = 0 then 1 else s.boot.phase }
    parts := (List.finRange 8).map fun (q : Part) => (q.val, { s.part q with actualCode := 64, target := 64 }) }

/-- Whether main conversion may start (R366, R412 to R414, R422). -/
def PwrBlock.mayConvert (w : PwrBlock) : Bool :=
  w.aux && w.hkRunning && w.input48 && !w.reversedNow && !w.thermal && !bitOf w.stagesOff 1

/-- MOD_FAULT_N is released when none of its causes is left (R413, R414, R418, R422). -/
def PwrBlock.releaseFault (w : PwrBlock) : PwrBlock :=
  if w.reversedNow || w.stagesOff != 0 || w.thermalFault then w else { w with faultN := true }

/-- The start goes on at step 7, once its conditions hold, also while a power-cycle request is outstanding; a thermal shutdown then
releases MOD_FAULT_N (R366, R368, R421, R422). -/
def State.resumeStart (s : State) : State :=
  if !s.pwr.mayConvert || s.pwr.mainOn || s.boot.recovery then s
  else
    let s0 := s.mainRails
    let s1 := { s0 with pwr := ({ s0.pwr with thermalFault := false } : PwrBlock).releaseFault }
    if s.rcv.modReset = .heldSupply then { s1 with rcv := { s1.rcv with modReset := .running } } else s1

/-- The main supplies are lost while AUX_3V3 stays up (R368, R412, R422): a module reset that waits at step 7. -/
def State.loseSupply (s : State) : State :=
  let off (s : State) : State := { s with pwr := { s.pwr with mainOn := false } }
  let r : ErrRec := { cls := 11, unit := 10 }
  if !s.pwr.mainOn then (if s.rcv.modReset ≠ .none ∨ s.rcv.powerCycle then s.recordOnly r else s)
  else if s.rcv.powerCycle then off (s.recordOnly r)
  else
    let s1 := off (s.resetModule 0x07 false .heldSupply r)
    { s1 with
      rcv := { s1.rcv with partFence := 0xFF, inReset := BitVec.ofNat 64 (2 ^ 64 - 1) }
      boot := { s1.boot with phase := 0, diesUp := false, ready := false, hbmTrained := 0 } }

end Sys2Proof.Machine
end

