-- ==== Sys2Proof/Machine/Recovery.lean ====
section
/-!
DEFINITION. Faults, watchdogs, the reset ladder, fences and software resets (13 R321 to R343, R430).
-/

namespace Sys2Proof.Machine

/-! ### Memory errors -/

/-- The physical addresses of the table entries on a walk (R398). -/
def State.walkAddrs (s : State) (va : Nat) : Nat → Nat → Nat → List Nat
  | 0, _, _ => []
  | fuel + 1, lvl, table =>
    let sh := levelShape lvl
    let at_ := table + 8 * (va / 2 ^ sh.1 % 2 ^ sh.2)
    let en := leNat (s.hbmRead at_ 8)
    at_ :: (if bitOf en 0 && !(lvl == 5 || (lvl == 4 && bitOf en 1)) then s.walkAddrs va fuel (lvl + 1) (bitsOf en 51 7 * 128)
      else [])

/-- The stream of a command whose next request walks through a line of HBM (R321, page-table data) (DEDUCED, log entry 47). -/
def State.walksThrough (s : State) (p : Port) (t : Tag) (pa : Nat) : Option (Eng × StreamNo × Nat) :=
  ((s.cmdSlots p t).flatMap fun v => (List.finRange 16).filterMap fun i =>
    let x := s.strm v.1 i
    if x.state = .idle ∨ x.port ≠ p ∨ x.tag ≠ t then none
    else (s.nextReq v.1 x).map fun r => (v.1, i, r.1)).find? fun y =>
      (s.walkAddrs y.2.2 5 1 (s.ctx (s.cmd p t).ctx).root).any fun a => a / 64 == pa / 64

/-- The addresses that a command accesses next without a stream, with whether it writes there: its records and membership map, its semaphores
and predicate, its count record, what step 5 reads, a set-group's entry, the result of a SELFTEST, the header of a snapshot, its completion
record (R178, R190, R217, R272, R309, R344, R349, R364, R428, R429). -/
def State.nextAccesses (s : State) (p : Port) (t : Tag) : List (Nat × Bool) :=
  let c := s.cmd p t
  let reads (l : List Nat) : List (Nat × Bool) := (l.filter (· != 0)).map fun a => (a, false)
  match c.phase with
  | .fetched =>
    let maps := if c.op = 0x0A then (s.collRecords c).filterMap fun g => g.map fun r => r.2.mapAddr + 8 * s.peer.nodeId else []
    reads (s.recordsToRead (s.inherit c) ++ maps) ++ s.words c
  | .semaphore => if c.waitEn then [(s.semAddr c (c.f 4 2), false)] else []
  | .predicate => if c.predOp != 0 then [(c.f 24 8, false)] else reads [(c.mm 0).countAddr]
  | .admission =>
    (match c.op with
      | 0x08 => [(c.groupTable + 64 * c.f 52 2, c.f 50 1 == 1)] ++ reads [if c.stepPage = 0 then 0 else c.stepPage + 16 * fld c.entry 21 1]
      | 0x0D => reads [c.f 56 8, c.f 56 8 + 15, c.groupTable] ++ (match s.vread c.ctx (c.f 56 8) 16 with
          | .ok h => reads [fld h 8 8]
          | .error _ => [])
      | _ => [])
  | .running => if c.op = 0x0F then [(c.f 56 8, true)] else []
  | .ended => (if c.op = 0x0D ∧ !c.atPeer ∧ !c.snap.header.isEmpty then [(c.f 64 8, true)] else [])
      ++ (if c.signals then [(s.semAddr c (c.f 6 2), true)] else [])
  | .record =>
    let x := s.cqOf c
    [((s.cq x.1 x.2).base + 32 * ((s.cq x.1 x.2).tail.toNat % 2 ^ (s.cq x.1 x.2).log2Len), true)]
  | _ => []

/-- The access of a command outside its streams that walks through a line of HBM (R321, page-table data) (DEDUCED, log entry 47). -/
def State.accessThrough (s : State) (p : Port) (t : Tag) (pa : Nat) : Option (Nat × Bool) :=
  (s.nextAccesses p t).find? fun y =>
    (s.walkAddrs y.1 5 1 (s.ctx (s.cmd p t).ctx).root).any fun a => a / 64 == pa / 64

/-- The end of the command that read an uncorrectable line: FAULT_ABORT, with a fault record of KIND 2 when the line held
page-table data (R321, R430). -/
def State.badRead (s : State) (p : Port) (t : Tag) (pa : Nat) : State :=
  match s.walksThrough p t pa, s.accessThrough p t pa with
  | some (e, i, va), _ => (s.postFault 2 p t e.val i.val (!(s.strm e i).isRead) va).faultCmd p t
  | none, some (va, w) => (s.postFault 2 p t 0xFF 0xFF w va).faultCmd p t
  | none, none => s.faultCmd p t

/-- HBM_UNCORRECTABLE_ERROR (R321, R342, R430): the reading or writing command, if any, ends; the page is retired. -/
def execHbmUncorrectableError (pa : Nat) (reader : Option (Port × Tag)) (s : State) : Out :=
  .next (
    if !s.boot.ready || !s.served pa then s
    else
      let m := pageStack pa
      let hit := reader.filter fun r => (s.cmd r.1 r.2).phase != .free
      let s1 := s.postErr
        { cls := 2, action := if hit.isSome then 1 else 0, unit := 2, index := m.val, cmd := hit, addr := pa
          ctx := match hit with | some r => (s.cmd r.1 r.2).ctx.val | none => 0 }
      let s2 := match hit with
        | some r => s1.badRead r.1 r.2 pa
        | none => s1
      s2.retire m (pageIndex pa) 1 true)

/-- A unit's key among the class-1 records, and UNIT and INDEX of R323. -/
def unitKey (u : UnitId) : Nat × Nat :=
  match u with
  | .engine e => (0, e.val)
  | .partition p => (1, p.val)
  | .memory m => (2, m.val)
  | .peerPort i => (3, i.val)
  | .hostPort p => (4, p.val)
  | .housekeeping => (5, 0)
  | .security => (6, 0)
  | .router => (7, 0)
  | .bridge => (8, 0)
  | .mmu => (9, 0)

/-- A unit's count of corrected errors (R322); a peer port counts each of the `n` symbols that its decoder corrected in
a codeword, and the codeword (R286). -/
def State.countCorrected (s : State) (u : UnitId) (n : Nat) : State :=
  match u with
  | .engine e => s.bump e 0x8B8 1
  | .partition q => s.updPart q fun a => { a with corrected := satAdd 64 a.corrected 1 }
  | .memory m => s.updStack m fun k => { k with corrected := satAdd 64 k.corrected 1 }
  | .peerPort i => s.updLink i fun l => (l.bump cntFecSymbols n).bump cntFecCodewords 1
  | _ => s

/-- HKCLK cycles of 1 ms and of 86,400 s (187.5 MHz). -/
def hkMilli : Nat := 187500
def hkDay : Nat := 86400 * 187500000

/-- At most one class-1 record per unit and millisecond, with the corrections it covers (R322) (DEDUCED, log entry 48). -/
def State.postCorrected (s : State) (u : UnitId) (pa : Nat) : State :=
  let k := unitKey u
  let key := 256 * k.1 + k.2
  match s.rcv.ceTimes.find? (·.1 == key) with
  | some (_, t, n) =>
    if s.hk.toNat - t < hkMilli then { s with rcv := { s.rcv with ceTimes := Tab.set s.rcv.ceTimes key (t, n + 1) } }
    else ({ s with rcv := { s.rcv with ceTimes := Tab.set s.rcv.ceTimes key (s.hk.toNat, 0) } } : State).postErr
      { cls := 1, unit := k.1, index := k.2, addr := pa, count := n + 1 }
  | none => ({ s with rcv := { s.rcv with ceTimes := Tab.set s.rcv.ceTimes key (s.hk.toNat, 0) } } : State).postErr
      { cls := 1, unit := k.1, index := k.2, addr := pa }

/-- A page's corrected errors of the last 86,400 s: at 16 it becomes pending, with a record of class 9 (R342). -/
def State.pageCorrected (s : State) (m : Stack) (pa : Nat) : State :=
  let g := pageIndex pa
  let now := s.hk.toNat
  let times := ((Tab.get [] (s.stack m).pageErrors g).filter fun t => decide (now - t < hkDay)) ++ [now]
  let s1 := s.updStack m fun k => { k with pageErrors := Tab.set k.pageErrors g times }
  if times.length < 16 ∨ (s.stack m).pending.contains g then s1
  else (s1.updStack m fun k => { k with pending := k.pending ++ [g] }).postErr
    { cls := 9, unit := 2, index := m.val, addr := pa / 65536 * 65536 }

/-- CORRECTED_ERROR (R322, R342). -/
def execCorrectedError (u : UnitId) (pa : Nat) (s : State) : Out :=
  .next (if !s.powered then s else match u with
    | .memory m =>
      if pageStack pa ≠ m ∨ !s.served pa then s
      else (((s.countCorrected u 1).postCorrected u pa).pageCorrected m pa)
    | .peerPort _ => if pa = 0 ∨ 15 < pa then s else (s.countCorrected u pa).postCorrected u 0
    | _ => (s.countCorrected u 1).postCorrected u 0)

/-! ### Immediate faults, watchdogs, clocks -/

/-- The partition whose buffer held a command's data: that of its lowest engine. -/
def State.cmdPart (s : State) (p : Port) (t : Tag) : Nat :=
  match (s.cmdSlots p t).head? with
  | some v => (partOf v.1).val
  | none => 0

/-- A fault of one command's data (R329). -/
def State.dataFault (s : State) (p : Port) (t : Tag) (unit index : Nat) : State :=
  if (s.cmd p t).phase = .free then s
  else (s.postErr { cls := 2, action := 1, unit := unit, index := index, cmd := some (p, t), ctx := (s.cmd p t).ctx.val }).faultCmd
    p t

/-- The record of an error in a context's state: which address held it is left open (DESIGN CHOICE, log entry 5). -/
def State.contextErr (s : State) : State × ErrRec :=
  let r := s.free
  let pa := r.2.toNat % hbmBytes
  (r.1, { cls := 2, unit := 2, index := (pageStack pa).val, addr := pa })

/-- An uncorrectable error in a context's ring, semaphore region, record or group entry: the context is aborted, and the page that
held it is retired (R321, R329, R342). -/
def State.contextFault (s : State) (c : CtxNo) : State :=
  let r := s.contextErr
  (r.1.faultContext c r.2).retire (pageStack r.2.addr) (pageIndex r.2.addr) 1 true

/-- UNIT_FAULT (R321, R329) (DEDUCED, log entry 47). -/
def execUnitFault (f : UnitFault) (s : State) : Out :=
  .next (match f with
    | .residue e => s.resetEngine e 0x03 false { cls := 5, unit := 0, index := e.val }
    | .parity e => s.resetEngine e 0x04 false { cls := 5, unit := 0, index := e.val }
    | .tileMemory e => s.resetEngine e 0x05 false { cls := 2, unit := 0, index := e.val }
    | .bufferData p t => s.dataFault p t 1 (s.cmdPart p t)
    | .bufferControl q => s.resetPartition q 0x06 false { cls := 2, unit := 1, index := q.val }
    | .regulator q => s.resetPartition q 0x04 false { cls := 5, unit := 1, index := q.val }
    | .rail q => s.resetPartition q 0x07 false { cls := 11, unit := 10, index := q.val + 4 }
    | .poisoned p t => s.dataFault p t 4 (s.ctx (s.cmd p t).ctx).owner.val
    | .contextState c => s.contextFault c
    | .memoryControl m => s.resetModule 0x0A false .running { cls := 2, unit := 2, index := m.val }
    | .mmuControl => s.resetModule 0x0C false .running { cls := 2, unit := 9 }
    | .routerControl => s.resetModule 0x0B false .running { cls := 2, unit := 7 }
    | .bridgeControl => s.resetModule 0x0B false .running { cls := 2, unit := 8 }
    | .housekeepingSram => s.requestCycle 0x0D 0 false { cls := 2, unit := 5 })

/-- A meaning changes the state. -/
def State.changedBy (s : State) (o : Out) : Bool :=
  match o with
  | .next t => t != s
  | _ => false

/-- The state in which only one slot of its command may take a step of its own. -/
def State.only (s : State) (e : Eng) (k : SlotNo) : State :=
  let v := s.slot e k
  ((s.cmdSlots v.port v.tag).filter fun x => x.1 != e || x.2.1 != k).foldl (fun s x => s.updSlot x.1 x.2.1 fun v => { v with stopped := true }) s

/-- The command of a slot could take its next step on the engine, or a drain of it there could go on (R325). -/
def State.couldStep (s : State) (e : Eng) (k : SlotNo) : Bool :=
  let v := s.slot e k
  let p := v.port
  let t := v.tag
  let a := s.only e k
  (s.changedBy (execTileDrain e k s)) || ((s.cmd p t).phase == .running &&
    ((match (s.cmd p t).op with
      | 0x01 => [execNamedTileArrival e k a, execMatmul e k a, execGroupEntry e k a]
      | 0x02 => [execFused p t a, execGroupEntry e k a]
      | 0x03 => [execMove p t a]
      | 0x04 => [execConvert p t a]
      | 0x05 => [execVector p t a]
      | 0x06 => [execSolve p t a]
      | 0x07 => [execRoute p t a]
      | 0x08 => [execUpdate p t a]
      | 0x09 => [execScale p t a]
      | 0x0A => [execCollective p t a]
      | 0x0D => [execCheckpoint p t a]
      | 0x0E => [execRestore p t a]
      | _ => []).any a.changedBy))

/-- A stream waits for a source that always answers: HBM, host memory or a partition buffer has a request of it, or its next request
waits for no slot (R325). -/
def State.feeds (s : State) (e : Eng) (i : StreamNo) : Bool :=
  let x := s.strm e i
  x.reqs.any (fun r => r.queue != 8)
    || (x.state == .issuing && x.queue != 8 && [1, 3, 4].contains (s.standing e i)
      && (match s.nextReq e x with | some r => s.reachable x r.1 | none => false))

/-- Work is pending on an engine and its watchdog counts: a resident command could take a step, or waits for a source that always
answers; one whose steps all wait on halted streams, on a collective's peers or on reads to peers does not count (R253, R325). -/
def State.workPending (s : State) (e : Eng) : Bool :=
  s.watched e && !s.pwr.governing && (s.slotsOf e).any fun v =>
    s.couldStep e v.1 || (List.finRange 16).any fun i =>
      let x := s.strm e i
      x.state != .idle && x.port == v.2.port && x.tag == v.2.tag && s.feeds e i

/-- ENGINE_HANG (R324, R325, R329). -/
def execEngineHang (e : Eng) (s : State) : Out :=
  .next (if s.workPending e then s.resetEngine e 0x01 false { cls := 3, unit := 0, index := e.val } else s)

/-- DOMAIN_WATCHDOG_EXPIRY (R326, R329). -/
def execDomainWatchdogExpiry (d : Domain) (s : State) : Out :=
  .next (match d with
    | .partitionControl q => s.resetPartition q 0x01 false { cls := 3, unit := 1, index := q.val }
    | .memoryController m => s.resetModule 0x01 false .running { cls := 3, unit := 2, index := m.val }
    | .peerLink i => ((s.postErr { cls := 3, unit := 3, index := i.val }).linkDown i).afterRecords
    | .ringManager p => s.resetModule 0x01 false .running { cls := 3, unit := 4, index := p.val }
    | .router => s.resetModule 0x0B false .running { cls := 3, unit := 7 }
    | .bridge => s.resetModule 0x0B false .running { cls := 3, unit := 8 }
    | .mmu => s.resetModule 0x0C false .running { cls := 3, unit := 9 }
    | .housekeeping => s.requestCycle 0x0D 0 false { cls := 3, unit := 5 })

/-- CLOCK_FAULT (R327, R329): the clocks behind a fence are gated, so they have no fault (R334) (DEDUCED, log entry 44). -/
def execClockFault (d : ClockDomain) (s : State) : Out :=
  .next (match d with
    | .engine e =>
      if s.isolated e then s else s.resetEngine e 0x02 false { cls := 4, unit := 0, index := e.val }
    | .partition q =>
      if s.rcv.partFence.getLsbD q.val || s.rcv.fenceAll then s
      else s.resetPartition q 0x02 false { cls := 4, unit := 1, index := q.val }
    | .peerLink i => ((s.postErr { cls := 4, unit := 3, index := i.val }).linkDown i).afterRecords
    | .memoryController m => s.resetModule 0x02 false .running { cls := 4, unit := 2, index := m.val }
    | .router => s.resetModule 0x0B false .running { cls := 4, unit := 7 }
    | .bridge => s.resetModule 0x0B false .running { cls := 4, unit := 8 }
    | .mmu => s.resetModule 0x0C false .running { cls := 4, unit := 9 }
    | .ringManager p => s.resetModule 0x02 false .running { cls := 4, unit := 4, index := p.val })

/-! ### The ladder's own rows -/

/-- CONTEXT_ABORT_ON_FAULT (R328 level 1). -/
def execContextAbortOnFault (c : CtxNo) (s : State) : Out :=
  .next (s.contextFault c)

/-- ENGINE_RESET (R328 level 2). -/
def execEngineReset (e : Eng) (cause : BitVec 8) (s : State) : Out :=
  .next (s.resetEngine e cause.toNat false { cls := classOfCause cause.toNat, unit := 0, index := e.val })

/-- ENGINE_RESET_COMPLETE (R328, R335, R337). -/
def execEngineResetComplete (e : Eng) (s : State) : Out :=
  .next (
    if !s.rcv.inReset.getLsbD e.val || s.wideReset then s
    else
      let s1 := s.updEng e Engine.atReset
      { s1 with rcv := RcvBlock.swDone { s1.rcv with inReset := s1.rcv.inReset &&& ~~~engBit e } })

/-- PARTITION_RESET (R328 level 3). -/
def execPartitionReset (q : Part) (cause : BitVec 8) (s : State) : Out :=
  .next (let u := unitOfCause cause.toNat 1 q.val (q.val + 4)
    s.resetPartition q cause.toNat false { cls := classOfCause cause.toNat, unit := u.1, index := u.2 })

/-- PARTITION_RESET_COMPLETE (R328, R335, R337). -/
def execPartitionResetComplete (q : Part) (s : State) : Out :=
  .next (
    if !s.rcv.partInReset.getLsbD q.val || s.wideReset then s
    else
      let s1 := (enginesOf q).foldl (fun s e => s.updEng e Engine.atReset) (s.updPart q Partition.atReset)
      { s1 with rcv := RcvBlock.swDone { s1.rcv with
        partInReset := s1.rcv.partInReset &&& ~~~(BitVec.ofNat 8 (2 ^ q.val)) } })

/-- MODULE_RESET (R328 level 4, R332). -/
def execModuleReset (cause : BitVec 8) (s : State) : Out :=
  .next (let u := unitOfCause cause.toNat 5 0 0
    s.resetModule cause.toNat false .running { cls := classOfCause cause.toNat, unit := u.1, index := u.2 })

/-- POWER_CYCLE_REQUEST (R328 level 5, R333). -/
def execPowerCycleRequest (cause : BitVec 8) (s : State) : Out :=
  .next (let u := unitOfCause cause.toNat 5 0 0
    s.requestCycle cause.toNat 0 false { cls := classOfCause cause.toNat, unit := u.1, index := u.2 })

/-- POWER_CYCLE_REPEAT (R333): the event again, every 10 s from 45 s on. -/
def execPowerCycleRepeat (s : State) : Out :=
  .next (if s.rcv.powerCycle then s.emit (.pldmEvent "power-cycle request" s.rcv.cycleCause) else s)

/-- DEADLINE_MISSED (R330): a level hands over to the next, with a record of class 6; a module reset held for its supplies has
no deadline yet (R368). -/
def execDeadlineMissed (r : MissedReset) (s : State) : Out :=
  .next (match r with
    | .context c =>
      if (s.ctx c).state ≠ .aborting then s
      else
        let es := (List.finRange 64).filter fun e => (s.slotsOf e).any fun v => v.2.ctx == c
        es.foldl (fun s e => s.resetEngine e 0x08 true { cls := 6, unit := 0, index := e.val }) s
    | .engine e =>
      if !s.rcv.inReset.getLsbD e.val || s.wideReset then s
      else s.resetPartition (partOf e) 0x08 true { cls := 6, unit := 1, index := (partOf e).val }
    | .partition q =>
      if !s.rcv.partInReset.getLsbD q.val then s
      else s.resetModule 0x08 true .running { cls := 6, unit := 1, index := q.val }
    | .module =>
      if s.rcv.modReset = .none ∨ s.rcv.modReset = .heldSupply ∨ !s.pwr.mainOn then s
      else
        s.requestCycle 0x08 0 true { cls := 6, unit := 5 })

/-! ### Fences and software resets -/

/-- FENCE_RELEASE (R335, R336). -/
def execFenceRelease (mask : W64) (s : State) : Out :=
  .next (
    if !s.boot.ready then s
    else
      let free := (maskEngines mask).foldl (fun (m : W64) e => if s.inReset e then m else m ||| engBit e) 0
      { s with rcv := { s.rcv with fence := s.rcv.fence &&& ~~~free } })

/-- PART_FENCE_RELEASE (R335, R336): a fence that a power-cycle request has raised is never released. -/
def execPartFenceRelease (mask : BitVec 8) (s : State) : Out :=
  .next (
    if !s.boot.ready || s.rcv.powerCycle then s
    else { s with rcv := { s.rcv with partFence := s.rcv.partFence &&& ~~~(mask &&& ~~~s.rcv.partInReset) } })

/-- RCV.SWRESET takes a GO (R337). -/
def State.takeSw (s : State) (level target : Nat) : State :=
  if !s.powered then s else { s with rcv := { s.rcv with
    swLevel := level, swTarget := target, swRuns := s.rcv.swRuns.filter (· != (level, target)) ++ [(level, target)] } }

/-- A GO whose reset does not run, since a wider one does, is cleared at once (R331, R337). -/
def State.sw (s : State) : State := { s with rcv := s.rcv.swDone }

/-- SWRESET_ENGINE (R337): accepted before READY too (R368). -/
def execSwresetEngine (e : Eng) (s : State) : Out :=
  .next ((s.takeSw 2 e.val).resetEngine e 0x09 false { cls := 10, unit := 0, index := e.val }).sw

/-- SWRESET_PARTITION (R337). -/
def execSwresetPartition (q : Part) (s : State) : Out :=
  .next ((s.takeSw 3 q.val).resetPartition q 0x09 false { cls := 10, unit := 1, index := q.val }).sw

/-- SWRESET_MODULE (R337). -/
def execSwresetModule (s : State) : Out :=
  .next ((s.takeSw 4 0).resetModule 0x09 false .running { cls := 10, unit := 5 }).sw

end Sys2Proof.Machine
end

