-- ==== Sys2Proof/Machine/Hosts.lean ====
section
/-!
DEFINITION. Host port events: PERST_N, function resets, links, PORT.CTL, virtual functions and the BAR4 aperture
(09 R225; 15 R369, R378; 16 R387, R395).
-/

namespace Sys2Proof.Machine

/-- What a reset of the physical function clears in the port besides its contexts: the virtual functions, the MSI-X tables
and their pending bits (R369, R387, R396) (DEDUCED, log entry 49). -/
def HostPort.functionReset (h : HostPort) : HostPort := { h with vfEnabled := 0, msix := [], vfMsix := [] }

/-- The contexts that a port still owns when the reset of its physical function completes are destroyed (R225). -/
def State.destroyOwned (s : State) (p : Port) : State := (s.owned p).foldl (fun s c => s.destroyCtx c) s

/-- The DOE mailbox of a physical function loses its connection when the function is reset (R369, R377) (DEDUCED, log entry 49). -/
def State.dropDoe (s : State) (p : Port) : State :=
  { s with sec := { s.sec with conns := s.sec.conns.filter fun c => c.1 != p.val } }

/-- PERST_ASSERT (R369, R378). -/
def execPerstAssert (p : Port) (s : State) : Out :=
  .next (((s.updPort p fun h =>
    { h.functionReset with perst := true, perstUntilUp := true, linkUp := false, linkLost := false, ide := [] }).followPort
      p).dropDoe p)

/-- PERST_DEASSERT (R225, R369): the reset of the physical function completes. -/
def execPerstDeassert (p : Port) (s : State) : Out :=
  .next (
    if !(s.port p).perst then s
    else (s.updPort p fun h => { h with perst := false }).destroyOwned p)

/-- FUNCTION_LEVEL_RESET (R225): the port is down while it lasts; when it completes, the contexts it owns are destroyed (DEDUCED, log entry 49). -/
def execFunctionLevelReset (p : Port) (s : State) : Out :=
  .next (((s.updPort p HostPort.functionReset).destroyOwned p).dropDoe p)

/-- HOST_LINK_DOWN (R225): the link leaves L0 and L0p. -/
def execHostLinkDown (p : Port) (s : State) : Out :=
  .next (if (s.port p).linkUp then s.updPort p fun h => { h with linkUp := false, linkLost := true } else s)

/-- PORT_DOWN_TIMEOUT (R225): the link has been out of L0 and L0p for 1 ms. -/
def execPortDownTimeout (p : Port) (s : State) : Out :=
  .next (
    if (s.port p).linkLost && !(s.port p).linkUp then (s.updPort p fun h => { h with lostTooLong := true }).followPort p
    else s)

/-- A host link may come up: PERST_N is deasserted, the dies are loaded, and no power-cycle request holds it down (R333,
R367, R374). -/
def State.mayLink (s : State) (p : Port) : Bool :=
  !(s.port p).perst && !s.rcv.powerCycle && s.boot.diesUp && s.pwr.mainOn && !s.boot.recovery

/-- HOST_LINK_UP (R225, R369). -/
def execHostLinkUp (p : Port) (s : State) : Out :=
  .next (
    if !s.mayLink p || (s.port p).linkUp then s
    else (s.updPort p fun h =>
      { h with linkUp := true, linkLost := false, lostTooLong := false, perstUntilUp := false }).followPort p)

/-- PORT.CTL.ENABLE takes a value (R225). -/
def State.enablePort (s : State) (p : Port) (on : Bool) : State :=
  (s.updPort p fun h => { h with enable := on }).followPort p

/-- PORT_DISABLE (R225). -/
def execPortDisable (p : Port) (s : State) : Out := .next (if s.boot.ready then s.enablePort p false else s)

/-- PORT_ENABLE (R225). -/
def execPortEnable (p : Port) (s : State) : Out := .next (if s.boot.ready then s.enablePort p true else s)

/-- VF_ENABLE (R387): rings and completion rings follow PORT.VF_RINGS of the functions now enabled (DEDUCED, log entry 65). -/
def execVfEnable (p : Port) (n : Nat) (s : State) : Out :=
  .next (s.updPort p fun h => { h with vfEnabled := min n 16 })

/-- BASE of PORT.BAR4_BASE in GiB, with the bits below the aperture size clear (R395). -/
def alignBase (base log2 : Nat) : Nat := base / 2 ^ (log2 - 30) * 2 ^ (log2 - 30)

/-- BAR4_RESIZE (R395): 1 GiB to 512 GiB. -/
def execBar4Resize (p : Port) (log2 : Nat) (s : State) : Out :=
  .next (
    if 30 ≤ log2 ∧ log2 ≤ 39 then
      s.updPort p fun h => { h with
        bar4Log2 := log2, bar4Base := if h.bar4Log2 < log2 then alignBase h.bar4Base log2 else h.bar4Base }
    else s)

end Sys2Proof.Machine
end

