-- ==== Sys2Proof/Machine/Security.lean ====
section
/-!
DEFINITION. Measurements, SPDM, IDE keys, firmware update, sensors and the management address
(15 R371 to R380, R382; 17 R420, R422). The order in which SPDM serves its requests is that of the SPDM standard, which the
manual names without repeating it (PRESUMED, log entry 60).
-/

namespace Sys2Proof.Machine

/-! ### Measurements (R375) -/

/-- The digest that a header gives for the component of a type. -/
def componentDigest (h : List Byte) (type : Nat) : List Byte :=
  match (List.range (fld h 6 2)).find? fun c => fld h (64 + 96 * c) 1 == type with
  | some c => slice h (80 + 96 * c) 64
  | none => List.replicate 64 0

/-- The OTP state that measurement 2 covers (R372, R375) (DESIGN CHOICE, log entry 52). -/
def BootBlock.otp (b : BootBlock) : List Byte :=
  toLe 1 b.revoked ++ toLe 1 b.svnFuses ++ (List.range 8).flatMap fun k => Tab.get [] b.keyDigests k

/-- The boot record that measurement 9 covers (R375) (DESIGN CHOICE, log entry 52). -/
def BootBlock.record (b : BootBlock) : List Byte :=
  toLe 1 b.bank ++ toLe 1 (b2n b.fallback) ++ toLe 1 b.failCode ++ toLe 1 (b2n b.trialAtStart) ++ toLe 8 b.fwVersion

/-- Measurements 1 to 9 of a start (R375): in recovery 3 to 9 read as zero digests. -/
def BootBlock.measureNow (b : BootBlock) (i : Nat) : List Byte :=
  let h := (b.imageOf b.bank).take 4096
  if i = 1 then Config.sha512 Config.romVersion
  else if i = 2 then Config.sha512 b.otp
  else if b.recovery then List.replicate 64 0
  else if i = 3 then Config.sha512 (h.take 2624)
  else if i = 9 then Config.sha512 b.record
  else componentDigest h (i - 3)

/-- A measurement: 1 to 9 as step 8 fixed them, 10 as the lock fixed it, zero bytes otherwise (R375, R386). -/
def State.measurement (s : State) (i : Nat) : List Byte :=
  if i = 0 ∨ 10 < i then List.replicate 64 0
  else if i = 10 then
    (if s.sec.locked && !s.boot.recovery then Config.sha512 s.sec.lockSnapshot else List.replicate 64 0)
  else s.sec.meas.getD (i - 1) (s.boot.measureNow i)

/-- Step 8 fixes measurements 1 to 9 (R375). -/
def State.fixMeasurements (s : State) : State :=
  { s with sec := { s.sec with meas := (List.range 9).map fun i => s.boot.measureNow (i + 1) } }

/-! ### SPDM (R376, R377) -/

/-- The key of a transport's connection. -/
def connKey (x : Transport) : Nat :=
  match x with
  | .doe p => p.val
  | .i3c => 2
  | .vdm => 3

/-- The module answers on a transport (R366, R377, R420). -/
def State.serves (s : State) (x : Transport) : Bool :=
  s.pwr.aux && s.pwr.hkRunning && (match x with
    | .doe p => (s.port p).linkUp
    | .i3c => true
    | .vdm => (s.port 0).linkUp || (s.port 1).linkUp)

/-- A transport's connection. -/
def State.conn (s : State) (x : Transport) : SpdmConn := Tab.get {} s.sec.conns (connKey x)

/-- Replace a transport's connection. -/
def State.setConn (s : State) (x : Transport) (c : SpdmConn) : State :=
  { s with sec := { s.sec with conns := Tab.set s.sec.conns (connKey x) c } }

/-- Answer a request when the transport is served: the reply when the connection allows the request, ERROR otherwise. -/
def State.spdm (s : State) (x : Transport) (ok : Bool) (eff : State → State) : State :=
  if !s.serves x then s else if ok then eff s else s.emit (.spdm x "ERROR" [])

/-- The certificate chain of a slot; empty when the slot holds none (R376). -/
def State.chain (s : State) (slot : Nat) : List Byte := if slot = 0 then Config.slot0Chain else Tab.get [] s.sec.certs slot

/-- A slot holds a chain. -/
def State.hasChain (s : State) (slot : Nat) : Bool := slot == 0 || !(Tab.get [] s.sec.certs slot).isEmpty

/-- GET_VERSION (R377): 1.2 and 1.3; the connection begins anew. -/
def execGetVersion (x : Transport) (s : State) : Out :=
  .next (s.spdm x true fun s =>
    (s.setConn x { version := true }).emit (.spdm x "VERSION" (toLe 2 0x1200 ++ toLe 2 0x1300)))

/-- The capability flags of the requests that are served: certificates, challenges, signed measurements, secured sessions by key
exchange, heartbeats, key updates, certificate requests and slots; no mutual authentication, PSK or chunks (R377) (PRESUMED, log entry 60). -/
def spdmFlags : Nat := 0x1862D6

/-- GET_CAPABILITIES (R377). -/
def execGetCapabilities (x : Transport) (s : State) : Out :=
  .next (s.spdm x (s.conn x).version fun s =>
    (s.setConn x { s.conn x with capabilities := true }).emit (.spdm x "CAPABILITIES" (toLe 4 spdmFlags)))

/-- The signature algorithm that an offer gets: TPM_ALG_RSASSA_4096, bit 5, before TPM_ALG_RSAPSS_4096, bit 6 (R377) (DESIGN CHOICE, log
entry 60). -/
def signBit (a : AlgOffer) : Option Nat := if a.asym.getLsbD 5 then some 5 else if a.asym.getLsbD 6 then some 6 else none

/-- An offer holds what the module supports of every kind: RSASSA or RSAPSS with 4,096 bits, SHA-512, secp384r1, AES-256-GCM (R377)
(PRESUMED, log entry 60). -/
def offerFits (a : AlgOffer) : Bool := (signBit a).isSome && a.hash.getLsbD 2 && a.dhe.getLsbD 4 && a.aead.getLsbD 1

/-- NEGOTIATE_ALGORITHMS (R377): the answer names the algorithms selected for signatures, hash, measurement hash, key exchange and AEAD. -/
def execNegotiateAlgorithms (x : Transport) (offered : AlgOffer) (s : State) : Out :=
  .next (s.spdm x ((s.conn x).capabilities && offerFits offered) fun s =>
    let k := (signBit offered).getD 5
    (s.setConn x { s.conn x with algorithms := true, asym := k }).emit
      (.spdm x "ALGORITHMS" (toLe 4 (2 ^ k) ++ toLe 4 (2 ^ 2) ++ toLe 4 (2 ^ 3) ++ toLe 2 (2 ^ 4) ++ toLe 2 (2 ^ 1))))

/-- What the DOE discovery protocol of a mailbox answers for an index: vendor, protocol and the next index, for DOE discovery, CMA/SPDM and
secured CMA/SPDM (R377); a virtual function has no mailbox. -/
def doeDiscovery (f : Fn) (index : Nat) : Option (Nat × Nat × Nat) :=
  if f.val ≠ 0 ∨ 2 < index then none else some (1, index, (index + 1) % 3)

/-- GET_DIGESTS (R376, R377): the mask of slots that hold a chain, and the SHA-512 of each. -/
def execGetDigests (x : Transport) (s : State) : Out :=
  .next (s.spdm x (s.conn x).algorithms fun s =>
    let ks := (List.range 8).filter s.hasChain
    s.emit (.spdm x "DIGESTS" (toLe 1 (ks.foldl setBit 0) ++ ks.flatMap fun k => Config.sha512 (s.chain k))))

/-- GET_CERTIFICATE (R376). -/
def execGetCertificate (x : Transport) (slot : Fin 8) (off len : Nat) (s : State) : Out :=
  .next (s.spdm x ((s.conn x).algorithms && s.hasChain slot.val) fun s =>
    s.emit (.spdm x "CERTIFICATE" (slice (s.chain slot.val) off len)))

/-- CHALLENGE (R376, R377): signed with the device key. -/
def execChallenge (x : Transport) (slot : Fin 8) (nonce : List Byte) (s : State) : Out :=
  .next (s.spdm x ((s.conn x).algorithms && s.hasChain slot.val) fun s =>
    let d := Config.sha512 (s.chain slot.val)
    let own := Config.freeBytes s.fresh 32
    ({ s with fresh := s.fresh + 1 } : State).emit
      (.spdm x "CHALLENGE_AUTH" (d ++ own ++ Config.signature (nonce ++ d ++ own))))

/-- The measurement blocks that an index asks for: 0 their number, 255 all of them (R375, R377). -/
def State.measBlocks (s : State) (index : Nat) : List Byte :=
  let block (i : Nat) : List Byte :=
    toLe 1 i ++ toLe 1 1 ++ toLe 2 67 ++ toLe 1 0 ++ toLe 2 64 ++ s.measurement i
  if index = 0 then toLe 1 10
  else if index = 255 then (List.range 10).flatMap fun i => block (i + 1)
  else block index

/-- GET_MEASUREMENTS (R375, R377). -/
def execGetMeasurements (x : Transport) (index : BitVec 8) (signed : Bool) (s : State) : Out :=
  .next (s.spdm x ((s.conn x).algorithms && decide (index.toNat ≤ 10 ∨ index.toNat = 255)) fun s =>
    let b := s.measBlocks index.toNat
    s.emit (.spdm x "MEASUREMENTS" (if signed then b ++ Config.signature b else b)))

/-- The sessions of a connection that are taken. -/
def SpdmConn.taken (c : SpdmConn) (k : Nat) : Bool := c.sessions.contains k || c.handshaking.any fun h => h.1 == k

/-- A session is established. -/
def SpdmConn.live (c : SpdmConn) (k : Nat) : Bool := c.sessions.contains k

/-- A session ends. -/
def SpdmConn.drop (c : SpdmConn) (k : Nat) : SpdmConn :=
  { c with
    sessions := c.sessions.filter (· != k), handshaking := c.handshaking.filter fun h => h.1 != k
    keyGen := c.keyGen.filter fun h => h.1 != k }

/-- KEY_EXCHANGE (R377): up to four sessions. -/
def execKeyExchange (x : Transport) (slot : Fin 8) (share : List Byte) (s : State) : Out :=
  .next (
    let c := s.conn x
    let room := (List.range 4).find? fun k => !c.taken k
    s.spdm x (c.algorithms && s.hasChain slot.val && room.isSome) fun s =>
      let k := room.getD 0
      let own := Config.freeBytes s.fresh 96
      (({ s with fresh := s.fresh + 1 } : State).setConn x
        { c with handshaking := c.handshaking ++ [(k, s.fresh, share)] }).emit
          (.spdm x "KEY_EXCHANGE_RSP" (toLe 1 k ++ own ++ Config.signature (share ++ own))))

/-- FINISH (R377): the session is established when the requester's check value is right, and ends otherwise. -/
def execFinish (x : Transport) (session : Fin 4) (verify : List Byte) (s : State) : Out :=
  .next (
    let c := s.conn x
    match c.handshaking.find? fun h => h.1 == session.val with
    | none => s.spdm x false id
    | some h =>
      if !s.serves x then s
      else if verify = Config.finishMac h.2.1 h.2.2 then
        (s.setConn x { (c.drop session.val) with sessions := c.sessions ++ [session.val] }).emit (.spdm x "FINISH_RSP" [])
      else (s.setConn x (c.drop session.val)).emit (.spdm x "ERROR" []))

/-- KEY_UPDATE (R377). -/
def execKeyUpdate (x : Transport) (session : Fin 4) (s : State) : Out :=
  .next (s.spdm x ((s.conn x).live session.val) fun s =>
    (s.setConn x { s.conn x with keyGen := Tab.upd 0 (s.conn x).keyGen session.val (· + 1) }).emit
      (.spdm x "KEY_UPDATE_ACK" []))

/-- HEARTBEAT (R377). -/
def execHeartbeat (x : Transport) (session : Fin 4) (s : State) : Out :=
  .next (s.spdm x ((s.conn x).live session.val) fun s => s.emit (.spdm x "HEARTBEAT_ACK" []))

/-- END_SESSION (R377). -/
def execEndSession (x : Transport) (session : Fin 4) (s : State) : Out :=
  .next (s.spdm x ((s.conn x).live session.val) fun s =>
    (s.setConn x ((s.conn x).drop session.val)).emit (.spdm x "END_SESSION_ACK" []))

/-- A request arrives in an established session (R377). -/
def State.secured (s : State) (x : Transport) (session : Option (Fin 4)) : Bool :=
  match session with
  | some k => (s.conn x).live k.val
  | none => false

/-- GET_CSR (R376, R377). -/
def execGetCsr (x : Transport) (session : Option (Fin 4)) (s : State) : Out :=
  .next (s.spdm x (s.secured x session) fun s => s.emit (.spdm x "CSR" Config.deviceCsr))

/-- SET_CERTIFICATE (R376, R377): slots 1 to 7. -/
def execSetCertificate (x : Transport) (session : Option (Fin 4)) (slot : Fin 8) (chain : List Byte) (s : State) : Out :=
  .next (s.spdm x (s.secured x session && slot.val != 0) fun s =>
    ({ s with sec := { s.sec with certs := Tab.set s.sec.certs slot.val chain } } : State).emit
      (.spdm x "SET_CERTIFICATE_RSP" []))

/-- IDE_KM (R377, R378): on the DOE mailbox of the port whose stream it keys. -/
def execIdeKm (x : Transport) (session : Option (Fin 4)) (stream : Fin 8) (key : List Byte) (s : State) : Out :=
  .next (
    match x with
    | .doe p => s.spdm x (s.secured x session) fun s =>
        (s.updPort p fun h => { h with ide := Tab.set h.ide stream.val key }).emit (.spdm x "VENDOR_DEFINED_RESPONSE" [])
    | _ => s.spdm x false id)

/-! ### Firmware update (R371 to R373, R380, R382) -/

/-- The module answers PLDM. -/
def State.managed (s : State) : Bool := s.pwr.aux && s.pwr.hkRunning

/-- PLDM types 0, 2 and 5, as a base request for them is answered: bit n for Type n (R379). -/
def State.pldmTypes (s : State) : Option Nat := if s.managed then some 0x25 else none

/-- Where the module answers on the management bus: the dynamic address of an I3C controller under the I3C binding, or else the static
address under the SMBus binding (R420). -/
def State.busAddress (s : State) : Option (Bool × Nat) :=
  if !s.managed then none
  else match s.pwr.i3cDynamic with
    | some a => some (true, a.toNat)
    | none => some (false, 0x60 + s.pwr.strap)

/-- The component identifier of the one component (R380). -/
def updateComponent : Nat := 0x6440

/-- A bank as it stands while an image is written: its header still erased (R380). -/
def headless (img : List Byte) : List Byte := List.replicate (min 4096 img.length) 0xFF ++ img.drop 4096

/-- The bank that an update writes: the one that is not running, or bank A in recovery (R374, R380). -/
def BootBlock.updateBank (b : BootBlock) : Nat := if b.recovery then 0 else otherBank b.bank

/-- REQUEST_UPDATE (R380): the bank is erased, or the request is refused; there is no component but one (DESIGN CHOICE, log entry 53). -/
def execRequestUpdate (agent : UpdateAgent) (s : State) : Out :=
  .next (
    if !s.managed then s
    else if agent.component ≠ updateComponent then s.emit (.pldm "ComponentNotSupported" agent.component)
    else if !s.boot.ready && !s.boot.recovery then s.emit (.pldm "RETRY_REQUEST_UPDATE" 0)
    else if s.boot.update.isSome then s.emit (.pldm "ALREADY_IN_UPDATE_MODE" 0)
    else
      let k := s.boot.updateBank
      ({ s with boot := { s.boot with
        banks := Tab.set s.boot.banks k { bytes := some [] }
        update := some { agent := agent.agent, bank := k, image := [], verified := false } } } : State).emit
          (.pldm "RequestUpdate" 0))

/-- Data into an image: what was not written is erased flash (DEDUCED, log entry 53). -/
def layIn (img : List Byte) (off : Nat) (data : List Byte) : List Byte :=
  patch (img ++ List.replicate (off - img.length) 0xFF) off data

/-- FIRMWARE_IMAGE_WRITE (R380): the header is written last, once the whole image has passed R373 (DEDUCED, log entry 53). -/
def execFirmwareImageWrite (off : Nat) (data : List Byte) (last : Bool) (s : State) : Out :=
  .next (
    match s.boot.update with
    | none => s
    | some u =>
      if u.verified || decide (2 ^ 25 < off + data.length) || !s.managed then s
      else
        let img := layIn u.image off data
        if !last then { s with boot := { s.boot with
          banks := Tab.set s.boot.banks u.bank { bytes := some (headless img) }
          update := some { u with image := img } } }
        else
          let code := s.boot.imageCode img fun _ => true
          ({ s with boot := { s.boot with
            banks := Tab.set s.boot.banks u.bank { bytes := some (if code = 0 then img else headless img) }
            update := if code = 0 then some { u with image := img, verified := true } else none } } : State).emit
              (.pldm "VerifyComplete" code))

/-- ACTIVATE_FIRMWARE (R380, R382): the written bank is preferred under TRIAL. -/
def execActivateFirmware (s : State) : Out :=
  .next (
    match s.boot.update with
    | none => s
    | some u =>
      if !u.verified || !s.managed then s
      else
        ({ s with boot := { s.boot.prefer u.bank true with update := none } } : State).emit
          (.pldm "ActivateFirmware" 4))

/-! ### Sensors and the bus -/

/-- GET_SENSOR_READING (R379, R422): the input current is shown by no register, so it is left open. -/
def execGetSensorReading (n : Sensor) (s : State) : Out :=
  .next (
    if !s.managed then s
    else
      let say (s : State) (v : Nat) : State := s.emit (.pldm "GetSensorReading" v)
      match n with
      | .inputVoltage => say s (bitsOf s.pwr.sense 15 0)
      | .inputCurrent => say { s with fresh := s.fresh + 1 } (Config.freeValue s.fresh).toNat
      | .inputPower => say s (bitsOf s.pwr.sense 31 16)
      | .auxVoltage => say s (bitsOf s.pwr.sense 43 32)
      | .coldPlate => say s (bitsOf s.pwr.sense 55 48)
      | .stack m => say s (s.pwr.stackTemps.getD m.val 0)
      | .railCode q => say s (s.part q).actualCode
      | .marginHours q => say s (s.part q).marginHours)

/-- SETDASA (R420): a module at its static address takes a dynamic one (DEDUCED, log entry 54). -/
def execSetdasa (addr : BitVec 7) (s : State) : Out :=
  .next (
    if !s.managed || s.pwr.i3cDynamic.isSome then s
    else { s with pwr := { s.pwr with i3cDynamic := some addr } })

/-- RSTDAA (R420). -/
def execRstdaa (s : State) : Out := .next { s with pwr := { s.pwr with i3cDynamic := none } }

end Sys2Proof.Machine
end

