-- ==== Sys2Proof/Machine/Power.lean ====
section
/-!
DEFINITION. Power, clocks, temperature and the steps of a start (15 R366 to R374; 17 R411 to R422, R425; 01 R25).
-/

namespace Sys2Proof.Machine

/-! ### The 48 V input -/

/-- The 48 V input leaves its range: a loss where it was in range (R368, R412). -/
def State.loseInput (s : State) : State :=
  if s.pwr.input48 then ({ s with pwr := { s.pwr with input48 := false } } : State).loseSupply else s

/-- INPUT_UNDERVOLTAGE (R412, R368). -/
def execInputUndervoltage (s : State) : Out := .next s.loseInput

/-- INPUT_OVERVOLTAGE (R412, R368). -/
def execInputOvervoltage (s : State) : Out := .next s.loseInput

/-- The stage that feeds a stage (R414); stage 1 is fed from the blades. -/
def feeder (n : Nat) : Nat :=
  if n ≤ 1 then 0
  else if n ≤ 3 then 1
  else if n ≤ 11 then (if n ≤ 7 then 2 else 3)
  else if n ≤ 13 then n - 10
  else if n ≤ 19 then (if n ≤ 16 then 2 else 3)
  else if n = 21 then 3 else 2

/-- A stage is fed, directly or not, through another. -/
def fedBy (n m : Nat) : Bool := n == m || feeder n == m || feeder (feeder n) == m

/-- A stage is shut down as a short, with every stage that it feeds; level 5 follows (R414, R425). -/
def State.shortStage (s : State) (n : Nat) : State :=
  let off := ((List.range 23).filter fun k => decide (1 ≤ k) && fedBy k n).foldl setBit s.pwr.stagesOff
  let s1 := { s with pwr := { s.pwr with stagesOff := off, shorted := n, faultN := false
                                         mainOn := s.pwr.mainOn && n != 1 } }
  s1.requestCycle 0x07 n false { cls := 11, unit := 10, index := n }

/-- INPUT_OVERCURRENT (R412): stage 1 is shut down as a short. -/
def execInputOvercurrent (s : State) : Out := .next (if s.pwr.mainOn then s.shortStage 1 else s)

/-- RAIL_STAGE_SHORT (R414): a stage that is off has no current limit to reach; the stages behind the first are on with main conversion. -/
def execRailStageShort (stage : Fin 22) (s : State) : Out :=
  .next (
    if bitOf s.pwr.stagesOff (stage.val + 1) || !s.powered || !(s.pwr.mainOn || (stage.val == 0 && s.pwr.input48)) then s
    else s.shortStage (stage.val + 1))

/-- What reversed polarity sets while AUX_3V3 is present, once housekeeping has started (R413, R425). -/
def State.noteReversed (s : State) : State :=
  if s.powered then
    ({ s with pwr := { s.pwr with reversed := true, faultN := false } } : State).emit (.pldmEvent "reversed input" 0)
  else s

/-- REVERSED_INPUT (R413). -/
def execReversedInput (s : State) : Out :=
  .next ({ s.loseInput with pwr := { s.loseInput.pwr with reversedNow := true } } : State).noteReversed

/-- POLARITY_RESTORED (R413). -/
def execPolarityRestored (s : State) : Out :=
  .next { s with pwr := ({ s.pwr with reversedNow := false } : PwrBlock).releaseFault }

/-- INPUT_BLADE_OPEN (R412). -/
def execInputBladeOpen (s : State) : Out :=
  .next (if s.pwr.mainOn then s.emit (.pldmEvent "input blade open" 0) else s)

/-- INPUT_QUALIFIED (R366, R368): the input has stayed in range for 10 ms. -/
def execInputQualified (s : State) : Out :=
  .next (
    if s.pwr.reversedNow then s
    else ({ s with pwr := { s.pwr with input48 := true } } : State).resumeStart)

/-! ### AUX_3V3 and the start -/

/-- Everything but the flash and what lies outside the module is lost (R9, R343, R355, R415): the ledger, the banks, the boot
preference, the fuses and the certificates stay. -/
def State.powerDown (s : State) : State :=
  { s with
    hk := 0
    ports := (List.finRange 2).map fun (p : Port) =>
      (p.val, ({ linkUp := false, perst := (s.port p).perst, perstUntilUp := true } : HostPort))
    ctxs := [], engines := [], parts := []
    mem := { host := s.mem.host, ats := s.mem.ats
             stackMems := s.mem.stackMems.map fun k => (k.1, { retired := k.2.retired }) }
    peer := {}
    rcv := { inReset := BitVec.ofNat 64 (2 ^ 64 - 1) }
    pwr := { aux := false, pll := false, hkRunning := false, input48 := s.pwr.input48, mainOn := false, refclk := s.pwr.refclk
             reversedNow := s.pwr.reversedNow, mated := s.pwr.mated, readyN := true }
    boot := { phase := 0, diesUp := false, ready := false, hbmTrained := 0, copies := s.boot.copies, lostTrial := s.boot.lostTrial
              lostRequested := if s.rcv.powerCycle then some s.rcv.cycleCause else none
              banks := s.boot.banks, svnFuses := s.boot.svnFuses, revoked := s.boot.revoked
              keyDigests := s.boot.keyDigests }
    sec := { certs := s.sec.certs }
    age := { log := s.age.log, plans := s.age.plans, planSeq := s.age.planSeq, seq := s.age.seq, modOpSeconds := Tab.get 0 s.age.savedOp 8
             savedOp := s.age.savedOp }
    dbg := {} }

/-- AUX_3V3_LOSS (R415, R421). -/
def execAux3v3Loss (s : State) : Out := .next (if s.pwr.aux then s.powerDown else s)

/-- AUX_3V3_RISE (R366, R415): the security block leaves power-on reset. -/
def execAux3v3Rise (s : State) : Out :=
  .next (if s.pwr.aux then s else { s with pwr := { s.pwr with aux := true } })

/-- The PLAN records of a partition, oldest first (R356). -/
def AgeBlock.plansOf (a : AgeBlock) (q : Part) : List (List Byte) :=
  let at_ := a.planSeq % planRecords
  (((a.plans.filter fun x => decide (at_ ≤ x.1)) ++ a.plans.filter fun x => decide (x.1 < at_)).map (·.2)).filter fun b =>
    fld b 1 1 == 1 && fld b 2 1 == q.val

/-- What the ledger gives a partition at a start: its operating time, plan code, margin and earlier plans (R355, R356,
R358, R367 step 5). -/
def AgeBlock.load (a : AgeBlock) (q : Part) : Partition :=
  let ps := a.plansOf q
  let p0 : Partition := { opSeconds := Tab.get 0 a.savedOp q.val }
  match ps.getLast? with
  | none => p0
  | some b =>
    { p0 with
      planCode := if fld b 32 1 = 2 then fld b 26 1 else fld b 27 1, marginHours := fld b 28 4, planHours := fld b 8 8 / 3600, sensitivity := some (fld b 20 2)
      srefs := (ps.drop (ps.length - 8)).map fun r => (fld r 8 8 / 3600, 2500 * (fld r 18 2 : Int)) }

/-- ROOT_PLL_LOCK (R366, R367 steps 2 to 6, R374, R420, R425): the count starts, a bank is chosen, the ledger is read, the
strap is read, and the start goes on where the 48 V input allows it. -/
def execRootPllLock (strap : BitVec 3) (s : State) : Out :=
  .next (
    if !s.pwr.aux || s.pwr.pll || !s.pwr.refclk then s
    else
      let s1 := { s with
        hk := 0
        parts := (List.finRange 8).map fun (q : Part) => (q.val, s.age.load q)
        pwr := { s.pwr with pll := true, hkRunning := true, strap := strap.toNat }
        boot := { s.boot.choose with lostRequested := none, startHk := 0 }
        rcv := match s.boot.lostRequested with
          | some c => s.rcv.note 5 c 0 0 (c == 8)
          | none => s.rcv }
      (if s1.pwr.reversedNow then s1.noteReversed else s1).resumeStart)

/-- A trial bank that is rejected, or not READY in time, gives up its preference (R374); the next start shows why. -/
def BootBlock.loseTrial (b : BootBlock) (code : Nat) : BootBlock :=
  if b.trialRunning then { b.prefer (otherBank b.preferred) false with trialRunning := false, lostTrial := code } else b

/-- DIES_LOADED (R367, R373 to R375): step 8, in which the components, read as flash holds them or misread, are accepted by their digests,
the measurements are fixed and the dies leave reset with every engine still held in it, or one is rejected; given again, step 9: the rails
move to their plan codes, engines leave reset, peer ports train (DESIGN CHOICE, log entry 67). -/
def execDiesLoaded (accepted : Bool) (s : State) : Out :=
  .next (
    if !s.pwr.mainOn || s.boot.diesUp || !(s.boot.phase == 1 || s.boot.phase == 2) || s.boot.recovery || s.rcv.powerCycle
        || s.rcv.modReset == .heldRefclk then s
    else if s.boot.phase = 1 then
      (if accepted && s.boot.diesOk s.boot.bank then ({ s with boot := { s.boot with phase := 2 } } : State).fixMeasurements
        else { s with boot := ({ s.boot with phase := 15, failCode := 6 } : BootBlock).loseTrial 6 })
    else
      let s1 := { s with
        boot := { s.boot with phase := 3, diesUp := true }
        rcv := { s.rcv with inReset := 0, partFence := 0 }
        parts := (List.finRange 8).map fun (q : Part) =>
          (q.val, { s.part q with actualCode := (s.part q).planCode, target := (s.part q).planCode }) }
      (List.finRange 6).foldl (fun s i => s.train i) s1)

/-- The trial bank is committed when it reaches READY: with SVN_COMMIT fuses are blown from then on until the floor equals its SVN
(R374, R382). -/
def BootBlock.commit (b : BootBlock) : BootBlock :=
  if b.trialRunning then
    { b.prefer b.preferred false with
      trialRunning := false
      blowing := if b.commitsOf b.bank && decide (b.svnFuses < b.svnOf b.bank) then some (b.svnOf b.bank) else none }
  else b

/-- READY_MS: milliseconds of HKCLK time since step 1, or since the start of the module reset (R369) (DEDUCED, log entry 67). -/
def State.readyMs (s : State) : Nat := (s.hk - s.boot.startHk).toNat / hkMilli % 2 ^ 32

/-- HBM_TRAINING_COMPLETE (R332, R343, R367 steps 11 and 12, R369): every line is zero and READY is set, or a stack has failed. -/
def execHbmTrainingComplete (trained again : BitVec 6) (s : State) : Out :=
  .next (
    let all := trained ||| again
    if s.boot.phase != 3 || s.rcv.modReset == .heldRefclk || s.rcv.powerCycle then s
    else if all = 0x3F then
      { s with
        mem := { s.mem with hbm := [] }
        boot := { s.boot.commit with phase := 4, ready := true, hbmTrained := 0x3F, readyMs := s.readyMs }
        rcv := RcvBlock.swDone { s.rcv with modReset := .none }
        pwr := { s.pwr with readyN := false } }
    else
      { s with boot := { s.boot with
        phase := 15, hbmTrained := all.toNat
        failCode := 0x20 + ((List.range 6).find? fun m => !bitOf all.toNat m).getD 0 } })

/-- TRIAL_TIMEOUT (R374): a trial bank has not reached READY within 3.5 s. -/
def execTrialTimeout (s : State) : Out :=
  .next (if s.boot.ready then s else { s with boot := s.boot.loseTrial 8 })

/-! ### Temperature, sensors, REFCLK, governor -/

/-- THERMAL_SHUTDOWN (R422, R425). -/
def execThermalShutdown (s : State) : Out :=
  .next (
    if !s.pwr.aux || !s.pwr.hkRunning || s.pwr.thermal then s
    else ({ s with pwr := { s.pwr with thermal := true, thermalFault := true, faultN := false, thermN := false } } : State).loseSupply)

/-- THERMAL_RESUME (R422) (DEDUCED, log entry 50). -/
def execThermalResume (s : State) : Out :=
  .next (
    if !s.pwr.thermal then s
    else
      ({ s with pwr := { s.pwr with thermal := false, thermN := true } } : State).resumeStart)

/-- The number of a sensor among the PLDM sensors. -/
def sensorNo (n : Sensor) : Nat :=
  match n with
  | .inputVoltage => 0
  | .inputCurrent => 1
  | .inputPower => 2
  | .auxVoltage => 3
  | .coldPlate => 4
  | .stack m => 5 + m.val
  | .railCode p => 16 + p.val
  | .marginHours p => 24 + p.val

/-- SENSOR_WARNING (R418, R422): a PLDM event; the temperatures assert MOD_THERM_N too. A rail code has no warning, and the margin's is
sent with the plan that finds it (R359). -/
def execSensorWarning (n : Sensor) (s : State) : Out :=
  .next (
    if !s.pwr.hkRunning then s
    else
      let s1 := s.emit (.pldmEvent "sensor warning" (sensorNo n))
      match n with
      | .coldPlate => { s1 with pwr := { s1.pwr with thermN := false } }
      | .stack _ => { s1 with pwr := { s1.pwr with thermN := false } }
      | .railCode _ => s
      | .marginHours _ => s
      | _ => s1)

/-- REFCLK_LOSS (R417, R425): every domain is gated, the transmitters go off, a module reset follows and is held. -/
def execRefclkLoss (s : State) : Out :=
  .next (
    let s1 := { s with pwr := { s.pwr with refclk := false } }
    if !s.pwr.pll || !s.pwr.refclk then s1
    else
      let s2 := s1.resetModule 0x02 false .heldRefclk { cls := 4, unit := 5 }
      { s2 with pwr := { s2.pwr with hkRunning := false } })

/-- REFCLK_RETURN (R366, R417): the held module reset proceeds, at step 7 where the main rails are off. -/
def execRefclkReturn (s : State) : Out :=
  .next (
    let s1 := { s with pwr := { s.pwr with refclk := true, hkRunning := s.pwr.pll } }
    if s.rcv.modReset ≠ .heldRefclk then s1
    else State.resumeStart { s1 with rcv := { s1.rcv with modReset := if s.pwr.mainOn then .running else .heldSupply } })

/-- POWER_GOVERNOR (R25): it starts or stops withholding issue cycles; how many it has withheld when it stops is left open (DEDUCED, log entry 50). -/
def execPowerGovernor (withhold : Bool) (s : State) : Out :=
  .next (
    if withhold then { s with pwr := { s.pwr with governing := true } }
    else if !s.pwr.governing then s
    else
      let r := s.free
      { r.1 with pwr := { r.1.pwr with governing := false, withheld := (r.1.pwr.withheld + r.2.toNat) % 2 ^ 64 } })

end Sys2Proof.Machine
end

