-- ==== Sys2Proof/Machine/Readback.lean ====
section
/-!
DEFINITION. What BAR0 shows: every register and record window of chapter 16, as the manual lays it out
(16 R383 to R405; 04 R97, R98; 09 R197, R227; 10 R234; 12 R308; 13 R336, R337; 14 and 15 registers). A read of BAR0 changes
nothing and is no command of the block; `State.bar0` is the image that reads return and that partial writes merge with.
-/

namespace Sys2Proof.Machine

/-! ### Registers with one word -/

/-- A bit at a place of a word. -/
def bitAt (b : Bool) (i : Nat) : Nat := b2n b * 2 ^ i

/-- IDENT.ID and IDENT.CAP (16). -/
def identId : Nat := 0x6440 + 0x10 * 2 ^ 16
def identCap : Nat := 0x40 + 8 * 2 ^ 8 + 6 * 2 ^ 12 + 0x40 * 2 ^ 16 + 2 ^ 24 + 0x100 * 2 ^ 32

/-- IDENT.BOOT_STATUS (R369). -/
def BootBlock.status (b : BootBlock) : Nat :=
  b.phase + bitAt b.ready 4 + b.bank * 2 ^ 5 + bitAt b.fallback 6 + bitAt b.recovery 7 + b.failCode * 2 ^ 8 +
    b.hbmTrained * 2 ^ 16 + b.readyMs * 2 ^ 32

/-- PORT.CTL (16). -/
def HostPort.ctl (h : HostPort) : Nat := b2n h.enable + bitAt h.linkUp 1 + bitAt h.isDown 2

/-- PORT.VF_RINGS (16). -/
def VfRings.word (v : VfRings) : Nat :=
  v.ringFirst + v.ringCount * 2 ^ 16 + v.cqFirst * 2 ^ 32 + v.cqCount * 2 ^ 40 + v.ctxMax * 2 ^ 48

/-- CTX.CMD and CTX.RESULT (R389): GO reads 1 while RESULT is busy. -/
def Area.cmdWord (a : Area) : Nat := a.ctxCmd + bitAt (a.ctxState == 1) 63
def Area.resultWord (a : Area) : Nat := a.ctxState + a.ctxReason * 2 ^ 8 + a.ctxCtx * 2 ^ 16 + a.ctxOp * 2 ^ 24

/-- RING.CMD and RING.RESULT (R393). -/
def Area.ringCmdWord (a : Area) : Nat := a.ringCmd + bitAt (a.ringState == 1) 63
def Area.ringResultWord (a : Area) : Nat := a.ringState + a.ringReason * 2 ^ 8

/-- MEM.ROOT of a context (R398). -/
def Ctx.rootWord (x : Ctx) : Nat := b2n x.rootValid + x.root

/-- MEM.INVAL (R399) and MEM.FAULT_RESUME (R252), whose GO is cleared by the time it reads. -/
def MemBlock.invalWord (m : MemBlock) : Nat := m.invalCmd + bitAt (!m.invalJobs.isEmpty) 63

/-- MEM.RETIRE of a stack (16). -/
def StackMem.retireWord (k : StackMem) : Nat := k.retired.length + bitAt k.full 13 + k.pending.length * 2 ^ 16

/-- The four registers of a queue by offset (R400). -/
def Queue.word (q : Queue) (off : Nat) : Nat :=
  match off with
  | 0x00 => q.base
  | 0x08 => q.log2Len + bitAt q.enable 7
  | 0x10 => q.tail.toNat + q.head.toNat * 2 ^ 32
  | _ => q.dropped

/-- PEER.NODE (12). -/
def PeerBlock.nodeWord (b : PeerBlock) : Nat :=
  b.nodeId + b.dxM1 * 2 ^ 20 + b.dyM1 * 2 ^ 26 + b.dzM1 * 2 ^ 32 + bitAt b.valid 63

/-- STATE of a peer port (12). -/
def LinkState.code : LinkState → Nat
  | .disabled => 0
  | .step n => n.val + 1
  | .up => 5
  | .down => 6
  | .failed => 7

/-- PEER.PORT_STATUS (12). -/
def PeerLink.statusWord (l : PeerLink) : Nat :=
  l.state.code + l.polInv * 2 ^ 4 + bitAt l.reversed 12 + bitAt l.miswired 13 + bitAt l.unused 14 + bitAt l.laneFault 15 +
    bitAt l.identFault 16 + l.failStep * 2 ^ 17 + l.nbrNode * 2 ^ 20 + l.nbrPort * 2 ^ 37 + l.routeDir * 2 ^ 40

/-- The registers of a peer-access window by offset (16). -/
def PeerWin.word (w : PeerWin) (off : Nat) : Nat :=
  match off with
  | 0x00 => w.base
  | 0x08 => w.size
  | 0x10 => w.ctx.val + bitAt w.allNodes 8 + bitAt w.write 9 + bitAt w.read 10 + bitAt w.enable 11 + w.node * 2 ^ 16
  | _ => 0

/-- RCV.RESET_CAUSE (R336). -/
def RcvBlock.causeWord (r : RcvBlock) : Nat :=
  r.lastLevel + r.cause * 2 ^ 8 + r.engine * 2 ^ 16 + r.partition * 2 ^ 22 + bitAt r.escalated 25 + r.moduleResets * 2 ^ 32

/-- RCV.SWRESET (R337). -/
def RcvBlock.swWord (r : RcvBlock) : Nat := r.swLevel + r.swTarget * 2 ^ 3 + bitAt (!r.swRuns.isEmpty) 31

/-- RCV.IN_RESET (R336). -/
def State.inResetWord (s : State) : Nat := ((List.finRange 64).map fun e => bitAt (s.inReset e) e.val).sum

/-- AGE.RAIL and AGE.HOURS of a partition (14). -/
def Partition.railWord (a : Partition) : Nat :=
  a.planCode + a.actualCode * 2 ^ 8 + a.raises * 2 ^ 16 + a.marginHours * 2 ^ 32
def Partition.hoursWord (a : Partition) : Nat := a.opSeconds / 3600 + min 0xFFFF (a.opSeconds / 3600 - a.planHours) * 2 ^ 32

/-- AGE.PLAN_CTL (14). -/
def AgeBlock.planWord (a : AgeBlock) : Nat := a.replan + a.lowMargin * 2 ^ 8 + a.exhausted * 2 ^ 16 + a.lowerFailed * 2 ^ 24

/-- AGE.LEDGER_HEAD (14). -/
def AgeBlock.headWord (a : AgeBlock) : Nat := a.seq % 2 ^ 32 + a.seq % logRecords * 2 ^ 32

/-- SEC.LOCK (R386). -/
def SecBlock.lockWord (b : SecBlock) : Nat := bitAt b.locked 1 + bitAt b.locked 2 * b.lockedBy.val

/-! ### Engines and partitions -/

/-- Tile memory and the array hold nothing in reset: an engine or partition in reset reads its reset values (R385, R406). -/
def State.seen (s : State) : State :=
  { s with
    engines := s.engines.map fun g => if h : g.1 < 64 then (if s.inReset ⟨g.1, h⟩ then (g.1, g.2.atReset) else g) else g
    parts := s.parts.map fun a =>
      if s.rcv.partInReset.getLsbD a.1 then (a.1, { a.2.atReset with actualCode := a.2.actualCode, target := a.2.target })
      else a }

/-- Both units of an engine have stopped under a quiesce (R404): no group is under way, a serial tile stands at a step boundary, and no
drain is in progress. -/
def State.quiesced (s : State) (e : Eng) : Bool :=
  s.dbg.quiesce.getLsbD e.val && (s.slotsOf e).all fun v => s.betweenSteps v.2 && !v.2.draining

/-- ENG.STATUS (16). -/
def State.engStatus (s : State) (e : Eng) : Nat :=
  let g := s.eng e
  (match g.head with | some k => k.val + 4 | none => 0) + bitAt (s.quiesced e) 3 +
    ((s.slotsOf e).map fun v => 2 ^ (4 + v.1.val)).sum + s.reservedKib e * 2 ^ 16 +
    (6032 - s.reservedKib e - s.furtherKib e) * 2 ^ 32

/-- STATE code of a task-slot record (16): ready or waiting follows from the slot's data (DEDUCED, log entry 22). -/
def State.slotCode (s : State) (e : Eng) (k : SlotNo) : Nat :=
  let v := s.slot e k
  match v.state with
  | .free => 0
  | .admitted => 1
  | .parked => 5
  | .draining => 6
  | .cancelling => 7
  | _ => if (s.eng e).head = some k then 2 else if !s.lateData e v then 3 else 4

/-- The streams of an engine that belong to a command (16). -/
def State.streamMask (s : State) (e : Eng) (p : Port) (t : Tag) : Nat :=
  ((List.finRange 16).map fun i =>
    let x := s.strm e i
    bitAt (x.state != .idle && x.port == p && x.tag == t) i.val).sum

/-- The 32-byte task-slot record (16). -/
def State.slotImage (s : State) (e : Eng) (k : SlotNo) : List Byte :=
  let v := s.slot e k
  if v.state = .free then List.replicate 32 0
  else
    toLe 1 (s.slotCode e k) ++ toLe 1 v.ctx.val ++ toLe 2 (tagField v.port v.tag) ++ toLe 1 v.opcode ++ toLe 1 v.stage ++
      toLe 2 (s.streamMask e v.port v.tag) ++ toLe 4 v.workset ++ toLe 4 v.unit ++ toLe 8 v.admitSeq ++ toLe 8 0

/-- STATE code of a stream (R234). -/
def State.strmCode (s : State) (e : Eng) (i : StreamNo) : Nat :=
  match (s.strm e i).state with
  | .idle => 0
  | .issuing => max 1 (s.standing e i)
  | .halted => 5
  | .melting => 6
  | .complete => 7

/-- A read stream of a MATMUL or of a FUSED stage has landed some of a block that the engine's current unit took over from the unit before
it, or that its next unit takes over (R231, R234) (DEDUCED, log entry 24). -/
def State.keepsBlock (s : State) (e : Eng) (x : Strm) : Bool :=
  let c := s.cmd x.port x.tag
  let st := x.role / 16
  let r := Role.all.getD (x.role % 16) .a
  let n := c.stageAt e (s.slot e (Fin.ofNat 4 x.task)) st
  (c.op == 0x01 || c.op == 0x02) && x.isRead && decide (n < (c.stageUnits e st).length)
    && (s.keptAt c e st r x.refetch n || s.keptAt c e st r x.refetch (n + 1))
    && decide (s.bytesBefore c e st r x.refetch (s.keptFrom c e st r x.refetch n) < s.landedTo x)

/-- Slots a stream holds: its two, and every further slot it has not yet returned (R229, R232). -/
def Strm.slots (x : Strm) : Nat := 2 + x.further.length + x.returning.length

/-- ADDR of a stream record: the device virtual address that the next request carries, at a peer too (R234, R304); what it shows of a hand-over
area, which has none, is left open (DESIGN CHOICE, log entry 24). -/
def State.addrShown (s : State) (e : Eng) (i : StreamNo) (va : Nat) : Nat :=
  if peerBase ≤ va then va - peerBase else if handBase ≤ va then (Config.handAddr s.fresh e.val i.val).toNat else va

/-- The 64-byte stream record (R234) (DEDUCED, log entry 24). -/
def State.strmImage (s : State) (e : Eng) (i : StreamNo) : List Byte :=
  let x := s.strm e i
  if x.state = .idle then List.replicate 64 0
  else
    let used := if x.isRead then s.consumedOf e x else x.landed
    let next := s.nextPlace e x
    toLe 1 (s.strmCode e i) ++ toLe 1 x.kind ++ toLe 1 (match next with | some r => s.queueFor x r.1 | none => x.queue) ++
      toLe 1 x.task ++ toLe 2 (tagField x.port x.tag) ++ toLe 1 x.slots ++
      toLe 1 (b2n (s.keepsBlock e x) + 2 * b2n x.ckpt) ++ toLe 8 (match next with | some r => s.addrShown e i r.1 | none => 0) ++
      toLe 8 x.position ++ toLe 8 (s.consumedOf e x) ++ toLe 4 (min 0xFFFFFFFF (x.position - used)) ++ toLe 4 (max 1 x.rate) ++
      toLe 4 (s.ttdOf e i) ++ toLe 2 x.reqs.length ++ toLe 2 0 ++ toLe 8 x.peloton.toNat ++ toLe 4 x.faultId.toNat ++
      toLe 4 (ceilDiv x.meltBytes 1024)

/-- PART.STATUS (16). -/
def State.partStatus (s : State) (q : Part) : Nat :=
  let a := s.part q
  b2n a.window + bitAt a.preempting 1 + a.items.length * 2 ^ 8 + ceilDiv (s.handoverUsed q) 1024 * 2 ^ 16

/-- PART.TOKENS (16): tokens now held; buckets are kept in thirds of a byte. -/
def Partition.tokensWord (a : Partition) (k : Nat) : Nat :=
  let v := if k = 0 then a.regTotal else a.dest (k - 1)
  (3 * regDepth v - Tab.get 0 a.spent (if k = 0 then 10 else k - 1)) / 3

/-- REG_TOTAL and REG_DEST read with their smallest values (R236). -/
def regShown (v : Nat) : Nat := regRate v + max 4 (v / 2 ^ 16) * 2 ^ 16

/-! ### The debug window -/

/-- The tiles an engine holds, with the name of a named one: its two named tiles, and the tiles its AUTO and FUSED commands fill and
drain (R82, R84). -/
def State.tilesHeld (s : State) (e : Eng) : List (Tile × Option Nat) :=
  (([0, 1].map fun a => (s.named e a, some a)) ++ ((s.slotsOf e).flatMap fun (v : SlotNo × Slot) =>
    if (s.accOf v.2).isNone then [(v.2.tile, none), (v.2.drainTile, none)] else [])).filter fun (t : Tile × Option Nat) => t.1.state != TileState.free

/-- The tile that a source of ACC_SELECT shows, with its name where it is a named one (R97): which tile a physical accumulator holds is
the hardware's choice (DESIGN CHOICE, log entry 55); a tile is being filled while it is BUSY, so sources 4 to 7 show no tile that drains. -/
def State.viewSource (s : State) (e : Eng) (src : Nat) : Option (Tile × Option Nat) :=
  if src < 2 then
    let live := (s.tilesHeld e).filter fun t => !t.1.parked
    let pick (k : Nat) : Nat := Config.physical s.fresh e.val k % (live.length + 1)
    if src = 1 ∧ pick 1 = pick 0 then none else live[pick src]?
  else if src < 4 then (s.tilesHeld e).find? fun t => t.2 == some (src - 2)
  else
    let k : SlotNo := Fin.ofNat 4 (src - 4)
    if (s.slot e k).state != .free && s.fills e k && (s.tileOf e k).state == .busy then some (s.tileOf e k, s.accOf (s.slot e k))
    else none

def State.viewTile (s : State) (e : Eng) (src : Nat) : Option Tile := (s.viewSource e src).map (·.1)

/-- A command has joined and waits at the named tile that a source shows, by whichever source it is shown (R98). -/
def State.joinPending (s : State) (e : Eng) (src : Nat) : Bool :=
  match s.viewSource e src with
  | some (_, some a) => (s.slotsOf e).any fun v => s.accOf v.2 == some a && v.2.pass == .joined
  | _ => false

/-- ACC_SELECT (R97). -/
def State.accSelectWord (s : State) : Nat :=
  let e : Eng := Fin.ofNat 64 s.dbg.accSelect
  let src := bitsOf s.dbg.accSelect 10 8
  s.dbg.accSelect + (match s.viewTile e src with
    | none => 0
    | some t => 2 ^ 16 + bitAt (t.state == .busy && !t.parked) 17)

/-- STATE code of a tile (R98). -/
def TileState.code : TileState → Nat
  | .free => 0
  | .busy => 1
  | .held => 2
  | .draining => 3

/-- The 64-byte tile status record (R98). -/
def Tile.image (t : Tile) (join : Bool) : List Byte :=
  toLe 1 t.state.code ++ toLe 1 t.cls ++ toLe 1 (b2n t.satFlag + 2 * b2n t.parked + 4 * b2n join) ++ toLe 1 t.k ++
    toLe 1 t.owner.val ++ toLe 1 t.group ++ toLe 1 t.mode ++ toLe 1 0 ++ toLe 4 t.satCount ++ toLe 4 t.underCount ++
    toLe 4 t.fenceCount ++ toLe 4 t.windowCount ++ toLe 8 t.groups ++ toLe 2 (tagField t.lastPort t.lastTag) ++
    List.replicate 30 0

/-- Eight bytes of the accumulator view (R98). -/
def State.viewWord (s : State) (off : Nat) : Nat :=
  let e : Eng := Fin.ofNat 64 s.dbg.accSelect
  match s.viewTile e (bitsOf s.dbg.accSelect 10 8) with
  | none => 0
  | some t =>
    let en := Tab.get {} t.entries (off / 16)
    if off % 16 = 0 then en.runBits else en.total.bits

/-- A word of the fixed tables (16): descent, return, addition, subtraction, power, L16 and L8 probability. -/
def fixedTable (off : Nat) : Nat :=
  let i := off / 4
  if off < 0x400 then (if i = 0 then 0 else desc i)
  else if off < 0x1400 then ret (i - 0x100)
  else if off < 0x2400 then phiTab (i - 0x500)
  else if off < 0x3400 then psiTab (i - 0x900)
  else if off < 0x4400 then powTab (i - 0xD00)
  else if off < 0x4500 then probTab 8 (i - 0x1100)
  else if off < 0x4600 then probTab 3 (i - 0x1140)
  else 0

/-- Eight bytes of the tile-memory aperture (16): what the raw bytes are is left open, those of an engine in reset are zero (DESIGN CHOICE, log entry 55). -/
def State.apertureBytes (s : State) (off : Nat) : List Byte :=
  let e : Eng := Fin.ofNat 64 s.dbg.viewSelect
  let mib := bitsOf s.dbg.viewSelect 10 8
  if 5 < mib ∨ s.inReset e then List.replicate 8 0
  else (List.range 8).map fun i => Config.tileMemory s.fresh e.val (mib * 2 ^ 20 + off + i)

/-- The engine holds a serial-path command: a MATMUL, or a FUSED command with such a stage there (R114, R257). -/
def State.holdsSerial (s : State) (e : Eng) : Bool :=
  (s.slotsOf e).any fun v =>
    let c := s.cmd v.2.port v.2.tag
    (v.2.opcode == 1 && (c.mm 0).prec == 5)
      || (v.2.opcode == 2 && (List.range c.nStages).any fun st => c.stageOn e st && (c.mm st).prec == 5)

/-- Eight bytes of a table bank (16, R121): zero while the engine holds no serial-path command. -/
def State.bankBytes (s : State) (bank off : Nat) : List Byte :=
  let e : Eng := Fin.ofNat 64 s.dbg.viewSelect
  if !s.holdsSerial e then List.replicate 8 0
  else
    let b := slice (Tab.get [] (s.eng e).banks bank) off 8
    b ++ List.replicate (8 - b.length) 0

/-! ### The map of BAR0 -/

/-- Fields at offsets of a table, zero elsewhere. -/
def pickWord (off : Nat) (l : List (Nat × Nat)) : Nat :=
  match l.find? fun x => x.1 == off with
  | some x => x.2
  | none => 0

/-- IDENT and PORT (16). -/
def State.wordIdent (s : State) (off : Nat) : Nat :=
  pickWord off [(0x00, identId), (0x08, identCap), (0x10, s.boot.fwVersion), (0x20, s.boot.status)]

def State.wordPort (s : State) (off : Nat) : Nat :=
  let h := s.port (Fin.ofNat 2 (off / 0x1000))
  let o := off % 0x1000
  if 0x2000 ≤ off then 0
  else if o = 0 then h.ctl
  else if o = 8 then h.bar4Base * 2 ^ 30
  else if 0x100 ≤ o ∧ o < 0x180 then (Tab.get {} h.vfRings ((o - 0x100) / 8)).word
  else 0

/-- A command area (R389). -/
def Area.word (a : Area) (o : Nat) : Nat :=
  if o = 0 then a.cmdWord else if o = 8 then a.resultWord
  else if 0x40 ≤ o ∧ o < 0x80 then fld (stageRead a.stage) (o - 0x40) 8
  else 0

/-- The CTX block (R388, R389). -/
def State.wordCtx (s : State) (off : Nat) : Nat :=
  if off < 0x4000 then fld (s.ctxImage (Fin.ofNat 256 (off / 64))) (off % 64) 8
  else if off < 0x4100 then leNat ((List.range 8).map fun i =>
    BitVec.ofNat 8 (s.ctx (Fin.ofNat 256 (off - 0x4000 + i))).func.val)
  else if 0x8000 ≤ off ∧ off < 0x8200 then
    (s.area (Fin.ofNat 2 ((off - 0x8000) / 0x100)) 0).word (off % 0x100)
  else 0

/-- STATE of a tag record (R227); a command at step 4, its wait for a page of its count record included, shows as one at step 5 (DESIGN CHOICE, log
entry 81). -/
def Phase.code : Phase → Nat
  | .free => 0
  | .fetched => 1
  | .priWait => 1
  | .priWait4 => 4
  | .priWait5 => 4
  | .ordering => 2
  | .semaphore => 3
  | .predicate => 4
  | .admission => 4
  | .running => 5
  | .ended => 5
  | .cancelling => 6
  | .record => 7

/-- The 16-byte tag record (R227). -/
def State.tagImage (s : State) (p : Port) (t : Tag) : List Byte :=
  let c := s.cmd p t
  if c.phase = .free then List.replicate 16 0
  else
    toLe 1 c.phase.code ++ toLe 1 c.op ++ toLe 1 c.ctx.val ++ toLe 1 0 ++ toLe 2 c.ring.val ++ toLe 2 c.index ++
      toLe 8 (((s.cmdSlots p t).map fun x => x.1).eraseDups.map fun e => 2 ^ e.val).sum

/-- A port's RING area (16). -/
def State.wordRing (s : State) (p : Port) (o : Nat) : Nat :=
  if o < 0x4000 then fld (s.ringImage p (Fin.ofNat 512 (o / 32))) (o % 32) 8
  else if o < 0x4800 then fld (s.cqImage p (Fin.ofNat 64 ((o - 0x4000) / 32))) (o % 32) 8
  else if 0x8000 ≤ o ∧ o < 0xC000 then fld (s.tagImage p (Fin.ofNat 1024 ((o - 0x8000) / 16))) (o % 16) 8
  else if 0xC100 ≤ o ∧ o < 0xC140 then
    ((List.range 64).map fun i =>
      bitAt (s.ring p (Fin.ofNat 512 ((o - 0xC100) * 8 + i))).paused i).sum
  else
    pickWord o [(0xC000, (s.area p 0).ringCmdWord), (0xC008, (s.area p 0).ringResultWord),
      (0xC010, (s.area p 0).ringCount.toNat)]

/-- Eight bytes of an MSI-X table (R396). -/
def HostPort.msixWord (h : HostPort) (f : Fn) (o : Nat) : Nat :=
  let m := h.msixOf f (o / 16)
  if o % 16 = 0 then m.addr else m.data + m.ctl * 2 ^ 32

/-- Eight bytes of a pending-bit array (R396). -/
def HostPort.pbaWord (h : HostPort) (f : Fn) (o : Nat) : Nat :=
  ((List.range 64).map fun i => bitAt (h.msixOf f (8 * o + i)).pend i).sum

/-- A port's IRQ area (16). -/
def State.wordIrq (s : State) (p : Port) (o : Nat) : Nat :=
  let h := s.port p
  if o < 0x8000 then h.msixWord 0 o
  else if o < 0x8100 then h.pbaWord 0 (o - 0x8000)
  else pickWord o [(0xC000, h.event), (0xC008, h.cause)]

/-- The MEM block (16). -/
def State.wordMem (s : State) (o : Nat) : Nat :=
  if 0x1000 ≤ o ∧ o < 0x1800 then (s.ctx (Fin.ofNat 256 ((o - 0x1000) / 8))).rootWord
  else if 0x200 ≤ o ∧ o < 0x240 then (s.port (Fin.ofNat 2 ((o - 0x200) / 0x20))).faultQ.word (o % 0x20)
  else if 0x400 ≤ o ∧ o < 0x430 then (s.stack (Fin.ofNat 6 ((o - 0x400) / 8))).retireWord
  else if 0x440 ≤ o ∧ o < 0x470 then (s.stack (Fin.ofNat 6 ((o - 0x440) / 8))).corrected
  else pickWord o [(0x100, s.mem.invalWord), (0x300, s.mem.resumeReg)]

/-- The PEER block (12, 16). -/
def State.wordPeer (s : State) (o : Nat) : Nat :=
  let b := s.peer
  if 0x100 ≤ o ∧ o < 0x280 then
    let l := s.link (Fin.ofNat 6 ((o - 0x100) / 0x40))
    (if o % 0x40 = 0 then b2n l.enable + bitAt l.retrain 1 else if o % 0x40 = 8 then l.statusWord else 0)
  else if 0x400 ≤ o ∧ o < 0x500 then (Tab.get {} b.windows ((o - 0x400) / 0x20)).word (o % 0x20)
  else if 0x800 ≤ o ∧ o < 0xB00 then
    (if o % 0x80 < 0x38 then Tab.get 0 (s.link (Fin.ofNat 6 ((o - 0x800) / 0x80))).counts (o % 0x80 / 8) else 0)
  else if 0x1000 ≤ o ∧ o < 0x1200 then
    (match b.detours[(o - 0x1000) / 8]? with
      | some d => d.1 + d.2 * 2 ^ 17 + 2 ^ 63
      | none => 0)
  else pickWord o [(0, b.nodeWord), (0xB00, b.discarded), (0xB08, b.staleEpoch)]

/-- The RCV block (13, 16). -/
def State.wordRcv (s : State) (o : Nat) : Nat :=
  if 0x100 ≤ o ∧ o < 0x140 then (s.port (Fin.ofNat 2 ((o - 0x100) / 0x20))).errQ.word (o % 0x20)
  else
    pickWord o [(0x00, s.rcv.causeWord), (0x08, s.inResetWord), (0x10, s.rcv.fence.toNat),
      (0x18, s.rcv.partFence.toNat + bitAt s.rcv.fenceAll 8), (0x20, s.rcv.swWord)]

/-- The PWR block (16). -/
def State.wordPwr (s : State) (o : Nat) : Nat :=
  pickWord o [(0x00, s.pwr.govLimit), (0x08, s.pwr.withheld), (0x10, s.pwr.sense),
    (0x18, s.pwr.shorted + bitAt s.pwr.reversed 8)]

/-- The AGE block (14). -/
def State.wordAge (s : State) (o : Nat) : Nat :=
  if 0x100 ≤ o ∧ o < 0x140 then (s.part (Fin.ofNat 8 ((o - 0x100) / 8))).railWord
  else if 0x200 ≤ o ∧ o < 0x240 then (s.part (Fin.ofNat 8 ((o - 0x200) / 8))).hoursWord
  else if 0x340 ≤ o ∧ o < 0x380 then fld s.age.ledgerData (o - 0x340) 8
  else
    pickWord o [(0x000, s.age.planWord), (0x300, s.age.ledgerIndex.toNat + s.age.ledgerArea.toNat * 2 ^ 32),
      (0x308, s.age.headWord)]

/-- The SEC block (R386). -/
def State.wordSec (s : State) (o : Nat) : Nat :=
  if 0x40 ≤ o ∧ o < 0x80 then fld (s.measurement s.sec.measSel) (o - 0x40) 8
  else pickWord o [(0x00, s.sec.lockWord), (0x08, s.sec.lockedWrites), (0x10, s.sec.measSel)]

/-- QLIMIT_A and QLIMIT_B (R240). -/
def Engine.qlimitA (g : Engine) : Nat := ((List.range 8).map fun q => (g.limit q - 1) * 2 ^ (8 * q)).sum
def Engine.qlimitB (g : Engine) : Nat := ((List.range 2).map fun q => (g.limit (8 + q) - 1) * 2 ^ (8 * q)).sum

/-- STREAM_CFG (R232, R233): a waiting value reads back with PENDING. -/
def Engine.cfgWord (g : Engine) : Nat :=
  let v := g.cfgPending.getD (g.minLog2, g.maxLog2)
  v.1 + v.2 * 2 ^ 8 + bitAt g.cfgPending.isSome 16

/-- An engine's window (16). -/
def State.wordEng (s : State) (e : Eng) (o : Nat) : Nat :=
  let g := s.eng e
  if 0x40 ≤ o ∧ o < 0xC0 then fld (s.slotImage e (Fin.ofNat 4 ((o - 0x40) / 32))) (o % 32) 8
  else if 0x800 ≤ o ∧ o < 0x8C0 then Tab.get 0 g.counts ((o - 0x800) / 8)
  else if 0x1000 ≤ o ∧ o < 0x1400 then fld (s.strmImage e (Fin.ofNat 16 ((o - 0x1000) / 64))) (o % 64) 8
  else if 0x2000 ≤ o ∧ o < 0x2800 then fld (Tab.get {} g.groups ((o - 0x2000) / 128) : GroupRec).image (o % 128) 8
  else pickWord o [(0x000, s.engStatus e), (0x400, g.cfgWord), (0x408, g.qlimitA), (0x410, g.qlimitB)]

/-- A partition's window (16). -/
def State.wordPart (s : State) (q : Part) (o : Nat) : Nat :=
  let a := s.part q
  let pair (f : Nat → Nat) (k n : Nat) : Nat := (if k < n then f k else 0) + (if k + 1 < n then f (k + 1) * 2 ^ 32 else 0)
  if 0x8000 ≤ o then fld (s.scaleEnt q ((o - 0x8000) / 32)).image (o % 32) 8
  else if 0x110 ≤ o ∧ o < 0x138 then pair (fun d => regShown (a.dest d)) ((o - 0x110) / 4) 10
  else if 0x140 ≤ o ∧ o < 0x170 then pair a.tokensWord ((o - 0x140) / 4) 11
  else pickWord o [(0x000, s.partStatus q), (0x100, regShown a.regTotal), (0x200, a.corrected)]

/-- The DBG window by DBG offset (16). -/
def State.wordDbg (s : State) (o : Nat) : Nat :=
  if o < 0x100000 then
    pickWord o [(0x00, s.accSelectWord), (0x08, s.dbg.viewSelect), (0x10, s.dbg.quiesce.toNat)]
  else if o < 0x110000 then s.viewWord (o - 0x100000)
  else if o < 0x110040 then
    let e : Eng := Fin.ofNat 64 s.dbg.accSelect
    let src := bitsOf s.dbg.accSelect 10 8
    (match s.viewTile e src with
      | none => 0
      | some t => fld (t.image (s.joinPending e src)) (o - 0x110000) 8)
  else if 0x200000 ≤ o ∧ o < 0x300000 then leNat (s.apertureBytes (o - 0x200000))
  else if 0x300000 ≤ o ∧ o < 0x304600 then
    (if s.inReset (Fin.ofNat 64 s.dbg.viewSelect) then 0
      else fixedTable (o - 0x300000) + fixedTable (o - 0x300000 + 4) * 2 ^ 32)
  else if 0x320000 ≤ o ∧ o < 0x340000 then leNat (s.bankBytes ((o - 0x320000) / 0x10000) (o % 0x10000))
  else 0

/-- The eight bytes of BAR0 at an 8-aligned offset (the BAR0 map of 16), on a state whose units in reset show their reset
values. -/
def State.word (s : State) (off : Nat) : Nat :=
  if off < 0x10000 then s.wordIdent off
  else if off < 0x20000 then s.wordPort (off - 0x10000)
  else if off < 0x40000 then s.wordCtx (off - 0x20000)
  else if off < 0x60000 then s.wordRing (Fin.ofNat 2 ((off - 0x40000) / 0x10000)) (off % 0x10000)
  else if off < 0x80000 then 0
  else if off < 0xA0000 then s.wordIrq (Fin.ofNat 2 ((off - 0x80000) / 0x10000)) (off % 0x10000)
  else if off < 0x100000 then 0
  else if off < 0x200000 then s.wordMem (off - 0x100000)
  else if off < 0x300000 then s.wordPeer (off - 0x200000)
  else if off < 0x400000 then s.wordRcv (off - 0x300000)
  else if off < 0x500000 then s.wordPwr (off - 0x400000)
  else if off < 0x600000 then s.wordAge (off - 0x500000)
  else if off < 0x800000 then s.wordSec (off - 0x600000)
  else if off < 0xA00000 then s.wordEng (Fin.ofNat 64 ((off - 0x800000) / 0x8000)) (off % 0x8000)
  else if off < 0xA80000 then s.wordPart (Fin.ofNat 8 ((off - 0xA00000) / 0x10000)) (off % 0x10000)
  else if off < 0xC00000 then 0
  else if off < 0x1000000 then s.wordDbg (off - 0xC00000)
  else 0

/-- The eight bytes of a virtual function's BAR0 at an 8-aligned offset (R405). -/
def State.wordVf (s : State) (p : Port) (f : Fn) (off : Nat) : Nat :=
  if off < 0x1000 then (if off = 0 ∨ off = 8 ∨ off = 0x20 then s.wordIdent off else 0)
  else if off < 0x1100 then (s.area p f).word (off - 0x1000)
  else if 0x4000 ≤ off ∧ off < 0x8000 then
    let c : CtxNo := Fin.ofNat 256 ((off - 0x4000) / 64)
    (if (s.ctx c).state != .free && (s.ctx c).owner == p && (s.ctx c).madeBy p f then fld (s.ctxImage c) (off % 64) 8 else 0)
  else if 0x8000 ≤ off ∧ off < 0xC000 then
    let r : RingNo := Fin.ofNat 512 ((off - 0x8000) / 32)
    (if s.ringHolder p r = f then fld (s.ringImage p r) (off % 32) 8 else 0)
  else if 0xC000 ≤ off ∧ off < 0xC800 then
    let c : CqNo := Fin.ofNat 64 ((off - 0xC000) / 32)
    (if s.cqHolder p c = f then fld (s.cqImage p c) (off % 32) 8 else 0)
  else if 0xE000 ≤ off ∧ off < 0xE800 then (s.port p).msixWord f (off - 0xE000)
  else if 0xF000 ≤ off ∧ off < 0xF010 then (s.port p).pbaWord f (off - 0xF000)
  else
    pickWord off [(0xD000, (s.area p f).ringCmdWord), (0xD008, (s.area p f).ringResultWord),
      (0xD010, (s.area p f).ringCount.toNat)]

/-- The eight bytes that a function sees at an 8-aligned offset (R383, R385, R405). -/
def State.bar0 (s : State) (p : Port) (f : Fn) (off : Nat) : Nat :=
  if f = 0 then s.seen.word off
  else if s.fnUp p f && decide (off < 0x10000) then s.seen.wordVf p f off
  else 0

/-- Record windows, which take reads of up to 64 bytes (R384). -/
def recordWindow (off : Nat) : Bool :=
  decide (0x20000 ≤ off ∧ off < 0x24000)
    || decide (0x40000 ≤ off ∧ off < 0x60000 ∧ (off % 0x10000 < 0x4800 ∨ (0x8000 ≤ off % 0x10000 ∧ off % 0x10000 < 0xC000)))
    || decide (0x800000 ≤ off ∧ off < 0xA00000 ∧ (0x40 ≤ off % 0x8000 ∧ off % 0x8000 < 0xC0 ∨ 0x1000 ≤ off % 0x8000))
    || decide (0xA00000 ≤ off ∧ off < 0xA80000 ∧ 0x8000 ≤ off % 0x10000) || decide (0xD00000 ≤ off ∧ off < 0x1000000)

/-- The record windows of a virtual function (R384, R405). -/
def recordWindowVf (off : Nat) : Bool := decide (0x4000 ≤ off ∧ off < 0xC800)

/-- What a BAR0 read of a size returns (R384): zero for any access that the register does not take (DESIGN CHOICE, log entry 56). -/
def State.bar0Read (s : State) (p : Port) (f : Fn) (off size : Nat) : List Byte :=
  let ok := off % size == 0 && (size == 4 || size == 8
    || ((if f = 0 then recordWindow off else recordWindowVf off) && (size == 16 || size == 32 || size == 64)))
  if !ok then List.replicate size 0
  else if size ≤ 8 then slice (toLe 8 (s.bar0 p f (off / 8 * 8))) (off % 8) size
  else (List.range (size / 8)).flatMap fun k => toLe 8 (s.bar0 p f (off + 8 * k))

/-! ### BAR2 -/

/-- The 8 bytes of a doorbell page that a function of a port reads: TAIL of a submission ring and HEAD of a completion ring, a virtual
function's own only, zero at every other offset (R201, R405) (DESIGN CHOICE, log entry 56). -/
def State.bar2 (s : State) (p : Port) (f : Fn) (off : Nat) : Nat :=
  let n := off / 4096
  if off % 4096 = 0 then
    (if h : n < 512 then (if f = 0 ∨ s.ringHolder p ⟨n, h⟩ = f then (s.ring p ⟨n, h⟩).tail.toNat else 0) else 0)
  else if off % 4096 = 8 then
    (if h : n < 64 then (if f = 0 ∨ s.cqHolder p ⟨n, h⟩ = f then (s.cq p ⟨n, h⟩).head.toNat else 0) else 0)
  else 0

/-- What a BAR2 read of a size returns (R201, R384). -/
def State.bar2Read (s : State) (p : Port) (f : Fn) (off size : Nat) : List Byte :=
  if accessOk off size then slice (toLe 8 (s.bar2 p f (off / 8 * 8))) (off % 8) size else List.replicate size 0

end Sys2Proof.Machine
end

