-- ==== Sys2Proof/Machine/Registers.lean ====
section
/-!
DEFINITION. Writes of BAR0 registers: access codes, the set-up lock, the registers whose write starts something, and the
BAR4 aperture (00 R6 to R8; 16 R383 to R407; 13 R430).
-/

namespace Sys2Proof.Machine

/-! ### Registers with a row of their own -/

/-- The RWL fields in offset order, as measurement 10 covers them (R375, R386) (DESIGN CHOICE, log entry 52). -/
def State.rwlFields (s : State) : List Byte :=
  ((List.finRange 2).flatMap fun p => (List.range 16).flatMap fun v =>
    toLe 8 (Tab.get {} (s.port p).vfRings v : VfRings).word) ++ toLe 8 s.peer.nodeWord ++ toLe 4 s.pwr.govLimit

/-- SETUP_LOCK_TAKE (R386): from a physical function (DESIGN CHOICE, log entry 15). -/
def execSetupLockTake (p : Port) (f : Fn) (s : State) : Out :=
  .next (
    if !s.boot.ready || f != 0 || s.sec.locked then s
    else { s with sec := { s.sec with locked := true, lockedBy := p, lockSnapshot := s.rwlFields } })

/-- MEM.INVAL starts (R399). -/
def State.startInval (s : State) (c : CtxNo) (region : Option Nat) : State :=
  { s with mem := { s.mem with invalJobs := s.mem.invalJobs ++ [(c, region)] } }

/-- MEM_INVAL (R399): from a function that may write the context's record. -/
def execMemInval (p : Port) (c : CtxNo) (whole : Bool) (va : Nat) (s : State) : Out :=
  .next (
    if !s.boot.ready || !s.mayWriteCtx p 0 c then s
    else
      let r := va / 2 ^ 21 % 2 ^ 31
      ({ s with mem := { s.mem with invalCmd := c.val + 256 * b2n whole + r * 2 ^ 21 } } : State).startInval c
        (if whole then none else some r))

/-- What an invalidation leaves: a context whose host mappings an adoption withdrew maps them again (R226, R399) (DEDUCED, log entry 17). -/
def State.endInval (s : State) (j : CtxNo × Option Nat) : State :=
  s.updCtx j.1 fun x =>
    match j.2 with
    | none => { x with withdrawn := false, remapped := [] }
    | some r => if x.withdrawn && !x.remapped.contains r then { x with remapped := x.remapped ++ [r] } else x

/-- MEM_INVAL_COMPLETE (R399): GO clears. -/
def execMemInvalComplete (s : State) : Out :=
  .next (
    let s1 := s.mem.invalJobs.foldl State.endInval s
    { s1 with mem := { s1.mem with invalJobs := [] } })

/-- The engines that a quiesce request can name: a fence or a reset clears its bit (R404) (DEDUCED, log entry 51). -/
def State.quiescable (s : State) : W64 :=
  (List.finRange 64).foldl (fun (m : W64) e => if s.isolated e || s.inReset e then m else m ||| engBit e) 0

/-- DBG_QUIESCE (R404). -/
def execDbgQuiesce (value : W64) (s : State) : Out :=
  .next (if s.boot.ready then { s with dbg := { s.dbg with quiesce := value &&& s.quiescable } } else s)

/-- QUIESCE_TIMEOUT (R404). -/
def execQuiesceTimeout (e : Eng) (s : State) : Out := .next (if s.quiesced e then s.unquiesce (engBit e) else s)

/-- A write of a group record by a physical function (R402); an engine in reset ignores it (R385) (DEDUCED, log entry 51). -/
def State.writeGroup (s : State) (p : Port) (e : Eng) (k : StreamNo) (off size : Nat) (v : W64) : State :=
  let old : GroupRec := Tab.get {} (s.eng e).groups k.val
  let new := groupOfImage (mergeImage old.image off size v)
  if s.inReset e || !(s.mayWriteCtx p 0 old.ctx || (old.state == 0 && s.mayWriteCtx p 0 new.ctx)) then s
  else (s.updEng e fun g => { g with groups := Tab.set g.groups k.val new }).afterRecords

/-- GROUP_RECORD_WRITE (R402). -/
def execGroupRecordWrite (p : Port) (e : Eng) (k : StreamNo) (off size : Nat) (v : W64) (s : State) : Out :=
  .next (
    if !s.boot.ready || !accessOk off size || decide (128 < off + size) then s else s.writeGroup p e k off size v)

/-! ### A write to eight bytes -/

/-- A write as the eight bytes around it see it: the value in place and the bits it reaches. -/
structure WrWord where
  val : Nat
  mask : Nat
  deriving DecidableEq, Repr

/-- The write of a size at an offset (R384). -/
def wrWord (off size : Nat) (v : W64) : WrWord :=
  let sh := 2 ^ (8 * (off % 8))
  { val := v.toNat % 2 ^ (8 * size) * sh, mask := (2 ^ (8 * size) - 1) * sh }

/-- What an RW word holds afterwards (R6). -/
def WrWord.merge (w : WrWord) (old : Nat) : Nat := (old &&& (2 ^ 64 - 1 - w.mask)) ||| w.val

/-- The write reaches a bit. -/
def WrWord.hits (w : WrWord) (i : Nat) : Bool := bitOf w.mask i

/-- A bit written 1 (R6: RW1C, RW1S). -/
def WrWord.one (w : WrWord) (i : Nat) : Bool := bitOf w.val i

/-- RW1C bits of a word, from bit `lo` on (R6). -/
def WrWord.clear (w : WrWord) (old lo width : Nat) : Nat := old &&& (2 ^ width - 1 - bitsOf w.val (lo + width - 1) lo)

/-- The state that a command's meaning leaves. -/
def after (s : State) (o : Out) : State := match o with | .next t => t | _ => s

/-! ### Blocks -/

/-- CTX.CMD of a function's area (R389, R406). -/
def State.writeCtxCmd (s : State) (p : Port) (f : Fn) (w : WrWord) : State :=
  let a := s.area p f
  let m := w.merge a.ctxCmd
  let c : CtxNo := Fin.ofNat 256 (bitsOf m 7 0)
  let q : CqNo := Fin.ofNat 64 (bitsOf m 21 16)
  let op := bitsOf m 10 8
  let cmd := c.val + 256 * op + 2 ^ 16 * q.val
  let keep (s : State) : State := s.updArea p f fun a => { a with ctxCmd := cmd }
  if w.one 63 && a.ctxState == 1 then s
  else if !w.one 63 then keep s
  else
    keep (match op with
      | 1 => after s (execCtxCreate p f c s)
      | 2 => after s (execCtxAbort p f c s)
      | 3 => after s (execCtxDestroy p f c s)
      | 4 => after s (execCtxAdopt p f c q s)
      | _ => s.updArea p f fun a => (a.take op c q.val).ctxAnswer 3 0)

/-- A command area (R389). -/
def State.writeArea (s : State) (p : Port) (f : Fn) (o off size : Nat) (v : W64) : State :=
  if o = 0 then s.writeCtxCmd p f (wrWord off size v)
  else if 0x40 ≤ o ∧ o < 0x80 then
    s.updArea p f fun a => { a with stage := patch a.stage (o - 0x40 + off % 8) (toLe size v.toNat) }
  else s

/-- RING.CMD of port `h`, written by a function of port `p` (R393, R406). -/
def State.writeRingCmd (s : State) (p h : Port) (f : Fn) (w : WrWord) : State :=
  let a := s.area h f
  let m := w.merge a.ringCmd
  let n := bitsOf m 8 0
  let op := bitsOf m 11 9
  let r : RingNo := Fin.ofNat 512 n
  if w.one 63 && a.ringState == 1 then s
  else if !w.one 63 then s.updArea h f fun a => { a with ringCmd := n + 512 * op }
  else if op = 0 then (s.takeRing h f op n).answerRing h f 5
  else if p ≠ h then (s.takeRing h f op n).answerRing h f 2
  else if hc : n < 64 then
    after s (match op with
      | 1 => execRingEnable p f r s
      | 2 => execRingStop p f r s
      | 3 => execRingDisable p f r s
      | 4 => execRingPause p f r s
      | 5 => execRingResume p f r s
      | 6 => execCqEnable p f ⟨n, hc⟩ s
      | _ => execCqDisable p f ⟨n, hc⟩ s)
  else
    match op with
    | 1 => after s (execRingEnable p f r s)
    | 2 => after s (execRingStop p f r s)
    | 3 => after s (execRingDisable p f r s)
    | 4 => after s (execRingPause p f r s)
    | 5 => after s (execRingResume p f r s)
    | _ => (s.takeRing h f op n).answerRing h f 2

/-- RING.CMD and RING.COUNT. -/
def State.writeRingRegs (s : State) (p h : Port) (f : Fn) (o : Nat) (w : WrWord) : State :=
  if o = 0 then s.writeRingCmd p h f w
  else if o = 0x10 ∧ w.hits 0 then
    s.updArea h f fun a => { a with ringCount := BitVec.ofNat 32 (w.merge a.ringCount.toNat) }
  else s

/-- An MSI-X entry (R396): a pending vector is sent once its entry is not masked. -/
def State.writeMsix (s : State) (p : Port) (f : Fn) (o : Nat) (w : WrWord) : State :=
  let m := (s.port p).msixOf f (o / 16)
  let m1 : Msix :=
    if o % 16 = 0 then { m with addr := w.merge m.addr / 4 * 4 }
    else
      let v := w.merge (m.data + m.ctl * 2 ^ 32)
      { m with data := v % 2 ^ 32, ctl := v / 2 ^ 32 % 2 }
  let go := m1.pend && !bitOf m1.ctl 0
  let s1 := s.updPort p fun h => h.setMsix f (o / 16) { m1 with pend := m1.pend && !go }
  if go then s1.emit (.msix p f (o / 16)) else s1

/-- The fields of PORT.VF_RINGS. -/
def vfRingsOf (v : Nat) : VfRings :=
  { ringFirst := bitsOf v 8 0, ringCount := bitsOf v 25 16, cqFirst := bitsOf v 37 32, cqCount := bitsOf v 46 40
    ctxMax := bitsOf v 55 48 }

/-- The PORT block (16, R386, R395): PORT.CTL takes writes of its own port's physical function only. -/
def State.writePort (s : State) (p : Port) (off : Nat) (w : WrWord) : State :=
  let h : Port := Fin.ofNat 2 (off / 0x1000)
  let o := off % 0x1000
  if 0x2000 ≤ off then s
  else if o = 0 then (if h = p ∧ w.hits 0 then s.enablePort h (w.one 0) else s)
  else if o = 8 then
    s.updPort h fun x => { x with bar4Base := alignBase (bitsOf (w.merge (x.bar4Base * 2 ^ 30)) 38 30) x.bar4Log2 }
  else if 0x100 ≤ o ∧ o < 0x180 then
    (if s.sec.locked then s.lockedWrite
      else s.updPort h fun x => { x with
        vfRings := Tab.upd {} x.vfRings ((o - 0x100) / 8) fun v => vfRingsOf (w.merge v.word) })
  else s

/-- The fields of IRQ.EVENT. -/
def eventMask : Nat := 0x0FFF0FFF0FFF0FFF

/-- The IRQ area of port `h` (16). -/
def State.writeIrq (s : State) (h : Port) (o : Nat) (w : WrWord) : State :=
  if o < 0x8000 then s.writeMsix h 0 o w
  else if o = 0xC000 then s.updPort h fun x => { x with event := w.merge x.event &&& eventMask }
  else if o = 0xC008 then s.updPort h fun x => { x with cause := w.clear x.cause 0 9 }
  else s

/-- A queue's registers (R400, R406). -/
def Queue.write (q : Queue) (o : Nat) (w : WrWord) : Queue :=
  match o with
  | 0x00 => if q.enable then q else { q with base := w.merge q.base / 4096 * 4096 }
  | 0x08 =>
    if !w.hits 0 then q
    else
      let l := bitsOf w.val 4 0
      { q with log2Len := if q.enable || decide (l < 4 ∨ 16 < l) then q.log2Len else l, enable := w.one 7 }
  | 0x10 =>
    let new : W32 := BitVec.ofNat 32 (w.val / 2 ^ 32)
    if !w.hits 32 || decide ((q.tail - q.head).toNat < (new - q.head).toNat) then q else { q with head := new }
  | _ => q

/-- The MEM block (16). -/
def State.writeMem (s : State) (p : Port) (o : Nat) (w : WrWord) : State :=
  if 0x1000 ≤ o ∧ o < 0x1800 then
    let c : CtxNo := Fin.ofNat 256 ((o - 0x1000) / 8)
    (if s.mayWriteCtx p 0 c then
      s.updCtx c fun x =>
        let v := w.merge x.rootWord
        { x with rootValid := bitOf v 0, root := bitsOf v 51 7 * 128 }
      else s)
  else if 0x200 ≤ o ∧ o < 0x240 then
    s.updPort (Fin.ofNat 2 ((o - 0x200) / 0x20)) fun h => { h with faultQ := h.faultQ.write (o % 0x20) w }
  else if 0x400 ≤ o ∧ o < 0x430 then (if w.one 63 then s.confirmRetire (Fin.ofNat 6 ((o - 0x400) / 8)) else s)
  else if o = 0x100 then
    let v := w.merge s.mem.invalCmd
    let c : CtxNo := Fin.ofNat 256 (bitsOf v 7 0)
    let r := bitsOf v 51 21
    (if !s.mayWriteCtx p 0 c then s
      else
        let s1 : State := { s with mem := { s.mem with invalCmd := c.val + bitAt (bitOf v 8) 8 + r * 2 ^ 21 } }
        if w.one 63 then s1.startInval c (if bitOf v 8 then none else some r) else s1)
  else if o = 0x300 then
    let v := w.merge s.mem.resumeReg
    let id : W32 := BitVec.ofNat 32 v
    (if !w.one 63 then s.takeResume id (bitOf v 32)
      else if bitOf v 32 then after s (execFaultResumeAbort id s)
      else after s (execFaultResumeRetry id s))
  else s

/-- A peer-access window's registers (16, R401). -/
def PeerWin.store (x : PeerWin) (o : Nat) (w : WrWord) : PeerWin :=
  match o with
  | 0x00 => { x with base := bitsOf (w.merge x.base) 51 16 * 65536 }
  | 0x08 => { x with size := bitsOf (w.merge x.size) 51 16 * 65536 }
  | 0x10 =>
    let v := w.merge (x.word 0x10)
    { x with ctx := Fin.ofNat 256 (bitsOf v 7 0), allNodes := bitOf v 8, write := bitOf v 9, read := bitOf v 10
             enable := bitOf v 11, node := bitsOf v 32 16 }
  | _ => x

/-- PEER.PORT_CTL (R293). -/
def State.writePeerCtl (s : State) (i : PeerPort) (w : WrWord) : State :=
  if !w.hits 0 then s
  else
    let s1 := if w.one 0 then s.enablePeer i else s.disablePeer i
    (if w.one 1 then s1.retrainPort i else s1).afterRecords

/-- The PEER block (12, 16). -/
def State.writePeer (s : State) (o : Nat) (w : WrWord) : State :=
  if o = 0 then (s.writeNode (w.merge s.peer.nodeWord)).afterRecords
  else if 0x100 ≤ o ∧ o < 0x280 then
    (if o % 0x40 = 0 then s.writePeerCtl (Fin.ofNat 6 ((o - 0x100) / 0x40)) w else s)
  else if 0x400 ≤ o ∧ o < 0x500 then
    { s with peer := { s.peer with
      windows := Tab.upd {} s.peer.windows ((o - 0x400) / 0x20) fun x => x.store (o % 0x20) w } }
  else s

/-- RCV.SWRESET (R337). -/
def State.writeSwreset (s : State) (w : WrWord) : State :=
  let v := w.merge s.rcv.swWord
  let level := bitsOf v 2 0
  let target := bitsOf v 8 3
  if !w.hits 0 then s
  else
    let keep : State := { s with rcv := { s.rcv with swLevel := level, swTarget := target } }
    if !w.one 31 then keep
    else if level = 2 then after s (execSwresetEngine (Fin.ofNat 64 target) s)
    else if level = 3 ∧ target < 8 then after s (execSwresetPartition (Fin.ofNat 8 target) s)
    else if level = 4 then after s (execSwresetModule s)
    else keep

/-- The RCV block (13, 16). -/
def State.writeRcv (s : State) (o : Nat) (w : WrWord) : State :=
  if 0x100 ≤ o ∧ o < 0x140 then
    s.updPort (Fin.ofNat 2 ((o - 0x100) / 0x20)) fun h => { h with errQ := h.errQ.write (o % 0x20) w }
  else if o = 0x10 then after s (execFenceRelease (BitVec.ofNat 64 w.val) s)
  else if o = 0x18 then after s (execPartFenceRelease (BitVec.ofNat 8 w.val) s)
  else if o = 0x20 then s.writeSwreset w
  else s

/-- The PWR block (R25, R386). -/
def State.writePwr (s : State) (o : Nat) (w : WrWord) : State :=
  let v := bitsOf w.val 9 0
  if o ≠ 0 ∨ !w.hits 0 then s
  else if s.sec.locked then s.lockedWrite
  else if 300 ≤ v ∧ v ≤ 700 then { s with pwr := { s.pwr with govLimit := v } }
  else s

/-- The AGE block (14). -/
def State.writeAge (s : State) (o : Nat) (w : WrWord) : State :=
  if o = 0 then
    let s1 : State := { s with age := { s.age with
      lowMargin := w.clear s.age.lowMargin 8 8, exhausted := w.clear s.age.exhausted 16 8
      lowerFailed := w.clear s.age.lowerFailed 24 8 } }
    after s1 (execReplan (BitVec.ofNat 8 w.val) s1)
  else if o = 0x300 then
    let v := w.merge (s.age.ledgerIndex.toNat + s.age.ledgerArea.toNat * 2 ^ 32)
    let i : W32 := BitVec.ofNat 32 v
    let a : BitVec 2 := BitVec.ofNat 2 (v / 2 ^ 32)
    (if w.one 63 then after s (execLedgerRead i a s)
      else { s with age := { s.age with ledgerIndex := i, ledgerArea := a } })
  else s

/-- The SEC block (R386). -/
def State.writeSec (s : State) (p : Port) (o : Nat) (w : WrWord) : State :=
  if o = 0 then (if w.one 0 then after s (execSetupLockTake p 0 s) else s)
  else if o = 0x10 ∧ w.hits 0 then { s with sec := { s.sec with measSel := bitsOf w.val 3 0 } }
  else s

/-- The limits of queues `first` on that a write reaches (R240). -/
def Engine.writeLimits (g : Engine) (first n : Nat) (w : WrWord) : Engine :=
  (List.range n).foldl (fun (g : Engine) q =>
    if w.hits (8 * q) then { g with qlimit := Tab.set g.qlimit (first + q) (bitsOf w.val (8 * q + 7) (8 * q)) } else g) g

/-- An engine's window (16). -/
def State.writeEng (s : State) (p : Port) (e : Eng) (o off size : Nat) (v : W64) : State :=
  let w := wrWord off size v
  if o = 0x400 then (if w.hits 0 then s.writeCfg e (w.val % 2 ^ 32) else s)
  else if o = 0x408 then s.updEng e fun g => g.writeLimits 0 8 w
  else if o = 0x410 then s.updEng e fun g => g.writeLimits 8 2 w
  else if 0x2000 ≤ o ∧ o < 0x2800 then
    s.writeGroup p e (Fin.ofNat 16 ((o - 0x2000) / 128)) (o % 128 + off % 8) size v
  else s

/-- How far below its DEPTH a bucket lies once DEPTH changes: the tokens stay, up to the new DEPTH (R236) (DEDUCED, log entry 51). -/
def respend (old new spent : Nat) : Nat := new - min new (old - spent)

/-- A bucket register takes a value: `d` is 10 for REG_TOTAL (R236, R237). -/
def State.writeReg (s : State) (q : Part) (d v : Nat) : State :=
  let a := s.part q
  let old := 3 * regDepth (if d = 10 then a.regTotal else a.dest d)
  let new := 3 * regDepth v
  let pct (key : Nat) : Nat := (s.cmd (Fin.ofNat 2 (key / 16 / 2 ^ 15)) (Fin.ofNat 1024 (key / 16))).budget
  s.updPart q fun a =>
    { a with
      regTotal := if d = 10 then v else a.regTotal
      regDest := if d = 10 then a.regDest else Tab.set a.regDest d v
      spent := Tab.upd 0 a.spent d (respend old new)
      ckptSpent := a.ckptSpent.map fun x =>
        if x.1 % 16 = d then (x.1, respend (old * pct x.1) (new * pct x.1) x.2) else x }

/-- A partition's window (16). -/
def State.writePart (s : State) (q : Part) (o : Nat) (w : WrWord) : State :=
  let half (s : State) (d lo : Nat) : State := if w.hits lo then s.writeReg q d (bitsOf w.val (lo + 31) lo) else s
  if o = 0x100 then half s 10 0
  else if 0x110 ≤ o ∧ o < 0x138 then
    let d := (o - 0x110) / 4
    half (half s d 0) (d + 1) 32
  else s

/-- The DBG window (16, R97, R404). -/
def State.writeDbg (s : State) (o : Nat) (w : WrWord) : State :=
  if o = 0 ∧ w.hits 0 then { s with dbg := { s.dbg with accSelect := w.val &&& 0x73F } }
  else if o = 8 ∧ w.hits 0 then { s with dbg := { s.dbg with viewSelect := w.val &&& 0x73F } }
  else if o = 0x10 then after s (execDbgQuiesce (BitVec.ofNat 64 (w.merge s.dbg.quiesce.toNat)) s)
  else s

/-! ### The map of BAR0 -/

/-- A write of a physical function (R383 to R385); before READY only RCV.SWRESET takes one (R368). -/
def State.writePf (s : State) (p : Port) (off size : Nat) (v : W64) : State :=
  let b := off / 8 * 8
  let w := wrWord off size v
  if !s.boot.ready then (if b = 0x300020 then s.writeSwreset w else s)
  else if b < 0x10000 then s
  else if b < 0x20000 then s.writePort p (b - 0x10000) w
  else if b < 0x24000 then
    after s (execContextRecordWrite p 0 (Fin.ofNat 256 ((b - 0x20000) / 64)) ((off - 0x20000) % 64) size v s)
  else if 0x28000 ≤ b ∧ b < 0x28200 then
    (if (b - 0x28000) / 0x100 = p.val then s.writeArea p 0 (b % 0x100) off size v else s)
  else if b < 0x40000 then s
  else if b < 0x60000 then
    let h : Port := Fin.ofNat 2 ((b - 0x40000) / 0x10000)
    let o := b % 0x10000
    (if o < 0x4000 then
        (if h = p then after s (execRingRecordWrite p 0 false (Fin.ofNat 512 (o / 32)) (off % 32) size v s) else s)
      else if o < 0x4800 then
        (if h = p then after s (execRingRecordWrite p 0 true (Fin.ofNat 512 ((o - 0x4000) / 32)) (off % 32) size v s) else s)
      else if 0xC000 ≤ o ∧ o < 0xC100 then s.writeRingRegs p h 0 (o - 0xC000) w
      else s)
  else if b < 0x80000 then s
  else if b < 0xA0000 then s.writeIrq (Fin.ofNat 2 ((b - 0x80000) / 0x10000)) (b % 0x10000) w
  else if b < 0x100000 then s
  else if b < 0x200000 then s.writeMem p (b - 0x100000) w
  else if b < 0x300000 then s.writePeer (b - 0x200000) w
  else if b < 0x400000 then s.writeRcv (b - 0x300000) w
  else if b < 0x500000 then s.writePwr (b - 0x400000) w
  else if b < 0x600000 then s.writeAge (b - 0x500000) w
  else if b < 0x800000 then s.writeSec p (b - 0x600000) w
  else if b < 0xA00000 then s.writeEng p (Fin.ofNat 64 ((b - 0x800000) / 0x8000)) (b % 0x8000) off size v
  else if b < 0xA80000 then s.writePart (Fin.ofNat 8 ((b - 0xA00000) / 0x10000)) (b % 0x10000) w
  else if b < 0xC00000 then s
  else s.writeDbg (b - 0xC00000) w

/-- A write of a virtual function (R405). -/
def State.writeVf (s : State) (p : Port) (f : Fn) (off size : Nat) (v : W64) : State :=
  let b := off / 8 * 8
  let w := wrWord off size v
  if !s.boot.ready || !s.fnUp p f then s
  else if 0x1000 ≤ b ∧ b < 0x1100 then s.writeArea p f (b - 0x1000) off size v
  else if 0x4000 ≤ b ∧ b < 0x8000 then
    after s (execContextRecordWrite p f (Fin.ofNat 256 ((b - 0x4000) / 64)) (off % 64) size v s)
  else if 0x8000 ≤ b ∧ b < 0xC000 then
    after s (execRingRecordWrite p f false (Fin.ofNat 512 ((b - 0x8000) / 32)) (off % 32) size v s)
  else if 0xC000 ≤ b ∧ b < 0xC800 then
    after s (execRingRecordWrite p f true (Fin.ofNat 512 ((b - 0xC000) / 32)) (off % 32) size v s)
  else if 0xD000 ≤ b ∧ b < 0xD100 then s.writeRingRegs p p f (b - 0xD000) w
  else if 0xE000 ≤ b ∧ b < 0xE800 then s.writeMsix p f (b - 0xE000) w
  else s

/-- REGISTER_WRITE (R6 to R8, R384, R405): any other access is ignored. -/
def execRegisterWrite (p : Port) (f : Fn) (off size : Nat) (value : W64) (s : State) : Out :=
  .next (
    if !accessOk off size then s
    else if f = 0 then (if off < 0x1000000 then s.writePf p off size value else s)
    else if off < 0x10000 then s.writeVf p f off size value
    else s)

/-! ### BAR4 -/

/-- The physical address of a BAR4 offset, for an access that the aperture serves (R395). -/
def State.bar4At (s : State) (p : Port) (off len : Nat) : Option Nat :=
  let h := s.port p
  if s.boot.ready && !h.isDown && decide (off + len ≤ 2 ^ h.bar4Log2) then some (h.bar4Base * 2 ^ 30 + off) else none

/-- An uncorrectable error met by a host access: records of class 2 and 8, and the page is retired (R342, R395). -/
def State.hostHit (s : State) (pa : Nat) : State :=
  (s.postErr { cls := 2, unit := 2, index := (pageStack pa).val, addr := pa }).retire (pageStack pa) (pageIndex pa) 1 true

/-- BAR4_READ (R395): `bad` says that the line read is uncorrectable. -/
def execBar4Read (p : Port) (off len : Nat) (bad : Bool) (s : State) : Out :=
  .next (
    match s.bar4At p off len with
    | none => s
    | some pa =>
      if bad && s.served pa then (s.emit (.bar4 p none)).hostHit pa
      else s.emit (.bar4 p (some (s.hbmRead pa len))))

/-- The bytes of a write that lie on marked pages (R345). -/
def State.tornBytes (s : State) (pa n : Nat) : List Nat :=
  if s.mem.marked.isEmpty then []
  else ((List.range n).map (pa + ·)).filter fun a => s.mem.marked.any fun m => m.2 == a / 65536

/-- BAR4_WRITE (R345, R395, R430): a write of part of a line reads the line first, and is discarded when that read finds an
uncorrectable error. -/
def execBar4Write (p : Port) (off : Nat) (data : List Byte) (bad : Bool) (s : State) : Out :=
  .next (
    match s.bar4At p off data.length with
    | none => s
    | some pa =>
      let whole := pa % 64 == 0 && data.length % 64 == 0
      if bad && !whole && s.served pa then s.hostHit pa
      else
        let s1 := s.hbmWrite pa data
        { s1 with mem := { s1.mem with
          torn := s1.mem.torn ++ (s.tornBytes pa data.length).filter fun a => !s.mem.torn.contains a } })

end Sys2Proof.Machine
end

