-- ==== Sys2Proof/Machine/Dispatch.lean ====
section
/-!
DEFINITION. The dispatch: one arm per command, each a direct call of its meaning.
-/

namespace Sys2Proof.Machine

/-- The effect of a command on everything but the queue. -/
def exec (i : Instr) (s : State) : Host.Outcome State Fault Refusal :=
  match i with
  | .nop p t => Sys2Proof.Machine.execNop p t s
  | .matmul e k => Sys2Proof.Machine.execMatmul e k s
  | .fused p t => Sys2Proof.Machine.execFused p t s
  | .move p t => Sys2Proof.Machine.execMove p t s
  | .convert p t => Sys2Proof.Machine.execConvert p t s
  | .vector p t => Sys2Proof.Machine.execVector p t s
  | .solve p t => Sys2Proof.Machine.execSolve p t s
  | .route p t => Sys2Proof.Machine.execRoute p t s
  | .update p t => Sys2Proof.Machine.execUpdate p t s
  | .setGroup p t => Sys2Proof.Machine.execSetGroup p t s
  | .scale p t => Sys2Proof.Machine.execScale p t s
  | .collective p t => Sys2Proof.Machine.execCollective p t s
  | .sem p t => Sys2Proof.Machine.execSem p t s
  | .cancel p t => Sys2Proof.Machine.execCancel p t s
  | .checkpoint p t => Sys2Proof.Machine.execCheckpoint p t s
  | .restore p t => Sys2Proof.Machine.execRestore p t s
  | .selftest p t => Sys2Proof.Machine.execSelftest p t s
  | .descriptorFetch p t => Sys2Proof.Machine.execDescriptorFetch p t s
  | .descriptorChecks p t => Sys2Proof.Machine.execDescriptorChecks p t s
  | .orderingRelease p t => Sys2Proof.Machine.execOrderingRelease p t s
  | .semaphoreWaitMet p t => Sys2Proof.Machine.execSemaphoreWaitMet p t s
  | .semaphoreRetest => Sys2Proof.Machine.execSemaphoreRetest s
  | .predicateRead p t => Sys2Proof.Machine.execPredicateRead p t s
  | .admission p t => Sys2Proof.Machine.execAdmission p t s
  | .commandVisibility p t => Sys2Proof.Machine.execCommandVisibility p t s
  | .completionRecordWrite p t => Sys2Proof.Machine.execCompletionRecordWrite p t s
  | .modTimeExpiry p c => Sys2Proof.Machine.execModTimeExpiry p c s
  | .submissionDoorbell p f r size value => Sys2Proof.Machine.execSubmissionDoorbell p f r size value s
  | .completionRingHead p f c size value => Sys2Proof.Machine.execCompletionRingHead p f c size value s
  | .namedTileArrival e k => Sys2Proof.Machine.execNamedTileArrival e k s
  | .groupEntry e k => Sys2Proof.Machine.execGroupEntry e k s
  | .tileDrain e k => Sys2Proof.Machine.execTileDrain e k s
  | .scaleTrackerAccess q n step report => Sys2Proof.Machine.execScaleTrackerAccess q n step report s
  | .tableBuild e => Sys2Proof.Machine.execTableBuild e s
  | .taskSwitch e => Sys2Proof.Machine.execTaskSwitch e s
  | .switchBack e => Sys2Proof.Machine.execSwitchBack e s
  | .streamRequestGrant q => Sys2Proof.Machine.execStreamRequestGrant q s
  | .streamReadLanded e sid n => Sys2Proof.Machine.execStreamReadLanded e sid n s
  | .streamWriteAcknowledged e sid n => Sys2Proof.Machine.execStreamWriteAcknowledged e sid n s
  | .slotRelease e sid => Sys2Proof.Machine.execSlotRelease e sid s
  | .rateWindowExpiry e => Sys2Proof.Machine.execRateWindowExpiry e s
  | .streamTranslationFault e sid => Sys2Proof.Machine.execStreamTranslationFault e sid s
  | .priResponse n ok => Sys2Proof.Machine.execPriResponse n ok s
  | .commandStopAtTile p t e => Sys2Proof.Machine.execCommandStopAtTile p t e s
  | .meltComplete p t => Sys2Proof.Machine.execMeltComplete p t s
  | .ctxCreate p f c => Sys2Proof.Machine.execCtxCreate p f c s
  | .ctxAbort p f c => Sys2Proof.Machine.execCtxAbort p f c s
  | .ctxDestroy p f c => Sys2Proof.Machine.execCtxDestroy p f c s
  | .ctxAdopt p f c q => Sys2Proof.Machine.execCtxAdopt p f c q s
  | .contextRecordWrite p f c off size value => Sys2Proof.Machine.execContextRecordWrite p f c off size value s
  | .ringEnable p f r => Sys2Proof.Machine.execRingEnable p f r s
  | .ringStop p f r => Sys2Proof.Machine.execRingStop p f r s
  | .ringDisable p f r => Sys2Proof.Machine.execRingDisable p f r s
  | .ringDisableComplete p r => Sys2Proof.Machine.execRingDisableComplete p r s
  | .ringPause p f r => Sys2Proof.Machine.execRingPause p f r s
  | .ringResume p f r => Sys2Proof.Machine.execRingResume p f r s
  | .cqEnable p f c => Sys2Proof.Machine.execCqEnable p f c s
  | .cqDisable p f c => Sys2Proof.Machine.execCqDisable p f c s
  | .cqDisableComplete p c => Sys2Proof.Machine.execCqDisableComplete p c s
  | .ringRecordWrite p f cq n off size value => Sys2Proof.Machine.execRingRecordWrite p f cq n off size value s
  | .faultResumeRetry id => Sys2Proof.Machine.execFaultResumeRetry id s
  | .faultResumeAbort id => Sys2Proof.Machine.execFaultResumeAbort id s
  | .memInval p c whole va => Sys2Proof.Machine.execMemInval p c whole va s
  | .memInvalComplete => Sys2Proof.Machine.execMemInvalComplete s
  | .retireConfirm m => Sys2Proof.Machine.execRetireConfirm m s
  | .fenceRelease mask => Sys2Proof.Machine.execFenceRelease mask s
  | .partFenceRelease mask => Sys2Proof.Machine.execPartFenceRelease mask s
  | .swresetEngine e => Sys2Proof.Machine.execSwresetEngine e s
  | .swresetPartition q => Sys2Proof.Machine.execSwresetPartition q s
  | .swresetModule => Sys2Proof.Machine.execSwresetModule s
  | .setupLockTake p f => Sys2Proof.Machine.execSetupLockTake p f s
  | .replan mask => Sys2Proof.Machine.execReplan mask s
  | .ledgerRead index area => Sys2Proof.Machine.execLedgerRead index area s
  | .retrain j => Sys2Proof.Machine.execRetrain j s
  | .peerNodeWrite value => Sys2Proof.Machine.execPeerNodeWrite value s
  | .portDisable p => Sys2Proof.Machine.execPortDisable p s
  | .streamCfgWrite e value => Sys2Proof.Machine.execStreamCfgWrite e value s
  | .streamCfgApply e => Sys2Proof.Machine.execStreamCfgApply e s
  | .dbgQuiesce value => Sys2Proof.Machine.execDbgQuiesce value s
  | .quiesceTimeout e => Sys2Proof.Machine.execQuiesceTimeout e s
  | .groupRecordWrite p e k off size value => Sys2Proof.Machine.execGroupRecordWrite p e k off size value s
  | .registerWrite p f off size value => Sys2Proof.Machine.execRegisterWrite p f off size value s
  | .bar4Read p off len bad => Sys2Proof.Machine.execBar4Read p off len bad s
  | .bar4Write p off data bad => Sys2Proof.Machine.execBar4Write p off data bad s
  | .perstAssert p => Sys2Proof.Machine.execPerstAssert p s
  | .perstDeassert p => Sys2Proof.Machine.execPerstDeassert p s
  | .functionLevelReset p => Sys2Proof.Machine.execFunctionLevelReset p s
  | .hostLinkDown p => Sys2Proof.Machine.execHostLinkDown p s
  | .portDownTimeout p => Sys2Proof.Machine.execPortDownTimeout p s
  | .hostLinkUp p => Sys2Proof.Machine.execHostLinkUp p s
  | .badFlitReceived j why => Sys2Proof.Machine.execBadFlitReceived j why s
  | .nak j seq => Sys2Proof.Machine.execNak j seq s
  | .ident j rec => Sys2Proof.Machine.execIdent j rec s
  | .identAck j node => Sys2Proof.Machine.execIdentAck j node s
  | .identResend j => Sys2Proof.Machine.execIdentResend j s
  | .packetForward j pkt dl => Sys2Proof.Machine.execPacketForward j pkt dl s
  | .write j pkt => Sys2Proof.Machine.execWrite j pkt s
  | .read j pkt => Sys2Proof.Machine.execRead j pkt s
  | .writeAck j pkt => Sys2Proof.Machine.execWriteAck j pkt s
  | .readData j pkt => Sys2Proof.Machine.execReadData j pkt s
  | .peerResponseTimeout txn => Sys2Proof.Machine.execPeerResponseTimeout txn s
  | .collUp j pkt => Sys2Proof.Machine.execCollUp j pkt s
  | .collDown j pkt => Sys2Proof.Machine.execCollDown j pkt s
  | .collPacketWaitTimeout n => Sys2Proof.Machine.execCollPacketWaitTimeout n s
  | .notice j rec => Sys2Proof.Machine.execNotice j rec s
  | .ackTimeout j => Sys2Proof.Machine.execAckTimeout j s
  | .fecLockLost j => Sys2Proof.Machine.execFecLockLost j s
  | .trainingStepComplete j lanes => Sys2Proof.Machine.execTrainingStepComplete j lanes s
  | .trainingTimeout j => Sys2Proof.Machine.execTrainingTimeout j s
  | .hbmUncorrectableError pa reader => Sys2Proof.Machine.execHbmUncorrectableError pa reader s
  | .correctedError u pa => Sys2Proof.Machine.execCorrectedError u pa s
  | .unitFault f => Sys2Proof.Machine.execUnitFault f s
  | .engineHang e => Sys2Proof.Machine.execEngineHang e s
  | .domainWatchdogExpiry d => Sys2Proof.Machine.execDomainWatchdogExpiry d s
  | .clockFault d => Sys2Proof.Machine.execClockFault d s
  | .contextAbortOnFault c => Sys2Proof.Machine.execContextAbortOnFault c s
  | .engineReset e cause => Sys2Proof.Machine.execEngineReset e cause s
  | .engineResetComplete e => Sys2Proof.Machine.execEngineResetComplete e s
  | .partitionReset q cause => Sys2Proof.Machine.execPartitionReset q cause s
  | .partitionResetComplete q => Sys2Proof.Machine.execPartitionResetComplete q s
  | .moduleReset cause => Sys2Proof.Machine.execModuleReset cause s
  | .powerCycleRequest cause => Sys2Proof.Machine.execPowerCycleRequest cause s
  | .powerCycleRepeat => Sys2Proof.Machine.execPowerCycleRepeat s
  | .deadlineMissed r => Sys2Proof.Machine.execDeadlineMissed r s
  | .inputUndervoltage => Sys2Proof.Machine.execInputUndervoltage s
  | .inputOvervoltage => Sys2Proof.Machine.execInputOvervoltage s
  | .inputOvercurrent => Sys2Proof.Machine.execInputOvercurrent s
  | .railStageShort stage => Sys2Proof.Machine.execRailStageShort stage s
  | .reversedInput => Sys2Proof.Machine.execReversedInput s
  | .polarityRestored => Sys2Proof.Machine.execPolarityRestored s
  | .inputBladeOpen => Sys2Proof.Machine.execInputBladeOpen s
  | .inputQualified => Sys2Proof.Machine.execInputQualified s
  | .aux3v3Loss => Sys2Proof.Machine.execAux3v3Loss s
  | .aux3v3Rise => Sys2Proof.Machine.execAux3v3Rise s
  | .rootPllLock strap => Sys2Proof.Machine.execRootPllLock strap s
  | .diesLoaded accepted => Sys2Proof.Machine.execDiesLoaded accepted s
  | .hbmTrainingComplete trained again => Sys2Proof.Machine.execHbmTrainingComplete trained again s
  | .thermalShutdown => Sys2Proof.Machine.execThermalShutdown s
  | .thermalResume => Sys2Proof.Machine.execThermalResume s
  | .sensorWarning n => Sys2Proof.Machine.execSensorWarning n s
  | .refclkLoss => Sys2Proof.Machine.execRefclkLoss s
  | .refclkReturn => Sys2Proof.Machine.execRefclkReturn s
  | .pathDelaySample e samples => Sys2Proof.Machine.execPathDelaySample e samples s
  | .monitorSample v => Sys2Proof.Machine.execMonitorSample v s
  | .hourlyLedgerSave => Sys2Proof.Machine.execHourlyLedgerSave s
  | .planTimer q => Sys2Proof.Machine.execPlanTimer q s
  | .railCodeStep q => Sys2Proof.Machine.execRailCodeStep q s
  | .windowOpen q results => Sys2Proof.Machine.execWindowOpen q results s
  | .windowClose q => Sys2Proof.Machine.execWindowClose q s
  | .preemptionTimeout q => Sys2Proof.Machine.execPreemptionTimeout q s
  | .getVersion x => Sys2Proof.Machine.execGetVersion x s
  | .getCapabilities x => Sys2Proof.Machine.execGetCapabilities x s
  | .negotiateAlgorithms x offered => Sys2Proof.Machine.execNegotiateAlgorithms x offered s
  | .getDigests x => Sys2Proof.Machine.execGetDigests x s
  | .getCertificate x slot off len => Sys2Proof.Machine.execGetCertificate x slot off len s
  | .challenge x slot nonce => Sys2Proof.Machine.execChallenge x slot nonce s
  | .getMeasurements x index signed => Sys2Proof.Machine.execGetMeasurements x index signed s
  | .keyExchange x slot share => Sys2Proof.Machine.execKeyExchange x slot share s
  | .finish x session verify => Sys2Proof.Machine.execFinish x session verify s
  | .keyUpdate x session => Sys2Proof.Machine.execKeyUpdate x session s
  | .heartbeat x session => Sys2Proof.Machine.execHeartbeat x session s
  | .endSession x session => Sys2Proof.Machine.execEndSession x session s
  | .getCsr x session => Sys2Proof.Machine.execGetCsr x session s
  | .setCertificate x session slot chain => Sys2Proof.Machine.execSetCertificate x session slot chain s
  | .ideKm x session stream key => Sys2Proof.Machine.execIdeKm x session stream key s
  | .requestUpdate agent => Sys2Proof.Machine.execRequestUpdate agent s
  | .firmwareImageWrite off data last => Sys2Proof.Machine.execFirmwareImageWrite off data last s
  | .activateFirmware => Sys2Proof.Machine.execActivateFirmware s
  | .getSensorReading n => Sys2Proof.Machine.execGetSensorReading n s
  | .setdasa addr => Sys2Proof.Machine.execSetdasa addr s
  | .rstdaa => Sys2Proof.Machine.execRstdaa s
  | .idle j ack credit => Sys2Proof.Machine.execIdle j ack credit s
  | .alignmentCodeword j => Sys2Proof.Machine.execAlignmentCodeword j s
  | .powerGovernor withhold => Sys2Proof.Machine.execPowerGovernor withhold s
  | .portEnable p => Sys2Proof.Machine.execPortEnable p s
  | .peerPortDisable j => Sys2Proof.Machine.execPeerPortDisable j s
  | .trialTimeout => Sys2Proof.Machine.execTrialTimeout s
  | .backgroundItemComplete p t q result => Sys2Proof.Machine.execBackgroundItemComplete p t q result s
  | .vfEnable p n => Sys2Proof.Machine.execVfEnable p n s
  | .bar4Resize p log2 => Sys2Proof.Machine.execBar4Resize p log2 s

end Sys2Proof.Machine
end

