-- ==== Sys2Proof/Machine/Tick.lean ====
section
/-!
DEFINITION. One HKCLK cycle: what happens with time alone when no command waits (00 clocks; 10 R236, R237; 14 R355;
16 PWR.SENSE). What else takes time is a command of its own (DESIGN CHOICE, log entry 11).
-/

namespace Sys2Proof.Machine

/-- Deficits after one HKCLK cycle: a bucket gains RATE bytes a nanosecond, 16 RATE thirds of a byte in 16/3 ns, one of a command's own BUDGET
hundredths of that (R236, R237). -/
def Partition.refill (a : Partition) (pct : Nat → Nat) : Partition :=
  let rate (d : Nat) : Nat := regRate (if d = 10 then a.regTotal else a.dest d)
  { a with
    spent := a.spent.filterMap fun x => if x.2 ≤ 16 * rate x.1 then none else some (x.1, x.2 - 16 * rate x.1)
    ckptSpent := a.ckptSpent.filterMap fun x =>
      let g := 16 * rate (x.1 % 16) * pct x.1
      if x.2 ≤ g then none else some (x.1, x.2 - g) }

/-- Operating time of a partition whose rail is on, in seconds of HKCLK time (R355). -/
def Partition.age (a : Partition) : Partition :=
  if a.opTicks + 1 = 187500000 then { a with opTicks := 0, opSeconds := a.opSeconds + 1 } else { a with opTicks := a.opTicks + 1 }

/-- A partition's rail is on (R353, R414): its stage is number 4 and up. -/
def State.railOn (s : State) (q : Part) : Bool := s.pwr.mainOn && !bitOf s.pwr.stagesOff (q.val + 4)

/-- The BUDGET of the command that a key of the CHECKPOINT budgets names (R237). -/
def State.keyBudget (s : State) (key : Nat) : Nat :=
  (s.cmd (Fin.ofNat 2 (key / 16 / 2 ^ 15)) (Fin.ofNat 1024 (key / 16))).budget

/-- A temperature in a byte, two's complement, is at or above a limit. -/
def hotByte (v limit : Nat) : Bool := decide (limit ≤ v ∧ v < 128)

/-- MOD_THERM_N follows the temperatures that are read (R418, R419): it is low while the cold plate is at or above 70 °C or any stack is
at or above 95 °C. -/
def PwrBlock.followTherm (w : PwrBlock) : PwrBlock :=
  { w with thermN := !(hotByte (bitsOf w.sense 55 48) 70 || w.stackTemps.any fun v => hotByte v 95) }

/-- Sensors are read every 1 ms: what they read is left open (16 PWR.SENSE; DESIGN CHOICE, log entry 5). -/
def State.readSensors (s : State) : State :=
  { s with
    fresh := s.fresh + 2
    pwr := ({ s.pwr with
      sense := (Config.freeValue s.fresh).toNat &&& 0x00FF0FFFFFFFFFFF
      stackTemps := (Config.freeBytes (s.fresh + 1) 6).map BitVec.toNat } : PwrBlock).followTherm }

/-- A commit blows one SVN fuse in an HKCLK cycle (R374, R382) (DESIGN CHOICE, log entry 53). -/
def BootBlock.blow (b : BootBlock) : BootBlock :=
  match b.blowing with
  | none => b
  | some n => if b.svnFuses < n then { b with svnFuses := b.svnFuses + 1 } else { b with blowing := none }

/-- One HKCLK cycle; nothing moves while HKCLK does not run (R415, R417). -/
def tick (s : State) : State :=
  if !(s.pwr.aux && s.pwr.pll && s.pwr.hkRunning) then s
  else
    let hk := s.hk + 1
    let s1 : State := { s with
      hk := hk
      boot := s.boot.blow
      parts := (List.finRange 8).map fun (q : Part) =>
        let a := (s.part q).refill s.keyBudget
        (q.val, if s.railOn q then a.age else a)
      age := { s.age with
        modOpSeconds := s.age.modOpSeconds + b2n (s.pwr.mainOn && hk.toNat % 187500000 == 0) } }
    if hk.toNat % 187500 = 0 then s1.readSensors else s1

end Sys2Proof.Machine
end

