-- ==== Sys2Proof/WellFormed.lean ====
section
/-!
DEFINITION. Well-formed commands: operands that the wire, the bus or the manual's own widths allow. A command that is not
well-formed still has a meaning; it is one that no sender can send.
-/

namespace Sys2Proof

/-- A bus write: 1, 2, 4 or 8 bytes that hold the value (R384). -/
def busWrite (size : Nat) (value : W64) : Bool :=
  (size == 1 || size == 2 || size == 4 || size == 8) && decide (value.toNat < 2 ^ (8 * size))

/-- The fields of a packet header fit and its payload is at most 4,032 bytes (R303). -/
def Packet.wf (k : Packet) : Bool :=
  decide (k.dest < 2 ^ 17 ∧ k.src < 2 ^ 17 ∧ k.ptype < 256 ∧ k.detours ≤ 8) && k.fields.length == 36
    && decide (k.payload.length ≤ 4032 ∧ k.vc < 4 ∧ k.len < 2 ^ 16 ∧ k.pflags < 128 ∧ k.byte11 < 256 ∧ k.tail.length < 240)

/-- A bad flit: a whole flit, or the one or two codewords that its bytes lie in (R285, R287). -/
def BadFlit.wf : BadFlit → Bool
  | .fec l n => decide (n ≤ 2) && l.all (·.length == 256)
  | .flit l b => b.length == 256 && l.all (·.length == 256)

/-- Eight lanes, each with two 10-bit symbols if any (R285). -/
def LaneReport.wf (r : LaneReport) : Bool :=
  r.lanes.length == 8 && r.lanes.all fun l => match l with | some x => decide (x.1 < 1024 ∧ x.2 < 1024) | none => true

/-- The fields of an IDENT fit (R295). -/
def IdentRec.wf (r : IdentRec) : Bool :=
  decide (r.node < 2 ^ 17 ∧ r.port < 256 ∧ r.dims < 2 ^ 24 ∧ r.credits < 2 ^ 16 ∧ r.version < 256)

/-- The fields of a notice fit (R317). -/
def NoticeRec.wf (r : NoticeRec) : Bool :=
  decide (r.kind < 256 ∧ r.port < 256 ∧ r.node < 2 ^ 17 ∧ r.origin < 2 ^ 17)

/-- A corrected error of memory names an address of that stack (R322, R395); of a peer port, the symbols corrected in a codeword (R286). -/
def UnitId.at_ (u : UnitId) (pa : Nat) : Bool :=
  match u with
  | .memory m => decide (pa < 384 * 2 ^ 30 ∧ pa / 65536 % 6 = m.val)
  | .peerPort _ => decide (1 ≤ pa ∧ pa ≤ 15)
  | _ => true

/-- A CAUSE that is not reserved (R336). -/
def causeKnown (c : BitVec 8) : Bool := decide (1 ≤ c.toNat ∧ c.toNat ≤ 0x0D)

/-- A lane's eye fits its widths (R354, R356). -/
def LaneEye.wf (l : LaneEye) : Bool := decide (l.low < 2 ^ 16 ∧ l.middle < 2 ^ 16 ∧ l.high < 2 ^ 16 ∧ l.width < 2 ^ 16)

/-- What a monitor reports fits its widths (R354). -/
def MonitorValue.wf : MonitorValue → Bool
  | .oscillators _ counts => counts.length == 8
  | .peerEye _ lanes => lanes.length == 8 && lanes.all LaneEye.wf
  | .hostEye _ lanes => lanes.length == 8 && lanes.all LaneEye.wf
  | .hbmMargin _ channels => channels.length == 32

/-- VALUES of an item has 24 bytes (R364). -/
def ItemResult.wf (r : ItemResult) : Bool :=
  r.values.length == 24 && (r.slacks.isEmpty || r.slacks.length == 128) && r.slacks.all fun v => decide (v < 4096)

/-- A well-formed command. -/
def Instr.wf : Instr → Bool
  | .nop _ _ => true
  | .matmul _ _ => true
  | .fused _ _ => true
  | .move _ _ => true
  | .convert _ _ => true
  | .vector _ _ => true
  | .solve _ _ => true
  | .route _ _ => true
  | .update _ _ => true
  | .setGroup _ _ => true
  | .scale _ _ => true
  | .collective _ _ => true
  | .sem _ _ => true
  | .cancel _ _ => true
  | .checkpoint _ _ => true
  | .restore _ _ => true
  | .selftest _ _ => true
  | .descriptorFetch _ _ => true
  | .descriptorChecks _ _ => true
  | .orderingRelease _ _ => true
  | .semaphoreWaitMet _ _ => true
  | .semaphoreRetest => true
  | .predicateRead _ _ => true
  | .admission _ _ => true
  | .commandVisibility _ _ => true
  | .completionRecordWrite _ _ => true
  | .modTimeExpiry _ _ => true
  | .submissionDoorbell _ _ _ size value => busWrite size value
  | .completionRingHead _ _ _ size value => busWrite size value
  | .namedTileArrival _ _ => true
  | .groupEntry _ _ => true
  | .tileDrain _ _ => true
  | .scaleTrackerAccess _ _ _ _ => true
  | .tableBuild _ => true
  | .taskSwitch _ => true
  | .switchBack _ => true
  | .streamRequestGrant _ => true
  | .streamReadLanded _ _ _ => true
  | .streamWriteAcknowledged _ _ _ => true
  | .slotRelease _ _ => true
  | .rateWindowExpiry _ => true
  | .streamTranslationFault _ _ => true
  | .priResponse _ _ => true
  | .commandStopAtTile _ _ _ => true
  | .meltComplete _ _ => true
  | .ctxCreate _ _ _ => true
  | .ctxAbort _ _ _ => true
  | .ctxDestroy _ _ _ => true
  | .ctxAdopt _ _ _ _ => true
  | .contextRecordWrite _ _ _ off size value => busWrite size value && decide (off < 64)
  | .ringEnable _ _ _ => true
  | .ringStop _ _ _ => true
  | .ringDisable _ _ _ => true
  | .ringDisableComplete _ _ => true
  | .ringPause _ _ _ => true
  | .ringResume _ _ _ => true
  | .cqEnable _ _ _ => true
  | .cqDisable _ _ _ => true
  | .cqDisableComplete _ _ => true
  | .ringRecordWrite _ _ cq n off size value => busWrite size value && decide (off < 32) && (!cq || decide (n.val < 64))
  | .faultResumeRetry _ => true
  | .faultResumeAbort _ => true
  | .memInval _ _ _ va => decide (va < 2 ^ 52)
  | .memInvalComplete => true
  | .retireConfirm _ => true
  | .fenceRelease _ => true
  | .partFenceRelease _ => true
  | .swresetEngine _ => true
  | .swresetPartition _ => true
  | .swresetModule => true
  | .setupLockTake _ _ => true
  | .replan _ => true
  | .ledgerRead _ _ => true
  | .retrain _ => true
  | .peerNodeWrite _ => true
  | .portDisable _ => true
  | .streamCfgWrite _ _ => true
  | .streamCfgApply _ => true
  | .dbgQuiesce _ => true
  | .quiesceTimeout _ => true
  | .groupRecordWrite _ _ _ off size value => busWrite size value && decide (off < 128)
  | .registerWrite _ f off size value => busWrite size value && decide (off < if f = 0 then 2 ^ 24 else 2 ^ 16)
  | .bar4Read _ off len _ => decide (1 ≤ len ∧ len ≤ 4096 ∧ off + len ≤ 2 ^ 39)
  | .bar4Write _ off data _ => decide (1 ≤ data.length ∧ data.length ≤ 4096 ∧ off + data.length ≤ 2 ^ 39)
  | .perstAssert _ => true
  | .perstDeassert _ => true
  | .functionLevelReset _ => true
  | .hostLinkDown _ => true
  | .portDownTimeout _ => true
  | .hostLinkUp _ => true
  | .badFlitReceived _ why => why.wf
  | .nak _ _ => true
  | .ident _ rec => rec.wf
  | .identAck _ node => decide (node < 2 ^ 17)
  | .identResend _ => true
  | .packetForward _ pkt _ => pkt.wf
  | .write _ pkt => pkt.1.wf && pkt.1.ptype == 0x01
  | .read _ pkt => pkt.1.wf && pkt.1.ptype == 0x03
  | .writeAck _ pkt => pkt.1.wf && pkt.1.ptype == 0x02
  | .readData _ pkt => pkt.1.wf && pkt.1.ptype == 0x04
  | .peerResponseTimeout _ => true
  | .collUp _ pkt => pkt.1.wf && pkt.1.ptype == 0x10
  | .collDown _ pkt => pkt.1.wf && pkt.1.ptype == 0x11
  | .collPacketWaitTimeout _ => true
  | .notice _ rec => rec.1.wf
  | .ackTimeout _ => true
  | .fecLockLost _ => true
  | .trainingStepComplete _ lanes => lanes.wf
  | .trainingTimeout _ => true
  | .hbmUncorrectableError pa _ => decide (pa < 384 * 2 ^ 30)
  | .correctedError u pa => u.at_ pa
  | .unitFault _ => true
  | .engineHang _ => true
  | .domainWatchdogExpiry _ => true
  | .clockFault _ => true
  | .contextAbortOnFault _ => true
  | .engineReset _ cause => causeKnown cause
  | .engineResetComplete _ => true
  | .partitionReset _ cause => causeKnown cause
  | .partitionResetComplete _ => true
  | .moduleReset cause => causeKnown cause
  | .powerCycleRequest cause => causeKnown cause
  | .powerCycleRepeat => true
  | .deadlineMissed _ => true
  | .inputUndervoltage => true
  | .inputOvervoltage => true
  | .inputOvercurrent => true
  | .railStageShort _ => true
  | .reversedInput => true
  | .polarityRestored => true
  | .inputBladeOpen => true
  | .inputQualified => true
  | .aux3v3Loss => true
  | .aux3v3Rise => true
  | .rootPllLock _ => true
  | .diesLoaded _ => true
  | .hbmTrainingComplete _ _ => true
  | .thermalShutdown => true
  | .thermalResume => true
  | .sensorWarning _ => true
  | .refclkLoss => true
  | .refclkReturn => true
  | .pathDelaySample _ samples => samples.length == 16 && samples.all fun v => decide (v < 2 ^ 12)
  | .monitorSample v => v.wf
  | .hourlyLedgerSave => true
  | .planTimer _ => true
  | .railCodeStep _ => true
  | .windowOpen _ results => results.all ItemResult.wf
  | .windowClose _ => true
  | .preemptionTimeout _ => true
  | .getVersion _ => true
  | .getCapabilities _ => true
  | .negotiateAlgorithms _ _ => true
  | .getDigests _ => true
  | .getCertificate _ _ off len => decide (off < 2 ^ 16 ∧ len < 2 ^ 16)
  | .challenge _ _ nonce => nonce.length == 32
  | .getMeasurements _ _ _ => true
  | .keyExchange _ _ share => share.length == 96
  | .finish _ _ verify => verify.length == 64
  | .keyUpdate _ _ => true
  | .heartbeat _ _ => true
  | .endSession _ _ => true
  | .getCsr _ _ => true
  | .setCertificate _ _ _ _ => true
  | .ideKm _ _ _ _ => true
  | .requestUpdate _ => true
  | .firmwareImageWrite off data _ => decide (off + data.length ≤ 2 ^ 25)
  | .activateFirmware => true
  | .getSensorReading _ => true
  | .setdasa _ => true
  | .rstdaa => true
  | .idle _ _ _ => true
  | .alignmentCodeword _ => true
  | .powerGovernor _ => true
  | .portEnable _ => true
  | .peerPortDisable _ => true
  | .trialTimeout => true
  | .backgroundItemComplete _ _ _ result => result.wf
  | .vfEnable _ n => decide (n ≤ 16)
  | .bar4Resize _ log2 => decide (30 ≤ log2 ∧ log2 ≤ 39)

end Sys2Proof
end

