-- ==== Sys2Proof/Safety.lean ====
section
/-!
DEFINITION. What counts as a safe step, and the invariants that claims are stated with.
-/

namespace Sys2Proof.Safety

open Sys2Proof.Machine

/-- A step that goes on: neither a fault nor a refusal. -/
def goesOn (o : Out) : Prop := ∃ t, o = .next t

/-- Every memory of the module and of its hosts keeps its canonical form. -/
def memoryOk (s : State) : Prop := Memory.wf s.mem.hbm = true ∧ ∀ p : Port, Memory.wf (s.hostMem p) = true

/-- Every command that waits is one a sender can send. -/
def queueOk (s : State) : Prop := s.pending.all Instr.wf = true

/-- The invariant that every step keeps: canonical memories, and no stack with more retired pages than its list holds (R343). -/
def inv (s : State) : Prop := memoryOk s ∧ ∀ m : Stack, (s.stack m).retired.length ≤ 4096

/-! ### Frames: what a step leaves alone -/

/-- `t` is `s` but for ports, contexts, engines, partitions, memory, peer links, outputs and the count of free values. -/
def calm (s t : State) : Prop :=
  t = { s with ports := t.ports, ctxs := t.ctxs, engines := t.engines, parts := t.parts, mem := t.mem, peer := t.peer
               out := t.out, fresh := t.fresh }

/-- `calm`, and no context differs. -/
def quiet (s t : State) : Prop := calm s t ∧ t.ctxs = s.ctxs

/-- What each command leaves alone: nothing of the module differs but what is named here. Commands of work, data streams, rings, peer
links and tests do not reach the clock, resets, power, the start, security, the ledger or the debug block; of those, a system command
reaches the blocks its group names. -/
def frame (i : Instr) (s t : State) : Prop :=
  match i with
  | .commandVisibility _ _ | .completionRecordWrite _ _ | .priResponse _ _ | .ctxCreate _ _ _ | .ctxAbort _ _ _
  | .ctxDestroy _ _ _ | .ctxAdopt _ _ _ _ | .contextRecordWrite _ _ _ _ _ _ | .memInvalComplete | .portDisable _
  | .perstDeassert _ | .portDownTimeout _ | .hostLinkUp _ | .portEnable _ =>
    calm s t
  | .nop _ _ | .matmul _ _ | .fused _ _ | .move _ _ | .convert _ _ | .vector _ _ | .solve _ _ | .route _ _
  | .update _ _ | .setGroup _ _ | .scale _ _ | .collective _ _ | .sem _ _ | .cancel _ _ | .checkpoint _ _
  | .restore _ _ | .descriptorChecks _ _ | .orderingRelease _ _ | .semaphoreWaitMet _ _ | .semaphoreRetest
  | .predicateRead _ _ | .admission _ _ | .modTimeExpiry _ _ | .submissionDoorbell _ _ _ _ _
  | .completionRingHead _ _ _ _ _ | .namedTileArrival _ _ | .groupEntry _ _ | .tileDrain _ _
  | .scaleTrackerAccess _ _ _ _ | .tableBuild _ | .taskSwitch _ | .switchBack _ | .streamRequestGrant _
  | .streamReadLanded _ _ _ | .streamWriteAcknowledged _ _ _ | .slotRelease _ _ | .rateWindowExpiry _
  | .streamTranslationFault _ _ | .commandStopAtTile _ _ _ | .meltComplete _ _ | .ringEnable _ _ _ | .ringStop _ _ _
  | .ringDisable _ _ _ | .ringDisableComplete _ _ | .ringPause _ _ _ | .ringResume _ _ _ | .cqEnable _ _ _
  | .cqDisable _ _ _ | .cqDisableComplete _ _ | .ringRecordWrite _ _ _ _ _ _ _ | .faultResumeRetry _
  | .faultResumeAbort _ | .memInval _ _ _ _ | .retrain _ | .streamCfgWrite _ _ | .streamCfgApply _
  | .groupRecordWrite _ _ _ _ _ _ | .hostLinkDown _ | .badFlitReceived _ _ | .nak _ _ | .ident _ _ | .identAck _ _
  | .identResend _ | .packetForward _ _ _ | .write _ _ | .read _ _ | .writeAck _ _ | .readData _ _
  | .peerResponseTimeout _ | .collUp _ _ | .collDown _ _ | .collPacketWaitTimeout _ | .notice _ _ | .ackTimeout _
  | .fecLockLost _ | .trainingStepComplete _ _ | .trainingTimeout _ | .powerCycleRepeat | .inputBladeOpen
  | .railCodeStep _ | .windowOpen _ _ | .preemptionTimeout _ | .getDigests _ | .getCertificate _ _ _ _
  | .challenge _ _ _ | .getMeasurements _ _ _ | .heartbeat _ _ | .getCsr _ _ | .ideKm _ _ _ _ | .getSensorReading _
  | .idle _ _ _ | .alignmentCodeword _ | .peerPortDisable _ | .vfEnable _ _ | .bar4Resize _ _ =>
    quiet s t
  | .ledgerRead _ _ =>
    t = { s with age := t.age }
  | .trialTimeout =>
    t = { s with boot := t.boot }
  | .dbgQuiesce _ | .quiesceTimeout _ =>
    t = { s with dbg := t.dbg }
  | .polarityRestored | .aux3v3Rise | .setdasa _ | .rstdaa =>
    t = { s with pwr := t.pwr }
  | .partFenceRelease _ =>
    t = { s with rcv := t.rcv }
  | .setupLockTake _ _ =>
    t = { s with sec := t.sec }
  | .requestUpdate _ | .firmwareImageWrite _ _ _ | .activateFirmware =>
    t = { s with boot := t.boot, out := t.out }
  | .engineResetComplete _ =>
    t = { s with engines := t.engines, rcv := t.rcv }
  | .monitorSample _ =>
    t = { s with parts := t.parts, age := t.age }
  | .powerGovernor _ =>
    t = { s with pwr := t.pwr, fresh := t.fresh }
  | .sensorWarning _ =>
    t = { s with pwr := t.pwr, out := t.out }
  | .fenceRelease _ =>
    t = { s with rcv := t.rcv, fresh := t.fresh }
  | .getVersion _ | .getCapabilities _ | .negotiateAlgorithms _ _ | .finish _ _ _ | .keyUpdate _ _ | .endSession _ _
  | .setCertificate _ _ _ _ =>
    t = { s with sec := t.sec, out := t.out }
  | .descriptorFetch _ _ =>
    t = { s with ports := t.ports, fresh := t.fresh, order := t.order }
  | .keyExchange _ _ _ =>
    t = { s with sec := t.sec, out := t.out, fresh := t.fresh }
  | .hbmTrainingComplete _ _ =>
    t = { s with mem := t.mem, rcv := t.rcv, pwr := t.pwr, boot := t.boot }
  | .aux3v3Loss =>
    t = { s with hk := t.hk, ports := t.ports, ctxs := t.ctxs, engines := t.engines, parts := t.parts, mem := t.mem,
                 peer := t.peer, rcv := t.rcv, pwr := t.pwr, boot := t.boot, sec := t.sec, age := t.age,
                 dbg := t.dbg }
  | .perstAssert _ | .functionLevelReset _ =>
    calm { s with sec := t.sec } t
  | .selftest _ _ | .retireConfirm _ | .replan _ | .bar4Read _ _ _ _ | .bar4Write _ _ _ _
  | .hbmUncorrectableError _ _ | .pathDelaySample _ _ | .hourlyLedgerSave | .planTimer _ | .windowClose _
  | .backgroundItemComplete _ _ _ _ =>
    quiet { s with age := t.age } t
  | .correctedError _ _ | .partitionResetComplete _ =>
    quiet { s with rcv := t.rcv } t
  | .peerNodeWrite _ =>
    quiet { s with sec := t.sec } t
  | .contextAbortOnFault _ =>
    calm { s with rcv := t.rcv, age := t.age } t
  | .swresetEngine _ | .swresetPartition _ | .engineHang _ | .engineReset _ _ | .partitionReset _ _ =>
    quiet { s with rcv := t.rcv, age := t.age, dbg := t.dbg } t
  | .diesLoaded _ =>
    quiet { s with rcv := t.rcv, boot := t.boot, sec := t.sec } t
  | .inputQualified | .thermalResume | .refclkReturn =>
    quiet { s with rcv := t.rcv, pwr := t.pwr, boot := t.boot } t
  | .rootPllLock _ =>
    quiet { s with hk := t.hk, rcv := t.rcv, pwr := t.pwr, boot := t.boot } t
  | .powerCycleRequest _ | .inputOvercurrent | .railStageShort _ =>
    calm { s with rcv := t.rcv, pwr := t.pwr, boot := t.boot, age := t.age, dbg := t.dbg } t
  | .swresetModule | .registerWrite _ _ _ _ _ | .unitFault _ | .domainWatchdogExpiry _ | .clockFault _
  | .moduleReset _ | .deadlineMissed _ | .inputUndervoltage | .inputOvervoltage | .reversedInput | .thermalShutdown
  | .refclkLoss =>
    calm { s with rcv := t.rcv, pwr := t.pwr, boot := t.boot, sec := t.sec, age := t.age, dbg := t.dbg } t

/-- `t` is `s` but for the command that holds a tag. -/
def onlyCmd (s t : State) (p : Port) (tag : Tag) : Prop := t = s.updCmd p tag fun _ => t.cmd p tag

/-- `t` is `s` but for a submission ring. -/
def onlyRing (s t : State) (p : Port) (r : RingNo) : Prop := t = s.updRing p r fun _ => t.ring p r

/-- `t` is `s` but for a context record. -/
def onlyCtx (s t : State) (c : CtxNo) : Prop := t = s.updCtx c fun _ => t.ctx c

/-- `t` is `s` but for one engine. -/
def onlyEng (s t : State) (e : Eng) : Prop := t = s.updEng e fun _ => t.eng e

/-- `t` is `s` but for the contents of the memories. -/
def onlyMemory (s t : State) : Prop :=
  t = { s with mem := { s.mem with hbm := t.mem.hbm, host := t.mem.host } }

/-- `t` is `s` but for the contents of the memories and the command that holds a tag. -/
def onlyMemoryAndCmd (s t : State) (p : Port) (tag : Tag) : Prop :=
  t = ({ s with mem := { s.mem with hbm := t.mem.hbm, host := t.mem.host } } : State).updCmd p tag fun _ => t.cmd p tag

/-- Every byte of memory outside the `n` bytes at device virtual address `va` of a context reads in `t` as in `s`, where
`s` says which physical bytes those are. -/
def leavesOutside (s t : State) (c : CtxNo) (va n : Nat) : Prop :=
  (∀ pa, (∀ i < n, s.xlate c (va + i) true ≠ .hbm pa) → Memory.get t.mem.hbm pa = Memory.get s.mem.hbm pa) ∧
  ∀ p ha, (∀ i < n, s.xlate c (va + i) true ≠ .host p ha) → Memory.get (t.hostMem p) ha = Memory.get (s.hostMem p) ha

/-- `t` is `s` with one row more done in a task slot of the command that holds a tag: its work has ended exactly when every slot of it
has done its rows, and nothing else of the module differs but where the slot stands. -/
def rowEnds (s t : State) (p : Port) (tag : Tag) (e : Eng) (k : SlotNo) : Prop :=
  t = { s with engines := t.engines, ports := t.ports } ∧
  (∀ d, t.eng d = { s.eng d with slots := (t.eng d).slots }) ∧ (∀ d j, (d ≠ e ∨ j ≠ k) → t.slot d j = s.slot d j) ∧
  t.slot e k = { s.slot e k with
    rows := (s.slot e k).rows + 1, vec := onVectorUnit (s.cmd p tag).op, unit := (t.slot e k).unit } ∧
  (∀ q, t.port q = { s.port q with tags := (t.port q).tags }) ∧ (∀ q g, (q ≠ p ∨ g ≠ tag) → t.cmd q g = s.cmd q g) ∧
  t.cmd p tag = { s.cmd p tag with
    phase := if (t.cmdSlots p tag).all (fun y => decide ((s.cmd p tag).rowCount y.1 ≤ y.2.2.rows)) then .ended else (s.cmd p tag).phase }

end Sys2Proof.Safety
end

