-- ==== Sys2Proof/Certificates/Slice0/Obligations.lean ====
section
/-! DEFINITION. The statements for the provers. -/

open Sys2Proof Sys2Proof.Machine

/-- A step runs the command at the front of the queue, on the state with the rest of the queue. -/
def Obligations.StepRunsTheFront : Prop :=
  ∀ (c : Instr) (rest : List Instr) (s : State), s.pending = c :: rest → step s = exec c { s with pending := rest }

/-- An idle step is one HKCLK cycle, which is the model's choice (DESIGN CHOICE, log entry 11): the count moves on where HKCLK runs. -/
def Obligations.IdleStepIsOneHousekeepingCycle : Prop :=
  ∀ s : State, s.pending = [] → ∃ t, step s = .next t ∧
    ((s.pwr.aux = true ∧ s.pwr.pll = true ∧ s.pwr.hkRunning = true) → t.hk = s.hk + 1) ∧
    (¬(s.pwr.aux = true ∧ s.pwr.pll = true ∧ s.pwr.hkRunning = true) → t = s) ∧
    t = { s with
      hk := t.hk, parts := t.parts, fresh := t.fresh
      age := { s.age with modOpSeconds := t.age.modOpSeconds }
      boot := { s.boot with svnFuses := t.boot.svnFuses, blowing := t.boot.blowing }
      pwr := { s.pwr with sense := t.pwr.sense, stackTemps := t.pwr.stackTemps, thermN := t.pwr.thermN } }

/-- The state after reset: the module right after a start, READY and idle, which is the model's choice (DESIGN CHOICE, log entry 2). -/
def Obligations.ResetMeetsTheInvariant : Prop :=
  Safety.inv State.reset ∧ (∀ m : Stack, (State.reset.stack m).retired = []) ∧ State.reset.pending = [] ∧ State.reset.boot.ready = true ∧ State.reset.sec.locked = false ∧
    (∀ c : CtxNo, (State.reset.ctx c).state = .free) ∧
    (∀ (p : Port) (r : RingNo), (State.reset.ring p r).state = .disabled) ∧
    (∀ (p : Port) (c : CqNo), (State.reset.cq p c).state = .disabled) ∧
    (∀ (p : Port) (t : Tag), (State.reset.cmd p t).phase = .free) ∧
    ∀ e : Eng, State.reset.engStatus e = 6032 * 2 ^ 32

/-- No command stops. What a command does while its condition does not hold is the model's choice (DESIGN CHOICE, log entry 1). -/
def Obligations.EveryCommandAnswersANextState : Prop := ∀ (c : Instr) (s : State), Safety.goesOn (exec c s)

/-- Every step keeps the invariant. -/
def Obligations.EveryStepKeepsMemoryCanonical : Prop :=
  ∀ s t : State, step s = .next t → Safety.inv s → Safety.inv t

/-- No command changes the queue, or a block of the module that `Safety.frame` does not name for it. -/
def Obligations.CommandsLeaveTheQueue : Prop :=
  ∀ (c : Instr) (s t : State), exec c s = .next t → t.pending = s.pending ∧ Safety.frame c s t

/-- Retirement and the fuses are permanent. -/
def Obligations.RetirementAndFusesArePermanent : Prop :=
  ∀ s t : State, step s = .next t →
    (∀ m : Stack, (s.stack m).retired <+: (t.stack m).retired) ∧ s.boot.svnFuses ≤ t.boot.svnFuses

/-- The set-up lock holds while the module stays READY; only the end of HBM training raises READY. -/
def Obligations.SetupLockHoldsWhileReady : Prop :=
  ∀ s t : State, step s = .next t →
    (s.sec.locked = true → s.boot.ready = true → t.boot.ready = true →
      t.sec.locked = true ∧ t.sec.lockedBy = s.sec.lockedBy ∧ t.sec.lockSnapshot = s.sec.lockSnapshot) ∧
    (t.boot.ready = true → s.boot.ready = true ∨
      ∃ trained again rest, s.pending = .hbmTrainingComplete trained again :: rest)

/-- IDE keys come only through IDE_KM. -/
def Obligations.KeysReachAPortOnlyThroughIdeKm : Prop :=
  (∀ (c : Instr) (s t : State) (p : Port), exec c s = .next t → (t.port p).ide ≠ (s.port p).ide → (t.port p).ide ≠ [] →
    ∃ session stream key, c = .ideKm (.doe p) session stream key ∧ s.secured (.doe p) session = true) ∧
  ∀ (p : Port) (s : State), ∃ t, exec (.perstAssert p) s = .next t ∧ (t.port p).ide = [] ∧
    ∀ q, q ≠ p → (t.port q).ide = (s.port q).ide

/-- NOP and SEM have no work of their own (R209, R215). -/
def Obligations.NopAndSemOnlyEnd : Prop :=
  ∀ (p : Port) (t : Tag) (s : State), (s.cmd p t).phase = .running →
    ((s.cmd p t).op = 0x00 → exec (.nop p t) s = .next (s.updCmd p t fun c => { c with phase := .ended })) ∧
    ((s.cmd p t).op = 0x0B → exec (.sem p t) s = .next (s.updCmd p t fun c => { c with phase := .ended }))

/-- MATMUL and FUSED form the next group of a slot (05, 06, 08; 09 R213; 10 R243 to R250). That FUSED takes the lowest slot that may form a group
is the model's choice (DESIGN CHOICE, log entry 9), and the stage and tile that come next there its reading (DEDUCED, log entry 29). -/
def Obligations.MatmulFormsItsNextGroup : Prop :=
  let forms := fun (e : Eng) (k : SlotNo) (s t : State) (st u : Nat) (gs : List (Nat × GroupRes)) (ns : List (Nat × Nat)) =>
    let v := s.slot e k
    let c := s.cmd v.port v.tag
    (t.slot e k).formed = gs ∧ (t.slot e k).hasFormed = true ∧ (t.slot e k).state = .head ∧
      (t.slot e k).stage = st ∧ (t.slot e k).unit = u ∧ (t.slot e k).group = v.group ∧ (t.eng e).head = some k ∧
      t.tileOf e k = (if (s.tileOf e k).state = .free then freshTile (c.mm st) c.ctx v.port v.tag else s.tileOf e k) ∧
      (∀ d, d ≠ e → t.eng d = s.eng d) ∧ (∀ j, j ≠ k → t.slot e j = s.slot e j) ∧
      (t.eng e).streams = (s.eng e).streams ∧ ((s.tileOf e k).state ≠ .free → (t.eng e).named = (s.eng e).named) ∧
      t = ({ s with engines := t.engines }).updCmd v.port v.tag fun c => { c with aux1 := c.aux1 + skippedSteps ns }
  let can := fun (e : Eng) (k : SlotNo) (s : State) (st u : Nat) (gs : List (Nat × GroupRes)) (ns : List (Nat × Nat)) =>
    let v := s.slot e k
    let c := s.cmd v.port v.tag
    let x := c.mm st
    let a := x.groupAt (x.unitJ u) v.group
    s.canForm e k = true ∧ c.nextTile e v = some (st, u) ∧ v.group < x.partGroups (x.unitJ u) ∧
      (s.asLanded e v).groupResults c.ctx x (c.srcOf st (x.unitC u)) (x.unitI u) (x.unitC u) a.g a.pass = .ok gs ∧
      ∃ ls, (s.asLanded e v).groupCounts c.ctx x (c.srcOf st (x.unitC u)) (x.unitI u) (x.unitC u) (x.unitJ u) a
        (s.lanesOf e v st) = .ok (ns, ls)
  (∀ (e : Eng) (k : SlotNo) (s : State) (st u : Nat) (gs : List (Nat × GroupRes)) (ns : List (Nat × Nat)),
    (s.slot e k).opcode = 0x01 → can e k s st u gs ns →
    ∃ t, exec (.matmul e k) s = .next t ∧ forms e k s t st u gs ns) ∧
  ∀ (p : Port) (tag : Tag) (e : Eng) (k : SlotNo) (v : Slot) (s : State) (st u : Nat) (gs : List (Nat × GroupRes))
    (ns : List (Nat × Nat)),
    (s.cmd p tag).op = 0x02 → ((s.cmdSlots p tag).find? fun x => s.canForm x.1 x.2.1) = some (e, k, v) →
    can e k s st u gs ns → ∃ t, exec (.fused p tag) s = .next t ∧ forms e k s t st u gs ns

/-- GROUP_ENTRY (04 R75 to R80, R84, R90). That a HOLD leaves its tile BUSY until its command ends is the model's reading (DEDUCED, log entry 28). -/
def Obligations.GroupEntersItsTile : Prop :=
  ∀ (e : Eng) (k : SlotNo) (s : State),
    let v := s.slot e k
    let c := s.cmd v.port v.tag
    let x := c.mm v.stage
    let a := x.groupAt (x.unitJ v.unit) v.group
    let r := (s.tileOf e k).enter (x.mode == 2) a.passEnd
      (fun n => (s.asLanded e v).entryDraw c x (x.unitI v.unit) (x.unitC v.unit) (2 ^ 31 + a.seq) n) v.formed
    let last := x.partGroups (x.unitJ v.unit) ≤ v.group + 1
    s.arrayFree e k = true → v.hasFormed = true →
    ∃ t, exec (.groupEntry e k) s = .next t ∧
      (t.slot e k).formed = [] ∧ (t.slot e k).hasFormed = false ∧
      (∀ d, d ≠ e → t.eng d = s.eng d) ∧ (t.eng e).streams = (s.eng e).streams ∧
      t = { s with engines := t.engines, ports := t.ports } ∧
      (¬last → t.tileOf e k = r.1 ∧ (t.slot e k).group = v.group + 1 ∧ (t.slot e k).unit = v.unit ∧
        t = ({ s with engines := t.engines }).updCmd v.port v.tag fun c => c.tally r.2) ∧
      (last → s.accOf v = none → x.accSel = 0 →
        (t.cmd v.port v.tag).sat = (c.tally r.2).sat ∧ (t.cmd v.port v.tag).under = (c.tally r.2).under ∧
        (v.draining = false → (t.slot e k).draining = true ∧ (t.slot e k).drainTile = { r.1 with state := .draining } ∧
          (t.slot e k).drainStage = v.stage ∧ (t.slot e k).drainUnit = v.unit ∧ (t.slot e k).group = 0) ∧
        (v.draining = true → (t.slot e k).filled = true ∧ (t.slot e k).tile = r.1 ∧ (t.slot e k).unit = v.unit)) ∧
      (∀ n, last → s.accOf v = some n → v.opcode = 0x01 → x.accSel ≠ 0 → x.holds = true →
        (∀ j, (s.slot e j).joinAfter ≠ some (v.port, v.tag)) →
        (t.cmd v.port v.tag).sat = (c.tally r.2).sat ∧ (t.cmd v.port v.tag).under = (c.tally r.2).under ∧
        t.named e n = r.1 ∧ (t.slot e k).unit = v.unit + 1 ∧ (t.slot e k).group = 0 ∧ (t.slot e k).draining = v.draining)

/-- NAMED_TILE_ARRIVAL, and TILE_DRAIN (04 R81 to R89; 07; 09 R211). Sending partial totals 4,096 bytes at a time is the model's reading (DEDUCED, log
entry 25), and that a wait leaves the state alone its choice (DESIGN CHOICE, log entry 1). -/
def Obligations.TilesAreTakenAndDrained : Prop :=
  (∀ (e : Eng) (k : SlotNo) (s : State) (a : Nat),
    let v := s.slot e k
    let c := s.cmd v.port v.tag
    let x := c.mm 0
    let old := s.named e a
    let fen := old.cls != x.cls || old.group != x.g
    let f := if fen then old.fence x.cls x.g else (old, {})
    let taken := fun (t : State) => (t.slot e k).pass = .filling ∧
      (∀ b, b ≠ a → t.named e b = s.named e b) ∧ (∀ d, d ≠ e → t.eng d = s.eng d) ∧
      (∀ j, j ≠ k → t.slot e j = s.slot e j) ∧ (t.eng e).streams = (s.eng e).streams ∧
      t = { s with engines := t.engines, ports := t.ports }
    s.accOf v = some a → c.phase = .running → v.pass = .none → v.unit < v.lastUnit → v.state ≠ .cancelling →
    (old.state = .free → ∃ t, exec (.namedTileArrival e k) s = .next t ∧ taken t ∧
      t.named e a = freshTile x c.ctx v.port v.tag ∧ ∀ q g, t.cmd q g = s.cmd q g) ∧
    let away := fun (st : Nat) => exec (.namedTileArrival e k) s = .next (s.turnAway v.port v.tag st) ∧
      ((∀ y ∈ s.cmdSlots v.port v.tag, y.2.2.pass ≠ .filling) → exec (.namedTileArrival e k) s = .next
        ((s.updCmd v.port v.tag fun c => { c with aux0 := 0, sat := 0, under := 0 }).abortCmd v.port v.tag st))
    (old.state = .draining → exec (.namedTileArrival e k) s = .next s) ∧
    (old.state = .busy →
      (s.chainTail e a = none → exec (.namedTileArrival e k) s = .next s) ∧
      ∀ w, s.chainTail e a = some w →
        let y := (s.cmd w.port w.tag).mm 0
        (w.ctx ≠ c.ctx ∨ x.joins = false → exec (.namedTileArrival e k) s = .next s) ∧
        (w.ctx = c.ctx → x.joins = true →
          (y.holds = false → away stBadDescriptor) ∧
          (y.holds = true → (y.cls == 5) ≠ (x.cls == 5) → away stAccClass) ∧
          (y.holds = true → (y.cls == 5) = (x.cls == 5) → w.unit < w.lastUnit → exec (.namedTileArrival e k) s = .next
            (s.updSlot e k fun v => { v with pass := .joined, joinAfter := some (w.port, w.tag) })))) ∧
    (old.state = .held → old.owner ≠ c.ctx → away stDenied) ∧
    (old.state = .held → old.owner = c.ctx →
      ((x.continues || x.joins) = false → ∃ t, exec (.namedTileArrival e k) s = .next t ∧ taken t ∧
        t.named e a = freshTile x c.ctx v.port v.tag ∧ ∀ q g, t.cmd q g = s.cmd q g) ∧
      ((x.continues || x.joins) = true → (old.cls == 5) ≠ (x.cls == 5) → away stAccClass) ∧
      ((x.continues || x.joins) = true → (old.cls == 5) = (x.cls == 5) →
        ∃ t, exec (.namedTileArrival e k) s = .next t ∧ taken t ∧
          t.named e a = { f.1 with state := .busy, mode := x.mode, lastPort := v.port, lastTag := v.tag } ∧
          t.cmd v.port v.tag = { c.tally f.2 with aux0 := c.aux0 + b2n fen } ∧
          ∀ q g, (q ≠ v.port ∨ g ≠ v.tag) → t.cmd q g = s.cmd q g))) ∧
  ∀ (e : Eng) (k : SlotNo) (s : State),
    let v := s.slot e k
    let c := s.cmd v.port v.tag
    let b := min 4096 (s.partLeft e v)
    let d := (s.drainTileOf e k).promote
    v.draining = true → c.phase ≠ .free → s.inReset e = false → s.isolated e = false →
    (s.joinWaits v.port v.tag = true → exec (.tileDrain e k) s = .next s) ∧
    (s.joinWaits v.port v.tag = false → s.partLeft e v = 0 → s.drainIn e v = false → exec (.tileDrain e k) s = .next s) ∧
    (s.joinWaits v.port v.tag = false → 0 < s.partLeft e v →
      ((s.part (partOf e)).hasTokens 9 b = true → exec (.tileDrain e k) s = .next
        ((s.updPart (partOf e) fun a => a.take 9 b).updSlot e k fun v => { v with sent := v.sent + b })) ∧
      ((s.part (partOf e)).hasTokens 9 b = false → exec (.tileDrain e k) s = .next s)) ∧
    ∀ s1 c1, s.joinWaits v.port v.tag = false → s.partLeft e v = 0 → s.drainIn e v = true → s.drainRoom e v = true →
      s.drainUnit (s.asLanded e v) c v.drainStage v.drainUnit d.1 d.2 = .ok (s1, c1) →
      ∃ t, exec (.tileDrain e k) s = .next t ∧
        t = (((s1.updCmd v.port v.tag fun _ => c1).endDrain e k).finishUnits v.port v.tag) ∧
        (v.filled = false → (t.slot e k).draining = false ∧ (t.slot e k).drainTile = {}) ∧
        (v.filled = true → (t.slot e k).draining = true) ∧
        (∀ a, s.accOf v = some a → v.filled = false → t.named e a = {}) ∧
        (∀ j, j ≠ k → t.slot e j = s.slot e j) ∧ (∀ d, d ≠ e → t.eng d = s.eng d) ∧
        (t.eng e).streams = (s.eng e).streams ∧ (∀ q g, (q ≠ v.port ∨ g ≠ v.tag) → t.cmd q g = s.cmd q g) ∧
        (∀ q, t.part q = { s.part q with scale := (t.part q).scale }) ∧
        t = { s with mem := { s.mem with hbm := t.mem.hbm, host := t.mem.host }, parts := t.parts, engines := t.engines,
                     ports := t.ports }

/-- MOVE moves one row (07 R165). -/
def Obligations.MoveCopiesOneRow : Prop :=
  ∀ (p : Port) (tag : Tag) (s s1 : State) (e : Eng) (k : SlotNo) (v : Slot) (b : List Byte),
    let c := s.cmd p tag
    let r := c.rowAt e v.rows
    let va := c.f 64 8 + r * c.f 88 8
    Safety.memoryOk s → s.rowSlot p tag 0x03 = some (e, k, v) → (s.asLanded e v).moveRow c r = .ok b → s.vwrite c.ctx va b = .ok s1 →
    ∃ t, exec (.move p tag) s = .next t ∧ Safety.rowEnds s1 t p tag e k ∧
      Safety.onlyMemory s s1 ∧ Safety.leavesOutside s t c.ctx va b.length

/-- The row commands of the vector unit (07 R152 to R165; 11 R261 to R276). -/
def Obligations.RowCommandsWorkRowByRow : Prop :=
  (∀ (p : Port) (tag : Tag) (s s1 : State) (e : Eng) (k : SlotNo) (v : Slot),
    let c := s.cmd p tag
    let r := c.rowAt e v.rows
    let pro := bitOf (fld c.entry 20 1) 1 && c.factor == 0
    (s.rowSlot p tag 0x05 = some (e, k, v) → s.vecRow p tag (s.asLanded e v) c r = .ok s1 → ∃ t, exec (.vector p tag) s = .next t ∧
      Safety.rowEnds s1 t p tag e k ∧ Safety.onlyMemoryAndCmd s s1 p tag) ∧
    (s.rowSlot p tag 0x06 = some (e, k, v) → s.solveOne p tag (s.asLanded e v) c r = .ok s1 → ∃ t, exec (.solve p tag) s = .next t ∧
      Safety.rowEnds s1 t p tag e k ∧ Safety.onlyMemoryAndCmd s s1 p tag) ∧
    (s.rowSlot p tag 0x08 = some (e, k, v) → c.f 50 1 = 0 → pro = false → s.updateRow p tag (s.asLanded e v) c r = .ok s1 →
      ∃ t, exec (.update p tag) s = .next t ∧ Safety.rowEnds s1 t p tag e k ∧
        (Safety.onlyMemoryAndCmd s s1 p tag ∨
          ∃ d, s1 = (s.bump d 0x878 1).updCmd p tag fun c => { c with aux0 := c.aux0 + 1 })) ∧
    (s.firstSlot p tag = some (e, k, v) → c.f 50 1 = 0 → pro = true → s.prologue p tag c = .ok s1 →
      exec (.update p tag) s = .next (s1.beginOn e k) ∧ Safety.onlyMemoryAndCmd s s1 p tag)) ∧
  ∀ (p : Port) (tag : Tag) (s : State), s.noRows p tag 0x05 = true → exec (.vector p tag) s = .next (s.doneCmd p tag)

/-- CONVERT (07 R160; 09 R213; 11 R279 to R281). -/
def Obligations.ConvertWorksRowByRow : Prop :=
  ∀ (p : Port) (tag : Tag) (s s1 : State) (e : Eng) (k : SlotNo) (v : Slot),
    let c := s.cmd p tag
    let r := c.rowAt e v.rows
    s.rowSlot p tag 0x04 = some (e, k, v) → s.convRow p tag (s.asLanded e v) c r = .ok s1 →
    ∃ s2 t, exec (.convert p tag) s = .next t ∧ Safety.rowEnds s2 t p tag e k ∧
      Safety.onlyMemoryAndCmd s s1 p tag ∧
      (r + 1 < c.f 92 4 → s2 = s1) ∧ (c.f 54 2 = 0xFFFF → s2 = s1) ∧
      (c.f 92 4 ≤ r + 1 → c.f 54 2 ≠ 0xFFFF →
        let n := scalePlace (c.f 54 2)
        s2.scaleEnt n.1 n.2 = (s.scaleEnt n.1 n.2).report (BitVec.ofNat 32 c.step) (s1.cmd p tag).maxSeen (s1.cmd p tag).sat ∧
        (∀ m, m ≠ n.2 → s2.scaleEnt n.1 m = s.scaleEnt n.1 m) ∧ (∀ q, q ≠ n.1 → s2.part q = s.part q) ∧
        s2 = { s1 with parts := s2.parts })

/-- SCALE (11 R278, R279, R282). -/
def Obligations.ScaleReadsWritesAndResets : Prop :=
  ∀ (p : Port) (tag : Tag) (s : State),
    let c := s.cmd p tag
    let q : Part := ⟨c.f 51 1 % 8, Nat.mod_lt _ (by decide)⟩
    let sets := fun (t : State) (f : Nat → ScaleEnt) =>
      (∀ i, i < c.f 54 2 → t.scaleEnt q (c.f 52 2 + i) = f i) ∧
      (∀ m, (m < c.f 52 2 ∨ c.f 52 2 + c.f 54 2 ≤ m) → t.scaleEnt q m = s.scaleEnt q m) ∧
      (∀ r, r ≠ q → t.part r = s.part r) ∧ (t.cmd p tag).phase = .ended
    (s.wholeSlot p tag 0x09).isSome = true →
    (∀ s1, c.f 50 1 = 0 →
      (s.updScales q (c.f 52 2) (fun _ en => en.access (BitVec.ofNat 32 c.step)) (c.f 54 2)).vwrite c.ctx (c.f 56 8)
        ((s.updScales q (c.f 52 2) (fun _ en => en.access (BitVec.ofNat 32 c.step)) (c.f 54 2)).scaleImages q (c.f 52 2)
          (c.f 54 2)) = .ok s1 →
      exec (.scale p tag) s = .next (s1.doneCmd p tag) ∧
      sets (s1.doneCmd p tag) (fun i => (s.scaleEnt q (c.f 52 2 + i)).access (BitVec.ofNat 32 c.step)) ∧
      Safety.onlyMemory { s with parts := s1.parts } s1) ∧
    (∀ b, c.f 50 1 = 1 → s.vread c.ctx (c.f 56 8) (32 * c.f 54 2) = .ok b →
      (((List.range (c.f 54 2)).all fun i => scaleImageOk (slice b (32 * i) 32)) = true →
        ∃ t, exec (.scale p tag) s = .next t ∧ sets t (fun i => scaleOfImage (slice b (32 * i) 32)) ∧
          t = ({ s with parts := t.parts } : State).doneCmd p tag) ∧
      (((List.range (c.f 54 2)).all fun i => scaleImageOk (slice b (32 * i) 32)) = false →
        exec (.scale p tag) s = .next (s.endCmd p tag stBadDescriptor))) ∧
    (c.f 50 1 = 2 → ∃ t, exec (.scale p tag) s = .next t ∧ sets t (fun _ => {}) ∧
      t = ({ s with parts := t.parts } : State).doneCmd p tag)

/-- ROUTE (08) and set-group (11 R272, R273). -/
def Obligations.RouteAndSetGroupStoreAndEnd : Prop :=
  (∀ (p : Port) (tag : Tag) (s s1 : State) (e : Eng) (k : SlotNo) (v : Slot),
    s.wholeSlot p tag 0x07 = some (e, k, v) → s.routeWork p tag (s.asLanded e v) (s.cmd p tag) = .ok s1 →
    exec (.route p tag) s = .next (s1.beginOn e k) ∧ ((s1.beginOn e k).cmd p tag).phase = .ended ∧
      Safety.onlyMemoryAndCmd { s with engines := s1.engines } s1 p tag ∧
      (∀ d, s1.eng d = { s.eng d with streams := (s1.eng d).streams }) ∧
      ∀ d i, ((s.strm d i).port ≠ p ∨ (s.strm d i).tag ≠ tag) → s1.strm d i = s.strm d i) ∧
  ∀ (p : Port) (tag : Tag) (s : State),
    let c := s.cmd p tag
    let va := c.groupTable + 64 * c.f 52 2
    let entry := patch (slice c.desc 56 64) 24 (toLe 4 c.step)
    c.phase = .admission → c.op = 0x08 → c.f 50 1 = 1 →
    (∀ pa s1, Safety.memoryOk s → s.xlate c.ctx va true = .hbm pa → s.vwrite c.ctx va entry = .ok s1 →
      exec (.setGroup p tag) s = .next (s1.doneCmd p tag) ∧ Safety.onlyMemory s s1 ∧
      Safety.leavesOutside s s1 c.ctx va entry.length) ∧
    (∀ h ha, s.xlate c.ctx va true = .host h ha → exec (.setGroup p tag) s = .next (s.endCmd p tag stBadDescriptor))

/-- FUSED (09 R213; 10 R243, R244). What FUSED does while it can form no group is the model's choice (DESIGN CHOICE, log entry 1), and so is which
open stage goes first (DEDUCED, log entry 29). -/
def Obligations.FusedWorksTileByTile : Prop :=
  (∀ (c : Cmd) (st n : Nat), c.stageOpen st n = true ↔
    (n < (c.mm st).q ∧ (st = 0 ∨ (n / (c.mm st).mt + 1) * (c.mm (st - 1)).mt ≤ c.drainedOf (st - 1)) ∧
      (c.inner st = false ∨ n / (c.mm st).mt < 2 ∨ (n / (c.mm st).mt - 1) * (c.mm (st + 1)).mt ≤ c.formedOf (st + 1)))) ∧
  (∀ (p : Port) (tag : Tag) (s : State), (∀ x ∈ s.cmdSlots p tag, s.canForm x.1 x.2.1 = false) →
    exec (.fused p tag) s = .next s) ∧
  ∀ (c : Cmd) (e : Eng) (v : Slot) (st u : Nat), c.op = 0x02 → c.nextTile e v = some (st, u) →
    (v.atStart = true → st < c.nStages ∧ c.stageOn e st = true ∧ c.stageOpen st (c.formedOf st) = true ∧
      u = (c.mm st).fusedUnits.getD (c.formedOf st) 0 ∧
      ∀ n, st < n → n < c.nStages → c.stageOn e n = true → c.stageOpen n (c.formedOf n) = false) ∧
    (v.atStart = false → st = v.stage ∧ u = v.unit)

/-- CANCEL and the stop of a cancelled command (09 R223, R224). What a command does while its condition does not hold is the model's choice (DESIGN CHOICE, log entry 1). -/
def Obligations.CancelStopsWhatItSelects : Prop :=
  (∀ (p : Port) (tag : Tag) (s : State),
    let c := s.cmd p tag
    c.phase = .running → c.op = 0x0C →
    (c.progress = 0 → ∃ t, exec (.cancel p tag) s = .next t ∧ (t.cmd p tag).progress = 1 ∧
      (∀ q g, (s.cmd q g).phase ≠ .free → c.selects (s.cmd q g) = true → (q ≠ p ∨ g ≠ tag) →
        (p, tag, c.order) ∈ (t.cmd q g).cancellers ∧
        ((s.cmd q g).phase.before5 = true →
          (t.cmd q g).phase = .ended ∧ (t.cmd q g).status = some ((s.cmd q g).status.getD stCancelled)) ∧
        ((s.cmd q g).phase = .running → ∀ x ∈ s.cmdSlots q g, (t.slot x.1 x.2.1).stopping = true)) ∧
      (∀ q g, ((q = p ∧ g = tag) ∨ (s.cmd q g).phase = .free ∨ c.selects (s.cmd q g) = false) →
        (t.cmd q g).cancellers = (s.cmd q g).cancellers) ∧
      t.mem.hbm = s.mem.hbm ∧ t.mem.host = s.mem.host ∧ t.ctxs = s.ctxs) ∧
    (c.progress ≠ 0 → (∀ q g, (s.cmd q g).phase ≠ .free → (p, tag, c.order) ∉ (s.cmd q g).cancellers) →
      exec (.cancel p tag) s = .next (s.doneCmd p tag)) ∧
    (c.progress ≠ 0 → (∃ q g, (s.cmd q g).phase ≠ .free ∧ (p, tag, c.order) ∈ (s.cmd q g).cancellers) →
      exec (.cancel p tag) s = .next s)) ∧
  ∀ (p : Port) (tag : Tag) (e : Eng) (s : State),
    let c := s.cmd p tag
    let stops := fun (x : Eng × SlotNo × Slot) => x.1 == e && s.mayStop e x.2.2
    c.phase = .running → (∃ x ∈ s.cmdSlots p tag, stops x = true) →
    ((∃ x ∈ s.cmdSlots p tag, x.2.2.stopped = false ∧ stops x = false) →
      ∃ t, exec (.commandStopAtTile p tag e) s = .next t ∧ t = { s with engines := t.engines } ∧
        ∀ d k, t.slot d k = if (d, k, s.slot d k) ∈ s.cmdSlots p tag ∧ stops (d, k, s.slot d k) = true
          then { s.slot d k with stopped := true } else s.slot d k) ∧
    ((∀ x ∈ s.cmdSlots p tag, x.2.2.stopped = true ∨ stops x = true) →
      ((∃ x ∈ s.cmdSlots p tag, c.allFilled x.1 x.2.2 = false) → ∃ t, exec (.commandStopAtTile p tag e) s = .next t ∧
        (t.cmd p tag).phase = .cancelling ∧ (t.cmd p tag).status = some (c.status.getD stCancelled)) ∧
      ((∀ x ∈ s.cmdSlots p tag, c.allFilled x.1 x.2.2 = true) →
        ∃ t, exec (.commandStopAtTile p tag e) s = .next t ∧ (t.cmd p tag).status = c.status ∧
          (t.cmd p tag).phase = (if (s.cmdSlots p tag).any (fun x => x.2.2.draining) then .running else .ended)))

/-- SELFTEST (14 R363, R364). -/
def Obligations.SelftestQueuesItsItemsAndReports : Prop :=
  (∀ (p : Port) (tag : Tag) (s : State),
    let c := s.cmd p tag
    c.phase = .running → c.op = 0x0F → c.progress = 0 → c.queues = true → c.f 50 2 ≠ 0x20 →
    (∀ q : Part, bitOf (c.f 52 1) q.val = true → (s.part q).queued < 16) →
    ∃ t, exec (.selftest p tag) s = .next t ∧
      (∀ q : Part, bitOf (c.f 52 1) q.val = true → t.part q = { s.part q with
        preempting := (t.part q).preempting
        items := (s.part q).items ++ [{ test := c.f 50 2, cmd := some (p, tag), order := c.order, arg := c.testMask }] } ∧
        ((t.part q).preempting = true → (s.part q).preempting = true) ∧
        (((s.part q).items.any fun i => windowTest i.test) = true → (t.part q).preempting = (s.part q).preempting)) ∧
      (∀ q : Part, bitOf (c.f 52 1) q.val = false → t.part q = s.part q) ∧
      t = ({ s with parts := t.parts } : State).updCmd p tag fun x => { x with progress := 1 }) ∧
  (∀ (p : Port) (tag : Tag) (s : State),
    let c := s.cmd p tag
    c.phase = .running → c.op = 0x0F → c.progress = 0 →
    (c.queues = true → (∃ q : Part, bitOf (c.f 52 1) q.val = true ∧ 16 ≤ (s.part q).queued) → exec (.selftest p tag) s = .next s) ∧
    (c.queues = false → exec (.selftest p tag) s = .next (s.updCmd p tag fun x => { x with progress := 1 }))) ∧
  ∀ (p : Port) (tag : Tag) (s s1 : State),
    let c := s.cmd p tag
    let result := (c.outs.map (·.2.result)).foldl worse 0
    let b := c.testRecord result s.time48
    let failed := (((c.outs.filter fun o => o.2.result == 1).map fun o => 2 ^ o.1).sum) +
      256 * (((c.outs.filter fun o => o.2.result == 2 || o.2.result == 3).map fun o => 2 ^ o.1).sum)
    Safety.memoryOk s → c.phase = .running → c.op = 0x0F → c.progress ≠ 0 →
    (c.testKeys.all fun k => c.outs.any (·.1 == k)) = true → s.vwrite c.ctx (c.f 56 8) b = .ok s1 →
    ∃ t, exec (.selftest p tag) s = .next t ∧ (t.cmd p tag).phase = .ended ∧ (t.cmd p tag).aux0 = result ∧
      (t.cmd p tag).aux1 = failed ∧ t.age.seq = s.age.seq + 1 ∧
      Tab.get [] t.age.log (s.age.seq % logRecords) = ledgerRecord 3 5 0 s.age.seq s.age.modOpSeconds
        (toLe 2 (c.f 50 2) ++ toLe 1 (c.f 52 1) ++ toLe 4 result ++ toLe 4 failed) ∧ Safety.onlyMemory s s1 ∧ Safety.leavesOutside s t c.ctx (c.f 56 8) b.length ∧
      t = ({ s1 with age := t.age } : State).updCmd p tag fun _ => t.cmd p tag

/-- CHECKPOINT and RESTORE (13 R344 to R350). That the engines share the sections as they do, and that a local header reaches memory as the command completes, is log entry 34. -/
def Obligations.CheckpointAndRestoreGoSectionBySection : Prop :=
  ∀ (p : Port) (tag : Tag) (s : State) (e : Eng) (k : SlotNo) (v : Slot),
    let c := s.cmd p tag
    let n := c.snapSecs
    let due := s.mem.awaited.find? fun g => s.mem.marked.contains (tagField p tag, g)
    s.peer.waiting = [] →
    (s.snapSlot p tag 0x0D c.sectionAt = some (e, k, v) →
      (∀ g t, due = some g → s.readEarly p tag g = .ok t →
        exec (.checkpoint p tag) s = .next t ∧ (tagField p tag, g) ∉ t.mem.marked) ∧
      (∀ b t, due = none → c.progress < n → c.section_ = some b → s.saveSection p tag e b = .ok t →
        exec (.checkpoint p tag) s = .next t ∧ (t.cmd p tag).progress = c.progress + 1 ∧
        (t.cmd p tag).snap.crcs = c.snap.crcs ++ [crc32 b] ∧ (t.cmd p tag).phase = c.phase) ∧
      (∀ t, due = none → c.progress < n → c.section_ = none →
        c.readPos e c.progress + c.snap.cur.length + c.snapPiece.2 ≤ s.landedTo (s.roleStrm e p tag 0) → s.readPiece p tag = .ok t →
        exec (.checkpoint p tag) s = .next t ∧ (∃ b, (t.cmd p tag).snap.cur = c.snap.cur ++ b) ∧
        (t.cmd p tag).progress = c.progress) ∧
      (due = none → c.progress = n → c.digestOnly = false → s.snapAcked p tag = true →
        ∃ t, exec (.checkpoint p tag) s = .next t ∧ t = s.updCmd p tag (fun _ => t.cmd p tag) ∧
          (t.cmd p tag).snap.header = s.snapHeader c ∧ (t.cmd p tag).progress = n + 1 ∧ (t.cmd p tag).phase = .running ∧
          (t.cmd p tag).snap.out = if c.atPeer then Tab.upd [] c.snap.out e.val (· ++ s.snapHeader c) else c.snap.out) ∧
      (due = none → (n < c.progress ∧ s.snapAcked p tag = true) ∨ (n ≤ c.progress ∧ c.digestOnly = true) →
        exec (.checkpoint p tag) s = .next (s.updCmd p tag fun x => { x with
          aux0 := x.snap.digest % 2 ^ 32, aux1 := x.snap.digest / 2 ^ 32, phase := .ended }))) ∧
    (s.snapSlot p tag 0x0E c.loadAt = some (e, k, v) → c.snap.header ≠ [] → (∀ q g, (s.cmd q g).op ≠ 0x0A) →
      let x := secEntry c.snap.header c.progress
      (∀ b s1, c.progress < fld c.snap.header 6 2 → x.1 = 1 → s.loadImage e p tag (c.loadPos e c.progress) x.2.2.1 x.2.2.2.1 = .ok (some b) →
        crc32 b = x.2.1 → s.vwrite c.ctx x.2.2.2.2 b = .ok s1 → exec (.restore p tag) s = .next (s1.updCmd p tag fun c =>
          { c with progress := c.progress + 1, snap := { c.snap with digest := crc64From c.snap.digest b } })) ∧
      (fld c.snap.header 6 2 ≤ c.progress →
        (c.snap.digest = fld c.snap.header 24 8 → exec (.restore p tag) s = .next (s.updCmd p tag fun x => { x with
          aux0 := x.snap.digest % 2 ^ 32, aux1 := x.snap.digest / 2 ^ 32, phase := .ended })) ∧
        (c.snap.digest ≠ fld c.snap.header 24 8 → c.status = none → ∃ t, exec (.restore p tag) s = .next t ∧
          (t.cmd p tag).status = some stFaultAbort)))

/-- COLLECTIVE starts (12 R305 to R309). -/
def Obligations.CollectiveStartsUnderItsGroupRecord : Prop :=
  ∀ (p : Port) (tag : Tag) (s : State) (g : GroupRec),
    let c := s.cmd p tag
    s.running p tag 0x0A = true → s.collIn p tag = true → c.coll.active = false → s.recordOf c = some g → g.state = 1 →
    s.collBehind c = false → s.peer.waiting = [] →
    (c.cfmt = 0 → ∃ s1 ins n, s.tileInputs c (Cmd.tileAcc c.xhdr) = .ready s1 ins n) →
    (c.cfmt ≠ 0 → c.sparse = true ∨ c.coll.reads = false ∨ ∃ ins, s.srcInputs c = .ok ins) →
    ∃ t, exec (.collective p tag) s = .next t ∧ (t.cmd p tag).coll.active = true ∧
      (t.cmd p tag).coll.gseq = g.seq.toNat ∧ (t.cmd p tag).coll.epoch = g.epoch.toNat ∧
      (t.cmd p tag).coll.digest = g.digest ∧ (t.cmd p tag).aux1 = g.seq.toNat % 2 ^ 32 ∧
      ∀ (e : Eng) (k : Nat), Tab.get {} (t.eng e).groups k =
        let r := Tab.get {} (s.eng e).groups k
        if e ∈ maskEngines c.mask ∧ r.state ≠ 0 ∧ r.id = c.gid then { r with seq := r.seq + 1 } else r

/-- DESCRIPTOR_FETCH (09 R201, R204, R223). What a fetch that faults does to the ring is log entry 69. -/
def Obligations.FetchTakesATagAndTheDescriptor : Prop :=
  ∀ (p : Port) (tag : Tag) (s : State) (r : RingNo),
    let g := s.ring p r
    let rd := s.vread g.ctx (g.base + 128 * (g.head.toNat % 2 ^ g.log2Len)) 128
    (s.cmd p tag).phase = .free → s.nextRing p = some r →
    ∃ t, exec (.descriptorFetch p tag) s = .next t ∧
      (∀ d, rd = .ok d →
        (t.cmd p tag).phase = .fetched ∧ (t.cmd p tag).desc = d ∧ (t.cmd p tag).ring = r ∧ (t.cmd p tag).ctx = g.ctx ∧
        (t.cmd p tag).count = g.head ∧ (t.cmd p tag).index = g.head.toNat % 2 ^ g.log2Len ∧
        (t.cmd p tag).status = (if g.cancelRanges.any (fun x => inRange x g.head) then some stCancelled else none) ∧
        (t.ring p r).head = g.head + 1 ∧ (t.ring p r).tail = g.tail ∧ (t.ring p r).state = g.state ∧ t.order = s.order + 1) ∧
      (∀ x, rd = .error x → (t.ring p r).state = .error ∧ (t.ring p r).err = 2 ∧ (t.ring p r).head = g.head ∧
        t.cmd p tag = s.cmd p tag ∧ t.order = s.order) ∧
      (∀ q, q ≠ r → t.ring p q = s.ring p q) ∧ (∀ k, k ≠ tag → t.cmd p k = s.cmd p k) ∧
      (∀ q, q ≠ p → t.port q = s.port q) ∧ t = { s with ports := t.ports, order := t.order }

/-- DESCRIPTOR_CHECKS (09 R215, R222, R428). Clauses on the points of log entry 21 rest on it (DEDUCED). -/
def Obligations.ChecksEndOrPassACommand : Prop :=
  ∀ (p : Port) (tag : Tag) (s : State),
    let c := s.inherit (s.cmd p tag)
    let ends := fun (c0 : Cmd) (st : Nat) => ∃ t, exec (.descriptorChecks p tag) s = .next t ∧ Safety.onlyCmd s t p tag ∧
      (t.cmd p tag).phase = .ended ∧ (t.cmd p tag).status = some st ∧
      (t.cmd p tag).noSignal = (s.wordHost c0 || (s.wordFault c0).isSome)
    let faults := ∃ t, exec (.descriptorChecks p tag) s = .next t ∧ (t.cmd p tag).phase = .ended ∧
      (t.cmd p tag).status = some stFaultAbort ∧ (t.cmd p tag).noSignal = true ∧ (t.cmd p tag).faultPosted = true
    (s.cmd p tag).phase = .fetched →
    (∀ st, (s.cmd p tag).status = some st → exec (.descriptorChecks p tag) s = .next (s.endCmd p tag st)) ∧
    ((s.cmd p tag).status = none →
      ((headerOk c && recordAddrsOk c && bodyOwnOk c) = false → ends c stBadDescriptor) ∧
      ((headerOk c && recordAddrsOk c && bodyOwnOk c) = true →
        (∀ got, s.fetchRecords c = .error (.bad, got) → ends c stBadDescriptor) ∧
        (∀ x got, s.fetchRecords c = .error (.at_ x, got) →
          let known := c.soFar got
          let early := known.soFarOk && s.semOk c && s.collOk c && !s.wordHost c
          let barred := s.denied known
          let cut := s.namesIsolated known
          (early = false → ends c stBadDescriptor) ∧
          (early = true → barred = true → ends c stDenied) ∧
          (early = true → barred = false → cut = true → ends c stDropped) ∧
          (early = true → barred = false → cut = false → x.kind = 3 → ∃ t,
            exec (.descriptorChecks p tag) s = .next t ∧ (t.cmd p tag).phase = .priWait ∧ (t.cmd p tag).copies = got ∧
            t.mem.pri.length = s.mem.pri.length + 1) ∧
          (early = true → barred = false → cut = false → x.kind ≠ 3 → faults)) ∧
        ∀ c', s.fetchRecords c = .ok c' →
          let rules := bodyOk c' && s.semOk c' && s.collOk c' && !s.wordHost c'
          let stale := (s.collRecords c').any fun g => match g with | some r => r.2.state == 2 | none => false
          let clear := rules = true ∧ s.denied c' = false ∧ s.namesIsolated c' = false ∧ s.wordFault c' = none
          (rules = false → ends c' stBadDescriptor) ∧
          (rules = true → s.denied c' = true → ends c' stDenied) ∧
          (rules = true → s.denied c' = false → s.namesIsolated c' = true → ends c' stDropped) ∧
          (rules = true → s.denied c' = false → s.namesIsolated c' = false → (s.wordFault c').isSome = true → faults) ∧
          (clear → c'.op = 0x0A → stale = true → ∃ t, exec (.descriptorChecks p tag) s = .next t ∧ Safety.onlyCmd s t p tag ∧
            (t.cmd p tag).phase = .ended ∧ (t.cmd p tag).status = some stFaultAbort) ∧
          (clear → c'.op = 0x0A → stale = false → ∃ t, exec (.descriptorChecks p tag) s = .next t ∧ Safety.onlyCmd s t p tag ∧
            (t.cmd p tag).phase = .ordering ∧ (t.cmd p tag).status = none) ∧
          (clear → c'.op ≠ 0x0A → ∃ t, exec (.descriptorChecks p tag) s = .next t ∧
            t = s.updCmd p tag (fun _ => { c' with phase := if c'.op = 0x0C then .running else .ordering }) ∧
            c'.prec = (s.ctx (s.cmd p tag).ctx).defPrec ∧ c'.seed = (s.ctx (s.cmd p tag).ctx).seed ∧
            c'.groupTable = (s.ctx (s.cmd p tag).ctx).groupTable)))

/-- Steps 3 and 4 (09 R215 to R217; 08 R178, R181, R190). What ordering waits for, and what a semaphore wait or a command that has nothing to wait for does, is log entries 1 and 22. -/
def Obligations.OrderingSemaphoreAndPredicate : Prop :=
  (∀ (p : Port) (tag : Tag) (s : State),
    let c := s.cmd p tag
    (c.phase = .ordering → s.ordered c = true → exec (.orderingRelease p tag) s = .next (s.updCmd p tag fun x => { x with
      phase := if x.waitEn then .semaphore else if x.reads4 then .predicate else .admission })) ∧
    (c.phase = .ordering → s.ordered c = false → exec (.orderingRelease p tag) s = .next s)) ∧
  (∀ (p : Port) (tag : Tag) (s : State),
    let c := s.cmd p tag
    c.phase = .semaphore →
    (∀ pa, s.xlate c.ctx (s.semAddr c (c.f 4 2)) false = .hbm pa →
      exec (.semaphoreWaitMet p tag) s = .next (if c.f 8 8 ≤ leNat (s.hbmRead pa 8) then
        s.updCmd p tag (fun x => { x with phase := if x.reads4 then .predicate else .admission }) else s)) ∧
    (∀ h ha, s.xlate c.ctx (s.semAddr c (c.f 4 2)) false = .host h ha → ∃ t, exec (.semaphoreWaitMet p tag) s = .next t ∧
      (t.cmd p tag).phase = .ended ∧ (c.status = none → (t.cmd p tag).status = some stFaultAbort) ∧ (t.cmd p tag).noSignal = true)) ∧
  (∀ s : State, ∃ t, exec .semaphoreRetest s = .next t ∧ t.mem.hbm = s.mem.hbm ∧ ∀ (p : Port) (tag : Tag),
    let c := s.cmd p tag
    (c.phase ≠ .semaphore → t.cmd p tag = c) ∧
    (c.phase = .semaphore → ∀ pa, s.xlate c.ctx (s.semAddr c (c.f 4 2)) false = .hbm pa →
      t.cmd p tag = if c.f 8 8 ≤ leNat (s.hbmRead pa 8) then
        { c with phase := if c.reads4 then .predicate else .admission } else c)) ∧
  (∀ (p : Port) (tag : Tag) (s : State),
    let c := s.cmd p tag
    c.phase = .predicate → c.predOp ≠ 0 →
    (∀ pa, s.xlate c.ctx (c.f 24 8) false = .hbm pa → ((c.op ≠ 0x01 ∧ c.op ≠ 0x02) ∨ (c.mm 0).gather = 0) →
      (predTrue c.predOp (leNat (s.hbmRead pa 8)) (c.f 32 8) = true →
        exec (.predicateRead p tag) s = .next (s.updCmd p tag fun x => { x with phase := .admission })) ∧
      (predTrue c.predOp (leNat (s.hbmRead pa 8)) (c.f 32 8) = false → ∃ t, exec (.predicateRead p tag) s = .next t ∧
        t.cmd p tag = { c with phase := .ended, predSkipped := true } ∧
        t = ({ s with engines := t.engines } : State).updCmd p tag (fun _ => t.cmd p tag) ∧
        ∀ e, t.eng e = if s.namedEngine c = some e then (s.eng e).bump 0x870 1 else s.eng e)) ∧
    (∀ h ha, s.xlate c.ctx (c.f 24 8) false = .host h ha → ∃ t, exec (.predicateRead p tag) s = .next t ∧
      (t.cmd p tag).phase = .ended ∧ (c.status = none → (t.cmd p tag).status = some stFaultAbort) ∧ (t.cmd p tag).noSignal = true)) ∧
  ∀ (p : Port) (tag : Tag) (s : State) (b : List Byte),
    let c := s.cmd p tag
    let x := c.mm 0
    let c1 := { c with accepted := fld b 0 4 }
    c.phase = .predicate → (c.op = 0x01 ∨ c.op = 0x02) → x.gather ≠ 0 → s.vread c.ctx x.countAddr 4 = .ok b →
    (c.predOp = 0 ∨ ∃ pa, s.xlate c.ctx (c.f 24 8) false = .hbm pa ∧
      predTrue c.predOp (leNat (s.hbmRead pa 8)) (c.f 32 8) = true) →
    (fld b 0 4 = 0 → exec (.predicateRead p tag) s = .next (s.updCmd p tag fun _ => { c1 with phase := .ended })) ∧
    (fld b 0 4 ≠ 0 → c1.gatherOk = true →
      exec (.predicateRead p tag) s = .next (s.updCmd p tag fun _ => { c1 with phase := .admission })) ∧
    (fld b 0 4 ≠ 0 → c1.gatherOk = false → c.status = none → ∃ t, exec (.predicateRead p tag) s = .next t ∧
      Safety.onlyCmd s t p tag ∧ (t.cmd p tag).phase = .ended ∧ (t.cmd p tag).status = some stBadDescriptor)

/-- ADMISSION (09 R215; 10 R256, R257). That a choice of an engine stays while the command waits is log entry 9; what waits at step 5 for a page, log entry 27. -/
def Obligations.AdmissionTakesASlotOfEveryEngine : Prop :=
  ∀ (p : Port) (tag : Tag) (s : State),
    let c := s.cmd p tag
    let es := s.enginesAt5 c
    c.phase = .admission → ¬(c.op = 0x08 ∧ c.f 50 1 = 1) →
    (c.needsEngine = false → exec (.admission p tag) s = .next (s.updCmd p tag fun x => { x with phase := .running })) ∧
    (c.needsEngine = true → (es = [] ∨ ∃ e ∈ es, s.isolated e = true) →
      exec (.admission p tag) s = .next (s.endCmd p tag stDropped)) ∧
    (c.needsEngine = true → es ≠ [] → (∀ e ∈ es, s.isolated e = false) →
      (s.tooLarge c es = true → exec (.admission p tag) s = .next (s.endCmd p tag stWorkset)) ∧
      (s.tooLarge c es = false → s.room c es = false → exec (.admission p tag) s = .next (s.updCmd p tag fun x =>
        { x with chosen := if x.op = 0x04 ∨ x.op = 0x05 ∨ x.op = 0x07 ∨ x.op = 0x09 then es.head? else x.chosen })) ∧
      (∀ st, s.tooLarge c es = false → s.room c es = true → s.readStep5 c = .stop st →
        exec (.admission p tag) s = .next (s.endCmd p tag st)) ∧
      (∀ c' va, s.tooLarge c es = false → s.room c es = true → s.readStep5 c = .page c' va →
        ∃ t, exec (.admission p tag) s = .next t ∧ t.cmd p tag = { c' with phase := .priWait5 } ∧ t.engines = s.engines) ∧
      (s.tooLarge c es = false → s.room c es = true → ∀ c', s.readStep5 c = .go c' →
        ∃ t, exec (.admission p tag) s = .next t ∧ (t.cmd p tag).phase = .running ∧
          (∀ e ∈ es, (t.eng e).admitCount = (s.eng e).admitCount + 1 ∧ ∃ k, (s.slot e k).state = .free ∧
            (t.slot e k).state = .admitted ∧ (t.slot e k).port = p ∧ (t.slot e k).tag = tag ∧ (t.slot e k).ctx = c'.ctx ∧
            (t.slot e k).opcode = c'.op ∧ (t.slot e k).admitSeq = (s.eng e).admitCount ∧ (t.slot e k).workset = s.workset c e) ∧
          ∀ e, e ∉ es → (t.eng e).slots = (s.eng e).slots ∧ (t.eng e).named = (s.eng e).named ∧
            (t.eng e).admitCount = (s.eng e).admitCount))

/-- COMMAND_VISIBILITY (09 R206, R215, R217, R218). What it does while its condition does not hold is the model's choice (DESIGN CHOICE, log entry 1); that a CHECKPOINT's header reaches memory here is log entry 34. -/
def Obligations.VisibilitySignalsAndReturnsWhatItHeld : Prop :=
  ∀ (p : Port) (tag : Tag) (s : State),
    let c := s.cmd p tag
    let go := s.drains p tag = false ∧ s.writesOut p tag = true ∧ s.joinOpen p tag = false
    let header := c.op = 0x0D ∧ c.atPeer = false ∧ c.finalStatus < 0x10 ∧ c.snap.header ≠ []
    c.phase = .ended →
    (¬go → exec (.commandVisibility p tag) s = .next s) ∧
    (go → ∀ g, s.headerWaits p tag = some g → exec (.commandVisibility p tag) s = .next (s.awaitPage g)) ∧
    (go → s.headerWaits p tag = none → Memory.wf s.mem.hbm = true → (s.ctx c.ctx).state ≠ .aborting → (∀ q g, (s.cmd q g).op ≠ 0x0A) → s.peer.waiting = [] →
      ∃ t, exec (.commandVisibility p tag) s = .next t ∧ (t.cmd p tag).phase = .record ∧ (t.cmd p tag).time = s.hk ∧
        t.cmdSlots p tag = [] ∧ (∀ e i, (t.strm e i).state ≠ .idle → (t.strm e i).port ≠ p ∨ (t.strm e i).tag ≠ tag) ∧
        (header → c.signals = false →
          t.mem.hbm = (s.vwriteGo s c.ctx 3 (c.f 64 8) c.snap.header).mem.hbm ∧
          t.mem.host = (s.vwriteGo s c.ctx 3 (c.f 64 8) c.snap.header).mem.host) ∧
        (¬header → ∀ pa, c.signals = true → s.semIndexOk c (c.f 6 2) = true → s.xlate c.ctx (s.semAddr c (c.f 6 2)) true = .hbm pa →
          (∀ i < 8, s.served (pa + i) = true) →
          leNat (t.hbmRead pa 8) = c.sigValue (leNat (s.hbmRead pa 8)) % 2 ^ 64 ∧ (t.cmd p tag).signalled = true) ∧
        (¬header → c.signals = false ∨ s.semIndexOk c (c.f 6 2) = false →
          t.mem.hbm = s.mem.hbm ∧ (t.cmd p tag).signalled = c.signalled) ∧
        (¬header → ∀ h ha, c.signals = true → s.semIndexOk c (c.f 6 2) = true → s.xlate c.ctx (s.semAddr c (c.f 6 2)) true = .host h ha →
          c.status = none → (t.cmd p tag).status = some stFaultAbort ∧ t.mem.hbm = s.mem.hbm))

/-- COMPLETION_RECORD_WRITE (09 R205 to R207, R220, R225, R429). That a disabled or full ring leaves everything as it is is log entry 1; where a record goes whose context is freed, log entry 66. -/
def Obligations.RecordsAreWrittenOrDiscarded : Prop :=
  ∀ (p : Port) (tag : Tag) (s : State),
    let c := s.cmd p tag
    let x := s.cqOf c
    let q := s.cq x.1 x.2
    let va := q.base + 32 * (q.tail.toNat % 2 ^ q.log2Len)
    let at_ := s.xlateIn (s.ctxOf c) va true
    let discards := fun (err : Bool) => ∃ t, exec (.completionRecordWrite p tag) s = .next t ∧ (t.cmd p tag).phase = .free ∧
      t.cq x.1 x.2 = { q with discarded := q.discarded + 1, state := if err then .error else q.state } ∧ t.mem = s.mem
    c.phase = .record → c.recordPri = false → (s.ctx c.ctx).state ≠ .aborting →
    (q.state = .disabled → exec (.completionRecordWrite p tag) s = .next s) ∧
    (q.state = .error → discards false) ∧
    (q.state = .active →
      ((∃ pa, at_ = .hbm pa) ∨ ((∃ h ha, at_ = .host h ha) ∧ (s.port x.1).isDown = false) →
        (q.full = true → exec (.completionRecordWrite p tag) s = .next s) ∧
        (q.full = false → ∃ t, exec (.completionRecordWrite p tag) s = .next t ∧ (t.cmd p tag).phase = .free ∧
          (t.cq x.1 x.2).tail = q.tail + 1 ∧ (t.cq x.1 x.2).head = q.head ∧ (t.cq x.1 x.2).state = .active ∧
          (t.ring x.1 c.ring).done = (s.ring x.1 c.ring).done + (if c.home.isNone then 1 else 0) ∧
          t.mem = (s.storeAt at_ (s.recordBytes p tag (!bitOf q.tail.toNat q.log2Len))).mem ∧
          (q.raised = true → t.out = s.out))) ∧
      (∀ h ha, at_ = .host h ha → (s.port x.1).isDown = true → discards false) ∧
      (at_ = .fault 3 → (s.port x.1).isDown = true → discards false) ∧
      (at_ = .fault 3 → (s.port x.1).isDown = false → ∃ t, exec (.completionRecordWrite p tag) s = .next t ∧
        (t.cmd p tag).phase = .record ∧ (t.cmd p tag).recordPri = true ∧ t.mem.pri.length = s.mem.pri.length + 1) ∧
      (∀ k, at_ = .fault k → k ≠ 3 → discards true))

/-- The doorbell pages and MOD_TIME (09 R201, R202, R207; 16 R394). When the vector is raised is log entry 18. What a command does while its condition does not hold is the model's choice (DESIGN CHOICE, log entry 1). -/
def Obligations.DoorbellsAndHeads : Prop :=
  (∀ (p : Port) (f : Fn) (r : RingNo) (size : Nat) (v : W64) (s : State),
    let g := s.ring p r
    let new : W32 := v.setWidth 32
    let go := s.boot.ready = true ∧ size = 8 ∧ s.ringHolder p r = f ∧ g.state = .active
    (¬go → exec (.submissionDoorbell p f r size v) s = .next s) ∧
    (go → (new - g.head).toNat ≤ 2 ^ g.log2Len → (g.tail - g.head).toNat ≤ (new - g.head).toNat →
      exec (.submissionDoorbell p f r size v) s = .next (s.updRing p r fun x => { x with tail := new })) ∧
    (go → ¬((new - g.head).toNat ≤ 2 ^ g.log2Len ∧ (g.tail - g.head).toNat ≤ (new - g.head).toNat) →
      ∃ t, exec (.submissionDoorbell p f r size v) s = .next t ∧ (t.ring p r).state = .error ∧
        (t.ring p r).err = (if 2 ^ g.log2Len < (new - g.head).toNat then 1 else 4) ∧ (t.ring p r).head = g.head ∧
        (t.ring p r).tail = g.tail ∧ (t.cq p g.cq).raised = true ∧ (∀ q, q ≠ r → t.ring p q = s.ring p q) ∧
        ∀ k, t.cmd p k = s.cmd p k)) ∧
  (∀ (p : Port) (f : Fn) (c : CqNo) (size : Nat) (v : W64) (s : State),
    let q := s.cq p c
    let new : W32 := v.setWidth 32
    let go := s.boot.ready = true ∧ (size = 4 ∨ size = 8) ∧ s.cqHolder p c = f ∧
      (new - q.head).toNat ≤ (q.tail - q.head).toNat
    (¬go → exec (.completionRingHead p f c size v) s = .next s) ∧
    (go → ∃ t, exec (.completionRingHead p f c size v) s = .next t ∧
      t.cq p c = { q with head := new, raised := decide (q.state ≠ .disabled ∧ q.modCount ≤ (q.tail - new).toNat) } ∧
      (∀ d, d ≠ c → t.cq p d = s.cq p d) ∧ t = { s with ports := t.ports, out := t.out })) ∧
  ∀ (p : Port) (c : CqNo) (s : State),
    let q := s.cq p c
    q.state ≠ .disabled → q.modTime ≠ 0 → q.tail ≠ q.head →
    ∃ t, exec (.modTimeExpiry p c) s = .next t ∧ t.cq p c = { q with raised := true } ∧
      (∀ d, d ≠ c → t.cq p d = s.cq p d) ∧ (q.raised = true → t = s) ∧ t = { s with ports := t.ports, out := t.out }

/-- SCALE_TRACKER_ACCESS (11 R279, R280) and TABLE_BUILD (06). Which stage the builder serves, and when it begins again, is log entry 27. What a command does while its condition does not hold is the model's choice (DESIGN CHOICE, log entry 1). -/
def Obligations.ScaleEntriesAndTablesAreKept : Prop :=
  (∀ (q : Part) (n : ScaleNo) (step : W32) (rep : Option (Option Int × Nat)) (s : State),
    ∃ t, exec (.scaleTrackerAccess q n step rep) s = .next t ∧
      (rep = none → laterStep step (s.scaleEnt q n.val).step = false → t.scaleEnt q n.val = s.scaleEnt q n.val) ∧
      (rep = none → laterStep step (s.scaleEnt q n.val).step = true →
        let en := s.scaleEnt q n.val
        let up := t.scaleEnt q n.val
        (en.stepMax = none → up.est = en.est) ∧ (∀ m, en.stepMax = some m → en.est = none → up.est = some m) ∧
        (∀ m x, en.stepMax = some m → en.est = some x → up.est = some (x + asr ((m - x) * en.smooth) 8)) ∧
        (up.est = none → up.scale = en.scale ∧ up.raises = en.raises ∧ up.satFlag = en.satFlag) ∧
        (∀ v, up.est = some v →
          let b := ceilDivI (v + 256 - en.top) 256
          (0 < en.satStep → up.scale = clampI (-128) 127 (max b (en.scale + 2)) ∧ up.raises = satAdd 16 en.raises 1 ∧ up.satFlag = true) ∧
          (en.satStep = 0 → up.scale = clampI (-128) 127 (if en.scale < b then b else if b ≤ en.scale - 2 then en.scale - 1 else en.scale) ∧
            up.raises = en.raises ∧ up.satFlag = false)) ∧
        up = { en with
          step := step, stepMax := none, satStep := 0, reports := 0, est := up.est, scale := up.scale
          raises := up.raises, satFlag := up.satFlag }) ∧
      (∀ mag sat, rep = some (mag, sat) → t.scaleEnt q n.val = (s.scaleEnt q n.val).report step mag sat) ∧
      (∀ m, m ≠ n.val → t.scaleEnt q m = s.scaleEnt q m) ∧ (∀ r, r ≠ q → t.part r = s.part r) ∧
      t = { s with parts := t.parts }) ∧
  ∀ (e : Eng) (s : State) (w : Serial) (n u blk : Nat) (bytes : List Byte) (built skipped : Nat),
    let c := s.cmd w.slot.port w.slot.tag
    let x := c.mm w.stage
    let b := s.builderFor e w
    s.serialAt e = some w → fillAt x w.units 0 b.next = some (n, u, blk) → b.next ≤ w.current x + 1 →
    s.inReset e = false → s.isolated e = false → s.bankIn e w n u blk = true →
    (s.asLanded e w.slot).bankOf c.ctx x (c.srcOf w.stage (x.unitC u)) u blk b.lo = .ok (bytes, built, skipped) →
    ∃ t, exec (.tableBuild e) s = .next t ∧ Tab.get [] (t.eng e).banks (b.next % 2) = bytes ∧
      Tab.get [] (t.eng e).banks (1 - b.next % 2) =
        (if (s.eng e).builder = some b then Tab.get [] (s.eng e).banks (1 - b.next % 2) else []) ∧
      (t.eng e).builder = some { b with next := b.next + 1, lo := 0 } ∧
      Tab.get 0 (t.eng e).counts 7 = satAdd 64 (Tab.get 0 (s.eng e).counts 7) built ∧
      Tab.get 0 (t.eng e).counts 8 = satAdd 64 (Tab.get 0 (s.eng e).counts 8) skipped ∧
      (∀ j, t.slot e j = if (s.eng e).builder ≠ some b ∧ j = w.no then { s.slot e j with lanes := Tab.set (s.slot e j).lanes w.stage {} }
        else s.slot e j) ∧
      t.eng e = { s.eng e with banks := (t.eng e).banks, builder := (t.eng e).builder, counts := (t.eng e).counts, slots := (t.eng e).slots } ∧
      (∀ d, d ≠ e → t.eng d = s.eng d) ∧ t = { s with engines := t.engines }

/-- TASK_SWITCH and SWITCH_BACK (10 R247 to R249; 14 R361). When a head lacks data, and that the test of it adds 256 cycles at once, is log entry 26; what a stopped engine is, log entry 42. -/
def Obligations.TaskSwitchesParkAndBringBack : Prop :=
  let switched := fun (e : Eng) (h k : SlotNo) (s t : State) =>
    (t.eng e).head = some k ∧ (t.slot e k).state = .ready ∧
    t.slot e h = { s.slot e h with state := .parked, tile := (t.slot e h).tile } ∧
    (t.tileOf e h).entries = (s.tileOf e h).entries ∧ (t.tileOf e k).entries = (s.tileOf e k).entries ∧
    Tab.get 0 (t.eng e).counts 17 = satAdd 64 (Tab.get 0 (s.eng e).counts 17) 1 ∧
    Tab.get 0 (t.eng e).counts 18 = (if (s.tileOf e h).state = .busy then satAdd 64 (Tab.get 0 (s.eng e).counts 18) 1
      else Tab.get 0 (s.eng e).counts 18)
  let frame := fun (e : Eng) (s t : State) => (t.eng e).streams = (s.eng e).streams ∧
    (∀ d, d ≠ e → t.eng d = s.eng d) ∧ t = { s with engines := t.engines }
  (∀ (e : Eng) (h : SlotNo) (s : State),
    let v := s.slot e h
    (s.eng e).head = some h → s.lateData e v = true → s.betweenSteps v = true →
    s.dbg.quiesce.getLsbD e.val = false →
    ∃ t, exec (.taskSwitch e) s = .next t ∧ frame e s t ∧
      Tab.get 0 (t.eng e).counts 16 = satAdd 64 (Tab.get 0 (s.eng e).counts 16) 256 ∧
      (∀ k, s.earliest e ((List.finRange 4).filter fun k => k != h && s.readyFor e k) = some k →
        switched e h k s t ∧ ∀ j, j ≠ h → j ≠ k → t.slot e j = s.slot e j) ∧
      (s.earliest e ((List.finRange 4).filter fun k => k != h && s.readyFor e k) = none →
        (t.eng e).head = some h ∧ (t.eng e).slots = (s.eng e).slots)) ∧
  ∀ (e : Eng) (s : State),
    let ks := (List.finRange 4).filter fun k => (s.slot e k).state == .parked && s.readyFor e k
    let stopped := (s.part (partOf e)).preempting && s.atBoundary e
    s.dbg.quiesce.getLsbD e.val = false →
    (stopped = true → exec (.switchBack e) s = .next s) ∧
    (∀ k, stopped = false → (s.eng e).head = none → s.earliest e ks = some k →
      ∃ t, exec (.switchBack e) s = .next t ∧ frame e s t ∧ (t.eng e).head = some k ∧ (t.slot e k).state = .ready ∧
        Tab.get 0 (t.eng e).counts 17 = satAdd 64 (Tab.get 0 (s.eng e).counts 17) 1 ∧
        ∀ j, j ≠ k → t.slot e j = s.slot e j) ∧
    ∀ h k, stopped = false → (s.eng e).head = some h →
      s.earliest e (ks.filter fun k => decide ((s.slot e k).admitSeq < (s.slot e h).admitSeq)) = some k →
      ((s.slot e h).atStart = true ∨ (s.lateData e (s.slot e h) = true ∧ s.betweenSteps (s.slot e h) = true)) →
      ∃ t, exec (.switchBack e) s = .next t ∧ frame e s t ∧ switched e h k s t ∧
        ∀ j, j ≠ h → j ≠ k → t.slot e j = s.slot e j

/-- The stream unit (10 R229 to R242, R254, R259). What is released, when a block is given up and when a tile map is read is log entry 24; that a grant without a winner changes nothing is log entry 1. -/
def Obligations.StreamsIssueLandAndRelease : Prop :=
  (∀ (q : Part) (s : State) (e : Eng) (i : StreamNo) (va b : Nat),
    let x := s.strm e i
    (s.part q).window = false → s.winner q = some (e, i) → s.nextReq e x = some (va, b) → partOf e = q → va < peerBase →
    ((s.mapOwed x).isSome = true → exec (.streamRequestGrant q) s = .next (s.takeMap x.port x.tag (x.role / 16))) ∧
    ((s.mapOwed x).isSome = false → ∃ t, exec (.streamRequestGrant q) s = .next t ∧
      (∀ y ∈ s.pelotonOf e i, (t.strm y.1 y.2).position = (s.strm y.1 y.2).position + b ∧
        (t.strm y.1 y.2).landed = (s.strm y.1 y.2).landed ∧ (t.strm y.1 y.2).consumed = (s.strm y.1 y.2).consumed) ∧
      (t.strm e i).reqs = x.reqs ++ [{ queue := s.queueFor x va, off := x.position, va := va, bytes := b }] ∧
      t.part q = (s.part q).spend x (s.queueFor x va) b ∧ (∀ r, r ≠ q → t.part r = s.part r) ∧
      (∀ d, (t.eng d).slots = (s.eng d).slots ∧ (t.eng d).named = (s.eng d).named) ∧
      t = { s with engines := t.engines, parts := t.parts })) ∧
  (∀ (q : Part) (s : State), (s.part q).window = true ∨ s.winner q = none → exec (.streamRequestGrant q) s = .next s) ∧
  (∀ (e : Eng) (i : StreamNo) (n : Nat) (s : State) (r : Req),
    let x := s.strm e i
    let tests := (s.cmd x.port x.tag).lazy_ = true ∧ x.role = 1
    x.reqs[n]? = some r → x.isRead = true → r.txn = none →
    (r.melt = false → r.reclaim = false →
      ∃ t, exec (.streamReadLanded e i n) s = .next t ∧ (t.strm e i).reqs = x.reqs.eraseIdx n ∧
        (∀ y ∈ s.pelotonOf e i, (t.strm y.1 y.2).landed = (s.strm y.1 y.2).landed + r.bytes) ∧
        (∀ d j, (d, j) ∉ s.pelotonOf e i → (d ≠ e ∨ j ≠ i) → (t.strm d j).position = (s.strm d j).position ∧
          (t.strm d j).landed = (s.strm d j).landed ∧ (t.strm d j).consumed = (s.strm d j).consumed ∧
          (t.strm d j).reqs = (s.strm d j).reqs ∧ (¬tests → t.strm d j = s.strm d j)) ∧
        t = { s with engines := t.engines, ports := t.ports } ∧ (¬tests → t.ports = s.ports)) ∧
    (r.melt = true →
      ∃ t, exec (.streamReadLanded e i n) s = .next t ∧ (t.strm e i).reqs = x.reqs.eraseIdx n ∧ (t.strm e i).landed = x.landed ∧
        (t.strm e i).meltBytes = x.meltBytes + r.bytes ∧ (t.cmd x.port x.tag).melted = (s.cmd x.port x.tag).melted + r.bytes ∧
        Tab.get 0 (t.eng e).counts 21 = satAdd 64 (Tab.get 0 (s.eng e).counts 21) r.bytes ∧
        (∀ d j, (d ≠ e ∨ j ≠ i) → t.strm d j = s.strm d j) ∧ t = { s with engines := t.engines, ports := t.ports })) ∧
  (∀ (e : Eng) (i : StreamNo) (n : Nat) (s : State) (r : Req),
    let x := s.strm e i
    x.reqs[n]? = some r → x.isRead = false → r.txn = none →
    ∃ t, exec (.streamWriteAcknowledged e i n) s = .next t ∧ (t.strm e i).reqs = x.reqs.eraseIdx n ∧
      (t.strm e i).landed = x.landed + r.bytes ∧ (t.strm e i).position = x.position ∧
      (∀ d j, (d ≠ e ∨ j ≠ i) → t.strm d j = s.strm d j) ∧ t = { s with engines := t.engines }) ∧
  (∀ (e : Eng) (i : StreamNo) (n : Nat) (s : State) (r : Req),
    (s.strm e i).reqs[n]? = some r → r.txn.isSome = true →
    ((s.strm e i).isRead = true → exec (.streamReadLanded e i n) s = .next s) ∧
    ((s.strm e i).isRead = false → exec (.streamWriteAcknowledged e i n) s = .next s)) ∧
  (∀ (e : Eng) (i : StreamNo) (s : State),
    let x := s.strm e i
    let next := s.slotEnd e x x.consumed
    let at_ := (s.cmd x.port x.tag).stageAt e (s.slot e (Fin.ofNat 4 x.task)) (x.role / 16)
    x.state ≠ .idle → x.state ≠ .melting → x.isRead = true →
    (s.starved e i = false → x.consumed ≠ next → next ≤ s.releasable e x →
      ∃ t, exec (.slotRelease e i) s = .next t ∧ (t.strm e i).consumed = next ∧ (t.strm e i).position = x.position ∧
        (t.strm e i).landed = x.landed ∧ (t.strm e i).reqs = x.reqs ∧
        (∀ d j, (d ≠ e ∨ j ≠ i) → t.strm d j = s.strm d j) ∧ t = { s with engines := t.engines }) ∧
    (s.starved e i = true → x.peloton = 0 →
      let u := s.giveUpKept e i
      let y := u.strm e i
      let next' := u.slotEnd e y y.consumed
      (y.consumed ≠ next' → next' ≤ u.releasable e y → ∃ t, exec (.slotRelease e i) s = .next t ∧
        (t.strm e i).refetch = x.refetch ++ [at_ + 1] ∧ (t.strm e i).position = x.position ∧ (t.strm e i).consumed = next' ∧
        (∀ d j, (d ≠ e ∨ j ≠ i) → t.strm d j = s.strm d j) ∧ t = { s with engines := t.engines }) ∧
      (y.consumed = next' ∨ u.releasable e y < next' → exec (.slotRelease e i) s = .next s))) ∧
  ∀ (e : Eng) (s : State), ∃ t, exec (.rateWindowExpiry e) s = .next t ∧
    (∀ i, t.strm e i = if (s.strm e i).state = .idle then s.strm e i else
      let c := s.consumedOf e (s.strm e i)
      { s.strm e i with windowStart := c, rate := if c ≤ (s.strm e i).windowStart then (s.strm e i).rate
        else c - (s.strm e i).windowStart }) ∧
    (∀ d, d ≠ e → t.eng d = s.eng d) ∧ t = { s with engines := t.engines }

/-- Faults inside a stream, page responses and the melt (10 R250 to R255). What a command does while its condition does not hold is the model's choice (DESIGN CHOICE, log entry 1); where a step-4 page fault leaves its command is log entry 19's and 21's. -/
def Obligations.StreamFaultsHaltResumeAndMelt : Prop :=
  (∀ (e : Eng) (i : StreamNo) (s : State) (va b k : Nat),
    let x := s.strm e i
    x.state = .issuing → x.kind ≠ 3 → s.standing e i ≠ 2 → x.peloton = 0 → s.nextReq e x = some (va, b) → va < handBase →
    s.xlate (s.cmd x.port x.tag).ctx va (!x.isRead) = .fault k →
    ∃ t, exec (.streamTranslationFault e i) s = .next t ∧ t.mem.lastFaultId = nextFault s.mem.lastFaultId ∧
      (t.cmd x.port x.tag).faultPosted = true ∧ t.mem.hbm = s.mem.hbm ∧
      (k ≠ 4 → (t.strm e i).state = .halted ∧ (t.strm e i).position = x.position ∧ (t.strm e i).faultKind = k ∧
        (t.strm e i).faultId = nextFault s.mem.lastFaultId ∧
        Tab.get 0 (t.eng e).counts 20 = satAdd 64 (Tab.get 0 (s.eng e).counts 20) 1 ∧
        (t.cmd x.port x.tag).phase = (s.cmd x.port x.tag).phase ∧
        t.mem.pri.length = s.mem.pri.length + (if k = 3 then 1 else 0)) ∧
      (k = 4 → (s.cmd x.port x.tag).phase = .running → (s.cmd x.port x.tag).status = none →
        (t.cmd x.port x.tag).phase = .cancelling ∧ (t.cmd x.port x.tag).status = some stFaultAbort)) ∧
  (∀ (n : Nat) (s : State) (r : PriReq), s.mem.pri[n]? = some r →
    (∃ t, exec (.priResponse n true) s = .next t ∧ (s.mem.pri.eraseIdx n <+: t.mem.pri) ∧
      ((∀ p g, r.wait ≠ .step4 p g) → t.mem.pri = s.mem.pri.eraseIdx n) ∧
      (∀ e i id, r.wait = .stream e i id →
        ((s.strm e i).faultId = id → (s.strm e i).state = .halted → (s.strm e i).peloton = 0 →
          t.strm e i = { s.strm e i with state := .issuing, faultId := 0, faultKind := 0 })) ∧
      (∀ p g, r.wait = .fetch p g → (s.cmd p g).phase = .priWait → t.cmd p g = { s.cmd p g with phase := .fetched }) ∧
      (∀ p g, r.wait = .step5 p g → (s.cmd p g).phase = .priWait5 → t.cmd p g = { s.cmd p g with phase := .admission }) ∧
      (∀ p g, r.wait = .record p g → t.cmd p g = { s.cmd p g with recordPri := false })) ∧
    ∃ t, exec (.priResponse n false) s = .next t ∧ t.mem.pri.Sublist (s.mem.pri.eraseIdx n) ∧
      (∀ p g, r.wait = .fetch p g → (s.cmd p g).phase = .priWait → (s.cmd p g).status = none → (t.cmd p g).phase = .ended ∧
        (t.cmd p g).status = some stFaultAbort ∧ (t.cmd p g).noSignal = true) ∧
      (∀ p g, ((r.wait = .step4 p g ∧ (s.cmd p g).phase = .priWait4) ∨ (r.wait = .step5 p g ∧ (s.cmd p g).phase = .priWait5)) →
        (s.cmd p g).status = none → (t.cmd p g).phase = .ended ∧ (t.cmd p g).status = some stFaultAbort ∧
        (t.cmd p g).noSignal = (s.cmd p g).noSignal)) ∧
  ∀ (p : Port) (tag : Tag) (s : State), (s.cmd p tag).phase = .cancelling →
    let flying := (s.cmdSlots p tag).any fun x => s.readsInFlight x.1 p tag
    (s.drains p tag = false → flying = false →
      exec (.meltComplete p tag) s = .next (s.updCmd p tag fun c => { c with phase := .ended })) ∧
    (s.drains p tag = true ∨ flying = true → exec (.meltComplete p tag) s = .next s)

/-- CTX_CREATE and CTX_ADOPT (09 R225, R226; 16 R389, R390). The order of the reasons is log entry 12, what an adoption does to the host mappings log entry 17, which rings return to their reset values and a context of a port that is down log entry 19, PAUSED log entry 20. What a command does while its condition does not hold is the model's choice (DESIGN CHOICE, log entry 1). -/
def Obligations.ContextsAreCreatedAndAdopted : Prop :=
  (∀ (p : Port) (f : Fn) (c : CtxNo) (s : State),
    let b := (s.area p f).stage
    (s.areaFree p f = false → exec (.ctxCreate p f c) s = .next s) ∧
    (s.areaFree p f = true → ∃ t, exec (.ctxCreate p f c) s = .next t ∧
      (s.createReason p f c = 0 → (t.ctx c).state = (if (s.port p).isDown then .orphaned else .active) ∧ (t.ctx c).owner = p ∧ (t.ctx c).func = f ∧ (t.ctx c).born = p ∧
        (t.ctx c).rootValid = false ∧ (t.ctx c).pasid = fld b 4 4 ∧ (t.ctx c).priv = fld b 3 1 ∧
        (t.ctx c).semBase = fld b 24 8 ∧ (t.ctx c).engineAllow = BitVec.ofNat 64 (fld b 32 8) ∧
        (t.ctx c).groupTable = fld b 40 8 ∧ (t.area p f).ctxState = 2 ∧ (t.area p f).ctxReason = 0 ∧
        ∀ r, t.ring p r = (if (s.ring p r).ctx = c then { paused := (s.ring p r).paused } else s.ring p r)) ∧
      (s.createReason p f c ≠ 0 → t.ctx c = s.ctx c ∧ (∀ r, t.ring p r = s.ring p r) ∧ (t.area p f).ctxState = 3 ∧
        (t.area p f).ctxReason = s.createReason p f c) ∧
      (s.boot.ready = true → s.sec.locked = false → (t.area p f).ctxReason = 10) ∧
      (∀ d, d ≠ c → t.ctx d = s.ctx d) ∧ (∀ q, q ≠ p → t.port q = s.port q) ∧
      t = { s with ports := t.ports, ctxs := t.ctxs })) ∧
  ∀ (p : Port) (f : Fn) (c : CtxNo) (q : CqNo) (s : State), s.boot.ready = true → s.areaFree p f = true →
    ∃ t, exec (.ctxAdopt p f c q) s = .next t ∧
      (s.adoptReason p f c q = 0 → t.ctx c = { s.ctx c with
          owner := p, consent := false, withdrawn := true, remapped := []
          state := if (s.port p).isDown then .orphaned else .active } ∧
        (∀ r, r ∈ s.ringsOf c → t.ring (s.ctx c).owner r = {} ∧
          t.ring p r = (s.ring (s.ctx c).owner r).arrive (s.inDevice c (s.ring (s.ctx c).owner r).base) q) ∧
        (∀ r, r ∉ s.ringsOf c → ∀ h, t.ring h r = s.ring h r) ∧ (t.area p f).ctxState = 2) ∧
      (s.adoptReason p f c q ≠ 0 → t.ctx c = s.ctx c ∧ (∀ h r, t.ring h r = s.ring h r) ∧ (t.area p f).ctxState = 3 ∧
        (t.area p f).ctxReason = s.adoptReason p f c q) ∧
      (∀ d, d ≠ c → t.ctx d = s.ctx d) ∧ (∀ h g, t.cmd h g = s.cmd h g) ∧ t = { s with ports := t.ports, ctxs := t.ctxs }

/-- CTX_ABORT and CTX_DESTROY (09 R199; 16 R390). What an abort waits for and what a destruction returns is log entry 19; a pending DISABLE of a ring whose context goes, and PAUSED, log entry 20. -/
def Obligations.ContextsAreAbortedAndDestroyed : Prop :=
  (∀ (p : Port) (f : Fn) (c : CtxNo) (s : State) (destroy : Bool),
    let i := if destroy then Instr.ctxDestroy p f c else .ctxAbort p f c
    let mine := fun (r : RingNo) => (s.ring p r).state ≠ .disabled ∧ (s.ring p r).ctx = c
    s.areaFree p f = true → s.boot.ready = true →
    (s.mayWriteCtx p f c = false → ∃ t, exec i s = .next t ∧ (t.area p f).ctxState = 3 ∧ (t.area p f).ctxReason = 2 ∧
      t = { s with ports := t.ports } ∧ (∀ h r, t.ring h r = s.ring h r) ∧ ∀ h g, t.cmd h g = s.cmd h g) ∧
    (s.mayWriteCtx p f c = true → (s.ctx c).state ≠ .aborting → (s.ctx c).ends = [] →
      (s.cmdsOf c = [] →
        (∃ t, exec (.ctxAbort p f c) s = .next t ∧ (t.ctx c).state = s.liveState c ∧ (t.ctx c).ends = [] ∧
          (∀ r, mine r → (t.ring p r).state = .stopped ∧ (t.ring p r).head = (s.ring p r).head) ∧
          (∀ r, ¬mine r → t.ring p r = s.ring p r) ∧
          (∀ e a, ((s.named e a).state = .held ∧ (s.named e a).owner = c) → t.named e a = {}) ∧
          (∀ e a, ¬((s.named e a).state = .held ∧ (s.named e a).owner = c) → t.named e a = s.named e a) ∧
          (t.area p f).ctxState = 2 ∧ (∀ d, d ≠ c → t.ctx d = s.ctx d) ∧ t.mem = s.mem) ∧
        (∃ t, exec (.ctxDestroy p f c) s = .next t ∧ t.ctx c = {} ∧
          (∀ r, t.ring p r = (if (s.ring p r).ctx = c then { paused := (s.ring p r).paused } else s.ring p r)) ∧ (t.area p f).ctxState = 2 ∧ (∀ d, d ≠ c → t.ctx d = s.ctx d) ∧
          (∀ r f', (s.ring p r).ctx = c → (s.ring p r).disabling = some f' → (t.area p f').ringState = 2) ∧ t.mem = s.mem)) ∧
      ((∃ x ∈ s.cmdsOf c, x.2.2.phase ≠ .record) → ∃ t, exec i s = .next t ∧ (t.ctx c).state = .aborting ∧
        (t.area p f).ctxState = 1 ∧
        ∀ h g, (h, g, s.cmd h g) ∈ s.cmdsOf c → (s.cmd h g).phase ≠ .record →
          (t.cmd h g).status = some ((s.cmd h g).status.getD stCancelled)))) ∧
  ∀ (p : Port) (f : Fn) (c : CtxNo) (s : State), s.boot.ready = false →
    exec (.ctxAbort p f c) s = .next s ∧ exec (.ctxDestroy p f c) s = .next s

/-- CONTEXT_RECORD_WRITE (09 R197, R198; 16 R388). What a command does while its condition does not hold is the model's choice (DESIGN CHOICE, log entry 1). -/
def Obligations.ContextRecordsChangeOnlyInTheirMutableFields : Prop :=
  ∀ (p : Port) (f : Fn) (c : CtxNo) (off size : Nat) (v : W64) (s : State),
    let b := mergeImage (s.ctxImage c) off size v
    let may := s.boot.ready = true ∧ accessOk off size = true ∧ off + size ≤ 64 ∧ s.mayWriteCtx p f c = true ∧
      (s.ctx c).state = .active
    (¬may → exec (.contextRecordWrite p f c off size v) s = .next s) ∧
    (may → ∃ t, exec (.contextRecordWrite p f c off size v) s = .next t ∧ Safety.onlyCtx s t c ∧
      t.ctx c = { s.ctx c with
        consent := (t.ctx c).consent, seed := (t.ctx c).seed, defPrec := (t.ctx c).defPrec
        defGroup := (t.ctx c).defGroup, groupTable := (t.ctx c).groupTable, stepPage := (t.ctx c).stepPage } ∧
      (t.ctx c).consent = bitOf (fld b 2 1) 0 ∧ (t.ctx c).seed = BitVec.ofNat 64 (fld b 8 8) ∧
      (fld b 16 1 ≤ 9 → (t.ctx c).defPrec = fld b 16 1) ∧ (fld b 17 1 ≤ 3 → (t.ctx c).defGroup = fld b 17 1) ∧
      (fld b 40 8 % 4096 = 0 → fld b 40 8 < 2 ^ 52 → (t.ctx c).groupTable = fld b 40 8) ∧
      (fld b 48 8 % 4096 = 0 → fld b 48 8 < 2 ^ 52 → (t.ctx c).stepPage = fld b 48 8))

/-- The ring operations (16 R387, R393). The order of the reasons is log entry 12; what a pending DISABLE does, log entry 20; that RING_DISABLE_COMPLETE changes nothing till its condition holds, log entry 1. -/
def Obligations.RingOperations : Prop :=
  ∀ (p : Port) (f : Fn) (r : RingNo) (s : State),
    let g := s.ring p r
    let n := (s.area p f).ringCount
    let answers := fun (i : Instr) (g' : Ring) (st reason : Nat) => ∃ t, exec i s = .next t ∧ t.ring p r = g' ∧
      (t.area p f).ringState = st ∧ (t.area p f).ringReason = reason ∧ (∀ q, q ≠ r → t.ring p q = s.ring p q) ∧ (∀ k, t.cmd p k = s.cmd p k) ∧
      (∀ c, t.cq p c = s.cq p c) ∧ (∀ q, q ≠ p → t.port q = s.port q) ∧ t = { s with ports := t.ports }
    (s.ringAreaFree p f = true → s.ringHolder p r = f →
      (g.state ≠ .active → (s.ctx g.ctx).state = .active → (s.ctx g.ctx).owner = p → ringShapeOk g.base g.log2Len = true →
        (s.cq p g.cq).state = .active → answers (.ringEnable p f r)
          { g with head := n, tail := n, err := 0, state := .active, cancelRanges := [], disabling := none } 2 0) ∧
      (g.state ≠ .active → ((s.ctx g.ctx).state ≠ .active ∨ (s.ctx g.ctx).owner ≠ p) → answers (.ringEnable p f r) g 3 3) ∧
      (g.state ≠ .active → (s.ctx g.ctx).state = .active → (s.ctx g.ctx).owner = p →
        (ringShapeOk g.base g.log2Len = false ∨ (s.cq p g.cq).state ≠ .active) → answers (.ringEnable p f r) g 3 4) ∧
      (g.state = .active →
        answers (.ringStop p f r) { g with state := .stopped, cancelRanges := []
                                           abandoned := satAdd 16 g.abandoned (g.tail - g.head).toNat } 2 0 ∧
        answers (.ringPause p f r) { g with paused := true } 2 0 ∧
        answers (.ringEnable p f r) g 3 1 ∧ answers (.ringDisable p f r) g 3 1 ∧
        (g.paused = true → answers (.ringResume p f r) { g with paused := false } 2 0) ∧
        (g.paused = false → answers (.ringResume p f r) g 3 1)) ∧
      (g.state ≠ .active → answers (.ringStop p f r) g 3 1 ∧ answers (.ringPause p f r) g 3 1 ∧ answers (.ringResume p f r) g 3 1) ∧
      (g.state = .disabled → answers (.ringDisable p f r) g 3 1) ∧
      ((g.state = .stopped ∨ g.state = .error) → answers (.ringDisable p f r) { g with disabling := some f } 1 0)) ∧
    (s.ringAreaFree p f = true → s.ringHolder p r ≠ f →
      ∀ i ∈ [Instr.ringEnable p f r, .ringStop p f r, .ringDisable p f r, .ringPause p f r, .ringResume p f r], answers i g 3 2) ∧
    (g.disabling = some f → (g.state = .stopped ∨ g.state = .error) →
      (s.ringInFlight p r = 0 → answers (.ringDisableComplete p r)
        { g with state := .disabled, disabling := none, cancelRanges := [] } 2 0) ∧
      (s.ringInFlight p r ≠ 0 → exec (.ringDisableComplete p r) s = .next s))

/-- The completion-ring operations and the ring records (16 R392, R393). The points of log entry 20 rest on it. What a command does while its condition does not hold is the model's choice (DESIGN CHOICE, log entry 1). -/
def Obligations.CompletionRingOperationsAndRecords : Prop :=
  (∀ (p : Port) (f : Fn) (c : CqNo) (s : State),
    let q := s.cq p c
    let n := (s.area p f).ringCount
    let answers := fun (i : Instr) (q' : Cq) (st reason : Nat) => ∃ t, exec i s = .next t ∧ t.cq p c = q' ∧
      (t.area p f).ringState = st ∧ (t.area p f).ringReason = reason ∧ (∀ d, d ≠ c → t.cq p d = s.cq p d) ∧ (∀ k, t.cmd p k = s.cmd p k) ∧
      (∀ r, t.ring p r = s.ring p r) ∧ (∀ h, h ≠ p → t.port h = s.port h) ∧ t = { s with ports := t.ports }
    (s.ringAreaFree p f = true → s.cqHolder p c = f →
      (q.state = .disabled → ringShapeOk q.base q.log2Len = true → answers (.cqEnable p f c)
        { q with tail := n, head := n, state := .active, raised := false, disabling := none } 2 0) ∧
      (q.state = .disabled → ringShapeOk q.base q.log2Len = false → answers (.cqEnable p f c) q 3 4) ∧
      (q.state = .disabled → answers (.cqDisable p f c) q 3 1) ∧
      (q.state ≠ .disabled → answers (.cqEnable p f c) q 3 1 ∧ answers (.cqDisable p f c) { q with disabling := some f } 1 0)) ∧
    (s.ringAreaFree p f = true → s.cqHolder p c ≠ f → answers (.cqEnable p f c) q 3 2 ∧ answers (.cqDisable p f c) q 3 2) ∧
    (q.disabling = some f → s.cqUnbound p c = true → s.cqWaiting p c = 0 →
      answers (.cqDisableComplete p c) { q with state := .disabled, disabling := none } 2 0) ∧
    (q.disabling = some f → ¬(s.cqUnbound p c = true ∧ s.cqWaiting p c = 0) →
      exec (.cqDisableComplete p c) s = .next s)) ∧
  ∀ (p : Port) (f : Fn) (n : RingNo) (off size : Nat) (v : W64) (s : State),
    let go := s.boot.ready = true ∧ accessOk off size = true ∧ off + size ≤ 32 ∧ s.fnUp p f = true
    (¬go → ∀ cq, exec (.ringRecordWrite p f cq n off size v) s = .next s) ∧
    (go → ∀ h : n.val < 64,
      let c : CqNo := ⟨n.val, h⟩
      let q := s.cq p c
      let b := mergeImage (s.cqImage p c) off size v
      (s.cqHolder p c ≠ f → exec (.ringRecordWrite p f true n off size v) s = .next s) ∧
      (s.cqHolder p c = f → ∃ t, exec (.ringRecordWrite p f true n off size v) s = .next t ∧
        t.cq p c = { q with
          vector := (if fld b 2 2 < 2048 then fld b 2 2 else q.vector)
          modCount := (if fld b 4 2 = 0 then q.modCount else fld b 4 2)
          modTime := fld b 6 2
          log2Len := (if q.state = .disabled then fld b 1 1 else q.log2Len)
          base := (if q.state = .disabled then fld b 8 8 else q.base) } ∧
        (∀ d, d ≠ c → t.cq p d = s.cq p d) ∧ t = { s with ports := t.ports })) ∧
    (go → (s.ringHolder p n ≠ f ∨ (s.ring p n).state ≠ .disabled) →
      exec (.ringRecordWrite p f false n off size v) s = .next s) ∧
    (go → s.ringHolder p n = f → (s.ring p n).state = .disabled →
      let b := mergeImage (s.ringImage p n) off size v
      let c : CtxNo := Fin.ofNat 256 (fld b 2 1)
      ∀ h : fld b 3 1 < 64,
      (off < 4 → (s.ctx c).state ≠ .free ∧ (s.ctx c).owner = p ∧ (s.ctx c).madeBy p f = true ∧ s.cqHolder p ⟨fld b 3 1, h⟩ = f) →
      exec (.ringRecordWrite p f false n off size v) s = .next (s.updRing p n fun g => { g with
        log2Len := fld b 1 1, ctx := c, cq := ⟨fld b 3 1, h⟩, base := fld b 8 8 }))

/-- The resets of levels 2 to 4 and their completion (13 R329 to R336). What a trigger inside a wider reset, or on a module without power, does, and the UNIT of a reset's record, is log entries 1, 44 and 45. -/
def Obligations.ResetsFenceTheirScopeAndEndItsCommands : Prop :=
  (∀ (e : Eng) (cause : BitVec 8) (s : State) (i : Instr) (n : Nat),
    (i = .engineReset e cause ∧ n = cause.toNat ∨ i = .swresetEngine e ∧ n = 0x09) → s.wideReset = false →
    (s.inReset e = false → ∃ t, exec i s = .next t ∧ t.rcv.inReset = s.rcv.inReset ||| engBit e ∧
      t.rcv.fence = s.rcv.fence ||| engBit e ∧ t.rcv.lastLevel = 2 ∧ t.rcv.cause = n ∧ t.rcv.engine = e.val ∧
      t.rcv.escalated = false ∧ t.rcv.partFence = s.rcv.partFence ∧
      ∀ p g, (s.cmd p g).phase = .running → (∃ k, (k, s.slot e k) ∈ s.slotsOf e ∧ (s.slot e k).port = p ∧ (s.slot e k).tag = g) →
        (s.cmd p g).op ≠ 0x0F → (s.cmd p g).status = none → (t.cmd p g).status = some stDropped) ∧
    (s.inReset e = true → ∃ t, exec i s = .next t ∧ t.rcv.inReset = s.rcv.inReset ∧ t.rcv.fence = s.rcv.fence ∧
      t.engines = s.engines ∧ ∀ p g, t.cmd p g = s.cmd p g)) ∧
  (∀ (e : Eng) (s : State), s.rcv.inReset.getLsbD e.val = true → s.wideReset = false →
    ∃ t, exec (.engineResetComplete e) s = .next t ∧ t.rcv.inReset = s.rcv.inReset &&& ~~~engBit e ∧
      t.rcv.fence = s.rcv.fence ∧ (∀ k, t.slot e k = {}) ∧ (∀ i, t.strm e i = {}) ∧ (∀ a, t.named e a = {}) ∧
      (t.eng e).counts = [] ∧ (t.eng e).minLog2 = (s.eng e).minLog2 ∧ (t.eng e).qlimit = (s.eng e).qlimit ∧
      (∀ d, d ≠ e → t.eng d = s.eng d) ∧ t = { s with engines := t.engines, rcv := t.rcv }) ∧
  (∀ (q : Part) (cause : BitVec 8) (s : State) (i : Instr),
    (i = .partitionReset q cause ∨ i = .swresetPartition q) → s.wideReset = false → s.rcv.partInReset.getLsbD q.val = false →
    ∃ t, exec i s = .next t ∧ t.rcv.partInReset = s.rcv.partInReset ||| BitVec.ofNat 8 (2 ^ q.val) ∧
      t.rcv.partFence = s.rcv.partFence ||| BitVec.ofNat 8 (2 ^ q.val) ∧ t.rcv.lastLevel = 3 ∧ t.rcv.partition = q.val ∧
      ∀ e p g, partOf e = q → (s.cmd p g).phase = .running →
        (∃ k, (k, s.slot e k) ∈ s.slotsOf e ∧ (s.slot e k).port = p ∧ (s.slot e k).tag = g) →
        (s.cmd p g).status = none → (t.cmd p g).status = some stPartitionReset) ∧
  (∀ (q : Part) (s : State), s.rcv.partInReset.getLsbD q.val = true → s.wideReset = false →
    ∃ t, exec (.partitionResetComplete q) s = .next t ∧ t.rcv.partFence = s.rcv.partFence ∧
      t.rcv.partInReset = s.rcv.partInReset &&& ~~~(BitVec.ofNat 8 (2 ^ q.val)) ∧
      (∀ e, partOf e = q → (∀ k, t.slot e k = {}) ∧ ∀ i, t.strm e i = {}) ∧ (∀ e, partOf e ≠ q → t.eng e = s.eng e) ∧
      (t.part q).items = [] ∧ (t.part q).scale = [] ∧ (t.part q).planCode = (s.part q).planCode ∧
      (t.part q).regTotal = (s.part q).regTotal ∧ ∀ r, r ≠ q → t.part r = s.part r) ∧
  ∀ (cause : BitVec 8) (s : State) (i : Instr),
    (i = .moduleReset cause ∨ i = .swresetModule) →
    (s.wideReset = true → ∃ t, exec i s = .next t ∧ t.ctxs = s.ctxs ∧ t.engines = s.engines ∧ t.mem.hbm = s.mem.hbm ∧
      t.rcv.lastLevel = s.rcv.lastLevel ∧ t.rcv.moduleResets = s.rcv.moduleResets ∧ t.boot = s.boot ∧ t.peer = s.peer) ∧
    (s.wideReset = false → ∃ t, exec i s = .next t ∧ t.ctxs = [] ∧ t.engines = [] ∧ t.mem.hbm = [] ∧
      t.boot.ready = false ∧ t.sec.locked = false ∧ t.rcv.modReset = .running ∧ t.rcv.lastLevel = 4 ∧
      t.rcv.moduleResets = satAdd 16 s.rcv.moduleResets 1 ∧ t.peer.nodeId = s.peer.nodeId ∧ t.peer.valid = s.peer.valid ∧
      t.hk = s.hk)

/-- Escalation and the power-cycle request (13 R328, R330, R333). What the request leaves as it is is log entry 46, the UNIT and ENGINE of its records log entry 44. What a command does while its condition does not hold is the model's choice (DESIGN CHOICE, log entry 1). -/
def Obligations.MissedDeadlinesEscalate : Prop :=
  let cycled := fun (s t : State) => t.rcv.powerCycle = true ∧ t.rcv.fenceAll = true ∧ t.rcv.modReset = .none ∧
    t.rcv.partFence = 0xFF ∧ t.peer.txOff = true ∧ t.pwr.alertN = false ∧
    (∃ n, t.out.getLast? = some (.pldmEvent "power-cycle request" n)) ∧ (∀ e, t.isolated e = true) ∧
    ∀ m, s.rcv.powerCycle = false → (s.stack m).retired <+: (t.stack m).retired
  (∀ (c : CtxNo) (s : State), (s.ctx c).state = .aborting → s.wideReset = false →
    ∃ t, exec (.deadlineMissed (.context c)) s = .next t ∧
      ∀ e, (∃ k, (k, s.slot e k) ∈ s.slotsOf e ∧ (s.slot e k).ctx = c) → t.inReset e = true) ∧
  (∀ (e : Eng) (s : State), s.rcv.inReset.getLsbD e.val = true → s.wideReset = false →
    s.rcv.partInReset.getLsbD (partOf e).val = false →
    ∃ t, exec (.deadlineMissed (.engine e)) s = .next t ∧ t.rcv.partInReset.getLsbD (partOf e).val = true ∧
      t.rcv.escalated = true ∧ t.rcv.lastLevel = 3 ∧ t.rcv.cause = 8) ∧
  (∀ (q : Part) (s : State), s.rcv.partInReset.getLsbD q.val = true → s.wideReset = false →
    ∃ t, exec (.deadlineMissed (.partition q)) s = .next t ∧ t.rcv.modReset = .running ∧ t.rcv.escalated = true ∧
      t.boot.ready = false) ∧
  (∀ (s : State), (s.rcv.modReset = .running ∨ s.rcv.modReset = .heldRefclk) → s.rcv.powerCycle = false → s.powered = true →
    s.pwr.mainOn = true → ∃ t, exec (.deadlineMissed .module) s = .next t ∧ cycled s t ∧ t.rcv.escalated = true) ∧
  (∀ (cause : BitVec 8) (s : State), s.powered = false → exec (.powerCycleRequest cause) s = .next s) ∧
  (∀ (cause : BitVec 8) (s : State), s.rcv.powerCycle = false → s.powered = true →
    ∃ t, exec (.powerCycleRequest cause) s = .next t ∧ cycled s t ∧ t.rcv.cycleCause = cause.toNat) ∧
  ∀ (s : State), s.rcv.powerCycle = true →
    exec .powerCycleRepeat s = .next { s with out := s.out ++ [.pldmEvent "power-cycle request" s.rcv.cycleCause] }

/-- Releases, resumes and invalidations (10 R252; 13 R335, R342; 16 R399). What an invalidation covers is log entry 17. -/
def Obligations.ReleasesResumesAndInvalidations : Prop :=
  (∀ (mask : W64) (s : State), s.boot.ready = true → ∃ t, exec (.fenceRelease mask) s = .next t ∧
    (∀ e : Eng, t.rcv.fence.getLsbD e.val = (s.rcv.fence.getLsbD e.val && !(mask.getLsbD e.val && !s.inReset e))) ∧
    t = { s with rcv := { s.rcv with fence := t.rcv.fence } }) ∧
  (∀ (mask : BitVec 8) (s : State), s.boot.ready = true → s.rcv.powerCycle = true →
    exec (.partFenceRelease mask) s = .next s) ∧
  (∀ (mask : BitVec 8) (s : State), s.boot.ready = true → s.rcv.powerCycle = false → ∃ t, exec (.partFenceRelease mask) s = .next t ∧
    (∀ q : Part, t.rcv.partFence.getLsbD q.val =
      (s.rcv.partFence.getLsbD q.val && !(mask.getLsbD q.val && !s.rcv.partInReset.getLsbD q.val))) ∧
    t = { s with rcv := { s.rcv with partFence := t.rcv.partFence } }) ∧
  (∀ (id : W32) (s : State), s.boot.ready = true →
    (∀ e i, s.faulted id = some (e, i) → (s.strm e i).peloton = 0 →
      (∃ t, exec (.faultResumeRetry id) s = .next t ∧ t.strm e i = { s.strm e i with state := .issuing, faultId := 0, faultKind := 0 } ∧
        (∀ d j, (d ≠ e ∨ j ≠ i) → t.strm d j = s.strm d j) ∧
        t = { s with engines := t.engines, mem := { s.mem with resumeReg := id.toNat } }) ∧
      ((s.cmd (s.strm e i).port (s.strm e i).tag).phase = .running → ∃ t, exec (.faultResumeAbort id) s = .next t ∧
        (t.cmd (s.strm e i).port (s.strm e i).tag).phase = .cancelling ∧
        ((s.cmd (s.strm e i).port (s.strm e i).tag).status = none →
          (t.cmd (s.strm e i).port (s.strm e i).tag).status = some stFaultAbort))) ∧
    (s.faulted id = none → exec (.faultResumeRetry id) s = .next { s with mem := { s.mem with resumeReg := id.toNat } } ∧
      exec (.faultResumeAbort id) s = .next { s with mem := { s.mem with resumeReg := id.toNat + 2 ^ 32 } })) ∧
  (∀ (p : Port) (c : CtxNo) (whole : Bool) (va : Nat) (s : State), s.boot.ready = true →
    (s.mayWriteCtx p 0 c = true → ∃ t, exec (.memInval p c whole va) s = .next t ∧
      t.mem.invalJobs = s.mem.invalJobs ++ [(c, if whole then none else some (va / 2 ^ 21 % 2 ^ 31))] ∧
      t = { s with mem := { s.mem with invalJobs := t.mem.invalJobs, invalCmd := t.mem.invalCmd } }) ∧
    (s.mayWriteCtx p 0 c = false → exec (.memInval p c whole va) s = .next s)) ∧
  (∀ s : State, ∃ t, exec .memInvalComplete s = .next t ∧ t.mem.invalJobs = [] ∧
    (∀ c, (c, none) ∈ s.mem.invalJobs → (t.ctx c).withdrawn = false) ∧
    (∀ c r, (c, none) ∉ s.mem.invalJobs → (c, some r) ∈ s.mem.invalJobs → (s.ctx c).withdrawn = true →
      r ∈ (t.ctx c).remapped ∧ (t.ctx c).withdrawn = true) ∧
    (∀ c, (∀ r, (c, r) ∉ s.mem.invalJobs) → t.ctx c = s.ctx c) ∧
    t = { s with ctxs := t.ctxs, mem := { s.mem with invalJobs := [] } }) ∧
  ∀ (m : Stack) (s : State), s.boot.ready = true → ∃ t, exec (.retireConfirm m) s = .next t ∧
    (∀ g ∈ (s.stack m).pending, g ∈ (t.stack m).retired ∨ g ∈ (t.stack m).unrecorded) ∧
    ((s.stack m).retired.length + (s.stack m).pending.length ≤ 4096 → ∀ g ∈ (s.stack m).pending,
      g ∈ (t.stack m).retired ∨ g ∈ (s.stack m).unrecorded) ∧
    (s.stack m).retired <+: (t.stack m).retired ∧ t.mem.hbm = s.mem.hbm ∧ ∀ n, n ≠ m → t.stack n = s.stack n

/-- The set-up lock and the register map (16 R384, R386). What a command does while its condition does not hold is the model's choice (DESIGN CHOICE, log entry 1). Clauses on the points of log entry 51 rest on it (DEDUCED). -/
def Obligations.SetupLockAndRegisterWrites : Prop :=
  (∀ (p : Port) (f : Fn) (s : State), s.boot.ready = true →
    (f = 0 → s.sec.locked = false → ∃ t, exec (.setupLockTake p f) s = .next t ∧ t.sec.locked = true ∧ t.sec.lockedBy = p ∧
      t.sec.lockSnapshot = s.rwlFields ∧
      t = { s with sec := { s.sec with locked := true, lockedBy := p, lockSnapshot := s.rwlFields } }) ∧
    (f ≠ 0 ∨ s.sec.locked = true → exec (.setupLockTake p f) s = .next s)) ∧
  (∀ (p : Port) (v : W64) (s : State), v.getLsbD 0 = true → s.boot.ready = true →
    exec (.registerWrite p 0 0x600000 4 v) s = exec (.setupLockTake p 0) s) ∧
  (∀ (p : Port) (v : W64) (s : State), s.boot.ready = true →
    let n := bitsOf v.toNat 9 0
    (s.sec.locked = true → exec (.registerWrite p 0 0x400000 4 v) s =
      .next { s with sec := { s.sec with lockedWrites := satAdd 32 s.sec.lockedWrites 1 } }) ∧
    (s.sec.locked = false → 300 ≤ n → n ≤ 700 →
      exec (.registerWrite p 0 0x400000 4 v) s = .next { s with pwr := { s.pwr with govLimit := n } }) ∧
    (s.sec.locked = false → (n < 300 ∨ 700 < n) → exec (.registerWrite p 0 0x400000 4 v) s = .next s)) ∧
  (∀ (p h : Port) (i : Fin 16) (v : W64) (s : State), s.boot.ready = true →
    let off := 0x10100 + 0x1000 * h.val + 8 * i.val
    (s.sec.locked = true → exec (.registerWrite p 0 off 8 v) s =
      .next { s with sec := { s.sec with lockedWrites := satAdd 32 s.sec.lockedWrites 1 } }) ∧
    (s.sec.locked = false → exec (.registerWrite p 0 off 8 v) s = .next (s.updPort h fun x => { x with
      vfRings := Tab.upd {} x.vfRings i.val fun _ => vfRingsOf v.toNat }))) ∧
  ∀ (p : Port) (f : Fn) (off size : Nat) (v : W64) (s : State),
    (accessOk off size = false → exec (.registerWrite p f off size v) s = .next s) ∧
    (0x1000000 ≤ off → exec (.registerWrite p f off size v) s = .next s) ∧
    (s.boot.ready = false → off / 8 * 8 ≠ 0x300020 → exec (.registerWrite p f off size v) s = .next s) ∧
    (s.fnUp p f = false → exec (.registerWrite p f off size v) s = .next s)

/-- The set-up registers of single blocks (10; 12 R308; 14; 16). Plans and their trials are log entry 41's. What a command does while its condition does not hold is the model's choice (DESIGN CHOICE, log entry 1). Clauses on the points of log entry 51 rest on it (DEDUCED). -/
def Obligations.LedgerQuiesceStreamsPlansAndGroups : Prop :=
  (∀ (index : W32) (area : BitVec 2) (s : State), s.boot.ready = true →
    exec (.ledgerRead index area) s = .next { s with age := { s.age with
      ledgerIndex := index, ledgerArea := area, ledgerData := s.ledgerAt index.toNat area.toNat } }) ∧
  (∀ (v : W64) (s : State), s.boot.ready = true → ∃ t, exec (.dbgQuiesce v) s = .next t ∧
    (∀ e : Eng, t.dbg.quiesce.getLsbD e.val = (v.getLsbD e.val && !s.isolated e && !s.inReset e)) ∧
    t = { s with dbg := { s.dbg with quiesce := t.dbg.quiesce } }) ∧
  (∀ (e : Eng) (s : State),
    (s.quiesced e = true → exec (.quiesceTimeout e) s =
      .next { s with dbg := { s.dbg with quiesce := s.dbg.quiesce &&& ~~~engBit e } }) ∧
    (s.quiesced e = false → exec (.quiesceTimeout e) s = .next s)) ∧
  (∀ (e : Eng) (v : W32) (s : State), s.boot.ready = true →
    let lo := bitsOf v.toNat 4 0
    let hi := bitsOf v.toNat 12 8
    (12 ≤ lo ∧ lo ≤ hi ∧ hi ≤ 18 → ∃ t, exec (.streamCfgWrite e v) s = .next t ∧
      t.eng e = (if s.slotsOf e = [] then { s.eng e with minLog2 := lo, maxLog2 := hi, cfgPending := none }
        else { s.eng e with cfgPending := some (lo, hi) }) ∧
      (∀ d, d ≠ e → t.eng d = s.eng d) ∧ t = { s with engines := t.engines }) ∧
    (¬(12 ≤ lo ∧ lo ≤ hi ∧ hi ≤ 18) → exec (.streamCfgWrite e v) s = .next s)) ∧
  (∀ (e : Eng) (s : State) (v : Nat × Nat), (s.eng e).cfgPending = some v →
    (s.slotsOf e = [] → exec (.streamCfgApply e) s = .next (s.updEng e fun g => { g with
      minLog2 := v.1, maxLog2 := v.2, cfgPending := none })) ∧
    (s.slotsOf e ≠ [] → exec (.streamCfgApply e) s = .next s)) ∧
  (∀ (mask : BitVec 8) (s : State), s.boot.ready = true → ∃ t, exec (.replan mask) s = .next t ∧
    (∀ q : Part, mask.getLsbD q.val = true → (s.part q).running.any (fun i => i.test == 0x20) = false →
      ∃ v, (∀ w, (s.part q).slackMin = some w → v = w) ∧
        (t.part q).planCode = max (s.part q).planCode ((s.part q).plan v).code) ∧
    ((∀ q, ∀ i ∈ (s.part q).items, i.test = 0x20 → i.cmd = none) →
      (∀ q : Part, mask.getLsbD q.val = false → t.part q = s.part q) ∧
      (∀ q : Part, mask.getLsbD q.val = true → (s.part q).running.any (fun i => i.test == 0x20) = true →
        t.part q = { s.part q with replanQueued := true }) ∧
      (∀ (q : Part) (v : Nat), mask.getLsbD q.val = true → (s.part q).running.any (fun i => i.test == 0x20) = false →
        (s.part q).slackMin = some v →
        let pl := (s.part q).plan v
        (pl.code < (s.part q).planCode → (t.part q).lowering.map (·.code) = some pl.code ∧
          (t.part q).items = if (s.part q).items.any (fun i => i.test == 0x20) ∨ 16 ≤ (s.part q).queued then (s.part q).items
            else (s.part q).items ++ [{ test := 0x20, cmd := none, arg := 0 }]) ∧
        ((s.part q).planCode ≤ pl.code → (t.part q).target = pl.code ∧ (t.part q).marginHours = pl.margin ∧
          (t.part q).lowering = none ∧ (t.part q).items = (s.part q).items.filter fun i => !(i.test == 0x20 && !i.again))) ∧
      t = { s with parts := t.parts, age := t.age, ports := t.ports, out := t.out, fresh := t.fresh })) ∧
  ∀ (p : Port) (e : Eng) (k : StreamNo) (off size : Nat) (v : W64) (s : State),
    s.boot.ready = true → accessOk off size = true → off + size ≤ 128 →
    let old : GroupRec := Tab.get {} (s.eng e).groups k.val
    let new := groupOfImage (mergeImage old.image off size v)
    let may := s.inReset e = false ∧ (s.mayWriteCtx p 0 old.ctx = true ∨ (old.state = 0 ∧ s.mayWriteCtx p 0 new.ctx = true))
    (¬may → exec (.groupRecordWrite p e k off size v) s = .next s) ∧
    (may → (∀ q g, (s.cmd q g).op ≠ 0x0A) → s.peer.waiting = [] →
      exec (.groupRecordWrite p e k off size v) s = .next (s.updEng e fun g => { g with groups := Tab.set g.groups k.val new }))

/-- Host ports going down and coming back (09 R225; 16 R395). What a link that goes down and comes back leaves is log entry 45's. -/
def Obligations.HostPortsGoDownAndComeBack : Prop :=
  let follows := fun (p : Port) (s t : State) =>
    (∀ c : CtxNo, (s.ctx c).owner = p → t.ctx c = { s.ctx c with state :=
      match (s.ctx c).state with
      | .active => if (t.port p).isDown then .orphaned else .active
      | .orphaned => if (t.port p).isDown then .orphaned else .active
      | x => x }) ∧
    (∀ c : CtxNo, (s.ctx c).owner ≠ p → t.ctx c = s.ctx c) ∧ (∀ q, q ≠ p → t.port q = s.port q) ∧
    (∀ g, t.cmd p g = s.cmd p g) ∧ t = { s with ports := t.ports, ctxs := t.ctxs, sec := { s.sec with conns := t.sec.conns } }
  (∀ (p : Port) (s : State), s.boot.ready = true →
    (∃ t, exec (.portDisable p) s = .next t ∧ (t.port p).isDown = true ∧ follows p s t ∧
      t.port p = { s.port p with enable := false }) ∧
    ∃ t, exec (.portEnable p) s = .next t ∧ follows p s t ∧ t.port p = { s.port p with enable := true }) ∧
  (∀ (p : Port) (s : State), ∃ t, exec (.perstAssert p) s = .next t ∧ follows p s t ∧ (t.port p).isDown = true ∧
    (t.port p).linkUp = false ∧ (t.port p).ide = [] ∧ (t.port p).vfEnabled = 0) ∧
  (∀ (p : Port) (s : State), (s.port p).linkLost = true → (s.port p).linkUp = false →
    ∃ t, exec (.portDownTimeout p) s = .next t ∧ follows p s t ∧ t.port p = { s.port p with lostTooLong := true }) ∧
  (∀ (p : Port) (s : State), s.mayLink p = true → (s.port p).linkUp = false →
    ∃ t, exec (.hostLinkUp p) s = .next t ∧ follows p s t ∧
      t.port p = { s.port p with linkUp := true, linkLost := false, lostTooLong := false, perstUntilUp := false }) ∧
  (∀ (p : Port) (s : State), (s.port p).linkUp = true →
    exec (.hostLinkDown p) s = .next (s.updPort p fun h => { h with linkUp := false, linkLost := true })) ∧
  (∀ (p : Port) (n : Nat) (s : State),
    exec (.vfEnable p n) s = .next (s.updPort p fun h => { h with vfEnabled := min n 16 })) ∧
  ∀ (p : Port) (n : Nat) (s : State),
    (30 ≤ n → n ≤ 39 → ∃ t, exec (.bar4Resize p n) s = .next t ∧ (t.port p).bar4Log2 = n ∧
      (n ≤ (s.port p).bar4Log2 → (t.port p).bar4Base = (s.port p).bar4Base) ∧
      ((s.port p).bar4Log2 < n → 2 ^ (n - 30) ∣ (t.port p).bar4Base ∧ (t.port p).bar4Base ≤ (s.port p).bar4Base ∧
        (s.port p).bar4Base < (t.port p).bar4Base + 2 ^ (n - 30)) ∧
      ∀ q, q ≠ p → t.port q = s.port q) ∧
    (n < 30 ∨ 39 < n → exec (.bar4Resize p n) s = .next s)

/-- The end of a port's reset (09 R225) and BAR4 (16 R395). What a destruction waits for is log entry 19, what a snapshot has of bytes that a host writes meanwhile log entry 34. What a command does while its condition does not hold is the model's choice (DESIGN CHOICE, log entry 1). -/
def Obligations.ResetsDestroyContextsAndBar4ReachesHbm : Prop :=
  (∀ (p : Port) (s : State) (i : Instr), (i = .perstDeassert p ∧ (s.port p).perst = true ∨ i = .functionLevelReset p) →
    ∃ t, exec i s = .next t ∧
      (∀ c, (s.ctx c).owner = p → (s.ctx c).state ≠ .aborting → (s.ctx c).ends = [] → s.cmdsOf c = [] → t.ctx c = {} ∨
        (s.ctx c).state = .free ∧ t.ctx c = s.ctx c) ∧
      (∀ c, (s.ctx c).owner ≠ p → t.ctx c = s.ctx c) ∧ (i = .perstDeassert p → (t.port p).perst = false) ∧
      t.mem.hbm = s.mem.hbm) ∧
  (∀ (p : Port) (off len pa : Nat) (s : State), s.bar4At p off len = some pa →
    exec (.bar4Read p off len false) s = .next { s with out := s.out ++ [.bar4 p (some (s.hbmRead pa len))] } ∧
    (s.served pa = true → ∃ t, exec (.bar4Read p off len true) s = .next t ∧ .bar4 p none ∈ t.out ∧
      t.mem.hbm = s.mem.hbm)) ∧
  ∀ (p : Port) (off pa : Nat) (data : List Byte) (s : State), Safety.memoryOk s → s.bar4At p off data.length = some pa →
    ∃ t, exec (.bar4Write p off data false) s = .next t ∧
      (∀ i, i < data.length → s.served (pa + i) = true → Memory.get t.mem.hbm (pa + i) = data.getD i 0) ∧
      (∀ a, (a < pa ∨ pa + data.length ≤ a ∨ s.served a = false) → Memory.get t.mem.hbm a = Memory.get s.mem.hbm a) ∧
      t = { s with mem := { s.mem with hbm := t.mem.hbm, torn := t.mem.torn } }

/-- Training, identity and the peer set-up registers (12 R285, R293 to R298). What a command does while its condition does not hold is the model's choice (DESIGN CHOICE, log entry 1). Clauses on the points of log entry 35 rest on it (DEDUCED), and the order of a byte's bits in symbols, and what fills the data codewords, on log entry 36 (PRESUMED, DESIGN CHOICE). -/
def Obligations.PeerPortsTrainAndIdentify : Prop :=
  let shows := fun (inv : BitVec 8) (rev : Bool) => (List.range 8).map fun n =>
    let lane := if rev then 7 - n else n
    some (if inv.getLsbD n then (0x2B5 ^^^ 0x3FF, lane ^^^ 0x3FF) else (0x2B5, lane))
  (∀ (i : PeerPort) (lanes : LaneReport) (s : State), s.mayTrain i = true →
    ((s.link i).state = .down ∨ (s.link i).state = .step 0 →
      exec (.trainingStepComplete i lanes) s = .next (s.updLink i fun l => { l with state := .step 1 })) ∧
    ((s.link i).state = .step 1 → ∃ t, exec (.trainingStepComplete i lanes) s = .next t ∧
      (none ∈ lanes.lanes → (t.link i).state = .failed ∧ (t.link i).laneFault = true) ∧
      (∀ inv rev, lanes.lanes = shows inv rev → t.link i = { s.link i with
        state := .step 2, polInv := inv.toNat, reversed := rev })) ∧
    ((s.link i).state = .step 2 → ∃ t fl, exec (.trainingStepComplete i lanes) s = .next t ∧ (t.link i).state = .step 3 ∧
      t.out = s.out ++ [.ident i (s.identOf i) fl] ∧ fld fl 0 1 = 3 ∧ fld fl 12 1 = 2 ∧ fld fl 16 1 = i.val ∧
      ∀ j, j ≠ i → t.link j = s.link j) ∧
    ((s.link i).state = .step 3 → (s.link i).identGot = true → (s.link i).identAcked = true → (s.link i).replay = [] →
      ∃ t, exec (.trainingStepComplete i lanes) s = .next t ∧ (t.link i).state = .up ∧ (t.link i).wentDown = false ∧
        (s.peer.nodeId, i.val) ∉ t.peer.detours)) ∧
  (∀ (i : PeerPort) (s : State), (s.link i).state = .down ∨ (∃ n, (s.link i).state = .step n) →
    ∃ t, exec (.trainingTimeout i) s = .next t ∧ (t.link i).state = .failed ∧ (t.link i).replay = [] ∧
      (t.link i).wentDown = false ∧ ∀ j, j ≠ i → t.link j = s.link j) ∧
  (∀ (i : PeerPort) (r : IdentRec) (s : State), (s.link i).state = .step 3 → s.peer.txOff = false →
    let fits := r.dims = (s.identOf i).dims ∧ r.version = 1 ∧ r.credits = 256
    let other := (s.link i).wentDown = true ∧ (s.link i).nbrSeen = true ∧
      ((s.link i).nbrNode ≠ r.node ∨ (s.link i).nbrPort ≠ r.port)
    ∃ t fl, exec (.ident i r) s = .next t ∧ .identAck i r.node fl ∈ t.out ∧ fld fl 0 1 = 3 ∧ fld fl 12 1 = 3 ∧
      (¬fits → (t.link i).state = .failed ∧ (t.link i).identFault = true) ∧
      (fits → other → (t.link i).state = .failed ∧ (t.link i).wentDown = false) ∧
      (fits → ¬other → (t.link i).identGot = true ∧ (t.link i).nbrNode = r.node ∧ (t.link i).nbrPort = r.port ∧
        (t.link i).miswired = !s.wired i r ∧ (t.link i).state = .step 3 ∧
        ((s.link i).wentDown = false → (t.link i).nextSeq = 0 ∧ (t.link i).expected = 0 ∧ (t.link i).replay = []) ∧
        ((s.link i).wentDown = true → (t.link i).nextSeq = (s.link i).nextSeq ∧ (t.link i).replay = (s.link i).replay))) ∧
  (∀ (i : PeerPort) (r : IdentRec) (s : State), (s.link i).state = .up → s.peer.txOff = false →
    ∃ t fl, exec (.ident i r) s = .next t ∧ t.out = s.out ++ [.identAck i r.node fl] ∧ (t.link i).state = .up) ∧
  (∀ (i : PeerPort) (n : Nat) (s : State),
    ((s.link i).state = .step 3 → n = s.peer.nodeId →
      exec (.identAck i n) s = .next (s.updLink i fun l => { l with identAcked := true })) ∧
    ((s.link i).state ≠ .step 3 ∨ n ≠ s.peer.nodeId → exec (.identAck i n) s = .next s) ∧
    ((s.link i).state = .step 3 → (s.link i).identAcked = false → s.peer.txOff = false →
      ∃ t fl, exec (.identResend i) s = .next t ∧ t.out = s.out ++ [.ident i (s.identOf i) fl] ∧
        (t.link i).state = .step 3 ∧ (t.link i).identAcked = false) ∧
    ((s.link i).identAcked = true → exec (.identResend i) s = .next s)) ∧
  (∀ (i : PeerPort) (s : State), (s.link i).state ≠ .disabled → (s.link i).state ≠ .failed → s.peer.txOff = false →
    let line := (s.link i).line
    let whole := line.length / 1285
    ∃ data lanes, lanes.length = 8 ∧
      (∀ n, n < 8 → (lanes.getD n []).take 10 = List.replicate 8 0x2B5 ++ [n, i.val] ∧ (lanes.getD n []).length = 68) ∧
      data.length = 2 * whole ∧
      (∀ j k, j < 2 * whole → k < 514 → ((data.getD j []).getD (k % 8) []).getD (k / 8) 0 =
        bitsOf (leNat ((line.drop (1285 * (j / 2))).take 1285)) (10 * (514 * (j % 2) + k) + 9) (10 * (514 * (j % 2) + k))) ∧
      exec (.alignmentCodeword i) s = .next ((s.updLink i fun l => { l with
        codewords := l.codewords + 1, line := line.drop (1285 * whole) }).emit (.alignment i data lanes))) ∧
  (∀ (i : PeerPort) (s : State), s.boot.ready = true →
    (∃ t, exec (.retrain i) s = .next t ∧ (t.link i).retrain = true ∧
      (t.link i).state = (if s.mayTrain i then .step 0 else (s.link i).state) ∧
      (s.mayTrain i = true → (s.link i).state = .up → (t.link i).wentDown = false)) ∧
    ∃ t, exec (.peerPortDisable i) s = .next t ∧ (t.link i).state = .disabled ∧ (t.link i).enable = false) ∧
  ∀ (v : W64) (s : State), s.boot.ready = true → s.peer.waiting = [] → (∀ q g, (s.cmd q g).op ≠ 0x0A) →
    let n := bitsOf v.toNat 16 0
    let outside := bitsOf v.toNat 25 20 < coord n 0 ∨ bitsOf v.toNat 31 26 < coord n 1 ∨ bitsOf v.toNat 36 32 < coord n 2
    (s.sec.locked = true → exec (.peerNodeWrite v) s =
      .next { s with sec := { s.sec with lockedWrites := satAdd 32 s.sec.lockedWrites 1 } }) ∧
    (s.sec.locked = false → v.getLsbD 63 = true → outside → exec (.peerNodeWrite v) s = .next s) ∧
    (s.sec.locked = false → v.getLsbD 63 = true → ¬outside → s.peer.valid = false → s.peer.txOff = false →
      ∃ t, exec (.peerNodeWrite v) s = .next t ∧ t.peer.nodeId = n ∧ t.peer.valid = true ∧
        t.peer.dxM1 = bitsOf v.toNat 25 20 ∧ t.peer.dyM1 = bitsOf v.toNat 31 26 ∧ t.peer.dzM1 = bitsOf v.toNat 36 32 ∧
        ∀ i, (s.link i).enable = true → (s.link i).state = .disabled →
          (t.link i).state = if (s.link i).failedHeld && !(s.link i).retrain then .failed else .step 0) ∧
    (s.sec.locked = false → v.getLsbD 63 = false → s.peer.valid = true →
      ∃ t, exec (.peerNodeWrite v) s = .next t ∧ t.peer.valid = false ∧ ∀ i, (t.link i).state = .disabled)

/-- The link layer (12 R286 to R292). What a command does while its condition does not hold is the model's choice (DESIGN CHOICE, log entry 1). Clauses on the points of log entry 35 rest on it (DEDUCED). -/
def Obligations.LinkLayerKeepsFlitsInOrder : Prop :=
  (∀ (i : PeerPort) (why : BadFlit) (s : State),
    let u := s.takePart i (badBefore why)
    let l := u.link i
    let last := (l.expected + 4095) % 4096
    let quiet := ∃ at_, l.nakFor = some (last, at_) ∧ s.hk - at_ < hkMicro
    let bad := match why with
      | .fec _ _ => True
      | .flit _ b => crcBad b = true ∨ 3 < fld b 0 1 ∨ (fld b 0 1 = 1 ∨ fld b 0 1 = 2) ∧ fld b 2 2 % 4096 ≠ l.expected
    let hears := (s.link i).state = .up ∨ (s.link i).state = .step 3
    (¬hears → exec (.badFlitReceived i why) s = .next s) ∧
    (hears → ¬bad → exec (.badFlitReceived i why) s = .next u) ∧
    ((s.link i).state = .step 3 ∨ badBefore why = [] → u = s) ∧
    (∀ b, badBefore why = [b] → (s.link i).state = .up → (s.link i).partOk b = true →
      Tab.get 0 (s.link i).held (flitPair b) + Tab.get 0 (s.link i).owed (flitPair b) < 256 → u.out = s.out ∧ l.state = .up ∧
        l.expected = ((s.link i).expected + 1) % 4096 ∧ Tab.get 0 l.held (flitPair b) = Tab.get 0 (s.link i).held (flitPair b) + 1) ∧
    (hears → bad → ∃ t, exec (.badFlitReceived i why) s = .next t ∧
      (∀ b n, why = .fec b n →
        Tab.get 0 (t.link i).counts cntFecUncorrectable = satAdd 64 (Tab.get 0 l.counts cntFecUncorrectable) n) ∧
      (∀ a b, why = .flit a b → crcBad b = true →
        Tab.get 0 (t.link i).counts cntCrcErrors = satAdd 64 (Tab.get 0 l.counts cntCrcErrors) 1) ∧
      (∀ a b, why = .flit a b → crcBad b = false → (t.link i).counts = l.counts) ∧
      (t.link i).expected = l.expected ∧ (∀ j, j ≠ i → t.link j = u.link j) ∧
      (l.state ≠ .up → t.out = u.out ∧ (t.link i).discarding = l.discarding) ∧
      (l.state = .up → (t.link i).discarding = true ∧ (quiet → t.out = u.out) ∧
        (¬quiet → u.peer.txOff = false → ∃ fl, t.out = u.out ++ [.nak i last fl] ∧ fld fl 0 1 = 3 ∧ fld fl 14 2 = last)))) ∧
  (∀ (i : PeerPort) (seq : BitVec 12) (s : State),
    let fl := (s.link i).after seq.toNat
    ((s.link i).state ≠ .up ∨ s.peer.txOff = true → exec (.nak i seq) s = .next s) ∧
    ((s.link i).state = .up → s.peer.txOff = false → (fl.map (·.seq)).Nodup →
      (∀ x ∈ fl, Tab.get 0 (s.link i).resends x.seq < 15) →
      ∃ t, exec (.nak i seq) s = .next t ∧ (t.link i).replay = (s.link i).replay ∧ (t.link i).state = .up ∧
        (fl = [] → t.out = s.out) ∧
        (fl ≠ [] → ∃ sent, t.out = s.out ++ [.resend i (fl.map (·.seq)) sent] ∧ sent.length = fl.length) ∧
        ∀ x ∈ fl, Tab.get 0 (t.link i).resends x.seq = Tab.get 0 (s.link i).resends x.seq + 1)) ∧
  (∀ (i : PeerPort) (a : BitVec 12) (w : W32) (s : State),
    ((s.link i).state ≠ .up → exec (.idle i (some a) w) s = .next s) ∧
    ((s.link i).state = .up → (s.link i).txq = [] →
      ∃ t, exec (.idle i (some a) w) s = .next t ∧ t = { s with peer := { s.peer with ports := t.peer.ports } } ∧
        (∀ k, (s.link i).replay.findIdx? (fun x => x.seq == a.toNat) = some k →
          (t.link i).replay = (s.link i).replay.drop (k + 1) ∧ (t.link i).acked = a.toNat) ∧
        ((s.link i).replay.findIdx? (fun x => x.seq == a.toNat) = none → (t.link i).replay = (s.link i).replay) ∧
        (∀ j, j < 8 →
          Tab.get 0 (t.link i).credits j = min 256 (Tab.get 0 (s.link i).credits j + bitsOf w.toNat (4 * j + 3) (4 * j))) ∧
        ∀ j, j ≠ i → t.link j = s.link j)) ∧
  ∀ (i : PeerPort) (s : State),
    ((s.link i).replay = [] → exec (.ackTimeout i) s = .next s) ∧
    ((s.link i).state = .up → ∀ c, (c = .fecLockLost i ∨ (c = .ackTimeout i ∧ (s.link i).replay ≠ [])) →
      ∃ t, exec c s = .next t ∧ (t.link i).state = .down ∧ (t.link i).wentDown = true ∧
        (s.peer.detours.length < 64 → (s.peer.nodeId, i.val) ∈ t.peer.detours) ∧
        Tab.get 0 (t.link i).counts cntLinkDowns = satAdd 64 (Tab.get 0 (s.link i).counts cntLinkDowns) 1)

/-- The packets of the peer links (12 R299 to R320). Which command a malformed packet comes as is log entry 36, the peer requests of snapshots log entry 40, the points of collectives that the rules leave open log entries 37 and 38. What a command does while its condition does not hold is the model's choice (DESIGN CHOICE, log entry 1). -/
def Obligations.PacketsAreForwardedServedOrDropped : Prop :=
  let hears := fun (i : PeerPort) (k : Packet) (dl : Bool) (s : State) =>
    (s.link i).state = .up ∧ (s.link i).overrun k dl = false ∧ s.peer.waiting = []
  let home := fun (k : Packet) (s : State) => k.dest = s.peer.nodeId ∧ packetFormed k = true
  let idle := fun (s : State) => ∀ q g, (s.cmd q g).op ≠ 0x0A
  (∀ (i : PeerPort) (k : Packet) (dl : Bool) (s : State),
    (k.dest = s.peer.nodeId → otherRow k = true → exec (.packetForward i k dl) s = .next s) ∧
    (hears i k dl s → idle s → k.dest = s.peer.nodeId → otherRow k = false → ∃ t, exec (.packetForward i k dl) s = .next t ∧
      t.peer.discarded = satAdd 64 s.peer.discarded 1 ∧ t.mem = s.mem ∧ ∀ q g, t.cmd q g = s.cmd q g) ∧
    (hears i k dl s → idle s → k.dest ≠ s.peer.nodeId →
      let r := s.route k dl (if (s.link i).routeDir < 6 then some (s.link i).routeDir else none)
      ∃ t, exec (.packetForward i k dl) s = .next t ∧ t.mem = s.mem ∧ (∀ q g, t.cmd q g = s.cmd q g) ∧
        (s.peer.txOff = true → t.out = s.out ∧ t.peer.discarded = s.peer.discarded) ∧
        (s.peer.txOff = false → r = none → t.peer.discarded = satAdd 64 s.peer.discarded 1 ∧
          ∀ j k' c fl, .packet j k' c fl ∈ t.out → .packet j k' c fl ∈ s.out) ∧
        (∀ j k' c, s.peer.txOff = false → r = some (j, k', c) →
          (k', c) ∈ (t.link j).txq ∨ ∃ fl, .packet j k' c fl ∈ t.out))) ∧
  (∀ (i : PeerPort) (k : Packet) (dl : Bool) (s : State), hears i k dl s → idle s → k.dest = s.peer.nodeId →
    packetFormed k = false →
    ∀ c, (c = .write i (k, dl) ∧ k.ptype = 1 ∨ c = .read i (k, dl) ∧ k.ptype = 3 ∨ c = .writeAck i (k, dl) ∧ k.ptype = 2 ∨
        c = .readData i (k, dl) ∧ k.ptype = 4 ∨ c = .collUp i (k, dl) ∧ k.ptype = 0x10 ∨ c = .collDown i (k, dl) ∧ k.ptype = 0x11) →
      ∃ t, exec c s = .next t ∧ t.peer.discarded = satAdd 64 s.peer.discarded 1 ∧ t.mem = s.mem ∧
        ∀ q g, t.cmd q g = s.cmd q g) ∧
  (∀ (i : PeerPort) (k : Packet) (dl : Bool) (s : State), hears i k dl s → idle s → home k s →
    (k.ptype = 1 → ∃ t, exec (.write i (k, dl)) s = .next t ∧
      ((∀ y ∈ s.peer.admitted, y.1 ≠ k) →
        s.writeCtx k = (s.windowFor k.src (pf k 12 8) k.payload.length true).map (·.ctx)) ∧
      (s.writeCtx k = none → t.mem = s.mem) ∧
      (∀ c u, s.writeCtx k = some c → s.vwrite c (pf k 12 8) k.payload = .ok u → t.mem = u.mem)) ∧
    (k.ptype = 3 →
      let ans : Nat × List Byte := match s.windowFor k.src (pf k 12 8) (pf k 24 4) false with
        | none => (1, [])
        | some x => match s.vread x.ctx (pf k 12 8) (pf k 24 4) with
          | .ok b => (0, b)
          | .error _ => (1, [])
      let r := s.route (s.packetTo k.src 4 (toLe 4 (pf k 20 4) ++ toLe 1 ans.1) ans.2) false none
      ∃ t, exec (.read i (k, dl)) s = .next t ∧ t.mem = s.mem ∧ t.ctxs = s.ctxs ∧
        (s.peer.txOff = false → r = none → t.peer.discarded = satAdd 64 s.peer.discarded 1) ∧
        (∀ j k' c, s.peer.txOff = false → r = some (j, k', c) →
          (k', c) ∈ (t.link j).txq ∨ ∃ fl, .packet j k' c fl ∈ t.out)) ∧
    (∀ x read, s.peer.txns.find? (fun y => y.txn.toNat == pf k 12 4 && y.read == read) = some x → pf k 16 1 = 0 →
      x.dead = false →
      (read = false → k.ptype = 2 → ∃ t, exec (.writeAck i (k, dl)) s = .next t ∧ x ∉ t.peer.txns ∧
        ∀ q g, t.cmd q g = { s.cmd q g with melted := (t.cmd q g).melted, tested := (t.cmd q g).tested }) ∧
      (read = true → k.ptype = 4 → ∃ t, exec (.readData i (k, dl)) s = .next t ∧ x ∉ t.peer.txns ∧
        let old := Tab.get [] (s.cmd x.port x.tag).snap.data x.eng.val
        Tab.get [] (t.cmd x.port x.tag).snap.data x.eng.val =
          patch (old ++ List.replicate (x.off - old.length) 0) x.off (k.payload.take x.len))) ∧
    (∀ i', (i' = .collUp i (k, dl) ∧ k.ptype = 0x10 ∨ i' = .collDown i (k, dl) ∧ k.ptype = 0x11) → s.collFate k = .stale →
      ∃ t, exec i' s = .next t ∧ t.peer.staleEpoch = satAdd 64 s.peer.staleEpoch 1 ∧ t.mem = s.mem ∧ t.peer.waiting = [])) ∧
  (∀ (i : PeerPort) (k : Packet) (dl : Bool) (p : Port) (tag : Tag) (g : GroupRec) (s : State),
    let c := s.cmd p tag
    hears i k dl s → home k s → s.collFate k = .take p tag g → s.recordOf c = some g → g.state = 1 →
    c.coll.epoch = g.epoch.toNat → c.coll.digest = g.digest → c.coll.kept = false → c.sparse = false →
    (∀ q h, (s.cmd q h).op = 0x0A → q = p ∧ h = tag) →
    (k.ptype = 0x10 → c.cop ≠ 5 → c.chain = false → c.isSealed (cf k 32 4) = false →
      ∃ t, exec (.collUp i (k, dl)) s = .next t ∧
        (Tab.get {} (t.cmd p tag).coll.segs (cf k 32 4)).contrib =
          (Tab.get {} c.coll.segs (cf k 32 4)).contrib + cf k 36 4) ∧
    (k.ptype = 0x10 → c.isSealed (cf k 32 4) = true → ∃ t, exec (.collUp i (k, dl)) s = .next t ∧ t.cmd p tag = c) ∧
    (k.ptype = 0x11 → c.isSealed (cf k 32 4) = false → ∃ t, exec (.collDown i (k, dl)) s = .next t ∧
      Tab.get (0, []) (t.cmd p tag).coll.sealedSegs (cf k 32 4) = (cf k 36 4, segOfBytes c.wide k.payload))) ∧
  (∀ (n : Nat) (i : PeerPort) (k : Packet) (dl : Bool) (s : State), s.peer.waiting[n]? = some (i, k, dl) →
    (k.ptype = 1 → exec (.collPacketWaitTimeout n) s = .next s) ∧
    (k.ptype ≠ 1 → s.anyRecord (cf k 12 2) = none → ∃ t, exec (.collPacketWaitTimeout n) s = .next t ∧
      t.peer.waiting = s.peer.waiting.eraseIdx n ∧ t.peer.staleEpoch = satAdd 64 s.peer.staleEpoch 1 ∧
      t = { s with out := t.out, peer := { s.peer with
        waiting := t.peer.waiting, staleEpoch := t.peer.staleEpoch, ports := t.peer.ports } })) ∧
  (∀ (i : PeerPort) (r : NoticeRec) (dl : Bool) (s : State), hears i (noticePacket s r) dl s → idle s →
    (r.origin, r.nseq.toNat) ∉ s.peer.seen → ∃ t, exec (.notice i (r, dl)) s = .next t ∧ t.mem = s.mem ∧
      (r.origin, r.nseq.toNat) ∈ t.peer.seen ∧ (r.kind = 1 → (r.node, r.port) ∈ t.peer.downLinks) ∧
      (r.kind = 2 → (r.node, r.port) ∉ t.peer.downLinks ∧ (r.node, r.port) ∉ t.peer.detours)) ∧
  ∀ (txn : W32) (x : PeerTxn) (s : State), s.peer.txns.find? (fun y => y.txn == txn) = some x → x.dead = false →
    s.asks x = true → ∃ t, exec (.peerResponseTimeout txn) s = .next t ∧ x ∉ t.peer.txns ∧
      ((s.cmd x.port x.tag).status = none → (t.cmd x.port x.tag).status = some stFaultAbort) ∧ t.mem.hbm = s.mem.hbm

/-- The faults and the levels they enter (13 R321 to R329, R342). That a gated clock has no fault, which level a fault of the ring manager's clock or of a peer port's link clock enters, and what corrected errors count is log entry 44; what commands do whose condition does not hold, log entry 1. -/
def Obligations.FaultsEnterTheirLevel : Prop :=
  (∀ (pa : Nat) (reader : Option (Port × Tag)) (s : State), s.boot.ready = true →
    (s.served pa = false → exec (.hbmUncorrectableError pa reader) s = .next s) ∧
    (s.served pa = true → ∃ t, exec (.hbmUncorrectableError pa reader) s = .next t ∧ t.served pa = false ∧
      t.mem.hbm = s.mem.hbm ∧
      ∀ p g, reader = some (p, g) → (s.cmd p g).phase = .running → (t.cmd p g).phase = .cancelling ∧
        ((s.cmd p g).status = none → (t.cmd p g).status = some stFaultAbort))) ∧
  (∀ (s : State) (u : UnitId) (pa : Nat), s.powered = false → exec (.correctedError u pa) s = .next s) ∧
  (∀ (s : State) (e : Eng) (q : Part) (m : Stack) (i : PeerPort) (pa : Nat), s.powered = true →
    (∃ t, exec (.correctedError (.engine e) pa) s = .next t ∧
      Tab.get 0 (t.eng e).counts 23 = satAdd 64 (Tab.get 0 (s.eng e).counts 23) 1 ∧ ∀ d, d ≠ e → t.eng d = s.eng d) ∧
    (∃ t, exec (.correctedError (.partition q) pa) s = .next t ∧
      t.part q = { s.part q with corrected := satAdd 64 (s.part q).corrected 1 } ∧ ∀ r, r ≠ q → t.part r = s.part r) ∧
    (pageStack pa = m → s.served pa = true → ∃ t, exec (.correctedError (.memory m) pa) s = .next t ∧
      (t.stack m).corrected = satAdd 64 (s.stack m).corrected 1 ∧ (t.stack m).retired = (s.stack m).retired ∧
      (15 ≤ ((Tab.get [] (s.stack m).pageErrors (pageIndex pa)).filter fun n => decide (s.hk.toNat - n < hkDay)).length →
        pageIndex pa ∈ (t.stack m).pending)) ∧
    (1 ≤ pa → pa ≤ 15 → ∃ t, exec (.correctedError (.peerPort i) pa) s = .next t ∧
      Tab.get 0 (t.link i).counts cntFecSymbols = satAdd 64 (Tab.get 0 (s.link i).counts cntFecSymbols) pa ∧
      Tab.get 0 (t.link i).counts cntFecCodewords = satAdd 64 (Tab.get 0 (s.link i).counts cntFecCodewords) 1 ∧
      ∀ j, j ≠ i → t.link j = s.link j)) ∧
  (∀ (s : State) (e : Eng) (i : Instr), s.wideReset = false → s.inReset e = false →
    (i = .unitFault (.residue e) ∨ i = .unitFault (.parity e) ∨ i = .unitFault (.tileMemory e) ∨ i = .clockFault (.engine e) ∨
      (i = .engineHang e ∧ s.workPending e = true)) → (i = .clockFault (.engine e) → s.isolated e = false) →
    ∃ t, exec i s = .next t ∧ t.rcv.inReset = s.rcv.inReset ||| engBit e ∧ t.rcv.fence = s.rcv.fence ||| engBit e ∧
      t.rcv.lastLevel = 2 ∧ (i = .clockFault (.engine e) → t.rcv.cause = 2) ∧ (i = .engineHang e → t.rcv.cause = 1)) ∧
  (∀ (s : State) (e : Eng), (s.workPending e = false → exec (.engineHang e) s = .next s) ∧
    (s.isolated e = true → exec (.clockFault (.engine e)) s = .next s)) ∧
  (∀ (s : State) (q : Part) (i : Instr), s.wideReset = false → s.rcv.partInReset.getLsbD q.val = false →
    (i = .unitFault (.bufferControl q) ∨ i = .unitFault (.regulator q) ∨ i = .unitFault (.rail q) ∨
      i = .domainWatchdogExpiry (.partitionControl q) ∨ i = .clockFault (.partition q)) →
    (i = .clockFault (.partition q) → s.rcv.partFence.getLsbD q.val = false ∧ s.rcv.fenceAll = false) →
    ∃ t, exec i s = .next t ∧ t.rcv.partInReset.getLsbD q.val = true ∧ t.rcv.partFence.getLsbD q.val = true ∧
      t.rcv.lastLevel = 3) ∧
  (∀ (s : State) (m : Stack) (p : Port) (i : Instr), s.wideReset = false →
    i ∈ [.unitFault (.memoryControl m), .unitFault .mmuControl, .unitFault .routerControl, .unitFault .bridgeControl,
      .domainWatchdogExpiry (.memoryController m), .domainWatchdogExpiry (.ringManager p), .domainWatchdogExpiry .router,
      .domainWatchdogExpiry .bridge, .domainWatchdogExpiry .mmu, .clockFault (.memoryController m), .clockFault .router,
      .clockFault .bridge, .clockFault .mmu, .clockFault (.ringManager p)] →
    ∃ t, exec i s = .next t ∧ t.rcv.modReset = .running ∧ t.rcv.lastLevel = 4 ∧ t.boot.ready = false ∧ t.ctxs = []) ∧
  (∀ (s : State) (i : PeerPort) (c : Instr), (c = .domainWatchdogExpiry (.peerLink i) ∨ c = .clockFault (.peerLink i)) →
    (s.link i).state = .up → ∃ t, exec c s = .next t ∧ (t.link i).state = .down ∧ t.rcv = s.rcv) ∧
  (∀ (s : State) (i : Instr), s.rcv.powerCycle = false → s.powered = true →
    (i = .unitFault .housekeepingSram ∨ i = .domainWatchdogExpiry .housekeeping) →
    ∃ t, exec i s = .next t ∧ t.rcv.powerCycle = true ∧ t.rcv.cycleCause = 0x0D ∧ t.pwr.alertN = false) ∧
  (∀ (s : State) (p : Port) (g : Tag) (i : Instr), (i = .unitFault (.bufferData p g) ∨ i = .unitFault (.poisoned p g)) →
    (s.cmd p g).phase = .running → ∃ t, exec i s = .next t ∧ (t.cmd p g).phase = .cancelling ∧
      ((s.cmd p g).status = none → (t.cmd p g).status = some stFaultAbort)) ∧
  ∀ (s : State) (c : CtxNo) (i : Instr), (i = .unitFault (.contextState c) ∨ i = .contextAbortOnFault c) →
    s.wideReset = false → (s.ctx c).state = .active → (s.ctx c).ends = [] →
    ∃ t, exec i s = .next t ∧ t.rcv.lastLevel = 1 ∧ (s.cmdsOf c = [] → (t.ctx c).state = s.liveState c) ∧
      ((∃ x ∈ s.cmdsOf c, x.2.2.phase ≠ .record) → (t.ctx c).state = .aborting ∧
        ∀ p g, (p, g, s.cmd p g) ∈ s.cmdsOf c → (s.cmd p g).phase ≠ .record →
          (s.cmd p g).status = none → (t.cmd p g).status = some stFaultAbort)

/-- The supplies, the temperature and the clock reference (17 R412 to R422; 01 R25). What a trigger that finds nothing to stop does is log entry 1, what the governor and a thermal shutdown leave log entry 50, what a trigger within a reset or a request does log entries 45 and 46. -/
def Obligations.SupplyTemperatureAndClockFaults : Prop :=
  (∀ (s : State) (i : Instr), (i = .inputUndervoltage ∨ i = .inputOvervoltage ∨ i = .thermalShutdown) →
    s.pwr.mainOn = true → s.rcv.powerCycle = false → s.rcv.modReset = .none → s.powered = true → s.pwr.hkRunning = true →
    (i ≠ .thermalShutdown → s.pwr.input48 = true) → (i = .thermalShutdown → s.pwr.thermal = false) →
    ∃ t, exec i s = .next t ∧ t.pwr.mainOn = false ∧ t.rcv.modReset = .heldSupply ∧ t.rcv.partFence = 0xFF ∧
      t.boot.ready = false ∧ t.boot.phase = 0 ∧ t.rcv.lastLevel = 4 ∧ t.rcv.cause = 7 ∧
      (i ≠ .thermalShutdown → t.pwr.input48 = false) ∧
      (i = .thermalShutdown → t.pwr.thermal = true ∧ t.pwr.faultN = false ∧ t.pwr.thermN = false)) ∧
  (∀ (s : State) (i : Instr), (i = .inputUndervoltage ∨ i = .inputOvervoltage) →
    let u : State := { s with pwr := { s.pwr with input48 := false } }
    (s.pwr.input48 = false → exec i s = .next s) ∧
    (s.pwr.input48 = true → s.pwr.mainOn = false → s.rcv.modReset = .none → s.rcv.powerCycle = false → exec i s = .next u) ∧
    (s.pwr.input48 = true → s.pwr.mainOn = false → (s.rcv.modReset ≠ .none ∨ s.rcv.powerCycle = true) →
      exec i s = .next (u.recordOnly { cls := 11, unit := 10 })) ∧
    (s.pwr.input48 = true → s.pwr.mainOn = true → s.rcv.powerCycle = true →
      ∃ t, exec i s = .next t ∧ t.pwr.mainOn = false ∧ t.rcv = s.rcv ∧ t.boot = s.boot ∧ t.engines = s.engines)) ∧
  (∀ (s : State), s.pwr.mainOn = false → exec .inputOvercurrent s = .next s ∧ exec .inputBladeOpen s = .next s) ∧
  (∀ (s : State) (n : Fin 22), s.rcv.powerCycle = false →
    let on := s.powered = true ∧ bitOf s.pwr.stagesOff (n.val + 1) = false ∧
      (s.pwr.mainOn = true ∨ (n.val = 0 ∧ s.pwr.input48 = true))
    (¬on → exec (.railStageShort n) s = .next s) ∧
    (on → ∃ t, exec (.railStageShort n) s = .next t ∧ t.pwr.shorted = n.val + 1 ∧
      bitOf t.pwr.stagesOff (n.val + 1) = true ∧ t.pwr.faultN = false ∧ t.rcv.powerCycle = true ∧ t.rcv.cycleCause = 7) ∧
    (s.pwr.mainOn = true → s.powered = true → ∃ t, exec .inputOvercurrent s = .next t ∧ t.pwr.shorted = 1 ∧
      t.pwr.mainOn = false ∧ t.rcv.powerCycle = true)) ∧
  (∀ (s : State), ∃ t, exec .reversedInput s = .next t ∧ t.pwr.reversedNow = true ∧ t.pwr.input48 = false ∧
    (s.pwr.input48 = true → t.pwr.mainOn = false) ∧ (s.powered = true → t.pwr.reversed = true ∧ t.pwr.faultN = false ∧
      t.out.getLast? = some (.pldmEvent "reversed input" 0)) ∧ exec .inputQualified t = .next t) ∧
  (∀ (s : State), exec .polarityRestored s = .next { s with pwr := { s.pwr with
    reversedNow := false, faultN := if s.pwr.stagesOff = 0 ∧ s.pwr.thermalFault = false then true else s.pwr.faultN } }) ∧
  (∀ (s : State), s.pwr.reversedNow = false → ∃ t, exec .inputQualified s = .next t ∧ t.pwr.input48 = true ∧
    (({ s.pwr with input48 := true } : PwrBlock).mayConvert = true → s.boot.recovery = false →
      t.pwr.mainOn = true ∧ t.rcv.powerCycle = s.rcv.powerCycle ∧
      (s.pwr.mainOn = false → s.rcv.modReset = .heldSupply → t.rcv.modReset = .running))) ∧
  (∀ (s : State), s.pwr.thermal = true → ∃ t, exec .thermalResume s = .next t ∧ t.pwr.thermal = false ∧
    t.pwr.thermN = true ∧
    let starts := ({ s.pwr with thermal := false } : PwrBlock).mayConvert = true ∧ s.pwr.mainOn = false ∧ s.boot.recovery = false
    (starts → t.pwr.mainOn = true ∧ (s.pwr.stagesOff = 0 → t.pwr.faultN = true)) ∧
    (¬starts → t.pwr.mainOn = s.pwr.mainOn ∧ t.pwr.faultN = s.pwr.faultN)) ∧
  (∀ (s : State), s.pwr.hkRunning = true → exec (.sensorWarning .coldPlate) s = .next { s with
      out := s.out ++ [.pldmEvent "sensor warning" 4], pwr := { s.pwr with thermN := false } } ∧
    (s.pwr.mainOn = true → exec .inputBladeOpen s = .next { s with out := s.out ++ [.pldmEvent "input blade open" 0] })) ∧
  (∀ (s : State), s.powered = true → s.pwr.refclk = true → s.rcv.powerCycle = false → s.rcv.modReset = .none →
    ∃ t, exec .refclkLoss s = .next t ∧ t.pwr.refclk = false ∧ t.pwr.hkRunning = false ∧ t.rcv.modReset = .heldRefclk ∧
      t.boot.ready = false ∧ t.rcv.cause = 2) ∧
  (∀ (s : State), s.rcv.modReset = .heldRefclk →
    let w : PwrBlock := { s.pwr with refclk := true, hkRunning := s.pwr.pll }
    (s.pwr.mainOn = true → exec .refclkReturn s = .next { s with pwr := w, rcv := { s.rcv with modReset := .running } }) ∧
    (s.pwr.mainOn = false → ∃ t, exec .refclkReturn s = .next t ∧ t.pwr.refclk = true ∧ t.pwr.hkRunning = s.pwr.pll ∧
      (w.mayConvert = true → s.boot.recovery = false →
        t.rcv.modReset = .running ∧ t.pwr.mainOn = true ∧ ∀ q : Part, (t.part q).actualCode = 64) ∧
      (w.mayConvert = false → t.rcv.modReset = .heldSupply ∧ t.pwr.mainOn = false))) ∧
  ∀ (s : State), exec (.powerGovernor true) s = .next { s with pwr := { s.pwr with governing := true } } ∧
    (s.pwr.governing = true → ∃ t n, exec (.powerGovernor false) s = .next t ∧ t.pwr.governing = false ∧
      t.pwr.withheld = (s.pwr.withheld + n) % 2 ^ 64 ∧ t.mem = s.mem ∧ t.engines = s.engines)

/-- The start (15 R366 to R374; 17 R415). What a command does while its condition does not hold is the model's choice (DESIGN CHOICE, log entry 1), and so are the two steps of DIES_LOADED and whole milliseconds in READY_MS (log entry 67); how the two copies of the boot preference count is log entry 53, what a start after a request shows log entry 44. -/
def Obligations.StartUpStepByStep : Prop :=
  (∀ s : State, (s.pwr.aux = true → ∃ t, exec .aux3v3Loss s = .next t ∧ t.pwr.aux = false ∧ t.pwr.mainOn = false ∧
      t.boot.ready = false ∧ t.ctxs = [] ∧ t.engines = [] ∧ t.mem.hbm = [] ∧ t.hk = 0 ∧ t.rcv.powerCycle = false ∧
      t.age.log = s.age.log ∧ t.age.plans = s.age.plans ∧ t.age.seq = s.age.seq ∧ t.boot.banks = s.boot.banks ∧ t.boot.copies = s.boot.copies ∧
      t.boot.svnFuses = s.boot.svnFuses ∧ t.sec.certs = s.sec.certs ∧ t.sec.locked = false ∧
      (∀ m, (t.stack m).retired = (s.stack m).retired) ∧ t.mem.host = s.mem.host) ∧
    (s.pwr.aux = false → exec .aux3v3Loss s = .next s ∧ exec .aux3v3Rise s = .next { s with pwr := { s.pwr with aux := true } })) ∧
  (∀ (strap : BitVec 3) (s : State), s.pwr.aux = true → s.pwr.pll = false → s.pwr.refclk = true →
    ∃ t, exec (.rootPllLock strap) s = .next t ∧ t.hk = 0 ∧ t.pwr.pll = true ∧ t.pwr.hkRunning = true ∧
      t.pwr.strap = strap.toNat ∧ t.boot.lostRequested = none ∧
      (∀ c, s.boot.lostRequested = some c → t.rcv.lastLevel = 5 ∧ t.rcv.cause = c ∧ t.rcv.escalated = (c == 8)) ∧
      ∀ q : Part, (t.part q).opSeconds = Tab.get 0 s.age.savedOp q.val) ∧
  (∀ (s : State), s.pwr.mainOn = true → s.boot.diesUp = false → s.boot.recovery = false →
    s.rcv.powerCycle = false → s.rcv.modReset ≠ .heldRefclk →
    (s.boot.phase = 1 →
      (s.boot.diesOk s.boot.bank = true → ∃ t, exec (.diesLoaded true) s = .next t ∧ t.sec.meas.length = 9 ∧
        t = { s with boot := { s.boot with phase := 2 }, sec := { s.sec with meas := t.sec.meas } }) ∧
      (∀ b, b = false ∨ s.boot.diesOk s.boot.bank = false →
        (s.boot.trialRunning = false → exec (.diesLoaded b) s = .next { s with boot := { s.boot with
          phase := 15, failCode := 6 } }) ∧
        (s.boot.trialRunning = true → s.boot.pref.seq + 1 < 2 ^ 32 → ∃ t, exec (.diesLoaded b) s = .next t ∧
          t.boot.preferred = otherBank s.boot.preferred ∧ t.boot.trial = false ∧
          t = { s with boot := { s.boot with
            phase := 15, failCode := 6, copies := t.boot.copies, trialRunning := false, lostTrial := 6 } }))) ∧
    (s.boot.phase = 2 → ∀ b, ∃ t, exec (.diesLoaded b) s = .next t ∧ t.boot.phase = 3 ∧ t.boot.diesUp = true ∧
      t.rcv.inReset = 0 ∧ t.rcv.partFence = 0 ∧ t.sec = s.sec ∧
      (∀ q : Part, (t.part q).actualCode = (s.part q).planCode) ∧
      ∀ i, s.mayTrain i = true → (t.link i).state = .step 0)) ∧
  (∀ (trained again : BitVec 6) (s : State),
    (s.boot.phase ≠ 3 → exec (.hbmTrainingComplete trained again) s = .next s) ∧
    (s.boot.phase = 3 → s.rcv.modReset ≠ .heldRefclk → s.rcv.powerCycle = false →
      (trained ||| again = 0x3F → ∃ t, exec (.hbmTrainingComplete trained again) s = .next t ∧ t.boot.ready = true ∧ t.boot.phase = 4 ∧
        t.boot.hbmTrained = 0x3F ∧ t.boot.readyMs = (s.hk - s.boot.startHk).toNat / 187500 % 2 ^ 32 ∧ t.pwr.readyN = false ∧ t.rcv.modReset = .none ∧
        t.mem.hbm = [] ∧ t.ctxs = s.ctxs) ∧
      (∀ m : Fin 6, (trained ||| again).getLsbD m.val = false → (∀ k : Fin 6, k.val < m.val → (trained ||| again).getLsbD k.val = true) →
        ∃ t, exec (.hbmTrainingComplete trained again) s = .next t ∧ t.boot.ready = s.boot.ready ∧ t.boot.phase = 15 ∧
          t.boot.failCode = 0x20 + m.val))) ∧
  ∀ s : State, (s.boot.ready = true → exec .trialTimeout s = .next s) ∧
    (s.boot.ready = false → s.boot.trialRunning = true → s.boot.pref.seq + 1 < 2 ^ 32 → ∃ t, exec .trialTimeout s = .next t ∧ t.boot.trial = false ∧
      t.boot.preferred = otherBank s.boot.preferred ∧ t.boot.lostTrial = 8)

/-- Monitors, samples, the hourly save and rail steps (14 R353 to R360). What a command does while its condition does not hold is the model's choice (DESIGN CHOICE, log entry 1). Clauses on the points of log entry 41 rest on it (DEDUCED). -/
def Obligations.SamplesSavesAndRailSteps : Prop :=
  (∀ (e : Eng) (vs : List Nat) (s : State), vs.length = 16 → (∀ v ∈ vs, 60 ≤ v ∧ v < 4096) →
    (s.part (partOf e)).sweeping = false → ∃ t m,
    exec (.pathDelaySample e vs) s = .next t ∧ (t.part (partOf e)).slackMin = some m ∧ (∀ v ∈ vs, m ≤ v) ∧
    (∀ w, (s.part (partOf e)).slackMin = some w → m ≤ w) ∧ (m ∈ vs ∨ (s.part (partOf e)).slackMin = some m) ∧
    ((s.eng e).slack = [] → Tab.get 0 (t.eng e).slack 0 ∈ vs ∧ (∀ v ∈ vs, Tab.get 0 (t.eng e).slack 0 ≤ v) ∧
      vs[Tab.get 0 (t.eng e).slack 1]? = some (Tab.get 0 (t.eng e).slack 0)) ∧
    (t.part (partOf e)).actualCode = (s.part (partOf e)).actualCode ∧
    t = { s with engines := t.engines, parts := t.parts }) ∧
  (∀ (e : Eng) (vs : List Nat) (s : State), vs.length = 16 → (∀ v ∈ vs, v < 4096) → (s.part (partOf e)).sweeping = true →
    ∃ t m, exec (.pathDelaySample e vs) s = .next t ∧ ((s.part (partOf e)).actualCode, m) ∈ (t.part (partOf e)).sweep ∧
      (∀ v ∈ vs, m ≤ v) ∧ (t.part (partOf e)).slackMin = (s.part (partOf e)).slackMin ∧
      (t.part (partOf e)).raises = (s.part (partOf e)).raises ∧ t = { s with parts := t.parts }) ∧
  (∀ (e : Eng) (v : Nat) (vs : List Nat) (s : State), vs.length = 15 → v < 60 → (∀ w ∈ vs, 60 ≤ w ∧ w < 4096) →
    (s.part (partOf e)).window = false → (s.part (partOf e)).sweeping = false →
    (∀ i ∈ (s.part (partOf e)).items, i.test = 0x20 → i.cmd = none) → ∃ t, exec (.pathDelaySample e (v :: vs)) s = .next t ∧
    ((s.part (partOf e)).actualCode < 64 →
      (t.part (partOf e)).actualCode = (s.part (partOf e)).actualCode + 1 ∧
      (t.part (partOf e)).raises = min ((s.part (partOf e)).raises + 1) 0xFFFF ∧ t.age.exhausted = s.age.exhausted) ∧
    (64 ≤ (s.part (partOf e)).actualCode →
      (t.part (partOf e)).actualCode = (s.part (partOf e)).actualCode ∧ bitOf t.age.exhausted (partOf e).val = true ∧
      ∀ p : Port, bitOf (t.port p).cause 6 = true) ∧
    t.mem = s.mem ∧ t.ctxs = s.ctxs) ∧
  (∀ (q : Part) (counts : List Nat) (s : State), exec (.monitorSample (.oscillators q counts)) s =
    .next (s.updPart q fun a => { a with oscillators := counts.take 8 })) ∧
  (∀ (v : MonitorValue) (s : State), (∀ q c, v ≠ .oscillators q c) → ∃ t, exec (.monitorSample v) s = .next t ∧
    t = { s with age := { s.age with peerEye := t.age.peerEye, hostEye := t.age.hostEye, hbmMargin := t.age.hbmMargin } }) ∧
  (∀ (i : PeerPort) (ls : List LaneEye) (s : State), Tab.get [] s.age.peerEye i.val = [] → ls.length = 8 → ∃ t h w lh lw,
    exec (.monitorSample (.peerEye i ls)) s = .next t ∧ Tab.get [] t.age.peerEye i.val = [h, w, lh, lw] ∧
    (∀ l ∈ ls, h ≤ l.low ∧ h ≤ l.middle ∧ h ≤ l.high ∧ w ≤ l.width) ∧
    ls[lh]?.map LaneEye.height = some h ∧ ls[lw]?.map (·.width) = some w) ∧
  (∀ (m : Stack) (cs : List (BitVec 8 × BitVec 8)) (s : State), Tab.get [] s.age.hbmMargin m.val = [] → cs.length = 32 →
    ∃ t r w cr cw, exec (.monitorSample (.hbmMargin m cs)) s = .next t ∧ Tab.get [] t.age.hbmMargin m.val = [r, w, cr, cw] ∧
    (∀ c ∈ cs, r ≤ c.1.toNat ∧ w ≤ c.2.toNat) ∧
    cs[cr]?.map (·.1.toNat) = some r ∧ cs[cw]?.map (·.2.toNat) = some w) ∧
  (∀ (s : State), ∃ t, exec .hourlyLedgerSave s = .next t ∧ t.age.seq = s.age.seq + 22 ∧
    (∀ q : Part, Tab.get [] t.age.log ((s.age.seq + q.val) % 524288) =
      ledgerRecord 1 1 q.val (s.age.seq + q.val) (s.part q).opSeconds (s.measure q)) ∧
    (∀ e : Eng, (t.eng e).slack = []) ∧ t.age.peerEye = [] ∧ t.age.hostEye = [] ∧ t.age.hbmMargin = [] ∧
    (∀ q : Part, Tab.get 0 t.age.savedOp q.val = (s.part q).opSeconds) ∧ Tab.get 0 t.age.savedOp 8 = s.age.modOpSeconds ∧
    t = { s with engines := t.engines, age := t.age }) ∧
  ∀ (q : Part) (s : State),
    let down := Host.Outcome.next (s.updPart q fun a => { a with actualCode := a.actualCode - 1 })
    let runs (n : Nat) : Bool := (s.part q).running.any fun i => i.test == n
    ((s.part q).window = true → runs 0x11 = false → runs 0x20 = false → exec (.railCodeStep q) s = .next s) ∧
    ((s.part q).window = true → runs 0x11 = true → runs 0x20 = false →
      exec (.railCodeStep q) s = if 0 < (s.part q).actualCode ∧ (s.part q).planCode < (s.part q).actualCode + 10 ∧
        (∀ x ∈ (s.part q).sweep, x.1 = (s.part q).actualCode → 60 ≤ x.2) then down else .next s) ∧
    (∀ w, (s.part q).window = true → runs 0x11 = false → runs 0x20 = true → (s.part q).lowering = some w →
      exec (.railCodeStep q) s =
        if (s.part q).raised = false ∧ w.code - 1 < (s.part q).actualCode then down else .next s) ∧
    ((s.part q).window = false → (s.part q).actualCode < (s.part q).target → (s.part q).actualCode < 64 →
      exec (.railCodeStep q) s = .next (s.updPart q fun a => { a with actualCode := a.actualCode + 1 })) ∧
    ((s.part q).window = false → (s.part q).target < (s.part q).actualCode → (s.part q).planCode < (s.part q).actualCode →
      exec (.railCodeStep q) s = down) ∧
    ((s.part q).window = false → (s.part q).actualCode = (s.part q).target → exec (.railCodeStep q) s = .next s)

/-- Plans and windows (14 R358 to R364). Clauses on the points of log entries 41 and 42 rest on them (DEDUCED). What a command does while its condition does not hold is the model's choice (DESIGN CHOICE, log entry 1). -/
def Obligations.PlansAndWindows : Prop :=
  (∀ (q : Part) (s : State), (s.boot.ready = false ∨ ((s.part q).planned = true ∧ (s.part q).hours < (s.part q).planHours + 1000)) →
    exec (.planTimer q) s = .next s) ∧
  (∀ (q : Part) (s : State) (v : Nat), s.boot.ready = true → (s.part q).planned = false → (s.part q).lowering = none →
    (s.part q).slackMin = some v → (s.part q).queued < 16 → (∀ i ∈ (s.part q).items ++ (s.part q).running, i.test ≠ 0x20) →
    (((s.part q).plan v).code < (s.part q).planCode → ∃ t, exec (.planTimer q) s = .next t ∧
      (t.part q).planCode = (s.part q).planCode ∧ (t.part q).actualCode = (s.part q).actualCode ∧
      (∃ i : TestItem, i.test = 0x20 ∧ (t.part q).items = (s.part q).items ++ [i]) ∧
      t = { s.updPart q (fun _ => t.part q) with fresh := t.fresh }) ∧
    ((s.part q).planCode ≤ ((s.part q).plan v).code → ∃ t, exec (.planTimer q) s = .next t ∧
      (t.part q).planCode = ((s.part q).plan v).code ∧ (t.part q).target = ((s.part q).plan v).code ∧
      (t.part q).actualCode = (s.part q).actualCode ∧ (t.part q).slackMin = none ∧ t.age.seq = s.age.seq + 1 ∧
      (((s.part q).plan v).margin < 8760 → bitOf t.age.lowMargin q.val = true ∧ ∀ p : Port, bitOf (t.port p).cause 6 = true) ∧
      t.mem = s.mem ∧ t.engines = s.engines ∧ t.ctxs = s.ctxs)) ∧
  (∀ (q : Part) (results : List ItemResult) (s : State) (i : TestItem) (l : List TestItem), (s.part q).window = false →
    s.windowItems q = i :: l → s.rcv.partInReset.getLsbD q.val = false →
    let halts (e : Eng) : Bool := if (s.part q).preempting then s.atBoundary e else s.betweenCommands e
    ((∀ e ∈ enginesOf q, s.isolated e = false → halts e = true) →
      ∃ t, exec (.windowOpen q results) s = .next t ∧ (t.part q).window = true ∧ (t.part q).results = results ∧
        (t.part q).running.head? = some { i with preempted := (s.part q).preempting } ∧
        (t.part q).running.length + (t.part q).items.length = (s.part q).items.length ∧
        ((i.test = 0x11 ∧ (t.part q).running.length = 1) ∨ ((t.part q).running.map itemMicros).sum ≤ 40) ∧
        t = s.updPart q fun _ => t.part q) ∧
    ((∃ e ∈ enginesOf q, s.isolated e = false ∧ halts e = false) →
      exec (.windowOpen q results) s = .next s)) ∧
  (∀ (q : Part) (s : State),
    ((s.part q).window = false → exec (.windowClose q) s = .next s) ∧
    ((s.part q).window = true → (s.part q).inTrial = true → exec (.windowClose q) s = .next s) ∧
    ((s.part q).window = true → (s.part q).inTrial = false → ∃ t, exec (.windowClose q) s = .next t ∧
      (t.part q).window = false ∧ (t.part q).running = [] ∧ (t.part q).results = [] ∧
      ((∀ i ∈ (s.part q).running ++ (s.part q).items, i.cmd = none ∧ i.test ≠ 0x10) → ∀ e : Eng, t.eng e = s.eng e) ∧
      ∀ it w, (s.part q).running = [it] → it.test = 0x20 → it.cmd = none → (s.part q).lowering = some w →
        (∀ i ∈ (s.part q).items, i.test ≠ 0x20) →
        let fail := ((s.part q).results.getD 0 { fail := false, failEngines := 0, values := [] }).fail || (s.part q).raised
        let code := if fail then (s.part q).planCode else w.code
        (t.part q).actualCode = (if (s.part q).raised = true then max code (s.part q).actualCode else code) ∧
          (t.part q).raised = false ∧ (fail = true → bitOf t.age.lowerFailed q.val = true) ∧
          ((s.part q).replanQueued = false → (t.part q).planCode = code ∧ (t.part q).lowering = none ∧
            t.age.seq = s.age.seq + 1))) ∧
  (∀ (q : Part) (s : State), (s.windowItems q ≠ [] → (s.part q).window = false →
      exec (.preemptionTimeout q) s = .next (s.updPart q fun a => { a with preempting := true })) ∧
    ((s.windowItems q = [] ∨ (s.part q).window = true) → exec (.preemptionTimeout q) s = .next s)) ∧
  ∀ (p : Port) (t : Tag) (q : Part) (r : ItemResult) (s : State), (s.cmd p t).phase = .running → (s.cmd p t).op = 0x0F →
    (s.cmd p t).progress ≠ 0 → q.val ∈ (s.cmd p t).testKeys → ((s.cmd p t).outs.any fun o => o.1 == q.val) = false →
    (∃ k ∈ (s.cmd p t).testKeys, k ≠ q.val ∧ ((s.cmd p t).outs.any fun o => o.1 == k) = false) →
    let test := (s.cmd p t).f 50 2
    let named := itemEngines q (s.cmd p t).testMask
    let ran := if r.fail = true then 1 else 0
    let took (s1 : State) (o : ItemOut) : State := s1.updCmd p t fun c => { c with outs := Tab.set c.outs q.val o }
    let left : State := s.updPart q fun a => a.setItems (a.items.filter fun i => i.cmd != some (p, t))
    ((test = 0x30 ∨ test = 0x31) → exec (.backgroundItemComplete p t q r) s = .next (took s { result := ran, windows := 0, preempted := false, failEngines := r.failEngines.toNat, values := r.values })) ∧
    (∀ i, ((s.part q).items.find? fun i => i.cmd == some (p, t)) = some i → test ≠ 0x30 → test ≠ 0x31 →
      (windowTest test = true → s.itemFenced q i = false → exec (.backgroundItemComplete p t q r) s = .next s) ∧
      ((∃ e ∈ named, s.inReset e = true) → exec (.backgroundItemComplete p t q r) s = .next s) ∧
      ((windowTest test = false ∨ s.itemFenced q i = true) → (∀ e ∈ named, s.inReset e = false) →
        (test ≠ 0x10 → ∃ (o : ItemOut) (es : Tab Engine), exec (.backgroundItemComplete p t q r) s =
            .next { took left o with engines := es } ∧ o.windows = 0 ∧ o.preempted = false ∧
          (∀ e : Eng, ({ s with engines := es } : State).eng e =
            if test = 3 ∧ e ∈ named ∧ s.isolated e = true then (s.eng e).marched else s.eng e) ∧
          (test ≠ 3 → test ≠ 4 → o.result = ran) ∧
          (test = 3 → (∀ e ∈ named, s.isolated e = true) → o.result = ran) ∧
          (test = 3 → named ≠ [] → (∀ e ∈ named, s.isolated e = false) → o.result = 2) ∧
          (test = 4 → (s.rcv.partFence.getLsbD q.val = true ∨ s.rcv.fenceAll = true) → o.result = ran) ∧
          (test = 4 → s.rcv.partFence.getLsbD q.val = false → s.rcv.fenceAll = false → o.result = 2)) ∧
        (test = 0x10 → r.slacks.length = 128 → (∀ v ∈ r.slacks, 60 ≤ v ∧ v < 4096) → (s.part q).sweeping = false →
          ∃ (o : ItemOut) (u : State), exec (.backgroundItemComplete p t q r) s = .next (took u o) ∧
            o.values = (enginesOf q).flatMap (fun e => toLe 2 ((itemSamples r e).foldl min 0xFFF)) ∧
            u = { left with engines := u.engines, parts := u.parts } ∧
            (∃ m, (u.part q).slackMin = some m ∧ ∀ v ∈ r.slacks, m ≤ v)))) ∧
    (((s.part q).items.find? fun i => i.cmd == some (p, t)) = none → test ≠ 0x30 → test ≠ 0x31 →
      exec (.backgroundItemComplete p t q r) s = .next s)

/-- SPDM (15 R375 to R378); that its requests come in the standard's order, with its bits and flags, is the model's (PRESUMED, log entry 60), and so is the choice of RSASSA where both are offered (DESIGN CHOICE, log entry 60). What a command does while its condition does not hold is the model's choice (DESIGN CHOICE, log entry 1). -/
def Obligations.SpdmRequestsFollowTheirOrder : Prop :=
  (∀ (x : Transport) (i : Instr) (s : State), s.serves x = false →
    (i = .getVersion x ∨ i = .getCapabilities x ∨ (∃ o, i = .negotiateAlgorithms x o) ∨ i = .getDigests x ∨
      (∃ k o n, i = .getCertificate x k o n) ∨ (∃ k n, i = .challenge x k n) ∨ (∃ k g, i = .getMeasurements x k g) ∨
      (∃ k h, i = .keyExchange x k h) ∨ (∃ k v, i = .finish x k v) ∨ (∃ k, i = .keyUpdate x k) ∨ (∃ k, i = .heartbeat x k) ∨
      (∃ k, i = .endSession x k) ∨ (∃ k, i = .getCsr x k) ∨ (∃ k n c, i = .setCertificate x k n c) ∨
      (∃ k n c, i = .ideKm x k n c)) → exec i s = .next s) ∧
  (∀ (x : Transport) (s : State), s.serves x = true → ∃ t, exec (.getVersion x) s = .next t ∧
    t.conn x = { version := true } ∧ t.out = s.out ++ [.spdm x "VERSION" [0x00, 0x12, 0x00, 0x13]] ∧
    (∀ y, y ≠ x → t.conn y = s.conn y) ∧ t = { s with sec := { s.sec with conns := t.sec.conns }, out := t.out }) ∧
  (∀ (x : Transport) (s : State) (i : Instr), s.serves x = true →
    ((i = .getCapabilities x ∧ (s.conn x).version = false) ∨
      (∃ o, i = .negotiateAlgorithms x o ∧ ((s.conn x).capabilities = false ∨ offerFits o = false)) ∨
      (i = .getDigests x ∧ (s.conn x).algorithms = false) ∨
      (∃ k o n, i = .getCertificate x k o n ∧ ((s.conn x).algorithms = false ∨ s.hasChain k.val = false)) ∨
      (∃ k n, i = .challenge x k n ∧ ((s.conn x).algorithms = false ∨ s.hasChain k.val = false)) ∨
      (∃ k g, i = .getMeasurements x k g ∧ ((s.conn x).algorithms = false ∨ (10 < k.toNat ∧ k.toNat ≠ 255))) ∨
      (∃ k h, i = .keyExchange x k h ∧ ((s.conn x).algorithms = false ∨ s.hasChain k.val = false ∨
        ∀ m < 4, (s.conn x).taken m = true)) ∨
      (∃ k v, i = .finish x k v ∧ ∀ h ∈ (s.conn x).handshaking, h.1 ≠ k.val) ∨
      (∃ k, (i = .keyUpdate x k ∨ i = .heartbeat x k ∨ i = .endSession x k) ∧ (s.conn x).live k.val = false) ∨
      (∃ k, (∀ j, k = some j → (s.conn x).live j.val = false) ∧
        (i = .getCsr x k ∨ ∃ n c, i = .setCertificate x k n c ∨ i = .ideKm x k n c)) ∨
      (∃ k c, i = .setCertificate x k 0 c)) →
    exec i s = .next (s.emit (.spdm x "ERROR" []))) ∧
  (∀ (x : Transport) (s : State), s.serves x = true →
    ((s.conn x).version = true → ∃ t, exec (.getCapabilities x) s = .next t ∧ (t.conn x).capabilities = true ∧
      t.out = s.out ++ [.spdm x "CAPABILITIES" (toLe 4 spdmFlags)]) ∧
    ((s.conn x).capabilities = true → ∀ o : AlgOffer, o.hash.getLsbD 2 = true → o.dhe.getLsbD 4 = true →
      o.aead.getLsbD 1 = true → (o.asym.getLsbD 5 = true ∨ o.asym.getLsbD 6 = true) →
      let k := if o.asym.getLsbD 5 = true then 5 else 6
      ∃ t, exec (.negotiateAlgorithms x o) s = .next t ∧ (t.conn x).algorithms = true ∧ (t.conn x).asym = k ∧
        t.out = s.out ++ [.spdm x "ALGORITHMS" (toLe 4 (2 ^ k) ++ toLe 4 4 ++ toLe 4 8 ++ toLe 2 16 ++ toLe 2 2)]) ∧
    ((s.conn x).algorithms = true →
      (∃ m ds, exec (.getDigests x) s = .next (s.emit (.spdm x "DIGESTS" (toLe 1 m ++ ds))) ∧
        ∀ k, k < 8 → bitOf m k = s.hasChain k) ∧
      ∀ k : Fin 8, s.hasChain k.val = true →
        (∀ o n, exec (.getCertificate x k o n) s = .next (s.emit (.spdm x "CERTIFICATE" (slice (s.chain k.val) o n)))) ∧
        (∀ n, ∃ own, exec (.challenge x k n) s = .next (({ s with fresh := s.fresh + 1 } : State).emit (.spdm x "CHALLENGE_AUTH"
          (Config.sha512 (s.chain k.val) ++ own ++ Config.signature (n ++ Config.sha512 (s.chain k.val) ++ own))))) ∧
        ∀ (m : Nat) (h : List Byte), m < 4 → (s.conn x).taken m = false → (∀ j < m, (s.conn x).taken j = true) →
          ∃ t, exec (.keyExchange x k h) s = .next t ∧ (t.conn x).taken m = true ∧ (t.conn x).sessions = (s.conn x).sessions ∧
            t = { s with sec := { s.sec with conns := t.sec.conns }, out := t.out, fresh := s.fresh + 1 }) ∧
    ((s.conn x).algorithms = true →
      exec (.getMeasurements x 0 false) s = .next (s.emit (.spdm x "MEASUREMENTS" [10])) ∧
      ∀ k : BitVec 8, 1 ≤ k.toNat → k.toNat ≤ 10 → ∃ b, exec (.getMeasurements x k false) s =
        .next (s.emit (.spdm x "MEASUREMENTS" (b ++ s.measurement k.toNat))))) ∧
  (∀ (x : Transport) (k : Fin 4) (n : Nat) (share verify : List Byte) (s : State), s.serves x = true →
    ((s.conn x).handshaking.find? fun h => h.1 == k.val) = some (k.val, n, share) →
    ∃ t, exec (.finish x k verify) s = .next t ∧ (verify = Config.finishMac n share → (t.conn x).live k.val = true) ∧
      (verify ≠ Config.finishMac n share → (t.conn x).taken k.val = false) ∧
      t = { s with sec := { s.sec with conns := t.sec.conns }, out := t.out }) ∧
  (doeDiscovery 0 0 = some (1, 0, 1) ∧ doeDiscovery 0 1 = some (1, 1, 2) ∧ doeDiscovery 0 2 = some (1, 2, 0) ∧
    ∀ (f : Fn) (n : Nat), (f ≠ 0 ∨ 2 < n) → doeDiscovery f n = none) ∧
  ∀ (x : Transport) (k : Fin 4) (s : State), s.serves x = true → (s.conn x).live k.val = true →
    (∃ t, exec (.keyUpdate x k) s = .next t ∧ Tab.get 0 (t.conn x).keyGen k.val = Tab.get 0 (s.conn x).keyGen k.val + 1 ∧
      (t.conn x).live k.val = true) ∧
    exec (.heartbeat x k) s = .next (s.emit (.spdm x "HEARTBEAT_ACK" [])) ∧
    (∃ t, exec (.endSession x k) s = .next t ∧ (t.conn x).taken k.val = false) ∧
    exec (.getCsr x (some k)) s = .next (s.emit (.spdm x "CSR" Config.deviceCsr)) ∧
    (∀ (n : Fin 8) (c : List Byte), n ≠ 0 → ∃ t, exec (.setCertificate x (some k) n c) s = .next t ∧ t.chain n.val = c ∧
      (∀ m : Fin 8, m ≠ n → t.chain m.val = s.chain m.val) ∧ t.ports = s.ports) ∧
    ∀ (n : Fin 8) (key : List Byte),
      (∀ p : Port, x = .doe p → ∃ t, exec (.ideKm x (some k) n key) s = .next t ∧ Tab.get [] (t.port p).ide n.val = key ∧
        ∀ q : Port, q ≠ p → t.port q = s.port q) ∧
      ((∀ p : Port, x ≠ .doe p) → exec (.ideKm x (some k) n key) s = .next (s.emit (.spdm x "ERROR" [])))

/-- Firmware update (15 R371 to R374, R380, R382). What a command does while its condition does not hold is the model's choice (DESIGN CHOICE, log entry 1). Clauses on the points of log entry 53 rest on it (DEDUCED). -/
def Obligations.FirmwareUpdateWritesTheOtherBank : Prop :=
  (∀ (a : UpdateAgent) (s : State), s.managed = true → a.component ≠ 0x6440 →
    exec (.requestUpdate a) s = .next (s.emit (.pldm "ComponentNotSupported" a.component))) ∧
  (∀ (a : UpdateAgent) (s : State), s.managed = true → a.component = 0x6440 →
    (s.boot.ready = false → s.boot.recovery = false →
      exec (.requestUpdate a) s = .next (s.emit (.pldm "RETRY_REQUEST_UPDATE" 0))) ∧
    ((s.boot.ready = true ∨ s.boot.recovery = true) →
      (∀ u, s.boot.update = some u → exec (.requestUpdate a) s = .next (s.emit (.pldm "ALREADY_IN_UPDATE_MODE" 0))) ∧
      (s.boot.update = none → ∃ t u, exec (.requestUpdate a) s = .next t ∧ t.boot.update = some u ∧ u.image = [] ∧
        u.verified = false ∧ u.bank = (if s.boot.recovery = true then 0 else 1 - s.boot.bank) ∧
        (t.boot.bankAt u.bank).bytes = some [] ∧ t.boot.bankCode u.bank = 1 ∧ (∀ k, k ≠ u.bank → t.boot.bankAt k = s.boot.bankAt k) ∧
        t.boot.preferred = s.boot.preferred ∧ t.out = s.out ++ [.pldm "RequestUpdate" 0] ∧
        t = { s with boot := t.boot, out := t.out }))) ∧
  (∀ (off : Nat) (d : List Byte) (last : Bool) (s : State), s.boot.update = none →
    exec (.firmwareImageWrite off d last) s = .next s ∧ exec .activateFirmware s = .next s) ∧
  (∀ (off : Nat) (d : List Byte) (s : State) (u : FwUpdate), s.managed = true → s.boot.update = some u → u.verified = false →
    (2 ^ 25 < off + d.length → ∀ last, exec (.firmwareImageWrite off d last) s = .next s) ∧
    (off + d.length ≤ 2 ^ 25 → ∃ t w, exec (.firmwareImageWrite off d false) s = .next t ∧ t.boot.update = some w ∧
      w.verified = false ∧ w.bank = u.bank ∧ (w.image.drop off).take d.length = d ∧
      w.image.take off = u.image.take off ++ List.replicate (off - u.image.length) 0xFF ∧
      w.image.drop (off + d.length) = u.image.drop (off + d.length) ∧
      (t.boot.imageOf u.bank).drop 4096 = w.image.drop 4096 ∧ t.boot.bankCode u.bank = 1 ∧
      (∀ k, k ≠ u.bank → t.boot.bankAt k = s.boot.bankAt k) ∧
      t = { s with boot := { s.boot with update := t.boot.update, banks := t.boot.banks } }) ∧
    (off + d.length ≤ 2 ^ 25 → ∃ t, exec (.firmwareImageWrite off d true) s = .next t ∧
      (s.boot.imageCode (layIn u.image off d) (fun _ => true) = 0 → t.boot.imageOf u.bank = layIn u.image off d ∧
        ∃ w, t.boot.update = some w ∧ w.verified = true ∧ w.bank = u.bank) ∧
      (s.boot.imageCode (layIn u.image off d) (fun _ => true) ≠ 0 → t.boot.bankCode u.bank = 1 ∧ t.boot.update = none) ∧
      (∀ k, k ≠ u.bank → t.boot.bankAt k = s.boot.bankAt k) ∧ t = { s with boot := t.boot, out := t.out })) ∧
  ∀ (s : State) (u : FwUpdate), s.managed = true → s.boot.update = some u →
    (u.verified = true → s.boot.pref.seq + 1 < 2 ^ 32 → ∃ t, exec .activateFirmware s = .next t ∧ t.boot.preferred = u.bank ∧ t.boot.trial = true ∧
      t.boot.update = none ∧ t.boot.bank = s.boot.bank ∧ t.boot.banks = s.boot.banks) ∧
    (u.verified = false → exec .activateFirmware s = .next s)

/-- Sensors and the bus (15 R379; 17 R420, R422). What a command does while its condition does not hold is the model's choice (DESIGN CHOICE, log entry 1). Clauses on the points of log entry 54 rest on it (DEDUCED). -/
def Obligations.SensorsAndTheManagementAddress : Prop :=
  ∀ s : State,
    (s.managed = true → s.pldmTypes = some (2 ^ 0 + 2 ^ 2 + 2 ^ 5) ∧
      (∀ q : Part, exec (.getSensorReading (.railCode q)) s = .next (s.emit (.pldm "GetSensorReading" (s.part q).actualCode)) ∧
        exec (.getSensorReading (.marginHours q)) s = .next (s.emit (.pldm "GetSensorReading" (s.part q).marginHours))) ∧
      (∀ m : Stack, exec (.getSensorReading (.stack m)) s =
        .next (s.emit (.pldm "GetSensorReading" (s.pwr.stackTemps.getD m.val 0)))) ∧
      exec (.getSensorReading .inputVoltage) s = .next (s.emit (.pldm "GetSensorReading" (bitsOf s.pwr.sense 15 0))) ∧
      exec (.getSensorReading .inputPower) s = .next (s.emit (.pldm "GetSensorReading" (bitsOf s.pwr.sense 31 16))) ∧
      exec (.getSensorReading .auxVoltage) s = .next (s.emit (.pldm "GetSensorReading" (bitsOf s.pwr.sense 43 32))) ∧
      exec (.getSensorReading .coldPlate) s = .next (s.emit (.pldm "GetSensorReading" (bitsOf s.pwr.sense 55 48))) ∧
      (∃ v, exec (.getSensorReading .inputCurrent) s =
        .next (({ s with fresh := s.fresh + 1 } : State).emit (.pldm "GetSensorReading" v))) ∧
      ∀ a : BitVec 7,
        (s.pwr.i3cDynamic = none → s.busAddress = some (false, 0x60 + s.pwr.strap) ∧
          ∃ t, exec (.setdasa a) s = .next t ∧ t.busAddress = some (true, a.toNat) ∧
            t = { s with pwr := { s.pwr with i3cDynamic := some a } }) ∧
        (s.pwr.i3cDynamic ≠ none → exec (.setdasa a) s = .next s)) ∧
    (s.managed = false → s.busAddress = none ∧ s.pldmTypes = none ∧ ∀ n a, exec (.getSensorReading n) s = .next s ∧ exec (.setdasa a) s = .next s) ∧
    exec .rstdaa s = .next { s with pwr := { s.pwr with i3cDynamic := none } }

/-- R397: CAUSE bits, FAULT_Q and the raising of vectors. -/
def Obligations.CauseBitsAndTheirVectors : Prop :=
  (∀ (s : State) (bit : Nat) (p : Port), bitOf ((s.setCauseAll bit).port p).cause bit = true) ∧
  (∀ (s : State) (kind : Nat) (p : Port) (t : Tag) (engine stream : Nat) (w : Bool) (va : Nat),
    let o := (s.ctx (s.cmd p t).ctx).owner
    ((s.port o).isDown = false → (s.port o).faultQ.enable = true → (s.port o).faultQ.full = false →
      bitOf ((s.postFault kind p t engine stream w va).port o).cause 8 = true) ∧
    ∀ q : Port, q ≠ o → ((s.postFault kind p t engine stream w va).port q).cause = (s.port q).cause) ∧
  ∀ (s : State) (p : Port) (bit : Nat),
    (bitOf (s.port p).cause bit = true → s.setCause p bit = s) ∧
    (bitOf (s.port p).cause bit = false →
      (∀ q : Port, q ≠ p → (s.setCause p bit).port q = s.port q) ∧
      bitOf ((s.setCause p bit).port p).cause bit = true ∧
      (bitOf (s.port p).event (eventField bit).2 = false →
        s.setCause p bit = s.updPort p fun h => { h with cause := setBit h.cause bit }) ∧
      (bitOf (s.port p).event (eventField bit).2 = true →
        let v := bitsOf (s.port p).event ((eventField bit).1 + 10) (eventField bit).1
        (bitOf ((s.port p).msixOf 0 v).ctl 0 = false → (s.setCause p bit).out = s.out ++ [.msix p 0 v]) ∧
        (bitOf ((s.port p).msixOf 0 v).ctl 0 = true →
          (((s.setCause p bit).port p).msixOf 0 v).pend = true ∧ (s.setCause p bit).out = s.out)))

/-- R37: the canonical NaN, and no payload in either direction. -/
def Obligations.WrittenNaNsAreCanonical : Prop :=
  (∀ (x : Sys2Proof.Machine.Num) (b : Int) (st : Option Nat),
    (decodeFmt .fp32 (convertNum x .fp32 b st).v b = .nan → (convertNum x .fp32 b st).v = 0x7FC00000) ∧
    (decodeFmt .bf16 (convertNum x .bf16 b st).v b = .nan → (convertNum x .bf16 b st).v = 0x7FC0) ∧
    (decodeFmt .fp16 (convertNum x .fp16 b st).v b = .nan → (convertNum x .fp16 b st).v = 0x7E00)) ∧
  (∀ (b : Int) (st : Option Nat), (convertNum .nan .fp32 b st).v = 0x7FC00000 ∧ (convertNum .nan .bf16 b st).v = 0x7FC0 ∧
    (convertNum .nan .fp16 b st).v = 0x7E00) ∧
  ∀ (b : Int) (neg payload : Nat), neg < 2 → 0 < payload →
    (payload < 2 ^ 23 → decodeFmt .fp32 (neg * 2 ^ 31 + 0x7F800000 + payload) b = .nan) ∧
    (payload < 2 ^ 7 → decodeFmt .bf16 (neg * 2 ^ 15 + 0x7F80 + payload) b = .nan) ∧
    (payload < 2 ^ 10 → decodeFmt .fp16 (neg * 2 ^ 15 + 0x7C00 + payload) b = .nan)

/-- R30: L8 within L16. -/
def Obligations.L8ValuesAreL16Values : Prop :=
  ∀ (n m : Nat) (b c : Int), n < 2 → 1 ≤ m → m ≤ 127 →
    1 ≤ 16384 + 32 * ((m : Int) - 64) + 256 * b → 16384 + 32 * ((m : Int) - 64) + 256 * b ≤ 32766 →
    decodeFmt .l8 (n * 2 ^ 7 + m) b =
      decodeFmt .l16 (n * 2 ^ 15 + (16384 + 32 * ((m : Int) - 64) + 256 * b).toNat) c
end

