-- ==== Sys2Proof/Laws/State.lean ====
section
/-!
SUPPORT. Laws of the state's accessors: tables read back what was written to them, and each update of a named part
changes that part and no other.
-/

namespace Sys2Proof.Machine

/-! ### Tables -/

@[simp] theorem Tab.get_nil {α : Type} (d : α) (i : Nat) : Tab.get d [] i = d := rfl

/-- Reading an entry after any write. -/
theorem Tab.get_set {α : Type} (d : α) (t : Tab α) (i j : Nat) (v : α) :
    Tab.get d (Tab.set t i v) j = if j = i then v else Tab.get d t j := by
  induction t with
  | nil => rfl
  | cons x t ih =>
    obtain ⟨k, w⟩ := x
    simp only [Tab.set]
    split
    · rename_i h; subst h; simp only [Tab.get]; split <;> simp_all
    · split
      · simp only [Tab.get]
      · simp only [Tab.get]; split
        · rename_i h1 h2 h3; subst h3; simp [Ne.symm h1]
        · simpa using ih

@[simp] theorem Tab.get_set_same {α : Type} (d : α) (t : Tab α) (i : Nat) (v : α) :
    Tab.get d (Tab.set t i v) i = v := by simp [Tab.get_set]

@[simp] theorem Tab.get_set_ne {α : Type} (d : α) (t : Tab α) {i j : Nat} (v : α) (h : j ≠ i) :
    Tab.get d (Tab.set t i v) j = Tab.get d t j := by simp [Tab.get_set, h]

@[simp] theorem Tab.get_upd_same {α : Type} (d : α) (t : Tab α) (i : Nat) (f : α → α) :
    Tab.get d (Tab.upd d t i f) i = f (Tab.get d t i) := by simp [Tab.upd]

@[simp] theorem Tab.get_upd_ne {α : Type} (d : α) (t : Tab α) {i j : Nat} (f : α → α) (h : j ≠ i) :
    Tab.get d (Tab.upd d t i f) j = Tab.get d t j := by simp [Tab.upd, h]

/-- Reading an entry after a change of any entry. -/
theorem Tab.get_upd {α : Type} (d : α) (t : Tab α) (i j : Nat) (f : α → α) :
    Tab.get d (Tab.upd d t i f) j = if j = i then f (Tab.get d t i) else Tab.get d t j := by
  simp [Tab.upd, Tab.get_set]

/-- Reading an entry of a table whose entries were changed alike. -/
theorem Tab.get_map {α : Type} (d : α) (t : Tab α) (i : Nat) (f : α → α) (hd : f d = d) :
    Tab.get d (t.map fun x => (x.1, f x.2)) i = f (Tab.get d t i) := by
  induction t with
  | nil => exact hd.symm
  | cons x t ih =>
    simp only [List.map_cons, Tab.get]
    split
    · rfl
    · exact ih

/-- A second write of an entry replaces the first. -/
@[simp] theorem Tab.set_set {α : Type} (t : Tab α) (i : Nat) (v w : α) : Tab.set (Tab.set t i v) i w = Tab.set t i w := by
  induction t with
  | nil => simp [Tab.set]
  | cons x t ih =>
    obtain ⟨k, u⟩ := x
    by_cases h : i = k
    · subst h; simp [Tab.set]
    · by_cases h2 : i < k
      · simp [Tab.set, h, h2]
      · simp only [Tab.set, h, h2, if_false, ih]

@[simp] theorem Tab.upd_upd {α : Type} (d : α) (t : Tab α) (i : Nat) (f g : α → α) :
    Tab.upd d (Tab.upd d t i f) i g = Tab.upd d t i fun x => g (f x) := by
  simp [Tab.upd]

/-! ### Fields an update leaves alone -/

namespace State

variable (s : State)

@[simp] theorem setPort_hk (p : Port) (h : HostPort) : (s.setPort p h).hk = s.hk := rfl
@[simp] theorem setPort_ctxs (p : Port) (h : HostPort) : (s.setPort p h).ctxs = s.ctxs := rfl
@[simp] theorem setPort_engines (p : Port) (h : HostPort) : (s.setPort p h).engines = s.engines := rfl
@[simp] theorem setPort_parts (p : Port) (h : HostPort) : (s.setPort p h).parts = s.parts := rfl
@[simp] theorem setPort_mem (p : Port) (h : HostPort) : (s.setPort p h).mem = s.mem := rfl
@[simp] theorem setPort_peer (p : Port) (h : HostPort) : (s.setPort p h).peer = s.peer := rfl
@[simp] theorem setPort_rcv (p : Port) (h : HostPort) : (s.setPort p h).rcv = s.rcv := rfl
@[simp] theorem setPort_pwr (p : Port) (h : HostPort) : (s.setPort p h).pwr = s.pwr := rfl
@[simp] theorem setPort_boot (p : Port) (h : HostPort) : (s.setPort p h).boot = s.boot := rfl
@[simp] theorem setPort_sec (p : Port) (h : HostPort) : (s.setPort p h).sec = s.sec := rfl
@[simp] theorem setPort_age (p : Port) (h : HostPort) : (s.setPort p h).age = s.age := rfl
@[simp] theorem setPort_dbg (p : Port) (h : HostPort) : (s.setPort p h).dbg = s.dbg := rfl
@[simp] theorem setPort_out (p : Port) (h : HostPort) : (s.setPort p h).out = s.out := rfl
@[simp] theorem setPort_fresh (p : Port) (h : HostPort) : (s.setPort p h).fresh = s.fresh := rfl
@[simp] theorem setPort_order (p : Port) (h : HostPort) : (s.setPort p h).order = s.order := rfl
@[simp] theorem setPort_pending (p : Port) (h : HostPort) : (s.setPort p h).pending = s.pending := rfl

@[simp] theorem updPort_hk (p : Port) (f : HostPort → HostPort) : (s.updPort p f).hk = s.hk := rfl
@[simp] theorem updPort_ctxs (p : Port) (f : HostPort → HostPort) : (s.updPort p f).ctxs = s.ctxs := rfl
@[simp] theorem updPort_engines (p : Port) (f : HostPort → HostPort) : (s.updPort p f).engines = s.engines := rfl
@[simp] theorem updPort_parts (p : Port) (f : HostPort → HostPort) : (s.updPort p f).parts = s.parts := rfl
@[simp] theorem updPort_mem (p : Port) (f : HostPort → HostPort) : (s.updPort p f).mem = s.mem := rfl
@[simp] theorem updPort_peer (p : Port) (f : HostPort → HostPort) : (s.updPort p f).peer = s.peer := rfl
@[simp] theorem updPort_rcv (p : Port) (f : HostPort → HostPort) : (s.updPort p f).rcv = s.rcv := rfl
@[simp] theorem updPort_pwr (p : Port) (f : HostPort → HostPort) : (s.updPort p f).pwr = s.pwr := rfl
@[simp] theorem updPort_boot (p : Port) (f : HostPort → HostPort) : (s.updPort p f).boot = s.boot := rfl
@[simp] theorem updPort_sec (p : Port) (f : HostPort → HostPort) : (s.updPort p f).sec = s.sec := rfl
@[simp] theorem updPort_age (p : Port) (f : HostPort → HostPort) : (s.updPort p f).age = s.age := rfl
@[simp] theorem updPort_dbg (p : Port) (f : HostPort → HostPort) : (s.updPort p f).dbg = s.dbg := rfl
@[simp] theorem updPort_out (p : Port) (f : HostPort → HostPort) : (s.updPort p f).out = s.out := rfl
@[simp] theorem updPort_fresh (p : Port) (f : HostPort → HostPort) : (s.updPort p f).fresh = s.fresh := rfl
@[simp] theorem updPort_order (p : Port) (f : HostPort → HostPort) : (s.updPort p f).order = s.order := rfl
@[simp] theorem updPort_pending (p : Port) (f : HostPort → HostPort) : (s.updPort p f).pending = s.pending := rfl

@[simp] theorem updRing_hk (p : Port) (r : RingNo) (f : Ring → Ring) : (s.updRing p r f).hk = s.hk := rfl
@[simp] theorem updRing_ctxs (p : Port) (r : RingNo) (f : Ring → Ring) : (s.updRing p r f).ctxs = s.ctxs := rfl
@[simp] theorem updRing_engines (p : Port) (r : RingNo) (f : Ring → Ring) : (s.updRing p r f).engines = s.engines := rfl
@[simp] theorem updRing_parts (p : Port) (r : RingNo) (f : Ring → Ring) : (s.updRing p r f).parts = s.parts := rfl
@[simp] theorem updRing_mem (p : Port) (r : RingNo) (f : Ring → Ring) : (s.updRing p r f).mem = s.mem := rfl
@[simp] theorem updRing_peer (p : Port) (r : RingNo) (f : Ring → Ring) : (s.updRing p r f).peer = s.peer := rfl
@[simp] theorem updRing_rcv (p : Port) (r : RingNo) (f : Ring → Ring) : (s.updRing p r f).rcv = s.rcv := rfl
@[simp] theorem updRing_pwr (p : Port) (r : RingNo) (f : Ring → Ring) : (s.updRing p r f).pwr = s.pwr := rfl
@[simp] theorem updRing_boot (p : Port) (r : RingNo) (f : Ring → Ring) : (s.updRing p r f).boot = s.boot := rfl
@[simp] theorem updRing_sec (p : Port) (r : RingNo) (f : Ring → Ring) : (s.updRing p r f).sec = s.sec := rfl
@[simp] theorem updRing_age (p : Port) (r : RingNo) (f : Ring → Ring) : (s.updRing p r f).age = s.age := rfl
@[simp] theorem updRing_dbg (p : Port) (r : RingNo) (f : Ring → Ring) : (s.updRing p r f).dbg = s.dbg := rfl
@[simp] theorem updRing_out (p : Port) (r : RingNo) (f : Ring → Ring) : (s.updRing p r f).out = s.out := rfl
@[simp] theorem updRing_fresh (p : Port) (r : RingNo) (f : Ring → Ring) : (s.updRing p r f).fresh = s.fresh := rfl
@[simp] theorem updRing_order (p : Port) (r : RingNo) (f : Ring → Ring) : (s.updRing p r f).order = s.order := rfl
@[simp] theorem updRing_pending (p : Port) (r : RingNo) (f : Ring → Ring) : (s.updRing p r f).pending = s.pending := rfl

@[simp] theorem updCq_hk (p : Port) (c : CqNo) (f : Cq → Cq) : (s.updCq p c f).hk = s.hk := rfl
@[simp] theorem updCq_ctxs (p : Port) (c : CqNo) (f : Cq → Cq) : (s.updCq p c f).ctxs = s.ctxs := rfl
@[simp] theorem updCq_engines (p : Port) (c : CqNo) (f : Cq → Cq) : (s.updCq p c f).engines = s.engines := rfl
@[simp] theorem updCq_parts (p : Port) (c : CqNo) (f : Cq → Cq) : (s.updCq p c f).parts = s.parts := rfl
@[simp] theorem updCq_mem (p : Port) (c : CqNo) (f : Cq → Cq) : (s.updCq p c f).mem = s.mem := rfl
@[simp] theorem updCq_peer (p : Port) (c : CqNo) (f : Cq → Cq) : (s.updCq p c f).peer = s.peer := rfl
@[simp] theorem updCq_rcv (p : Port) (c : CqNo) (f : Cq → Cq) : (s.updCq p c f).rcv = s.rcv := rfl
@[simp] theorem updCq_pwr (p : Port) (c : CqNo) (f : Cq → Cq) : (s.updCq p c f).pwr = s.pwr := rfl
@[simp] theorem updCq_boot (p : Port) (c : CqNo) (f : Cq → Cq) : (s.updCq p c f).boot = s.boot := rfl
@[simp] theorem updCq_sec (p : Port) (c : CqNo) (f : Cq → Cq) : (s.updCq p c f).sec = s.sec := rfl
@[simp] theorem updCq_age (p : Port) (c : CqNo) (f : Cq → Cq) : (s.updCq p c f).age = s.age := rfl
@[simp] theorem updCq_dbg (p : Port) (c : CqNo) (f : Cq → Cq) : (s.updCq p c f).dbg = s.dbg := rfl
@[simp] theorem updCq_out (p : Port) (c : CqNo) (f : Cq → Cq) : (s.updCq p c f).out = s.out := rfl
@[simp] theorem updCq_fresh (p : Port) (c : CqNo) (f : Cq → Cq) : (s.updCq p c f).fresh = s.fresh := rfl
@[simp] theorem updCq_order (p : Port) (c : CqNo) (f : Cq → Cq) : (s.updCq p c f).order = s.order := rfl
@[simp] theorem updCq_pending (p : Port) (c : CqNo) (f : Cq → Cq) : (s.updCq p c f).pending = s.pending := rfl

@[simp] theorem updCmd_hk (p : Port) (t : Tag) (f : Cmd → Cmd) : (s.updCmd p t f).hk = s.hk := rfl
@[simp] theorem updCmd_ctxs (p : Port) (t : Tag) (f : Cmd → Cmd) : (s.updCmd p t f).ctxs = s.ctxs := rfl
@[simp] theorem updCmd_engines (p : Port) (t : Tag) (f : Cmd → Cmd) : (s.updCmd p t f).engines = s.engines := rfl
@[simp] theorem updCmd_parts (p : Port) (t : Tag) (f : Cmd → Cmd) : (s.updCmd p t f).parts = s.parts := rfl
@[simp] theorem updCmd_mem (p : Port) (t : Tag) (f : Cmd → Cmd) : (s.updCmd p t f).mem = s.mem := rfl
@[simp] theorem updCmd_peer (p : Port) (t : Tag) (f : Cmd → Cmd) : (s.updCmd p t f).peer = s.peer := rfl
@[simp] theorem updCmd_rcv (p : Port) (t : Tag) (f : Cmd → Cmd) : (s.updCmd p t f).rcv = s.rcv := rfl
@[simp] theorem updCmd_pwr (p : Port) (t : Tag) (f : Cmd → Cmd) : (s.updCmd p t f).pwr = s.pwr := rfl
@[simp] theorem updCmd_boot (p : Port) (t : Tag) (f : Cmd → Cmd) : (s.updCmd p t f).boot = s.boot := rfl
@[simp] theorem updCmd_sec (p : Port) (t : Tag) (f : Cmd → Cmd) : (s.updCmd p t f).sec = s.sec := rfl
@[simp] theorem updCmd_age (p : Port) (t : Tag) (f : Cmd → Cmd) : (s.updCmd p t f).age = s.age := rfl
@[simp] theorem updCmd_dbg (p : Port) (t : Tag) (f : Cmd → Cmd) : (s.updCmd p t f).dbg = s.dbg := rfl
@[simp] theorem updCmd_out (p : Port) (t : Tag) (f : Cmd → Cmd) : (s.updCmd p t f).out = s.out := rfl
@[simp] theorem updCmd_fresh (p : Port) (t : Tag) (f : Cmd → Cmd) : (s.updCmd p t f).fresh = s.fresh := rfl
@[simp] theorem updCmd_order (p : Port) (t : Tag) (f : Cmd → Cmd) : (s.updCmd p t f).order = s.order := rfl
@[simp] theorem updCmd_pending (p : Port) (t : Tag) (f : Cmd → Cmd) : (s.updCmd p t f).pending = s.pending := rfl

@[simp] theorem updArea_hk (p : Port) (n : Fn) (f : Area → Area) : (s.updArea p n f).hk = s.hk := rfl
@[simp] theorem updArea_ctxs (p : Port) (n : Fn) (f : Area → Area) : (s.updArea p n f).ctxs = s.ctxs := rfl
@[simp] theorem updArea_engines (p : Port) (n : Fn) (f : Area → Area) : (s.updArea p n f).engines = s.engines := rfl
@[simp] theorem updArea_parts (p : Port) (n : Fn) (f : Area → Area) : (s.updArea p n f).parts = s.parts := rfl
@[simp] theorem updArea_mem (p : Port) (n : Fn) (f : Area → Area) : (s.updArea p n f).mem = s.mem := rfl
@[simp] theorem updArea_peer (p : Port) (n : Fn) (f : Area → Area) : (s.updArea p n f).peer = s.peer := rfl
@[simp] theorem updArea_rcv (p : Port) (n : Fn) (f : Area → Area) : (s.updArea p n f).rcv = s.rcv := rfl
@[simp] theorem updArea_pwr (p : Port) (n : Fn) (f : Area → Area) : (s.updArea p n f).pwr = s.pwr := rfl
@[simp] theorem updArea_boot (p : Port) (n : Fn) (f : Area → Area) : (s.updArea p n f).boot = s.boot := rfl
@[simp] theorem updArea_sec (p : Port) (n : Fn) (f : Area → Area) : (s.updArea p n f).sec = s.sec := rfl
@[simp] theorem updArea_age (p : Port) (n : Fn) (f : Area → Area) : (s.updArea p n f).age = s.age := rfl
@[simp] theorem updArea_dbg (p : Port) (n : Fn) (f : Area → Area) : (s.updArea p n f).dbg = s.dbg := rfl
@[simp] theorem updArea_out (p : Port) (n : Fn) (f : Area → Area) : (s.updArea p n f).out = s.out := rfl
@[simp] theorem updArea_fresh (p : Port) (n : Fn) (f : Area → Area) : (s.updArea p n f).fresh = s.fresh := rfl
@[simp] theorem updArea_order (p : Port) (n : Fn) (f : Area → Area) : (s.updArea p n f).order = s.order := rfl
@[simp] theorem updArea_pending (p : Port) (n : Fn) (f : Area → Area) : (s.updArea p n f).pending = s.pending := rfl

@[simp] theorem updCtx_hk (c : CtxNo) (f : Ctx → Ctx) : (s.updCtx c f).hk = s.hk := rfl
@[simp] theorem updCtx_ports (c : CtxNo) (f : Ctx → Ctx) : (s.updCtx c f).ports = s.ports := rfl
@[simp] theorem updCtx_engines (c : CtxNo) (f : Ctx → Ctx) : (s.updCtx c f).engines = s.engines := rfl
@[simp] theorem updCtx_parts (c : CtxNo) (f : Ctx → Ctx) : (s.updCtx c f).parts = s.parts := rfl
@[simp] theorem updCtx_mem (c : CtxNo) (f : Ctx → Ctx) : (s.updCtx c f).mem = s.mem := rfl
@[simp] theorem updCtx_peer (c : CtxNo) (f : Ctx → Ctx) : (s.updCtx c f).peer = s.peer := rfl
@[simp] theorem updCtx_rcv (c : CtxNo) (f : Ctx → Ctx) : (s.updCtx c f).rcv = s.rcv := rfl
@[simp] theorem updCtx_pwr (c : CtxNo) (f : Ctx → Ctx) : (s.updCtx c f).pwr = s.pwr := rfl
@[simp] theorem updCtx_boot (c : CtxNo) (f : Ctx → Ctx) : (s.updCtx c f).boot = s.boot := rfl
@[simp] theorem updCtx_sec (c : CtxNo) (f : Ctx → Ctx) : (s.updCtx c f).sec = s.sec := rfl
@[simp] theorem updCtx_age (c : CtxNo) (f : Ctx → Ctx) : (s.updCtx c f).age = s.age := rfl
@[simp] theorem updCtx_dbg (c : CtxNo) (f : Ctx → Ctx) : (s.updCtx c f).dbg = s.dbg := rfl
@[simp] theorem updCtx_out (c : CtxNo) (f : Ctx → Ctx) : (s.updCtx c f).out = s.out := rfl
@[simp] theorem updCtx_fresh (c : CtxNo) (f : Ctx → Ctx) : (s.updCtx c f).fresh = s.fresh := rfl
@[simp] theorem updCtx_order (c : CtxNo) (f : Ctx → Ctx) : (s.updCtx c f).order = s.order := rfl
@[simp] theorem updCtx_pending (c : CtxNo) (f : Ctx → Ctx) : (s.updCtx c f).pending = s.pending := rfl

@[simp] theorem updEng_hk (e : Eng) (f : Engine → Engine) : (s.updEng e f).hk = s.hk := rfl
@[simp] theorem updEng_ports (e : Eng) (f : Engine → Engine) : (s.updEng e f).ports = s.ports := rfl
@[simp] theorem updEng_ctxs (e : Eng) (f : Engine → Engine) : (s.updEng e f).ctxs = s.ctxs := rfl
@[simp] theorem updEng_parts (e : Eng) (f : Engine → Engine) : (s.updEng e f).parts = s.parts := rfl
@[simp] theorem updEng_mem (e : Eng) (f : Engine → Engine) : (s.updEng e f).mem = s.mem := rfl
@[simp] theorem updEng_peer (e : Eng) (f : Engine → Engine) : (s.updEng e f).peer = s.peer := rfl
@[simp] theorem updEng_rcv (e : Eng) (f : Engine → Engine) : (s.updEng e f).rcv = s.rcv := rfl
@[simp] theorem updEng_pwr (e : Eng) (f : Engine → Engine) : (s.updEng e f).pwr = s.pwr := rfl
@[simp] theorem updEng_boot (e : Eng) (f : Engine → Engine) : (s.updEng e f).boot = s.boot := rfl
@[simp] theorem updEng_sec (e : Eng) (f : Engine → Engine) : (s.updEng e f).sec = s.sec := rfl
@[simp] theorem updEng_age (e : Eng) (f : Engine → Engine) : (s.updEng e f).age = s.age := rfl
@[simp] theorem updEng_dbg (e : Eng) (f : Engine → Engine) : (s.updEng e f).dbg = s.dbg := rfl
@[simp] theorem updEng_out (e : Eng) (f : Engine → Engine) : (s.updEng e f).out = s.out := rfl
@[simp] theorem updEng_fresh (e : Eng) (f : Engine → Engine) : (s.updEng e f).fresh = s.fresh := rfl
@[simp] theorem updEng_order (e : Eng) (f : Engine → Engine) : (s.updEng e f).order = s.order := rfl
@[simp] theorem updEng_pending (e : Eng) (f : Engine → Engine) : (s.updEng e f).pending = s.pending := rfl

@[simp] theorem updSlot_hk (e : Eng) (k : SlotNo) (f : Slot → Slot) : (s.updSlot e k f).hk = s.hk := rfl
@[simp] theorem updSlot_ports (e : Eng) (k : SlotNo) (f : Slot → Slot) : (s.updSlot e k f).ports = s.ports := rfl
@[simp] theorem updSlot_ctxs (e : Eng) (k : SlotNo) (f : Slot → Slot) : (s.updSlot e k f).ctxs = s.ctxs := rfl
@[simp] theorem updSlot_parts (e : Eng) (k : SlotNo) (f : Slot → Slot) : (s.updSlot e k f).parts = s.parts := rfl
@[simp] theorem updSlot_mem (e : Eng) (k : SlotNo) (f : Slot → Slot) : (s.updSlot e k f).mem = s.mem := rfl
@[simp] theorem updSlot_peer (e : Eng) (k : SlotNo) (f : Slot → Slot) : (s.updSlot e k f).peer = s.peer := rfl
@[simp] theorem updSlot_rcv (e : Eng) (k : SlotNo) (f : Slot → Slot) : (s.updSlot e k f).rcv = s.rcv := rfl
@[simp] theorem updSlot_pwr (e : Eng) (k : SlotNo) (f : Slot → Slot) : (s.updSlot e k f).pwr = s.pwr := rfl
@[simp] theorem updSlot_boot (e : Eng) (k : SlotNo) (f : Slot → Slot) : (s.updSlot e k f).boot = s.boot := rfl
@[simp] theorem updSlot_sec (e : Eng) (k : SlotNo) (f : Slot → Slot) : (s.updSlot e k f).sec = s.sec := rfl
@[simp] theorem updSlot_age (e : Eng) (k : SlotNo) (f : Slot → Slot) : (s.updSlot e k f).age = s.age := rfl
@[simp] theorem updSlot_dbg (e : Eng) (k : SlotNo) (f : Slot → Slot) : (s.updSlot e k f).dbg = s.dbg := rfl
@[simp] theorem updSlot_out (e : Eng) (k : SlotNo) (f : Slot → Slot) : (s.updSlot e k f).out = s.out := rfl
@[simp] theorem updSlot_fresh (e : Eng) (k : SlotNo) (f : Slot → Slot) : (s.updSlot e k f).fresh = s.fresh := rfl
@[simp] theorem updSlot_order (e : Eng) (k : SlotNo) (f : Slot → Slot) : (s.updSlot e k f).order = s.order := rfl
@[simp] theorem updSlot_pending (e : Eng) (k : SlotNo) (f : Slot → Slot) : (s.updSlot e k f).pending = s.pending := rfl

@[simp] theorem updStrm_hk (e : Eng) (i : StreamNo) (f : Strm → Strm) : (s.updStrm e i f).hk = s.hk := rfl
@[simp] theorem updStrm_ports (e : Eng) (i : StreamNo) (f : Strm → Strm) : (s.updStrm e i f).ports = s.ports := rfl
@[simp] theorem updStrm_ctxs (e : Eng) (i : StreamNo) (f : Strm → Strm) : (s.updStrm e i f).ctxs = s.ctxs := rfl
@[simp] theorem updStrm_parts (e : Eng) (i : StreamNo) (f : Strm → Strm) : (s.updStrm e i f).parts = s.parts := rfl
@[simp] theorem updStrm_mem (e : Eng) (i : StreamNo) (f : Strm → Strm) : (s.updStrm e i f).mem = s.mem := rfl
@[simp] theorem updStrm_peer (e : Eng) (i : StreamNo) (f : Strm → Strm) : (s.updStrm e i f).peer = s.peer := rfl
@[simp] theorem updStrm_rcv (e : Eng) (i : StreamNo) (f : Strm → Strm) : (s.updStrm e i f).rcv = s.rcv := rfl
@[simp] theorem updStrm_pwr (e : Eng) (i : StreamNo) (f : Strm → Strm) : (s.updStrm e i f).pwr = s.pwr := rfl
@[simp] theorem updStrm_boot (e : Eng) (i : StreamNo) (f : Strm → Strm) : (s.updStrm e i f).boot = s.boot := rfl
@[simp] theorem updStrm_sec (e : Eng) (i : StreamNo) (f : Strm → Strm) : (s.updStrm e i f).sec = s.sec := rfl
@[simp] theorem updStrm_age (e : Eng) (i : StreamNo) (f : Strm → Strm) : (s.updStrm e i f).age = s.age := rfl
@[simp] theorem updStrm_dbg (e : Eng) (i : StreamNo) (f : Strm → Strm) : (s.updStrm e i f).dbg = s.dbg := rfl
@[simp] theorem updStrm_out (e : Eng) (i : StreamNo) (f : Strm → Strm) : (s.updStrm e i f).out = s.out := rfl
@[simp] theorem updStrm_fresh (e : Eng) (i : StreamNo) (f : Strm → Strm) : (s.updStrm e i f).fresh = s.fresh := rfl
@[simp] theorem updStrm_order (e : Eng) (i : StreamNo) (f : Strm → Strm) : (s.updStrm e i f).order = s.order := rfl
@[simp] theorem updStrm_pending (e : Eng) (i : StreamNo) (f : Strm → Strm) : (s.updStrm e i f).pending = s.pending := rfl

@[simp] theorem updNamed_hk (e : Eng) (a : Nat) (f : Tile → Tile) : (s.updNamed e a f).hk = s.hk := rfl
@[simp] theorem updNamed_ports (e : Eng) (a : Nat) (f : Tile → Tile) : (s.updNamed e a f).ports = s.ports := rfl
@[simp] theorem updNamed_ctxs (e : Eng) (a : Nat) (f : Tile → Tile) : (s.updNamed e a f).ctxs = s.ctxs := rfl
@[simp] theorem updNamed_parts (e : Eng) (a : Nat) (f : Tile → Tile) : (s.updNamed e a f).parts = s.parts := rfl
@[simp] theorem updNamed_mem (e : Eng) (a : Nat) (f : Tile → Tile) : (s.updNamed e a f).mem = s.mem := rfl
@[simp] theorem updNamed_peer (e : Eng) (a : Nat) (f : Tile → Tile) : (s.updNamed e a f).peer = s.peer := rfl
@[simp] theorem updNamed_rcv (e : Eng) (a : Nat) (f : Tile → Tile) : (s.updNamed e a f).rcv = s.rcv := rfl
@[simp] theorem updNamed_pwr (e : Eng) (a : Nat) (f : Tile → Tile) : (s.updNamed e a f).pwr = s.pwr := rfl
@[simp] theorem updNamed_boot (e : Eng) (a : Nat) (f : Tile → Tile) : (s.updNamed e a f).boot = s.boot := rfl
@[simp] theorem updNamed_sec (e : Eng) (a : Nat) (f : Tile → Tile) : (s.updNamed e a f).sec = s.sec := rfl
@[simp] theorem updNamed_age (e : Eng) (a : Nat) (f : Tile → Tile) : (s.updNamed e a f).age = s.age := rfl
@[simp] theorem updNamed_dbg (e : Eng) (a : Nat) (f : Tile → Tile) : (s.updNamed e a f).dbg = s.dbg := rfl
@[simp] theorem updNamed_out (e : Eng) (a : Nat) (f : Tile → Tile) : (s.updNamed e a f).out = s.out := rfl
@[simp] theorem updNamed_fresh (e : Eng) (a : Nat) (f : Tile → Tile) : (s.updNamed e a f).fresh = s.fresh := rfl
@[simp] theorem updNamed_order (e : Eng) (a : Nat) (f : Tile → Tile) : (s.updNamed e a f).order = s.order := rfl
@[simp] theorem updNamed_pending (e : Eng) (a : Nat) (f : Tile → Tile) : (s.updNamed e a f).pending = s.pending := rfl

@[simp] theorem bump_hk (e : Eng) (off n : Nat) : (s.bump e off n).hk = s.hk := rfl
@[simp] theorem bump_ports (e : Eng) (off n : Nat) : (s.bump e off n).ports = s.ports := rfl
@[simp] theorem bump_ctxs (e : Eng) (off n : Nat) : (s.bump e off n).ctxs = s.ctxs := rfl
@[simp] theorem bump_parts (e : Eng) (off n : Nat) : (s.bump e off n).parts = s.parts := rfl
@[simp] theorem bump_mem (e : Eng) (off n : Nat) : (s.bump e off n).mem = s.mem := rfl
@[simp] theorem bump_peer (e : Eng) (off n : Nat) : (s.bump e off n).peer = s.peer := rfl
@[simp] theorem bump_rcv (e : Eng) (off n : Nat) : (s.bump e off n).rcv = s.rcv := rfl
@[simp] theorem bump_pwr (e : Eng) (off n : Nat) : (s.bump e off n).pwr = s.pwr := rfl
@[simp] theorem bump_boot (e : Eng) (off n : Nat) : (s.bump e off n).boot = s.boot := rfl
@[simp] theorem bump_sec (e : Eng) (off n : Nat) : (s.bump e off n).sec = s.sec := rfl
@[simp] theorem bump_age (e : Eng) (off n : Nat) : (s.bump e off n).age = s.age := rfl
@[simp] theorem bump_dbg (e : Eng) (off n : Nat) : (s.bump e off n).dbg = s.dbg := rfl
@[simp] theorem bump_out (e : Eng) (off n : Nat) : (s.bump e off n).out = s.out := rfl
@[simp] theorem bump_fresh (e : Eng) (off n : Nat) : (s.bump e off n).fresh = s.fresh := rfl
@[simp] theorem bump_order (e : Eng) (off n : Nat) : (s.bump e off n).order = s.order := rfl
@[simp] theorem bump_pending (e : Eng) (off n : Nat) : (s.bump e off n).pending = s.pending := rfl

@[simp] theorem updPart_hk (q : Part) (f : Partition → Partition) : (s.updPart q f).hk = s.hk := rfl
@[simp] theorem updPart_ports (q : Part) (f : Partition → Partition) : (s.updPart q f).ports = s.ports := rfl
@[simp] theorem updPart_ctxs (q : Part) (f : Partition → Partition) : (s.updPart q f).ctxs = s.ctxs := rfl
@[simp] theorem updPart_engines (q : Part) (f : Partition → Partition) : (s.updPart q f).engines = s.engines := rfl
@[simp] theorem updPart_mem (q : Part) (f : Partition → Partition) : (s.updPart q f).mem = s.mem := rfl
@[simp] theorem updPart_peer (q : Part) (f : Partition → Partition) : (s.updPart q f).peer = s.peer := rfl
@[simp] theorem updPart_rcv (q : Part) (f : Partition → Partition) : (s.updPart q f).rcv = s.rcv := rfl
@[simp] theorem updPart_pwr (q : Part) (f : Partition → Partition) : (s.updPart q f).pwr = s.pwr := rfl
@[simp] theorem updPart_boot (q : Part) (f : Partition → Partition) : (s.updPart q f).boot = s.boot := rfl
@[simp] theorem updPart_sec (q : Part) (f : Partition → Partition) : (s.updPart q f).sec = s.sec := rfl
@[simp] theorem updPart_age (q : Part) (f : Partition → Partition) : (s.updPart q f).age = s.age := rfl
@[simp] theorem updPart_dbg (q : Part) (f : Partition → Partition) : (s.updPart q f).dbg = s.dbg := rfl
@[simp] theorem updPart_out (q : Part) (f : Partition → Partition) : (s.updPart q f).out = s.out := rfl
@[simp] theorem updPart_fresh (q : Part) (f : Partition → Partition) : (s.updPart q f).fresh = s.fresh := rfl
@[simp] theorem updPart_order (q : Part) (f : Partition → Partition) : (s.updPart q f).order = s.order := rfl
@[simp] theorem updPart_pending (q : Part) (f : Partition → Partition) : (s.updPart q f).pending = s.pending := rfl

@[simp] theorem updLink_hk (i : PeerPort) (f : PeerLink → PeerLink) : (s.updLink i f).hk = s.hk := rfl
@[simp] theorem updLink_ports (i : PeerPort) (f : PeerLink → PeerLink) : (s.updLink i f).ports = s.ports := rfl
@[simp] theorem updLink_ctxs (i : PeerPort) (f : PeerLink → PeerLink) : (s.updLink i f).ctxs = s.ctxs := rfl
@[simp] theorem updLink_engines (i : PeerPort) (f : PeerLink → PeerLink) : (s.updLink i f).engines = s.engines := rfl
@[simp] theorem updLink_parts (i : PeerPort) (f : PeerLink → PeerLink) : (s.updLink i f).parts = s.parts := rfl
@[simp] theorem updLink_mem (i : PeerPort) (f : PeerLink → PeerLink) : (s.updLink i f).mem = s.mem := rfl
@[simp] theorem updLink_rcv (i : PeerPort) (f : PeerLink → PeerLink) : (s.updLink i f).rcv = s.rcv := rfl
@[simp] theorem updLink_pwr (i : PeerPort) (f : PeerLink → PeerLink) : (s.updLink i f).pwr = s.pwr := rfl
@[simp] theorem updLink_boot (i : PeerPort) (f : PeerLink → PeerLink) : (s.updLink i f).boot = s.boot := rfl
@[simp] theorem updLink_sec (i : PeerPort) (f : PeerLink → PeerLink) : (s.updLink i f).sec = s.sec := rfl
@[simp] theorem updLink_age (i : PeerPort) (f : PeerLink → PeerLink) : (s.updLink i f).age = s.age := rfl
@[simp] theorem updLink_dbg (i : PeerPort) (f : PeerLink → PeerLink) : (s.updLink i f).dbg = s.dbg := rfl
@[simp] theorem updLink_out (i : PeerPort) (f : PeerLink → PeerLink) : (s.updLink i f).out = s.out := rfl
@[simp] theorem updLink_fresh (i : PeerPort) (f : PeerLink → PeerLink) : (s.updLink i f).fresh = s.fresh := rfl
@[simp] theorem updLink_order (i : PeerPort) (f : PeerLink → PeerLink) : (s.updLink i f).order = s.order := rfl
@[simp] theorem updLink_pending (i : PeerPort) (f : PeerLink → PeerLink) : (s.updLink i f).pending = s.pending := rfl

@[simp] theorem updStack_hk (m : Stack) (f : StackMem → StackMem) : (s.updStack m f).hk = s.hk := rfl
@[simp] theorem updStack_ports (m : Stack) (f : StackMem → StackMem) : (s.updStack m f).ports = s.ports := rfl
@[simp] theorem updStack_ctxs (m : Stack) (f : StackMem → StackMem) : (s.updStack m f).ctxs = s.ctxs := rfl
@[simp] theorem updStack_engines (m : Stack) (f : StackMem → StackMem) : (s.updStack m f).engines = s.engines := rfl
@[simp] theorem updStack_parts (m : Stack) (f : StackMem → StackMem) : (s.updStack m f).parts = s.parts := rfl
@[simp] theorem updStack_peer (m : Stack) (f : StackMem → StackMem) : (s.updStack m f).peer = s.peer := rfl
@[simp] theorem updStack_rcv (m : Stack) (f : StackMem → StackMem) : (s.updStack m f).rcv = s.rcv := rfl
@[simp] theorem updStack_pwr (m : Stack) (f : StackMem → StackMem) : (s.updStack m f).pwr = s.pwr := rfl
@[simp] theorem updStack_boot (m : Stack) (f : StackMem → StackMem) : (s.updStack m f).boot = s.boot := rfl
@[simp] theorem updStack_sec (m : Stack) (f : StackMem → StackMem) : (s.updStack m f).sec = s.sec := rfl
@[simp] theorem updStack_age (m : Stack) (f : StackMem → StackMem) : (s.updStack m f).age = s.age := rfl
@[simp] theorem updStack_dbg (m : Stack) (f : StackMem → StackMem) : (s.updStack m f).dbg = s.dbg := rfl
@[simp] theorem updStack_out (m : Stack) (f : StackMem → StackMem) : (s.updStack m f).out = s.out := rfl
@[simp] theorem updStack_fresh (m : Stack) (f : StackMem → StackMem) : (s.updStack m f).fresh = s.fresh := rfl
@[simp] theorem updStack_order (m : Stack) (f : StackMem → StackMem) : (s.updStack m f).order = s.order := rfl
@[simp] theorem updStack_pending (m : Stack) (f : StackMem → StackMem) : (s.updStack m f).pending = s.pending := rfl

@[simp] theorem hostWrite_hk (p : Port) (a : Nat) (bs : List Byte) : (s.hostWrite p a bs).hk = s.hk := rfl
@[simp] theorem hostWrite_ports (p : Port) (a : Nat) (bs : List Byte) : (s.hostWrite p a bs).ports = s.ports := rfl
@[simp] theorem hostWrite_ctxs (p : Port) (a : Nat) (bs : List Byte) : (s.hostWrite p a bs).ctxs = s.ctxs := rfl
@[simp] theorem hostWrite_engines (p : Port) (a : Nat) (bs : List Byte) : (s.hostWrite p a bs).engines = s.engines := rfl
@[simp] theorem hostWrite_parts (p : Port) (a : Nat) (bs : List Byte) : (s.hostWrite p a bs).parts = s.parts := rfl
@[simp] theorem hostWrite_peer (p : Port) (a : Nat) (bs : List Byte) : (s.hostWrite p a bs).peer = s.peer := rfl
@[simp] theorem hostWrite_rcv (p : Port) (a : Nat) (bs : List Byte) : (s.hostWrite p a bs).rcv = s.rcv := rfl
@[simp] theorem hostWrite_pwr (p : Port) (a : Nat) (bs : List Byte) : (s.hostWrite p a bs).pwr = s.pwr := rfl
@[simp] theorem hostWrite_boot (p : Port) (a : Nat) (bs : List Byte) : (s.hostWrite p a bs).boot = s.boot := rfl
@[simp] theorem hostWrite_sec (p : Port) (a : Nat) (bs : List Byte) : (s.hostWrite p a bs).sec = s.sec := rfl
@[simp] theorem hostWrite_age (p : Port) (a : Nat) (bs : List Byte) : (s.hostWrite p a bs).age = s.age := rfl
@[simp] theorem hostWrite_dbg (p : Port) (a : Nat) (bs : List Byte) : (s.hostWrite p a bs).dbg = s.dbg := rfl
@[simp] theorem hostWrite_out (p : Port) (a : Nat) (bs : List Byte) : (s.hostWrite p a bs).out = s.out := rfl
@[simp] theorem hostWrite_fresh (p : Port) (a : Nat) (bs : List Byte) : (s.hostWrite p a bs).fresh = s.fresh := rfl
@[simp] theorem hostWrite_order (p : Port) (a : Nat) (bs : List Byte) : (s.hostWrite p a bs).order = s.order := rfl
@[simp] theorem hostWrite_pending (p : Port) (a : Nat) (bs : List Byte) : (s.hostWrite p a bs).pending = s.pending := rfl

@[simp] theorem emit_hk (o : Output) : (s.emit o).hk = s.hk := rfl
@[simp] theorem emit_ports (o : Output) : (s.emit o).ports = s.ports := rfl
@[simp] theorem emit_ctxs (o : Output) : (s.emit o).ctxs = s.ctxs := rfl
@[simp] theorem emit_engines (o : Output) : (s.emit o).engines = s.engines := rfl
@[simp] theorem emit_parts (o : Output) : (s.emit o).parts = s.parts := rfl
@[simp] theorem emit_mem (o : Output) : (s.emit o).mem = s.mem := rfl
@[simp] theorem emit_peer (o : Output) : (s.emit o).peer = s.peer := rfl
@[simp] theorem emit_rcv (o : Output) : (s.emit o).rcv = s.rcv := rfl
@[simp] theorem emit_pwr (o : Output) : (s.emit o).pwr = s.pwr := rfl
@[simp] theorem emit_boot (o : Output) : (s.emit o).boot = s.boot := rfl
@[simp] theorem emit_sec (o : Output) : (s.emit o).sec = s.sec := rfl
@[simp] theorem emit_age (o : Output) : (s.emit o).age = s.age := rfl
@[simp] theorem emit_dbg (o : Output) : (s.emit o).dbg = s.dbg := rfl
@[simp] theorem emit_fresh (o : Output) : (s.emit o).fresh = s.fresh := rfl
@[simp] theorem emit_order (o : Output) : (s.emit o).order = s.order := rfl
@[simp] theorem emit_pending (o : Output) : (s.emit o).pending = s.pending := rfl

/-! ### The part that an update changes -/

@[simp] theorem port_updPort_same (p : Port) (f : HostPort → HostPort) : (s.updPort p f).port p = f (s.port p) := by
  simp [State.updPort, State.port, State.setPort]
@[simp] theorem port_updPort_ne (p : Port) (f : HostPort → HostPort) {j : Port} (h : j ≠ p) : (s.updPort p f).port j = s.port j := by
  simp [State.updPort, State.port, Fin.val_ne_of_ne h, State.setPort]
theorem port_updPort (p : Port) (f : HostPort → HostPort) (j : Port) : (s.updPort p f).port j = if j = p then f (s.port p) else s.port j := by
  split
  · next h => subst h; simp
  · next h => simp [h]

@[simp] theorem ctx_updCtx_same (c : CtxNo) (f : Ctx → Ctx) : (s.updCtx c f).ctx c = f (s.ctx c) := by
  simp [State.updCtx, State.ctx]
@[simp] theorem ctx_updCtx_ne (c : CtxNo) (f : Ctx → Ctx) {j : CtxNo} (h : j ≠ c) : (s.updCtx c f).ctx j = s.ctx j := by
  simp [State.updCtx, State.ctx, Fin.val_ne_of_ne h]
theorem ctx_updCtx (c : CtxNo) (f : Ctx → Ctx) (j : CtxNo) : (s.updCtx c f).ctx j = if j = c then f (s.ctx c) else s.ctx j := by
  split
  · next h => subst h; simp
  · next h => simp [h]

@[simp] theorem eng_updEng_same (e : Eng) (f : Engine → Engine) : (s.updEng e f).eng e = f (s.eng e) := by
  simp [State.updEng, State.eng]
@[simp] theorem eng_updEng_ne (e : Eng) (f : Engine → Engine) {j : Eng} (h : j ≠ e) : (s.updEng e f).eng j = s.eng j := by
  simp [State.updEng, State.eng, Fin.val_ne_of_ne h]
theorem eng_updEng (e : Eng) (f : Engine → Engine) (j : Eng) : (s.updEng e f).eng j = if j = e then f (s.eng e) else s.eng j := by
  split
  · next h => subst h; simp
  · next h => simp [h]

@[simp] theorem part_updPart_same (q : Part) (f : Partition → Partition) : (s.updPart q f).part q = f (s.part q) := by
  simp [State.updPart, State.part]
@[simp] theorem part_updPart_ne (q : Part) (f : Partition → Partition) {j : Part} (h : j ≠ q) : (s.updPart q f).part j = s.part j := by
  simp [State.updPart, State.part, Fin.val_ne_of_ne h]
theorem part_updPart (q : Part) (f : Partition → Partition) (j : Part) : (s.updPart q f).part j = if j = q then f (s.part q) else s.part j := by
  split
  · next h => subst h; simp
  · next h => simp [h]

@[simp] theorem link_updLink_same (i : PeerPort) (f : PeerLink → PeerLink) : (s.updLink i f).link i = f (s.link i) := by
  simp [State.updLink, State.link]
@[simp] theorem link_updLink_ne (i : PeerPort) (f : PeerLink → PeerLink) {j : PeerPort} (h : j ≠ i) : (s.updLink i f).link j = s.link j := by
  simp [State.updLink, State.link, Fin.val_ne_of_ne h]
theorem link_updLink (i : PeerPort) (f : PeerLink → PeerLink) (j : PeerPort) : (s.updLink i f).link j = if j = i then f (s.link i) else s.link j := by
  split
  · next h => subst h; simp
  · next h => simp [h]

@[simp] theorem stack_updStack_same (m : Stack) (f : StackMem → StackMem) : (s.updStack m f).stack m = f (s.stack m) := by
  simp [State.updStack, State.stack]
@[simp] theorem stack_updStack_ne (m : Stack) (f : StackMem → StackMem) {j : Stack} (h : j ≠ m) : (s.updStack m f).stack j = s.stack j := by
  simp [State.updStack, State.stack, Fin.val_ne_of_ne h]
theorem stack_updStack (m : Stack) (f : StackMem → StackMem) (j : Stack) : (s.updStack m f).stack j = if j = m then f (s.stack m) else s.stack j := by
  split
  · next h => subst h; simp
  · next h => simp [h]

@[simp] theorem ring_updRing_same (p : Port) (r : RingNo) (f : Ring → Ring) : (s.updRing p r f).ring p r = f (s.ring p r) := by
  simp [State.updRing, State.ring]
@[simp] theorem ring_updRing_ne (p : Port) (r : RingNo) (f : Ring → Ring) {q : Port} {j : RingNo} (h : ¬(q = p ∧ j = r)) :
    (s.updRing p r f).ring q j = s.ring q j := by
  by_cases hq : q = p
  · subst hq; simp [State.updRing, State.ring, Fin.val_ne_of_ne (fun hj => h ⟨rfl, hj⟩)]
  · simp [State.updRing, State.ring, hq]
theorem ring_updRing (p : Port) (r : RingNo) (f : Ring → Ring) (q : Port) (j : RingNo) :
    (s.updRing p r f).ring q j = if q = p ∧ j = r then f (s.ring p r) else s.ring q j := by
  split
  · next h => obtain ⟨rfl, rfl⟩ := h; simp
  · next h => simp [h]
@[simp] theorem cq_updRing (p : Port) (r : RingNo) (f : Ring → Ring) (q : Port) (j : CqNo) :
    (s.updRing p r f).cq q j = s.cq q j := by
  by_cases hq : q = p
  · subst hq; simp [State.updRing, State.cq]
  · simp [State.updRing, State.cq, hq]
@[simp] theorem cmd_updRing (p : Port) (r : RingNo) (f : Ring → Ring) (q : Port) (j : Tag) :
    (s.updRing p r f).cmd q j = s.cmd q j := by
  by_cases hq : q = p
  · subst hq; simp [State.updRing, State.cmd]
  · simp [State.updRing, State.cmd, hq]
@[simp] theorem area_updRing (p : Port) (r : RingNo) (f : Ring → Ring) (q : Port) (j : Fn) :
    (s.updRing p r f).area q j = s.area q j := by
  by_cases hq : q = p
  · subst hq; simp [State.updRing, State.area]
  · simp [State.updRing, State.area, hq]
@[simp] theorem port_updRing_enable (p : Port) (r : RingNo) (f : Ring → Ring) (q : Port) : ((s.updRing p r f).port q).enable = (s.port q).enable := by
  by_cases hq : q = p
  · subst hq; simp [State.updRing]
  · simp [State.updRing, hq]
@[simp] theorem port_updRing_linkUp (p : Port) (r : RingNo) (f : Ring → Ring) (q : Port) : ((s.updRing p r f).port q).linkUp = (s.port q).linkUp := by
  by_cases hq : q = p
  · subst hq; simp [State.updRing]
  · simp [State.updRing, hq]
@[simp] theorem port_updRing_linkLost (p : Port) (r : RingNo) (f : Ring → Ring) (q : Port) : ((s.updRing p r f).port q).linkLost = (s.port q).linkLost := by
  by_cases hq : q = p
  · subst hq; simp [State.updRing]
  · simp [State.updRing, hq]
@[simp] theorem port_updRing_lostTooLong (p : Port) (r : RingNo) (f : Ring → Ring) (q : Port) : ((s.updRing p r f).port q).lostTooLong = (s.port q).lostTooLong := by
  by_cases hq : q = p
  · subst hq; simp [State.updRing]
  · simp [State.updRing, hq]
@[simp] theorem port_updRing_perst (p : Port) (r : RingNo) (f : Ring → Ring) (q : Port) : ((s.updRing p r f).port q).perst = (s.port q).perst := by
  by_cases hq : q = p
  · subst hq; simp [State.updRing]
  · simp [State.updRing, hq]
@[simp] theorem port_updRing_perstUntilUp (p : Port) (r : RingNo) (f : Ring → Ring) (q : Port) : ((s.updRing p r f).port q).perstUntilUp = (s.port q).perstUntilUp := by
  by_cases hq : q = p
  · subst hq; simp [State.updRing]
  · simp [State.updRing, hq]
@[simp] theorem port_updRing_bar4Base (p : Port) (r : RingNo) (f : Ring → Ring) (q : Port) : ((s.updRing p r f).port q).bar4Base = (s.port q).bar4Base := by
  by_cases hq : q = p
  · subst hq; simp [State.updRing]
  · simp [State.updRing, hq]
@[simp] theorem port_updRing_bar4Log2 (p : Port) (r : RingNo) (f : Ring → Ring) (q : Port) : ((s.updRing p r f).port q).bar4Log2 = (s.port q).bar4Log2 := by
  by_cases hq : q = p
  · subst hq; simp [State.updRing]
  · simp [State.updRing, hq]
@[simp] theorem port_updRing_vfRings (p : Port) (r : RingNo) (f : Ring → Ring) (q : Port) : ((s.updRing p r f).port q).vfRings = (s.port q).vfRings := by
  by_cases hq : q = p
  · subst hq; simp [State.updRing]
  · simp [State.updRing, hq]
@[simp] theorem port_updRing_vfEnabled (p : Port) (r : RingNo) (f : Ring → Ring) (q : Port) : ((s.updRing p r f).port q).vfEnabled = (s.port q).vfEnabled := by
  by_cases hq : q = p
  · subst hq; simp [State.updRing]
  · simp [State.updRing, hq]
@[simp] theorem port_updRing_areas (p : Port) (r : RingNo) (f : Ring → Ring) (q : Port) : ((s.updRing p r f).port q).areas = (s.port q).areas := by
  by_cases hq : q = p
  · subst hq; simp [State.updRing]
  · simp [State.updRing, hq]
@[simp] theorem port_updRing_cqs (p : Port) (r : RingNo) (f : Ring → Ring) (q : Port) : ((s.updRing p r f).port q).cqs = (s.port q).cqs := by
  by_cases hq : q = p
  · subst hq; simp [State.updRing]
  · simp [State.updRing, hq]
@[simp] theorem port_updRing_tags (p : Port) (r : RingNo) (f : Ring → Ring) (q : Port) : ((s.updRing p r f).port q).tags = (s.port q).tags := by
  by_cases hq : q = p
  · subst hq; simp [State.updRing]
  · simp [State.updRing, hq]
@[simp] theorem port_updRing_rrNext (p : Port) (r : RingNo) (f : Ring → Ring) (q : Port) : ((s.updRing p r f).port q).rrNext = (s.port q).rrNext := by
  by_cases hq : q = p
  · subst hq; simp [State.updRing]
  · simp [State.updRing, hq]
@[simp] theorem port_updRing_event (p : Port) (r : RingNo) (f : Ring → Ring) (q : Port) : ((s.updRing p r f).port q).event = (s.port q).event := by
  by_cases hq : q = p
  · subst hq; simp [State.updRing]
  · simp [State.updRing, hq]
@[simp] theorem port_updRing_cause (p : Port) (r : RingNo) (f : Ring → Ring) (q : Port) : ((s.updRing p r f).port q).cause = (s.port q).cause := by
  by_cases hq : q = p
  · subst hq; simp [State.updRing]
  · simp [State.updRing, hq]
@[simp] theorem port_updRing_msix (p : Port) (r : RingNo) (f : Ring → Ring) (q : Port) : ((s.updRing p r f).port q).msix = (s.port q).msix := by
  by_cases hq : q = p
  · subst hq; simp [State.updRing]
  · simp [State.updRing, hq]
@[simp] theorem port_updRing_vfMsix (p : Port) (r : RingNo) (f : Ring → Ring) (q : Port) : ((s.updRing p r f).port q).vfMsix = (s.port q).vfMsix := by
  by_cases hq : q = p
  · subst hq; simp [State.updRing]
  · simp [State.updRing, hq]
@[simp] theorem port_updRing_faultQ (p : Port) (r : RingNo) (f : Ring → Ring) (q : Port) : ((s.updRing p r f).port q).faultQ = (s.port q).faultQ := by
  by_cases hq : q = p
  · subst hq; simp [State.updRing]
  · simp [State.updRing, hq]
@[simp] theorem port_updRing_errQ (p : Port) (r : RingNo) (f : Ring → Ring) (q : Port) : ((s.updRing p r f).port q).errQ = (s.port q).errQ := by
  by_cases hq : q = p
  · subst hq; simp [State.updRing]
  · simp [State.updRing, hq]
@[simp] theorem port_updRing_ide (p : Port) (r : RingNo) (f : Ring → Ring) (q : Port) : ((s.updRing p r f).port q).ide = (s.port q).ide := by
  by_cases hq : q = p
  · subst hq; simp [State.updRing]
  · simp [State.updRing, hq]

@[simp] theorem cq_updCq_same (p : Port) (c : CqNo) (f : Cq → Cq) : (s.updCq p c f).cq p c = f (s.cq p c) := by
  simp [State.updCq, State.cq]
@[simp] theorem cq_updCq_ne (p : Port) (c : CqNo) (f : Cq → Cq) {q : Port} {j : CqNo} (h : ¬(q = p ∧ j = c)) :
    (s.updCq p c f).cq q j = s.cq q j := by
  by_cases hq : q = p
  · subst hq; simp [State.updCq, State.cq, Fin.val_ne_of_ne (fun hj => h ⟨rfl, hj⟩)]
  · simp [State.updCq, State.cq, hq]
theorem cq_updCq (p : Port) (c : CqNo) (f : Cq → Cq) (q : Port) (j : CqNo) :
    (s.updCq p c f).cq q j = if q = p ∧ j = c then f (s.cq p c) else s.cq q j := by
  split
  · next h => obtain ⟨rfl, rfl⟩ := h; simp
  · next h => simp [h]
@[simp] theorem ring_updCq (p : Port) (c : CqNo) (f : Cq → Cq) (q : Port) (j : RingNo) :
    (s.updCq p c f).ring q j = s.ring q j := by
  by_cases hq : q = p
  · subst hq; simp [State.updCq, State.ring]
  · simp [State.updCq, State.ring, hq]
@[simp] theorem cmd_updCq (p : Port) (c : CqNo) (f : Cq → Cq) (q : Port) (j : Tag) :
    (s.updCq p c f).cmd q j = s.cmd q j := by
  by_cases hq : q = p
  · subst hq; simp [State.updCq, State.cmd]
  · simp [State.updCq, State.cmd, hq]
@[simp] theorem area_updCq (p : Port) (c : CqNo) (f : Cq → Cq) (q : Port) (j : Fn) :
    (s.updCq p c f).area q j = s.area q j := by
  by_cases hq : q = p
  · subst hq; simp [State.updCq, State.area]
  · simp [State.updCq, State.area, hq]
@[simp] theorem port_updCq_enable (p : Port) (c : CqNo) (f : Cq → Cq) (q : Port) : ((s.updCq p c f).port q).enable = (s.port q).enable := by
  by_cases hq : q = p
  · subst hq; simp [State.updCq]
  · simp [State.updCq, hq]
@[simp] theorem port_updCq_linkUp (p : Port) (c : CqNo) (f : Cq → Cq) (q : Port) : ((s.updCq p c f).port q).linkUp = (s.port q).linkUp := by
  by_cases hq : q = p
  · subst hq; simp [State.updCq]
  · simp [State.updCq, hq]
@[simp] theorem port_updCq_linkLost (p : Port) (c : CqNo) (f : Cq → Cq) (q : Port) : ((s.updCq p c f).port q).linkLost = (s.port q).linkLost := by
  by_cases hq : q = p
  · subst hq; simp [State.updCq]
  · simp [State.updCq, hq]
@[simp] theorem port_updCq_lostTooLong (p : Port) (c : CqNo) (f : Cq → Cq) (q : Port) : ((s.updCq p c f).port q).lostTooLong = (s.port q).lostTooLong := by
  by_cases hq : q = p
  · subst hq; simp [State.updCq]
  · simp [State.updCq, hq]
@[simp] theorem port_updCq_perst (p : Port) (c : CqNo) (f : Cq → Cq) (q : Port) : ((s.updCq p c f).port q).perst = (s.port q).perst := by
  by_cases hq : q = p
  · subst hq; simp [State.updCq]
  · simp [State.updCq, hq]
@[simp] theorem port_updCq_perstUntilUp (p : Port) (c : CqNo) (f : Cq → Cq) (q : Port) : ((s.updCq p c f).port q).perstUntilUp = (s.port q).perstUntilUp := by
  by_cases hq : q = p
  · subst hq; simp [State.updCq]
  · simp [State.updCq, hq]
@[simp] theorem port_updCq_bar4Base (p : Port) (c : CqNo) (f : Cq → Cq) (q : Port) : ((s.updCq p c f).port q).bar4Base = (s.port q).bar4Base := by
  by_cases hq : q = p
  · subst hq; simp [State.updCq]
  · simp [State.updCq, hq]
@[simp] theorem port_updCq_bar4Log2 (p : Port) (c : CqNo) (f : Cq → Cq) (q : Port) : ((s.updCq p c f).port q).bar4Log2 = (s.port q).bar4Log2 := by
  by_cases hq : q = p
  · subst hq; simp [State.updCq]
  · simp [State.updCq, hq]
@[simp] theorem port_updCq_vfRings (p : Port) (c : CqNo) (f : Cq → Cq) (q : Port) : ((s.updCq p c f).port q).vfRings = (s.port q).vfRings := by
  by_cases hq : q = p
  · subst hq; simp [State.updCq]
  · simp [State.updCq, hq]
@[simp] theorem port_updCq_vfEnabled (p : Port) (c : CqNo) (f : Cq → Cq) (q : Port) : ((s.updCq p c f).port q).vfEnabled = (s.port q).vfEnabled := by
  by_cases hq : q = p
  · subst hq; simp [State.updCq]
  · simp [State.updCq, hq]
@[simp] theorem port_updCq_areas (p : Port) (c : CqNo) (f : Cq → Cq) (q : Port) : ((s.updCq p c f).port q).areas = (s.port q).areas := by
  by_cases hq : q = p
  · subst hq; simp [State.updCq]
  · simp [State.updCq, hq]
@[simp] theorem port_updCq_rings (p : Port) (c : CqNo) (f : Cq → Cq) (q : Port) : ((s.updCq p c f).port q).rings = (s.port q).rings := by
  by_cases hq : q = p
  · subst hq; simp [State.updCq]
  · simp [State.updCq, hq]
@[simp] theorem port_updCq_tags (p : Port) (c : CqNo) (f : Cq → Cq) (q : Port) : ((s.updCq p c f).port q).tags = (s.port q).tags := by
  by_cases hq : q = p
  · subst hq; simp [State.updCq]
  · simp [State.updCq, hq]
@[simp] theorem port_updCq_rrNext (p : Port) (c : CqNo) (f : Cq → Cq) (q : Port) : ((s.updCq p c f).port q).rrNext = (s.port q).rrNext := by
  by_cases hq : q = p
  · subst hq; simp [State.updCq]
  · simp [State.updCq, hq]
@[simp] theorem port_updCq_event (p : Port) (c : CqNo) (f : Cq → Cq) (q : Port) : ((s.updCq p c f).port q).event = (s.port q).event := by
  by_cases hq : q = p
  · subst hq; simp [State.updCq]
  · simp [State.updCq, hq]
@[simp] theorem port_updCq_cause (p : Port) (c : CqNo) (f : Cq → Cq) (q : Port) : ((s.updCq p c f).port q).cause = (s.port q).cause := by
  by_cases hq : q = p
  · subst hq; simp [State.updCq]
  · simp [State.updCq, hq]
@[simp] theorem port_updCq_msix (p : Port) (c : CqNo) (f : Cq → Cq) (q : Port) : ((s.updCq p c f).port q).msix = (s.port q).msix := by
  by_cases hq : q = p
  · subst hq; simp [State.updCq]
  · simp [State.updCq, hq]
@[simp] theorem port_updCq_vfMsix (p : Port) (c : CqNo) (f : Cq → Cq) (q : Port) : ((s.updCq p c f).port q).vfMsix = (s.port q).vfMsix := by
  by_cases hq : q = p
  · subst hq; simp [State.updCq]
  · simp [State.updCq, hq]
@[simp] theorem port_updCq_faultQ (p : Port) (c : CqNo) (f : Cq → Cq) (q : Port) : ((s.updCq p c f).port q).faultQ = (s.port q).faultQ := by
  by_cases hq : q = p
  · subst hq; simp [State.updCq]
  · simp [State.updCq, hq]
@[simp] theorem port_updCq_errQ (p : Port) (c : CqNo) (f : Cq → Cq) (q : Port) : ((s.updCq p c f).port q).errQ = (s.port q).errQ := by
  by_cases hq : q = p
  · subst hq; simp [State.updCq]
  · simp [State.updCq, hq]
@[simp] theorem port_updCq_ide (p : Port) (c : CqNo) (f : Cq → Cq) (q : Port) : ((s.updCq p c f).port q).ide = (s.port q).ide := by
  by_cases hq : q = p
  · subst hq; simp [State.updCq]
  · simp [State.updCq, hq]

@[simp] theorem cmd_updCmd_same (p : Port) (t : Tag) (f : Cmd → Cmd) : (s.updCmd p t f).cmd p t = f (s.cmd p t) := by
  simp [State.updCmd, State.cmd]
@[simp] theorem cmd_updCmd_ne (p : Port) (t : Tag) (f : Cmd → Cmd) {q : Port} {j : Tag} (h : ¬(q = p ∧ j = t)) :
    (s.updCmd p t f).cmd q j = s.cmd q j := by
  by_cases hq : q = p
  · subst hq; simp [State.updCmd, State.cmd, Fin.val_ne_of_ne (fun hj => h ⟨rfl, hj⟩)]
  · simp [State.updCmd, State.cmd, hq]
theorem cmd_updCmd (p : Port) (t : Tag) (f : Cmd → Cmd) (q : Port) (j : Tag) :
    (s.updCmd p t f).cmd q j = if q = p ∧ j = t then f (s.cmd p t) else s.cmd q j := by
  split
  · next h => obtain ⟨rfl, rfl⟩ := h; simp
  · next h => simp [h]
@[simp] theorem ring_updCmd (p : Port) (t : Tag) (f : Cmd → Cmd) (q : Port) (j : RingNo) :
    (s.updCmd p t f).ring q j = s.ring q j := by
  by_cases hq : q = p
  · subst hq; simp [State.updCmd, State.ring]
  · simp [State.updCmd, State.ring, hq]
@[simp] theorem cq_updCmd (p : Port) (t : Tag) (f : Cmd → Cmd) (q : Port) (j : CqNo) :
    (s.updCmd p t f).cq q j = s.cq q j := by
  by_cases hq : q = p
  · subst hq; simp [State.updCmd, State.cq]
  · simp [State.updCmd, State.cq, hq]
@[simp] theorem area_updCmd (p : Port) (t : Tag) (f : Cmd → Cmd) (q : Port) (j : Fn) :
    (s.updCmd p t f).area q j = s.area q j := by
  by_cases hq : q = p
  · subst hq; simp [State.updCmd, State.area]
  · simp [State.updCmd, State.area, hq]
@[simp] theorem port_updCmd_enable (p : Port) (t : Tag) (f : Cmd → Cmd) (q : Port) : ((s.updCmd p t f).port q).enable = (s.port q).enable := by
  by_cases hq : q = p
  · subst hq; simp [State.updCmd]
  · simp [State.updCmd, hq]
@[simp] theorem port_updCmd_linkUp (p : Port) (t : Tag) (f : Cmd → Cmd) (q : Port) : ((s.updCmd p t f).port q).linkUp = (s.port q).linkUp := by
  by_cases hq : q = p
  · subst hq; simp [State.updCmd]
  · simp [State.updCmd, hq]
@[simp] theorem port_updCmd_linkLost (p : Port) (t : Tag) (f : Cmd → Cmd) (q : Port) : ((s.updCmd p t f).port q).linkLost = (s.port q).linkLost := by
  by_cases hq : q = p
  · subst hq; simp [State.updCmd]
  · simp [State.updCmd, hq]
@[simp] theorem port_updCmd_lostTooLong (p : Port) (t : Tag) (f : Cmd → Cmd) (q : Port) : ((s.updCmd p t f).port q).lostTooLong = (s.port q).lostTooLong := by
  by_cases hq : q = p
  · subst hq; simp [State.updCmd]
  · simp [State.updCmd, hq]
@[simp] theorem port_updCmd_perst (p : Port) (t : Tag) (f : Cmd → Cmd) (q : Port) : ((s.updCmd p t f).port q).perst = (s.port q).perst := by
  by_cases hq : q = p
  · subst hq; simp [State.updCmd]
  · simp [State.updCmd, hq]
@[simp] theorem port_updCmd_perstUntilUp (p : Port) (t : Tag) (f : Cmd → Cmd) (q : Port) : ((s.updCmd p t f).port q).perstUntilUp = (s.port q).perstUntilUp := by
  by_cases hq : q = p
  · subst hq; simp [State.updCmd]
  · simp [State.updCmd, hq]
@[simp] theorem port_updCmd_bar4Base (p : Port) (t : Tag) (f : Cmd → Cmd) (q : Port) : ((s.updCmd p t f).port q).bar4Base = (s.port q).bar4Base := by
  by_cases hq : q = p
  · subst hq; simp [State.updCmd]
  · simp [State.updCmd, hq]
@[simp] theorem port_updCmd_bar4Log2 (p : Port) (t : Tag) (f : Cmd → Cmd) (q : Port) : ((s.updCmd p t f).port q).bar4Log2 = (s.port q).bar4Log2 := by
  by_cases hq : q = p
  · subst hq; simp [State.updCmd]
  · simp [State.updCmd, hq]
@[simp] theorem port_updCmd_vfRings (p : Port) (t : Tag) (f : Cmd → Cmd) (q : Port) : ((s.updCmd p t f).port q).vfRings = (s.port q).vfRings := by
  by_cases hq : q = p
  · subst hq; simp [State.updCmd]
  · simp [State.updCmd, hq]
@[simp] theorem port_updCmd_vfEnabled (p : Port) (t : Tag) (f : Cmd → Cmd) (q : Port) : ((s.updCmd p t f).port q).vfEnabled = (s.port q).vfEnabled := by
  by_cases hq : q = p
  · subst hq; simp [State.updCmd]
  · simp [State.updCmd, hq]
@[simp] theorem port_updCmd_areas (p : Port) (t : Tag) (f : Cmd → Cmd) (q : Port) : ((s.updCmd p t f).port q).areas = (s.port q).areas := by
  by_cases hq : q = p
  · subst hq; simp [State.updCmd]
  · simp [State.updCmd, hq]
@[simp] theorem port_updCmd_rings (p : Port) (t : Tag) (f : Cmd → Cmd) (q : Port) : ((s.updCmd p t f).port q).rings = (s.port q).rings := by
  by_cases hq : q = p
  · subst hq; simp [State.updCmd]
  · simp [State.updCmd, hq]
@[simp] theorem port_updCmd_cqs (p : Port) (t : Tag) (f : Cmd → Cmd) (q : Port) : ((s.updCmd p t f).port q).cqs = (s.port q).cqs := by
  by_cases hq : q = p
  · subst hq; simp [State.updCmd]
  · simp [State.updCmd, hq]
@[simp] theorem port_updCmd_rrNext (p : Port) (t : Tag) (f : Cmd → Cmd) (q : Port) : ((s.updCmd p t f).port q).rrNext = (s.port q).rrNext := by
  by_cases hq : q = p
  · subst hq; simp [State.updCmd]
  · simp [State.updCmd, hq]
@[simp] theorem port_updCmd_event (p : Port) (t : Tag) (f : Cmd → Cmd) (q : Port) : ((s.updCmd p t f).port q).event = (s.port q).event := by
  by_cases hq : q = p
  · subst hq; simp [State.updCmd]
  · simp [State.updCmd, hq]
@[simp] theorem port_updCmd_cause (p : Port) (t : Tag) (f : Cmd → Cmd) (q : Port) : ((s.updCmd p t f).port q).cause = (s.port q).cause := by
  by_cases hq : q = p
  · subst hq; simp [State.updCmd]
  · simp [State.updCmd, hq]
@[simp] theorem port_updCmd_msix (p : Port) (t : Tag) (f : Cmd → Cmd) (q : Port) : ((s.updCmd p t f).port q).msix = (s.port q).msix := by
  by_cases hq : q = p
  · subst hq; simp [State.updCmd]
  · simp [State.updCmd, hq]
@[simp] theorem port_updCmd_vfMsix (p : Port) (t : Tag) (f : Cmd → Cmd) (q : Port) : ((s.updCmd p t f).port q).vfMsix = (s.port q).vfMsix := by
  by_cases hq : q = p
  · subst hq; simp [State.updCmd]
  · simp [State.updCmd, hq]
@[simp] theorem port_updCmd_faultQ (p : Port) (t : Tag) (f : Cmd → Cmd) (q : Port) : ((s.updCmd p t f).port q).faultQ = (s.port q).faultQ := by
  by_cases hq : q = p
  · subst hq; simp [State.updCmd]
  · simp [State.updCmd, hq]
@[simp] theorem port_updCmd_errQ (p : Port) (t : Tag) (f : Cmd → Cmd) (q : Port) : ((s.updCmd p t f).port q).errQ = (s.port q).errQ := by
  by_cases hq : q = p
  · subst hq; simp [State.updCmd]
  · simp [State.updCmd, hq]
@[simp] theorem port_updCmd_ide (p : Port) (t : Tag) (f : Cmd → Cmd) (q : Port) : ((s.updCmd p t f).port q).ide = (s.port q).ide := by
  by_cases hq : q = p
  · subst hq; simp [State.updCmd]
  · simp [State.updCmd, hq]

@[simp] theorem area_updArea_same (p : Port) (n : Fn) (f : Area → Area) : (s.updArea p n f).area p n = f (s.area p n) := by
  simp [State.updArea, State.area]
@[simp] theorem area_updArea_ne (p : Port) (n : Fn) (f : Area → Area) {q : Port} {j : Fn} (h : ¬(q = p ∧ j = n)) :
    (s.updArea p n f).area q j = s.area q j := by
  by_cases hq : q = p
  · subst hq; simp [State.updArea, State.area, Fin.val_ne_of_ne (fun hj => h ⟨rfl, hj⟩)]
  · simp [State.updArea, State.area, hq]
theorem area_updArea (p : Port) (n : Fn) (f : Area → Area) (q : Port) (j : Fn) :
    (s.updArea p n f).area q j = if q = p ∧ j = n then f (s.area p n) else s.area q j := by
  split
  · next h => obtain ⟨rfl, rfl⟩ := h; simp
  · next h => simp [h]
@[simp] theorem ring_updArea (p : Port) (n : Fn) (f : Area → Area) (q : Port) (j : RingNo) :
    (s.updArea p n f).ring q j = s.ring q j := by
  by_cases hq : q = p
  · subst hq; simp [State.updArea, State.ring]
  · simp [State.updArea, State.ring, hq]
@[simp] theorem cq_updArea (p : Port) (n : Fn) (f : Area → Area) (q : Port) (j : CqNo) :
    (s.updArea p n f).cq q j = s.cq q j := by
  by_cases hq : q = p
  · subst hq; simp [State.updArea, State.cq]
  · simp [State.updArea, State.cq, hq]
@[simp] theorem cmd_updArea (p : Port) (n : Fn) (f : Area → Area) (q : Port) (j : Tag) :
    (s.updArea p n f).cmd q j = s.cmd q j := by
  by_cases hq : q = p
  · subst hq; simp [State.updArea, State.cmd]
  · simp [State.updArea, State.cmd, hq]
@[simp] theorem port_updArea_enable (p : Port) (n : Fn) (f : Area → Area) (q : Port) : ((s.updArea p n f).port q).enable = (s.port q).enable := by
  by_cases hq : q = p
  · subst hq; simp [State.updArea]
  · simp [State.updArea, hq]
@[simp] theorem port_updArea_linkUp (p : Port) (n : Fn) (f : Area → Area) (q : Port) : ((s.updArea p n f).port q).linkUp = (s.port q).linkUp := by
  by_cases hq : q = p
  · subst hq; simp [State.updArea]
  · simp [State.updArea, hq]
@[simp] theorem port_updArea_linkLost (p : Port) (n : Fn) (f : Area → Area) (q : Port) : ((s.updArea p n f).port q).linkLost = (s.port q).linkLost := by
  by_cases hq : q = p
  · subst hq; simp [State.updArea]
  · simp [State.updArea, hq]
@[simp] theorem port_updArea_lostTooLong (p : Port) (n : Fn) (f : Area → Area) (q : Port) : ((s.updArea p n f).port q).lostTooLong = (s.port q).lostTooLong := by
  by_cases hq : q = p
  · subst hq; simp [State.updArea]
  · simp [State.updArea, hq]
@[simp] theorem port_updArea_perst (p : Port) (n : Fn) (f : Area → Area) (q : Port) : ((s.updArea p n f).port q).perst = (s.port q).perst := by
  by_cases hq : q = p
  · subst hq; simp [State.updArea]
  · simp [State.updArea, hq]
@[simp] theorem port_updArea_perstUntilUp (p : Port) (n : Fn) (f : Area → Area) (q : Port) : ((s.updArea p n f).port q).perstUntilUp = (s.port q).perstUntilUp := by
  by_cases hq : q = p
  · subst hq; simp [State.updArea]
  · simp [State.updArea, hq]
@[simp] theorem port_updArea_bar4Base (p : Port) (n : Fn) (f : Area → Area) (q : Port) : ((s.updArea p n f).port q).bar4Base = (s.port q).bar4Base := by
  by_cases hq : q = p
  · subst hq; simp [State.updArea]
  · simp [State.updArea, hq]
@[simp] theorem port_updArea_bar4Log2 (p : Port) (n : Fn) (f : Area → Area) (q : Port) : ((s.updArea p n f).port q).bar4Log2 = (s.port q).bar4Log2 := by
  by_cases hq : q = p
  · subst hq; simp [State.updArea]
  · simp [State.updArea, hq]
@[simp] theorem port_updArea_vfRings (p : Port) (n : Fn) (f : Area → Area) (q : Port) : ((s.updArea p n f).port q).vfRings = (s.port q).vfRings := by
  by_cases hq : q = p
  · subst hq; simp [State.updArea]
  · simp [State.updArea, hq]
@[simp] theorem port_updArea_vfEnabled (p : Port) (n : Fn) (f : Area → Area) (q : Port) : ((s.updArea p n f).port q).vfEnabled = (s.port q).vfEnabled := by
  by_cases hq : q = p
  · subst hq; simp [State.updArea]
  · simp [State.updArea, hq]
@[simp] theorem port_updArea_rings (p : Port) (n : Fn) (f : Area → Area) (q : Port) : ((s.updArea p n f).port q).rings = (s.port q).rings := by
  by_cases hq : q = p
  · subst hq; simp [State.updArea]
  · simp [State.updArea, hq]
@[simp] theorem port_updArea_cqs (p : Port) (n : Fn) (f : Area → Area) (q : Port) : ((s.updArea p n f).port q).cqs = (s.port q).cqs := by
  by_cases hq : q = p
  · subst hq; simp [State.updArea]
  · simp [State.updArea, hq]
@[simp] theorem port_updArea_tags (p : Port) (n : Fn) (f : Area → Area) (q : Port) : ((s.updArea p n f).port q).tags = (s.port q).tags := by
  by_cases hq : q = p
  · subst hq; simp [State.updArea]
  · simp [State.updArea, hq]
@[simp] theorem port_updArea_rrNext (p : Port) (n : Fn) (f : Area → Area) (q : Port) : ((s.updArea p n f).port q).rrNext = (s.port q).rrNext := by
  by_cases hq : q = p
  · subst hq; simp [State.updArea]
  · simp [State.updArea, hq]
@[simp] theorem port_updArea_event (p : Port) (n : Fn) (f : Area → Area) (q : Port) : ((s.updArea p n f).port q).event = (s.port q).event := by
  by_cases hq : q = p
  · subst hq; simp [State.updArea]
  · simp [State.updArea, hq]
@[simp] theorem port_updArea_cause (p : Port) (n : Fn) (f : Area → Area) (q : Port) : ((s.updArea p n f).port q).cause = (s.port q).cause := by
  by_cases hq : q = p
  · subst hq; simp [State.updArea]
  · simp [State.updArea, hq]
@[simp] theorem port_updArea_msix (p : Port) (n : Fn) (f : Area → Area) (q : Port) : ((s.updArea p n f).port q).msix = (s.port q).msix := by
  by_cases hq : q = p
  · subst hq; simp [State.updArea]
  · simp [State.updArea, hq]
@[simp] theorem port_updArea_vfMsix (p : Port) (n : Fn) (f : Area → Area) (q : Port) : ((s.updArea p n f).port q).vfMsix = (s.port q).vfMsix := by
  by_cases hq : q = p
  · subst hq; simp [State.updArea]
  · simp [State.updArea, hq]
@[simp] theorem port_updArea_faultQ (p : Port) (n : Fn) (f : Area → Area) (q : Port) : ((s.updArea p n f).port q).faultQ = (s.port q).faultQ := by
  by_cases hq : q = p
  · subst hq; simp [State.updArea]
  · simp [State.updArea, hq]
@[simp] theorem port_updArea_errQ (p : Port) (n : Fn) (f : Area → Area) (q : Port) : ((s.updArea p n f).port q).errQ = (s.port q).errQ := by
  by_cases hq : q = p
  · subst hq; simp [State.updArea]
  · simp [State.updArea, hq]
@[simp] theorem port_updArea_ide (p : Port) (n : Fn) (f : Area → Area) (q : Port) : ((s.updArea p n f).port q).ide = (s.port q).ide := by
  by_cases hq : q = p
  · subst hq; simp [State.updArea]
  · simp [State.updArea, hq]

@[simp] theorem slot_updSlot_same (e : Eng) (k : SlotNo) (f : Slot → Slot) : (s.updSlot e k f).slot e k = f (s.slot e k) := by
  simp [State.updSlot, State.slot]
@[simp] theorem slot_updSlot_ne (e : Eng) (k : SlotNo) (f : Slot → Slot) {d : Eng} {j : SlotNo} (h : ¬(d = e ∧ j = k)) :
    (s.updSlot e k f).slot d j = s.slot d j := by
  by_cases hq : d = e
  · subst hq; simp [State.updSlot, State.slot, Fin.val_ne_of_ne (fun hj => h ⟨rfl, hj⟩)]
  · simp [State.updSlot, State.slot, hq]
theorem slot_updSlot (e : Eng) (k : SlotNo) (f : Slot → Slot) (d : Eng) (j : SlotNo) :
    (s.updSlot e k f).slot d j = if d = e ∧ j = k then f (s.slot e k) else s.slot d j := by
  split
  · next h => obtain ⟨rfl, rfl⟩ := h; simp
  · next h => simp [h]
@[simp] theorem strm_updSlot (e : Eng) (k : SlotNo) (f : Slot → Slot) (d : Eng) (j : StreamNo) :
    (s.updSlot e k f).strm d j = s.strm d j := by
  by_cases hq : d = e
  · subst hq; simp [State.updSlot, State.strm]
  · simp [State.updSlot, State.strm, hq]
@[simp] theorem named_updSlot (e : Eng) (k : SlotNo) (f : Slot → Slot) (d : Eng) (j : Nat) :
    (s.updSlot e k f).named d j = s.named d j := by
  by_cases hq : d = e
  · subst hq; simp [State.updSlot, State.named]
  · simp [State.updSlot, State.named, hq]
@[simp] theorem eng_updSlot_admitCount (e : Eng) (k : SlotNo) (f : Slot → Slot) (d : Eng) : ((s.updSlot e k f).eng d).admitCount = (s.eng d).admitCount := by
  by_cases hq : d = e
  · subst hq; simp [State.updSlot]
  · simp [State.updSlot, hq]
@[simp] theorem eng_updSlot_head (e : Eng) (k : SlotNo) (f : Slot → Slot) (d : Eng) : ((s.updSlot e k f).eng d).head = (s.eng d).head := by
  by_cases hq : d = e
  · subst hq; simp [State.updSlot]
  · simp [State.updSlot, hq]
@[simp] theorem eng_updSlot_streams (e : Eng) (k : SlotNo) (f : Slot → Slot) (d : Eng) : ((s.updSlot e k f).eng d).streams = (s.eng d).streams := by
  by_cases hq : d = e
  · subst hq; simp [State.updSlot]
  · simp [State.updSlot, hq]
@[simp] theorem eng_updSlot_named (e : Eng) (k : SlotNo) (f : Slot → Slot) (d : Eng) : ((s.updSlot e k f).eng d).named = (s.eng d).named := by
  by_cases hq : d = e
  · subst hq; simp [State.updSlot]
  · simp [State.updSlot, hq]
@[simp] theorem eng_updSlot_banks (e : Eng) (k : SlotNo) (f : Slot → Slot) (d : Eng) : ((s.updSlot e k f).eng d).banks = (s.eng d).banks := by
  by_cases hq : d = e
  · subst hq; simp [State.updSlot]
  · simp [State.updSlot, hq]
@[simp] theorem eng_updSlot_builder (e : Eng) (k : SlotNo) (f : Slot → Slot) (d : Eng) : ((s.updSlot e k f).eng d).builder = (s.eng d).builder := by
  by_cases hq : d = e
  · subst hq; simp [State.updSlot]
  · simp [State.updSlot, hq]
@[simp] theorem eng_updSlot_minLog2 (e : Eng) (k : SlotNo) (f : Slot → Slot) (d : Eng) : ((s.updSlot e k f).eng d).minLog2 = (s.eng d).minLog2 := by
  by_cases hq : d = e
  · subst hq; simp [State.updSlot]
  · simp [State.updSlot, hq]
@[simp] theorem eng_updSlot_maxLog2 (e : Eng) (k : SlotNo) (f : Slot → Slot) (d : Eng) : ((s.updSlot e k f).eng d).maxLog2 = (s.eng d).maxLog2 := by
  by_cases hq : d = e
  · subst hq; simp [State.updSlot]
  · simp [State.updSlot, hq]
@[simp] theorem eng_updSlot_cfgPending (e : Eng) (k : SlotNo) (f : Slot → Slot) (d : Eng) : ((s.updSlot e k f).eng d).cfgPending = (s.eng d).cfgPending := by
  by_cases hq : d = e
  · subst hq; simp [State.updSlot]
  · simp [State.updSlot, hq]
@[simp] theorem eng_updSlot_qlimit (e : Eng) (k : SlotNo) (f : Slot → Slot) (d : Eng) : ((s.updSlot e k f).eng d).qlimit = (s.eng d).qlimit := by
  by_cases hq : d = e
  · subst hq; simp [State.updSlot]
  · simp [State.updSlot, hq]
@[simp] theorem eng_updSlot_counts (e : Eng) (k : SlotNo) (f : Slot → Slot) (d : Eng) : ((s.updSlot e k f).eng d).counts = (s.eng d).counts := by
  by_cases hq : d = e
  · subst hq; simp [State.updSlot]
  · simp [State.updSlot, hq]
@[simp] theorem eng_updSlot_groups (e : Eng) (k : SlotNo) (f : Slot → Slot) (d : Eng) : ((s.updSlot e k f).eng d).groups = (s.eng d).groups := by
  by_cases hq : d = e
  · subst hq; simp [State.updSlot]
  · simp [State.updSlot, hq]
@[simp] theorem eng_updSlot_slack (e : Eng) (k : SlotNo) (f : Slot → Slot) (d : Eng) : ((s.updSlot e k f).eng d).slack = (s.eng d).slack := by
  by_cases hq : d = e
  · subst hq; simp [State.updSlot]
  · simp [State.updSlot, hq]

@[simp] theorem strm_updStrm_same (e : Eng) (i : StreamNo) (f : Strm → Strm) : (s.updStrm e i f).strm e i = f (s.strm e i) := by
  simp [State.updStrm, State.strm]
@[simp] theorem strm_updStrm_ne (e : Eng) (i : StreamNo) (f : Strm → Strm) {d : Eng} {j : StreamNo} (h : ¬(d = e ∧ j = i)) :
    (s.updStrm e i f).strm d j = s.strm d j := by
  by_cases hq : d = e
  · subst hq; simp [State.updStrm, State.strm, Fin.val_ne_of_ne (fun hj => h ⟨rfl, hj⟩)]
  · simp [State.updStrm, State.strm, hq]
theorem strm_updStrm (e : Eng) (i : StreamNo) (f : Strm → Strm) (d : Eng) (j : StreamNo) :
    (s.updStrm e i f).strm d j = if d = e ∧ j = i then f (s.strm e i) else s.strm d j := by
  split
  · next h => obtain ⟨rfl, rfl⟩ := h; simp
  · next h => simp [h]
@[simp] theorem slot_updStrm (e : Eng) (i : StreamNo) (f : Strm → Strm) (d : Eng) (j : SlotNo) :
    (s.updStrm e i f).slot d j = s.slot d j := by
  by_cases hq : d = e
  · subst hq; simp [State.updStrm, State.slot]
  · simp [State.updStrm, State.slot, hq]
@[simp] theorem named_updStrm (e : Eng) (i : StreamNo) (f : Strm → Strm) (d : Eng) (j : Nat) :
    (s.updStrm e i f).named d j = s.named d j := by
  by_cases hq : d = e
  · subst hq; simp [State.updStrm, State.named]
  · simp [State.updStrm, State.named, hq]
@[simp] theorem eng_updStrm_slots (e : Eng) (i : StreamNo) (f : Strm → Strm) (d : Eng) : ((s.updStrm e i f).eng d).slots = (s.eng d).slots := by
  by_cases hq : d = e
  · subst hq; simp [State.updStrm]
  · simp [State.updStrm, hq]
@[simp] theorem eng_updStrm_admitCount (e : Eng) (i : StreamNo) (f : Strm → Strm) (d : Eng) : ((s.updStrm e i f).eng d).admitCount = (s.eng d).admitCount := by
  by_cases hq : d = e
  · subst hq; simp [State.updStrm]
  · simp [State.updStrm, hq]
@[simp] theorem eng_updStrm_head (e : Eng) (i : StreamNo) (f : Strm → Strm) (d : Eng) : ((s.updStrm e i f).eng d).head = (s.eng d).head := by
  by_cases hq : d = e
  · subst hq; simp [State.updStrm]
  · simp [State.updStrm, hq]
@[simp] theorem eng_updStrm_named (e : Eng) (i : StreamNo) (f : Strm → Strm) (d : Eng) : ((s.updStrm e i f).eng d).named = (s.eng d).named := by
  by_cases hq : d = e
  · subst hq; simp [State.updStrm]
  · simp [State.updStrm, hq]
@[simp] theorem eng_updStrm_banks (e : Eng) (i : StreamNo) (f : Strm → Strm) (d : Eng) : ((s.updStrm e i f).eng d).banks = (s.eng d).banks := by
  by_cases hq : d = e
  · subst hq; simp [State.updStrm]
  · simp [State.updStrm, hq]
@[simp] theorem eng_updStrm_builder (e : Eng) (i : StreamNo) (f : Strm → Strm) (d : Eng) : ((s.updStrm e i f).eng d).builder = (s.eng d).builder := by
  by_cases hq : d = e
  · subst hq; simp [State.updStrm]
  · simp [State.updStrm, hq]
@[simp] theorem eng_updStrm_minLog2 (e : Eng) (i : StreamNo) (f : Strm → Strm) (d : Eng) : ((s.updStrm e i f).eng d).minLog2 = (s.eng d).minLog2 := by
  by_cases hq : d = e
  · subst hq; simp [State.updStrm]
  · simp [State.updStrm, hq]
@[simp] theorem eng_updStrm_maxLog2 (e : Eng) (i : StreamNo) (f : Strm → Strm) (d : Eng) : ((s.updStrm e i f).eng d).maxLog2 = (s.eng d).maxLog2 := by
  by_cases hq : d = e
  · subst hq; simp [State.updStrm]
  · simp [State.updStrm, hq]
@[simp] theorem eng_updStrm_cfgPending (e : Eng) (i : StreamNo) (f : Strm → Strm) (d : Eng) : ((s.updStrm e i f).eng d).cfgPending = (s.eng d).cfgPending := by
  by_cases hq : d = e
  · subst hq; simp [State.updStrm]
  · simp [State.updStrm, hq]
@[simp] theorem eng_updStrm_qlimit (e : Eng) (i : StreamNo) (f : Strm → Strm) (d : Eng) : ((s.updStrm e i f).eng d).qlimit = (s.eng d).qlimit := by
  by_cases hq : d = e
  · subst hq; simp [State.updStrm]
  · simp [State.updStrm, hq]
@[simp] theorem eng_updStrm_counts (e : Eng) (i : StreamNo) (f : Strm → Strm) (d : Eng) : ((s.updStrm e i f).eng d).counts = (s.eng d).counts := by
  by_cases hq : d = e
  · subst hq; simp [State.updStrm]
  · simp [State.updStrm, hq]
@[simp] theorem eng_updStrm_groups (e : Eng) (i : StreamNo) (f : Strm → Strm) (d : Eng) : ((s.updStrm e i f).eng d).groups = (s.eng d).groups := by
  by_cases hq : d = e
  · subst hq; simp [State.updStrm]
  · simp [State.updStrm, hq]
@[simp] theorem eng_updStrm_slack (e : Eng) (i : StreamNo) (f : Strm → Strm) (d : Eng) : ((s.updStrm e i f).eng d).slack = (s.eng d).slack := by
  by_cases hq : d = e
  · subst hq; simp [State.updStrm]
  · simp [State.updStrm, hq]

@[simp] theorem named_updNamed_same (e : Eng) (a : Nat) (f : Tile → Tile) : (s.updNamed e a f).named e a = f (s.named e a) := by
  simp [State.updNamed, State.named]
@[simp] theorem named_updNamed_ne (e : Eng) (a : Nat) (f : Tile → Tile) {d : Eng} {j : Nat} (h : ¬(d = e ∧ j = a)) :
    (s.updNamed e a f).named d j = s.named d j := by
  by_cases hq : d = e
  · subst hq; simp [State.updNamed, State.named, show j ≠ a from fun hj => h ⟨rfl, hj⟩]
  · simp [State.updNamed, State.named, hq]
theorem named_updNamed (e : Eng) (a : Nat) (f : Tile → Tile) (d : Eng) (j : Nat) :
    (s.updNamed e a f).named d j = if d = e ∧ j = a then f (s.named e a) else s.named d j := by
  split
  · next h => obtain ⟨rfl, rfl⟩ := h; simp
  · next h => simp [h]
@[simp] theorem slot_updNamed (e : Eng) (a : Nat) (f : Tile → Tile) (d : Eng) (j : SlotNo) :
    (s.updNamed e a f).slot d j = s.slot d j := by
  by_cases hq : d = e
  · subst hq; simp [State.updNamed, State.slot]
  · simp [State.updNamed, State.slot, hq]
@[simp] theorem strm_updNamed (e : Eng) (a : Nat) (f : Tile → Tile) (d : Eng) (j : StreamNo) :
    (s.updNamed e a f).strm d j = s.strm d j := by
  by_cases hq : d = e
  · subst hq; simp [State.updNamed, State.strm]
  · simp [State.updNamed, State.strm, hq]
@[simp] theorem eng_updNamed_slots (e : Eng) (a : Nat) (f : Tile → Tile) (d : Eng) : ((s.updNamed e a f).eng d).slots = (s.eng d).slots := by
  by_cases hq : d = e
  · subst hq; simp [State.updNamed]
  · simp [State.updNamed, hq]
@[simp] theorem eng_updNamed_admitCount (e : Eng) (a : Nat) (f : Tile → Tile) (d : Eng) : ((s.updNamed e a f).eng d).admitCount = (s.eng d).admitCount := by
  by_cases hq : d = e
  · subst hq; simp [State.updNamed]
  · simp [State.updNamed, hq]
@[simp] theorem eng_updNamed_head (e : Eng) (a : Nat) (f : Tile → Tile) (d : Eng) : ((s.updNamed e a f).eng d).head = (s.eng d).head := by
  by_cases hq : d = e
  · subst hq; simp [State.updNamed]
  · simp [State.updNamed, hq]
@[simp] theorem eng_updNamed_streams (e : Eng) (a : Nat) (f : Tile → Tile) (d : Eng) : ((s.updNamed e a f).eng d).streams = (s.eng d).streams := by
  by_cases hq : d = e
  · subst hq; simp [State.updNamed]
  · simp [State.updNamed, hq]
@[simp] theorem eng_updNamed_banks (e : Eng) (a : Nat) (f : Tile → Tile) (d : Eng) : ((s.updNamed e a f).eng d).banks = (s.eng d).banks := by
  by_cases hq : d = e
  · subst hq; simp [State.updNamed]
  · simp [State.updNamed, hq]
@[simp] theorem eng_updNamed_builder (e : Eng) (a : Nat) (f : Tile → Tile) (d : Eng) : ((s.updNamed e a f).eng d).builder = (s.eng d).builder := by
  by_cases hq : d = e
  · subst hq; simp [State.updNamed]
  · simp [State.updNamed, hq]
@[simp] theorem eng_updNamed_minLog2 (e : Eng) (a : Nat) (f : Tile → Tile) (d : Eng) : ((s.updNamed e a f).eng d).minLog2 = (s.eng d).minLog2 := by
  by_cases hq : d = e
  · subst hq; simp [State.updNamed]
  · simp [State.updNamed, hq]
@[simp] theorem eng_updNamed_maxLog2 (e : Eng) (a : Nat) (f : Tile → Tile) (d : Eng) : ((s.updNamed e a f).eng d).maxLog2 = (s.eng d).maxLog2 := by
  by_cases hq : d = e
  · subst hq; simp [State.updNamed]
  · simp [State.updNamed, hq]
@[simp] theorem eng_updNamed_cfgPending (e : Eng) (a : Nat) (f : Tile → Tile) (d : Eng) : ((s.updNamed e a f).eng d).cfgPending = (s.eng d).cfgPending := by
  by_cases hq : d = e
  · subst hq; simp [State.updNamed]
  · simp [State.updNamed, hq]
@[simp] theorem eng_updNamed_qlimit (e : Eng) (a : Nat) (f : Tile → Tile) (d : Eng) : ((s.updNamed e a f).eng d).qlimit = (s.eng d).qlimit := by
  by_cases hq : d = e
  · subst hq; simp [State.updNamed]
  · simp [State.updNamed, hq]
@[simp] theorem eng_updNamed_counts (e : Eng) (a : Nat) (f : Tile → Tile) (d : Eng) : ((s.updNamed e a f).eng d).counts = (s.eng d).counts := by
  by_cases hq : d = e
  · subst hq; simp [State.updNamed]
  · simp [State.updNamed, hq]
@[simp] theorem eng_updNamed_groups (e : Eng) (a : Nat) (f : Tile → Tile) (d : Eng) : ((s.updNamed e a f).eng d).groups = (s.eng d).groups := by
  by_cases hq : d = e
  · subst hq; simp [State.updNamed]
  · simp [State.updNamed, hq]
@[simp] theorem eng_updNamed_slack (e : Eng) (a : Nat) (f : Tile → Tile) (d : Eng) : ((s.updNamed e a f).eng d).slack = (s.eng d).slack := by
  by_cases hq : d = e
  · subst hq; simp [State.updNamed]
  · simp [State.updNamed, hq]

@[simp] theorem slot_bump (e : Eng) (off n : Nat) (d : Eng) (j : SlotNo) : (s.bump e off n).slot d j = s.slot d j := by
  by_cases hq : d = e
  · subst hq; simp [State.bump, State.slot, Engine.bump]
  · simp [State.bump, State.slot, hq]
@[simp] theorem strm_bump (e : Eng) (off n : Nat) (d : Eng) (j : StreamNo) : (s.bump e off n).strm d j = s.strm d j := by
  by_cases hq : d = e
  · subst hq; simp [State.bump, State.strm, Engine.bump]
  · simp [State.bump, State.strm, hq]
@[simp] theorem named_bump (e : Eng) (off n : Nat) (d : Eng) (j : Nat) : (s.bump e off n).named d j = s.named d j := by
  by_cases hq : d = e
  · subst hq; simp [State.bump, State.named, Engine.bump]
  · simp [State.bump, State.named, hq]
@[simp] theorem emit_out (o : Output) : (s.emit o).out = s.out ++ [o] := rfl

@[simp] theorem ctx_setPort (p : Port) (h : HostPort) (x : CtxNo) : (s.setPort p h).ctx x = s.ctx x := rfl
@[simp] theorem eng_setPort (p : Port) (h : HostPort) (x : Eng) : (s.setPort p h).eng x = s.eng x := rfl
@[simp] theorem slot_setPort (p : Port) (h : HostPort) (x : Eng) (y : SlotNo) : (s.setPort p h).slot x y = s.slot x y := rfl
@[simp] theorem strm_setPort (p : Port) (h : HostPort) (x : Eng) (y : StreamNo) : (s.setPort p h).strm x y = s.strm x y := rfl
@[simp] theorem named_setPort (p : Port) (h : HostPort) (x : Eng) (y : Nat) : (s.setPort p h).named x y = s.named x y := rfl
@[simp] theorem part_setPort (p : Port) (h : HostPort) (x : Part) : (s.setPort p h).part x = s.part x := rfl
@[simp] theorem link_setPort (p : Port) (h : HostPort) (x : PeerPort) : (s.setPort p h).link x = s.link x := rfl
@[simp] theorem stack_setPort (p : Port) (h : HostPort) (x : Stack) : (s.setPort p h).stack x = s.stack x := rfl
@[simp] theorem hostMem_setPort (p : Port) (h : HostPort) (x : Port) : (s.setPort p h).hostMem x = s.hostMem x := rfl
@[simp] theorem ctx_updPort (p : Port) (f : HostPort → HostPort) (x : CtxNo) : (s.updPort p f).ctx x = s.ctx x := rfl
@[simp] theorem eng_updPort (p : Port) (f : HostPort → HostPort) (x : Eng) : (s.updPort p f).eng x = s.eng x := rfl
@[simp] theorem slot_updPort (p : Port) (f : HostPort → HostPort) (x : Eng) (y : SlotNo) : (s.updPort p f).slot x y = s.slot x y := rfl
@[simp] theorem strm_updPort (p : Port) (f : HostPort → HostPort) (x : Eng) (y : StreamNo) : (s.updPort p f).strm x y = s.strm x y := rfl
@[simp] theorem named_updPort (p : Port) (f : HostPort → HostPort) (x : Eng) (y : Nat) : (s.updPort p f).named x y = s.named x y := rfl
@[simp] theorem part_updPort (p : Port) (f : HostPort → HostPort) (x : Part) : (s.updPort p f).part x = s.part x := rfl
@[simp] theorem link_updPort (p : Port) (f : HostPort → HostPort) (x : PeerPort) : (s.updPort p f).link x = s.link x := rfl
@[simp] theorem stack_updPort (p : Port) (f : HostPort → HostPort) (x : Stack) : (s.updPort p f).stack x = s.stack x := rfl
@[simp] theorem hostMem_updPort (p : Port) (f : HostPort → HostPort) (x : Port) : (s.updPort p f).hostMem x = s.hostMem x := rfl
@[simp] theorem ctx_updRing (p : Port) (r : RingNo) (f : Ring → Ring) (x : CtxNo) : (s.updRing p r f).ctx x = s.ctx x := rfl
@[simp] theorem eng_updRing (p : Port) (r : RingNo) (f : Ring → Ring) (x : Eng) : (s.updRing p r f).eng x = s.eng x := rfl
@[simp] theorem slot_updRing (p : Port) (r : RingNo) (f : Ring → Ring) (x : Eng) (y : SlotNo) : (s.updRing p r f).slot x y = s.slot x y := rfl
@[simp] theorem strm_updRing (p : Port) (r : RingNo) (f : Ring → Ring) (x : Eng) (y : StreamNo) : (s.updRing p r f).strm x y = s.strm x y := rfl
@[simp] theorem named_updRing (p : Port) (r : RingNo) (f : Ring → Ring) (x : Eng) (y : Nat) : (s.updRing p r f).named x y = s.named x y := rfl
@[simp] theorem part_updRing (p : Port) (r : RingNo) (f : Ring → Ring) (x : Part) : (s.updRing p r f).part x = s.part x := rfl
@[simp] theorem link_updRing (p : Port) (r : RingNo) (f : Ring → Ring) (x : PeerPort) : (s.updRing p r f).link x = s.link x := rfl
@[simp] theorem stack_updRing (p : Port) (r : RingNo) (f : Ring → Ring) (x : Stack) : (s.updRing p r f).stack x = s.stack x := rfl
@[simp] theorem hostMem_updRing (p : Port) (r : RingNo) (f : Ring → Ring) (x : Port) : (s.updRing p r f).hostMem x = s.hostMem x := rfl
@[simp] theorem ctx_updCq (p : Port) (c : CqNo) (f : Cq → Cq) (x : CtxNo) : (s.updCq p c f).ctx x = s.ctx x := rfl
@[simp] theorem eng_updCq (p : Port) (c : CqNo) (f : Cq → Cq) (x : Eng) : (s.updCq p c f).eng x = s.eng x := rfl
@[simp] theorem slot_updCq (p : Port) (c : CqNo) (f : Cq → Cq) (x : Eng) (y : SlotNo) : (s.updCq p c f).slot x y = s.slot x y := rfl
@[simp] theorem strm_updCq (p : Port) (c : CqNo) (f : Cq → Cq) (x : Eng) (y : StreamNo) : (s.updCq p c f).strm x y = s.strm x y := rfl
@[simp] theorem named_updCq (p : Port) (c : CqNo) (f : Cq → Cq) (x : Eng) (y : Nat) : (s.updCq p c f).named x y = s.named x y := rfl
@[simp] theorem part_updCq (p : Port) (c : CqNo) (f : Cq → Cq) (x : Part) : (s.updCq p c f).part x = s.part x := rfl
@[simp] theorem link_updCq (p : Port) (c : CqNo) (f : Cq → Cq) (x : PeerPort) : (s.updCq p c f).link x = s.link x := rfl
@[simp] theorem stack_updCq (p : Port) (c : CqNo) (f : Cq → Cq) (x : Stack) : (s.updCq p c f).stack x = s.stack x := rfl
@[simp] theorem hostMem_updCq (p : Port) (c : CqNo) (f : Cq → Cq) (x : Port) : (s.updCq p c f).hostMem x = s.hostMem x := rfl
@[simp] theorem ctx_updCmd (p : Port) (t : Tag) (f : Cmd → Cmd) (x : CtxNo) : (s.updCmd p t f).ctx x = s.ctx x := rfl
@[simp] theorem eng_updCmd (p : Port) (t : Tag) (f : Cmd → Cmd) (x : Eng) : (s.updCmd p t f).eng x = s.eng x := rfl
@[simp] theorem slot_updCmd (p : Port) (t : Tag) (f : Cmd → Cmd) (x : Eng) (y : SlotNo) : (s.updCmd p t f).slot x y = s.slot x y := rfl
@[simp] theorem strm_updCmd (p : Port) (t : Tag) (f : Cmd → Cmd) (x : Eng) (y : StreamNo) : (s.updCmd p t f).strm x y = s.strm x y := rfl
@[simp] theorem named_updCmd (p : Port) (t : Tag) (f : Cmd → Cmd) (x : Eng) (y : Nat) : (s.updCmd p t f).named x y = s.named x y := rfl
@[simp] theorem part_updCmd (p : Port) (t : Tag) (f : Cmd → Cmd) (x : Part) : (s.updCmd p t f).part x = s.part x := rfl
@[simp] theorem link_updCmd (p : Port) (t : Tag) (f : Cmd → Cmd) (x : PeerPort) : (s.updCmd p t f).link x = s.link x := rfl
@[simp] theorem stack_updCmd (p : Port) (t : Tag) (f : Cmd → Cmd) (x : Stack) : (s.updCmd p t f).stack x = s.stack x := rfl
@[simp] theorem hostMem_updCmd (p : Port) (t : Tag) (f : Cmd → Cmd) (x : Port) : (s.updCmd p t f).hostMem x = s.hostMem x := rfl
@[simp] theorem ctx_updArea (p : Port) (n : Fn) (f : Area → Area) (x : CtxNo) : (s.updArea p n f).ctx x = s.ctx x := rfl
@[simp] theorem eng_updArea (p : Port) (n : Fn) (f : Area → Area) (x : Eng) : (s.updArea p n f).eng x = s.eng x := rfl
@[simp] theorem slot_updArea (p : Port) (n : Fn) (f : Area → Area) (x : Eng) (y : SlotNo) : (s.updArea p n f).slot x y = s.slot x y := rfl
@[simp] theorem strm_updArea (p : Port) (n : Fn) (f : Area → Area) (x : Eng) (y : StreamNo) : (s.updArea p n f).strm x y = s.strm x y := rfl
@[simp] theorem named_updArea (p : Port) (n : Fn) (f : Area → Area) (x : Eng) (y : Nat) : (s.updArea p n f).named x y = s.named x y := rfl
@[simp] theorem part_updArea (p : Port) (n : Fn) (f : Area → Area) (x : Part) : (s.updArea p n f).part x = s.part x := rfl
@[simp] theorem link_updArea (p : Port) (n : Fn) (f : Area → Area) (x : PeerPort) : (s.updArea p n f).link x = s.link x := rfl
@[simp] theorem stack_updArea (p : Port) (n : Fn) (f : Area → Area) (x : Stack) : (s.updArea p n f).stack x = s.stack x := rfl
@[simp] theorem hostMem_updArea (p : Port) (n : Fn) (f : Area → Area) (x : Port) : (s.updArea p n f).hostMem x = s.hostMem x := rfl
@[simp] theorem port_updCtx (c : CtxNo) (f : Ctx → Ctx) (x : Port) : (s.updCtx c f).port x = s.port x := rfl
@[simp] theorem ring_updCtx (c : CtxNo) (f : Ctx → Ctx) (x : Port) (y : RingNo) : (s.updCtx c f).ring x y = s.ring x y := rfl
@[simp] theorem cq_updCtx (c : CtxNo) (f : Ctx → Ctx) (x : Port) (y : CqNo) : (s.updCtx c f).cq x y = s.cq x y := rfl
@[simp] theorem cmd_updCtx (c : CtxNo) (f : Ctx → Ctx) (x : Port) (y : Tag) : (s.updCtx c f).cmd x y = s.cmd x y := rfl
@[simp] theorem area_updCtx (c : CtxNo) (f : Ctx → Ctx) (x : Port) (y : Fn) : (s.updCtx c f).area x y = s.area x y := rfl
@[simp] theorem eng_updCtx (c : CtxNo) (f : Ctx → Ctx) (x : Eng) : (s.updCtx c f).eng x = s.eng x := rfl
@[simp] theorem slot_updCtx (c : CtxNo) (f : Ctx → Ctx) (x : Eng) (y : SlotNo) : (s.updCtx c f).slot x y = s.slot x y := rfl
@[simp] theorem strm_updCtx (c : CtxNo) (f : Ctx → Ctx) (x : Eng) (y : StreamNo) : (s.updCtx c f).strm x y = s.strm x y := rfl
@[simp] theorem named_updCtx (c : CtxNo) (f : Ctx → Ctx) (x : Eng) (y : Nat) : (s.updCtx c f).named x y = s.named x y := rfl
@[simp] theorem part_updCtx (c : CtxNo) (f : Ctx → Ctx) (x : Part) : (s.updCtx c f).part x = s.part x := rfl
@[simp] theorem link_updCtx (c : CtxNo) (f : Ctx → Ctx) (x : PeerPort) : (s.updCtx c f).link x = s.link x := rfl
@[simp] theorem stack_updCtx (c : CtxNo) (f : Ctx → Ctx) (x : Stack) : (s.updCtx c f).stack x = s.stack x := rfl
@[simp] theorem hostMem_updCtx (c : CtxNo) (f : Ctx → Ctx) (x : Port) : (s.updCtx c f).hostMem x = s.hostMem x := rfl
@[simp] theorem port_updEng (e : Eng) (f : Engine → Engine) (x : Port) : (s.updEng e f).port x = s.port x := rfl
@[simp] theorem ring_updEng (e : Eng) (f : Engine → Engine) (x : Port) (y : RingNo) : (s.updEng e f).ring x y = s.ring x y := rfl
@[simp] theorem cq_updEng (e : Eng) (f : Engine → Engine) (x : Port) (y : CqNo) : (s.updEng e f).cq x y = s.cq x y := rfl
@[simp] theorem cmd_updEng (e : Eng) (f : Engine → Engine) (x : Port) (y : Tag) : (s.updEng e f).cmd x y = s.cmd x y := rfl
@[simp] theorem area_updEng (e : Eng) (f : Engine → Engine) (x : Port) (y : Fn) : (s.updEng e f).area x y = s.area x y := rfl
@[simp] theorem ctx_updEng (e : Eng) (f : Engine → Engine) (x : CtxNo) : (s.updEng e f).ctx x = s.ctx x := rfl
@[simp] theorem part_updEng (e : Eng) (f : Engine → Engine) (x : Part) : (s.updEng e f).part x = s.part x := rfl
@[simp] theorem link_updEng (e : Eng) (f : Engine → Engine) (x : PeerPort) : (s.updEng e f).link x = s.link x := rfl
@[simp] theorem stack_updEng (e : Eng) (f : Engine → Engine) (x : Stack) : (s.updEng e f).stack x = s.stack x := rfl
@[simp] theorem hostMem_updEng (e : Eng) (f : Engine → Engine) (x : Port) : (s.updEng e f).hostMem x = s.hostMem x := rfl
@[simp] theorem port_updSlot (e : Eng) (k : SlotNo) (f : Slot → Slot) (x : Port) : (s.updSlot e k f).port x = s.port x := rfl
@[simp] theorem ring_updSlot (e : Eng) (k : SlotNo) (f : Slot → Slot) (x : Port) (y : RingNo) : (s.updSlot e k f).ring x y = s.ring x y := rfl
@[simp] theorem cq_updSlot (e : Eng) (k : SlotNo) (f : Slot → Slot) (x : Port) (y : CqNo) : (s.updSlot e k f).cq x y = s.cq x y := rfl
@[simp] theorem cmd_updSlot (e : Eng) (k : SlotNo) (f : Slot → Slot) (x : Port) (y : Tag) : (s.updSlot e k f).cmd x y = s.cmd x y := rfl
@[simp] theorem area_updSlot (e : Eng) (k : SlotNo) (f : Slot → Slot) (x : Port) (y : Fn) : (s.updSlot e k f).area x y = s.area x y := rfl
@[simp] theorem ctx_updSlot (e : Eng) (k : SlotNo) (f : Slot → Slot) (x : CtxNo) : (s.updSlot e k f).ctx x = s.ctx x := rfl
@[simp] theorem part_updSlot (e : Eng) (k : SlotNo) (f : Slot → Slot) (x : Part) : (s.updSlot e k f).part x = s.part x := rfl
@[simp] theorem link_updSlot (e : Eng) (k : SlotNo) (f : Slot → Slot) (x : PeerPort) : (s.updSlot e k f).link x = s.link x := rfl
@[simp] theorem stack_updSlot (e : Eng) (k : SlotNo) (f : Slot → Slot) (x : Stack) : (s.updSlot e k f).stack x = s.stack x := rfl
@[simp] theorem hostMem_updSlot (e : Eng) (k : SlotNo) (f : Slot → Slot) (x : Port) : (s.updSlot e k f).hostMem x = s.hostMem x := rfl
@[simp] theorem port_updStrm (e : Eng) (i : StreamNo) (f : Strm → Strm) (x : Port) : (s.updStrm e i f).port x = s.port x := rfl
@[simp] theorem ring_updStrm (e : Eng) (i : StreamNo) (f : Strm → Strm) (x : Port) (y : RingNo) : (s.updStrm e i f).ring x y = s.ring x y := rfl
@[simp] theorem cq_updStrm (e : Eng) (i : StreamNo) (f : Strm → Strm) (x : Port) (y : CqNo) : (s.updStrm e i f).cq x y = s.cq x y := rfl
@[simp] theorem cmd_updStrm (e : Eng) (i : StreamNo) (f : Strm → Strm) (x : Port) (y : Tag) : (s.updStrm e i f).cmd x y = s.cmd x y := rfl
@[simp] theorem area_updStrm (e : Eng) (i : StreamNo) (f : Strm → Strm) (x : Port) (y : Fn) : (s.updStrm e i f).area x y = s.area x y := rfl
@[simp] theorem ctx_updStrm (e : Eng) (i : StreamNo) (f : Strm → Strm) (x : CtxNo) : (s.updStrm e i f).ctx x = s.ctx x := rfl
@[simp] theorem part_updStrm (e : Eng) (i : StreamNo) (f : Strm → Strm) (x : Part) : (s.updStrm e i f).part x = s.part x := rfl
@[simp] theorem link_updStrm (e : Eng) (i : StreamNo) (f : Strm → Strm) (x : PeerPort) : (s.updStrm e i f).link x = s.link x := rfl
@[simp] theorem stack_updStrm (e : Eng) (i : StreamNo) (f : Strm → Strm) (x : Stack) : (s.updStrm e i f).stack x = s.stack x := rfl
@[simp] theorem hostMem_updStrm (e : Eng) (i : StreamNo) (f : Strm → Strm) (x : Port) : (s.updStrm e i f).hostMem x = s.hostMem x := rfl
@[simp] theorem port_updNamed (e : Eng) (a : Nat) (f : Tile → Tile) (x : Port) : (s.updNamed e a f).port x = s.port x := rfl
@[simp] theorem ring_updNamed (e : Eng) (a : Nat) (f : Tile → Tile) (x : Port) (y : RingNo) : (s.updNamed e a f).ring x y = s.ring x y := rfl
@[simp] theorem cq_updNamed (e : Eng) (a : Nat) (f : Tile → Tile) (x : Port) (y : CqNo) : (s.updNamed e a f).cq x y = s.cq x y := rfl
@[simp] theorem cmd_updNamed (e : Eng) (a : Nat) (f : Tile → Tile) (x : Port) (y : Tag) : (s.updNamed e a f).cmd x y = s.cmd x y := rfl
@[simp] theorem area_updNamed (e : Eng) (a : Nat) (f : Tile → Tile) (x : Port) (y : Fn) : (s.updNamed e a f).area x y = s.area x y := rfl
@[simp] theorem ctx_updNamed (e : Eng) (a : Nat) (f : Tile → Tile) (x : CtxNo) : (s.updNamed e a f).ctx x = s.ctx x := rfl
@[simp] theorem part_updNamed (e : Eng) (a : Nat) (f : Tile → Tile) (x : Part) : (s.updNamed e a f).part x = s.part x := rfl
@[simp] theorem link_updNamed (e : Eng) (a : Nat) (f : Tile → Tile) (x : PeerPort) : (s.updNamed e a f).link x = s.link x := rfl
@[simp] theorem stack_updNamed (e : Eng) (a : Nat) (f : Tile → Tile) (x : Stack) : (s.updNamed e a f).stack x = s.stack x := rfl
@[simp] theorem hostMem_updNamed (e : Eng) (a : Nat) (f : Tile → Tile) (x : Port) : (s.updNamed e a f).hostMem x = s.hostMem x := rfl
@[simp] theorem port_bump (e : Eng) (off n : Nat) (x : Port) : (s.bump e off n).port x = s.port x := rfl
@[simp] theorem ring_bump (e : Eng) (off n : Nat) (x : Port) (y : RingNo) : (s.bump e off n).ring x y = s.ring x y := rfl
@[simp] theorem cq_bump (e : Eng) (off n : Nat) (x : Port) (y : CqNo) : (s.bump e off n).cq x y = s.cq x y := rfl
@[simp] theorem cmd_bump (e : Eng) (off n : Nat) (x : Port) (y : Tag) : (s.bump e off n).cmd x y = s.cmd x y := rfl
@[simp] theorem area_bump (e : Eng) (off n : Nat) (x : Port) (y : Fn) : (s.bump e off n).area x y = s.area x y := rfl
@[simp] theorem ctx_bump (e : Eng) (off n : Nat) (x : CtxNo) : (s.bump e off n).ctx x = s.ctx x := rfl
@[simp] theorem part_bump (e : Eng) (off n : Nat) (x : Part) : (s.bump e off n).part x = s.part x := rfl
@[simp] theorem link_bump (e : Eng) (off n : Nat) (x : PeerPort) : (s.bump e off n).link x = s.link x := rfl
@[simp] theorem stack_bump (e : Eng) (off n : Nat) (x : Stack) : (s.bump e off n).stack x = s.stack x := rfl
@[simp] theorem hostMem_bump (e : Eng) (off n : Nat) (x : Port) : (s.bump e off n).hostMem x = s.hostMem x := rfl
@[simp] theorem port_updPart (q : Part) (f : Partition → Partition) (x : Port) : (s.updPart q f).port x = s.port x := rfl
@[simp] theorem ring_updPart (q : Part) (f : Partition → Partition) (x : Port) (y : RingNo) : (s.updPart q f).ring x y = s.ring x y := rfl
@[simp] theorem cq_updPart (q : Part) (f : Partition → Partition) (x : Port) (y : CqNo) : (s.updPart q f).cq x y = s.cq x y := rfl
@[simp] theorem cmd_updPart (q : Part) (f : Partition → Partition) (x : Port) (y : Tag) : (s.updPart q f).cmd x y = s.cmd x y := rfl
@[simp] theorem area_updPart (q : Part) (f : Partition → Partition) (x : Port) (y : Fn) : (s.updPart q f).area x y = s.area x y := rfl
@[simp] theorem ctx_updPart (q : Part) (f : Partition → Partition) (x : CtxNo) : (s.updPart q f).ctx x = s.ctx x := rfl
@[simp] theorem eng_updPart (q : Part) (f : Partition → Partition) (x : Eng) : (s.updPart q f).eng x = s.eng x := rfl
@[simp] theorem slot_updPart (q : Part) (f : Partition → Partition) (x : Eng) (y : SlotNo) : (s.updPart q f).slot x y = s.slot x y := rfl
@[simp] theorem strm_updPart (q : Part) (f : Partition → Partition) (x : Eng) (y : StreamNo) : (s.updPart q f).strm x y = s.strm x y := rfl
@[simp] theorem named_updPart (q : Part) (f : Partition → Partition) (x : Eng) (y : Nat) : (s.updPart q f).named x y = s.named x y := rfl
@[simp] theorem link_updPart (q : Part) (f : Partition → Partition) (x : PeerPort) : (s.updPart q f).link x = s.link x := rfl
@[simp] theorem stack_updPart (q : Part) (f : Partition → Partition) (x : Stack) : (s.updPart q f).stack x = s.stack x := rfl
@[simp] theorem hostMem_updPart (q : Part) (f : Partition → Partition) (x : Port) : (s.updPart q f).hostMem x = s.hostMem x := rfl
@[simp] theorem port_updLink (i : PeerPort) (f : PeerLink → PeerLink) (x : Port) : (s.updLink i f).port x = s.port x := rfl
@[simp] theorem ring_updLink (i : PeerPort) (f : PeerLink → PeerLink) (x : Port) (y : RingNo) : (s.updLink i f).ring x y = s.ring x y := rfl
@[simp] theorem cq_updLink (i : PeerPort) (f : PeerLink → PeerLink) (x : Port) (y : CqNo) : (s.updLink i f).cq x y = s.cq x y := rfl
@[simp] theorem cmd_updLink (i : PeerPort) (f : PeerLink → PeerLink) (x : Port) (y : Tag) : (s.updLink i f).cmd x y = s.cmd x y := rfl
@[simp] theorem area_updLink (i : PeerPort) (f : PeerLink → PeerLink) (x : Port) (y : Fn) : (s.updLink i f).area x y = s.area x y := rfl
@[simp] theorem ctx_updLink (i : PeerPort) (f : PeerLink → PeerLink) (x : CtxNo) : (s.updLink i f).ctx x = s.ctx x := rfl
@[simp] theorem eng_updLink (i : PeerPort) (f : PeerLink → PeerLink) (x : Eng) : (s.updLink i f).eng x = s.eng x := rfl
@[simp] theorem slot_updLink (i : PeerPort) (f : PeerLink → PeerLink) (x : Eng) (y : SlotNo) : (s.updLink i f).slot x y = s.slot x y := rfl
@[simp] theorem strm_updLink (i : PeerPort) (f : PeerLink → PeerLink) (x : Eng) (y : StreamNo) : (s.updLink i f).strm x y = s.strm x y := rfl
@[simp] theorem named_updLink (i : PeerPort) (f : PeerLink → PeerLink) (x : Eng) (y : Nat) : (s.updLink i f).named x y = s.named x y := rfl
@[simp] theorem part_updLink (i : PeerPort) (f : PeerLink → PeerLink) (x : Part) : (s.updLink i f).part x = s.part x := rfl
@[simp] theorem stack_updLink (i : PeerPort) (f : PeerLink → PeerLink) (x : Stack) : (s.updLink i f).stack x = s.stack x := rfl
@[simp] theorem hostMem_updLink (i : PeerPort) (f : PeerLink → PeerLink) (x : Port) : (s.updLink i f).hostMem x = s.hostMem x := rfl
@[simp] theorem port_updStack (m : Stack) (f : StackMem → StackMem) (x : Port) : (s.updStack m f).port x = s.port x := rfl
@[simp] theorem ring_updStack (m : Stack) (f : StackMem → StackMem) (x : Port) (y : RingNo) : (s.updStack m f).ring x y = s.ring x y := rfl
@[simp] theorem cq_updStack (m : Stack) (f : StackMem → StackMem) (x : Port) (y : CqNo) : (s.updStack m f).cq x y = s.cq x y := rfl
@[simp] theorem cmd_updStack (m : Stack) (f : StackMem → StackMem) (x : Port) (y : Tag) : (s.updStack m f).cmd x y = s.cmd x y := rfl
@[simp] theorem area_updStack (m : Stack) (f : StackMem → StackMem) (x : Port) (y : Fn) : (s.updStack m f).area x y = s.area x y := rfl
@[simp] theorem ctx_updStack (m : Stack) (f : StackMem → StackMem) (x : CtxNo) : (s.updStack m f).ctx x = s.ctx x := rfl
@[simp] theorem eng_updStack (m : Stack) (f : StackMem → StackMem) (x : Eng) : (s.updStack m f).eng x = s.eng x := rfl
@[simp] theorem slot_updStack (m : Stack) (f : StackMem → StackMem) (x : Eng) (y : SlotNo) : (s.updStack m f).slot x y = s.slot x y := rfl
@[simp] theorem strm_updStack (m : Stack) (f : StackMem → StackMem) (x : Eng) (y : StreamNo) : (s.updStack m f).strm x y = s.strm x y := rfl
@[simp] theorem named_updStack (m : Stack) (f : StackMem → StackMem) (x : Eng) (y : Nat) : (s.updStack m f).named x y = s.named x y := rfl
@[simp] theorem part_updStack (m : Stack) (f : StackMem → StackMem) (x : Part) : (s.updStack m f).part x = s.part x := rfl
@[simp] theorem link_updStack (m : Stack) (f : StackMem → StackMem) (x : PeerPort) : (s.updStack m f).link x = s.link x := rfl
@[simp] theorem port_hostWrite (p : Port) (a : Nat) (bs : List Byte) (x : Port) : (s.hostWrite p a bs).port x = s.port x := rfl
@[simp] theorem ring_hostWrite (p : Port) (a : Nat) (bs : List Byte) (x : Port) (y : RingNo) : (s.hostWrite p a bs).ring x y = s.ring x y := rfl
@[simp] theorem cq_hostWrite (p : Port) (a : Nat) (bs : List Byte) (x : Port) (y : CqNo) : (s.hostWrite p a bs).cq x y = s.cq x y := rfl
@[simp] theorem cmd_hostWrite (p : Port) (a : Nat) (bs : List Byte) (x : Port) (y : Tag) : (s.hostWrite p a bs).cmd x y = s.cmd x y := rfl
@[simp] theorem area_hostWrite (p : Port) (a : Nat) (bs : List Byte) (x : Port) (y : Fn) : (s.hostWrite p a bs).area x y = s.area x y := rfl
@[simp] theorem ctx_hostWrite (p : Port) (a : Nat) (bs : List Byte) (x : CtxNo) : (s.hostWrite p a bs).ctx x = s.ctx x := rfl
@[simp] theorem eng_hostWrite (p : Port) (a : Nat) (bs : List Byte) (x : Eng) : (s.hostWrite p a bs).eng x = s.eng x := rfl
@[simp] theorem slot_hostWrite (p : Port) (a : Nat) (bs : List Byte) (x : Eng) (y : SlotNo) : (s.hostWrite p a bs).slot x y = s.slot x y := rfl
@[simp] theorem strm_hostWrite (p : Port) (a : Nat) (bs : List Byte) (x : Eng) (y : StreamNo) : (s.hostWrite p a bs).strm x y = s.strm x y := rfl
@[simp] theorem named_hostWrite (p : Port) (a : Nat) (bs : List Byte) (x : Eng) (y : Nat) : (s.hostWrite p a bs).named x y = s.named x y := rfl
@[simp] theorem part_hostWrite (p : Port) (a : Nat) (bs : List Byte) (x : Part) : (s.hostWrite p a bs).part x = s.part x := rfl
@[simp] theorem link_hostWrite (p : Port) (a : Nat) (bs : List Byte) (x : PeerPort) : (s.hostWrite p a bs).link x = s.link x := rfl
@[simp] theorem port_emit (o : Output) (x : Port) : (s.emit o).port x = s.port x := rfl
@[simp] theorem ring_emit (o : Output) (x : Port) (y : RingNo) : (s.emit o).ring x y = s.ring x y := rfl
@[simp] theorem cq_emit (o : Output) (x : Port) (y : CqNo) : (s.emit o).cq x y = s.cq x y := rfl
@[simp] theorem cmd_emit (o : Output) (x : Port) (y : Tag) : (s.emit o).cmd x y = s.cmd x y := rfl
@[simp] theorem area_emit (o : Output) (x : Port) (y : Fn) : (s.emit o).area x y = s.area x y := rfl
@[simp] theorem ctx_emit (o : Output) (x : CtxNo) : (s.emit o).ctx x = s.ctx x := rfl
@[simp] theorem eng_emit (o : Output) (x : Eng) : (s.emit o).eng x = s.eng x := rfl
@[simp] theorem slot_emit (o : Output) (x : Eng) (y : SlotNo) : (s.emit o).slot x y = s.slot x y := rfl
@[simp] theorem strm_emit (o : Output) (x : Eng) (y : StreamNo) : (s.emit o).strm x y = s.strm x y := rfl
@[simp] theorem named_emit (o : Output) (x : Eng) (y : Nat) : (s.emit o).named x y = s.named x y := rfl
@[simp] theorem part_emit (o : Output) (x : Part) : (s.emit o).part x = s.part x := rfl
@[simp] theorem link_emit (o : Output) (x : PeerPort) : (s.emit o).link x = s.link x := rfl
@[simp] theorem stack_emit (o : Output) (x : Stack) : (s.emit o).stack x = s.stack x := rfl
@[simp] theorem hostMem_emit (o : Output) (x : Port) : (s.emit o).hostMem x = s.hostMem x := rfl

/-! ### Two changes of one part -/

theorem updPort_updPort (p : Port) (f g : HostPort → HostPort) : (s.updPort p f).updPort p g = s.updPort p fun h => g (f h) := by
  simp [State.updPort, State.setPort, State.port]
theorem updCmd_updCmd (p : Port) (t : Tag) (f g : Cmd → Cmd) : (s.updCmd p t f).updCmd p t g = s.updCmd p t fun c => g (f c) := by
  simp [State.updCmd, State.updPort_updPort]
theorem updRing_updRing (p : Port) (r : RingNo) (f g : Ring → Ring) :
    (s.updRing p r f).updRing p r g = s.updRing p r fun x => g (f x) := by
  simp [State.updRing, State.updPort_updPort]
theorem updCq_updCq (p : Port) (c : CqNo) (f g : Cq → Cq) : (s.updCq p c f).updCq p c g = s.updCq p c fun x => g (f x) := by
  simp [State.updCq, State.updPort_updPort]
theorem updArea_updArea (p : Port) (n : Fn) (f g : Area → Area) :
    (s.updArea p n f).updArea p n g = s.updArea p n fun x => g (f x) := by
  simp [State.updArea, State.updPort_updPort]
theorem updCtx_updCtx (c : CtxNo) (f g : Ctx → Ctx) : (s.updCtx c f).updCtx c g = s.updCtx c fun x => g (f x) := by
  simp [State.updCtx]
theorem updEng_updEng (e : Eng) (f g : Engine → Engine) : (s.updEng e f).updEng e g = s.updEng e fun x => g (f x) := by
  simp [State.updEng]
theorem updSlot_updSlot (e : Eng) (k : SlotNo) (f g : Slot → Slot) :
    (s.updSlot e k f).updSlot e k g = s.updSlot e k fun x => g (f x) := by
  simp [State.updSlot, State.updEng_updEng]
theorem updPart_updPart (q : Part) (f g : Partition → Partition) : (s.updPart q f).updPart q g = s.updPart q fun x => g (f x) := by
  simp [State.updPart]
theorem updLink_updLink (i : PeerPort) (f g : PeerLink → PeerLink) : (s.updLink i f).updLink i g = s.updLink i fun x => g (f x) := by
  simp [State.updLink]

/-- A change of a command depends only on what it makes of that command. -/
theorem updCmd_congr (p : Port) (t : Tag) {f g : Cmd → Cmd} (h : f (s.cmd p t) = g (s.cmd p t)) : s.updCmd p t f = s.updCmd p t g := by
  unfold State.cmd at h
  simp only [State.updCmd, State.updPort, Tab.upd, h]
theorem updRing_congr (p : Port) (r : RingNo) {f g : Ring → Ring} (h : f (s.ring p r) = g (s.ring p r)) :
    s.updRing p r f = s.updRing p r g := by
  unfold State.ring at h
  simp only [State.updRing, State.updPort, Tab.upd, h]

@[simp] theorem port_setPort_same (p : Port) (h : HostPort) : (s.setPort p h).port p = h := by
  simp [State.setPort, State.port]
@[simp] theorem hostMem_updStack (m : Stack) (f : StackMem → StackMem) (p : Port) : (s.updStack m f).hostMem p = s.hostMem p := rfl
@[simp] theorem stack_hostWrite (p : Port) (a : Nat) (bs : List Byte) (m : Stack) : (s.hostWrite p a bs).stack m = s.stack m := rfl

end State

end Sys2Proof.Machine
end

