-- ==== Sys2Proof/Laws/Memory.lean ====
section
/-!
SUPPORT. Laws of memory: what a store leaves readable where, and that every store keeps the canonical form.
-/

namespace Sys2Proof.Machine

/-! ### One byte -/

theorem Memory.wfFrom_mono {lo hi : Nat} (h : hi ≤ lo) {m : List Host.Cell} (w : Memory.wfFrom lo m = true) :
    Memory.wfFrom hi m = true := by
  cases m with
  | nil => rfl
  | cons x m =>
    obtain ⟨k, v⟩ := x
    simp only [Memory.wfFrom, Bool.and_eq_true, decide_eq_true_eq] at w ⊢
    exact ⟨⟨by omega, w.1.2⟩, w.2⟩

/-- Below the first listed address memory reads blank. -/
theorem Memory.get_below {lo a : Nat} {m : List Host.Cell} (w : Memory.wfFrom lo m = true) (h : a < lo) :
    Memory.get m a = Memory.blank := by
  cases m with
  | nil => rfl
  | cons x m =>
    obtain ⟨k, v⟩ := x
    simp only [Memory.wfFrom, Bool.and_eq_true, decide_eq_true_eq] at w
    have : a < k := by omega
    simp [Memory.get, Nat.ne_of_lt this, this]

theorem Memory.put_wfFrom {lo a : Nat} {m : List Host.Cell} (b : Byte) (w : Memory.wfFrom lo m = true) (h : lo ≤ a) :
    Memory.wfFrom lo (Memory.put m a b) = true := by
  induction m generalizing lo with
  | nil => simp only [Memory.put]; split <;> simp_all [Memory.wfFrom]
  | cons x m ih =>
    obtain ⟨k, v⟩ := x
    simp only [Memory.wfFrom, Bool.and_eq_true, decide_eq_true_eq] at w
    obtain ⟨⟨w1, w2⟩, w3⟩ := w
    simp only [Memory.put]
    split
    · rename_i e; subst e
      split
      · exact Memory.wfFrom_mono (by omega) w3
      · rename_i hb; simp [Memory.wfFrom, hb, w3, h]
    · split
      · rename_i e1 e2
        split
        · simp only [Memory.wfFrom, Bool.and_eq_true, decide_eq_true_eq]; exact ⟨⟨w1, w2⟩, w3⟩
        · rename_i hb
          simp only [Memory.wfFrom, Bool.and_eq_true, decide_eq_true_eq]
          exact ⟨⟨h, by simp [hb]⟩, ⟨⟨by omega, w2⟩, w3⟩⟩
      · simp only [Memory.wfFrom, Bool.and_eq_true, decide_eq_true_eq]
        exact ⟨⟨w1, w2⟩, ih w3 (by omega)⟩

/-- A store keeps the canonical form. -/
theorem Memory.put_wf {m : List Host.Cell} (a : Nat) (b : Byte) (w : Memory.wf m = true) :
    Memory.wf (Memory.put m a b) = true := Memory.put_wfFrom b w (Nat.zero_le a)

theorem Memory.get_put_from {lo : Nat} {m : List Host.Cell} (w : Memory.wfFrom lo m = true) (a c : Nat) (b : Byte) :
    Memory.get (Memory.put m a b) c = if c = a then b else Memory.get m c := by
  induction m generalizing lo with
  | nil =>
    simp only [Memory.put]
    by_cases hb : b = Memory.blank <;> by_cases hc : c = a <;> simp [hb, hc, Memory.get]
  | cons x m ih =>
    obtain ⟨k, v⟩ := x
    simp only [Memory.wfFrom, Bool.and_eq_true, decide_eq_true_eq] at w
    obtain ⟨⟨w1, w2⟩, w3⟩ := w
    simp only [Memory.put]
    by_cases hk : a = k
    · subst hk
      simp only [if_true]
      by_cases hb : b = Memory.blank
      · simp only [if_pos hb]
        by_cases hc : c = a
        · subst hc; simp [hb, Memory.get_below w3 (Nat.lt_succ_self c)]
        · simp only [Memory.get, if_neg hc]
          split
          · rw [Memory.get_below w3 (by omega)]
          · rfl
      · simp only [if_neg hb, Memory.get]
        by_cases hc : c = a <;> simp [hc]
    · simp only [if_neg hk]
      by_cases hl : a < k
      · simp only [if_pos hl]
        by_cases hb : b = Memory.blank
        · simp only [if_pos hb]
          by_cases hc : c = a
          · subst hc; simp [hb, Memory.get, hk, hl]
          · simp [hc]
        · simp only [if_neg hb, Memory.get]
          by_cases hc : c = a
          · simp [hc]
          · simp only [if_neg hc]
            split
            · rw [if_neg (by omega), if_pos (by omega)]
            · rfl
      · simp only [if_neg hl, Memory.get, ih w3]
        by_cases hc : c = a
        · subst hc; simp [hk, hl]
        · simp [hc]

/-- What a store leaves readable: the byte stored at its address, every other byte as it was. -/
theorem Memory.get_put {m : List Host.Cell} (w : Memory.wf m = true) (a c : Nat) (b : Byte) :
    Memory.get (Memory.put m a b) c = if c = a then b else Memory.get m c := Memory.get_put_from w a c b

/-! ### Several bytes -/

/-- Storing bytes keeps the canonical form. -/
theorem Memory.write_wf {m : List Host.Cell} (a : Nat) (bs : List Byte) (w : Memory.wf m = true) :
    Memory.wf (Memory.write m a bs) = true := by
  induction bs generalizing m a with
  | nil => exact w
  | cons b bs ih => exact ih (a + 1) (Memory.put_wf a b w)

/-- Storing bytes leaves every byte outside their range as it was. -/
theorem Memory.get_write_outside {m : List Host.Cell} (w : Memory.wf m = true) (a c : Nat) (bs : List Byte)
    (h : c < a ∨ a + bs.length ≤ c) : Memory.get (Memory.write m a bs) c = Memory.get m c := by
  induction bs generalizing m a with
  | nil => rfl
  | cons b bs ih =>
    simp only [List.length_cons] at h
    simp only [Memory.write]
    rw [ih (Memory.put_wf a b w) (a + 1) (by omega), Memory.get_put w]
    simp; omega

/-- Bytes stored read back. -/
theorem Memory.read_write {m : List Host.Cell} (w : Memory.wf m = true) (a : Nat) (bs : List Byte) :
    Memory.read (Memory.write m a bs) a bs.length = bs := by
  induction bs generalizing m a with
  | nil => rfl
  | cons b bs ih =>
    simp only [List.length_cons, Memory.read, Memory.write]
    rw [ih (Memory.put_wf a b w), Memory.get_write_outside (Memory.put_wf a b w) (a + 1) a bs (by omega),
      Memory.get_put w]
    simp

/-- A read of bytes outside a stored range is as it was. -/
theorem Memory.read_write_outside {m : List Host.Cell} (w : Memory.wf m = true) (a c n : Nat) (bs : List Byte)
    (h : c + n ≤ a ∨ a + bs.length ≤ c) : Memory.read (Memory.write m a bs) c n = Memory.read m c n := by
  induction n generalizing c with
  | zero => rfl
  | succ n ih =>
    simp only [Memory.read]
    rw [Memory.get_write_outside w a c bs (by omega), ih (c + 1) (by omega)]

theorem Memory.read_length (m : List Host.Cell) (a n : Nat) : (Memory.read m a n).length = n := by
  induction n generalizing a with
  | zero => rfl
  | succ n ih => simp [Memory.read, ih]

/-! ### The memories of the state -/

@[simp] theorem State.hostMem_hostWrite_same (s : State) (p : Port) (a : Nat) (bs : List Byte) :
    (s.hostWrite p a bs).hostMem p = Memory.write (s.hostMem p) a bs := by simp [State.hostWrite, State.hostMem]

@[simp] theorem State.hostMem_hostWrite_ne (s : State) (p : Port) (a : Nat) (bs : List Byte) {q : Port} (h : q ≠ p) :
    (s.hostWrite p a bs).hostMem q = s.hostMem q := by simp [State.hostWrite, State.hostMem, Fin.val_ne_of_ne h]

theorem State.hostWrite_hbm (s : State) (p : Port) (a : Nat) (bs : List Byte) :
    (s.hostWrite p a bs).mem.hbm = s.mem.hbm := rfl

/-- What storing HBM bytes changes: only the HBM contents. -/
theorem State.hbmWrite_eq (s : State) (pa : Nat) (bs : List Byte) :
    s.hbmWrite pa bs = { s with mem := { s.mem with hbm := (s.hbmWrite pa bs).mem.hbm } } := by
  induction bs generalizing s pa with
  | nil => rfl
  | cons b bs ih =>
    simp only [State.hbmWrite]
    split
    · exact ih _ (pa + 1)
    · exact ih _ (pa + 1)

theorem State.hbmWrite_wf {s : State} (pa : Nat) (bs : List Byte) (w : Memory.wf s.mem.hbm = true) :
    Memory.wf (s.hbmWrite pa bs).mem.hbm = true := by
  induction bs generalizing s pa with
  | nil => exact w
  | cons b bs ih =>
    simp only [State.hbmWrite]
    split
    · exact ih (pa + 1) (Memory.put_wf pa b w)
    · exact ih (pa + 1) w

/-- Storing HBM bytes leaves every byte outside their range as it was. -/
theorem State.hbm_get_hbmWrite_outside {s : State} (w : Memory.wf s.mem.hbm = true) (pa c : Nat) (bs : List Byte)
    (h : c < pa ∨ pa + bs.length ≤ c) : Memory.get (s.hbmWrite pa bs).mem.hbm c = Memory.get s.mem.hbm c := by
  induction bs generalizing s pa with
  | nil => rfl
  | cons b bs ih =>
    simp only [List.length_cons] at h
    simp only [State.hbmWrite]
    split
    · rw [ih (Memory.put_wf pa b w) (pa + 1) (by omega)]
      rw [Memory.get_put w]; simp; omega
    · exact ih w (pa + 1) (by omega)

theorem State.served_hbm (s : State) (m : List Host.Cell) (a : Nat) :
    ({ s with mem := { s.mem with hbm := m } } : State).served a = s.served a := rfl

/-- Served bytes that were stored read back. -/
theorem State.hbmRead_hbmWrite {s : State} (w : Memory.wf s.mem.hbm = true) (pa : Nat) (bs : List Byte)
    (h : ∀ i < bs.length, s.served (pa + i) = true) : (s.hbmWrite pa bs).hbmRead pa bs.length = bs := by
  induction bs generalizing s pa with
  | nil => rfl
  | cons b bs ih =>
    have h0 : s.served pa = true := by simpa using h 0 (by simp)
    have hs : ∀ i < bs.length, s.served (pa + 1 + i) = true := fun i hi => by
      have := h (i + 1) (by simp; omega)
      rwa [show pa + (i + 1) = pa + 1 + i by omega] at this
    simp only [State.hbmWrite, h0, if_true, List.length_cons, State.hbmRead]
    have w1 := Memory.put_wf (m := s.mem.hbm) pa b w
    have e := State.hbmWrite_eq ({ s with mem := { s.mem with hbm := Memory.put s.mem.hbm pa b } } : State) (pa + 1) bs
    have sv : ∀ a, (({ s with mem := { s.mem with hbm := Memory.put s.mem.hbm pa b } } : State).hbmWrite (pa + 1) bs).served a
        = s.served a := fun a => by rw [e]; rfl
    rw [sv, h0]
    simp only [if_true]
    rw [State.hbm_get_hbmWrite_outside w1 (pa + 1) pa bs (by omega)]
    have g := Memory.get_put w pa pa b
    simp only [if_true] at g
    rw [show Memory.get ({ s with mem := { s.mem with hbm := Memory.put s.mem.hbm pa b } } : State).mem.hbm pa = b from g]
    congr 1
    exact ih w1 (pa + 1) hs

end Sys2Proof.Machine
end

