-- ==== Sys2Proof/Laws/Keeps.lean ====
section
/-!
SUPPORT. What every operation of the module keeps, as one relation between the states before and after it: `Keeps`. The
files Laws/Keeps*.lean hold one lemma for each operation; the exceptions are named where they stand.
-/

namespace Sys2Proof.Machine

/-- What holds between the state before and the state after an operation: the queue is untouched, memories stay canonical,
the pages retired of a stack stay retired, in their order, and at most 4,096 of them, the security-version fuses never
fall, no IDE key appears or changes, READY does not rise, and the set-up lock stays as taken while READY holds. -/
structure Keeps (s t : State) : Prop where
  queue : t.pending = s.pending
  memory : Safety.memoryOk s → Safety.memoryOk t
  retired : ∀ m, (s.stack m).retired <+: (t.stack m).retired
  room : ∀ m, (s.stack m).retired.length ≤ 4096 → (t.stack m).retired.length ≤ 4096
  fuses : s.boot.svnFuses ≤ t.boot.svnFuses
  ide : ∀ p, (t.port p).ide = (s.port p).ide ∨ (t.port p).ide = []
  ready : t.boot.ready = true → s.boot.ready = true
  lock : t.boot.ready = true → s.sec.locked = true →
    t.sec.locked = true ∧ t.sec.lockedBy = s.sec.lockedBy ∧ t.sec.lockSnapshot = s.sec.lockSnapshot

/-- `Keeps` for an outcome. -/
def KeepsOut (s : State) (o : Out) : Prop := ∀ t, o = .next t → Keeps s t

/-- `Keeps` for an operation that can fail. -/
def KeepsOk {ε : Type} (s : State) (x : Except ε State) : Prop := ∀ t, x = .ok t → Keeps s t

/-- `Keeps` for an operation that can fail and answers a value beside the state. -/
def KeepsOk1 {ε α : Type} (s : State) (x : Except ε (State × α)) : Prop := ∀ t, x = .ok t → Keeps s t.1

/-- `Keeps` for an operation that may not apply. -/
def KeepsOpt (s : State) (x : Option State) : Prop := ∀ t, x = some t → Keeps s t

namespace Keeps

variable {s0 s t u : State}

@[simp] theorem refl (s : State) : Keeps s s :=
  ⟨rfl, id, fun _ => List.prefix_rfl, fun _ h => h, Nat.le_refl _, fun _ => .inl rfl, id, fun _ h => ⟨h, rfl, rfl⟩⟩

theorem trans (h : Keeps s t) (k : Keeps t u) : Keeps s u where
  queue := k.queue.trans h.queue
  memory x := k.memory (h.memory x)
  retired m := (h.retired m).trans (k.retired m)
  room m x := k.room m (h.room m x)
  fuses := Nat.le_trans h.fuses k.fuses
  ide p := by
    rcases k.ide p with e | e
    · rw [e]; exact h.ide p
    · exact .inr e
  ready x := h.ready (k.ready x)
  lock x y := by
    obtain ⟨a, b, c⟩ := h.lock (k.ready x) y
    obtain ⟨a', b', c'⟩ := k.lock x a
    exact ⟨a', b'.trans b, c'.trans c⟩

/-- A change of other parts of the state. -/
theorem same (h : Keeps s0 s) (queue : t.pending = s.pending) (hbm : t.mem.hbm = s.mem.hbm) (host : t.mem.host = s.mem.host)
    (stackEq : t.mem.stackMems = s.mem.stackMems) (fuses : t.boot.svnFuses = s.boot.svnFuses) (ports : t.ports = s.ports)
    (ready : t.boot.ready = s.boot.ready) (locked : t.sec.locked = s.sec.locked) (lockedBy : t.sec.lockedBy = s.sec.lockedBy)
    (snapshot : t.sec.lockSnapshot = s.sec.lockSnapshot) : Keeps s0 t := by
  refine h.trans ⟨queue, ?_, ?_, ?_, ?_, ?_, ?_, ?_⟩
  · intro x; exact ⟨hbm ▸ x.1, fun p => by have := x.2 p; simpa [State.hostMem, host] using this⟩
  · intro m; simp [State.stack, stackEq]
  · intro m; simp [State.stack, stackEq]
  · exact Nat.le_of_eq fuses.symm
  · intro p; simp [State.port, ports]
  · intro w; simpa [ready] using w
  · intro _ y; exact ⟨locked.trans y, lockedBy, snapshot⟩

/-- A state written out from the parts of another. -/
theorem lit (h : Keeps s0 s) {hk ctxs engines parts mem peer rcv pwr boot sec age dbg out fresh order}
    (hbm : mem.hbm = s.mem.hbm) (host : mem.host = s.mem.host) (stackEq : mem.stackMems = s.mem.stackMems)
    (fuses : boot.svnFuses = s.boot.svnFuses) (ready : boot.ready = s.boot.ready) (locked : sec.locked = s.sec.locked)
    (lockedBy : sec.lockedBy = s.sec.lockedBy) (snapshot : sec.lockSnapshot = s.sec.lockSnapshot) :
    Keeps s0 ⟨hk, s.ports, ctxs, engines, parts, mem, peer, rcv, pwr, boot, sec, age, dbg, out, fresh, order, s.pending⟩ :=
  h.same rfl hbm host stackEq fuses rfl ready locked lockedBy snapshot

/-- A change of a host port that leaves its IDE keys or drops them. -/
theorem updPort (h : Keeps s0 s) (p : Port) (f : HostPort → HostPort) (hf : ∀ x, (f x).ide = x.ide ∨ (f x).ide = []) :
    Keeps s0 (s.updPort p f) := by
  refine h.trans ⟨rfl, id, fun m => List.prefix_rfl, fun _ x => x, Nat.le_refl _, ?_, id, fun _ y => ⟨y, rfl, rfl⟩⟩
  intro q
  by_cases e : q = p
  · subst e; simpa using hf _
  · simp [e]

theorem updRing (h : Keeps s0 s) (p : Port) (r : RingNo) (f : Ring → Ring) : Keeps s0 (s.updRing p r f) :=
  h.updPort p _ fun _ => .inl rfl
theorem updCq (h : Keeps s0 s) (p : Port) (c : CqNo) (f : Cq → Cq) : Keeps s0 (s.updCq p c f) := h.updPort p _ fun _ => .inl rfl
theorem updCmd (h : Keeps s0 s) (p : Port) (t : Tag) (f : Cmd → Cmd) : Keeps s0 (s.updCmd p t f) :=
  h.updPort p _ fun _ => .inl rfl
theorem updArea (h : Keeps s0 s) (p : Port) (n : Fn) (f : Area → Area) : Keeps s0 (s.updArea p n f) :=
  h.updPort p _ fun _ => .inl rfl
theorem updCtx (h : Keeps s0 s) (c : CtxNo) (f : Ctx → Ctx) : Keeps s0 (s.updCtx c f) :=
  h.same rfl rfl rfl rfl rfl rfl rfl rfl rfl rfl
theorem updEng (h : Keeps s0 s) (e : Eng) (f : Engine → Engine) : Keeps s0 (s.updEng e f) :=
  h.same rfl rfl rfl rfl rfl rfl rfl rfl rfl rfl
theorem updSlot (h : Keeps s0 s) (e : Eng) (k : SlotNo) (f : Slot → Slot) : Keeps s0 (s.updSlot e k f) := h.updEng e _
theorem updStrm (h : Keeps s0 s) (e : Eng) (i : StreamNo) (f : Strm → Strm) : Keeps s0 (s.updStrm e i f) := h.updEng e _
theorem updNamed (h : Keeps s0 s) (e : Eng) (a : Nat) (f : Tile → Tile) : Keeps s0 (s.updNamed e a f) := h.updEng e _
theorem bump (h : Keeps s0 s) (e : Eng) (off n : Nat) : Keeps s0 (s.bump e off n) := h.updEng e _
theorem updPart (h : Keeps s0 s) (q : Part) (f : Partition → Partition) : Keeps s0 (s.updPart q f) :=
  h.same rfl rfl rfl rfl rfl rfl rfl rfl rfl rfl
theorem updLink (h : Keeps s0 s) (i : PeerPort) (f : PeerLink → PeerLink) : Keeps s0 (s.updLink i f) :=
  h.same rfl rfl rfl rfl rfl rfl rfl rfl rfl rfl
theorem emit (h : Keeps s0 s) (o : Output) : Keeps s0 (s.emit o) := h.same rfl rfl rfl rfl rfl rfl rfl rfl rfl rfl

/-- A change of a stack's retirement state that appends to its retired pages within their limit. -/
theorem updStack (h : Keeps s0 s) (m : Stack) (f : StackMem → StackMem) (hf : ∀ x, x.retired <+: (f x).retired)
    (hr : ∀ x, x.retired.length ≤ 4096 → (f x).retired.length ≤ 4096) : Keeps s0 (s.updStack m f) := by
  refine h.trans ⟨rfl, id, ?_, ?_, Nat.le_refl _, fun p => .inl rfl, id, fun _ y => ⟨y, rfl, rfl⟩⟩
  · intro n
    by_cases e : n = m
    · subst e; simpa using hf _
    · simp [e]
  · intro n
    by_cases e : n = m
    · subst e; simpa using hr _
    · simp [e]

theorem hostWrite (h : Keeps s0 s) (p : Port) (a : Nat) (bs : List Byte) : Keeps s0 (s.hostWrite p a bs) := by
  refine h.trans ⟨rfl, ?_, fun m => List.prefix_rfl, fun _ x => x, Nat.le_refl _, fun p => .inl rfl, id, fun _ y => ⟨y, rfl, rfl⟩⟩
  intro x
  refine ⟨x.1, fun q => ?_⟩
  by_cases e : q = p
  · subst e; simpa using Memory.write_wf a bs (x.2 q)
  · simpa [e] using x.2 q

theorem hbmWrite (h : Keeps s0 s) (pa : Nat) (bs : List Byte) : Keeps s0 (s.hbmWrite pa bs) := by
  have e := State.hbmWrite_eq s pa bs
  refine h.trans ?_
  rw [e]
  exact ⟨rfl, fun x => ⟨State.hbmWrite_wf pa bs x.1, x.2⟩, fun m => List.prefix_rfl, fun _ x => x, Nat.le_refl _,
    fun p => .inl rfl, id, fun _ y => ⟨y, rfl, rfl⟩⟩

theorem ite {c : Prop} [Decidable c] {a b : State} (ha : c → Keeps s0 a) (hb : ¬c → Keeps s0 b) :
    Keeps s0 (if c then a else b) := by
  split
  · next h => exact ha h
  · next h => exact hb h

theorem foldl {α : Type} (f : State → α → State) (h : Keeps s0 s) (l : List α) (hf : ∀ s x, Keeps s0 s → Keeps s0 (f s x)) :
    Keeps s0 (l.foldl f s) := by
  induction l generalizing s with
  | nil => exact h
  | cons x l ih => exact ih (hf s x h)

theorem pair {α : Type} {x : State × α} {a : α} (e : x = (s, a)) (h : Keeps s0 x.1) : Keeps s0 s := by subst e; exact h

theorem next (h : Keeps s0 s) : KeepsOut s0 (.next s) := fun t e => by injection e with e; exact e ▸ h

theorem ok {ε : Type} (h : Keeps s0 s) : KeepsOk (ε := ε) s0 (.ok s) := fun t e => by injection e with e; exact e ▸ h
theorem error {ε : Type} (x : ε) : KeepsOk s0 (.error x) := fun t e => by injection e
theorem ok1 {ε α : Type} {a : α} (h : Keeps s0 s) : KeepsOk1 (ε := ε) s0 (.ok (s, a)) := fun t e => by injection e with e; exact e ▸ h
theorem error1 {ε α : Type} (x : ε) : KeepsOk1 (α := α) s0 (.error x) := fun t e => by injection e
theorem pure {ε : Type} (h : Keeps s0 s) : KeepsOk (ε := ε) s0 (pure s) := h.ok
theorem pure1 {ε α : Type} {a : α} (h : Keeps s0 s) : KeepsOk1 (ε := ε) s0 (Pure.pure (s, a)) := h.ok1
theorem bind {ε α : Type} {x : Except ε α} {f : α → Except ε State} (h : ∀ a, x = .ok a → KeepsOk s0 (f a)) :
    KeepsOk s0 (x >>= f) := by
  intro t e
  cases x with
  | error _ => injection e
  | ok a => exact h a rfl t e
theorem pureBind {ε α : Type} {a : α} {f : α → Except ε State} (h : KeepsOk s0 (f a)) : KeepsOk s0 (Pure.pure a >>= f) := h
theorem bind1 {ε α β : Type} {x : Except ε α} {f : α → Except ε (State × β)} (h : ∀ a, x = .ok a → KeepsOk1 s0 (f a)) :
    KeepsOk1 s0 (x >>= f) := by
  intro t e
  cases x with
  | error _ => injection e
  | ok a => exact h a rfl t e
theorem map {ε α : Type} {x : Except ε α} {f : α → State} (h : ∀ a, x = .ok a → Keeps s0 (f a)) : KeepsOk s0 (x.map f) := by
  intro t e
  cases x with
  | error _ => injection e
  | ok a => injection e with e; exact e ▸ h a rfl
theorem ofOk {ε : Type} {x : Except ε State} (h : KeepsOk s0 x) (e : x = .ok t) : Keeps s0 t := h t e
theorem ofOk1 {ε α : Type} {x : Except ε (State × α)} {a : α} (h : KeepsOk1 s0 x) (e : x = .ok (t, a)) : Keeps s0 t := h _ e
theorem ofSome {x : Option State} (h : KeepsOpt s0 x) (e : x = .some t) : Keeps s0 t := h t e
theorem some (h : Keeps s0 s) : KeepsOpt s0 (some s) := fun t e => by injection e with e; exact e ▸ h
theorem none : KeepsOpt s0 none := fun t e => by injection e

end Keeps

end Sys2Proof.Machine
end

