-- ==== Sys2Proof/Laws/KeepsOps.lean ====
section
/-!
SUPPORT. What the operations of Machine/Ops.lean keep.
-/

namespace Sys2Proof.Machine

open Sys2Proof

variable {s0 : State}

theorem storeAt_keeps (s : State) (h : Keeps s0 s) (x : Xlate) (bs : List Byte) : Keeps s0 (State.storeAt s x bs) := by
  unfold State.storeAt
  repeat' first
    | with_reducible assumption
    | with_reducible apply Keeps.hbmWrite
    | with_reducible apply Keeps.hostWrite
    | split

theorem vwriteGo_keeps (x s : State) (h : Keeps s0 s) (c : CtxNo) (fuel va : Nat) (bs : List Byte) :
    Keeps s0 (State.vwriteGo x s c fuel va bs) := by
  induction fuel generalizing s va bs with
  | zero => exact h
  | succ fuel ih =>
    simp only [State.vwriteGo]
    split
    · exact h
    · apply ih
      split
      · exact h
      · exact h.hbmWrite _ _
      · exact h.hostWrite _ _ _

theorem vwrite_keeps (s : State) (h : Keeps s0 s) (c : CtxNo) (va : Nat) (bs : List Byte) : KeepsOk s0 (State.vwrite s c va bs) := by
  unfold State.vwrite
  repeat' first
    | with_reducible assumption
    | with_reducible apply Keeps.pureBind
    | with_reducible apply Keeps.pure
    | with_reducible refine Keeps.bind fun _ _ => ?_
    | with_reducible refine Keeps.map fun _ _ => ?_
    | with_reducible apply Keeps.ok
    | with_reducible exact Keeps.error _
    | with_reducible apply vwriteGo_keeps
    | split

end Sys2Proof.Machine
end

