-- ==== Sys2Proof/Laws/KeepsFlags.lean ====
section
/-!
SUPPORT. What the operations of Machine/Flags.lean keep.
-/

namespace Sys2Proof.Machine

open Sys2Proof

variable {s0 : State}

theorem raiseVector_keeps (s : State) (h : Keeps s0 s) (p : Port) (f : Fn) (vec : Nat) : Keeps s0 (State.raiseVector s p f vec) := by
  unfold State.raiseVector
  split
  · exact h
  · extract_lets
    split
    · exact h.updPort _ _ fun x => .inl (by simp only [HostPort.setMsix]; split <;> rfl)
    · exact h.emit _

theorem raiseCq_keeps (s : State) (h : Keeps s0 s) (p : Port) (c : CqNo) : Keeps s0 (State.raiseCq s p c) := by
  unfold State.raiseCq
  repeat' first
    | with_reducible assumption
    | (with_reducible apply Keeps.ite <;> intro _)
    | with_reducible apply Keeps.updCq
    | with_reducible apply raiseVector_keeps
    | with_reducible exact Keeps.lit (by with_reducible assumption) rfl rfl rfl rfl rfl rfl rfl rfl
    | split
    | with_reducible refine Keeps.lit ?_ rfl rfl rfl rfl rfl rfl rfl rfl

theorem setCause_keeps (s : State) (h : Keeps s0 s) (p : Port) (bit : Nat) : Keeps s0 (State.setCause s p bit) := by
  unfold State.setCause
  repeat' first
    | with_reducible assumption
    | (with_reducible apply Keeps.ite <;> intro _)
    | with_reducible apply Keeps.updPort
    | with_reducible apply raiseVector_keeps
    | (intro x; exact .inl rfl)
    | with_reducible exact Keeps.lit (by with_reducible assumption) rfl rfl rfl rfl rfl rfl rfl rfl
    | extract_lets
    | split
    | with_reducible refine Keeps.lit ?_ rfl rfl rfl rfl rfl rfl rfl rfl

theorem setCauseAll_keeps (s : State) (h : Keeps s0 s) (bit : Nat) : Keeps s0 (State.setCauseAll s bit) := by
  unfold State.setCauseAll
  repeat' first
    | with_reducible assumption
    | with_reducible apply setCause_keeps

theorem postErrTo_keeps (s : State) (h : Keeps s0 s) (p : Port) (rec : List Byte) : Keeps s0 (State.postErrTo s p rec) := by
  unfold State.postErrTo
  repeat' first
    | with_reducible assumption
    | (with_reducible apply Keeps.ite <;> intro _)
    | with_reducible apply Keeps.hostWrite
    | with_reducible apply Keeps.updPort
    | with_reducible apply setCause_keeps
    | (intro x; exact .inl rfl)
    | with_reducible exact Keeps.lit (by with_reducible assumption) rfl rfl rfl rfl rfl rfl rfl rfl
    | extract_lets
    | split
    | with_reducible refine Keeps.lit ?_ rfl rfl rfl rfl rfl rfl rfl rfl

theorem postFaultTo_keeps (s : State) (h : Keeps s0 s) (p : Port) (rec : List Byte) : Keeps s0 (State.postFaultTo s p rec) := by
  unfold State.postFaultTo
  repeat' first
    | with_reducible assumption
    | (with_reducible apply Keeps.ite <;> intro _)
    | with_reducible apply Keeps.hostWrite
    | with_reducible apply Keeps.updPort
    | with_reducible apply setCause_keeps
    | (intro x; exact .inl rfl)
    | with_reducible exact Keeps.lit (by with_reducible assumption) rfl rfl rfl rfl rfl rfl rfl rfl
    | extract_lets
    | split
    | with_reducible refine Keeps.lit ?_ rfl rfl rfl rfl rfl rfl rfl rfl

theorem postErr_keeps (s : State) (h : Keeps s0 s) (r : ErrRec) : Keeps s0 (State.postErr s r) := by
  unfold State.postErr
  repeat' first
    | with_reducible assumption
    | with_reducible apply postErrTo_keeps
    | extract_lets

theorem postFault_keeps (s : State) (h : Keeps s0 s) (kind : Nat) (p : Port) (t : Tag) (engine : Nat) (stream : Nat) (w : Bool) (va : Nat) : Keeps s0 (State.postFault s kind p t engine stream w va) := by
  unfold State.postFault
  repeat' first
    | with_reducible assumption
    | with_reducible apply Keeps.updCmd
    | with_reducible apply postFaultTo_keeps
    | with_reducible exact Keeps.lit (by with_reducible assumption) rfl rfl rfl rfl rfl rfl rfl rfl
    | with_reducible refine Keeps.lit ?_ rfl rfl rfl rfl rfl rfl rfl rfl
    | extract_lets

theorem endCmd_keeps (s : State) (h : Keeps s0 s) (p : Port) (t : Tag) (st : Nat) : Keeps s0 (State.endCmd s p t st) := by
  unfold State.endCmd
  repeat' first
    | with_reducible assumption
    | with_reducible apply Keeps.updCmd
    | with_reducible exact Keeps.lit (by with_reducible assumption) rfl rfl rfl rfl rfl rfl rfl rfl
    | with_reducible refine Keeps.lit ?_ rfl rfl rfl rfl rfl rfl rfl rfl

theorem doneCmd_keeps (s : State) (h : Keeps s0 s) (p : Port) (t : Tag) : Keeps s0 (State.doneCmd s p t) := by
  unfold State.doneCmd
  repeat' first
    | with_reducible assumption
    | with_reducible apply Keeps.updCmd
    | with_reducible exact Keeps.lit (by with_reducible assumption) rfl rfl rfl rfl rfl rfl rfl rfl
    | with_reducible refine Keeps.lit ?_ rfl rfl rfl rfl rfl rfl rfl rfl

theorem stopStreams_keeps (s : State) (h : Keeps s0 s) (e : Eng) (p : Port) (t : Tag) : Keeps s0 (State.stopStreams s e p t) := by
  unfold State.stopStreams
  repeat' first
    | with_reducible assumption
    | (with_reducible apply Keeps.ite <;> intro _)
    | with_reducible apply Keeps.updStrm
    | with_reducible refine Keeps.foldl _ ?_ _ fun _ _ _ => ?_
    | extract_lets
    | split

theorem updTile_keeps (s : State) (h : Keeps s0 s) (e : Eng) (k : SlotNo) (f : Tile → Tile) : Keeps s0 (State.updTile s e k f) := by
  unfold State.updTile
  repeat' first
    | with_reducible assumption
    | with_reducible apply Keeps.updNamed
    | with_reducible apply Keeps.updSlot
    | with_reducible exact Keeps.lit (by with_reducible assumption) rfl rfl rfl rfl rfl rfl rfl rfl
    | split
    | with_reducible refine Keeps.lit ?_ rfl rfl rfl rfl rfl rfl rfl rfl

theorem clearFilling_keeps (s : State) (h : Keeps s0 s) (e : Eng) (k : SlotNo) : Keeps s0 (State.clearFilling s e k) := by
  unfold State.clearFilling
  repeat' first
    | with_reducible assumption
    | (with_reducible apply Keeps.ite <;> intro _)
    | with_reducible apply Keeps.updSlot
    | with_reducible apply updTile_keeps
    | with_reducible exact Keeps.lit (by with_reducible assumption) rfl rfl rfl rfl rfl rfl rfl rfl
    | extract_lets
    | split
    | with_reducible refine Keeps.lit ?_ rfl rfl rfl rfl rfl rfl rfl rfl

theorem stopWork_keeps (s : State) (h : Keeps s0 s) (p : Port) (t : Tag) : Keeps s0 (State.stopWork s p t) := by
  unfold State.stopWork
  repeat' first
    | with_reducible assumption
    | with_reducible apply stopStreams_keeps
    | with_reducible apply clearFilling_keeps
    | with_reducible refine Keeps.foldl _ ?_ _ fun _ _ _ => ?_

theorem dropSide_keeps (s : State) (h : Keeps s0 s) (p : Port) (t : Tag) : Keeps s0 (State.dropSide s p t) := by
  unfold State.dropSide
  repeat' first
    | with_reducible assumption
    | (with_reducible apply Keeps.ite <;> intro _)
    | with_reducible apply Keeps.updPart
    | with_reducible refine Keeps.foldl _ ?_ _ fun _ _ _ => ?_
    | with_reducible exact Keeps.lit (by with_reducible assumption) rfl rfl rfl rfl rfl rfl rfl rfl
    | extract_lets
    | split
    | with_reducible refine Keeps.lit ?_ rfl rfl rfl rfl rfl rfl rfl rfl

theorem abortOne_keeps (s : State) (h : Keeps s0 s) (p : Port) (t : Tag) (st : Nat) : Keeps s0 (State.abortOne s p t st) := by
  unfold State.abortOne
  repeat' first
    | with_reducible assumption
    | (with_reducible apply Keeps.ite <;> intro _)
    | with_reducible apply Keeps.updCmd
    | with_reducible apply free_keeps
    | with_reducible apply stopStreams_keeps
    | with_reducible apply stopWork_keeps
    | with_reducible apply endCmd_keeps
    | with_reducible apply dropSide_keeps
    | with_reducible refine Keeps.foldl _ ?_ _ fun _ _ _ => ?_
    | with_reducible exact Keeps.lit (by with_reducible assumption) rfl rfl rfl rfl rfl rfl rfl rfl
    | with_reducible refine Keeps.pair (by with_reducible assumption) ?_
    | split
    | with_reducible refine Keeps.lit ?_ rfl rfl rfl rfl rfl rfl rfl rfl

theorem abortGo_keeps (fuel : Nat) (s : State) (h : Keeps s0 s) (p : Port) (t : Tag) (st : Nat) :
    Keeps s0 (State.abortGo fuel s p t st) := by
  induction fuel generalizing s p t st with
  | zero => exact abortOne_keeps _ h _ _ _
  | succ fuel ih => exact Keeps.foldl _ (abortOne_keeps _ h _ _ _) _ fun s x hs => ih s hs _ _ _

theorem abortCmd_keeps (s : State) (h : Keeps s0 s) (p : Port) (t : Tag) (st : Nat) : Keeps s0 (State.abortCmd s p t st) := by
  unfold State.abortCmd
  repeat' first
    | with_reducible assumption
    | with_reducible apply abortGo_keeps

theorem markCmd_keeps (s : State) (h : Keeps s0 s) (p : Port) (t : Tag) (st : Nat) : Keeps s0 (State.markCmd s p t st) := by
  unfold State.markCmd
  repeat' first
    | with_reducible assumption
    | (with_reducible apply Keeps.ite <;> intro _)
    | with_reducible apply Keeps.updCmd
    | with_reducible apply free_keeps
    | with_reducible refine Keeps.pair (by with_reducible assumption) ?_
    | split

theorem abortCmds_keeps (s : State) (h : Keeps s0 s) (cs : List (Port × Tag)) (st : Nat) : Keeps s0 (State.abortCmds s cs st) := by
  unfold State.abortCmds
  repeat' first
    | with_reducible assumption
    | with_reducible apply markCmd_keeps
    | with_reducible apply abortCmd_keeps
    | with_reducible refine Keeps.foldl _ ?_ _ fun _ _ _ => ?_

theorem faultCmd_keeps (s : State) (h : Keeps s0 s) (p : Port) (t : Tag) : Keeps s0 (State.faultCmd s p t) := by
  unfold State.faultCmd
  repeat' first
    | with_reducible assumption
    | with_reducible apply abortCmd_keeps

theorem leaveTiles_keeps (s : State) (h : Keeps s0 s) (p : Port) (t : Tag) : Keeps s0 (State.leaveTiles s p t) := by
  unfold State.leaveTiles
  repeat' first
    | with_reducible assumption
    | (with_reducible apply Keeps.ite <;> intro _)
    | with_reducible apply Keeps.updNamed
    | with_reducible refine Keeps.foldl _ ?_ _ fun _ _ _ => ?_
    | with_reducible exact Keeps.lit (by with_reducible assumption) rfl rfl rfl rfl rfl rfl rfl rfl
    | extract_lets
    | split
    | with_reducible refine Keeps.lit ?_ rfl rfl rfl rfl rfl rfl rfl rfl

theorem freeJoined_keeps (s : State) (h : Keeps s0 s) (p : Port) (t : Tag) : Keeps s0 (State.freeJoined s p t) := by
  unfold State.freeJoined
  repeat' first
    | with_reducible assumption
    | (with_reducible apply Keeps.ite <;> intro _)
    | with_reducible apply abortCmd_keeps
    | with_reducible refine Keeps.foldl _ ?_ _ fun _ _ _ => ?_
    | with_reducible exact Keeps.lit (by with_reducible assumption) rfl rfl rfl rfl rfl rfl rfl rfl
    | extract_lets
    | split
    | with_reducible refine Keeps.lit ?_ rfl rfl rfl rfl rfl rfl rfl rfl

theorem freeSlots_keeps (s : State) (h : Keeps s0 s) (p : Port) (t : Tag) : Keeps s0 (State.freeSlots s p t) := by
  unfold State.freeSlots
  repeat' first
    | with_reducible assumption
    | (with_reducible apply Keeps.ite <;> intro _)
    | with_reducible apply Keeps.updEng
    | with_reducible refine Keeps.foldl _ ?_ _ fun _ _ _ => ?_
    | with_reducible exact Keeps.lit (by with_reducible assumption) rfl rfl rfl rfl rfl rfl rfl rfl
    | extract_lets
    | split
    | with_reducible refine Keeps.lit ?_ rfl rfl rfl rfl rfl rfl rfl rfl

theorem releaseSlots_keeps (s : State) (h : Keeps s0 s) (p : Port) (t : Tag) : Keeps s0 (State.releaseSlots s p t) := by
  unfold State.releaseSlots
  repeat' first
    | with_reducible assumption
    | with_reducible apply freeSlots_keeps
    | with_reducible apply leaveTiles_keeps
    | with_reducible apply freeJoined_keeps

end Sys2Proof.Machine
end

