-- ==== Sys2Proof/Laws/KeepsContexts.lean ====
section
/-!
SUPPORT. What the operations of Machine/Contexts.lean keep.
-/

namespace Sys2Proof.Machine

open Sys2Proof

variable {s0 : State}

theorem clearHeld_keeps (s : State) (h : Keeps s0 s) (c : CtxNo) : Keeps s0 (State.clearHeld s c) := by
  unfold State.clearHeld
  repeat' first
    | with_reducible assumption
    | (with_reducible apply Keeps.ite <;> intro _)
    | with_reducible exact Keeps.lit (by with_reducible assumption) rfl rfl rfl rfl rfl rfl rfl rfl
    | split
    | with_reducible refine Keeps.lit ?_ rfl rfl rfl rfl rfl rfl rfl rfl

theorem updRingsOf_keeps (s : State) (h : Keeps s0 s) (c : CtxNo) (f : Ring → Ring) : Keeps s0 (State.updRingsOf s c f) := by
  unfold State.updRingsOf
  repeat' first
    | with_reducible assumption
    | (with_reducible apply Keeps.ite <;> intro _)
    | with_reducible apply Keeps.updPort
    | (intro x; exact .inl rfl)
    | with_reducible exact Keeps.lit (by with_reducible assumption) rfl rfl rfl rfl rfl rfl rfl rfl
    | split
    | with_reducible refine Keeps.lit ?_ rfl rfl rfl rfl rfl rfl rfl rfl

theorem answerRing_keeps (s : State) (h : Keeps s0 s) (p : Port) (f : Fn) (reason : Nat) : Keeps s0 (State.answerRing s p f reason) := by
  unfold State.answerRing
  repeat' first
    | with_reducible assumption
    | (with_reducible apply Keeps.ite <;> intro _)
    | with_reducible apply Keeps.updArea
    | with_reducible exact Keeps.lit (by with_reducible assumption) rfl rfl rfl rfl rfl rfl rfl rfl
    | split
    | with_reducible refine Keeps.lit ?_ rfl rfl rfl rfl rfl rfl rfl rfl

theorem answerDisable_keeps (s : State) (h : Keeps s0 s) (p : Port) (g : Ring) : Keeps s0 (State.answerDisable s p g) := by
  unfold State.answerDisable
  repeat' first
    | with_reducible assumption
    | with_reducible apply answerRing_keeps
    | split

theorem clearRingsOf_keeps (s : State) (h : Keeps s0 s) (p : Port) (c : CtxNo) : Keeps s0 (State.clearRingsOf s p c) := by
  unfold State.clearRingsOf
  repeat' first
    | with_reducible assumption
    | (with_reducible apply Keeps.ite <;> intro _)
    | with_reducible apply Keeps.updPort
    | with_reducible apply answerDisable_keeps
    | with_reducible refine Keeps.foldl _ ?_ _ fun _ _ _ => ?_
    | (intro x; exact .inl rfl)
    | with_reducible exact Keeps.lit (by with_reducible assumption) rfl rfl rfl rfl rfl rfl rfl rfl
    | extract_lets
    | split
    | with_reducible refine Keeps.lit ?_ rfl rfl rfl rfl rfl rfl rfl rfl

theorem beginAbort_keeps (s : State) (h : Keeps s0 s) (c : CtxNo) (st : Nat) : Keeps s0 (State.beginAbort s c st) := by
  unfold State.beginAbort
  repeat' first
    | with_reducible assumption
    | with_reducible apply Keeps.updCtx
    | with_reducible apply abortCmds_keeps
    | with_reducible apply updRingsOf_keeps
    | with_reducible apply clearHeld_keeps
    | with_reducible exact Keeps.lit (by with_reducible assumption) rfl rfl rfl rfl rfl rfl rfl rfl
    | with_reducible refine Keeps.lit ?_ rfl rfl rfl rfl rfl rfl rfl rfl
    | extract_lets

theorem keepHomes_keeps (s : State) (h : Keeps s0 s) (c : CtxNo) : Keeps s0 (State.keepHomes s c) := by
  unfold State.keepHomes
  repeat' first
    | with_reducible assumption
    | with_reducible apply Keeps.updCmd
    | with_reducible refine Keeps.foldl _ ?_ _ fun _ _ _ => ?_
    | with_reducible exact Keeps.lit (by with_reducible assumption) rfl rfl rfl rfl rfl rfl rfl rfl
    | with_reducible refine Keeps.lit ?_ rfl rfl rfl rfl rfl rfl rfl rfl
    | extract_lets

theorem answerArea_keeps (s : State) (h : Keeps s0 s) (w : Option (Port × Fn)) (st : Nat) (reason : Nat) : Keeps s0 (State.answerArea s w st reason) := by
  unfold State.answerArea
  repeat' first
    | with_reducible assumption
    | with_reducible apply Keeps.updArea
    | split

theorem settleGo_keeps (fuel : Nat) (s : State) (h : Keeps s0 s) (c : CtxNo) : Keeps s0 (State.settleGo fuel s c) := by
  induction fuel generalizing s with
  | zero => exact h
  | succ fuel ih =>
    simp only [State.settleGo]
    split
    · split
      · split
        · exact Keeps.foldl _ (answerArea_keeps _ ((clearRingsOf_keeps _ (keepHomes_keeps _ h _) _ _).updCtx _ _) _ _ _) _
            fun s x hs => answerArea_keeps _ hs _ _ _
        · exact ih _ (answerArea_keeps _ (h.updCtx _ _) _ _ _)
      · exact h
    · exact h

theorem settle_keeps (s : State) (h : Keeps s0 s) (c : CtxNo) : Keeps s0 (State.settle s c) := by
  unfold State.settle
  repeat' first
    | with_reducible assumption
    | with_reducible apply settleGo_keeps

theorem endCtx_keeps (s : State) (h : Keeps s0 s) (c : CtxNo) (w : CtxEnd) (st : Nat) : Keeps s0 (State.endCtx s c w st) := by
  unfold State.endCtx
  repeat' first
    | with_reducible assumption
    | (with_reducible apply Keeps.ite <;> intro _)
    | with_reducible apply Keeps.updCtx
    | with_reducible apply beginAbort_keeps
    | with_reducible apply settle_keeps
    | with_reducible exact Keeps.lit (by with_reducible assumption) rfl rfl rfl rfl rfl rfl rfl rfl
    | extract_lets
    | split
    | with_reducible refine Keeps.lit ?_ rfl rfl rfl rfl rfl rfl rfl rfl

theorem destroyCtx_keeps (s : State) (h : Keeps s0 s) (c : CtxNo) : Keeps s0 (State.destroyCtx s c) := by
  unfold State.destroyCtx
  repeat' first
    | with_reducible assumption
    | (with_reducible apply Keeps.ite <;> intro _)
    | with_reducible apply endCtx_keeps
    | with_reducible apply free_keeps
    | with_reducible refine Keeps.pair (by with_reducible assumption) ?_
    | split

theorem execCtxCreate_keeps (s : State) (h : Keeps s0 s) (p : Port) (f : Fn) (c : CtxNo) : KeepsOut s0 (execCtxCreate p f c s) := by
  unfold execCtxCreate
  repeat' first
    | with_reducible assumption
    | (with_reducible apply Keeps.ite <;> intro _)
    | with_reducible apply Keeps.next
    | with_reducible apply Keeps.updArea
    | with_reducible apply Keeps.updCtx
    | with_reducible apply answerArea_keeps
    | with_reducible apply clearRingsOf_keeps
    | with_reducible exact Keeps.lit (by with_reducible assumption) rfl rfl rfl rfl rfl rfl rfl rfl
    | extract_lets
    | split
    | with_reducible refine Keeps.lit ?_ rfl rfl rfl rfl rfl rfl rfl rfl

theorem followPort_keeps (s : State) (h : Keeps s0 s) (p : Port) : Keeps s0 (State.followPort s p) := by
  unfold State.followPort
  repeat' first
    | with_reducible assumption
    | (with_reducible apply Keeps.ite <;> intro _)
    | with_reducible apply Keeps.updCtx
    | with_reducible refine Keeps.foldl _ ?_ _ fun _ _ _ => ?_
    | with_reducible exact Keeps.lit (by with_reducible assumption) rfl rfl rfl rfl rfl rfl rfl rfl
    | extract_lets
    | split
    | with_reducible refine Keeps.lit ?_ rfl rfl rfl rfl rfl rfl rfl rfl

theorem execCtxAbort_keeps (s : State) (h : Keeps s0 s) (p : Port) (f : Fn) (c : CtxNo) : KeepsOut s0 (execCtxAbort p f c s) := by
  unfold execCtxAbort
  repeat' first
    | with_reducible assumption
    | (with_reducible apply Keeps.ite <;> intro _)
    | with_reducible apply Keeps.next
    | with_reducible apply Keeps.updArea
    | with_reducible apply answerArea_keeps
    | with_reducible apply endCtx_keeps
    | extract_lets
    | split

theorem execCtxDestroy_keeps (s : State) (h : Keeps s0 s) (p : Port) (f : Fn) (c : CtxNo) : KeepsOut s0 (execCtxDestroy p f c s) := by
  unfold execCtxDestroy
  repeat' first
    | with_reducible assumption
    | (with_reducible apply Keeps.ite <;> intro _)
    | with_reducible apply Keeps.next
    | with_reducible apply Keeps.updArea
    | with_reducible apply answerArea_keeps
    | with_reducible apply endCtx_keeps
    | extract_lets
    | split

theorem moveRings_keeps (s : State) (h : Keeps s0 s) (c : CtxNo) (p : Port) (q : CqNo) : Keeps s0 (State.moveRings s c p q) := by
  unfold State.moveRings
  repeat' first
    | with_reducible assumption
    | with_reducible apply Keeps.updRing
    | with_reducible apply answerDisable_keeps
    | with_reducible refine Keeps.foldl _ ?_ _ fun _ _ _ => ?_
    | extract_lets

theorem execCtxAdopt_keeps (s : State) (h : Keeps s0 s) (p : Port) (f : Fn) (c : CtxNo) (q : CqNo) : KeepsOut s0 (execCtxAdopt p f c q s) := by
  unfold execCtxAdopt
  repeat' first
    | with_reducible assumption
    | (with_reducible apply Keeps.ite <;> intro _)
    | with_reducible apply Keeps.next
    | with_reducible apply Keeps.updArea
    | with_reducible apply Keeps.updCtx
    | with_reducible apply moveRings_keeps
    | with_reducible apply answerArea_keeps
    | with_reducible exact Keeps.lit (by with_reducible assumption) rfl rfl rfl rfl rfl rfl rfl rfl
    | extract_lets
    | split
    | with_reducible refine Keeps.lit ?_ rfl rfl rfl rfl rfl rfl rfl rfl

theorem execContextRecordWrite_keeps (s : State) (h : Keeps s0 s) (p : Port) (f : Fn) (c : CtxNo) (off : Nat) (size : Nat) (v : W64) : KeepsOut s0 (execContextRecordWrite p f c off size v s) := by
  unfold execContextRecordWrite
  repeat' first
    | with_reducible assumption
    | (with_reducible apply Keeps.ite <;> intro _)
    | with_reducible apply Keeps.next
    | with_reducible apply Keeps.updCtx
    | extract_lets
    | split

end Sys2Proof.Machine
end

