-- ==== Sys2Proof/Laws/KeepsRings.lean ====
section
/-!
SUPPORT. What the operations of Machine/Rings.lean keep.
-/

namespace Sys2Proof.Machine

open Sys2Proof

variable {s0 : State}

theorem ringError_keeps (s : State) (h : Keeps s0 s) (p : Port) (r : RingNo) (code : Nat) : Keeps s0 (State.ringError s p r code) := by
  unfold State.ringError
  repeat' first
    | with_reducible assumption
    | with_reducible apply Keeps.updRing
    | with_reducible apply raiseCq_keeps
    | with_reducible exact Keeps.lit (by with_reducible assumption) rfl rfl rfl rfl rfl rfl rfl rfl
    | with_reducible refine Keeps.lit ?_ rfl rfl rfl rfl rfl rfl rfl rfl

theorem execSubmissionDoorbell_keeps (s : State) (h : Keeps s0 s) (p : Port) (f : Fn) (r : RingNo) (size : Nat) (value : W64) : KeepsOut s0 (execSubmissionDoorbell p f r size value s) := by
  unfold execSubmissionDoorbell
  repeat' first
    | with_reducible assumption
    | (with_reducible apply Keeps.ite <;> intro _)
    | with_reducible apply Keeps.next
    | with_reducible apply Keeps.updRing
    | with_reducible apply ringError_keeps
    | with_reducible exact Keeps.lit (by with_reducible assumption) rfl rfl rfl rfl rfl rfl rfl rfl
    | extract_lets
    | split
    | with_reducible refine Keeps.lit ?_ rfl rfl rfl rfl rfl rfl rfl rfl

theorem execCompletionRingHead_keeps (s : State) (h : Keeps s0 s) (p : Port) (f : Fn) (c : CqNo) (size : Nat) (value : W64) : KeepsOut s0 (execCompletionRingHead p f c size value s) := by
  unfold execCompletionRingHead
  repeat' first
    | with_reducible assumption
    | (with_reducible apply Keeps.ite <;> intro _)
    | with_reducible apply Keeps.next
    | with_reducible apply Keeps.updCq
    | with_reducible apply raiseCq_keeps
    | with_reducible exact Keeps.lit (by with_reducible assumption) rfl rfl rfl rfl rfl rfl rfl rfl
    | extract_lets
    | split
    | with_reducible refine Keeps.lit ?_ rfl rfl rfl rfl rfl rfl rfl rfl

theorem execModTimeExpiry_keeps (s : State) (h : Keeps s0 s) (p : Port) (c : CqNo) : KeepsOut s0 (execModTimeExpiry p c s) := by
  unfold execModTimeExpiry
  repeat' first
    | with_reducible assumption
    | (with_reducible apply Keeps.ite <;> intro _)
    | with_reducible apply Keeps.next
    | with_reducible apply raiseCq_keeps
    | extract_lets
    | split

theorem takeRing_keeps (s : State) (h : Keeps s0 s) (p : Port) (f : Fn) (op : Nat) (n : Nat) : Keeps s0 (State.takeRing s p f op n) := by
  unfold State.takeRing
  repeat' first
    | with_reducible assumption
    | with_reducible apply Keeps.updArea
    | with_reducible exact Keeps.lit (by with_reducible assumption) rfl rfl rfl rfl rfl rfl rfl rfl
    | with_reducible refine Keeps.lit ?_ rfl rfl rfl rfl rfl rfl rfl rfl

theorem ringOp_keeps (s : State) (h : Keeps s0 s) (p : Port) (f : Fn) (r : RingNo) (op : Nat) (eff : State → State)
    (he : ∀ t, Keeps s0 t → Keeps s0 (eff t)) : Keeps s0 (State.ringOp s p f r op eff) := by
  unfold State.ringOp
  split
  · exact h
  · split
    · exact he _ (takeRing_keeps _ h _ _ _ _)
    · exact answerRing_keeps _ (takeRing_keeps _ h _ _ _ _) _ _ _

theorem execRingEnable_keeps (s : State) (h : Keeps s0 s) (p : Port) (f : Fn) (r : RingNo) : KeepsOut s0 (execRingEnable p f r s) := by
  unfold execRingEnable
  repeat' first
    | with_reducible assumption
    | with_reducible apply Keeps.next
    | with_reducible apply Keeps.updRing
    | with_reducible apply answerRing_keeps
    | with_reducible apply ringOp_keeps
    | intro _ _
    | with_reducible exact Keeps.lit (by with_reducible assumption) rfl rfl rfl rfl rfl rfl rfl rfl
    | with_reducible refine Keeps.lit ?_ rfl rfl rfl rfl rfl rfl rfl rfl

theorem execRingStop_keeps (s : State) (h : Keeps s0 s) (p : Port) (f : Fn) (r : RingNo) : KeepsOut s0 (execRingStop p f r s) := by
  unfold execRingStop
  repeat' first
    | with_reducible assumption
    | with_reducible apply Keeps.next
    | with_reducible apply Keeps.updRing
    | with_reducible apply ringOp_keeps
    | with_reducible apply answerRing_keeps
    | intro _ _

theorem execRingDisable_keeps (s : State) (h : Keeps s0 s) (p : Port) (f : Fn) (r : RingNo) : KeepsOut s0 (execRingDisable p f r s) := by
  unfold execRingDisable
  repeat' first
    | with_reducible assumption
    | with_reducible apply Keeps.next
    | with_reducible apply Keeps.updRing
    | with_reducible apply ringOp_keeps
    | intro _ _
    | with_reducible exact Keeps.lit (by with_reducible assumption) rfl rfl rfl rfl rfl rfl rfl rfl
    | with_reducible refine Keeps.lit ?_ rfl rfl rfl rfl rfl rfl rfl rfl

theorem execRingDisableComplete_keeps (s : State) (h : Keeps s0 s) (p : Port) (r : RingNo) : KeepsOut s0 (execRingDisableComplete p r s) := by
  unfold execRingDisableComplete
  repeat' first
    | with_reducible assumption
    | (with_reducible apply Keeps.ite <;> intro _)
    | with_reducible apply Keeps.next
    | with_reducible apply Keeps.updRing
    | with_reducible apply answerRing_keeps
    | with_reducible exact Keeps.lit (by with_reducible assumption) rfl rfl rfl rfl rfl rfl rfl rfl
    | extract_lets
    | split
    | with_reducible refine Keeps.lit ?_ rfl rfl rfl rfl rfl rfl rfl rfl

theorem execRingPause_keeps (s : State) (h : Keeps s0 s) (p : Port) (f : Fn) (r : RingNo) : KeepsOut s0 (execRingPause p f r s) := by
  unfold execRingPause
  repeat' first
    | with_reducible assumption
    | with_reducible apply Keeps.next
    | with_reducible apply Keeps.updRing
    | with_reducible apply answerRing_keeps
    | with_reducible apply ringOp_keeps
    | intro _ _
    | with_reducible exact Keeps.lit (by with_reducible assumption) rfl rfl rfl rfl rfl rfl rfl rfl
    | with_reducible refine Keeps.lit ?_ rfl rfl rfl rfl rfl rfl rfl rfl

theorem execRingResume_keeps (s : State) (h : Keeps s0 s) (p : Port) (f : Fn) (r : RingNo) : KeepsOut s0 (execRingResume p f r s) := by
  unfold execRingResume
  repeat' first
    | with_reducible assumption
    | with_reducible apply Keeps.next
    | with_reducible apply Keeps.updRing
    | with_reducible apply answerRing_keeps
    | with_reducible apply ringOp_keeps
    | intro _ _
    | with_reducible exact Keeps.lit (by with_reducible assumption) rfl rfl rfl rfl rfl rfl rfl rfl
    | with_reducible refine Keeps.lit ?_ rfl rfl rfl rfl rfl rfl rfl rfl

theorem cqOp_keeps (s : State) (h : Keeps s0 s) (p : Port) (f : Fn) (c : CqNo) (op : Nat) (eff : State → State)
    (he : ∀ t, Keeps s0 t → Keeps s0 (eff t)) : Keeps s0 (State.cqOp s p f c op eff) := by
  unfold State.cqOp
  split
  · exact h
  · split
    · exact he _ (takeRing_keeps _ h _ _ _ _)
    · exact answerRing_keeps _ (takeRing_keeps _ h _ _ _ _) _ _ _

theorem execCqEnable_keeps (s : State) (h : Keeps s0 s) (p : Port) (f : Fn) (c : CqNo) : KeepsOut s0 (execCqEnable p f c s) := by
  unfold execCqEnable
  repeat' first
    | with_reducible assumption
    | with_reducible apply Keeps.next
    | with_reducible apply Keeps.updCq
    | with_reducible apply answerRing_keeps
    | with_reducible apply cqOp_keeps
    | intro _ _
    | with_reducible exact Keeps.lit (by with_reducible assumption) rfl rfl rfl rfl rfl rfl rfl rfl
    | with_reducible refine Keeps.lit ?_ rfl rfl rfl rfl rfl rfl rfl rfl

theorem execCqDisable_keeps (s : State) (h : Keeps s0 s) (p : Port) (f : Fn) (c : CqNo) : KeepsOut s0 (execCqDisable p f c s) := by
  unfold execCqDisable
  repeat' first
    | with_reducible assumption
    | with_reducible apply Keeps.next
    | with_reducible apply Keeps.updCq
    | with_reducible apply cqOp_keeps
    | intro _ _
    | with_reducible exact Keeps.lit (by with_reducible assumption) rfl rfl rfl rfl rfl rfl rfl rfl
    | with_reducible refine Keeps.lit ?_ rfl rfl rfl rfl rfl rfl rfl rfl

theorem execCqDisableComplete_keeps (s : State) (h : Keeps s0 s) (p : Port) (c : CqNo) : KeepsOut s0 (execCqDisableComplete p c s) := by
  unfold execCqDisableComplete
  repeat' first
    | with_reducible assumption
    | (with_reducible apply Keeps.ite <;> intro _)
    | with_reducible apply Keeps.next
    | with_reducible apply Keeps.updCq
    | with_reducible apply answerRing_keeps
    | with_reducible exact Keeps.lit (by with_reducible assumption) rfl rfl rfl rfl rfl rfl rfl rfl
    | split
    | with_reducible refine Keeps.lit ?_ rfl rfl rfl rfl rfl rfl rfl rfl

theorem writeRingRecord_keeps (s : State) (h : Keeps s0 s) (p : Port) (f : Fn) (r : RingNo) (off : Nat) (size : Nat) (v : W64) : Keeps s0 (State.writeRingRecord s p f r off size v) := by
  unfold State.writeRingRecord
  repeat' first
    | with_reducible assumption
    | (with_reducible apply Keeps.ite <;> intro _)
    | with_reducible apply Keeps.updRing
    | with_reducible apply free_keeps
    | with_reducible exact Keeps.lit (by with_reducible assumption) rfl rfl rfl rfl rfl rfl rfl rfl
    | with_reducible refine Keeps.pair (by with_reducible assumption) ?_
    | extract_lets
    | split
    | with_reducible refine Keeps.lit ?_ rfl rfl rfl rfl rfl rfl rfl rfl

theorem writeCqRecord_keeps (s : State) (h : Keeps s0 s) (p : Port) (f : Fn) (c : CqNo) (off : Nat) (size : Nat) (v : W64) : Keeps s0 (State.writeCqRecord s p f c off size v) := by
  unfold State.writeCqRecord
  repeat' first
    | with_reducible assumption
    | (with_reducible apply Keeps.ite <;> intro _)
    | with_reducible apply Keeps.updCq
    | with_reducible exact Keeps.lit (by with_reducible assumption) rfl rfl rfl rfl rfl rfl rfl rfl
    | extract_lets
    | split
    | with_reducible refine Keeps.lit ?_ rfl rfl rfl rfl rfl rfl rfl rfl

theorem execRingRecordWrite_keeps (s : State) (h : Keeps s0 s) (p : Port) (f : Fn) (cq : Bool) (n : RingNo) (off : Nat) (size : Nat) (v : W64) : KeepsOut s0 (execRingRecordWrite p f cq n off size v s) := by
  unfold execRingRecordWrite
  repeat' first
    | with_reducible assumption
    | (with_reducible apply Keeps.ite <;> intro _)
    | with_reducible apply Keeps.next
    | with_reducible apply writeCqRecord_keeps
    | with_reducible apply writeRingRecord_keeps
    | split

end Sys2Proof.Machine
end

