-- ==== Sys2Proof/Laws/KeepsPipeline.lean ====
section
/-!
SUPPORT. What the operations of Machine/Pipeline.lean keep.
-/

namespace Sys2Proof.Machine

open Sys2Proof

variable {s0 : State}

theorem execDescriptorFetch_keeps (s : State) (h : Keeps s0 s) (p : Port) (t : Tag) : KeepsOut s0 (execDescriptorFetch p t s) := by
  unfold execDescriptorFetch
  repeat' first
    | with_reducible assumption
    | (with_reducible apply Keeps.ite <;> intro _)
    | with_reducible apply Keeps.next
    | with_reducible apply Keeps.updCmd
    | with_reducible apply Keeps.updPort
    | with_reducible apply Keeps.updRing
    | with_reducible apply free_keeps
    | (intro x; exact .inl rfl)
    | with_reducible exact Keeps.lit (by with_reducible assumption) rfl rfl rfl rfl rfl rfl rfl rfl
    | with_reducible refine Keeps.pair (by with_reducible assumption) ?_
    | extract_lets
    | split
    | with_reducible refine Keeps.lit ?_ rfl rfl rfl rfl rfl rfl rfl rfl

theorem execOrderingRelease_keeps (s : State) (h : Keeps s0 s) (p : Port) (t : Tag) : KeepsOut s0 (execOrderingRelease p t s) := by
  unfold execOrderingRelease
  repeat' first
    | with_reducible assumption
    | (with_reducible apply Keeps.ite <;> intro _)
    | with_reducible apply Keeps.next
    | with_reducible apply Keeps.updCmd
    | extract_lets
    | split

theorem badRecord_keeps (s : State) (h : Keeps s0 s) (p : Port) (t : Tag) (w : Bool) (va : Nat) (kind : Nat) (quiet : Bool) : Keeps s0 (State.badRecord s p t w va kind quiet) := by
  unfold State.badRecord
  repeat' first
    | with_reducible assumption
    | with_reducible apply Keeps.updCmd
    | with_reducible apply postFault_keeps
    | with_reducible exact Keeps.lit (by with_reducible assumption) rfl rfl rfl rfl rfl rfl rfl rfl
    | with_reducible refine Keeps.lit ?_ rfl rfl rfl rfl rfl rfl rfl rfl

theorem badWord_keeps (s : State) (h : Keeps s0 s) (p : Port) (t : Tag) (w : Bool) (va : Nat) (kind : Nat) : Keeps s0 (State.badWord s p t w va kind) := by
  unfold State.badWord
  repeat' first
    | with_reducible assumption
    | with_reducible apply badRecord_keeps

theorem testWait_keeps (s : State) (h : Keeps s0 s) (p : Port) (t : Tag) : Keeps s0 (State.testWait s p t) := by
  unfold State.testWait
  repeat' first
    | with_reducible assumption
    | (with_reducible apply Keeps.ite <;> intro _)
    | with_reducible apply Keeps.updCmd
    | with_reducible apply badWord_keeps
    | extract_lets
    | split

theorem execSemaphoreWaitMet_keeps (s : State) (h : Keeps s0 s) (p : Port) (t : Tag) : KeepsOut s0 (execSemaphoreWaitMet p t s) := by
  unfold execSemaphoreWaitMet
  repeat' first
    | with_reducible assumption
    | with_reducible apply Keeps.next
    | with_reducible apply testWait_keeps

theorem execSemaphoreRetest_keeps (s : State) (h : Keeps s0 s) : KeepsOut s0 (execSemaphoreRetest s) := by
  unfold execSemaphoreRetest
  repeat' first
    | with_reducible assumption
    | with_reducible apply Keeps.next
    | with_reducible apply testWait_keeps
    | with_reducible refine Keeps.foldl _ ?_ _ fun _ _ _ => ?_

theorem signal_keeps (s : State) (h : Keeps s0 s) (p : Port) (t : Tag) : Keeps s0 (State.signal s p t) := by
  unfold State.signal
  repeat' first
    | with_reducible assumption
    | (with_reducible apply Keeps.ite <;> intro _)
    | with_reducible apply Keeps.hbmWrite
    | with_reducible apply Keeps.updCmd
    | with_reducible apply badWord_keeps
    | with_reducible exact Keeps.lit (by with_reducible assumption) rfl rfl rfl rfl rfl rfl rfl rfl
    | extract_lets
    | split
    | with_reducible refine Keeps.lit ?_ rfl rfl rfl rfl rfl rfl rfl rfl

theorem countCancelled_keeps (s : State) (h : Keeps s0 s) (c : Cmd) (q : Port × Tag × Nat) : Keeps s0 (State.countCancelled s c q) := by
  unfold State.countCancelled
  repeat' first
    | with_reducible assumption
    | (with_reducible apply Keeps.ite <;> intro _)
    | with_reducible apply Keeps.updCmd
    | with_reducible apply free_keeps
    | with_reducible exact Keeps.lit (by with_reducible assumption) rfl rfl rfl rfl rfl rfl rfl rfl
    | with_reducible refine Keeps.pair (by with_reducible assumption) ?_
    | split
    | with_reducible refine Keeps.lit ?_ rfl rfl rfl rfl rfl rfl rfl rfl

theorem releaseTag_keeps (s : State) (h : Keeps s0 s) (p : Port) (t : Tag) : Keeps s0 (State.releaseTag s p t) := by
  unfold State.releaseTag
  repeat' first
    | with_reducible assumption
    | with_reducible apply Keeps.updCmd
    | with_reducible apply countCancelled_keeps
    | with_reducible apply settle_keeps
    | with_reducible refine Keeps.foldl _ ?_ _ fun _ _ _ => ?_
    | extract_lets

theorem discardRecord_keeps (s : State) (h : Keeps s0 s) (p : Port) (t : Tag) (x : Port × CqNo) (err : Bool) : Keeps s0 (State.discardRecord s p t x err) := by
  unfold State.discardRecord
  repeat' first
    | with_reducible assumption
    | (with_reducible apply Keeps.ite <;> intro _)
    | with_reducible apply Keeps.updCq
    | with_reducible apply releaseTag_keeps
    | with_reducible exact Keeps.lit (by with_reducible assumption) rfl rfl rfl rfl rfl rfl rfl rfl
    | split
    | with_reducible refine Keeps.lit ?_ rfl rfl rfl rfl rfl rfl rfl rfl

theorem pageRequest_keeps (s : State) (h : Keeps s0 s) (x : Ctx) (va : Nat) (w : Bool) (wait : PriWait) : Keeps s0 (State.pageRequest s x va w wait) := by
  unfold State.pageRequest
  repeat' first
    | with_reducible assumption
    | with_reducible apply Keeps.emit
    | with_reducible exact Keeps.lit (by with_reducible assumption) rfl rfl rfl rfl rfl rfl rfl rfl
    | with_reducible refine Keeps.lit ?_ rfl rfl rfl rfl rfl rfl rfl rfl
    | extract_lets

theorem putRecord_keeps (s : State) (h : Keeps s0 s) (p : Port) (t : Tag) (x : Port × CqNo) (va : Nat) : Keeps s0 (State.putRecord s p t x va) := by
  unfold State.putRecord
  repeat' first
    | with_reducible assumption
    | (with_reducible apply Keeps.ite <;> intro _)
    | with_reducible apply Keeps.updCq
    | with_reducible apply Keeps.updRing
    | with_reducible apply releaseTag_keeps
    | with_reducible apply storeAt_keeps
    | with_reducible apply raiseCq_keeps
    | with_reducible exact Keeps.lit (by with_reducible assumption) rfl rfl rfl rfl rfl rfl rfl rfl
    | extract_lets
    | split
    | with_reducible refine Keeps.lit ?_ rfl rfl rfl rfl rfl rfl rfl rfl

theorem execCompletionRecordWrite_keeps (s : State) (h : Keeps s0 s) (p : Port) (t : Tag) : KeepsOut s0 (execCompletionRecordWrite p t s) := by
  unfold execCompletionRecordWrite
  repeat' first
    | with_reducible assumption
    | (with_reducible apply Keeps.ite <;> intro _)
    | with_reducible apply Keeps.next
    | with_reducible apply Keeps.updCmd
    | with_reducible apply discardRecord_keeps
    | with_reducible apply pageRequest_keeps
    | with_reducible apply putRecord_keeps
    | with_reducible exact Keeps.lit (by with_reducible assumption) rfl rfl rfl rfl rfl rfl rfl rfl
    | extract_lets
    | split
    | with_reducible refine Keeps.lit ?_ rfl rfl rfl rfl rfl rfl rfl rfl

theorem execMeltComplete_keeps (s : State) (h : Keeps s0 s) (p : Port) (t : Tag) : KeepsOut s0 (execMeltComplete p t s) := by
  unfold execMeltComplete
  repeat' first
    | with_reducible assumption
    | (with_reducible apply Keeps.ite <;> intro _)
    | with_reducible apply Keeps.next
    | with_reducible apply doneCmd_keeps
    | split

end Sys2Proof.Machine
end

