-- ==== Sys2Proof/Laws/KeepsChecks.lean ====
section
/-!
SUPPORT. What the operations of Machine/Checks.lean keep.
-/

namespace Sys2Proof.Machine

open Sys2Proof

variable {s0 : State}

theorem endChecks_keeps (s : State) (h : Keeps s0 s) (p : Port) (t : Tag) (c : Cmd) (st : Nat) : Keeps s0 (State.endChecks s p t c st) := by
  unfold State.endChecks
  repeat' first
    | with_reducible assumption
    | with_reducible apply Keeps.updCmd
    | with_reducible apply endCmd_keeps
    | with_reducible exact Keeps.lit (by with_reducible assumption) rfl rfl rfl rfl rfl rfl rfl rfl
    | with_reducible refine Keeps.lit ?_ rfl rfl rfl rfl rfl rfl rfl rfl

theorem judge_keeps (s : State) (h : Keeps s0 s) (p : Port) (t : Tag) (c : Cmd) : Keeps s0 (State.judge s p t c) := by
  unfold State.judge
  repeat' first
    | with_reducible assumption
    | (with_reducible apply Keeps.ite <;> intro _)
    | with_reducible apply Keeps.updCmd
    | with_reducible apply badWord_keeps
    | with_reducible apply endChecks_keeps
    | with_reducible apply endCmd_keeps
    | extract_lets
    | split

theorem unread_keeps (s : State) (h : Keeps s0 s) (p : Port) (t : Tag) (c : Cmd) (x : XErr) (got : Copies) : Keeps s0 (State.unread s p t c x got) := by
  unfold State.unread
  repeat' first
    | with_reducible assumption
    | (with_reducible apply Keeps.ite <;> intro _)
    | with_reducible apply Keeps.updCmd
    | with_reducible apply endChecks_keeps
    | with_reducible apply badRecord_keeps
    | with_reducible apply pageRequest_keeps
    | with_reducible exact Keeps.lit (by with_reducible assumption) rfl rfl rfl rfl rfl rfl rfl rfl
    | extract_lets
    | split
    | with_reducible refine Keeps.lit ?_ rfl rfl rfl rfl rfl rfl rfl rfl

theorem checks_keeps (s : State) (h : Keeps s0 s) (p : Port) (t : Tag) : Keeps s0 (State.checks s p t) := by
  unfold State.checks
  repeat' first
    | with_reducible assumption
    | (with_reducible apply Keeps.ite <;> intro _)
    | with_reducible apply judge_keeps
    | with_reducible apply endChecks_keeps
    | with_reducible apply unread_keeps
    | with_reducible apply endCmd_keeps
    | extract_lets
    | split

theorem execDescriptorChecks_keeps (s : State) (h : Keeps s0 s) (p : Port) (t : Tag) : KeepsOut s0 (execDescriptorChecks p t s) := by
  unfold execDescriptorChecks
  repeat' first
    | with_reducible assumption
    | (with_reducible apply Keeps.ite <;> intro _)
    | with_reducible apply Keeps.next
    | with_reducible apply checks_keeps
    | split

end Sys2Proof.Machine
end

