-- ==== Sys2Proof/Laws/KeepsScales.lean ====
section
/-!
SUPPORT. What the operations of Machine/Scales.lean keep.
-/

namespace Sys2Proof.Machine

open Sys2Proof

variable {s0 : State}

theorem updScale_keeps (s : State) (h : Keeps s0 s) (q : Part) (n : Nat) (f : ScaleEnt → ScaleEnt) : Keeps s0 (State.updScale s q n f) := by
  unfold State.updScale
  repeat' first
    | with_reducible assumption
    | with_reducible apply Keeps.updPart
    | with_reducible exact Keeps.lit (by with_reducible assumption) rfl rfl rfl rfl rfl rfl rfl rfl
    | with_reducible refine Keeps.lit ?_ rfl rfl rfl rfl rfl rfl rfl rfl

theorem scaleReport_keeps (s : State) (h : Keeps s0 s) (id : Nat) (step : Nat) (mag : Option Int) (sat : Nat) : Keeps s0 (State.scaleReport s id step mag sat) := by
  unfold State.scaleReport
  repeat' first
    | with_reducible assumption
    | (with_reducible apply Keeps.ite <;> intro _)
    | with_reducible apply updScale_keeps
    | split

theorem scaleRead_keeps (s : State) (h : Keeps s0 s) (id : Nat) (step : Nat) : Keeps s0 (State.scaleRead s id step).1 := by
  unfold State.scaleRead
  repeat' first
    | with_reducible assumption
    | (with_reducible apply Keeps.ite <;> intro _)
    | with_reducible apply updScale_keeps
    | with_reducible exact Keeps.lit (by with_reducible assumption) rfl rfl rfl rfl rfl rfl rfl rfl
    | extract_lets
    | split
    | with_reducible refine Keeps.lit ?_ rfl rfl rfl rfl rfl rfl rfl rfl

theorem execScaleTrackerAccess_keeps (s : State) (h : Keeps s0 s) (q : Part) (n : ScaleNo) (step : W32) (report : Option (Option Int × Nat)) : KeepsOut s0 (execScaleTrackerAccess q n step report s) := by
  unfold execScaleTrackerAccess
  repeat' first
    | with_reducible assumption
    | with_reducible apply Keeps.next
    | with_reducible apply updScale_keeps
    | split

theorem updScales_keeps (s : State) (h : Keeps s0 s) (q : Part) (first : Nat) (f : Nat → ScaleEnt → ScaleEnt) (n : Nat) :
    Keeps s0 (State.updScales s q first f n) := by
  induction n with
  | zero => exact h
  | succ n ih => exact updScale_keeps _ ih _ _ _

theorem scaleWork_keeps (s : State) (h : Keeps s0 s) (p : Port) (t : Tag) (c : Cmd) (q : Part) : KeepsOk s0 (State.scaleWork s p t c q) := by
  unfold State.scaleWork
  extract_lets
  split
  · skip
    exact Keeps.bind fun s2 e => (doneCmd_keeps _ (vwrite_keeps _ (updScales_keeps _ h _ _ _ _) _ _ _ _ e) _ _).pure
  · refine Keeps.bind fun b _ => Keeps.pure ?_
    split
    · exact doneCmd_keeps _ (updScales_keeps _ h _ _ _ _) _ _
    · exact endCmd_keeps _ h _ _ _
  · exact (doneCmd_keeps _ (updScales_keeps _ h _ _ _ _) _ _).pure

theorem awaitPage_keeps (s : State) (h : Keeps s0 s) (page : Nat) : Keeps s0 (State.awaitPage s page) := by
  unfold State.awaitPage
  repeat' first
    | with_reducible assumption
    | (with_reducible apply Keeps.ite <;> intro _)
    | with_reducible exact Keeps.lit (by with_reducible assumption) rfl rfl rfl rfl rfl rfl rfl rfl
    | split
    | with_reducible refine Keeps.lit ?_ rfl rfl rfl rfl rfl rfl rfl rfl

theorem orWait_keeps (s : State) (h : Keeps s0 s) (r : Except XErr State) (hr : KeepsOk s0 r) : Keeps s0 (State.orWait s r) := by
  unfold State.orWait
  split
  · exact hr _ rfl
  · split
    · exact awaitPage_keeps _ h _
    · exact h

end Sys2Proof.Machine
end

