-- ==== Sys2Proof/Laws/KeepsSegments.lean ====
section
/-!
SUPPORT. What the operations of Machine/Segments.lean keep.
-/

namespace Sys2Proof.Machine

open Sys2Proof

variable {s0 : State}

theorem rowDone_keeps (s : State) (h : Keeps s0 s) (p : Port) (t : Tag) (e : Eng) (k : SlotNo) : Keeps s0 (State.rowDone s p t e k) := by
  unfold State.rowDone
  repeat' first
    | with_reducible assumption
    | (with_reducible apply Keeps.ite <;> intro _)
    | with_reducible apply Keeps.updSlot
    | with_reducible apply doneCmd_keeps
    | with_reducible exact Keeps.lit (by with_reducible assumption) rfl rfl rfl rfl rfl rfl rfl rfl
    | extract_lets
    | split
    | with_reducible refine Keeps.lit ?_ rfl rfl rfl rfl rfl rfl rfl rfl

theorem beginOn_keeps (s : State) (h : Keeps s0 s) (e : Eng) (k : SlotNo) : Keeps s0 (State.beginOn s e k) := by
  unfold State.beginOn
  repeat' first
    | with_reducible assumption
    | with_reducible apply Keeps.updSlot
    | with_reducible exact Keeps.lit (by with_reducible assumption) rfl rfl rfl rfl rfl rfl rfl rfl
    | with_reducible refine Keeps.lit ?_ rfl rfl rfl rfl rfl rfl rfl rfl

end Sys2Proof.Machine
end

