-- ==== Sys2Proof/Laws/KeepsAdmission.lean ====
section
/-!
SUPPORT. What the operations of Machine/Admission.lean keep.
-/

namespace Sys2Proof.Machine

open Sys2Proof

variable {s0 : State}

theorem readCount_keeps (s : State) (h : Keeps s0 s) (p : Port) (t : Tag) : Keeps s0 (State.readCount s p t) := by
  unfold State.readCount
  repeat' first
    | with_reducible assumption
    | (with_reducible apply Keeps.ite <;> intro _)
    | with_reducible apply Keeps.updCmd
    | with_reducible apply doneCmd_keeps
    | with_reducible apply badRecord_keeps
    | with_reducible apply pageRequest_keeps
    | with_reducible apply endCmd_keeps
    | with_reducible exact Keeps.lit (by with_reducible assumption) rfl rfl rfl rfl rfl rfl rfl rfl
    | extract_lets
    | split
    | with_reducible refine Keeps.lit ?_ rfl rfl rfl rfl rfl rfl rfl rfl

theorem predFalse_keeps (s : State) (h : Keeps s0 s) (p : Port) (t : Tag) : Keeps s0 (State.predFalse s p t) := by
  unfold State.predFalse
  repeat' first
    | with_reducible assumption
    | with_reducible apply Keeps.bump
    | with_reducible apply Keeps.updCmd
    | with_reducible apply doneCmd_keeps
    | with_reducible exact Keeps.lit (by with_reducible assumption) rfl rfl rfl rfl rfl rfl rfl rfl
    | extract_lets
    | split
    | with_reducible refine Keeps.lit ?_ rfl rfl rfl rfl rfl rfl rfl rfl

theorem execPredicateRead_keeps (s : State) (h : Keeps s0 s) (p : Port) (t : Tag) : KeepsOut s0 (execPredicateRead p t s) := by
  unfold execPredicateRead
  repeat' first
    | with_reducible assumption
    | (with_reducible apply Keeps.ite <;> intro _)
    | with_reducible apply Keeps.next
    | with_reducible apply predFalse_keeps
    | with_reducible apply readCount_keeps
    | with_reducible apply badWord_keeps
    | extract_lets
    | split

theorem returned_keeps (s : State) (h : Keeps s0 s) (e : Eng) (i : StreamNo) : Keeps s0 (State.returned s e i) := by
  unfold State.returned
  repeat' first
    | with_reducible assumption
    | with_reducible apply Keeps.updStrm
    | with_reducible apply reclaim_keeps
    | with_reducible refine Keeps.foldl _ ?_ _ fun _ _ _ => ?_
    | extract_lets

theorem refit_keeps (s : State) (h : Keeps s0 s) (e : Eng) (p : Port) (t : Tag) : Keeps s0 (State.refit s e p t) := by
  unfold State.refit
  repeat' first
    | with_reducible assumption
    | (with_reducible apply Keeps.ite <;> intro _)
    | with_reducible apply Keeps.updStrm
    | with_reducible refine Keeps.foldl _ ?_ _ fun _ _ _ => ?_
    | with_reducible exact Keeps.lit (by with_reducible assumption) rfl rfl rfl rfl rfl rfl rfl rfl
    | extract_lets
    | split
    | with_reducible refine Keeps.lit ?_ rfl rfl rfl rfl rfl rfl rfl rfl

theorem testRows_keeps (s : State) (h : Keeps s0 s) (p : Port) (t : Tag) (e : Eng) : Keeps s0 (State.testRows s p t e) := by
  unfold State.testRows
  repeat' first
    | with_reducible assumption
    | (with_reducible apply Keeps.ite <;> intro _)
    | with_reducible apply Keeps.updCmd
    | with_reducible apply refit_keeps
    | with_reducible exact Keeps.lit (by with_reducible assumption) rfl rfl rfl rfl rfl rfl rfl rfl
    | extract_lets
    | split
    | with_reducible refine Keeps.lit ?_ rfl rfl rfl rfl rfl rfl rfl rfl

theorem landReq_keeps (s : State) (h : Keeps s0 s) (e : Eng) (i : StreamNo) (n : Nat) : Keeps s0 (State.landReq s e i n) := by
  unfold State.landReq
  repeat' first
    | with_reducible assumption
    | (with_reducible apply Keeps.ite <;> intro _)
    | with_reducible apply Keeps.bump
    | with_reducible apply Keeps.updCmd
    | with_reducible apply Keeps.updStrm
    | with_reducible apply takeIn_keeps
    | with_reducible apply testRows_keeps
    | with_reducible apply reclaim_keeps
    | with_reducible apply returned_keeps
    | with_reducible refine Keeps.foldl _ ?_ _ fun _ _ _ => ?_
    | with_reducible exact Keeps.lit (by with_reducible assumption) rfl rfl rfl rfl rfl rfl rfl rfl
    | extract_lets
    | split
    | with_reducible refine Keeps.lit ?_ rfl rfl rfl rfl rfl rfl rfl rfl

theorem landOrphan_keeps (s : State) (h : Keeps s0 s) (e : Eng) (i : StreamNo) (n : Nat) : Keeps s0 (State.landOrphan s e i n) := by
  unfold State.landOrphan
  repeat' first
    | with_reducible assumption
    | with_reducible apply Keeps.bump
    | with_reducible apply Keeps.updEng
    | with_reducible exact Keeps.lit (by with_reducible assumption) rfl rfl rfl rfl rfl rfl rfl rfl
    | split
    | with_reducible refine Keeps.lit ?_ rfl rfl rfl rfl rfl rfl rfl rfl

theorem takeFurther_keeps (s : State) (h : Keeps s0 s) (e : Eng) (i : StreamNo) : Keeps s0 (State.takeFurther s e i) := by
  unfold State.takeFurther
  repeat' first
    | with_reducible assumption
    | with_reducible apply Keeps.updStrm
    | with_reducible exact Keeps.lit (by with_reducible assumption) rfl rfl rfl rfl rfl rfl rfl rfl
    | split
    | with_reducible refine Keeps.lit ?_ rfl rfl rfl rfl rfl rfl rfl rfl

theorem reclaim_keeps (s : State) (h : Keeps s0 s) (e : Eng) (i : StreamNo) : Keeps s0 (State.reclaim s e i) := by
  unfold State.reclaim
  repeat' first
    | with_reducible assumption
    | (with_reducible apply Keeps.ite <;> intro _)
    | with_reducible apply Keeps.bump
    | with_reducible apply Keeps.updStrm
    | with_reducible refine Keeps.foldl _ ?_ _ fun _ _ _ => ?_
    | extract_lets
    | split

theorem makeRoom_keeps (s : State) (h : Keeps s0 s) (e : Eng) (kib : Nat) : Keeps s0 (State.makeRoom s e kib) := by
  unfold State.makeRoom
  repeat' first
    | with_reducible assumption
    | (with_reducible apply Keeps.ite <;> intro _)
    | with_reducible apply reclaim_keeps
    | with_reducible refine Keeps.foldl _ ?_ _ fun _ _ _ => ?_
    | split

theorem takeSlot_keeps (s : State) (h : Keeps s0 s) (p : Port) (t : Tag) (c : Cmd) (e : Eng) : Keeps s0 (State.takeSlot s p t c e) := by
  unfold State.takeSlot
  repeat' first
    | with_reducible assumption
    | with_reducible apply Keeps.updEng
    | with_reducible apply Keeps.updStrm
    | with_reducible apply makeRoom_keeps
    | with_reducible refine Keeps.foldl _ ?_ _ fun _ _ _ => ?_
    | with_reducible exact Keeps.lit (by with_reducible assumption) rfl rfl rfl rfl rfl rfl rfl rfl
    | extract_lets
    | split
    | with_reducible refine Keeps.lit ?_ rfl rfl rfl rfl rfl rfl rfl rfl

theorem markPages_keeps (s : State) (h : Keeps s0 s) (p : Port) (t : Tag) (c : Cmd) : Keeps s0 (State.markPages s p t c) := by
  unfold State.markPages
  repeat' first
    | with_reducible assumption
    | with_reducible exact Keeps.lit (by with_reducible assumption) rfl rfl rfl rfl rfl rfl rfl rfl
    | with_reducible refine Keeps.lit ?_ rfl rfl rfl rfl rfl rfl rfl rfl
    | extract_lets

theorem readScales_keeps (l : List Nat) (s : State) (h : Keeps s0 s) (step : Nat) : Keeps s0 (State.readScales s step l).1 := by
  induction l generalizing s with
  | nil => exact h
  | cons i l ih => exact ih _ (scaleRead_keeps _ h _ _)

theorem takeIn_keeps (s : State) (h : Keeps s0 s) (p : Port) (t : Tag) (c : Cmd) (es : List Eng) : Keeps s0 (State.takeIn s p t c es) := by
  unfold State.takeIn
  extract_lets r s1 c1
  have h1 : Keeps s0 s1 := by
    show Keeps s0 (if c.op = 0x0D then r.1.markPages p t c else r.1)
    have hr : Keeps s0 r.1 := readScales_keeps _ _ h _
    clear_value r
    split
    · exact markPages_keeps _ hr _ _ _
    · exact hr
  clear_value s1
  exact Keeps.foldl _ (h1.updCmd _ _ _) _ fun s x hs => takeSlot_keeps _ hs _ _ _ _

theorem keepChoice_keeps (s : State) (h : Keeps s0 s) (p : Port) (t : Tag) (es : List Eng) : Keeps s0 (State.keepChoice s p t es) := by
  unfold State.keepChoice
  repeat' first
    | with_reducible assumption
    | (with_reducible apply Keeps.ite <;> intro _)
    | with_reducible apply Keeps.updCmd
    | with_reducible exact Keeps.lit (by with_reducible assumption) rfl rfl rfl rfl rfl rfl rfl rfl
    | split
    | with_reducible refine Keeps.lit ?_ rfl rfl rfl rfl rfl rfl rfl rfl

theorem execAdmission_keeps (s : State) (h : Keeps s0 s) (p : Port) (t : Tag) : KeepsOut s0 (execAdmission p t s) := by
  unfold execAdmission
  repeat' first
    | with_reducible assumption
    | (with_reducible apply Keeps.ite <;> intro _)
    | with_reducible apply Keeps.next
    | with_reducible apply Keeps.updCmd
    | with_reducible apply takeIn_keeps
    | with_reducible apply postFault_keeps
    | with_reducible apply keepChoice_keeps
    | with_reducible apply pageRequest_keeps
    | with_reducible apply endCmd_keeps
    | with_reducible exact Keeps.lit (by with_reducible assumption) rfl rfl rfl rfl rfl rfl rfl rfl
    | extract_lets
    | split
    | with_reducible refine Keeps.lit ?_ rfl rfl rfl rfl rfl rfl rfl rfl

end Sys2Proof.Machine
end

