-- ==== Sys2Proof/Laws/KeepsGroups.lean ====
section
/-!
SUPPORT. What the operations of Machine/Groups.lean keep.
-/

namespace Sys2Proof.Machine

open Sys2Proof

variable {s0 : State}

theorem bumps_keeps (s : State) (h : Keeps s0 s) (e : Eng) (l : List (Nat × Nat)) : Keeps s0 (State.bumps s e l) := by
  unfold State.bumps
  repeat' first
    | with_reducible assumption
    | (with_reducible apply Keeps.ite <;> intro _)
    | with_reducible apply Keeps.bump
    | with_reducible refine Keeps.foldl _ ?_ _ fun _ _ _ => ?_
    | split

end Sys2Proof.Machine
end

