-- ==== Sys2Proof/Laws/KeepsTiles.lean ====
section
/-!
SUPPORT. What the operations of Machine/Tiles.lean keep.
-/

namespace Sys2Proof.Machine

open Sys2Proof

variable {s0 : State}

theorem putElem_keeps (s : State) (h : Keeps s0 s) (ctx : CtxNo) (base : Nat) (bits : Nat) (i : Nat) (v : Nat) : KeepsOk s0 (State.putElem s ctx base bits i v) := by
  unfold State.putElem
  try dsimp only
  repeat' first
    | with_reducible assumption
    | (with_reducible apply Keeps.ite <;> intro _)
    | with_reducible apply Keeps.pureBind
    | with_reducible apply Keeps.pure
    | with_reducible refine Keeps.bind fun _ _ => ?_
    | with_reducible refine Keeps.map fun _ _ => ?_
    | with_reducible apply Keeps.ok
    | with_reducible exact Keeps.error _
    | with_reducible refine Keeps.ofOk (vwrite_keeps _ ?_ _ _ _) (by with_reducible assumption)
    | with_reducible apply vwrite_keeps
    | extract_lets
    | split

theorem putElems_keeps (l : List (Nat × Nat)) (s : State) (h : Keeps s0 s) (ctx : CtxNo) (base bits : Nat) :
    KeepsOk s0 (State.putElems s ctx base bits l) := by
  induction l generalizing s with
  | nil => exact h.ok
  | cons x l ih =>
    simp only [State.putElems]
    split
    · next s' e => exact ih _ (putElem_keeps _ h _ _ _ _ _ _ e)
    · exact Keeps.error _

theorem putRow_keeps (s : State) (h : Keeps s0 s) (ctx : CtxNo) (x : MM) (r : Nat) (c0 : Nat) (oc : List Nat) (codes : List Nat) : KeepsOk s0 (State.putRow s ctx x r c0 oc codes) := by
  unfold State.putRow
  extract_lets
  split
  · exact h.ok
  · split
    · exact putElems_keeps _ _ h _ _ _
    · exact vwrite_keeps _ h _ _ _

theorem writeAll_keeps (l : List (Nat × List Byte)) (s : State) (h : Keeps s0 s) (ctx : CtxNo) :
    KeepsOk s0 (State.writeAll s ctx l) := by
  induction l generalizing s with
  | nil => exact h.ok
  | cons x l ih =>
    simp only [State.writeAll]
    split
    · next s' e => exact ih _ (vwrite_keeps _ h _ _ _ _ e)
    · exact Keeps.error _

theorem putRows_keeps (l : List (Nat × List Nat)) (s : State) (h : Keeps s0 s) (ctx : CtxNo) (x : MM) (c0 : Nat) (oc : List Nat) :
    KeepsOk s0 (State.putRows s ctx x c0 oc l) := by
  induction l generalizing s with
  | nil => exact h.ok
  | cons y l ih =>
    simp only [State.putRows]
    split
    · next s' e => exact ih _ (putRow_keeps _ h _ _ _ _ _ _ _ e)
    · exact Keeps.error _

theorem finishUnits_keeps (s : State) (h : Keeps s0 s) (p : Port) (t : Tag) : Keeps s0 (State.finishUnits s p t) := by
  unfold State.finishUnits
  repeat' first
    | with_reducible assumption
    | (with_reducible apply Keeps.ite <;> intro _)
    | with_reducible apply doneCmd_keeps
    | extract_lets
    | split

theorem leaveArray_keeps (s : State) (h : Keeps s0 s) (e : Eng) (k : SlotNo) : Keeps s0 (State.leaveArray s e k) := by
  unfold State.leaveArray
  repeat' first
    | with_reducible assumption
    | (with_reducible apply Keeps.ite <;> intro _)
    | with_reducible apply Keeps.updEng
    | with_reducible exact Keeps.lit (by with_reducible assumption) rfl rfl rfl rfl rfl rfl rfl rfl
    | extract_lets
    | split
    | with_reducible refine Keeps.lit ?_ rfl rfl rfl rfl rfl rfl rfl rfl

theorem unitFormed_keeps (s : State) (h : Keeps s0 s) (e : Eng) (k : SlotNo) : Keeps s0 (State.unitFormed s e k) := by
  unfold State.unitFormed
  repeat' first
    | with_reducible assumption
    | (with_reducible apply Keeps.ite <;> intro _)
    | with_reducible apply Keeps.updCmd
    | with_reducible apply Keeps.updSlot
    | with_reducible exact Keeps.lit (by with_reducible assumption) rfl rfl rfl rfl rfl rfl rfl rfl
    | extract_lets
    | split
    | with_reducible refine Keeps.lit ?_ rfl rfl rfl rfl rfl rfl rfl rfl

theorem startDrain_keeps (s : State) (h : Keeps s0 s) (e : Eng) (k : SlotNo) : Keeps s0 (State.startDrain s e k) := by
  unfold State.startDrain
  repeat' first
    | with_reducible assumption
    | (with_reducible apply Keeps.ite <;> intro _)
    | with_reducible apply Keeps.updSlot
    | with_reducible apply updTile_keeps
    | with_reducible apply leaveArray_keeps
    | with_reducible refine Keeps.ofOk1 (drainUnit_keeps _ ?_ _ _ _ _ _ _) (by with_reducible assumption)
    | with_reducible apply drainUnit_keeps
    | with_reducible apply unitFormed_keeps
    | with_reducible exact Keeps.lit (by with_reducible assumption) rfl rfl rfl rfl rfl rfl rfl rfl
    | extract_lets
    | split
    | with_reducible refine Keeps.lit ?_ rfl rfl rfl rfl rfl rfl rfl rfl

theorem endReduction_keeps (s : State) (h : Keeps s0 s) (e : Eng) (k : SlotNo) : Keeps s0 (State.endReduction s e k) := by
  unfold State.endReduction
  repeat' first
    | with_reducible assumption
    | (with_reducible apply Keeps.ite <;> intro _)
    | with_reducible apply Keeps.updSlot
    | with_reducible apply leaveArray_keeps
    | with_reducible apply startDrain_keeps
    | with_reducible apply unitFormed_keeps
    | with_reducible exact Keeps.lit (by with_reducible assumption) rfl rfl rfl rfl rfl rfl rfl rfl
    | extract_lets
    | split
    | with_reducible refine Keeps.lit ?_ rfl rfl rfl rfl rfl rfl rfl rfl

theorem claimBanks_keeps (s : State) (h : Keeps s0 s) (e : Eng) (c : Cmd) (v : Slot) (st : Nat) (u : Nat) : Keeps s0 (State.claimBanks s e c v st u) := by
  unfold State.claimBanks
  repeat' first
    | with_reducible assumption
    | (with_reducible apply Keeps.ite <;> intro _)
    | with_reducible apply Keeps.updEng
    | with_reducible exact Keeps.lit (by with_reducible assumption) rfl rfl rfl rfl rfl rfl rfl rfl
    | extract_lets
    | split
    | with_reducible refine Keeps.lit ?_ rfl rfl rfl rfl rfl rfl rfl rfl

theorem formGroup_keeps (s : State) (h : Keeps s0 s) (e : Eng) (k : SlotNo) : Keeps s0 (State.formGroup s e k) := by
  unfold State.formGroup
  repeat' first
    | with_reducible assumption
    | (with_reducible apply Keeps.ite <;> intro _)
    | with_reducible apply Keeps.updCmd
    | with_reducible apply Keeps.updEng
    | with_reducible apply Keeps.updSlot
    | with_reducible apply updTile_keeps
    | with_reducible apply free_keeps
    | with_reducible apply claimBanks_keeps
    | with_reducible apply endReduction_keeps
    | with_reducible apply bumps_keeps
    | with_reducible exact Keeps.lit (by with_reducible assumption) rfl rfl rfl rfl rfl rfl rfl rfl
    | with_reducible refine Keeps.pair (by with_reducible assumption) ?_
    | extract_lets
    | split
    | with_reducible refine Keeps.lit ?_ rfl rfl rfl rfl rfl rfl rfl rfl

theorem execMatmul_keeps (s : State) (h : Keeps s0 s) (e : Eng) (k : SlotNo) : KeepsOut s0 (execMatmul e k s) := by
  unfold execMatmul
  repeat' first
    | with_reducible assumption
    | (with_reducible apply Keeps.ite <;> intro _)
    | with_reducible apply Keeps.next
    | with_reducible apply formGroup_keeps
    | split

theorem execFused_keeps (s : State) (h : Keeps s0 s) (p : Port) (t : Tag) : KeepsOut s0 (execFused p t s) := by
  unfold execFused
  repeat' first
    | with_reducible assumption
    | (with_reducible apply Keeps.ite <;> intro _)
    | with_reducible apply Keeps.next
    | with_reducible apply formGroup_keeps
    | split

theorem passOn_keeps (s : State) (h : Keeps s0 s) (e : Eng) (k : SlotNo) : Keeps s0 (State.passOn s e k) := by
  unfold State.passOn
  repeat' first
    | with_reducible assumption
    | (with_reducible apply Keeps.ite <;> intro _)
    | with_reducible apply Keeps.updCmd
    | with_reducible apply Keeps.updNamed
    | with_reducible apply Keeps.updSlot
    | with_reducible exact Keeps.lit (by with_reducible assumption) rfl rfl rfl rfl rfl rfl rfl rfl
    | extract_lets
    | split
    | with_reducible refine Keeps.lit ?_ rfl rfl rfl rfl rfl rfl rfl rfl

theorem execGroupEntry_keeps (s : State) (h : Keeps s0 s) (e : Eng) (k : SlotNo) : KeepsOut s0 (execGroupEntry e k s) := by
  unfold execGroupEntry
  repeat' first
    | with_reducible assumption
    | (with_reducible apply Keeps.ite <;> intro _)
    | with_reducible apply Keeps.next
    | with_reducible apply Keeps.updCmd
    | with_reducible apply Keeps.updSlot
    | with_reducible apply updTile_keeps
    | with_reducible apply passOn_keeps
    | with_reducible apply finishUnits_keeps
    | with_reducible apply endReduction_keeps
    | with_reducible exact Keeps.lit (by with_reducible assumption) rfl rfl rfl rfl rfl rfl rfl rfl
    | extract_lets
    | split
    | with_reducible refine Keeps.lit ?_ rfl rfl rfl rfl rfl rfl rfl rfl

/-- Draining a tile. -/
theorem drain_keeps (s : State) (h : Keeps s0 s) (w : View) (c : Cmd) (x : MM) (sr : ScaleRead) (i ct : Nat) (tile : Tile) (d : Drained)
    (e : State.drain s w c x sr i ct tile = .ok d) : Keeps s0 d.state := by
  unfold State.drain at e
  simp only [bind, Except.bind] at e
  repeat' split at e
  all_goals try contradiction
  next s1 e1 _ s2 e2 =>
  injection e with e
  rw [← e]
  exact scaleReport_keeps _ (writeAll_keeps _ _ (putRows_keeps _ _ h _ _ _ _ _ e1) _ _ e2) _ _ _ _

theorem drainUnit_keeps (s : State) (h : Keeps s0 s) (w : View) (c : Cmd) (st u : Nat) (tile : Tile) (cnt : Cnt) :
    KeepsOk1 s0 (State.drainUnit s w c st u tile cnt) := by
  unfold State.drainUnit
  extract_lets
  refine Keeps.bind1 fun a _ => ?_
  obtain ⟨full, parts, c2⟩ := a
  dsimp only
  split
  · exact h.pure1
  · exact Keeps.bind1 fun d e => (drain_keeps _ h _ _ _ _ _ _ _ _ e).pure1

theorem endDrain_keeps (s : State) (h : Keeps s0 s) (e : Eng) (k : SlotNo) : Keeps s0 (State.endDrain s e k) := by
  unfold State.endDrain
  repeat' first
    | with_reducible assumption
    | (with_reducible apply Keeps.ite <;> intro _)
    | with_reducible apply Keeps.updNamed
    | with_reducible apply Keeps.updSlot
    | with_reducible apply startDrain_keeps
    | with_reducible exact Keeps.lit (by with_reducible assumption) rfl rfl rfl rfl rfl rfl rfl rfl
    | extract_lets
    | split
    | with_reducible refine Keeps.lit ?_ rfl rfl rfl rfl rfl rfl rfl rfl

theorem drainSlots_keeps (s : State) (h : Keeps s0 s) (e : Eng) (v : Slot) : Keeps s0 (State.drainSlots s e v) := by
  unfold State.drainSlots
  repeat' first
    | with_reducible assumption
    | (with_reducible apply Keeps.ite <;> intro _)
    | with_reducible apply takeFurther_keeps
    | with_reducible refine Keeps.foldl _ ?_ _ fun _ _ _ => ?_
    | split

theorem execTileDrain_keeps (s : State) (h : Keeps s0 s) (e : Eng) (k : SlotNo) : KeepsOut s0 (execTileDrain e k s) := by
  unfold execTileDrain
  extract_lets v c q b p
  refine Keeps.next (Keeps.ite (fun _ => h) fun _ => Keeps.ite (fun _ => Keeps.ite (fun _ => (h.updPart _ _).updSlot _ _ _) fun _ => h)
    fun _ => Keeps.ite (fun _ => h) fun _ => Keeps.ite (fun _ => drainSlots_keeps _ h _ _) fun _ => orWait_keeps _ h _ ?_)
  intro t e2
  cases e1 : s.drainUnit (s.asLanded e v) c v.drainStage v.drainUnit p.1 p.2 with
  | error _ => rw [e1] at e2; injection e2
  | ok r => 
    rw [e1] at e2
    injection e2 with e2
    rw [← e2]
    exact finishUnits_keeps _ (endDrain_keeps _ ((drainUnit_keeps _ h _ _ _ _ _ _ _ e1).updCmd _ _ _) _ _) _ _

theorem takeTile_keeps (s : State) (h : Keeps s0 s) (e : Eng) (k : SlotNo) (a : Nat) (cont : Bool) : Keeps s0 (State.takeTile s e k a cont) := by
  unfold State.takeTile
  repeat' first
    | with_reducible assumption
    | (with_reducible apply Keeps.ite <;> intro _)
    | with_reducible apply Keeps.updCmd
    | with_reducible apply Keeps.updNamed
    | with_reducible apply Keeps.updSlot
    | with_reducible exact Keeps.lit (by with_reducible assumption) rfl rfl rfl rfl rfl rfl rfl rfl
    | extract_lets
    | split
    | with_reducible refine Keeps.lit ?_ rfl rfl rfl rfl rfl rfl rfl rfl

theorem turnAway_keeps (s : State) (h : Keeps s0 s) (p : Port) (t : Tag) (st : Nat) : Keeps s0 (State.turnAway s p t st) := by
  unfold State.turnAway
  repeat' first
    | with_reducible assumption
    | (with_reducible apply Keeps.ite <;> intro _)
    | with_reducible apply Keeps.updCmd
    | with_reducible apply Keeps.updNamed
    | with_reducible apply Keeps.updSlot
    | with_reducible apply abortCmd_keeps
    | with_reducible refine Keeps.foldl _ ?_ _ fun _ _ _ => ?_
    | with_reducible exact Keeps.lit (by with_reducible assumption) rfl rfl rfl rfl rfl rfl rfl rfl
    | extract_lets
    | split
    | with_reducible refine Keeps.lit ?_ rfl rfl rfl rfl rfl rfl rfl rfl

theorem execNamedTileArrival_keeps (s : State) (h : Keeps s0 s) (e : Eng) (k : SlotNo) : KeepsOut s0 (execNamedTileArrival e k s) := by
  unfold execNamedTileArrival
  repeat' first
    | with_reducible assumption
    | (with_reducible apply Keeps.ite <;> intro _)
    | with_reducible apply Keeps.next
    | with_reducible apply Keeps.updSlot
    | with_reducible apply free_keeps
    | with_reducible apply passOn_keeps
    | with_reducible apply turnAway_keeps
    | with_reducible apply takeTile_keeps
    | with_reducible exact Keeps.lit (by with_reducible assumption) rfl rfl rfl rfl rfl rfl rfl rfl
    | with_reducible refine Keeps.pair (by with_reducible assumption) ?_
    | extract_lets
    | split
    | with_reducible refine Keeps.lit ?_ rfl rfl rfl rfl rfl rfl rfl rfl

end Sys2Proof.Machine
end

