-- ==== Sys2Proof/Laws/KeepsVector.lean ====
section
/-!
SUPPORT. What the operations of Machine/Vector.lean keep.
-/

namespace Sys2Proof.Machine

open Sys2Proof

variable {s0 : State}

theorem doRow_keeps (s : State) (h : Keeps s0 s) (p : Port) (t : Tag) (op : Nat) (f : View → Cmd → Nat → Except XErr State)
    (hf : ∀ w c r, KeepsOk s0 (f w c r)) : Keeps s0 (State.doRow s p t op f) := by
  unfold State.doRow
  split
  · exact h
  · exact orWait_keeps _ h _ (Keeps.map fun s1 e => rowDone_keeps _ (hf _ _ _ _ e) _ _ _ _)

theorem execMove_keeps (s : State) (h : Keeps s0 s) (p : Port) (t : Tag) : KeepsOut s0 (execMove p t s) := by
  unfold execMove
  exact Keeps.next (doRow_keeps _ h _ _ _ _ fun w c r => Keeps.bind fun b _ => vwrite_keeps _ h _ _ _)

theorem convRow_keeps (s : State) (h : Keeps s0 s) (p : Port) (t : Tag) (w : View) (c : Cmd) (r : Nat) : KeepsOk s0 (State.convRow s p t w c r) := by
  unfold State.convRow
  extract_lets
  refine Keeps.bind fun _ _ => ?_
  extract_lets codes cnt jp2 jp
  have hj : ∀ s1, Keeps s0 s1 → KeepsOk s0 (jp s1) := by
    intro s1 h1
    have h2 : ∀ s2, Keeps s0 s2 → KeepsOk s0 (jp2 s2) := fun s2 h2 => (h2.updCmd _ _ _).pure
    show KeepsOk s0 (ite _ _ _)
    clear_value jp2
    split
    · exact Keeps.bind fun _ e => h2 _ (vwrite_keeps _ h1 _ _ _ _ e)
    · exact Keeps.pureBind (h2 _ h1)
  clear_value jp
  split
  · exact Keeps.bind fun _ e => hj _ (vwrite_keeps _ h _ _ _ _ e)
  · exact Keeps.bind fun _ e => hj _ (putElems_keeps _ _ h _ _ _ _ e)

theorem execConvert_keeps (s : State) (h : Keeps s0 s) (p : Port) (t : Tag) : KeepsOut s0 (execConvert p t s) := by
  unfold execConvert
  extract_lets report
  have hr : ∀ s c, Keeps s0 s → Keeps s0 (report s c) := fun s c hs => scaleReport_keeps _ hs _ _ _ _
  clear_value report
  refine Keeps.next (Keeps.ite (fun _ => doneCmd_keeps _ (hr _ _ h) _ _) fun _ => doRow_keeps _ h _ _ _ _ fun w c r => Keeps.bind fun s1 e => ?_)
  have h1 := convRow_keeps _ h _ _ _ _ _ _ e
  refine Keeps.pure ?_
  split
  · exact hr _ _ h1
  · exact h1

/-- A fold of operations that can fail. -/
theorem foldE_keeps {α σ : Type} (π : σ → State) (f : σ → α → Except XErr σ) (a : σ) (l : List α) (h : Keeps s0 (π a))
    (hf : ∀ a x b, Keeps s0 (π a) → f a x = .ok b → Keeps s0 (π b)) (b : σ) (e : foldE f a l = .ok b) : Keeps s0 (π b) := by
  induction l generalizing a with
  | nil => injection e with e; exact e ▸ h
  | cons x l ih =>
    simp only [foldE] at e
    split at e
    · next s' e' => exact ih s' (hf a x s' h e') e
    · injection e

theorem putOuts_keeps (s : State) (h : Keeps s0 s) (c : Cmd) (r : Nat) (col : Nat) (v : VState) :
    KeepsOk s0 (State.putOuts s c r col v) := by
  intro t e
  refine foldE_keeps id _ _ _ h ?_ _ e
  intro a x b ha eb
  dsimp only at eb
  split at eb
  · exact putElem_keeps _ ha _ _ _ _ _ _ eb
  · injection eb with eb; exact eb ▸ ha

theorem vecRow_keeps (s : State) (h : Keeps s0 s) (p : Port) (t : Tag) (w : View) (c : Cmd) (r : Nat) : KeepsOk s0 (State.vecRow s p t w c r) := by
  intro u e
  unfold State.vecRow at e
  cases e1 : foldE (fun (a : State × Cnt) col => do
    let v ← w.vecElem c r col
    let s1 ← a.1.putOuts c r col v
    pure (s1, a.2.add { sat := v.sat, under := v.under })) (s, {}) (List.range (c.f 76 4)) with
  | error x => rw [e1] at e; injection e
  | ok a =>
    rw [e1] at e
    injection e with e
    rw [← e]
    refine Keeps.updCmd (foldE_keeps (·.1) _ _ _ h ?_ _ e1) _ _ _
    intro a x b ha eb
    revert b
    exact Keeps.bind1 fun v _ => Keeps.bind1 fun s1 e => (putOuts_keeps _ ha _ _ _ _ _ e).pure1

theorem execVector_keeps (s : State) (h : Keeps s0 s) (p : Port) (t : Tag) : KeepsOut s0 (execVector p t s) := by
  unfold execVector
  repeat' first
    | with_reducible assumption
    | (with_reducible apply Keeps.ite <;> intro _)
    | with_reducible apply Keeps.next
    | with_reducible refine Keeps.ofOk (vecRow_keeps _ ?_ _ _ _ _ _) (by with_reducible assumption)
    | with_reducible apply vecRow_keeps
    | with_reducible apply doneCmd_keeps
    | with_reducible apply doRow_keeps
    | split

theorem solveOne_keeps (s : State) (h : Keeps s0 s) (p : Port) (t : Tag) (w : View) (c : Cmd) (i : Nat) : KeepsOk s0 (State.solveOne s p t w c i) := by
  unfold State.solveOne
  extract_lets
  refine Keeps.bind fun _ _ => Keeps.bind fun _ _ => ?_
  extract_lets
  exact Keeps.bind fun _ e1 => Keeps.bind fun _ e2 =>
    ((vwrite_keeps _ (vwrite_keeps _ h _ _ _ _ e1) _ _ _ _ e2).updCmd _ _ _).pure

theorem execSolve_keeps (s : State) (h : Keeps s0 s) (p : Port) (t : Tag) : KeepsOut s0 (execSolve p t s) := by
  unfold execSolve
  repeat' first
    | with_reducible assumption
    | with_reducible apply Keeps.next
    | with_reducible refine Keeps.ofOk (solveOne_keeps _ ?_ _ _ _ _ _) (by with_reducible assumption)
    | with_reducible apply solveOne_keeps
    | with_reducible apply doRow_keeps

theorem routeWork_keeps (s : State) (h : Keeps s0 s) (p : Port) (t : Tag) (w : View) (c : Cmd) : KeepsOk s0 (State.routeWork s p t w c) := by
  unfold State.routeWork
  extract_lets
  refine Keeps.bind fun _ _ => ?_
  extract_lets
  exact Keeps.bind fun _ e => (doneCmd_keeps _ (Keeps.foldl _ ((writeAll_keeps _ _ h _ _ e).updCmd _ _ _) _ fun _ _ ht => refit_keeps _ ht _ _ _) _ _).pure

theorem execRoute_keeps (s : State) (h : Keeps s0 s) (p : Port) (t : Tag) : KeepsOut s0 (execRoute p t s) := by
  unfold execRoute
  repeat' first
    | with_reducible assumption
    | with_reducible apply Keeps.next
    | with_reducible apply Keeps.pureBind
    | with_reducible apply Keeps.pure
    | with_reducible refine Keeps.bind fun _ _ => ?_
    | with_reducible refine Keeps.map fun _ _ => ?_
    | with_reducible apply Keeps.ok
    | with_reducible exact Keeps.error _
    | with_reducible apply orWait_keeps
    | with_reducible refine Keeps.ofOk (routeWork_keeps _ ?_ _ _ _ _) (by with_reducible assumption)
    | with_reducible apply routeWork_keeps
    | with_reducible apply beginOn_keeps
    | split

theorem prologue_keeps (s : State) (h : Keeps s0 s) (p : Port) (t : Tag) (c : Cmd) : KeepsOk s0 (State.prologue s p t c) := by
  unfold State.prologue
  extract_lets
  refine Keeps.bind fun _ _ => Keeps.bind fun _ _ => Keeps.bind fun _ _ => Keeps.bind fun _ _ => ?_
  extract_lets
  exact Keeps.bind fun _ e => ((writeAll_keeps _ _ h _ _ e).updCmd _ _ _).pure

theorem updateRow_keeps (s : State) (h : Keeps s0 s) (p : Port) (t : Tag) (w : View) (c : Cmd) (r : Nat) : KeepsOk s0 (State.updateRow s p t w c r) := by
  unfold State.updateRow
  extract_lets
  refine Keeps.bind fun _ _ => ?_
  split
  · exact ((h.bump _ _ _).updCmd _ _ _).pure
  · refine Keeps.bind fun _ _ => ?_
    dsimp only
    have hv : ∀ (x : Except XErr State) (p : Port) (t : Tag) (f : Cmd → Cmd), KeepsOk s0 x →
        KeepsOk s0 (x >>= fun s1 => pure (s1.updCmd p t f)) :=
      fun x p t f hx => Keeps.bind fun s1 e => ((hx s1 e).updCmd _ _ _).pure
    split
    · refine Keeps.bind fun _ _ => Keeps.bind fun _ _ => ?_
      exact hv _ _ _ _ (vwrite_keeps _ h _ _ _)
    · refine Keeps.bind fun _ _ => Keeps.bind fun _ _ => ?_
      exact hv _ _ _ _ (vwrite_keeps _ h _ _ _)

theorem execUpdate_keeps (s : State) (h : Keeps s0 s) (p : Port) (t : Tag) : KeepsOut s0 (execUpdate p t s) := by
  unfold execUpdate
  repeat' first
    | with_reducible assumption
    | (with_reducible apply Keeps.ite <;> intro _)
    | with_reducible apply Keeps.next
    | with_reducible apply Keeps.pureBind
    | with_reducible apply Keeps.pure
    | with_reducible refine Keeps.bind fun _ _ => ?_
    | with_reducible refine Keeps.map fun _ _ => ?_
    | with_reducible apply Keeps.ok
    | with_reducible exact Keeps.error _
    | with_reducible apply orWait_keeps
    | with_reducible refine Keeps.ofOk (updateRow_keeps _ ?_ _ _ _ _ _) (by with_reducible assumption)
    | with_reducible apply updateRow_keeps
    | with_reducible apply beginOn_keeps
    | with_reducible apply doRow_keeps
    | with_reducible refine Keeps.ofOk (prologue_keeps _ ?_ _ _ _) (by with_reducible assumption)
    | with_reducible apply prologue_keeps
    | extract_lets
    | split

theorem execScale_keeps (s : State) (h : Keeps s0 s) (p : Port) (t : Tag) : KeepsOut s0 (execScale p t s) := by
  unfold execScale
  repeat' first
    | with_reducible assumption
    | with_reducible apply Keeps.next
    | with_reducible apply Keeps.pureBind
    | with_reducible apply Keeps.pure
    | with_reducible refine Keeps.bind fun _ _ => ?_
    | with_reducible refine Keeps.map fun _ _ => ?_
    | with_reducible apply Keeps.ok
    | with_reducible exact Keeps.error _
    | with_reducible apply orWait_keeps
    | with_reducible refine Keeps.ofOk (scaleWork_keeps _ ?_ _ _ _ _) (by with_reducible assumption)
    | with_reducible apply scaleWork_keeps
    | split

theorem execSetGroup_keeps (s : State) (h : Keeps s0 s) (p : Port) (t : Tag) : KeepsOut s0 (execSetGroup p t s) := by
  unfold execSetGroup
  repeat' first
    | with_reducible assumption
    | (with_reducible apply Keeps.ite <;> intro _)
    | with_reducible apply Keeps.next
    | with_reducible apply Keeps.pureBind
    | with_reducible apply Keeps.pure
    | with_reducible refine Keeps.bind fun _ _ => ?_
    | with_reducible refine Keeps.map fun _ _ => ?_
    | with_reducible apply Keeps.ok
    | with_reducible exact Keeps.error _
    | with_reducible apply orWait_keeps
    | with_reducible apply postFault_keeps
    | with_reducible apply doneCmd_keeps
    | with_reducible refine Keeps.ofOk (vwrite_keeps _ ?_ _ _ _) (by with_reducible assumption)
    | with_reducible apply vwrite_keeps
    | with_reducible apply endCmd_keeps
    | extract_lets
    | split

end Sys2Proof.Machine
end

