-- ==== Sys2Proof/Laws/KeepsRouting.lean ====
section
/-!
SUPPORT. What the operations of Machine/Routing.lean keep.
-/

namespace Sys2Proof.Machine

open Sys2Proof

variable {s0 : State}

theorem linkFlit_keeps (s : State) (h : Keeps s0 s) (i : PeerPort) (ftype : Nat) (body : List Byte) (o : List Byte → Output) : Keeps s0 (State.linkFlit s i ftype body o) := by
  unfold State.linkFlit
  repeat' first
    | with_reducible assumption
    | (with_reducible apply Keeps.ite <;> intro _)
    | with_reducible apply Keeps.emit
    | with_reducible apply Keeps.updLink
    | extract_lets
    | split

theorem idleGo_keeps (n : Nat) (s : State) (h : Keeps s0 s) (i : PeerPort) : Keeps s0 (State.idleGo i n s) := by
  induction n generalizing s with
  | zero => exact h
  | succ n ih =>
    simp only [State.idleGo]
    split
    · exact h
    · exact ih _ (linkFlit_keeps _ h _ _ _ _)

theorem idleBack_keeps (s : State) (h : Keeps s0 s) (i : PeerPort) : Keeps s0 (State.idleBack s i) := by
  exact idleGo_keeps _ _ h _

theorem pumpGo_keeps (fuel : Nat) (s : State) (h : Keeps s0 s) (i : PeerPort) : Keeps s0 (State.pumpGo i fuel s) := by
  induction fuel generalizing s with
  | zero => exact h
  | succ fuel ih =>
    simp only [State.pumpGo]
    split
    · exact h
    · exact ih _ ((h.updLink _ _).emit _)

theorem pump_keeps (s : State) (h : Keeps s0 s) (i : PeerPort) : Keeps s0 (State.pump s i) := by
  unfold State.pump
  split
  · exact h
  · exact pumpGo_keeps _ _ h _

theorem enqueue_keeps (s : State) (h : Keeps s0 s) (i : PeerPort) (k : Packet) (dl : Bool) : Keeps s0 (State.enqueue s i k dl) := by
  unfold State.enqueue
  repeat' first
    | with_reducible assumption
    | with_reducible apply Keeps.updLink
    | with_reducible apply pump_keeps
    | with_reducible exact Keeps.lit (by with_reducible assumption) rfl rfl rfl rfl rfl rfl rfl rfl
    | with_reducible refine Keeps.lit ?_ rfl rfl rfl rfl rfl rfl rfl rfl

theorem discardPacket_keeps (s : State) (h : Keeps s0 s) : Keeps s0 (State.discardPacket s) := by
  unfold State.discardPacket
  repeat' first
    | with_reducible assumption
    | with_reducible exact Keeps.lit (by with_reducible assumption) rfl rfl rfl rfl rfl rfl rfl rfl
    | with_reducible refine Keeps.lit ?_ rfl rfl rfl rfl rfl rfl rfl rfl

theorem sendOn_keeps (s : State) (h : Keeps s0 s) (k : Packet) (dl : Bool) (from_ : Option Nat) : Keeps s0 (State.sendOn s k dl from_) := by
  unfold State.sendOn
  repeat' first
    | with_reducible assumption
    | (with_reducible apply Keeps.ite <;> intro _)
    | with_reducible apply enqueue_keeps
    | with_reducible apply discardPacket_keeps
    | split

theorem sendPacket_keeps (s : State) (h : Keeps s0 s) (k : Packet) : Keeps s0 (State.sendPacket s k) := by
  unfold State.sendPacket
  repeat' first
    | with_reducible assumption
    | with_reducible apply sendOn_keeps

theorem mapGroups_keeps (s : State) (h : Keeps s0 s) (f : GroupRec → GroupRec) : Keeps s0 (State.mapGroups s f) := by
  unfold State.mapGroups
  repeat' first
    | with_reducible assumption
    | (with_reducible apply Keeps.ite <;> intro _)
    | with_reducible exact Keeps.lit (by with_reducible assumption) rfl rfl rfl rfl rfl rfl rfl rfl
    | split
    | with_reducible refine Keeps.lit ?_ rfl rfl rfl rfl rfl rfl rfl rfl

theorem departEngines_keeps (s : State) (h : Keeps s0 s) (node : Nat) (engines : W64) : Keeps s0 (State.departEngines s node engines) := by
  unfold State.departEngines
  repeat' first
    | with_reducible assumption
    | (with_reducible apply Keeps.ite <;> intro _)
    | with_reducible apply mapGroups_keeps
    | with_reducible refine Keeps.foldl _ ?_ _ fun _ _ _ => ?_
    | split

theorem departNode_keeps (s : State) (h : Keeps s0 s) (node : Nat) : Keeps s0 (State.departNode s node) := by
  unfold State.departNode
  repeat' first
    | with_reducible assumption
    | (with_reducible apply Keeps.ite <;> intro _)
    | with_reducible apply mapGroups_keeps
    | split

theorem flood_keeps (s : State) (h : Keeps s0 s) (r : NoticeRec) (from_ : Option PeerPort) : Keeps s0 (State.flood s r from_) := by
  unfold State.flood
  repeat' first
    | with_reducible assumption
    | (with_reducible apply Keeps.ite <;> intro _)
    | with_reducible apply enqueue_keeps
    | with_reducible refine Keeps.foldl _ ?_ _ fun _ _ _ => ?_
    | split

theorem applyNotice_keeps (s : State) (h : Keeps s0 s) (r : NoticeRec) : Keeps s0 (State.applyNotice s r) := by
  unfold State.applyNotice
  repeat' first
    | with_reducible assumption
    | (with_reducible apply Keeps.ite <;> intro _)
    | with_reducible apply departEngines_keeps
    | with_reducible apply departNode_keeps
    | with_reducible exact Keeps.lit (by with_reducible assumption) rfl rfl rfl rfl rfl rfl rfl rfl
    | extract_lets
    | split
    | with_reducible refine Keeps.lit ?_ rfl rfl rfl rfl rfl rfl rfl rfl

theorem issueNotice_keeps (s : State) (h : Keeps s0 s) (kind : Nat) (port : Nat) (node : Nat) (engines : W64) : Keeps s0 (State.issueNotice s kind port node engines) := by
  unfold State.issueNotice
  repeat' first
    | with_reducible assumption
    | with_reducible apply flood_keeps
    | with_reducible apply applyNotice_keeps
    | with_reducible exact Keeps.lit (by with_reducible assumption) rfl rfl rfl rfl rfl rfl rfl rfl
    | with_reducible refine Keeps.lit ?_ rfl rfl rfl rfl rfl rfl rfl rfl
    | extract_lets

theorem departOwn_keeps (s : State) (h : Keeps s0 s) (engines : W64) : Keeps s0 (State.departOwn s engines) := by
  unfold State.departOwn
  repeat' first
    | with_reducible assumption
    | (with_reducible apply Keeps.ite <;> intro _)
    | with_reducible apply issueNotice_keeps
    | with_reducible apply departEngines_keeps
    | split

theorem reroute_keeps (s : State) (h : Keeps s0 s) (l : List (Packet × Bool)) : Keeps s0 (State.reroute s l) := by
  unfold State.reroute
  repeat' first
    | with_reducible assumption
    | with_reducible apply sendOn_keeps
    | with_reducible refine Keeps.foldl _ ?_ _ fun _ _ _ => ?_

theorem reroutes_keeps (s : State) (h : Keeps s0 s) : Keeps s0 (State.reroutes s) := by
  unfold State.reroutes
  have hf : ∀ (l : List (Fin 6)) (a : State × List Nat), Keeps s0 a.1 → Keeps s0 (l.foldl (fun (a : State × List Nat) i =>
    if (a.1.link i).state ≠ .up then (a.1.updLink i fun l => { l with routeDir := 0xF, unused := false }, a.2)
    else
      match (a.1.peer.dirsOf (a.1.link i).nbrNode).find? fun d => !a.2.contains d with
      | some d => (a.1.updLink i fun l => { l with routeDir := d, unused := false }, a.2 ++ [d])
      | none => (a.1.updLink i fun l => { l with routeDir := 0xF, unused := true }, a.2)) a).1 := by
    intro l
    induction l with
    | nil => exact fun a ha => ha
    | cons x l ih =>
      intro a ha
      refine ih _ ?_
      dsimp only
      split
      · exact ha.updLink _ _
      · split
        · exact ha.updLink _ _
        · exact ha.updLink _ _
  exact hf _ (s, []) h

theorem linkLost_keeps (s : State) (h : Keeps s0 s) (i : PeerPort) (st : LinkState) : Keeps s0 (State.linkLost s i st) := by
  unfold State.linkLost
  repeat' first
    | with_reducible assumption
    | with_reducible apply Keeps.updLink
    | with_reducible apply reroute_keeps
    | with_reducible apply issueNotice_keeps
    | with_reducible apply reroutes_keeps
    | with_reducible exact Keeps.lit (by with_reducible assumption) rfl rfl rfl rfl rfl rfl rfl rfl
    | with_reducible refine Keeps.lit ?_ rfl rfl rfl rfl rfl rfl rfl rfl
    | extract_lets

theorem linkDown_keeps (s : State) (h : Keeps s0 s) (i : PeerPort) : Keeps s0 (State.linkDown s i) := by
  unfold State.linkDown
  repeat' first
    | with_reducible assumption
    | (with_reducible apply Keeps.ite <;> intro _)
    | with_reducible apply Keeps.bump
    | with_reducible apply Keeps.updLink
    | with_reducible apply linkLost_keeps
    | with_reducible apply postErr_keeps
    | with_reducible exact Keeps.lit (by with_reducible assumption) rfl rfl rfl rfl rfl rfl rfl rfl
    | split
    | with_reducible refine Keeps.lit ?_ rfl rfl rfl rfl rfl rfl rfl rfl

theorem receive_keeps (s : State) (h : Keeps s0 s) (i : PeerPort) (k : Packet) (dl : Bool) : KeepsOpt s0 (State.receive s i k dl) := by
  unfold State.receive
  repeat' first
    | with_reducible assumption
    | (with_reducible apply Keeps.ite <;> intro _)
    | with_reducible apply Keeps.some
    | with_reducible exact Keeps.none
    | with_reducible apply Keeps.updLink
    | with_reducible exact Keeps.lit (by with_reducible assumption) rfl rfl rfl rfl rfl rfl rfl rfl
    | split
    | with_reducible refine Keeps.lit ?_ rfl rfl rfl rfl rfl rfl rfl rfl

theorem release_keeps (s : State) (h : Keeps s0 s) (i : PeerPort) (k : Packet) (dl : Bool) : Keeps s0 (State.release s i k dl) := by
  unfold State.release
  repeat' first
    | with_reducible assumption
    | with_reducible apply Keeps.updLink
    | with_reducible apply idleBack_keeps
    | with_reducible exact Keeps.lit (by with_reducible assumption) rfl rfl rfl rfl rfl rfl rfl rfl
    | with_reducible refine Keeps.lit ?_ rfl rfl rfl rfl rfl rfl rfl rfl
    | extract_lets

theorem onPacket_keeps (s : State) (h : Keeps s0 s) (i : PeerPort) (k : Packet) (dl : Bool) (f : State → State × Bool)
    (hf : ∀ t, Keeps s0 t → Keeps s0 (f t).1) : Keeps s0 (State.onPacket s i k dl f) := by
  unfold State.onPacket
  split
  · exact h
  · next s1 e =>
    have h1 := receive_keeps _ h _ _ _ _ e
    split
    · exact linkDown_keeps _ h _
    · extract_lets r
      have hr := hf s1 h1
      show Keeps s0 (if r.2 = true then r.1.idleBack i else r.1.release i k dl)
      have hr' : Keeps s0 r.1 := hr
      clear_value r
      split
      · exact idleBack_keeps _ hr' _
      · exact release_keeps _ hr' _ _ _

theorem answerPacket_keeps (s : State) (h : Keeps s0 s) (k : Packet) (ptype : Nat) (status : Nat) (data : List Byte) : Keeps s0 (State.answerPacket s k ptype status data) := by
  unfold State.answerPacket
  repeat' first
    | with_reducible assumption
    | with_reducible apply sendPacket_keeps

theorem serveWrite_keeps (s : State) (h : Keeps s0 s) (k : Packet) : KeepsOk s0 (State.serveWrite s k) := by
  unfold State.serveWrite
  extract_lets pb s1
  have h1 : Keeps s0 s1 := h.lit rfl rfl rfl rfl rfl rfl rfl rfl
  clear_value s1
  split
  · exact (answerPacket_keeps _ h1 _ _ _ _).ok
  · split
    · next e => exact (answerPacket_keeps _ (vwrite_keeps _ h1 _ _ _ _ e) _ _ _ _).ok
    · split
      · exact Keeps.error _
      · exact (answerPacket_keeps _ h1 _ _ _ _).ok

theorem serveRead_keeps (s : State) (h : Keeps s0 s) (k : Packet) : Keeps s0 (State.serveRead s k) := by
  unfold State.serveRead
  repeat' first
    | with_reducible assumption
    | with_reducible apply answerPacket_keeps
    | extract_lets
    | split

theorem keepPacket_keeps (s : State) (h : Keeps s0 s) (i : PeerPort) (k : Packet) (dl : Bool) : Keeps s0 (State.keepPacket s i k dl) := by
  unfold State.keepPacket
  repeat' first
    | with_reducible assumption
    | with_reducible exact Keeps.lit (by with_reducible assumption) rfl rfl rfl rfl rfl rfl rfl rfl
    | with_reducible refine Keeps.lit ?_ rfl rfl rfl rfl rfl rfl rfl rfl

theorem forward_keeps (s : State) (h : Keeps s0 s) (i : PeerPort) (k : Packet) (dl : Bool) : Keeps s0 (State.forward s i k dl) := by
  unfold State.forward
  repeat' first
    | with_reducible assumption
    | (with_reducible apply Keeps.ite <;> intro _)
    | with_reducible apply Keeps.bump
    | with_reducible apply Keeps.updLink
    | with_reducible apply enqueue_keeps
    | with_reducible apply discardPacket_keeps
    | extract_lets
    | split

theorem atHome_keeps (s : State) (h : Keeps s0 s) (i : PeerPort) (k : Packet) (dl : Bool) (f : State → State × Bool)
    (hf : ∀ t, Keeps s0 t → Keeps s0 (f t).1) : Keeps s0 (State.atHome s i k dl f) := by
  unfold State.atHome
  refine onPacket_keeps _ h _ _ _ _ fun t ht => ?_
  split
  · exact forward_keeps _ ht _ _ _
  · split
    · exact hf t ht
    · exact discardPacket_keeps _ ht

end Sys2Proof.Machine
end

