-- ==== Sys2Proof/Laws/KeepsCollectives.lean ====
section
/-!
SUPPORT. What the operations of Machine/Collectives.lean keep.
-/

namespace Sys2Proof.Machine

open Sys2Proof

variable {s0 : State}

theorem sendUp_keeps (s : State) (h : Keeps s0 s) (c : Cmd) (to_ : Nat) (seg : Nat) (contrib : Nat) (last : Nat) (data : List Byte) : Keeps s0 (State.sendUp s c to_ seg contrib last data) := by
  unfold State.sendUp
  repeat' first
    | with_reducible assumption
    | with_reducible apply sendPacket_keeps

theorem sendDown_keeps (s : State) (h : Keeps s0 s) (c : Cmd) (to_ : Nat) (seg : Nat) (contrib : Nat) (data : List Nat) : Keeps s0 (State.sendDown s c to_ seg contrib data) := by
  unfold State.sendDown
  repeat' first
    | with_reducible assumption
    | with_reducible apply sendPacket_keeps

theorem updColl_keeps (s : State) (h : Keeps s0 s) (p : Port) (t : Tag) (f : CollProg → CollProg) : Keeps s0 (State.updColl s p t f) := by
  unfold State.updColl
  repeat' first
    | with_reducible assumption
    | with_reducible apply Keeps.updCmd
    | with_reducible exact Keeps.lit (by with_reducible assumption) rfl rfl rfl rfl rfl rfl rfl rfl
    | with_reducible refine Keeps.lit ?_ rfl rfl rfl rfl rfl rfl rfl rfl

theorem keepSealed_keeps (s : State) (h : Keeps s0 s) (p : Port) (t : Tag) (ms : List (Nat × List Nat)) (k : Nat) (contrib : Nat) (data : List Nat) : Keeps s0 (State.keepSealed s p t ms k contrib data) := by
  unfold State.keepSealed
  repeat' first
    | with_reducible assumption
    | (with_reducible apply Keeps.ite <;> intro _)
    | with_reducible apply sendDown_keeps
    | with_reducible apply updColl_keeps
    | with_reducible refine Keeps.foldl _ ?_ _ fun _ _ _ => ?_
    | with_reducible exact Keeps.lit (by with_reducible assumption) rfl rfl rfl rfl rfl rfl rfl rfl
    | extract_lets
    | split
    | with_reducible refine Keeps.lit ?_ rfl rfl rfl rfl rfl rfl rfl rfl

theorem sealSeg_keeps (s : State) (h : Keeps s0 s) (p : Port) (t : Tag) (ms : List (Nat × List Nat)) (k : Nat) (contrib : Nat) (data : List Nat) : Keeps s0 (State.sealSeg s p t ms k contrib data) := by
  unfold State.sealSeg
  repeat' first
    | with_reducible assumption
    | (with_reducible apply Keeps.ite <;> intro _)
    | with_reducible apply Keeps.updCmd
    | with_reducible apply keepSealed_keeps
    | with_reducible refine Keeps.foldl _ ?_ _ fun _ _ _ => ?_
    | extract_lets
    | split

theorem passSeg_keeps (s : State) (h : Keeps s0 s) (p : Port) (t : Tag) (ms : List (Nat × List Nat)) (k : Nat) : Keeps s0 (State.passSeg s p t ms k) := by
  unfold State.passSeg
  repeat' first
    | with_reducible assumption
    | (with_reducible apply Keeps.ite <;> intro _)
    | with_reducible apply sealSeg_keeps
    | with_reducible apply sendUp_keeps
    | with_reducible apply updColl_keeps
    | with_reducible exact Keeps.lit (by with_reducible assumption) rfl rfl rfl rfl rfl rfl rfl rfl
    | extract_lets
    | split
    | with_reducible refine Keeps.lit ?_ rfl rfl rfl rfl rfl rfl rfl rfl

theorem foldIn_keeps (s : State) (h : Keeps s0 s) (p : Port) (t : Tag) (k : Nat) (n : Nat) (last : Nat) (own : Bool) (x : List Nat) : Keeps s0 (State.foldIn s p t k n last own x) := by
  unfold State.foldIn
  repeat' first
    | with_reducible assumption
    | with_reducible apply Keeps.updCmd
    | with_reducible exact Keeps.lit (by with_reducible assumption) rfl rfl rfl rfl rfl rfl rfl rfl
    | with_reducible refine Keeps.lit ?_ rfl rfl rfl rfl rfl rfl rfl rfl
    | extract_lets

theorem foldOwn_keeps (s : State) (h : Keeps s0 s) (p : Port) (t : Tag) (ms : List (Nat × List Nat)) (k : Nat) : Keeps s0 (State.foldOwn s p t ms k) := by
  unfold State.foldOwn
  repeat' first
    | with_reducible assumption
    | with_reducible apply foldIn_keeps
    | with_reducible refine Keeps.foldl _ ?_ _ fun _ _ _ => ?_
    | extract_lets

theorem startSegs_keeps (s : State) (h : Keeps s0 s) (p : Port) (t : Tag) (ms : List (Nat × List Nat)) : Keeps s0 (State.startSegs s p t ms) := by
  unfold State.startSegs
  repeat' first
    | with_reducible assumption
    | (with_reducible apply Keeps.ite <;> intro _)
    | with_reducible apply sealSeg_keeps
    | with_reducible apply foldOwn_keeps
    | with_reducible apply sendUp_keeps
    | with_reducible apply passSeg_keeps
    | with_reducible refine Keeps.foldl _ ?_ _ fun _ _ _ => ?_
    | extract_lets
    | split

theorem growStream_keeps (s : State) (h : Keeps s0 s) (p : Port) (t : Tag) (role : Nat) (n : Nat) : Keeps s0 (State.growStream s p t role n) := by
  unfold State.growStream
  repeat' first
    | with_reducible assumption
    | (with_reducible apply Keeps.ite <;> intro _)
    | with_reducible apply Keeps.updStrm
    | with_reducible exact Keeps.lit (by with_reducible assumption) rfl rfl rfl rfl rfl rfl rfl rfl
    | extract_lets
    | split
    | with_reducible refine Keeps.lit ?_ rfl rfl rfl rfl rfl rfl rfl rfl

theorem tellWrite_keeps (s : State) (h : Keeps s0 s) (p : Port) (t : Tag) (k : Nat) (ws : List (Nat × Nat)) : Keeps s0 (State.tellWrite s p t k ws) := by
  unfold State.tellWrite
  repeat' first
    | with_reducible assumption
    | (with_reducible apply Keeps.ite <;> intro _)
    | with_reducible apply updColl_keeps
    | with_reducible apply growStream_keeps
    | with_reducible exact Keeps.lit (by with_reducible assumption) rfl rfl rfl rfl rfl rfl rfl rfl
    | extract_lets
    | split
    | with_reducible refine Keeps.lit ?_ rfl rfl rfl rfl rfl rfl rfl rfl

theorem putDst_keeps (s : State) (h : Keeps s0 s) (p : Port) (t : Tag) (k : Nat) (ws : List (Nat × List Byte)) : Keeps s0 (State.putDst s p t k ws).1 := by
  unfold State.putDst
  extract_lets s1
  have h1 : Keeps s0 s1 := tellWrite_keeps _ h _ _ _ _
  clear_value s1
  split
  · next e => exact writeAll_keeps _ _ h1 _ _ e
  · exact orWait_keeps _ h1 _ (Keeps.error _)

theorem sparseDone_keeps (s : State) (h : Keeps s0 s) (p : Port) (t : Tag) (c : Cmd) (ms : List (Nat × List Nat)) : KeepsOk s0 (State.sparseDone s p t c ms) := by
  unfold State.sparseDone
  extract_lets
  refine Keeps.bind fun _ _ => ?_
  split
  · refine Keeps.bind fun ws _ => ?_
    extract_lets r
    have hr : Keeps s0 r.1 := putDst_keeps _ h _ _ _ _
    clear_value r
    refine Keeps.pure ?_
    split
    · exact doneCmd_keeps _ (hr.updCmd _ _ _) _ _
    · exact hr
  · exact h.pure

theorem sparseStart_keeps (s : State) (h : Keeps s0 s) (p : Port) (t : Tag) (c : Cmd) (ms : List (Nat × List Nat)) : KeepsOk s0 (State.sparseStart s p t c ms) := by
  unfold State.sparseStart
  try dsimp only
  repeat' first
    | with_reducible assumption
    | (with_reducible apply Keeps.ite <;> intro _)
    | with_reducible apply Keeps.pureBind
    | with_reducible apply Keeps.pure
    | with_reducible refine Keeps.bind fun _ _ => ?_
    | with_reducible refine Keeps.map fun _ _ => ?_
    | with_reducible apply Keeps.ok
    | with_reducible exact Keeps.error _
    | with_reducible apply sendUp_keeps
    | with_reducible apply updColl_keeps
    | with_reducible refine Keeps.foldl _ ?_ _ fun _ _ _ => ?_
    | with_reducible exact Keeps.lit (by with_reducible assumption) rfl rfl rfl rfl rfl rfl rfl rfl
    | extract_lets
    | split
    | with_reducible refine Keeps.lit ?_ rfl rfl rfl rfl rfl rfl rfl rfl

theorem drainShare_keeps (s : State) (h : Keeps s0 s) (c : Cmd) (x : MM) (sr : ScaleRead) (tileSat : Nat) (data : List Nat) (lo : Nat) (hi : Nat) : KeepsOk1 s0 (State.drainShare s c x sr tileSat data lo hi) := by
  unfold State.drainShare
  extract_lets
  refine Keeps.bind1 fun _ _ => Keeps.bind1 fun _ _ => ?_
  extract_lets
  refine Keeps.bind1 fun s1 e => ?_
  have h1 : Keeps s0 s1 := by
    refine foldE_keeps id _ _ _ h ?_ _ e
    intro a x b ha eb
    split at eb
    · injection eb with eb; exact eb ▸ ha
    · exact putElems_keeps _ _ ha _ _ _ _ eb
  exact Keeps.bind1 fun s2 e => (scaleReport_keeps _ (writeAll_keeps _ _ h1 _ _ e) _ _ _ _).pure1

theorem finishTiles_keeps (s : State) (h : Keeps s0 s) (c : Cmd) (data : List Nat) (lo : Nat) (hi : Nat) : KeepsOk1 s0 (State.finishTiles s c data lo hi) := by
  unfold State.finishTiles
  extract_lets a es
  have hf : ∀ (t : State) (f : Tile → Tile), Keeps s0 t → Keeps s0 (es.foldl (fun s e => s.updNamed e a f) t) :=
    fun t f ht => Keeps.foldl _ ht _ fun _ _ hs => hs.updNamed _ _ _
  have hk : ∀ x : Except XErr (State × Cnt), KeepsOk1 s0 x →
      KeepsOk1 s0 (x >>= fun d => pure (es.foldl (fun s e => s.updNamed e a fun _ => {}) d.1, d.2)) :=
    fun x hx => Keeps.bind1 fun d e => (hf _ _ (hx d e)).pure1
  split
  · exact (hf _ _ h).pure1
  · split
    · exact hk _ h.pure1
    · exact hk _ (drainShare_keeps _ h _ _ _ _ _ _ _)

theorem writeSeg_keeps (s : State) (h : Keeps s0 s) (p : Port) (t : Tag) (ms : List (Nat × List Nat)) (k : Nat) : Keeps s0 (State.writeSeg s p t ms k) := by
  unfold State.writeSeg
  extract_lets
  rename_i r
  have hr : Keeps s0 r.1 := putDst_keeps _ h _ _ _ _
  clear_value r
  split
  · exact hr
  · exact hr.updCmd _ _ _

theorem relayOn_keeps (s : State) (h : Keeps s0 s) (p : Port) (t : Tag) (ms : List (Nat × List Nat)) : Keeps s0 (State.relayOn s p t ms) := by
  unfold State.relayOn
  repeat' first
    | with_reducible assumption
    | (with_reducible apply Keeps.ite <;> intro _)
    | with_reducible exact Keeps.lit (by with_reducible assumption) rfl rfl rfl rfl rfl rfl rfl rfl
    | extract_lets
    | split
    | with_reducible refine Keeps.lit ?_ rfl rfl rfl rfl rfl rfl rfl rfl

theorem relayDown_keeps (s : State) (h : Keeps s0 s) (k : Packet) (g : GroupRec) : Keeps s0 (State.relayDown s k g) := by
  unfold State.relayDown
  repeat' first
    | with_reducible assumption
    | (with_reducible apply Keeps.ite <;> intro _)
    | with_reducible apply sendPacket_keeps
    | with_reducible refine Keeps.foldl _ ?_ _ fun _ _ _ => ?_
    | with_reducible exact Keeps.lit (by with_reducible assumption) rfl rfl rfl rfl rfl rfl rfl rfl
    | extract_lets
    | split
    | with_reducible refine Keeps.lit ?_ rfl rfl rfl rfl rfl rfl rfl rfl

theorem advanceColl_keeps (s : State) (h : Keeps s0 s) (p : Port) (t : Tag) (ms : List (Nat × List Nat)) : Keeps s0 (State.advanceColl s p t ms) := by
  unfold State.advanceColl
  extract_lets c rank need s1 c1 g held gave final sh s1' s2
  have h1 : Keeps s0 s1 := by
    show Keeps s0 (ite _ _ _)
    split
    · exact h
    · refine Keeps.foldl _ h _ fun s k hs => ?_
      dsimp only
      split
      · exact writeSeg_keeps _ hs _ _ _ _
      · exact hs
  have h1' : Keeps s0 s1' := by
    show Keeps s0 (ite _ _ _)
    split
    · exact tellWrite_keeps _ h1 _ _ _ _
    · exact h1
  have h2 : KeepsOk1 s0 s2 := by
    show KeepsOk1 s0 (ite _ _ _)
    split
    · exact h1'.ok1
    · exact finishTiles_keeps _ h1' _ _ _ _
  clear_value s1 held gave s2 s1'
  split
  · exact h1
  · split
    · exact h1'
    · next s3 n => exact doneCmd_keeps _ (relayOn_keeps _ ((h2 _ rfl).updCmd _ _ _) _ _ _) _ _

theorem goOn_keeps (s : State) (h : Keeps s0 s) (p : Port) (t : Tag) (ms : List (Nat × List Nat)) : Keeps s0 (State.goOn s p t ms) := by
  unfold State.goOn
  extract_lets
  split
  · exact h
  · split
    · exact orWait_keeps _ h _ (sparseDone_keeps _ h _ _ _ _)
    · exact advanceColl_keeps _ h _ _ _

theorem restartColl_keeps (s : State) (h : Keeps s0 s) (p : Port) (t : Tag) (g : GroupRec) : Keeps s0 (State.restartColl s p t g) := by
  unfold State.restartColl
  repeat' first
    | with_reducible assumption
    | (with_reducible apply Keeps.ite <;> intro _)
    | with_reducible apply Keeps.pureBind
    | with_reducible apply Keeps.pure
    | with_reducible refine Keeps.bind fun _ _ => ?_
    | with_reducible refine Keeps.map fun _ _ => ?_
    | with_reducible apply Keeps.ok
    | with_reducible exact Keeps.error _
    | with_reducible apply orWait_keeps
    | with_reducible refine Keeps.ofOk (sparseStart_keeps _ ?_ _ _ _ _) (by with_reducible assumption)
    | with_reducible apply sparseStart_keeps
    | with_reducible apply startSegs_keeps
    | with_reducible apply updColl_keeps
    | with_reducible exact Keeps.lit (by with_reducible assumption) rfl rfl rfl rfl rfl rfl rfl rfl
    | extract_lets
    | split
    | with_reducible refine Keeps.lit ?_ rfl rfl rfl rfl rfl rfl rfl rfl

theorem syncColl_keeps (s : State) (h : Keeps s0 s) (p : Port) (t : Tag) : Keeps s0 (State.syncColl s p t) := by
  unfold State.syncColl
  repeat' first
    | with_reducible assumption
    | (with_reducible apply Keeps.ite <;> intro _)
    | with_reducible apply restartColl_keeps
    | with_reducible apply faultCmd_keeps
    | with_reducible apply sendDown_keeps
    | with_reducible apply startSegs_keeps
    | with_reducible apply updColl_keeps
    | with_reducible refine Keeps.foldl _ ?_ _ fun _ _ _ => ?_
    | with_reducible exact Keeps.lit (by with_reducible assumption) rfl rfl rfl rfl rfl rfl rfl rfl
    | extract_lets
    | split
    | with_reducible refine Keeps.lit ?_ rfl rfl rfl rfl rfl rfl rfl rfl

theorem syncColls_keeps (s : State) (h : Keeps s0 s) : Keeps s0 (State.syncColls s) := by
  unfold State.syncColls
  repeat' first
    | with_reducible assumption
    | with_reducible apply syncColl_keeps
    | with_reducible refine Keeps.foldl _ ?_ _ fun _ _ _ => ?_

theorem takeUp_keeps (s : State) (h : Keeps s0 s) (p : Port) (t : Tag) (g : GroupRec) (k : Packet) : Keeps s0 (State.takeUp s p t g k) := by
  unfold State.takeUp
  repeat' first
    | with_reducible assumption
    | (with_reducible apply Keeps.ite <;> intro _)
    | with_reducible apply restartColl_keeps
    | with_reducible apply sealSeg_keeps
    | with_reducible apply foldIn_keeps
    | with_reducible apply foldOwn_keeps
    | with_reducible apply sendUp_keeps
    | with_reducible apply goOn_keeps
    | with_reducible apply updColl_keeps
    | with_reducible apply passSeg_keeps
    | with_reducible exact Keeps.lit (by with_reducible assumption) rfl rfl rfl rfl rfl rfl rfl rfl
    | extract_lets
    | split
    | with_reducible refine Keeps.lit ?_ rfl rfl rfl rfl rfl rfl rfl rfl

theorem takeDown_keeps (s : State) (h : Keeps s0 s) (p : Port) (t : Tag) (g : GroupRec) (k : Packet) : Keeps s0 (State.takeDown s p t g k) := by
  unfold State.takeDown
  repeat' first
    | with_reducible assumption
    | (with_reducible apply Keeps.ite <;> intro _)
    | with_reducible apply keepSealed_keeps
    | with_reducible apply goOn_keeps
    | extract_lets
    | split

theorem collPacket_keeps (s : State) (h : Keeps s0 s) (i : PeerPort) (k : Packet) (dl : Bool) : Keeps s0 (State.collPacket s i k dl).1 := by
  unfold State.collPacket
  repeat' first
    | with_reducible assumption
    | (with_reducible apply Keeps.ite <;> intro _)
    | with_reducible apply takeUp_keeps
    | with_reducible apply takeDown_keeps
    | with_reducible apply discardPacket_keeps
    | with_reducible apply relayDown_keeps
    | with_reducible apply keepPacket_keeps
    | with_reducible exact Keeps.lit (by with_reducible assumption) rfl rfl rfl rfl rfl rfl rfl rfl
    | split
    | with_reducible refine Keeps.lit ?_ rfl rfl rfl rfl rfl rfl rfl rfl

theorem writePacket_keeps (s : State) (h : Keeps s0 s) (i : PeerPort) (k : Packet) (dl : Bool) : Keeps s0 (State.writePacket s i k dl).1 := by
  unfold State.writePacket
  split
  · next e => exact serveWrite_keeps _ h _ _ e
  · exact keepPacket_keeps _ (awaitPage_keeps _ (h.lit rfl rfl rfl rfl rfl rfl rfl rfl) _) _ _ _

theorem retryWaiting_keeps (s : State) (h : Keeps s0 s) : Keeps s0 (State.retryWaiting s) := by
  unfold State.retryWaiting
  repeat' first
    | with_reducible assumption
    | (with_reducible apply Keeps.ite <;> intro _)
    | with_reducible apply collPacket_keeps
    | with_reducible apply release_keeps
    | with_reducible apply writePacket_keeps
    | with_reducible refine Keeps.foldl _ ?_ _ fun _ _ _ => ?_
    | with_reducible exact Keeps.lit (by with_reducible assumption) rfl rfl rfl rfl rfl rfl rfl rfl
    | with_reducible refine Keeps.pair (by with_reducible assumption) ?_
    | extract_lets
    | split
    | with_reducible refine Keeps.lit ?_ rfl rfl rfl rfl rfl rfl rfl rfl

theorem afterRecords_keeps (s : State) (h : Keeps s0 s) : Keeps s0 (State.afterRecords s) := by
  unfold State.afterRecords
  repeat' first
    | with_reducible assumption
    | with_reducible apply retryWaiting_keeps
    | with_reducible apply syncColls_keeps

theorem activateColl_keeps (s : State) (h : Keeps s0 s) (p : Port) (t : Tag) (g : GroupRec) (inputs : List (List Nat)) : Keeps s0 (State.activateColl s p t g inputs) := by
  unfold State.activateColl
  repeat' first
    | with_reducible assumption
    | (with_reducible apply Keeps.ite <;> intro _)
    | with_reducible apply Keeps.updCmd
    | with_reducible apply Keeps.updEng
    | with_reducible refine Keeps.foldl _ ?_ _ fun _ _ _ => ?_
    | with_reducible exact Keeps.lit (by with_reducible assumption) rfl rfl rfl rfl rfl rfl rfl rfl
    | extract_lets
    | split
    | with_reducible refine Keeps.lit ?_ rfl rfl rfl rfl rfl rfl rfl rfl

/-- What reading tiles as inputs leaves. -/
theorem tileInputs_keeps (s : State) (h : Keeps s0 s) (c : Cmd) (a : Nat) (s1 : State) (ins : List (List Nat)) (n : Cnt)
    (e : State.tileInputs s c a = .ready s1 ins n) : Keeps s0 s1 := by
  unfold State.tileInputs at e
  extract_lets at e
  split at e
  · contradiction
  · split at e
    · contradiction
    · split at e
      · contradiction
      · split at e
        · contradiction
        · injection e with e
          rw [← e]
          exact Keeps.foldl _ h _ fun _ _ hs => hs.updNamed _ _ _

theorem beginColl_keeps (s : State) (h : Keeps s0 s) (p : Port) (t : Tag) : Keeps s0 (State.beginColl s p t) := by
  unfold State.beginColl
  extract_lets c
  split
  · exact faultCmd_keeps _ h _ _
  · split
    · exact faultCmd_keeps _ h _ _
    · split
      · exact h
      · extract_lets ms go
        have hgo : ∀ s' ins, Keeps s0 s' → Keeps s0 (go s' ins) := by
          intro s' ins hs
          have ha := activateColl_keeps s' hs p t
          refine retryWaiting_keeps _ (goOn_keeps _ ?_ _ _ _)
          split
          · exact orWait_keeps _ (ha _ _) _ (sparseStart_keeps _ (ha _ _) _ _ _ _)
          · exact startSegs_keeps _ (ha _ _) _ _ _
        clear_value go
        split
        · split
          · exact h
          · exact abortCmd_keeps _ h _ _ _
          · next e => exact hgo _ _ ((tileInputs_keeps _ h _ _ _ _ _ e).updCmd _ _ _)
        · split
          · exact hgo _ _ h
          · split
            · exact h
            · exact hgo _ _ h

theorem lateRoot_keeps (s : State) (h : Keeps s0 s) (p : Port) (t : Tag) (ms : List (Nat × List Nat)) : Keeps s0 (State.lateRoot s p t ms) := by
  unfold State.lateRoot
  repeat' first
    | with_reducible assumption
    | (with_reducible apply Keeps.ite <;> intro _)
    | with_reducible apply startSegs_keeps
    | with_reducible apply growStream_keeps
    | with_reducible apply updColl_keeps
    | with_reducible exact Keeps.lit (by with_reducible assumption) rfl rfl rfl rfl rfl rfl rfl rfl
    | extract_lets
    | split
    | with_reducible refine Keeps.lit ?_ rfl rfl rfl rfl rfl rfl rfl rfl

theorem execCollective_keeps (s : State) (h : Keeps s0 s) (p : Port) (t : Tag) : KeepsOut s0 (execCollective p t s) := by
  unfold execCollective
  repeat' first
    | with_reducible assumption
    | (with_reducible apply Keeps.ite <;> intro _)
    | with_reducible apply Keeps.next
    | with_reducible apply beginColl_keeps
    | with_reducible apply lateRoot_keeps
    | with_reducible apply goOn_keeps
    | with_reducible apply syncColl_keeps
    | extract_lets
    | split

theorem departColl_keeps (s : State) (h : Keeps s0 s) (c : Cmd) : Keeps s0 (State.departColl s c) := by
  unfold State.departColl
  repeat' first
    | with_reducible assumption
    | (with_reducible apply Keeps.ite <;> intro _)
    | with_reducible apply departOwn_keeps
    | with_reducible refine Keeps.foldl _ ?_ _ fun _ _ _ => ?_
    | extract_lets
    | split

theorem storeHeader_keeps (s : State) (h : Keeps s0 s) (p : Port) (t : Tag) : Keeps s0 (State.storeHeader s p t) := by
  unfold State.storeHeader
  repeat' first
    | with_reducible assumption
    | (with_reducible apply Keeps.ite <;> intro _)
    | with_reducible apply vwriteGo_keeps
    | extract_lets
    | split

theorem execCommandVisibility_keeps (s : State) (h : Keeps s0 s) (p : Port) (t : Tag) : KeepsOut s0 (execCommandVisibility p t s) := by
  unfold execCommandVisibility
  repeat' first
    | with_reducible assumption
    | (with_reducible apply Keeps.ite <;> intro _)
    | with_reducible apply Keeps.next
    | with_reducible apply Keeps.updCmd
    | with_reducible apply awaitPage_keeps
    | with_reducible apply releaseSlots_keeps
    | with_reducible apply afterRecords_keeps
    | with_reducible apply departColl_keeps
    | with_reducible apply signal_keeps
    | with_reducible apply dropSide_keeps
    | with_reducible apply storeHeader_keeps
    | with_reducible apply settle_keeps
    | with_reducible exact Keeps.lit (by with_reducible assumption) rfl rfl rfl rfl rfl rfl rfl rfl
    | split
    | with_reducible refine Keeps.lit ?_ rfl rfl rfl rfl rfl rfl rfl rfl

theorem execCollPacketWaitTimeout_keeps (s : State) (h : Keeps s0 s) (n : Nat) : KeepsOut s0 (execCollPacketWaitTimeout n s) := by
  unfold execCollPacketWaitTimeout
  repeat' first
    | with_reducible assumption
    | (with_reducible apply Keeps.ite <;> intro _)
    | with_reducible apply Keeps.next
    | with_reducible apply release_keeps
    | with_reducible exact Keeps.lit (by with_reducible assumption) rfl rfl rfl rfl rfl rfl rfl rfl
    | split
    | with_reducible refine Keeps.lit ?_ rfl rfl rfl rfl rfl rfl rfl rfl

end Sys2Proof.Machine
end

