-- ==== Sys2Proof/Laws/KeepsLinks.lean ====
section
/-!
SUPPORT. What the operations of Machine/Links.lean keep.
-/

namespace Sys2Proof.Machine

open Sys2Proof

variable {s0 : State}

theorem badFlit_keeps (s : State) (h : Keeps s0 s) (i : PeerPort) : Keeps s0 (State.badFlit s i) := by
  unfold State.badFlit
  repeat' first
    | with_reducible assumption
    | (with_reducible apply Keeps.ite <;> intro _)
    | with_reducible apply Keeps.updLink
    | with_reducible apply linkFlit_keeps
    | with_reducible exact Keeps.lit (by with_reducible assumption) rfl rfl rfl rfl rfl rfl rfl rfl
    | extract_lets
    | split
    | with_reducible refine Keeps.lit ?_ rfl rfl rfl rfl rfl rfl rfl rfl

theorem takePart_keeps (s : State) (h : Keeps s0 s) (i : PeerPort) (l : List (List Byte)) : Keeps s0 (State.takePart s i l) := by
  induction l generalizing s with
  | nil => exact h
  | cons b bs ih =>
    simp only [State.takePart]
    split
    · exact h
    · split
      · exact linkDown_keeps _ h _
      · exact ih _ (h.updLink _ _)

theorem judgeFlit_keeps (s : State) (h : Keeps s0 s) (i : PeerPort) (why : BadFlit) : Keeps s0 (State.judgeFlit s i why) := by
  unfold State.judgeFlit
  repeat' first
    | with_reducible assumption
    | (with_reducible apply Keeps.ite <;> intro _)
    | with_reducible apply Keeps.bump
    | with_reducible apply Keeps.updLink
    | with_reducible apply badFlit_keeps
    | split

theorem execBadFlitReceived_keeps (s : State) (h : Keeps s0 s) (i : PeerPort) (why : BadFlit) : KeepsOut s0 (execBadFlitReceived i why s) := by
  unfold execBadFlitReceived
  repeat' first
    | with_reducible assumption
    | (with_reducible apply Keeps.ite <;> intro _)
    | with_reducible apply Keeps.next
    | with_reducible apply takePart_keeps
    | with_reducible apply judgeFlit_keeps
    | split

theorem resend_keeps (s : State) (h : Keeps s0 s) (i : PeerPort) (fl : List Flit) : Keeps s0 (State.resend s i fl) := by
  unfold State.resend
  repeat' first
    | with_reducible assumption
    | (with_reducible apply Keeps.ite <;> intro _)
    | with_reducible apply Keeps.bump
    | with_reducible apply Keeps.emit
    | with_reducible apply Keeps.updLink
    | with_reducible apply linkDown_keeps
    | with_reducible refine Keeps.foldl _ ?_ _ fun _ _ _ => ?_
    | with_reducible exact Keeps.lit (by with_reducible assumption) rfl rfl rfl rfl rfl rfl rfl rfl
    | extract_lets
    | split
    | with_reducible refine Keeps.lit ?_ rfl rfl rfl rfl rfl rfl rfl rfl

theorem execNak_keeps (s : State) (h : Keeps s0 s) (i : PeerPort) (seq : BitVec 12) : KeepsOut s0 (execNak i seq s) := by
  unfold execNak
  repeat' first
    | with_reducible assumption
    | (with_reducible apply Keeps.ite <;> intro _)
    | with_reducible apply Keeps.next
    | with_reducible apply resend_keeps
    | with_reducible apply after_keeps
    | split

theorem execIdle_keeps (s : State) (h : Keeps s0 s) (i : PeerPort) (ack : Option (BitVec 12)) (credit : W32) : KeepsOut s0 (execIdle i ack credit s) := by
  unfold execIdle
  repeat' first
    | with_reducible assumption
    | (with_reducible apply Keeps.ite <;> intro _)
    | with_reducible apply Keeps.next
    | with_reducible apply Keeps.updLink
    | with_reducible apply pump_keeps
    | extract_lets
    | split

theorem execAckTimeout_keeps (s : State) (h : Keeps s0 s) (i : PeerPort) : KeepsOut s0 (execAckTimeout i s) := by
  unfold execAckTimeout
  repeat' first
    | with_reducible assumption
    | (with_reducible apply Keeps.ite <;> intro _)
    | with_reducible apply Keeps.next
    | with_reducible apply linkDown_keeps
    | with_reducible apply afterRecords_keeps
    | split

theorem execFecLockLost_keeps (s : State) (h : Keeps s0 s) (i : PeerPort) : KeepsOut s0 (execFecLockLost i s) := by
  unfold execFecLockLost
  repeat' first
    | with_reducible assumption
    | with_reducible apply Keeps.next
    | with_reducible apply linkDown_keeps
    | with_reducible apply afterRecords_keeps

theorem execAlignmentCodeword_keeps (s : State) (h : Keeps s0 s) (i : PeerPort) : KeepsOut s0 (execAlignmentCodeword i s) := by
  unfold execAlignmentCodeword
  repeat' first
    | with_reducible assumption
    | (with_reducible apply Keeps.ite <;> intro _)
    | with_reducible apply Keeps.next
    | with_reducible apply Keeps.emit
    | with_reducible apply Keeps.updLink
    | with_reducible exact Keeps.lit (by with_reducible assumption) rfl rfl rfl rfl rfl rfl rfl rfl
    | extract_lets
    | split
    | with_reducible refine Keeps.lit ?_ rfl rfl rfl rfl rfl rfl rfl rfl

theorem train_keeps (s : State) (h : Keeps s0 s) (i : PeerPort) : Keeps s0 (State.train s i) := by
  unfold State.train
  repeat' first
    | with_reducible assumption
    | (with_reducible apply Keeps.ite <;> intro _)
    | with_reducible apply Keeps.updLink
    | with_reducible exact Keeps.lit (by with_reducible assumption) rfl rfl rfl rfl rfl rfl rfl rfl
    | split
    | with_reducible refine Keeps.lit ?_ rfl rfl rfl rfl rfl rfl rfl rfl

theorem failPort_keeps (s : State) (h : Keeps s0 s) (i : PeerPort) : Keeps s0 (State.failPort s i) := by
  unfold State.failPort
  repeat' first
    | with_reducible assumption
    | with_reducible apply Keeps.bump
    | with_reducible apply Keeps.updLink
    | with_reducible exact Keeps.lit (by with_reducible assumption) rfl rfl rfl rfl rfl rfl rfl rfl
    | with_reducible refine Keeps.lit ?_ rfl rfl rfl rfl rfl rfl rfl rfl
    | extract_lets

theorem sendIdent_keeps (s : State) (h : Keeps s0 s) (i : PeerPort) : Keeps s0 (State.sendIdent s i) := by
  unfold State.sendIdent
  repeat' first
    | with_reducible assumption
    | with_reducible apply linkFlit_keeps
    | extract_lets

theorem portUp_keeps (s : State) (h : Keeps s0 s) (i : PeerPort) : Keeps s0 (State.portUp s i) := by
  unfold State.portUp
  repeat' first
    | with_reducible assumption
    | (with_reducible apply Keeps.ite <;> intro _)
    | with_reducible apply Keeps.updLink
    | with_reducible apply resend_keeps
    | with_reducible apply issueNotice_keeps
    | with_reducible apply pump_keeps
    | with_reducible apply reroutes_keeps
    | with_reducible exact Keeps.lit (by with_reducible assumption) rfl rfl rfl rfl rfl rfl rfl rfl
    | extract_lets
    | split
    | with_reducible refine Keeps.lit ?_ rfl rfl rfl rfl rfl rfl rfl rfl

theorem execTrainingStepComplete_keeps (s : State) (h : Keeps s0 s) (i : PeerPort) (lanes : LaneReport) : KeepsOut s0 (execTrainingStepComplete i lanes s) := by
  unfold execTrainingStepComplete
  repeat' first
    | with_reducible assumption
    | (with_reducible apply Keeps.ite <;> intro _)
    | with_reducible apply Keeps.next
    | with_reducible apply Keeps.updLink
    | with_reducible apply sendIdent_keeps
    | with_reducible apply portUp_keeps
    | with_reducible apply afterRecords_keeps
    | with_reducible apply setCauseAll_keeps
    | with_reducible apply failPort_keeps
    | with_reducible exact Keeps.lit (by with_reducible assumption) rfl rfl rfl rfl rfl rfl rfl rfl
    | extract_lets
    | split
    | with_reducible refine Keeps.lit ?_ rfl rfl rfl rfl rfl rfl rfl rfl

theorem execTrainingTimeout_keeps (s : State) (h : Keeps s0 s) (i : PeerPort) : KeepsOut s0 (execTrainingTimeout i s) := by
  unfold execTrainingTimeout
  repeat' first
    | with_reducible assumption
    | with_reducible apply Keeps.next
    | with_reducible apply failPort_keeps
    | split

theorem execIdent_keeps (s : State) (h : Keeps s0 s) (i : PeerPort) (rec : IdentRec) : KeepsOut s0 (execIdent i rec s) := by
  unfold execIdent
  repeat' first
    | with_reducible assumption
    | (with_reducible apply Keeps.ite <;> intro _)
    | with_reducible apply Keeps.next
    | with_reducible apply Keeps.updLink
    | with_reducible apply setCauseAll_keeps
    | with_reducible apply linkFlit_keeps
    | with_reducible apply failPort_keeps
    | with_reducible exact Keeps.lit (by with_reducible assumption) rfl rfl rfl rfl rfl rfl rfl rfl
    | extract_lets
    | split
    | with_reducible refine Keeps.lit ?_ rfl rfl rfl rfl rfl rfl rfl rfl

theorem execIdentAck_keeps (s : State) (h : Keeps s0 s) (i : PeerPort) (node : Nat) : KeepsOut s0 (execIdentAck i node s) := by
  unfold execIdentAck
  repeat' first
    | with_reducible assumption
    | (with_reducible apply Keeps.ite <;> intro _)
    | with_reducible apply Keeps.next
    | with_reducible apply Keeps.updLink
    | with_reducible exact Keeps.lit (by with_reducible assumption) rfl rfl rfl rfl rfl rfl rfl rfl
    | split
    | with_reducible refine Keeps.lit ?_ rfl rfl rfl rfl rfl rfl rfl rfl

theorem execIdentResend_keeps (s : State) (h : Keeps s0 s) (i : PeerPort) : KeepsOut s0 (execIdentResend i s) := by
  unfold execIdentResend
  repeat' first
    | with_reducible assumption
    | (with_reducible apply Keeps.ite <;> intro _)
    | with_reducible apply Keeps.next
    | with_reducible apply sendIdent_keeps
    | split

theorem dropPort_keeps (s : State) (h : Keeps s0 s) (i : PeerPort) (st : LinkState) : Keeps s0 (State.dropPort s i st) := by
  unfold State.dropPort
  repeat' first
    | with_reducible assumption
    | (with_reducible apply Keeps.ite <;> intro _)
    | with_reducible apply Keeps.updLink
    | with_reducible apply linkLost_keeps
    | with_reducible exact Keeps.lit (by with_reducible assumption) rfl rfl rfl rfl rfl rfl rfl rfl
    | split
    | with_reducible refine Keeps.lit ?_ rfl rfl rfl rfl rfl rfl rfl rfl

theorem retrainPort_keeps (s : State) (h : Keeps s0 s) (i : PeerPort) : Keeps s0 (State.retrainPort s i) := by
  unfold State.retrainPort
  repeat' first
    | with_reducible assumption
    | (with_reducible apply Keeps.ite <;> intro _)
    | with_reducible apply Keeps.updLink
    | with_reducible apply train_keeps
    | with_reducible apply dropPort_keeps
    | with_reducible exact Keeps.lit (by with_reducible assumption) rfl rfl rfl rfl rfl rfl rfl rfl
    | extract_lets
    | split
    | with_reducible refine Keeps.lit ?_ rfl rfl rfl rfl rfl rfl rfl rfl

theorem execRetrain_keeps (s : State) (h : Keeps s0 s) (i : PeerPort) : KeepsOut s0 (execRetrain i s) := by
  unfold execRetrain
  repeat' first
    | with_reducible assumption
    | (with_reducible apply Keeps.ite <;> intro _)
    | with_reducible apply Keeps.next
    | with_reducible apply retrainPort_keeps
    | with_reducible apply afterRecords_keeps
    | split

theorem disablePeer_keeps (s : State) (h : Keeps s0 s) (i : PeerPort) : Keeps s0 (State.disablePeer s i) := by
  unfold State.disablePeer
  repeat' first
    | with_reducible assumption
    | with_reducible apply Keeps.updLink
    | with_reducible apply dropPort_keeps
    | with_reducible exact Keeps.lit (by with_reducible assumption) rfl rfl rfl rfl rfl rfl rfl rfl
    | with_reducible refine Keeps.lit ?_ rfl rfl rfl rfl rfl rfl rfl rfl

theorem execPeerPortDisable_keeps (s : State) (h : Keeps s0 s) (i : PeerPort) : KeepsOut s0 (execPeerPortDisable i s) := by
  unfold execPeerPortDisable
  repeat' first
    | with_reducible assumption
    | (with_reducible apply Keeps.ite <;> intro _)
    | with_reducible apply Keeps.next
    | with_reducible apply afterRecords_keeps
    | with_reducible apply disablePeer_keeps
    | split

theorem startPort_keeps (s : State) (h : Keeps s0 s) (i : PeerPort) : Keeps s0 (State.startPort s i) := by
  unfold State.startPort
  repeat' first
    | with_reducible assumption
    | (with_reducible apply Keeps.ite <;> intro _)
    | with_reducible apply Keeps.updLink
    | with_reducible apply train_keeps
    | with_reducible exact Keeps.lit (by with_reducible assumption) rfl rfl rfl rfl rfl rfl rfl rfl
    | extract_lets
    | split
    | with_reducible refine Keeps.lit ?_ rfl rfl rfl rfl rfl rfl rfl rfl

theorem enablePeer_keeps (s : State) (h : Keeps s0 s) (i : PeerPort) : Keeps s0 (State.enablePeer s i) := by
  unfold State.enablePeer
  repeat' first
    | with_reducible assumption
    | with_reducible apply Keeps.updLink
    | with_reducible apply startPort_keeps
    | with_reducible exact Keeps.lit (by with_reducible assumption) rfl rfl rfl rfl rfl rfl rfl rfl
    | with_reducible refine Keeps.lit ?_ rfl rfl rfl rfl rfl rfl rfl rfl

theorem lockedWrite_keeps (s : State) (h : Keeps s0 s) : Keeps s0 (State.lockedWrite s) := by
  unfold State.lockedWrite
  repeat' first
    | with_reducible assumption
    | with_reducible exact Keeps.lit (by with_reducible assumption) rfl rfl rfl rfl rfl rfl rfl rfl
    | with_reducible refine Keeps.lit ?_ rfl rfl rfl rfl rfl rfl rfl rfl

theorem writeNode_keeps (s : State) (h : Keeps s0 s) (v : Nat) : Keeps s0 (State.writeNode s v) := by
  unfold State.writeNode
  repeat' first
    | with_reducible assumption
    | (with_reducible apply Keeps.ite <;> intro _)
    | with_reducible apply startPort_keeps
    | with_reducible apply dropPort_keeps
    | with_reducible apply lockedWrite_keeps
    | with_reducible refine Keeps.foldl _ ?_ _ fun _ _ _ => ?_
    | with_reducible exact Keeps.lit (by with_reducible assumption) rfl rfl rfl rfl rfl rfl rfl rfl
    | extract_lets
    | split
    | with_reducible refine Keeps.lit ?_ rfl rfl rfl rfl rfl rfl rfl rfl

theorem execPeerNodeWrite_keeps (s : State) (h : Keeps s0 s) (value : W64) : KeepsOut s0 (execPeerNodeWrite value s) := by
  unfold execPeerNodeWrite
  repeat' first
    | with_reducible assumption
    | (with_reducible apply Keeps.ite <;> intro _)
    | with_reducible apply Keeps.next
    | with_reducible apply afterRecords_keeps
    | with_reducible apply writeNode_keeps
    | split

theorem execPacketForward_keeps (s : State) (h : Keeps s0 s) (i : PeerPort) (pkt : Packet) (dl : Bool) : KeepsOut s0 (execPacketForward i pkt dl s) := by
  unfold execPacketForward
  repeat' first
    | with_reducible assumption
    | (with_reducible apply Keeps.ite <;> intro _)
    | with_reducible apply Keeps.next
    | with_reducible apply atHome_keeps
    | with_reducible apply afterRecords_keeps
    | intro _ _
    | split

theorem execWrite_keeps (s : State) (h : Keeps s0 s) (i : PeerPort) (pkt : Arrived Packet) : KeepsOut s0 (execWrite i pkt s) := by
  unfold execWrite
  repeat' first
    | with_reducible assumption
    | (with_reducible apply Keeps.ite <;> intro _)
    | with_reducible apply Keeps.next
    | with_reducible apply atHome_keeps
    | with_reducible apply afterRecords_keeps
    | with_reducible apply writePacket_keeps
    | intro _ _
    | with_reducible refine Keeps.pair (by with_reducible assumption) ?_
    | split

theorem execRead_keeps (s : State) (h : Keeps s0 s) (i : PeerPort) (pkt : Arrived Packet) : KeepsOut s0 (execRead i pkt s) := by
  unfold execRead
  repeat' first
    | with_reducible assumption
    | (with_reducible apply Keeps.ite <;> intro _)
    | with_reducible apply Keeps.next
    | with_reducible apply atHome_keeps
    | with_reducible apply serveRead_keeps
    | with_reducible apply afterRecords_keeps
    | intro _ _
    | split

theorem endTxn_keeps (s : State) (h : Keeps s0 s) (x : PeerTxn) (ok : Bool) : Keeps s0 (State.endTxn s x ok) := by
  unfold State.endTxn
  repeat' first
    | with_reducible assumption
    | (with_reducible apply Keeps.ite <;> intro _)
    | with_reducible apply Keeps.updStrm
    | with_reducible apply landReq_keeps
    | with_reducible exact Keeps.lit (by with_reducible assumption) rfl rfl rfl rfl rfl rfl rfl rfl
    | split
    | with_reducible refine Keeps.lit ?_ rfl rfl rfl rfl rfl rfl rfl rfl

theorem takeResponse_keeps (s : State) (h : Keeps s0 s) (k : Packet) (read : Bool) : Keeps s0 (State.takeResponse s k read) := by
  unfold State.takeResponse
  repeat' first
    | with_reducible assumption
    | (with_reducible apply Keeps.ite <;> intro _)
    | with_reducible apply Keeps.bump
    | with_reducible apply Keeps.updCmd
    | with_reducible apply Keeps.updStrm
    | with_reducible apply endTxn_keeps
    | with_reducible apply free_keeps
    | with_reducible apply faultCmd_keeps
    | with_reducible exact Keeps.lit (by with_reducible assumption) rfl rfl rfl rfl rfl rfl rfl rfl
    | with_reducible refine Keeps.pair (by with_reducible assumption) ?_
    | extract_lets
    | split
    | with_reducible refine Keeps.lit ?_ rfl rfl rfl rfl rfl rfl rfl rfl

theorem execWriteAck_keeps (s : State) (h : Keeps s0 s) (i : PeerPort) (pkt : Arrived Packet) : KeepsOut s0 (execWriteAck i pkt s) := by
  unfold execWriteAck
  repeat' first
    | with_reducible assumption
    | (with_reducible apply Keeps.ite <;> intro _)
    | with_reducible apply Keeps.next
    | with_reducible apply atHome_keeps
    | with_reducible apply takeResponse_keeps
    | with_reducible apply afterRecords_keeps
    | intro _ _
    | split

theorem execReadData_keeps (s : State) (h : Keeps s0 s) (i : PeerPort) (pkt : Arrived Packet) : KeepsOut s0 (execReadData i pkt s) := by
  unfold execReadData
  repeat' first
    | with_reducible assumption
    | (with_reducible apply Keeps.ite <;> intro _)
    | with_reducible apply Keeps.next
    | with_reducible apply atHome_keeps
    | with_reducible apply afterRecords_keeps
    | with_reducible apply takeResponse_keeps
    | intro _ _
    | split

theorem execPeerResponseTimeout_keeps (s : State) (h : Keeps s0 s) (txn : W32) : KeepsOut s0 (execPeerResponseTimeout txn s) := by
  unfold execPeerResponseTimeout
  repeat' first
    | with_reducible assumption
    | (with_reducible apply Keeps.ite <;> intro _)
    | with_reducible apply Keeps.next
    | with_reducible apply endTxn_keeps
    | with_reducible apply faultCmd_keeps
    | with_reducible exact Keeps.lit (by with_reducible assumption) rfl rfl rfl rfl rfl rfl rfl rfl
    | extract_lets
    | split
    | with_reducible refine Keeps.lit ?_ rfl rfl rfl rfl rfl rfl rfl rfl

theorem execCollUp_keeps (s : State) (h : Keeps s0 s) (i : PeerPort) (pkt : Arrived Packet) : KeepsOut s0 (execCollUp i pkt s) := by
  unfold execCollUp
  repeat' first
    | with_reducible assumption
    | (with_reducible apply Keeps.ite <;> intro _)
    | with_reducible apply Keeps.next
    | with_reducible apply atHome_keeps
    | with_reducible apply afterRecords_keeps
    | with_reducible apply collPacket_keeps
    | with_reducible apply syncColls_keeps
    | intro _ _
    | with_reducible refine Keeps.pair (by with_reducible assumption) ?_
    | split

theorem execCollDown_keeps (s : State) (h : Keeps s0 s) (i : PeerPort) (pkt : Arrived Packet) : KeepsOut s0 (execCollDown i pkt s) := by
  unfold execCollDown
  repeat' first
    | with_reducible assumption
    | (with_reducible apply Keeps.ite <;> intro _)
    | with_reducible apply Keeps.next
    | with_reducible apply atHome_keeps
    | with_reducible apply afterRecords_keeps
    | with_reducible apply collPacket_keeps
    | with_reducible apply syncColls_keeps
    | intro _ _
    | with_reducible refine Keeps.pair (by with_reducible assumption) ?_
    | split

theorem execNotice_keeps (s : State) (h : Keeps s0 s) (i : PeerPort) (rec : Arrived NoticeRec) : KeepsOut s0 (execNotice i rec s) := by
  unfold execNotice
  apply Keeps.next
  refine afterRecords_keeps _ (onPacket_keeps _ h _ _ _ _ fun t ht => ?_)
  split
  · exact ht
  · exact flood_keeps _ (applyNotice_keeps _ (ht.lit rfl rfl rfl rfl rfl rfl rfl rfl) _) _ _

end Sys2Proof.Machine
end

