-- ==== Sys2Proof/Laws/KeepsLedger.lean ====
section
/-!
SUPPORT. What the operations of Machine/Ledger.lean keep.
-/

namespace Sys2Proof.Machine

open Sys2Proof

variable {s0 : State}

theorem ledger_keeps (s : State) (h : Keeps s0 s) (type : Nat) (unit : Nat) (index : Nat) (op : Nat) (payload : List Byte) : Keeps s0 (State.ledger s type unit index op payload) := by
  unfold State.ledger
  repeat' first
    | with_reducible assumption
    | (with_reducible apply Keeps.ite <;> intro _)
    | with_reducible exact Keeps.lit (by with_reducible assumption) rfl rfl rfl rfl rfl rfl rfl rfl
    | extract_lets
    | split
    | with_reducible refine Keeps.lit ?_ rfl rfl rfl rfl rfl rfl rfl rfl

theorem retire_keeps (s : State) (h : Keeps s0 s) (m : Stack) (page : Nat) (why : Nat) (post : Bool) : Keeps s0 (State.retire s m page why post) := by
  unfold State.retire
  extract_lets k s1 s2
  split
  · exact h
  · have h1 : Keeps s0 s1 := by
      refine h.updStack _ _ ?_ ?_
      · intro x
        dsimp only
        split
        · exact List.prefix_rfl
        · exact List.prefix_append _ _
      · intro x hx
        dsimp only
        split
        · exact hx
        · next hf => simp only [StackMem.full, decide_eq_true_eq] at hf; simp; omega
    clear_value s1
    have h2 : Keeps s0 s2 := by
      show Keeps s0 (ite _ _ _)
      split
      · exact h1
      · exact ledger_keeps _ h1 _ _ _ _ _
    clear_value s2
    split
    · exact postErr_keeps _ h2 _
    · exact h2

theorem confirmRetire_keeps (s : State) (h : Keeps s0 s) (m : Stack) : Keeps s0 (State.confirmRetire s m) := by
  unfold State.confirmRetire
  repeat' first
    | with_reducible assumption
    | with_reducible apply retire_keeps
    | with_reducible refine Keeps.foldl _ ?_ _ fun _ _ _ => ?_

theorem execRetireConfirm_keeps (s : State) (h : Keeps s0 s) (m : Stack) : KeepsOut s0 (execRetireConfirm m s) := by
  unfold execRetireConfirm
  repeat' first
    | with_reducible assumption
    | (with_reducible apply Keeps.ite <;> intro _)
    | with_reducible apply Keeps.next
    | with_reducible apply confirmRetire_keeps
    | split

end Sys2Proof.Machine
end

