-- ==== Sys2Proof/Laws/KeepsSnapshots.lean ====
section
/-!
SUPPORT. What the operations of Machine/Snapshots.lean keep.
-/

namespace Sys2Proof.Machine

open Sys2Proof

variable {s0 : State}

theorem setDown_keeps (s : State) (h : Keeps s0 s) (p : Port) (t : Tag) (e : Eng) (b : List Byte) : Keeps s0 (State.setDown s p t e b) := by
  unfold State.setDown
  repeat' first
    | with_reducible assumption
    | with_reducible apply Keeps.updCmd
    | with_reducible exact Keeps.lit (by with_reducible assumption) rfl rfl rfl rfl rfl rfl rfl rfl
    | with_reducible refine Keeps.lit ?_ rfl rfl rfl rfl rfl rfl rfl rfl

theorem storeImage_keeps (s : State) (h : Keeps s0 s) (p : Port) (t : Tag) (e : Eng) (off : Nat) (b : List Byte) : KeepsOk s0 (State.storeImage s p t e off b) := by
  unfold State.storeImage
  repeat' first
    | with_reducible assumption
    | (with_reducible apply Keeps.ite <;> intro _)
    | with_reducible apply Keeps.pureBind
    | with_reducible apply Keeps.pure
    | with_reducible refine Keeps.bind fun _ _ => ?_
    | with_reducible refine Keeps.map fun _ _ => ?_
    | with_reducible apply Keeps.ok
    | with_reducible exact Keeps.error _
    | with_reducible apply setDown_keeps
    | with_reducible refine Keeps.ofOk (vwrite_keeps _ ?_ _ _ _) (by with_reducible assumption)
    | with_reducible apply vwrite_keeps
    | extract_lets
    | split

theorem unmark_keeps (s : State) (h : Keeps s0 s) (p : Port) (t : Tag) : Keeps s0 (State.unmark s p t) := by
  unfold State.unmark
  repeat' first
    | with_reducible assumption
    | (with_reducible apply Keeps.ite <;> intro _)
    | with_reducible apply retryWaiting_keeps
    | with_reducible exact Keeps.lit (by with_reducible assumption) rfl rfl rfl rfl rfl rfl rfl rfl
    | extract_lets
    | split
    | with_reducible refine Keeps.lit ?_ rfl rfl rfl rfl rfl rfl rfl rfl

theorem readPiece_keeps (s : State) (h : Keeps s0 s) (p : Port) (t : Tag) : KeepsOk s0 (State.readPiece s p t) := by
  unfold State.readPiece
  repeat' first
    | with_reducible assumption
    | with_reducible apply Keeps.pureBind
    | with_reducible apply Keeps.pure
    | with_reducible refine Keeps.bind fun _ _ => ?_
    | with_reducible refine Keeps.map fun _ _ => ?_
    | with_reducible apply Keeps.ok
    | with_reducible exact Keeps.error _
    | with_reducible apply Keeps.updCmd
    | with_reducible apply unmark_keeps
    | with_reducible exact Keeps.lit (by with_reducible assumption) rfl rfl rfl rfl rfl rfl rfl rfl
    | with_reducible refine Keeps.lit ?_ rfl rfl rfl rfl rfl rfl rfl rfl
    | extract_lets

theorem readEarly_keeps (s : State) (h : Keeps s0 s) (p : Port) (t : Tag) (page : Nat) : KeepsOk s0 (State.readEarly s p t page) := by
  unfold State.readEarly
  repeat' first
    | with_reducible assumption
    | with_reducible apply Keeps.pureBind
    | with_reducible apply Keeps.pure
    | with_reducible refine Keeps.bind fun _ _ => ?_
    | with_reducible refine Keeps.map fun _ _ => ?_
    | with_reducible apply Keeps.ok
    | with_reducible exact Keeps.error _
    | with_reducible apply Keeps.updCmd
    | with_reducible apply unmark_keeps
    | with_reducible exact Keeps.lit (by with_reducible assumption) rfl rfl rfl rfl rfl rfl rfl rfl
    | with_reducible refine Keeps.lit ?_ rfl rfl rfl rfl rfl rfl rfl rfl
    | extract_lets

theorem saveSection_keeps (s : State) (h : Keeps s0 s) (p : Port) (t : Tag) (e : Eng) (b : List Byte) : KeepsOk s0 (State.saveSection s p t e b) := by
  unfold State.saveSection
  repeat' first
    | with_reducible assumption
    | (with_reducible apply Keeps.ite <;> intro _)
    | with_reducible apply Keeps.pureBind
    | with_reducible apply Keeps.pure
    | with_reducible refine Keeps.bind fun _ _ => ?_
    | with_reducible refine Keeps.map fun _ _ => ?_
    | with_reducible apply Keeps.ok
    | with_reducible exact Keeps.error _
    | with_reducible apply Keeps.updCmd
    | with_reducible refine Keeps.ofOk (storeImage_keeps _ ?_ _ _ _ _ _) (by with_reducible assumption)
    | with_reducible apply storeImage_keeps
    | with_reducible exact Keeps.lit (by with_reducible assumption) rfl rfl rfl rfl rfl rfl rfl rfl
    | extract_lets
    | split
    | with_reducible refine Keeps.lit ?_ rfl rfl rfl rfl rfl rfl rfl rfl

theorem setHeader_keeps (s : State) (h : Keeps s0 s) (p : Port) (t : Tag) (e : Eng) : Keeps s0 (State.setHeader s p t e) := by
  unfold State.setHeader
  repeat' first
    | with_reducible assumption
    | (with_reducible apply Keeps.ite <;> intro _)
    | with_reducible apply Keeps.updCmd
    | with_reducible apply setDown_keeps
    | with_reducible exact Keeps.lit (by with_reducible assumption) rfl rfl rfl rfl rfl rfl rfl rfl
    | extract_lets
    | split
    | with_reducible refine Keeps.lit ?_ rfl rfl rfl rfl rfl rfl rfl rfl

theorem execCheckpoint_keeps (s : State) (h : Keeps s0 s) (p : Port) (t : Tag) : KeepsOut s0 (execCheckpoint p t s) := by
  unfold execCheckpoint
  repeat' first
    | with_reducible assumption
    | (with_reducible apply Keeps.ite <;> intro _)
    | with_reducible apply Keeps.next
    | with_reducible apply Keeps.pureBind
    | with_reducible apply Keeps.pure
    | with_reducible refine Keeps.bind fun _ _ => ?_
    | with_reducible refine Keeps.map fun _ _ => ?_
    | with_reducible apply Keeps.ok
    | with_reducible exact Keeps.error _
    | with_reducible apply Keeps.updCmd
    | with_reducible apply orWait_keeps
    | with_reducible refine Keeps.ofOk (readPiece_keeps _ ?_ _ _) (by with_reducible assumption)
    | with_reducible apply readPiece_keeps
    | with_reducible apply doneCmd_keeps
    | with_reducible apply setHeader_keeps
    | with_reducible refine Keeps.ofOk (saveSection_keeps _ ?_ _ _ _ _) (by with_reducible assumption)
    | with_reducible apply saveSection_keeps
    | with_reducible refine Keeps.ofOk (readEarly_keeps _ ?_ _ _ _) (by with_reducible assumption)
    | with_reducible apply readEarly_keeps
    | extract_lets
    | split

theorem restoreScales_keeps (s : State) (h : Keeps s0 s) (c : Cmd) (b : List Byte) : Keeps s0 (State.restoreScales s c b) := by
  unfold State.restoreScales
  repeat' first
    | with_reducible assumption
    | with_reducible apply updScales_keeps
    | with_reducible refine Keeps.foldl _ ?_ _ fun _ _ _ => ?_

theorem restoreGroups_keeps (s : State) (h : Keeps s0 s) (c : Cmd) (b : List Byte) : Keeps s0 (State.restoreGroups s c b) := by
  unfold State.restoreGroups
  repeat' first
    | with_reducible assumption
    | (with_reducible apply Keeps.ite <;> intro _)
    | with_reducible apply Keeps.updEng
    | with_reducible refine Keeps.foldl _ ?_ _ fun _ _ _ => ?_
    | with_reducible exact Keeps.lit (by with_reducible assumption) rfl rfl rfl rfl rfl rfl rfl rfl
    | extract_lets
    | split
    | with_reducible refine Keeps.lit ?_ rfl rfl rfl rfl rfl rfl rfl rfl

theorem writeSection_keeps (s : State) (h : Keeps s0 s) (c : Cmd) (kind : Nat) (src : Nat) (b : List Byte) : KeepsOk s0 (State.writeSection s c kind src b) := by
  unfold State.writeSection
  repeat' first
    | with_reducible assumption
    | (with_reducible apply Keeps.ite <;> intro _)
    | with_reducible apply Keeps.pureBind
    | with_reducible apply Keeps.pure
    | with_reducible refine Keeps.bind fun _ _ => ?_
    | with_reducible refine Keeps.map fun _ _ => ?_
    | with_reducible apply Keeps.ok
    | with_reducible exact Keeps.error _
    | with_reducible apply restoreGroups_keeps
    | with_reducible apply restoreScales_keeps
    | with_reducible refine Keeps.ofOk (vwrite_keeps _ ?_ _ _ _) (by with_reducible assumption)
    | with_reducible apply vwrite_keeps
    | split

theorem spoil_keeps (s : State) (h : Keeps s0 s) (c : Cmd) (k : Nat) : Keeps s0 (State.spoil s c k) := by
  unfold State.spoil
  refine Keeps.foldl _ h _ fun s x h => ?_
  dsimp only
  split
  · next s1 e => exact (writeSection_keeps s h c _ _ _ _ e).same rfl rfl rfl rfl rfl rfl rfl rfl rfl rfl
  · exact h

theorem takeHeader_keeps (s : State) (h : Keeps s0 s) (p : Port) (t : Tag) (h : List Byte) : Keeps s0 (State.takeHeader s p t h) := by
  unfold State.takeHeader
  repeat' first
    | with_reducible assumption
    | (with_reducible apply Keeps.ite <;> intro _)
    | with_reducible apply Keeps.updCmd
    | with_reducible apply refit_keeps
    | with_reducible apply endCmd_keeps
    | with_reducible refine Keeps.foldl _ ?_ _ fun _ _ _ => ?_
    | with_reducible exact Keeps.lit (by with_reducible assumption) rfl rfl rfl rfl rfl rfl rfl rfl
    | extract_lets
    | split
    | with_reducible refine Keeps.lit ?_ rfl rfl rfl rfl rfl rfl rfl rfl

theorem restoreStep_keeps (s : State) (h : Keeps s0 s) (e : Eng) (p : Port) (t : Tag) : KeepsOk s0 (State.restoreStep s e p t) := by
  unfold State.restoreStep
  try dsimp only
  repeat' first
    | with_reducible assumption
    | (with_reducible apply Keeps.ite <;> intro _)
    | with_reducible apply Keeps.pureBind
    | with_reducible apply Keeps.pure
    | with_reducible refine Keeps.bind fun _ _ => ?_
    | with_reducible refine Keeps.map fun _ _ => ?_
    | with_reducible apply Keeps.ok
    | with_reducible exact Keeps.error _
    | with_reducible apply Keeps.updCmd
    | with_reducible apply faultCmd_keeps
    | with_reducible apply doneCmd_keeps
    | with_reducible refine Keeps.ofOk (writeSection_keeps _ ?_ _ _ _ _) (by with_reducible assumption)
    | with_reducible apply writeSection_keeps
    | with_reducible apply takeHeader_keeps
    | with_reducible apply spoil_keeps
    | with_reducible exact Keeps.lit (by with_reducible assumption) rfl rfl rfl rfl rfl rfl rfl rfl
    | extract_lets
    | split
    | with_reducible refine Keeps.lit ?_ rfl rfl rfl rfl rfl rfl rfl rfl

theorem execRestore_keeps (s : State) (h : Keeps s0 s) (p : Port) (t : Tag) : KeepsOut s0 (execRestore p t s) := by
  unfold execRestore
  repeat' first
    | with_reducible assumption
    | with_reducible apply Keeps.next
    | with_reducible apply Keeps.pureBind
    | with_reducible apply Keeps.pure
    | with_reducible refine Keeps.bind fun _ _ => ?_
    | with_reducible refine Keeps.map fun _ _ => ?_
    | with_reducible apply Keeps.ok
    | with_reducible exact Keeps.error _
    | with_reducible apply orWait_keeps
    | with_reducible apply afterRecords_keeps
    | with_reducible refine Keeps.ofOk (restoreStep_keeps _ ?_ _ _ _) (by with_reducible assumption)
    | with_reducible apply restoreStep_keeps
    | split

end Sys2Proof.Machine
end

