-- ==== Sys2Proof/Laws/KeepsSelftest.lean ====
section
/-!
SUPPORT. What the operations of Machine/Selftest.lean keep.
-/

namespace Sys2Proof.Machine

open Sys2Proof

variable {s0 : State}

theorem finishPlan_keeps (s : State) (h : Keeps s0 s) (q : Part) (code : Nat) (margin : Nat) (sref : Int) (payload : List Byte) (lower : Nat) : Keeps s0 (State.finishPlan s q code margin sref payload lower) := by
  unfold State.finishPlan
  repeat' first
    | with_reducible assumption
    | (with_reducible apply Keeps.ite <;> intro _)
    | with_reducible apply Keeps.emit
    | with_reducible apply Keeps.updPart
    | with_reducible apply setCauseAll_keeps
    | with_reducible apply ledger_keeps
    | with_reducible exact Keeps.lit (by with_reducible assumption) rfl rfl rfl rfl rfl rfl rfl rfl
    | extract_lets
    | split
    | with_reducible refine Keeps.lit ?_ rfl rfl rfl rfl rfl rfl rfl rfl

theorem free_keeps (s : State) (h : Keeps s0 s) : Keeps s0 (State.free s).1 := by
  unfold State.free
  repeat' first
    | with_reducible assumption
    | with_reducible exact Keeps.lit (by with_reducible assumption) rfl rfl rfl rfl rfl rfl rfl rfl
    | with_reducible refine Keeps.lit ?_ rfl rfl rfl rfl rfl rfl rfl rfl

theorem makePlan_keeps (s : State) (h : Keeps s0 s) (q : Part) (own : Bool) : Keeps s0 (State.makePlan s q own).1 := by
  unfold State.makePlan
  extract_lets
  rename_i a x r o pl payload
  split
  · exact h.updPart _ _
  · have hr : Keeps s0 r.1 := by
      show Keeps s0 (Prod.fst (α := State) (β := Nat) (match a.slackMin with
        | some v => (s, v)
        | none => (x.1, x.2.toNat % 2 ^ 12)))
      split
      · exact h
      · exact free_keeps _ h
    have hs : Keeps s0 o.1 := free_keeps _ hr
    clear_value r o
    split
    · exact hs.updPart _ _
    · exact finishPlan_keeps _ hs _ _ _ _ _ _

theorem execRailCodeStep_keeps (s : State) (h : Keeps s0 s) (q : Part) : KeepsOut s0 (execRailCodeStep q s) := by
  unfold execRailCodeStep
  repeat' first
    | with_reducible assumption
    | (with_reducible apply Keeps.ite <;> intro _)
    | with_reducible apply Keeps.next
    | with_reducible apply Keeps.updPart
    | with_reducible exact Keeps.lit (by with_reducible assumption) rfl rfl rfl rfl rfl rfl rfl rfl
    | extract_lets
    | split
    | with_reducible refine Keeps.lit ?_ rfl rfl rfl rfl rfl rfl rfl rfl

theorem finishTest_keeps (s : State) (h : Keeps s0 s) (p : Port) (t : Tag) : Keeps s0 (State.finishTest s p t) := by
  unfold State.finishTest
  repeat' first
    | with_reducible assumption
    | (with_reducible apply Keeps.ite <;> intro _)
    | with_reducible apply Keeps.pureBind
    | with_reducible apply Keeps.pure
    | with_reducible refine Keeps.bind fun _ _ => ?_
    | with_reducible refine Keeps.map fun _ _ => ?_
    | with_reducible apply Keeps.ok
    | with_reducible exact Keeps.error _
    | with_reducible apply Keeps.updCmd
    | with_reducible apply orWait_keeps
    | with_reducible apply doneCmd_keeps
    | with_reducible apply ledger_keeps
    | with_reducible refine Keeps.ofOk (vwrite_keeps _ ?_ _ _ _) (by with_reducible assumption)
    | with_reducible apply vwrite_keeps
    | with_reducible refine Keeps.foldl _ ?_ _ fun _ _ _ => ?_
    | with_reducible exact Keeps.lit (by with_reducible assumption) rfl rfl rfl rfl rfl rfl rfl rfl
    | extract_lets
    | split
    | with_reducible refine Keeps.lit ?_ rfl rfl rfl rfl rfl rfl rfl rfl

theorem testOut_keeps (s : State) (h : Keeps s0 s) (p : Port) (t : Tag) (k : Nat) (o : ItemOut) : Keeps s0 (State.testOut s p t k o) := by
  unfold State.testOut
  repeat' first
    | with_reducible assumption
    | with_reducible apply Keeps.updCmd
    | with_reducible apply finishTest_keeps
    | with_reducible exact Keeps.lit (by with_reducible assumption) rfl rfl rfl rfl rfl rfl rfl rfl
    | with_reducible refine Keeps.lit ?_ rfl rfl rfl rfl rfl rfl rfl rfl

theorem itemOut_keeps (s : State) (h : Keeps s0 s) (q : Part) (it : TestItem) (o : ItemOut) : Keeps s0 (State.itemOut s q it o) := by
  unfold State.itemOut
  repeat' first
    | with_reducible assumption
    | (with_reducible apply Keeps.ite <;> intro _)
    | with_reducible apply testOut_keeps
    | split

theorem withdrawTrials_keeps (s : State) (h : Keeps s0 s) (q : Part) (o : ItemOut) : Keeps s0 (State.withdrawTrials s q o) := by
  unfold State.withdrawTrials
  repeat' first
    | with_reducible assumption
    | with_reducible apply Keeps.updPart
    | with_reducible apply itemOut_keeps
    | with_reducible refine Keeps.foldl _ ?_ _ fun _ _ _ => ?_
    | extract_lets

theorem planFor_keeps (s : State) (h : Keeps s0 s) (q : Part) (own : Bool) : Keeps s0 (State.planFor s q own) := by
  unfold State.planFor
  extract_lets r
  have hr : Keeps s0 r.1 := makePlan_keeps _ h _ _
  clear_value r
  split
  · exact withdrawTrials_keeps _ hr _ _
  · exact hr.updPart _ _

theorem planNow_keeps (s : State) (h : Keeps s0 s) (q : Part) : Keeps s0 (State.planNow s q) := by
  unfold State.planNow
  exact planFor_keeps _ h _ _

theorem execReplan_keeps (s : State) (h : Keeps s0 s) (mask : BitVec 8) : KeepsOut s0 (execReplan mask s) := by
  unfold execReplan
  repeat' first
    | with_reducible assumption
    | (with_reducible apply Keeps.ite <;> intro _)
    | with_reducible apply Keeps.next
    | with_reducible apply planNow_keeps
    | with_reducible refine Keeps.foldl _ ?_ _ fun _ _ _ => ?_
    | with_reducible exact Keeps.lit (by with_reducible assumption) rfl rfl rfl rfl rfl rfl rfl rfl
    | split
    | with_reducible refine Keeps.lit ?_ rfl rfl rfl rfl rfl rfl rfl rfl

theorem execPlanTimer_keeps (s : State) (h : Keeps s0 s) (q : Part) : KeepsOut s0 (execPlanTimer q s) := by
  unfold execPlanTimer
  repeat' first
    | with_reducible assumption
    | (with_reducible apply Keeps.ite <;> intro _)
    | with_reducible apply Keeps.next
    | with_reducible apply planNow_keeps
    | extract_lets
    | split

theorem queueItem_keeps (s : State) (h : Keeps s0 s) (p : Port) (t : Tag) (q : Part) : Keeps s0 (State.queueItem s p t q) := by
  unfold State.queueItem
  extract_lets c test put r
  have hp : ∀ t b, Keeps s0 t → Keeps s0 (put t b) := fun t b ht => ht.updPart _ _
  have hr : Keeps s0 r.1 := makePlan_keeps _ h _ _
  clear_value r put
  split
  · split
    · exact testOut_keeps _ (withdrawTrials_keeps _ hr _ _) _ _ _ _
    · exact hp _ _ hr
  · split
    · exact hp _ _ h
    · exact h

theorem execSelftest_keeps (s : State) (h : Keeps s0 s) (p : Port) (t : Tag) : KeepsOut s0 (execSelftest p t s) := by
  unfold execSelftest
  repeat' first
    | with_reducible assumption
    | (with_reducible apply Keeps.ite <;> intro _)
    | with_reducible apply Keeps.next
    | with_reducible apply Keeps.updCmd
    | with_reducible apply finishTest_keeps
    | with_reducible apply queueItem_keeps
    | with_reducible refine Keeps.foldl _ ?_ _ fun _ _ _ => ?_
    | with_reducible exact Keeps.lit (by with_reducible assumption) rfl rfl rfl rfl rfl rfl rfl rfl
    | extract_lets
    | split
    | with_reducible refine Keeps.lit ?_ rfl rfl rfl rfl rfl rfl rfl rfl

theorem execWindowOpen_keeps (s : State) (h : Keeps s0 s) (q : Part) (results : List ItemResult) : KeepsOut s0 (execWindowOpen q results s) := by
  unfold execWindowOpen
  repeat' first
    | with_reducible assumption
    | (with_reducible apply Keeps.ite <;> intro _)
    | with_reducible apply Keeps.next
    | with_reducible apply Keeps.updPart
    | with_reducible refine Keeps.foldl _ ?_ _ fun _ _ _ => ?_
    | with_reducible exact Keeps.lit (by with_reducible assumption) rfl rfl rfl rfl rfl rfl rfl rfl
    | extract_lets
    | split
    | with_reducible refine Keeps.lit ?_ rfl rfl rfl rfl rfl rfl rfl rfl

theorem endTrial_keeps (s : State) (h : Keeps s0 s) (q : Part) (it : TestItem) (fail : Bool) : Keeps s0 (State.endTrial s q it fail).1 := by
  unfold State.endTrial
  extract_lets a
  split
  · exact h
  · next w _ =>
    have h1 : ∀ (t : State) (o : ItemOut) (f g : Partition → Partition), Keeps s0 t →
        Keeps s0 (((t.updPart q f).withdrawTrials q o).updPart q g) := fun t o f g ht =>
      (withdrawTrials_keeps _ (ht.updPart _ _) _ _).updPart _ _
    have h2 : ∀ c : Bool, ∀ t : State, Keeps s0 t → Keeps s0 (if c then t.planFor q a.replanQueued else t) := fun c t ht => by
      split
      · exact planFor_keeps _ ht _ _
      · exact ht
    exact h2 _ _ (h1 _ _ _ _ (finishPlan_keeps _ h _ _ _ _ _ _))

theorem endSweep_keeps (s : State) (h : Keeps s0 s) (q : Part) : Keeps s0 (State.endSweep s q).1 := by
  unfold State.endSweep
  extract_lets a s1
  have h1 : Keeps s0 s1 := h.updPart _ _
  clear_value s1
  split
  · exact h1
  · exact h1.updPart _ _

theorem shutWindow_keeps (s : State) (h : Keeps s0 s) (q : Part) : Keeps s0 (State.shutWindow s q) := by
  unfold State.shutWindow
  repeat' first
    | with_reducible assumption
    | with_reducible apply Keeps.updPart
    | with_reducible exact Keeps.lit (by with_reducible assumption) rfl rfl rfl rfl rfl rfl rfl rfl
    | with_reducible refine Keeps.lit ?_ rfl rfl rfl rfl rfl rfl rfl rfl

theorem breakWindow_keeps (s : State) (h : Keeps s0 s) (q : Part) : Keeps s0 (State.breakWindow s q) := by
  unfold State.breakWindow
  extract_lets a s1 s2 more
  have h1 : Keeps s0 s1 := (shutWindow_keeps _ h _).updPart _ _
  have h2 : Keeps s0 s2 := by
    show Keeps s0 (match a.running.head? with
      | none => s1
      | some it => s1.itemOut q it { result := 3, windows := 1, preempted := it.preempted, failEngines := 0, values := [] })
    split
    · exact h1
    · exact itemOut_keeps _ h1 _ _ _
  clear_value s2
  split
  · exact h
  · split
    · exact planFor_keeps _ h2 _ _
    · exact h2

theorem execPreemptionTimeout_keeps (s : State) (h : Keeps s0 s) (q : Part) : KeepsOut s0 (execPreemptionTimeout q s) := by
  unfold execPreemptionTimeout
  repeat' first
    | with_reducible assumption
    | (with_reducible apply Keeps.ite <;> intro _)
    | with_reducible apply Keeps.next
    | with_reducible apply Keeps.updPart
    | with_reducible exact Keeps.lit (by with_reducible assumption) rfl rfl rfl rfl rfl rfl rfl rfl
    | split
    | with_reducible refine Keeps.lit ?_ rfl rfl rfl rfl rfl rfl rfl rfl

theorem emergency_keeps (s : State) (h : Keeps s0 s) (e : Eng) (monitor : Nat) (slack : Nat) : Keeps s0 (State.emergency s e monitor slack) := by
  unfold State.emergency
  repeat' first
    | with_reducible assumption
    | (with_reducible apply Keeps.ite <;> intro _)
    | with_reducible apply Keeps.updPart
    | with_reducible apply breakWindow_keeps
    | with_reducible apply planNow_keeps
    | with_reducible apply setCauseAll_keeps
    | with_reducible apply ledger_keeps
    | with_reducible exact Keeps.lit (by with_reducible assumption) rfl rfl rfl rfl rfl rfl rfl rfl
    | extract_lets
    | split
    | with_reducible refine Keeps.lit ?_ rfl rfl rfl rfl rfl rfl rfl rfl

theorem sampled_keeps (s : State) (h : Keeps s0 s) (e : Eng) (samples : List Nat) : Keeps s0 (State.sampled s e samples) := by
  unfold State.sampled
  repeat' first
    | with_reducible assumption
    | (with_reducible apply Keeps.ite <;> intro _)
    | with_reducible apply Keeps.updEng
    | with_reducible apply Keeps.updPart
    | with_reducible apply emergency_keeps
    | with_reducible refine Keeps.foldl _ ?_ _ fun _ _ _ => ?_
    | with_reducible exact Keeps.lit (by with_reducible assumption) rfl rfl rfl rfl rfl rfl rfl rfl
    | extract_lets
    | split
    | with_reducible refine Keeps.lit ?_ rfl rfl rfl rfl rfl rfl rfl rfl

theorem execPathDelaySample_keeps (s : State) (h : Keeps s0 s) (e : Eng) (samples : List Nat) : KeepsOut s0 (execPathDelaySample e samples s) := by
  unfold execPathDelaySample
  repeat' first
    | with_reducible assumption
    | with_reducible apply Keeps.next
    | with_reducible apply sampled_keeps

theorem readMonitors_keeps (s : State) (h : Keeps s0 s) (q : Part) (r : ItemResult) : Keeps s0 (State.readMonitors s q r).1 := by
  unfold State.readMonitors
  exact Keeps.foldl _ h _ fun _ _ ht => sampled_keeps _ ht _ _

theorem endItem_keeps (s : State) (h : Keeps s0 s) (q : Part) (it : TestItem) (r : ItemResult) : Keeps s0 (State.endItem s q it r) := by
  unfold State.endItem
  extract_lets o
  split
  · exact itemOut_keeps _ (endTrial_keeps _ h _ _ _) _ _ _
  · have hx := endSweep_keeps _ h q
    split
    · exact itemOut_keeps _ hx _ _ _
    · exact itemOut_keeps _ hx _ _ _
  · exact itemOut_keeps _ (readMonitors_keeps _ h _ _) _ _ _
  · exact itemOut_keeps _ h _ _ _

theorem execWindowClose_keeps (s : State) (h : Keeps s0 s) (q : Part) : KeepsOut s0 (execWindowClose q s) := by
  unfold execWindowClose
  apply Keeps.next
  extract_lets
  split
  · exact h
  · exact (Keeps.foldl _ (shutWindow_keeps _ h _) _ fun _ _ hs => endItem_keeps _ hs _ _ _).updPart _ _

theorem execBackgroundItemComplete_keeps (s : State) (h : Keeps s0 s) (p : Port) (t : Tag) (q : Part) (result : ItemResult) : KeepsOut s0 (execBackgroundItemComplete p t q result s) := by
  unfold execBackgroundItemComplete
  apply Keeps.next
  extract_lets c test mine named ran res s1 r
  have h1 : Keeps s0 s1 := by
    show Keeps s0 (ite _ _ _)
    split
    · exact h.updPart _ _
    · exact h
  have hr : Keeps s0 r.1 := by
    have hm : ∀ n : Nat, Keeps s0 (match (generalizing := false) n with
      | 3 => (((named.filter s.isolated).foldl (fun s e => s.updEng e Engine.marched) s1, ([] : List Byte)) : State × List Byte)
      | 0x10 => s1.readMonitors q result
      | 0x30 => (s1, result.values)
      | 0x31 => (s1, result.values)
      | _ => (s1, [])).1 := by
      intro n
      split
      · exact Keeps.foldl _ h1 _ fun _ _ ht => ht.updEng _ _
      · exact readMonitors_keeps _ h1 _ _
      · exact h1
      · exact h1
      · exact h1
    exact hm test
  clear_value r
  repeat' first
    | exact h
    | exact testOut_keeps _ hr _ _ _ _
    | split

theorem execMonitorSample_keeps (s : State) (h : Keeps s0 s) (v : MonitorValue) : KeepsOut s0 (execMonitorSample v s) := by
  unfold execMonitorSample
  repeat' first
    | with_reducible assumption
    | (with_reducible apply Keeps.ite <;> intro _)
    | with_reducible apply Keeps.next
    | with_reducible apply Keeps.updPart
    | with_reducible exact Keeps.lit (by with_reducible assumption) rfl rfl rfl rfl rfl rfl rfl rfl
    | extract_lets
    | split
    | with_reducible refine Keeps.lit ?_ rfl rfl rfl rfl rfl rfl rfl rfl

theorem execHourlyLedgerSave_keeps (s : State) (h : Keeps s0 s) : KeepsOut s0 (execHourlyLedgerSave s) := by
  unfold execHourlyLedgerSave
  repeat' first
    | with_reducible assumption
    | with_reducible apply Keeps.next
    | with_reducible apply ledger_keeps
    | with_reducible refine Keeps.foldl _ ?_ _ fun _ _ _ => ?_
    | with_reducible exact Keeps.lit (by with_reducible assumption) rfl rfl rfl rfl rfl rfl rfl rfl
    | with_reducible refine Keeps.lit ?_ rfl rfl rfl rfl rfl rfl rfl rfl
    | extract_lets

theorem execLedgerRead_keeps (s : State) (h : Keeps s0 s) (index : W32) (area : BitVec 2) : KeepsOut s0 (execLedgerRead index area s) := by
  unfold execLedgerRead
  repeat' first
    | with_reducible assumption
    | (with_reducible apply Keeps.ite <;> intro _)
    | with_reducible apply Keeps.next
    | with_reducible exact Keeps.lit (by with_reducible assumption) rfl rfl rfl rfl rfl rfl rfl rfl
    | split
    | with_reducible refine Keeps.lit ?_ rfl rfl rfl rfl rfl rfl rfl rfl

end Sys2Proof.Machine
end

