-- ==== Sys2Proof/Laws/KeepsControl.lean ====
section
/-!
SUPPORT. What the operations of Machine/Control.lean keep.
-/

namespace Sys2Proof.Machine

open Sys2Proof

variable {s0 : State}

theorem nothingToDo_keeps (s : State) (h : Keeps s0 s) (p : Port) (t : Tag) (op : Nat) : Keeps s0 (State.nothingToDo s p t op) := by
  unfold State.nothingToDo
  repeat' first
    | with_reducible assumption
    | (with_reducible apply Keeps.ite <;> intro _)
    | with_reducible apply doneCmd_keeps
    | split

theorem execNop_keeps (s : State) (h : Keeps s0 s) (p : Port) (t : Tag) : KeepsOut s0 (execNop p t s) := by
  unfold execNop
  repeat' first
    | with_reducible assumption
    | with_reducible apply Keeps.next
    | with_reducible apply nothingToDo_keeps

theorem execSem_keeps (s : State) (h : Keeps s0 s) (p : Port) (t : Tag) : KeepsOut s0 (execSem p t s) := by
  unfold execSem
  repeat' first
    | with_reducible assumption
    | with_reducible apply Keeps.next
    | with_reducible apply nothingToDo_keeps

theorem selectCmd_keeps (s : State) (h : Keeps s0 s) (by_ : Port × Tag × Nat) (p : Port) (t : Tag) : Keeps s0 (State.selectCmd s by_ p t) := by
  unfold State.selectCmd
  repeat' first
    | with_reducible assumption
    | (with_reducible apply Keeps.ite <;> intro _)
    | with_reducible apply Keeps.updCmd
    | with_reducible apply Keeps.updSlot
    | with_reducible apply abortCmd_keeps
    | with_reducible refine Keeps.foldl _ ?_ _ fun _ _ _ => ?_
    | with_reducible exact Keeps.lit (by with_reducible assumption) rfl rfl rfl rfl rfl rfl rfl rfl
    | extract_lets
    | split
    | with_reducible refine Keeps.lit ?_ rfl rfl rfl rfl rfl rfl rfl rfl

theorem addRange_keeps (s : State) (h : Keeps s0 s) (c : Cmd) : Keeps s0 (State.addRange s c) := by
  unfold State.addRange
  repeat' first
    | with_reducible assumption
    | (with_reducible apply Keeps.ite <;> intro _)
    | with_reducible apply Keeps.updRing
    | with_reducible exact Keeps.lit (by with_reducible assumption) rfl rfl rfl rfl rfl rfl rfl rfl
    | extract_lets
    | split
    | with_reducible refine Keeps.lit ?_ rfl rfl rfl rfl rfl rfl rfl rfl

theorem execCancel_keeps (s : State) (h : Keeps s0 s) (p : Port) (t : Tag) : KeepsOut s0 (execCancel p t s) := by
  unfold execCancel
  repeat' first
    | with_reducible assumption
    | (with_reducible apply Keeps.ite <;> intro _)
    | with_reducible apply Keeps.next
    | with_reducible apply Keeps.updCmd
    | with_reducible apply doneCmd_keeps
    | with_reducible apply selectCmd_keeps
    | with_reducible apply addRange_keeps
    | with_reducible refine Keeps.foldl _ ?_ _ fun _ _ _ => ?_
    | with_reducible exact Keeps.lit (by with_reducible assumption) rfl rfl rfl rfl rfl rfl rfl rfl
    | extract_lets
    | split
    | with_reducible refine Keeps.lit ?_ rfl rfl rfl rfl rfl rfl rfl rfl

theorem execCommandStopAtTile_keeps (s : State) (h : Keeps s0 s) (p : Port) (t : Tag) (e : Eng) : KeepsOut s0 (execCommandStopAtTile p t e s) := by
  unfold execCommandStopAtTile
  repeat' first
    | with_reducible assumption
    | (with_reducible apply Keeps.ite <;> intro _)
    | with_reducible apply Keeps.next
    | with_reducible apply Keeps.updSlot
    | with_reducible apply abortCmd_keeps
    | with_reducible apply finishUnits_keeps
    | with_reducible refine Keeps.foldl _ ?_ _ fun _ _ _ => ?_
    | with_reducible exact Keeps.lit (by with_reducible assumption) rfl rfl rfl rfl rfl rfl rfl rfl
    | extract_lets
    | split
    | with_reducible refine Keeps.lit ?_ rfl rfl rfl rfl rfl rfl rfl rfl

end Sys2Proof.Machine
end

