-- ==== Sys2Proof/Laws/KeepsStreams.lean ====
section
/-!
SUPPORT. What the operations of Machine/Streams.lean keep.
-/

namespace Sys2Proof.Machine

open Sys2Proof

variable {s0 : State}

theorem sendRequest_keeps (s : State) (h : Keeps s0 s) (e : Eng) (i : StreamNo) (va : Nat) (b : Nat) : Keeps s0 (State.sendRequest s e i va b).1 := by
  unfold State.sendRequest
  repeat' first
    | with_reducible assumption
    | (with_reducible apply Keeps.ite <;> intro _)
    | with_reducible apply sendPacket_keeps
    | with_reducible exact Keeps.lit (by with_reducible assumption) rfl rfl rfl rfl rfl rfl rfl rfl
    | extract_lets
    | split
    | with_reducible refine Keeps.lit ?_ rfl rfl rfl rfl rfl rfl rfl rfl

theorem takeMap_keeps (s : State) (h : Keeps s0 s) (p : Port) (t : Tag) (st : Nat) : Keeps s0 (State.takeMap s p t st) := by
  unfold State.takeMap
  repeat' first
    | with_reducible assumption
    | with_reducible apply Keeps.updCmd
    | with_reducible apply refit_keeps
    | with_reducible refine Keeps.foldl _ ?_ _ fun _ _ _ => ?_
    | extract_lets

theorem issue_keeps (s : State) (h : Keeps s0 s) (e : Eng) (i : StreamNo) : Keeps s0 (State.issue s e i) := by
  unfold State.issue
  repeat' first
    | with_reducible assumption
    | (with_reducible apply Keeps.ite <;> intro _)
    | with_reducible apply Keeps.updPart
    | with_reducible apply Keeps.updStrm
    | with_reducible apply takeFurther_keeps
    | with_reducible apply takeMap_keeps
    | with_reducible apply sendRequest_keeps
    | with_reducible refine Keeps.foldl _ ?_ _ fun _ _ _ => ?_
    | with_reducible exact Keeps.lit (by with_reducible assumption) rfl rfl rfl rfl rfl rfl rfl rfl
    | with_reducible refine Keeps.pair (by with_reducible assumption) ?_
    | extract_lets
    | split
    | with_reducible refine Keeps.lit ?_ rfl rfl rfl rfl rfl rfl rfl rfl

theorem execStreamRequestGrant_keeps (s : State) (h : Keeps s0 s) (q : Part) : KeepsOut s0 (execStreamRequestGrant q s) := by
  unfold execStreamRequestGrant
  repeat' first
    | with_reducible assumption
    | (with_reducible apply Keeps.ite <;> intro _)
    | with_reducible apply Keeps.next
    | with_reducible apply issue_keeps
    | split

theorem execStreamReadLanded_keeps (s : State) (h : Keeps s0 s) (e : Eng) (i : StreamNo) (n : Nat) : KeepsOut s0 (execStreamReadLanded e i n s) := by
  unfold execStreamReadLanded
  repeat' first
    | with_reducible assumption
    | (with_reducible apply Keeps.ite <;> intro _)
    | with_reducible apply Keeps.next
    | with_reducible apply landReq_keeps
    | with_reducible apply landOrphan_keeps
    | extract_lets
    | split

theorem execStreamWriteAcknowledged_keeps (s : State) (h : Keeps s0 s) (e : Eng) (i : StreamNo) (n : Nat) : KeepsOut s0 (execStreamWriteAcknowledged e i n s) := by
  unfold execStreamWriteAcknowledged
  repeat' first
    | with_reducible assumption
    | (with_reducible apply Keeps.ite <;> intro _)
    | with_reducible apply Keeps.next
    | with_reducible apply Keeps.updStrm
    | with_reducible apply landReq_keeps
    | extract_lets
    | split

theorem giveUpKept_keeps (s : State) (h : Keeps s0 s) (e : Eng) (i : StreamNo) : Keeps s0 (State.giveUpKept s e i) := by
  unfold State.giveUpKept
  repeat' first
    | with_reducible assumption
    | with_reducible apply Keeps.updStrm
    | with_reducible refine Keeps.foldl _ ?_ _ fun _ _ _ => ?_
    | with_reducible exact Keeps.lit (by with_reducible assumption) rfl rfl rfl rfl rfl rfl rfl rfl
    | with_reducible refine Keeps.lit ?_ rfl rfl rfl rfl rfl rfl rfl rfl
    | extract_lets

theorem execSlotRelease_keeps (s : State) (h : Keeps s0 s) (e : Eng) (i : StreamNo) : KeepsOut s0 (execSlotRelease e i s) := by
  unfold execSlotRelease
  repeat' first
    | with_reducible assumption
    | (with_reducible apply Keeps.ite <;> intro _)
    | with_reducible apply Keeps.next
    | with_reducible apply Keeps.updStrm
    | with_reducible apply giveUpKept_keeps
    | with_reducible exact Keeps.lit (by with_reducible assumption) rfl rfl rfl rfl rfl rfl rfl rfl
    | extract_lets
    | split
    | with_reducible refine Keeps.lit ?_ rfl rfl rfl rfl rfl rfl rfl rfl

theorem execRateWindowExpiry_keeps (s : State) (h : Keeps s0 s) (e : Eng) : KeepsOut s0 (execRateWindowExpiry e s) := by
  unfold execRateWindowExpiry
  repeat' first
    | with_reducible assumption
    | (with_reducible apply Keeps.ite <;> intro _)
    | with_reducible apply Keeps.next
    | with_reducible apply Keeps.updStrm
    | with_reducible refine Keeps.foldl _ ?_ _ fun _ _ _ => ?_
    | with_reducible exact Keeps.lit (by with_reducible assumption) rfl rfl rfl rfl rfl rfl rfl rfl
    | extract_lets
    | split
    | with_reducible refine Keeps.lit ?_ rfl rfl rfl rfl rfl rfl rfl rfl

theorem halt_keeps (s : State) (h : Keeps s0 s) (e : Eng) (i : StreamNo) (id : W32) (kind : Nat) : Keeps s0 (State.halt s e i id kind) := by
  unfold State.halt
  repeat' first
    | with_reducible assumption
    | (with_reducible apply Keeps.ite <;> intro _)
    | with_reducible apply Keeps.updStrm
    | with_reducible refine Keeps.foldl _ ?_ _ fun _ _ _ => ?_
    | with_reducible exact Keeps.lit (by with_reducible assumption) rfl rfl rfl rfl rfl rfl rfl rfl
    | split
    | with_reducible refine Keeps.lit ?_ rfl rfl rfl rfl rfl rfl rfl rfl

theorem execStreamTranslationFault_keeps (s : State) (h : Keeps s0 s) (e : Eng) (i : StreamNo) : KeepsOut s0 (execStreamTranslationFault e i s) := by
  unfold execStreamTranslationFault
  repeat' first
    | with_reducible assumption
    | (with_reducible apply Keeps.ite <;> intro _)
    | with_reducible apply Keeps.next
    | with_reducible apply Keeps.bump
    | with_reducible apply halt_keeps
    | with_reducible apply postFault_keeps
    | with_reducible apply faultCmd_keeps
    | with_reducible apply pageRequest_keeps
    | extract_lets
    | split

theorem resumeStream_keeps (s : State) (h : Keeps s0 s) (e : Eng) (i : StreamNo) : Keeps s0 (State.resumeStream s e i) := by
  unfold State.resumeStream
  repeat' first
    | with_reducible assumption
    | (with_reducible apply Keeps.ite <;> intro _)
    | with_reducible apply Keeps.updStrm
    | with_reducible refine Keeps.foldl _ ?_ _ fun _ _ _ => ?_
    | with_reducible exact Keeps.lit (by with_reducible assumption) rfl rfl rfl rfl rfl rfl rfl rfl
    | split
    | with_reducible refine Keeps.lit ?_ rfl rfl rfl rfl rfl rfl rfl rfl

theorem takeResume_keeps (s : State) (h : Keeps s0 s) (id : W32) (abort : Bool) : Keeps s0 (State.takeResume s id abort) := by
  unfold State.takeResume
  repeat' first
    | with_reducible assumption
    | with_reducible exact Keeps.lit (by with_reducible assumption) rfl rfl rfl rfl rfl rfl rfl rfl
    | with_reducible refine Keeps.lit ?_ rfl rfl rfl rfl rfl rfl rfl rfl

theorem execFaultResumeRetry_keeps (s : State) (h : Keeps s0 s) (id : W32) : KeepsOut s0 (execFaultResumeRetry id s) := by
  unfold execFaultResumeRetry
  repeat' first
    | with_reducible assumption
    | (with_reducible apply Keeps.ite <;> intro _)
    | with_reducible apply Keeps.next
    | with_reducible apply resumeStream_keeps
    | with_reducible apply takeResume_keeps
    | extract_lets
    | split

theorem execFaultResumeAbort_keeps (s : State) (h : Keeps s0 s) (id : W32) : KeepsOut s0 (execFaultResumeAbort id s) := by
  unfold execFaultResumeAbort
  repeat' first
    | with_reducible assumption
    | (with_reducible apply Keeps.ite <;> intro _)
    | with_reducible apply Keeps.next
    | with_reducible apply faultCmd_keeps
    | with_reducible apply takeResume_keeps
    | extract_lets
    | split

theorem priOk_keeps (s : State) (h : Keeps s0 s) (w : PriWait) : Keeps s0 (State.priOk s w) := by
  unfold State.priOk
  repeat' first
    | with_reducible assumption
    | (with_reducible apply Keeps.ite <;> intro _)
    | with_reducible apply Keeps.updCmd
    | with_reducible apply readCount_keeps
    | with_reducible apply resumeStream_keeps
    | with_reducible exact Keeps.lit (by with_reducible assumption) rfl rfl rfl rfl rfl rfl rfl rfl
    | split
    | with_reducible refine Keeps.lit ?_ rfl rfl rfl rfl rfl rfl rfl rfl

theorem priFail_keeps (s : State) (h : Keeps s0 s) (w : PriWait) (va : Nat) (wr : Bool) : Keeps s0 (State.priFail s w va wr) := by
  unfold State.priFail
  repeat' first
    | with_reducible assumption
    | (with_reducible apply Keeps.ite <;> intro _)
    | with_reducible apply Keeps.updCmd
    | with_reducible apply postFault_keeps
    | with_reducible apply discardRecord_keeps
    | with_reducible apply faultCmd_keeps
    | with_reducible apply badRecord_keeps
    | with_reducible exact Keeps.lit (by with_reducible assumption) rfl rfl rfl rfl rfl rfl rfl rfl
    | extract_lets
    | split
    | with_reducible refine Keeps.lit ?_ rfl rfl rfl rfl rfl rfl rfl rfl

theorem execPriResponse_keeps (s : State) (h : Keeps s0 s) (n : Nat) (ok : Bool) : KeepsOut s0 (execPriResponse n ok s) := by
  unfold execPriResponse
  repeat' first
    | with_reducible assumption
    | (with_reducible apply Keeps.ite <;> intro _)
    | with_reducible apply Keeps.next
    | with_reducible apply priOk_keeps
    | with_reducible apply priFail_keeps
    | with_reducible exact Keeps.lit (by with_reducible assumption) rfl rfl rfl rfl rfl rfl rfl rfl
    | extract_lets
    | split
    | with_reducible refine Keeps.lit ?_ rfl rfl rfl rfl rfl rfl rfl rfl

theorem applyCfg_keeps (s : State) (h : Keeps s0 s) (e : Eng) : Keeps s0 (State.applyCfg s e) := by
  unfold State.applyCfg
  repeat' first
    | with_reducible assumption
    | (with_reducible apply Keeps.ite <;> intro _)
    | with_reducible apply Keeps.updEng
    | with_reducible exact Keeps.lit (by with_reducible assumption) rfl rfl rfl rfl rfl rfl rfl rfl
    | split
    | with_reducible refine Keeps.lit ?_ rfl rfl rfl rfl rfl rfl rfl rfl

theorem execStreamCfgApply_keeps (s : State) (h : Keeps s0 s) (e : Eng) : KeepsOut s0 (execStreamCfgApply e s) := by
  unfold execStreamCfgApply
  repeat' first
    | with_reducible assumption
    | with_reducible apply Keeps.next
    | with_reducible apply applyCfg_keeps

theorem writeCfg_keeps (s : State) (h : Keeps s0 s) (e : Eng) (value : Nat) : Keeps s0 (State.writeCfg s e value) := by
  unfold State.writeCfg
  repeat' first
    | with_reducible assumption
    | (with_reducible apply Keeps.ite <;> intro _)
    | with_reducible apply Keeps.updEng
    | with_reducible apply applyCfg_keeps
    | with_reducible exact Keeps.lit (by with_reducible assumption) rfl rfl rfl rfl rfl rfl rfl rfl
    | extract_lets
    | split
    | with_reducible refine Keeps.lit ?_ rfl rfl rfl rfl rfl rfl rfl rfl

theorem execStreamCfgWrite_keeps (s : State) (h : Keeps s0 s) (e : Eng) (value : W32) : KeepsOut s0 (execStreamCfgWrite e value s) := by
  unfold execStreamCfgWrite
  repeat' first
    | with_reducible assumption
    | (with_reducible apply Keeps.ite <;> intro _)
    | with_reducible apply Keeps.next
    | with_reducible apply writeCfg_keeps
    | split

theorem switchTo_keeps (s : State) (h : Keeps s0 s) (e : Eng) (h : SlotNo) (k : SlotNo) : Keeps s0 (State.switchTo s e h k) := by
  unfold State.switchTo
  repeat' first
    | with_reducible assumption
    | (with_reducible apply Keeps.ite <;> intro _)
    | with_reducible apply Keeps.bump
    | with_reducible apply Keeps.updEng
    | with_reducible apply Keeps.updSlot
    | with_reducible apply updTile_keeps
    | with_reducible exact Keeps.lit (by with_reducible assumption) rfl rfl rfl rfl rfl rfl rfl rfl
    | extract_lets
    | split
    | with_reducible refine Keeps.lit ?_ rfl rfl rfl rfl rfl rfl rfl rfl

theorem execTaskSwitch_keeps (s : State) (h : Keeps s0 s) (e : Eng) : KeepsOut s0 (execTaskSwitch e s) := by
  unfold execTaskSwitch
  repeat' first
    | with_reducible assumption
    | (with_reducible apply Keeps.ite <;> intro _)
    | with_reducible apply Keeps.next
    | with_reducible apply Keeps.bump
    | with_reducible apply switchTo_keeps
    | extract_lets
    | split

theorem execSwitchBack_keeps (s : State) (h : Keeps s0 s) (e : Eng) : KeepsOut s0 (execSwitchBack e s) := by
  unfold execSwitchBack
  repeat' first
    | with_reducible assumption
    | (with_reducible apply Keeps.ite <;> intro _)
    | with_reducible apply Keeps.next
    | with_reducible apply Keeps.bump
    | with_reducible apply Keeps.updEng
    | with_reducible apply Keeps.updSlot
    | with_reducible apply updTile_keeps
    | with_reducible apply switchTo_keeps
    | with_reducible exact Keeps.lit (by with_reducible assumption) rfl rfl rfl rfl rfl rfl rfl rfl
    | extract_lets
    | split
    | with_reducible refine Keeps.lit ?_ rfl rfl rfl rfl rfl rfl rfl rfl

theorem execTableBuild_keeps (s : State) (h : Keeps s0 s) (e : Eng) : KeepsOut s0 (execTableBuild e s) := by
  unfold execTableBuild
  repeat' first
    | with_reducible assumption
    | (with_reducible apply Keeps.ite <;> intro _)
    | with_reducible apply Keeps.next
    | with_reducible apply Keeps.bump
    | with_reducible apply Keeps.updEng
    | with_reducible apply Keeps.updSlot
    | with_reducible exact Keeps.lit (by with_reducible assumption) rfl rfl rfl rfl rfl rfl rfl rfl
    | extract_lets
    | split
    | with_reducible refine Keeps.lit ?_ rfl rfl rfl rfl rfl rfl rfl rfl

end Sys2Proof.Machine
end

