-- ==== Sys2Proof/Laws/KeepsResets.lean ====
section
/-!
SUPPORT. What the operations of Machine/Resets.lean keep.
-/

namespace Sys2Proof.Machine

open Sys2Proof

variable {s0 : State}

theorem ledgerReset_keeps (s : State) (h : Keeps s0 s) (unit : Nat) (index : Nat) (level : Nat) (cause : Nat) (stage : Nat) : Keeps s0 (State.ledgerReset s unit index level cause stage) := by
  unfold State.ledgerReset
  repeat' first
    | with_reducible assumption
    | (with_reducible apply Keeps.ite <;> intro _)
    | with_reducible apply ledger_keeps
    | extract_lets
    | split

theorem recordOnly_keeps (s : State) (h : Keeps s0 s) (r : ErrRec) : Keeps s0 (State.recordOnly s r) := by
  unfold State.recordOnly
  repeat' first
    | with_reducible assumption
    | (with_reducible apply Keeps.ite <;> intro _)
    | with_reducible apply postErr_keeps
    | with_reducible exact Keeps.lit (by with_reducible assumption) rfl rfl rfl rfl rfl rfl rfl rfl
    | split
    | with_reducible refine Keeps.lit ?_ rfl rfl rfl rfl rfl rfl rfl rfl

theorem faultContext_keeps (s : State) (h : Keeps s0 s) (c : CtxNo) (r : ErrRec) : Keeps s0 (State.faultContext s c r) := by
  unfold State.faultContext
  repeat' first
    | with_reducible assumption
    | (with_reducible apply Keeps.ite <;> intro _)
    | with_reducible apply free_keeps
    | with_reducible apply endCtx_keeps
    | with_reducible apply postErr_keeps
    | with_reducible apply recordOnly_keeps
    | with_reducible exact Keeps.lit (by with_reducible assumption) rfl rfl rfl rfl rfl rfl rfl rfl
    | with_reducible refine Keeps.pair (by with_reducible assumption) ?_
    | split
    | with_reducible refine Keeps.lit ?_ rfl rfl rfl rfl rfl rfl rfl rfl

theorem dropOn_keeps (s : State) (h : Keeps s0 s) (es : List Eng) (st : Nat) : Keeps s0 (State.dropOn s es st) := by
  unfold State.dropOn
  repeat' first
    | with_reducible assumption
    | with_reducible apply abortCmds_keeps
    | extract_lets

theorem unquiesce_keeps (s : State) (h : Keeps s0 s) (mask : W64) : Keeps s0 (State.unquiesce s mask) := by
  unfold State.unquiesce
  repeat' first
    | with_reducible assumption
    | with_reducible exact Keeps.lit (by with_reducible assumption) rfl rfl rfl rfl rfl rfl rfl rfl
    | with_reducible refine Keeps.lit ?_ rfl rfl rfl rfl rfl rfl rfl rfl

theorem spoilStream_keeps (s : State) (h : Keeps s0 s) (e : Eng) (x : Strm) : Keeps s0 (State.spoilStream s e x) := by
  unfold State.spoilStream
  repeat' first
    | with_reducible assumption
    | (with_reducible apply Keeps.ite <;> intro _)
    | with_reducible apply free_keeps
    | with_reducible refine Keeps.ofOk (vwrite_keeps _ ?_ _ _ _) (by with_reducible assumption)
    | with_reducible apply vwrite_keeps
    | with_reducible refine Keeps.foldl _ ?_ _ fun _ _ _ => ?_
    | with_reducible exact Keeps.lit (by with_reducible assumption) rfl rfl rfl rfl rfl rfl rfl rfl
    | with_reducible refine Keeps.pair (by with_reducible assumption) ?_
    | extract_lets
    | split
    | with_reducible refine Keeps.lit ?_ rfl rfl rfl rfl rfl rfl rfl rfl

theorem spoilWrites_keeps (s : State) (h : Keeps s0 s) (es : List Eng) : Keeps s0 (State.spoilWrites s es) := by
  unfold State.spoilWrites
  repeat' first
    | with_reducible assumption
    | with_reducible apply spoilStream_keeps
    | with_reducible refine Keeps.foldl _ ?_ _ fun _ _ _ => ?_

theorem dropWrites_keeps (s : State) (h : Keeps s0 s) (es : List Eng) : Keeps s0 (State.dropWrites s es) := by
  unfold State.dropWrites
  repeat' first
    | with_reducible assumption
    | (with_reducible apply Keeps.ite <;> intro _)
    | with_reducible apply Keeps.updEng
    | with_reducible refine Keeps.foldl _ ?_ _ fun _ _ _ => ?_
    | with_reducible exact Keeps.lit (by with_reducible assumption) rfl rfl rfl rfl rfl rfl rfl rfl
    | split
    | with_reducible refine Keeps.lit ?_ rfl rfl rfl rfl rfl rfl rfl rfl

theorem resetEngine_keeps (s : State) (h : Keeps s0 s) (e : Eng) (cause : Nat) (esc : Bool) (r : ErrRec) : Keeps s0 (State.resetEngine s e cause esc r) := by
  unfold State.resetEngine
  repeat' first
    | with_reducible assumption
    | (with_reducible apply Keeps.ite <;> intro _)
    | with_reducible apply breakWindow_keeps
    | with_reducible apply dropOn_keeps
    | with_reducible apply afterRecords_keeps
    | with_reducible apply unquiesce_keeps
    | with_reducible apply spoilWrites_keeps
    | with_reducible apply dropWrites_keeps
    | with_reducible apply postErr_keeps
    | with_reducible apply recordOnly_keeps
    | with_reducible apply departOwn_keeps
    | with_reducible apply ledgerReset_keeps
    | with_reducible exact Keeps.lit (by with_reducible assumption) rfl rfl rfl rfl rfl rfl rfl rfl
    | extract_lets
    | split
    | with_reducible refine Keeps.lit ?_ rfl rfl rfl rfl rfl rfl rfl rfl

theorem resetPartition_keeps (s : State) (h : Keeps s0 s) (q : Part) (cause : Nat) (esc : Bool) (r : ErrRec) : Keeps s0 (State.resetPartition s q cause esc r) := by
  unfold State.resetPartition
  repeat' first
    | with_reducible assumption
    | (with_reducible apply Keeps.ite <;> intro _)
    | with_reducible apply Keeps.updPart
    | with_reducible apply dropOn_keeps
    | with_reducible apply afterRecords_keeps
    | with_reducible apply abortCmd_keeps
    | with_reducible apply unquiesce_keeps
    | with_reducible apply spoilWrites_keeps
    | with_reducible apply dropWrites_keeps
    | with_reducible apply postErr_keeps
    | with_reducible apply recordOnly_keeps
    | with_reducible apply departOwn_keeps
    | with_reducible apply ledgerReset_keeps
    | with_reducible refine Keeps.foldl _ ?_ _ fun _ _ _ => ?_
    | with_reducible exact Keeps.lit (by with_reducible assumption) rfl rfl rfl rfl rfl rfl rfl rfl
    | extract_lets
    | split
    | with_reducible refine Keeps.lit ?_ rfl rfl rfl rfl rfl rfl rfl rfl

theorem settlePages_keeps (s : State) (h : Keeps s0 s) : Keeps s0 (State.settlePages s) := by
  unfold State.settlePages
  refine Keeps.foldl _ h _ fun s m hs => ?_
  refine Keeps.updStack (Keeps.foldl _ hs _ fun _ _ hs => postErr_keeps _ (ledger_keeps _ hs _ _ _ _ _) _) _ _
    (fun x => by simp only [StackMem.atReset]; exact List.prefix_append _ _) ?_
  intro x hx
  simp only [StackMem.atReset, List.length_append, List.length_take]
  omega

/-- The choice of a bank changes neither the fuses nor READY. -/
theorem BootBlock.choose_fuses (b : BootBlock) : b.choose.svnFuses = b.svnFuses ∧ b.choose.ready = b.ready := by
  unfold BootBlock.choose
  extract_lets c p d lost
  have hl : lost.svnFuses = b.svnFuses ∧ lost.ready = b.ready := by
    show (ite _ _ _ : BootBlock).svnFuses = _ ∧ (ite _ _ _ : BootBlock).ready = _
    split <;> exact ⟨rfl, rfl⟩
  clear_value lost
  split
  · exact ⟨rfl, rfl⟩
  · split <;> exact hl

theorem clearModule_keeps (s : State) (h : Keeps s0 s) : Keeps s0 (State.clearModule s) := by
  unfold State.clearModule
  extract_lets s1
  have h1 : Keeps s0 s1 := settlePages_keeps _ h
  clear_value s1
  refine h1.trans ⟨rfl, fun x => ⟨rfl, x.2⟩, fun m => List.prefix_rfl, fun m x => x, ?_, fun p => .inr ?_, ?_, ?_⟩
  · exact Nat.le_of_eq (BootBlock.choose_fuses s1.boot).1.symm
  · match p with
    | ⟨0, _⟩ => rfl
    | ⟨1, _⟩ => rfl
  · intro x; cases x
  · intro x; cases x

theorem dropHosts_keeps (s : State) (h : Keeps s0 s) : Keeps s0 (State.dropHosts s) := by
  unfold State.dropHosts
  repeat' first
    | with_reducible assumption
    | (with_reducible apply Keeps.ite <;> intro _)
    | with_reducible apply Keeps.emit
    | with_reducible apply linkDown_keeps
    | with_reducible refine Keeps.foldl _ ?_ _ fun _ _ _ => ?_
    | split

theorem holdStart_keeps (s : State) (h : Keeps s0 s) (hold : ModReset) : Keeps s0 (State.holdStart s hold) := by
  unfold State.holdStart
  extract_lets s1
  have h1 : Keeps s0 s1 := dropHosts_keeps _ h
  clear_value s1
  refine h1.trans ⟨rfl, fun x => x, fun m => List.prefix_rfl, fun m x => x, Nat.le_refl _, fun p => .inr ?_, id, fun _ x => ⟨x, rfl, rfl⟩⟩
  match p with
  | ⟨0, _⟩ => rfl
  | ⟨1, _⟩ => rfl

theorem resetModule_keeps (s : State) (h : Keeps s0 s) (cause : Nat) (esc : Bool) (hold : ModReset) (r : ErrRec) : Keeps s0 (State.resetModule s cause esc hold r) := by
  unfold State.resetModule
  repeat' first
    | with_reducible assumption
    | (with_reducible apply Keeps.ite <;> intro _)
    | with_reducible apply holdStart_keeps
    | with_reducible apply dropHosts_keeps
    | with_reducible apply spoilWrites_keeps
    | with_reducible apply clearModule_keeps
    | with_reducible apply postErr_keeps
    | with_reducible apply recordOnly_keeps
    | with_reducible apply ledgerReset_keeps
    | with_reducible exact Keeps.lit (by with_reducible assumption) rfl rfl rfl rfl rfl rfl rfl rfl
    | extract_lets
    | split
    | with_reducible refine Keeps.lit ?_ rfl rfl rfl rfl rfl rfl rfl rfl

theorem requestCycle_keeps (s : State) (h : Keeps s0 s) (cause : Nat) (stage : Nat) (esc : Bool) (r : ErrRec) : Keeps s0 (State.requestCycle s cause stage esc r) := by
  unfold State.requestCycle
  split
  · exact recordOnly_keeps _ h _
  · extract_lets t0 s1 s2 pb rc pw bb db s3
    have h0 : Keeps s0 t0 := Keeps.foldl _ h _ fun _ _ hs => confirmRetire_keeps _ hs _
    have h1 : Keeps s0 s1 := ledgerReset_keeps _ (postErr_keeps _ h0 _) _ _ _ _ _
    have h2 : Keeps s0 s2 := dropHosts_keeps _ (spoilWrites_keeps _ h1 _)
    clear_value s2
    have h3 : Keeps s2 s3 := by
      refine ⟨rfl, fun x => x, fun m => List.prefix_rfl, fun m x => x, Nat.le_refl _, fun p => .inl ?_, id, fun _ x => ⟨x, rfl, rfl⟩⟩
      match p with
      | ⟨0, _⟩ => rfl
      | ⟨1, _⟩ => rfl
    exact (followPort_keeps _ (followPort_keeps _ (h2.trans h3) _) _).emit _

theorem mainRails_keeps (s : State) (h : Keeps s0 s) : Keeps s0 (State.mainRails s) := by
  unfold State.mainRails
  repeat' first
    | with_reducible assumption
    | (with_reducible apply Keeps.ite <;> intro _)
    | with_reducible exact Keeps.lit (by with_reducible assumption) rfl rfl rfl rfl rfl rfl rfl rfl
    | split
    | with_reducible refine Keeps.lit ?_ rfl rfl rfl rfl rfl rfl rfl rfl

theorem resumeStart_keeps (s : State) (h : Keeps s0 s) : Keeps s0 (State.resumeStart s) := by
  unfold State.resumeStart
  repeat' first
    | with_reducible assumption
    | (with_reducible apply Keeps.ite <;> intro _)
    | with_reducible apply mainRails_keeps
    | with_reducible exact Keeps.lit (by with_reducible assumption) rfl rfl rfl rfl rfl rfl rfl rfl
    | extract_lets
    | split
    | with_reducible refine Keeps.lit ?_ rfl rfl rfl rfl rfl rfl rfl rfl

theorem loseSupply_keeps (s : State) (h : Keeps s0 s) : Keeps s0 (State.loseSupply s) := by
  unfold State.loseSupply
  extract_lets
  rename_i off r s1 rb bb
  have ho : ∀ t, Keeps s0 t → Keeps s0 (off t) := fun t ht => Keeps.lit ht rfl rfl rfl rfl rfl rfl rfl rfl
  have h1 : Keeps s0 s1 := ho _ (resetModule_keeps _ h _ _ _ _)
  split
  · split
    · exact recordOnly_keeps _ h _
    · exact h
  · split
    · exact ho _ (recordOnly_keeps _ h _)
    · exact h1.trans ⟨rfl, fun x => x, fun m => List.prefix_rfl, fun m x => x, Nat.le_refl _, fun p => .inl rfl, (fun x => by cases x),
      (fun x => by cases x)⟩

end Sys2Proof.Machine
end

