-- ==== Sys2Proof/Laws/KeepsRecovery.lean ====
section
/-!
SUPPORT. What the operations of Machine/Recovery.lean keep.
-/

namespace Sys2Proof.Machine

open Sys2Proof

variable {s0 : State}

theorem badRead_keeps (s : State) (h : Keeps s0 s) (p : Port) (t : Tag) (pa : Nat) : Keeps s0 (State.badRead s p t pa) := by
  unfold State.badRead
  repeat' first
    | with_reducible assumption
    | with_reducible apply postFault_keeps
    | with_reducible apply faultCmd_keeps
    | split

theorem execHbmUncorrectableError_keeps (s : State) (h : Keeps s0 s) (pa : Nat) (reader : Option (Port × Tag)) : KeepsOut s0 (execHbmUncorrectableError pa reader s) := by
  unfold execHbmUncorrectableError
  repeat' first
    | with_reducible assumption
    | (with_reducible apply Keeps.ite <;> intro _)
    | with_reducible apply Keeps.next
    | with_reducible apply free_keeps
    | with_reducible apply badRead_keeps
    | with_reducible apply retire_keeps
    | with_reducible apply postErr_keeps
    | with_reducible exact Keeps.lit (by with_reducible assumption) rfl rfl rfl rfl rfl rfl rfl rfl
    | with_reducible refine Keeps.pair (by with_reducible assumption) ?_
    | extract_lets
    | split
    | with_reducible refine Keeps.lit ?_ rfl rfl rfl rfl rfl rfl rfl rfl

theorem countCorrected_keeps (s : State) (h : Keeps s0 s) (u : UnitId) (n : Nat) : Keeps s0 (State.countCorrected s u n) := by
  unfold State.countCorrected
  repeat' first
    | with_reducible assumption
    | with_reducible apply Keeps.bump
    | with_reducible apply Keeps.updLink
    | with_reducible apply Keeps.updPart
    | with_reducible apply Keeps.updStack
    | with_reducible exact Keeps.lit (by with_reducible assumption) rfl rfl rfl rfl rfl rfl rfl rfl
    | split
    | with_reducible refine Keeps.lit ?_ rfl rfl rfl rfl rfl rfl rfl rfl
    | (intro x; exact List.prefix_rfl)
    | (intro x hx; exact hx)

theorem postCorrected_keeps (s : State) (h : Keeps s0 s) (u : UnitId) (pa : Nat) : Keeps s0 (State.postCorrected s u pa) := by
  unfold State.postCorrected
  repeat' first
    | with_reducible assumption
    | (with_reducible apply Keeps.ite <;> intro _)
    | with_reducible apply postErr_keeps
    | with_reducible exact Keeps.lit (by with_reducible assumption) rfl rfl rfl rfl rfl rfl rfl rfl
    | extract_lets
    | split
    | with_reducible refine Keeps.lit ?_ rfl rfl rfl rfl rfl rfl rfl rfl

theorem pageCorrected_keeps (s : State) (h : Keeps s0 s) (m : Stack) (pa : Nat) : Keeps s0 (State.pageCorrected s m pa) := by
  unfold State.pageCorrected
  repeat' first
    | with_reducible assumption
    | (with_reducible apply Keeps.ite <;> intro _)
    | with_reducible apply Keeps.updStack
    | with_reducible apply postErr_keeps
    | with_reducible exact Keeps.lit (by with_reducible assumption) rfl rfl rfl rfl rfl rfl rfl rfl
    | (intro x; exact List.prefix_rfl)
    | (intro x hx; exact hx)
    | extract_lets
    | split
    | with_reducible refine Keeps.lit ?_ rfl rfl rfl rfl rfl rfl rfl rfl
    | (intro x; exact List.prefix_rfl)
    | (intro x hx; exact hx)

theorem execCorrectedError_keeps (s : State) (h : Keeps s0 s) (u : UnitId) (pa : Nat) : KeepsOut s0 (execCorrectedError u pa s) := by
  unfold execCorrectedError
  repeat' first
    | with_reducible assumption
    | (with_reducible apply Keeps.ite <;> intro _)
    | with_reducible apply Keeps.next
    | with_reducible apply postCorrected_keeps
    | with_reducible apply countCorrected_keeps
    | with_reducible apply pageCorrected_keeps
    | split

theorem dataFault_keeps (s : State) (h : Keeps s0 s) (p : Port) (t : Tag) (unit : Nat) (index : Nat) : Keeps s0 (State.dataFault s p t unit index) := by
  unfold State.dataFault
  repeat' first
    | with_reducible assumption
    | (with_reducible apply Keeps.ite <;> intro _)
    | with_reducible apply free_keeps
    | with_reducible apply faultCmd_keeps
    | with_reducible apply postErr_keeps
    | with_reducible exact Keeps.lit (by with_reducible assumption) rfl rfl rfl rfl rfl rfl rfl rfl
    | with_reducible refine Keeps.pair (by with_reducible assumption) ?_
    | split
    | with_reducible refine Keeps.lit ?_ rfl rfl rfl rfl rfl rfl rfl rfl

theorem contextErr_keeps (s : State) (h : Keeps s0 s) : Keeps s0 (State.contextErr s).1 := by
  unfold State.contextErr
  repeat' first
    | with_reducible assumption
    | with_reducible apply free_keeps
    | with_reducible exact Keeps.lit (by with_reducible assumption) rfl rfl rfl rfl rfl rfl rfl rfl
    | with_reducible refine Keeps.pair (by with_reducible assumption) ?_
    | with_reducible refine Keeps.lit ?_ rfl rfl rfl rfl rfl rfl rfl rfl
    | extract_lets

theorem contextFault_keeps (s : State) (h : Keeps s0 s) (c : CtxNo) : Keeps s0 (State.contextFault s c) := by
  unfold State.contextFault
  repeat' first
    | with_reducible assumption
    | with_reducible apply faultContext_keeps
    | with_reducible apply contextErr_keeps
    | with_reducible apply retire_keeps
    | with_reducible refine Keeps.pair (by with_reducible assumption) ?_
    | extract_lets

theorem execUnitFault_keeps (s : State) (h : Keeps s0 s) (f : UnitFault) : KeepsOut s0 (execUnitFault f s) := by
  unfold execUnitFault
  repeat' first
    | with_reducible assumption
    | with_reducible apply Keeps.next
    | with_reducible apply contextFault_keeps
    | with_reducible apply resetPartition_keeps
    | with_reducible apply requestCycle_keeps
    | with_reducible apply resetModule_keeps
    | with_reducible apply resetEngine_keeps
    | with_reducible apply dataFault_keeps
    | with_reducible exact Keeps.lit (by with_reducible assumption) rfl rfl rfl rfl rfl rfl rfl rfl
    | split
    | with_reducible refine Keeps.lit ?_ rfl rfl rfl rfl rfl rfl rfl rfl

theorem only_keeps (s : State) (h : Keeps s0 s) (e : Eng) (k : SlotNo) : Keeps s0 (State.only s e k) := by
  unfold State.only
  repeat' first
    | with_reducible assumption
    | with_reducible apply Keeps.updSlot
    | with_reducible refine Keeps.foldl _ ?_ _ fun _ _ _ => ?_
    | with_reducible exact Keeps.lit (by with_reducible assumption) rfl rfl rfl rfl rfl rfl rfl rfl
    | with_reducible refine Keeps.lit ?_ rfl rfl rfl rfl rfl rfl rfl rfl
    | extract_lets

theorem execEngineHang_keeps (s : State) (h : Keeps s0 s) (e : Eng) : KeepsOut s0 (execEngineHang e s) := by
  unfold execEngineHang
  repeat' first
    | with_reducible assumption
    | (with_reducible apply Keeps.ite <;> intro _)
    | with_reducible apply Keeps.next
    | with_reducible apply resetEngine_keeps
    | with_reducible exact Keeps.lit (by with_reducible assumption) rfl rfl rfl rfl rfl rfl rfl rfl
    | split
    | with_reducible refine Keeps.lit ?_ rfl rfl rfl rfl rfl rfl rfl rfl

theorem execDomainWatchdogExpiry_keeps (s : State) (h : Keeps s0 s) (d : Domain) : KeepsOut s0 (execDomainWatchdogExpiry d s) := by
  unfold execDomainWatchdogExpiry
  repeat' first
    | with_reducible assumption
    | with_reducible apply Keeps.next
    | with_reducible apply resetPartition_keeps
    | with_reducible apply requestCycle_keeps
    | with_reducible apply resetModule_keeps
    | with_reducible apply afterRecords_keeps
    | with_reducible apply linkDown_keeps
    | with_reducible apply postErr_keeps
    | with_reducible exact Keeps.lit (by with_reducible assumption) rfl rfl rfl rfl rfl rfl rfl rfl
    | split
    | with_reducible refine Keeps.lit ?_ rfl rfl rfl rfl rfl rfl rfl rfl

theorem execClockFault_keeps (s : State) (h : Keeps s0 s) (d : ClockDomain) : KeepsOut s0 (execClockFault d s) := by
  unfold execClockFault
  repeat' first
    | with_reducible assumption
    | (with_reducible apply Keeps.ite <;> intro _)
    | with_reducible apply Keeps.next
    | with_reducible apply resetPartition_keeps
    | with_reducible apply resetModule_keeps
    | with_reducible apply afterRecords_keeps
    | with_reducible apply resetEngine_keeps
    | with_reducible apply linkDown_keeps
    | with_reducible apply postErr_keeps
    | with_reducible exact Keeps.lit (by with_reducible assumption) rfl rfl rfl rfl rfl rfl rfl rfl
    | split
    | with_reducible refine Keeps.lit ?_ rfl rfl rfl rfl rfl rfl rfl rfl

theorem execContextAbortOnFault_keeps (s : State) (h : Keeps s0 s) (c : CtxNo) : KeepsOut s0 (execContextAbortOnFault c s) := by
  unfold execContextAbortOnFault
  repeat' first
    | with_reducible assumption
    | with_reducible apply Keeps.next
    | with_reducible apply contextFault_keeps

theorem execEngineReset_keeps (s : State) (h : Keeps s0 s) (e : Eng) (cause : BitVec 8) : KeepsOut s0 (execEngineReset e cause s) := by
  unfold execEngineReset
  repeat' first
    | with_reducible assumption
    | with_reducible apply Keeps.next
    | with_reducible apply resetEngine_keeps
    | with_reducible exact Keeps.lit (by with_reducible assumption) rfl rfl rfl rfl rfl rfl rfl rfl
    | with_reducible refine Keeps.lit ?_ rfl rfl rfl rfl rfl rfl rfl rfl

theorem execEngineResetComplete_keeps (s : State) (h : Keeps s0 s) (e : Eng) : KeepsOut s0 (execEngineResetComplete e s) := by
  unfold execEngineResetComplete
  repeat' first
    | with_reducible assumption
    | (with_reducible apply Keeps.ite <;> intro _)
    | with_reducible apply Keeps.next
    | with_reducible apply Keeps.updEng
    | with_reducible exact Keeps.lit (by with_reducible assumption) rfl rfl rfl rfl rfl rfl rfl rfl
    | extract_lets
    | split
    | with_reducible refine Keeps.lit ?_ rfl rfl rfl rfl rfl rfl rfl rfl

theorem execPartitionReset_keeps (s : State) (h : Keeps s0 s) (q : Part) (cause : BitVec 8) : KeepsOut s0 (execPartitionReset q cause s) := by
  unfold execPartitionReset
  repeat' first
    | with_reducible assumption
    | with_reducible apply Keeps.next
    | with_reducible apply resetPartition_keeps
    | with_reducible exact Keeps.lit (by with_reducible assumption) rfl rfl rfl rfl rfl rfl rfl rfl
    | with_reducible refine Keeps.lit ?_ rfl rfl rfl rfl rfl rfl rfl rfl
    | extract_lets

theorem execPartitionResetComplete_keeps (s : State) (h : Keeps s0 s) (q : Part) : KeepsOut s0 (execPartitionResetComplete q s) := by
  unfold execPartitionResetComplete
  repeat' first
    | with_reducible assumption
    | (with_reducible apply Keeps.ite <;> intro _)
    | with_reducible apply Keeps.next
    | with_reducible apply Keeps.updEng
    | with_reducible apply Keeps.updPart
    | with_reducible refine Keeps.foldl _ ?_ _ fun _ _ _ => ?_
    | with_reducible exact Keeps.lit (by with_reducible assumption) rfl rfl rfl rfl rfl rfl rfl rfl
    | extract_lets
    | split
    | with_reducible refine Keeps.lit ?_ rfl rfl rfl rfl rfl rfl rfl rfl

theorem execModuleReset_keeps (s : State) (h : Keeps s0 s) (cause : BitVec 8) : KeepsOut s0 (execModuleReset cause s) := by
  unfold execModuleReset
  repeat' first
    | with_reducible assumption
    | with_reducible apply Keeps.next
    | with_reducible apply resetModule_keeps
    | with_reducible exact Keeps.lit (by with_reducible assumption) rfl rfl rfl rfl rfl rfl rfl rfl
    | with_reducible refine Keeps.lit ?_ rfl rfl rfl rfl rfl rfl rfl rfl
    | extract_lets

theorem execPowerCycleRequest_keeps (s : State) (h : Keeps s0 s) (cause : BitVec 8) : KeepsOut s0 (execPowerCycleRequest cause s) := by
  unfold execPowerCycleRequest
  repeat' first
    | with_reducible assumption
    | with_reducible apply Keeps.next
    | with_reducible apply requestCycle_keeps
    | with_reducible exact Keeps.lit (by with_reducible assumption) rfl rfl rfl rfl rfl rfl rfl rfl
    | with_reducible refine Keeps.lit ?_ rfl rfl rfl rfl rfl rfl rfl rfl
    | extract_lets

theorem execPowerCycleRepeat_keeps (s : State) (h : Keeps s0 s) : KeepsOut s0 (execPowerCycleRepeat s) := by
  unfold execPowerCycleRepeat
  repeat' first
    | with_reducible assumption
    | (with_reducible apply Keeps.ite <;> intro _)
    | with_reducible apply Keeps.next
    | with_reducible apply Keeps.emit
    | split

theorem execDeadlineMissed_keeps (s : State) (h : Keeps s0 s) (r : MissedReset) : KeepsOut s0 (execDeadlineMissed r s) := by
  unfold execDeadlineMissed
  repeat' first
    | with_reducible assumption
    | (with_reducible apply Keeps.ite <;> intro _)
    | with_reducible apply Keeps.next
    | with_reducible apply resetPartition_keeps
    | with_reducible apply resetModule_keeps
    | with_reducible apply requestCycle_keeps
    | with_reducible apply resetEngine_keeps
    | with_reducible refine Keeps.foldl _ ?_ _ fun _ _ _ => ?_
    | with_reducible exact Keeps.lit (by with_reducible assumption) rfl rfl rfl rfl rfl rfl rfl rfl
    | extract_lets
    | split
    | with_reducible refine Keeps.lit ?_ rfl rfl rfl rfl rfl rfl rfl rfl

theorem execFenceRelease_keeps (s : State) (h : Keeps s0 s) (mask : W64) : KeepsOut s0 (execFenceRelease mask s) := by
  unfold execFenceRelease
  repeat' first
    | with_reducible assumption
    | (with_reducible apply Keeps.ite <;> intro _)
    | with_reducible apply Keeps.next
    | with_reducible apply free_keeps
    | with_reducible refine Keeps.foldl _ ?_ _ fun _ _ _ => ?_
    | with_reducible exact Keeps.lit (by with_reducible assumption) rfl rfl rfl rfl rfl rfl rfl rfl
    | with_reducible refine Keeps.pair (by with_reducible assumption) ?_
    | extract_lets
    | split
    | with_reducible refine Keeps.lit ?_ rfl rfl rfl rfl rfl rfl rfl rfl

theorem execPartFenceRelease_keeps (s : State) (h : Keeps s0 s) (mask : BitVec 8) : KeepsOut s0 (execPartFenceRelease mask s) := by
  unfold execPartFenceRelease
  repeat' first
    | with_reducible assumption
    | (with_reducible apply Keeps.ite <;> intro _)
    | with_reducible apply Keeps.next
    | with_reducible exact Keeps.lit (by with_reducible assumption) rfl rfl rfl rfl rfl rfl rfl rfl
    | split
    | with_reducible refine Keeps.lit ?_ rfl rfl rfl rfl rfl rfl rfl rfl

theorem takeSw_keeps (s : State) (h : Keeps s0 s) (level : Nat) (target : Nat) : Keeps s0 (State.takeSw s level target) := by
  unfold State.takeSw
  repeat' first
    | with_reducible assumption
    | (with_reducible apply Keeps.ite <;> intro _)
    | with_reducible exact Keeps.lit (by with_reducible assumption) rfl rfl rfl rfl rfl rfl rfl rfl
    | split
    | with_reducible refine Keeps.lit ?_ rfl rfl rfl rfl rfl rfl rfl rfl

theorem sw_keeps (s : State) (h : Keeps s0 s) : Keeps s0 (State.sw s) := by
  unfold State.sw
  repeat' first
    | with_reducible assumption
    | with_reducible exact Keeps.lit (by with_reducible assumption) rfl rfl rfl rfl rfl rfl rfl rfl
    | with_reducible refine Keeps.lit ?_ rfl rfl rfl rfl rfl rfl rfl rfl

theorem execSwresetEngine_keeps (s : State) (h : Keeps s0 s) (e : Eng) : KeepsOut s0 (execSwresetEngine e s) := by
  unfold execSwresetEngine
  repeat' first
    | with_reducible assumption
    | with_reducible apply Keeps.next
    | with_reducible apply takeSw_keeps
    | with_reducible apply sw_keeps
    | with_reducible apply resetEngine_keeps
    | with_reducible exact Keeps.lit (by with_reducible assumption) rfl rfl rfl rfl rfl rfl rfl rfl
    | with_reducible refine Keeps.lit ?_ rfl rfl rfl rfl rfl rfl rfl rfl

theorem execSwresetPartition_keeps (s : State) (h : Keeps s0 s) (q : Part) : KeepsOut s0 (execSwresetPartition q s) := by
  unfold execSwresetPartition
  repeat' first
    | with_reducible assumption
    | with_reducible apply Keeps.next
    | with_reducible apply takeSw_keeps
    | with_reducible apply resetPartition_keeps
    | with_reducible apply sw_keeps
    | with_reducible exact Keeps.lit (by with_reducible assumption) rfl rfl rfl rfl rfl rfl rfl rfl
    | with_reducible refine Keeps.lit ?_ rfl rfl rfl rfl rfl rfl rfl rfl

theorem execSwresetModule_keeps (s : State) (h : Keeps s0 s) : KeepsOut s0 (execSwresetModule s) := by
  unfold execSwresetModule
  repeat' first
    | with_reducible assumption
    | with_reducible apply Keeps.next
    | with_reducible apply takeSw_keeps
    | with_reducible apply resetModule_keeps
    | with_reducible apply sw_keeps
    | with_reducible exact Keeps.lit (by with_reducible assumption) rfl rfl rfl rfl rfl rfl rfl rfl
    | with_reducible refine Keeps.lit ?_ rfl rfl rfl rfl rfl rfl rfl rfl

end Sys2Proof.Machine
end

