-- ==== Sys2Proof/Laws/KeepsHosts.lean ====
section
/-!
SUPPORT. What the operations of Machine/Hosts.lean keep.
-/

namespace Sys2Proof.Machine

open Sys2Proof

variable {s0 : State}

theorem destroyOwned_keeps (s : State) (h : Keeps s0 s) (p : Port) : Keeps s0 (State.destroyOwned s p) := by
  unfold State.destroyOwned
  repeat' first
    | with_reducible assumption
    | with_reducible apply destroyCtx_keeps
    | with_reducible refine Keeps.foldl _ ?_ _ fun _ _ _ => ?_

theorem dropDoe_keeps (s : State) (h : Keeps s0 s) (p : Port) : Keeps s0 (State.dropDoe s p) := by
  unfold State.dropDoe
  repeat' first
    | with_reducible assumption
    | with_reducible exact Keeps.lit (by with_reducible assumption) rfl rfl rfl rfl rfl rfl rfl rfl
    | with_reducible refine Keeps.lit ?_ rfl rfl rfl rfl rfl rfl rfl rfl

theorem execPerstAssert_keeps (s : State) (h : Keeps s0 s) (p : Port) : KeepsOut s0 (execPerstAssert p s) := by
  unfold execPerstAssert
  exact (dropDoe_keeps _ (followPort_keeps _ (h.updPort _ _ fun _ => .inr rfl) _) _).next

theorem execPerstDeassert_keeps (s : State) (h : Keeps s0 s) (p : Port) : KeepsOut s0 (execPerstDeassert p s) := by
  unfold execPerstDeassert
  repeat' first
    | with_reducible assumption
    | (with_reducible apply Keeps.ite <;> intro _)
    | with_reducible apply Keeps.next
    | with_reducible apply Keeps.updPort
    | with_reducible apply destroyOwned_keeps
    | (intro x; exact .inl rfl)
    | with_reducible exact Keeps.lit (by with_reducible assumption) rfl rfl rfl rfl rfl rfl rfl rfl
    | split
    | with_reducible refine Keeps.lit ?_ rfl rfl rfl rfl rfl rfl rfl rfl

theorem execFunctionLevelReset_keeps (s : State) (h : Keeps s0 s) (p : Port) : KeepsOut s0 (execFunctionLevelReset p s) := by
  unfold execFunctionLevelReset
  repeat' first
    | with_reducible assumption
    | with_reducible apply Keeps.next
    | with_reducible apply Keeps.updPort
    | with_reducible apply destroyOwned_keeps
    | with_reducible apply dropDoe_keeps
    | (intro x; exact .inl rfl)

theorem execHostLinkDown_keeps (s : State) (h : Keeps s0 s) (p : Port) : KeepsOut s0 (execHostLinkDown p s) := by
  unfold execHostLinkDown
  repeat' first
    | with_reducible assumption
    | (with_reducible apply Keeps.ite <;> intro _)
    | with_reducible apply Keeps.next
    | with_reducible apply Keeps.updPort
    | with_reducible apply linkLost_keeps
    | (intro x; exact .inl rfl)
    | with_reducible exact Keeps.lit (by with_reducible assumption) rfl rfl rfl rfl rfl rfl rfl rfl
    | split
    | with_reducible refine Keeps.lit ?_ rfl rfl rfl rfl rfl rfl rfl rfl

theorem execPortDownTimeout_keeps (s : State) (h : Keeps s0 s) (p : Port) : KeepsOut s0 (execPortDownTimeout p s) := by
  unfold execPortDownTimeout
  repeat' first
    | with_reducible assumption
    | (with_reducible apply Keeps.ite <;> intro _)
    | with_reducible apply Keeps.next
    | with_reducible apply Keeps.updPort
    | with_reducible apply followPort_keeps
    | with_reducible apply linkLost_keeps
    | (intro x; exact .inl rfl)
    | with_reducible exact Keeps.lit (by with_reducible assumption) rfl rfl rfl rfl rfl rfl rfl rfl
    | split
    | with_reducible refine Keeps.lit ?_ rfl rfl rfl rfl rfl rfl rfl rfl

theorem execHostLinkUp_keeps (s : State) (h : Keeps s0 s) (p : Port) : KeepsOut s0 (execHostLinkUp p s) := by
  unfold execHostLinkUp
  repeat' first
    | with_reducible assumption
    | (with_reducible apply Keeps.ite <;> intro _)
    | with_reducible apply Keeps.next
    | with_reducible apply Keeps.updPort
    | with_reducible apply followPort_keeps
    | with_reducible apply linkLost_keeps
    | (intro x; exact .inl rfl)
    | with_reducible exact Keeps.lit (by with_reducible assumption) rfl rfl rfl rfl rfl rfl rfl rfl
    | split
    | with_reducible refine Keeps.lit ?_ rfl rfl rfl rfl rfl rfl rfl rfl

theorem enablePort_keeps (s : State) (h : Keeps s0 s) (p : Port) (on : Bool) : Keeps s0 (State.enablePort s p on) := by
  unfold State.enablePort
  repeat' first
    | with_reducible assumption
    | with_reducible apply Keeps.updPort
    | with_reducible apply followPort_keeps
    | (intro x; exact .inl rfl)
    | with_reducible exact Keeps.lit (by with_reducible assumption) rfl rfl rfl rfl rfl rfl rfl rfl
    | with_reducible refine Keeps.lit ?_ rfl rfl rfl rfl rfl rfl rfl rfl

theorem execPortDisable_keeps (s : State) (h : Keeps s0 s) (p : Port) : KeepsOut s0 (execPortDisable p s) := by
  unfold execPortDisable
  repeat' first
    | with_reducible assumption
    | (with_reducible apply Keeps.ite <;> intro _)
    | with_reducible apply Keeps.next
    | with_reducible apply enablePort_keeps
    | split

theorem execPortEnable_keeps (s : State) (h : Keeps s0 s) (p : Port) : KeepsOut s0 (execPortEnable p s) := by
  unfold execPortEnable
  repeat' first
    | with_reducible assumption
    | (with_reducible apply Keeps.ite <;> intro _)
    | with_reducible apply Keeps.next
    | with_reducible apply enablePort_keeps
    | split

theorem execVfEnable_keeps (s : State) (h : Keeps s0 s) (p : Port) (n : Nat) : KeepsOut s0 (execVfEnable p n s) := by
  unfold execVfEnable
  repeat' first
    | with_reducible assumption
    | with_reducible apply Keeps.next
    | with_reducible apply Keeps.updPort
    | (intro x; exact .inl rfl)
    | with_reducible exact Keeps.lit (by with_reducible assumption) rfl rfl rfl rfl rfl rfl rfl rfl
    | with_reducible refine Keeps.lit ?_ rfl rfl rfl rfl rfl rfl rfl rfl

theorem execBar4Resize_keeps (s : State) (h : Keeps s0 s) (p : Port) (log2 : Nat) : KeepsOut s0 (execBar4Resize p log2 s) := by
  unfold execBar4Resize
  repeat' first
    | with_reducible assumption
    | (with_reducible apply Keeps.ite <;> intro _)
    | with_reducible apply Keeps.next
    | with_reducible apply Keeps.updPort
    | (intro x; exact .inl rfl)
    | with_reducible exact Keeps.lit (by with_reducible assumption) rfl rfl rfl rfl rfl rfl rfl rfl
    | split
    | with_reducible refine Keeps.lit ?_ rfl rfl rfl rfl rfl rfl rfl rfl

end Sys2Proof.Machine
end

