-- ==== Sys2Proof/Laws/KeepsSecurity.lean ====
section
/-!
SUPPORT. What the operations of Machine/Security.lean keep.
-/

namespace Sys2Proof.Machine

open Sys2Proof

variable {s0 : State}

theorem fixMeasurements_keeps (s : State) (h : Keeps s0 s) : Keeps s0 (State.fixMeasurements s) := by
  unfold State.fixMeasurements
  repeat' first
    | with_reducible assumption
    | with_reducible exact Keeps.lit (by with_reducible assumption) rfl rfl rfl rfl rfl rfl rfl rfl
    | with_reducible refine Keeps.lit ?_ rfl rfl rfl rfl rfl rfl rfl rfl

theorem setConn_keeps (s : State) (h : Keeps s0 s) (x : Transport) (c : SpdmConn) : Keeps s0 (State.setConn s x c) := by
  unfold State.setConn
  repeat' first
    | with_reducible assumption
    | with_reducible exact Keeps.lit (by with_reducible assumption) rfl rfl rfl rfl rfl rfl rfl rfl
    | with_reducible refine Keeps.lit ?_ rfl rfl rfl rfl rfl rfl rfl rfl

theorem spdm_keeps (s : State) (h : Keeps s0 s) (x : Transport) (ok : Bool) (eff : State → State)
    (he : ∀ t, Keeps s0 t → Keeps s0 (eff t)) : Keeps s0 (State.spdm s x ok eff) := by
  unfold State.spdm
  split
  · exact h
  · split
    · exact he _ h
    · exact h.emit _

theorem execGetVersion_keeps (s : State) (h : Keeps s0 s) (x : Transport) : KeepsOut s0 (execGetVersion x s) := by
  unfold execGetVersion
  repeat' first
    | with_reducible assumption
    | with_reducible apply Keeps.next
    | with_reducible apply Keeps.emit
    | with_reducible apply spdm_keeps
    | with_reducible apply setConn_keeps
    | intro _ _
    | with_reducible exact Keeps.lit (by with_reducible assumption) rfl rfl rfl rfl rfl rfl rfl rfl
    | with_reducible refine Keeps.lit ?_ rfl rfl rfl rfl rfl rfl rfl rfl

theorem execGetCapabilities_keeps (s : State) (h : Keeps s0 s) (x : Transport) : KeepsOut s0 (execGetCapabilities x s) := by
  unfold execGetCapabilities
  repeat' first
    | with_reducible assumption
    | with_reducible apply Keeps.next
    | with_reducible apply Keeps.emit
    | with_reducible apply spdm_keeps
    | with_reducible apply setConn_keeps
    | intro _ _
    | with_reducible exact Keeps.lit (by with_reducible assumption) rfl rfl rfl rfl rfl rfl rfl rfl
    | with_reducible refine Keeps.lit ?_ rfl rfl rfl rfl rfl rfl rfl rfl

theorem execNegotiateAlgorithms_keeps (s : State) (h : Keeps s0 s) (x : Transport) (offered : AlgOffer) : KeepsOut s0 (execNegotiateAlgorithms x offered s) := by
  unfold execNegotiateAlgorithms
  repeat' first
    | with_reducible assumption
    | with_reducible apply Keeps.next
    | with_reducible apply Keeps.emit
    | with_reducible apply spdm_keeps
    | with_reducible apply setConn_keeps
    | intro _ _
    | with_reducible exact Keeps.lit (by with_reducible assumption) rfl rfl rfl rfl rfl rfl rfl rfl
    | with_reducible refine Keeps.lit ?_ rfl rfl rfl rfl rfl rfl rfl rfl
    | extract_lets

theorem execGetDigests_keeps (s : State) (h : Keeps s0 s) (x : Transport) : KeepsOut s0 (execGetDigests x s) := by
  unfold execGetDigests
  repeat' first
    | with_reducible assumption
    | with_reducible apply Keeps.next
    | with_reducible apply Keeps.emit
    | with_reducible apply spdm_keeps
    | with_reducible refine Keeps.foldl _ ?_ _ fun _ _ _ => ?_
    | intro _ _
    | extract_lets

theorem execGetCertificate_keeps (s : State) (h : Keeps s0 s) (x : Transport) (slot : Fin 8) (off : Nat) (len : Nat) : KeepsOut s0 (execGetCertificate x slot off len s) := by
  unfold execGetCertificate
  repeat' first
    | with_reducible assumption
    | with_reducible apply Keeps.next
    | with_reducible apply Keeps.emit
    | with_reducible apply spdm_keeps
    | intro _ _

theorem execChallenge_keeps (s : State) (h : Keeps s0 s) (x : Transport) (slot : Fin 8) (nonce : List Byte) : KeepsOut s0 (execChallenge x slot nonce s) := by
  unfold execChallenge
  repeat' first
    | with_reducible assumption
    | with_reducible apply Keeps.next
    | with_reducible apply Keeps.emit
    | with_reducible apply spdm_keeps
    | intro _ _
    | with_reducible exact Keeps.lit (by with_reducible assumption) rfl rfl rfl rfl rfl rfl rfl rfl
    | with_reducible refine Keeps.lit ?_ rfl rfl rfl rfl rfl rfl rfl rfl
    | extract_lets

theorem execGetMeasurements_keeps (s : State) (h : Keeps s0 s) (x : Transport) (index : BitVec 8) (signed : Bool) : KeepsOut s0 (execGetMeasurements x index signed s) := by
  unfold execGetMeasurements
  repeat' first
    | with_reducible assumption
    | (with_reducible apply Keeps.ite <;> intro _)
    | with_reducible apply Keeps.next
    | with_reducible apply Keeps.emit
    | with_reducible apply spdm_keeps
    | intro _ _
    | extract_lets
    | split

theorem execKeyExchange_keeps (s : State) (h : Keeps s0 s) (x : Transport) (slot : Fin 8) (share : List Byte) : KeepsOut s0 (execKeyExchange x slot share s) := by
  unfold execKeyExchange
  repeat' first
    | with_reducible assumption
    | with_reducible apply Keeps.next
    | with_reducible apply Keeps.emit
    | with_reducible apply spdm_keeps
    | with_reducible apply setConn_keeps
    | intro _ _
    | with_reducible exact Keeps.lit (by with_reducible assumption) rfl rfl rfl rfl rfl rfl rfl rfl
    | with_reducible refine Keeps.lit ?_ rfl rfl rfl rfl rfl rfl rfl rfl
    | extract_lets

theorem execFinish_keeps (s : State) (h : Keeps s0 s) (x : Transport) (session : Fin 4) (verify : List Byte) : KeepsOut s0 (execFinish x session verify s) := by
  unfold execFinish
  apply Keeps.next
  extract_lets
  split
  · exact spdm_keeps _ h _ _ _ fun t ht => ht
  · split
    · exact h
    · split
      · exact (setConn_keeps _ h _ _).emit _
      · exact (setConn_keeps _ h _ _).emit _

theorem execKeyUpdate_keeps (s : State) (h : Keeps s0 s) (x : Transport) (session : Fin 4) : KeepsOut s0 (execKeyUpdate x session s) := by
  unfold execKeyUpdate
  repeat' first
    | with_reducible assumption
    | with_reducible apply Keeps.next
    | with_reducible apply Keeps.emit
    | with_reducible apply spdm_keeps
    | with_reducible apply setConn_keeps
    | intro _ _
    | with_reducible exact Keeps.lit (by with_reducible assumption) rfl rfl rfl rfl rfl rfl rfl rfl
    | with_reducible refine Keeps.lit ?_ rfl rfl rfl rfl rfl rfl rfl rfl

theorem execHeartbeat_keeps (s : State) (h : Keeps s0 s) (x : Transport) (session : Fin 4) : KeepsOut s0 (execHeartbeat x session s) := by
  unfold execHeartbeat
  repeat' first
    | with_reducible assumption
    | with_reducible apply Keeps.next
    | with_reducible apply Keeps.emit
    | with_reducible apply spdm_keeps
    | intro _ _

theorem execEndSession_keeps (s : State) (h : Keeps s0 s) (x : Transport) (session : Fin 4) : KeepsOut s0 (execEndSession x session s) := by
  unfold execEndSession
  repeat' first
    | with_reducible assumption
    | with_reducible apply Keeps.next
    | with_reducible apply Keeps.emit
    | with_reducible apply spdm_keeps
    | with_reducible apply setConn_keeps
    | intro _ _

theorem execGetCsr_keeps (s : State) (h : Keeps s0 s) (x : Transport) (session : Option (Fin 4)) : KeepsOut s0 (execGetCsr x session s) := by
  unfold execGetCsr
  repeat' first
    | with_reducible assumption
    | with_reducible apply Keeps.next
    | with_reducible apply Keeps.emit
    | with_reducible apply spdm_keeps
    | intro _ _

theorem execSetCertificate_keeps (s : State) (h : Keeps s0 s) (x : Transport) (session : Option (Fin 4)) (slot : Fin 8) (chain : List Byte) : KeepsOut s0 (execSetCertificate x session slot chain s) := by
  unfold execSetCertificate
  repeat' first
    | with_reducible assumption
    | with_reducible apply Keeps.next
    | with_reducible apply Keeps.emit
    | with_reducible apply spdm_keeps
    | intro _ _
    | with_reducible exact Keeps.lit (by with_reducible assumption) rfl rfl rfl rfl rfl rfl rfl rfl
    | with_reducible refine Keeps.lit ?_ rfl rfl rfl rfl rfl rfl rfl rfl

/-- IDE_KM is the one command that gives a port IDE keys; with the port's keys put back, it keeps everything. -/
theorem execIdeKm_keeps (s t : State) (x : Transport) (session : Option (Fin 4)) (stream : Fin 8) (key : List Byte)
    (e : execIdeKm x session stream key s = .next t) :
    Keeps s t ∨ ∃ p, x = .doe p ∧ s.secured x session = true ∧
      t = (s.updPort p fun h => { h with ide := Tab.set h.ide stream.val key }).emit (.spdm x "VENDOR_DEFINED_RESPONSE" []) := by
  unfold execIdeKm at e
  injection e with e
  subst e
  split
  · next p =>
    unfold State.spdm
    split
    · exact .inl (Keeps.refl _)
    · split
      · next h => exact .inr ⟨p, rfl, h, rfl⟩
      · exact .inl ((Keeps.refl s).emit _)
  · exact .inl (spdm_keeps _ (Keeps.refl s) _ _ _ fun t ht => ht)

theorem execRequestUpdate_keeps (s : State) (h : Keeps s0 s) (agent : UpdateAgent) : KeepsOut s0 (execRequestUpdate agent s) := by
  unfold execRequestUpdate
  repeat' first
    | with_reducible assumption
    | (with_reducible apply Keeps.ite <;> intro _)
    | with_reducible apply Keeps.next
    | with_reducible apply Keeps.emit
    | with_reducible exact Keeps.lit (by with_reducible assumption) rfl rfl rfl rfl rfl rfl rfl rfl
    | extract_lets
    | split
    | with_reducible refine Keeps.lit ?_ rfl rfl rfl rfl rfl rfl rfl rfl

theorem execFirmwareImageWrite_keeps (s : State) (h : Keeps s0 s) (off : Nat) (data : List Byte) (last : Bool) : KeepsOut s0 (execFirmwareImageWrite off data last s) := by
  unfold execFirmwareImageWrite
  repeat' first
    | with_reducible assumption
    | (with_reducible apply Keeps.ite <;> intro _)
    | with_reducible apply Keeps.next
    | with_reducible apply Keeps.emit
    | with_reducible exact Keeps.lit (by with_reducible assumption) rfl rfl rfl rfl rfl rfl rfl rfl
    | extract_lets
    | split
    | with_reducible refine Keeps.lit ?_ rfl rfl rfl rfl rfl rfl rfl rfl

theorem execActivateFirmware_keeps (s : State) (h : Keeps s0 s) : KeepsOut s0 (execActivateFirmware s) := by
  unfold execActivateFirmware
  repeat' first
    | with_reducible assumption
    | (with_reducible apply Keeps.ite <;> intro _)
    | with_reducible apply Keeps.next
    | with_reducible apply Keeps.emit
    | with_reducible exact Keeps.lit (by with_reducible assumption) rfl rfl rfl rfl rfl rfl rfl rfl
    | split
    | with_reducible refine Keeps.lit ?_ rfl rfl rfl rfl rfl rfl rfl rfl

theorem execGetSensorReading_keeps (s : State) (h : Keeps s0 s) (n : Sensor) : KeepsOut s0 (execGetSensorReading n s) := by
  unfold execGetSensorReading
  repeat' first
    | with_reducible assumption
    | (with_reducible apply Keeps.ite <;> intro _)
    | with_reducible apply Keeps.next
    | with_reducible apply Keeps.emit
    | with_reducible exact Keeps.lit (by with_reducible assumption) rfl rfl rfl rfl rfl rfl rfl rfl
    | extract_lets
    | split
    | with_reducible refine Keeps.lit ?_ rfl rfl rfl rfl rfl rfl rfl rfl

theorem execSetdasa_keeps (s : State) (h : Keeps s0 s) (addr : BitVec 7) : KeepsOut s0 (execSetdasa addr s) := by
  unfold execSetdasa
  repeat' first
    | with_reducible assumption
    | (with_reducible apply Keeps.ite <;> intro _)
    | with_reducible apply Keeps.next
    | with_reducible exact Keeps.lit (by with_reducible assumption) rfl rfl rfl rfl rfl rfl rfl rfl
    | split
    | with_reducible refine Keeps.lit ?_ rfl rfl rfl rfl rfl rfl rfl rfl

theorem execRstdaa_keeps (s : State) (h : Keeps s0 s) : KeepsOut s0 (execRstdaa s) := by
  unfold execRstdaa
  repeat' first
    | with_reducible assumption
    | with_reducible apply Keeps.next
    | with_reducible exact Keeps.lit (by with_reducible assumption) rfl rfl rfl rfl rfl rfl rfl rfl
    | with_reducible refine Keeps.lit ?_ rfl rfl rfl rfl rfl rfl rfl rfl

end Sys2Proof.Machine
end

