-- ==== Sys2Proof/Laws/KeepsPower.lean ====
section
/-!
SUPPORT. What the operations of Machine/Power.lean keep.
-/

namespace Sys2Proof.Machine

open Sys2Proof

variable {s0 : State}

theorem loseInput_keeps (s : State) (h : Keeps s0 s) : Keeps s0 (State.loseInput s) := by
  unfold State.loseInput
  repeat' first
    | with_reducible assumption
    | (with_reducible apply Keeps.ite <;> intro _)
    | with_reducible apply loseSupply_keeps
    | with_reducible exact Keeps.lit (by with_reducible assumption) rfl rfl rfl rfl rfl rfl rfl rfl
    | split
    | with_reducible refine Keeps.lit ?_ rfl rfl rfl rfl rfl rfl rfl rfl

theorem execInputUndervoltage_keeps (s : State) (h : Keeps s0 s) : KeepsOut s0 (execInputUndervoltage s) := by
  unfold execInputUndervoltage
  repeat' first
    | with_reducible assumption
    | with_reducible apply Keeps.next
    | with_reducible apply loseInput_keeps

theorem execInputOvervoltage_keeps (s : State) (h : Keeps s0 s) : KeepsOut s0 (execInputOvervoltage s) := by
  unfold execInputOvervoltage
  repeat' first
    | with_reducible assumption
    | with_reducible apply Keeps.next
    | with_reducible apply loseInput_keeps

theorem shortStage_keeps (s : State) (h : Keeps s0 s) (n : Nat) : Keeps s0 (State.shortStage s n) := by
  unfold State.shortStage
  repeat' first
    | with_reducible assumption
    | with_reducible apply requestCycle_keeps
    | with_reducible refine Keeps.foldl _ ?_ _ fun _ _ _ => ?_
    | with_reducible exact Keeps.lit (by with_reducible assumption) rfl rfl rfl rfl rfl rfl rfl rfl
    | with_reducible refine Keeps.lit ?_ rfl rfl rfl rfl rfl rfl rfl rfl
    | extract_lets

theorem execInputOvercurrent_keeps (s : State) (h : Keeps s0 s) : KeepsOut s0 (execInputOvercurrent s) := by
  unfold execInputOvercurrent
  repeat' first
    | with_reducible assumption
    | (with_reducible apply Keeps.ite <;> intro _)
    | with_reducible apply Keeps.next
    | with_reducible apply shortStage_keeps
    | split

theorem execRailStageShort_keeps (s : State) (h : Keeps s0 s) (stage : Fin 22) : KeepsOut s0 (execRailStageShort stage s) := by
  unfold execRailStageShort
  repeat' first
    | with_reducible assumption
    | (with_reducible apply Keeps.ite <;> intro _)
    | with_reducible apply Keeps.next
    | with_reducible apply shortStage_keeps
    | split

theorem noteReversed_keeps (s : State) (h : Keeps s0 s) : Keeps s0 (State.noteReversed s) := by
  unfold State.noteReversed
  repeat' first
    | with_reducible assumption
    | (with_reducible apply Keeps.ite <;> intro _)
    | with_reducible apply Keeps.emit
    | with_reducible exact Keeps.lit (by with_reducible assumption) rfl rfl rfl rfl rfl rfl rfl rfl
    | split
    | with_reducible refine Keeps.lit ?_ rfl rfl rfl rfl rfl rfl rfl rfl

theorem execReversedInput_keeps (s : State) (h : Keeps s0 s) : KeepsOut s0 (execReversedInput s) := by
  unfold execReversedInput
  repeat' first
    | with_reducible assumption
    | with_reducible apply Keeps.next
    | with_reducible apply noteReversed_keeps
    | with_reducible apply loseInput_keeps
    | with_reducible exact Keeps.lit (by with_reducible assumption) rfl rfl rfl rfl rfl rfl rfl rfl
    | with_reducible refine Keeps.lit ?_ rfl rfl rfl rfl rfl rfl rfl rfl

theorem execPolarityRestored_keeps (s : State) (h : Keeps s0 s) : KeepsOut s0 (execPolarityRestored s) := by
  unfold execPolarityRestored
  repeat' first
    | with_reducible assumption
    | with_reducible apply Keeps.next
    | with_reducible exact Keeps.lit (by with_reducible assumption) rfl rfl rfl rfl rfl rfl rfl rfl
    | with_reducible refine Keeps.lit ?_ rfl rfl rfl rfl rfl rfl rfl rfl

theorem execInputBladeOpen_keeps (s : State) (h : Keeps s0 s) : KeepsOut s0 (execInputBladeOpen s) := by
  unfold execInputBladeOpen
  repeat' first
    | with_reducible assumption
    | (with_reducible apply Keeps.ite <;> intro _)
    | with_reducible apply Keeps.next
    | with_reducible apply Keeps.emit
    | split

theorem execInputQualified_keeps (s : State) (h : Keeps s0 s) : KeepsOut s0 (execInputQualified s) := by
  unfold execInputQualified
  repeat' first
    | with_reducible assumption
    | (with_reducible apply Keeps.ite <;> intro _)
    | with_reducible apply Keeps.next
    | with_reducible apply resumeStart_keeps
    | with_reducible exact Keeps.lit (by with_reducible assumption) rfl rfl rfl rfl rfl rfl rfl rfl
    | split
    | with_reducible refine Keeps.lit ?_ rfl rfl rfl rfl rfl rfl rfl rfl

theorem powerDown_keeps (s : State) (h : Keeps s0 s) : Keeps s0 (State.powerDown s) := by
  unfold State.powerDown
  have e : ∀ m : Stack, (Tab.get {} (s.mem.stackMems.map fun k => (k.1, ({ retired := k.2.retired } : StackMem))) m.val).retired =
      (s.stack m).retired := fun m => by
    have := congrArg StackMem.retired (Tab.get_map ({} : StackMem) s.mem.stackMems m.val (fun y => { retired := y.retired }) rfl)
    exact this
  refine h.trans ⟨rfl, fun x => ⟨rfl, x.2⟩, ?_, ?_, Nat.le_refl _, fun p => .inr ?_, ?_, ?_⟩
  · intro m; rw [← e m]; exact List.prefix_rfl
  · intro m x; rw [← e m] at x; exact x
  · match p with
    | ⟨0, _⟩ => rfl
    | ⟨1, _⟩ => rfl
  · intro x; cases x
  · intro x; cases x

theorem execAux3v3Loss_keeps (s : State) (h : Keeps s0 s) : KeepsOut s0 (execAux3v3Loss s) := by
  unfold execAux3v3Loss
  repeat' first
    | with_reducible assumption
    | (with_reducible apply Keeps.ite <;> intro _)
    | with_reducible apply Keeps.next
    | with_reducible apply powerDown_keeps
    | split

theorem execAux3v3Rise_keeps (s : State) (h : Keeps s0 s) : KeepsOut s0 (execAux3v3Rise s) := by
  unfold execAux3v3Rise
  repeat' first
    | with_reducible assumption
    | (with_reducible apply Keeps.ite <;> intro _)
    | with_reducible apply Keeps.next
    | with_reducible exact Keeps.lit (by with_reducible assumption) rfl rfl rfl rfl rfl rfl rfl rfl
    | split
    | with_reducible refine Keeps.lit ?_ rfl rfl rfl rfl rfl rfl rfl rfl

theorem execRootPllLock_keeps (s : State) (h : Keeps s0 s) (strap : BitVec 3) : KeepsOut s0 (execRootPllLock strap s) := by
  unfold execRootPllLock
  apply Keeps.next
  split
  · exact h
  · extract_lets pw bb s1
    have h1 : Keeps s0 s1 := h.same rfl rfl rfl rfl (BootBlock.choose_fuses s.boot).1 rfl (BootBlock.choose_fuses s.boot).2 rfl rfl rfl
    clear_value s1
    apply resumeStart_keeps
    split
    · exact noteReversed_keeps _ h1
    · exact h1

theorem execDiesLoaded_keeps (s : State) (h : Keeps s0 s) (accepted : Bool) : KeepsOut s0 (execDiesLoaded accepted s) := by
  unfold execDiesLoaded
  apply Keeps.next
  split
  · exact h
  · split
    · split
      · exact fixMeasurements_keeps _ (h.lit rfl rfl rfl rfl rfl rfl rfl rfl)
      · have e : ∀ b : BootBlock, (b.loseTrial 6).svnFuses = b.svnFuses ∧ (b.loseTrial 6).ready = b.ready := fun b => by
          unfold BootBlock.loseTrial; split <;> exact ⟨rfl, rfl⟩
        exact h.same rfl rfl rfl rfl (e _).1 rfl (e _).2 rfl rfl rfl
    · refine Keeps.foldl _ ?_ _ fun _ _ ht => train_keeps _ ht _
      exact h.lit rfl rfl rfl rfl rfl rfl rfl rfl

/-- The end of a start is the one step that raises READY; with READY put back, it keeps everything. -/
theorem execHbmTrainingComplete_keeps (s t : State) (trained again : BitVec 6)
    (e : execHbmTrainingComplete trained again s = .next t) : Keeps s { t with boot := { t.boot with ready := s.boot.ready } } := by
  unfold execHbmTrainingComplete at e
  injection e with e
  extract_lets _ at e
  split at e
  · rw [← e]; exact Keeps.refl _
  · split at e
    · rw [← e]
      refine ⟨rfl, fun x => ⟨rfl, x.2⟩, fun m => List.prefix_rfl, fun m x => x, ?_, fun p => .inl rfl, id, fun _ x => ⟨x, rfl, rfl⟩⟩
      show s.boot.svnFuses ≤ s.boot.commit.svnFuses
      unfold BootBlock.commit
      extract_lets
      split
      · exact Nat.le_refl _
      · exact Nat.le_refl _
    · rw [← e]; exact (Keeps.refl s).lit rfl rfl rfl rfl rfl rfl rfl rfl

theorem execTrialTimeout_keeps (s : State) (h : Keeps s0 s) : KeepsOut s0 (execTrialTimeout s) := by
  unfold execTrialTimeout
  apply Keeps.next
  split
  · exact h
  · have e : (s.boot.loseTrial 8).svnFuses = s.boot.svnFuses ∧ (s.boot.loseTrial 8).ready = s.boot.ready := by
      unfold BootBlock.loseTrial; split <;> exact ⟨rfl, rfl⟩
    exact h.same rfl rfl rfl rfl e.1 rfl e.2 rfl rfl rfl

theorem execThermalShutdown_keeps (s : State) (h : Keeps s0 s) : KeepsOut s0 (execThermalShutdown s) := by
  unfold execThermalShutdown
  repeat' first
    | with_reducible assumption
    | (with_reducible apply Keeps.ite <;> intro _)
    | with_reducible apply Keeps.next
    | with_reducible apply loseSupply_keeps
    | with_reducible exact Keeps.lit (by with_reducible assumption) rfl rfl rfl rfl rfl rfl rfl rfl
    | split
    | with_reducible refine Keeps.lit ?_ rfl rfl rfl rfl rfl rfl rfl rfl

theorem execThermalResume_keeps (s : State) (h : Keeps s0 s) : KeepsOut s0 (execThermalResume s) := by
  unfold execThermalResume
  repeat' first
    | with_reducible assumption
    | (with_reducible apply Keeps.ite <;> intro _)
    | with_reducible apply Keeps.next
    | with_reducible apply resumeStart_keeps
    | with_reducible exact Keeps.lit (by with_reducible assumption) rfl rfl rfl rfl rfl rfl rfl rfl
    | split
    | with_reducible refine Keeps.lit ?_ rfl rfl rfl rfl rfl rfl rfl rfl

theorem execSensorWarning_keeps (s : State) (h : Keeps s0 s) (n : Sensor) : KeepsOut s0 (execSensorWarning n s) := by
  unfold execSensorWarning
  repeat' first
    | with_reducible assumption
    | (with_reducible apply Keeps.ite <;> intro _)
    | with_reducible apply Keeps.next
    | with_reducible apply Keeps.emit
    | with_reducible exact Keeps.lit (by with_reducible assumption) rfl rfl rfl rfl rfl rfl rfl rfl
    | extract_lets
    | split
    | with_reducible refine Keeps.lit ?_ rfl rfl rfl rfl rfl rfl rfl rfl

theorem execRefclkLoss_keeps (s : State) (h : Keeps s0 s) : KeepsOut s0 (execRefclkLoss s) := by
  unfold execRefclkLoss
  repeat' first
    | with_reducible assumption
    | (with_reducible apply Keeps.ite <;> intro _)
    | with_reducible apply Keeps.next
    | with_reducible apply resetModule_keeps
    | with_reducible exact Keeps.lit (by with_reducible assumption) rfl rfl rfl rfl rfl rfl rfl rfl
    | extract_lets
    | split
    | with_reducible refine Keeps.lit ?_ rfl rfl rfl rfl rfl rfl rfl rfl

theorem execRefclkReturn_keeps (s : State) (h : Keeps s0 s) : KeepsOut s0 (execRefclkReturn s) := by
  unfold execRefclkReturn
  repeat' first
    | with_reducible assumption
    | (with_reducible apply Keeps.ite <;> intro _)
    | with_reducible apply Keeps.next
    | with_reducible apply resumeStart_keeps
    | with_reducible exact Keeps.lit (by with_reducible assumption) rfl rfl rfl rfl rfl rfl rfl rfl
    | extract_lets
    | split
    | with_reducible refine Keeps.lit ?_ rfl rfl rfl rfl rfl rfl rfl rfl

theorem execPowerGovernor_keeps (s : State) (h : Keeps s0 s) (withhold : Bool) : KeepsOut s0 (execPowerGovernor withhold s) := by
  unfold execPowerGovernor
  repeat' first
    | with_reducible assumption
    | (with_reducible apply Keeps.ite <;> intro _)
    | with_reducible apply Keeps.next
    | with_reducible apply free_keeps
    | with_reducible exact Keeps.lit (by with_reducible assumption) rfl rfl rfl rfl rfl rfl rfl rfl
    | with_reducible refine Keeps.pair (by with_reducible assumption) ?_
    | extract_lets
    | split
    | with_reducible refine Keeps.lit ?_ rfl rfl rfl rfl rfl rfl rfl rfl

end Sys2Proof.Machine
end

