-- ==== Sys2Proof/Laws/KeepsReadback.lean ====
section
/-!
SUPPORT. What the operations of Machine/Readback.lean keep.
-/

namespace Sys2Proof.Machine

open Sys2Proof

variable {s0 : State}

theorem seen_keeps (s : State) (h : Keeps s0 s) : Keeps s0 (State.seen s) := by
  unfold State.seen
  repeat' first
    | with_reducible assumption
    | (with_reducible apply Keeps.ite <;> intro _)
    | with_reducible exact Keeps.lit (by with_reducible assumption) rfl rfl rfl rfl rfl rfl rfl rfl
    | split
    | with_reducible refine Keeps.lit ?_ rfl rfl rfl rfl rfl rfl rfl rfl

end Sys2Proof.Machine
end

