-- ==== Sys2Proof/Laws/KeepsRegisters.lean ====
section
/-!
SUPPORT. What the operations of Machine/Registers.lean keep.
-/

namespace Sys2Proof.Machine

open Sys2Proof

variable {s0 : State}

theorem execSetupLockTake_keeps (s : State) (h : Keeps s0 s) (p : Port) (f : Fn) : KeepsOut s0 (execSetupLockTake p f s) := by
  unfold execSetupLockTake
  apply Keeps.next
  split
  · exact h
  · next hl =>
    refine h.trans ⟨rfl, id, fun m => List.prefix_rfl, fun m x => x, Nat.le_refl _, fun p => .inl rfl, id, ?_⟩
    intro _ x
    simp [x] at hl

theorem startInval_keeps (s : State) (h : Keeps s0 s) (c : CtxNo) (region : Option Nat) : Keeps s0 (State.startInval s c region) := by
  unfold State.startInval
  repeat' first
    | with_reducible assumption
    | with_reducible exact Keeps.lit (by with_reducible assumption) rfl rfl rfl rfl rfl rfl rfl rfl
    | with_reducible refine Keeps.lit ?_ rfl rfl rfl rfl rfl rfl rfl rfl

theorem execMemInval_keeps (s : State) (h : Keeps s0 s) (p : Port) (c : CtxNo) (whole : Bool) (va : Nat) : KeepsOut s0 (execMemInval p c whole va s) := by
  unfold execMemInval
  repeat' first
    | with_reducible assumption
    | (with_reducible apply Keeps.ite <;> intro _)
    | with_reducible apply Keeps.next
    | with_reducible apply startInval_keeps
    | with_reducible exact Keeps.lit (by with_reducible assumption) rfl rfl rfl rfl rfl rfl rfl rfl
    | extract_lets
    | split
    | with_reducible refine Keeps.lit ?_ rfl rfl rfl rfl rfl rfl rfl rfl

theorem endInval_keeps (s : State) (h : Keeps s0 s) (j : CtxNo × Option Nat) : Keeps s0 (State.endInval s j) := by
  unfold State.endInval
  repeat' first
    | with_reducible assumption
    | (with_reducible apply Keeps.ite <;> intro _)
    | with_reducible apply Keeps.updCtx
    | with_reducible exact Keeps.lit (by with_reducible assumption) rfl rfl rfl rfl rfl rfl rfl rfl
    | split
    | with_reducible refine Keeps.lit ?_ rfl rfl rfl rfl rfl rfl rfl rfl

theorem execMemInvalComplete_keeps (s : State) (h : Keeps s0 s) : KeepsOut s0 (execMemInvalComplete s) := by
  unfold execMemInvalComplete
  repeat' first
    | with_reducible assumption
    | with_reducible apply Keeps.next
    | with_reducible apply endInval_keeps
    | with_reducible refine Keeps.foldl _ ?_ _ fun _ _ _ => ?_
    | with_reducible exact Keeps.lit (by with_reducible assumption) rfl rfl rfl rfl rfl rfl rfl rfl
    | with_reducible refine Keeps.lit ?_ rfl rfl rfl rfl rfl rfl rfl rfl
    | extract_lets

theorem execDbgQuiesce_keeps (s : State) (h : Keeps s0 s) (value : W64) : KeepsOut s0 (execDbgQuiesce value s) := by
  unfold execDbgQuiesce
  repeat' first
    | with_reducible assumption
    | (with_reducible apply Keeps.ite <;> intro _)
    | with_reducible apply Keeps.next
    | with_reducible exact Keeps.lit (by with_reducible assumption) rfl rfl rfl rfl rfl rfl rfl rfl
    | split
    | with_reducible refine Keeps.lit ?_ rfl rfl rfl rfl rfl rfl rfl rfl

theorem execQuiesceTimeout_keeps (s : State) (h : Keeps s0 s) (e : Eng) : KeepsOut s0 (execQuiesceTimeout e s) := by
  unfold execQuiesceTimeout
  repeat' first
    | with_reducible assumption
    | (with_reducible apply Keeps.ite <;> intro _)
    | with_reducible apply Keeps.next
    | with_reducible apply unquiesce_keeps
    | split

theorem writeGroup_keeps (s : State) (h : Keeps s0 s) (p : Port) (e : Eng) (k : StreamNo) (off : Nat) (size : Nat) (v : W64) : Keeps s0 (State.writeGroup s p e k off size v) := by
  unfold State.writeGroup
  repeat' first
    | with_reducible assumption
    | (with_reducible apply Keeps.ite <;> intro _)
    | with_reducible apply Keeps.updEng
    | with_reducible apply afterRecords_keeps
    | with_reducible exact Keeps.lit (by with_reducible assumption) rfl rfl rfl rfl rfl rfl rfl rfl
    | extract_lets
    | split
    | with_reducible refine Keeps.lit ?_ rfl rfl rfl rfl rfl rfl rfl rfl

theorem execGroupRecordWrite_keeps (s : State) (h : Keeps s0 s) (p : Port) (e : Eng) (k : StreamNo) (off : Nat) (size : Nat) (v : W64) : KeepsOut s0 (execGroupRecordWrite p e k off size v s) := by
  unfold execGroupRecordWrite
  repeat' first
    | with_reducible assumption
    | (with_reducible apply Keeps.ite <;> intro _)
    | with_reducible apply Keeps.next
    | with_reducible apply writeGroup_keeps
    | split

theorem after_keeps (s : State) (h : Keeps s0 s) (o : Out) (ho : KeepsOut s0 o) : Keeps s0 (after s o) := by
  unfold after
  split
  · exact ho _ rfl
  · exact h

theorem writeCtxCmd_keeps (s : State) (h : Keeps s0 s) (p : Port) (f : Fn) (w : WrWord) : Keeps s0 (State.writeCtxCmd s p f w) := by
  unfold State.writeCtxCmd
  repeat' first
    | with_reducible assumption
    | (with_reducible apply Keeps.ite <;> intro _)
    | with_reducible apply Keeps.updArea
    | with_reducible apply after_keeps
    | with_reducible apply execCtxCreate_keeps
    | with_reducible apply execCtxAdopt_keeps
    | with_reducible apply execCtxDestroy_keeps
    | with_reducible apply execCtxAbort_keeps
    | with_reducible exact Keeps.lit (by with_reducible assumption) rfl rfl rfl rfl rfl rfl rfl rfl
    | extract_lets
    | split
    | with_reducible refine Keeps.lit ?_ rfl rfl rfl rfl rfl rfl rfl rfl

theorem writeArea_keeps (s : State) (h : Keeps s0 s) (p : Port) (f : Fn) (o : Nat) (off : Nat) (size : Nat) (v : W64) : Keeps s0 (State.writeArea s p f o off size v) := by
  unfold State.writeArea
  repeat' first
    | with_reducible assumption
    | (with_reducible apply Keeps.ite <;> intro _)
    | with_reducible apply Keeps.updArea
    | with_reducible apply writeCtxCmd_keeps
    | with_reducible exact Keeps.lit (by with_reducible assumption) rfl rfl rfl rfl rfl rfl rfl rfl
    | split
    | with_reducible refine Keeps.lit ?_ rfl rfl rfl rfl rfl rfl rfl rfl

theorem writeRingCmd_keeps (s : State) (h : Keeps s0 s) (p : Port) (h : Port) (f : Fn) (w : WrWord) : Keeps s0 (State.writeRingCmd s p h f w) := by
  unfold State.writeRingCmd
  repeat' first
    | with_reducible assumption
    | (with_reducible apply Keeps.ite <;> intro _)
    | with_reducible apply Keeps.updArea
    | with_reducible apply execRingStop_keeps
    | with_reducible apply answerRing_keeps
    | with_reducible apply execRingResume_keeps
    | with_reducible apply takeRing_keeps
    | with_reducible apply execCqDisable_keeps
    | with_reducible apply after_keeps
    | with_reducible apply execRingEnable_keeps
    | with_reducible apply execRingPause_keeps
    | with_reducible apply execRingDisable_keeps
    | with_reducible apply execCqEnable_keeps
    | with_reducible exact Keeps.lit (by with_reducible assumption) rfl rfl rfl rfl rfl rfl rfl rfl
    | extract_lets
    | split
    | with_reducible refine Keeps.lit ?_ rfl rfl rfl rfl rfl rfl rfl rfl

theorem writeRingRegs_keeps (s : State) (h : Keeps s0 s) (p : Port) (h : Port) (f : Fn) (o : Nat) (w : WrWord) : Keeps s0 (State.writeRingRegs s p h f o w) := by
  unfold State.writeRingRegs
  repeat' first
    | with_reducible assumption
    | (with_reducible apply Keeps.ite <;> intro _)
    | with_reducible apply Keeps.updArea
    | with_reducible apply writeRingCmd_keeps
    | with_reducible exact Keeps.lit (by with_reducible assumption) rfl rfl rfl rfl rfl rfl rfl rfl
    | split
    | with_reducible refine Keeps.lit ?_ rfl rfl rfl rfl rfl rfl rfl rfl

theorem writeMsix_keeps (s : State) (h : Keeps s0 s) (p : Port) (f : Fn) (o : Nat) (w : WrWord) : Keeps s0 (State.writeMsix s p f o w) := by
  unfold State.writeMsix
  extract_lets m v m1 go s1
  have h1 : Keeps s0 s1 := h.updPort _ _ fun x => .inl (by simp only [HostPort.setMsix]; split <;> rfl)
  clear_value s1 go
  split
  · exact h1.emit _
  · exact h1

theorem writePort_keeps (s : State) (h : Keeps s0 s) (p : Port) (off : Nat) (w : WrWord) : Keeps s0 (State.writePort s p off w) := by
  unfold State.writePort
  repeat' first
    | with_reducible assumption
    | (with_reducible apply Keeps.ite <;> intro _)
    | with_reducible apply Keeps.updPort
    | with_reducible apply enablePort_keeps
    | with_reducible apply lockedWrite_keeps
    | (intro x; exact .inl rfl)
    | with_reducible exact Keeps.lit (by with_reducible assumption) rfl rfl rfl rfl rfl rfl rfl rfl
    | extract_lets
    | split
    | with_reducible refine Keeps.lit ?_ rfl rfl rfl rfl rfl rfl rfl rfl

theorem writeIrq_keeps (s : State) (h : Keeps s0 s) (h : Port) (o : Nat) (w : WrWord) : Keeps s0 (State.writeIrq s h o w) := by
  unfold State.writeIrq
  repeat' first
    | with_reducible assumption
    | (with_reducible apply Keeps.ite <;> intro _)
    | with_reducible apply Keeps.updPort
    | with_reducible apply writeMsix_keeps
    | (intro x; exact .inl rfl)
    | with_reducible exact Keeps.lit (by with_reducible assumption) rfl rfl rfl rfl rfl rfl rfl rfl
    | split
    | with_reducible refine Keeps.lit ?_ rfl rfl rfl rfl rfl rfl rfl rfl

theorem writeMem_keeps (s : State) (h : Keeps s0 s) (p : Port) (o : Nat) (w : WrWord) : Keeps s0 (State.writeMem s p o w) := by
  unfold State.writeMem
  repeat' first
    | with_reducible assumption
    | (with_reducible apply Keeps.ite <;> intro _)
    | with_reducible apply Keeps.updCtx
    | with_reducible apply Keeps.updPort
    | with_reducible apply execFaultResumeAbort_keeps
    | with_reducible apply after_keeps
    | with_reducible apply confirmRetire_keeps
    | with_reducible apply execFaultResumeRetry_keeps
    | with_reducible apply takeResume_keeps
    | with_reducible apply startInval_keeps
    | (intro x; exact .inl rfl)
    | with_reducible exact Keeps.lit (by with_reducible assumption) rfl rfl rfl rfl rfl rfl rfl rfl
    | extract_lets
    | split
    | with_reducible refine Keeps.lit ?_ rfl rfl rfl rfl rfl rfl rfl rfl

theorem writePeerCtl_keeps (s : State) (h : Keeps s0 s) (i : PeerPort) (w : WrWord) : Keeps s0 (State.writePeerCtl s i w) := by
  unfold State.writePeerCtl
  repeat' first
    | with_reducible assumption
    | (with_reducible apply Keeps.ite <;> intro _)
    | with_reducible apply retrainPort_keeps
    | with_reducible apply enablePeer_keeps
    | with_reducible apply afterRecords_keeps
    | with_reducible apply disablePeer_keeps
    | extract_lets
    | split

theorem writePeer_keeps (s : State) (h : Keeps s0 s) (o : Nat) (w : WrWord) : Keeps s0 (State.writePeer s o w) := by
  unfold State.writePeer
  repeat' first
    | with_reducible assumption
    | (with_reducible apply Keeps.ite <;> intro _)
    | with_reducible apply afterRecords_keeps
    | with_reducible apply writeNode_keeps
    | with_reducible apply writePeerCtl_keeps
    | with_reducible exact Keeps.lit (by with_reducible assumption) rfl rfl rfl rfl rfl rfl rfl rfl
    | split
    | with_reducible refine Keeps.lit ?_ rfl rfl rfl rfl rfl rfl rfl rfl

theorem writeSwreset_keeps (s : State) (h : Keeps s0 s) (w : WrWord) : Keeps s0 (State.writeSwreset s w) := by
  unfold State.writeSwreset
  repeat' first
    | with_reducible assumption
    | (with_reducible apply Keeps.ite <;> intro _)
    | with_reducible apply execSwresetEngine_keeps
    | with_reducible apply after_keeps
    | with_reducible apply execSwresetModule_keeps
    | with_reducible apply execSwresetPartition_keeps
    | with_reducible exact Keeps.lit (by with_reducible assumption) rfl rfl rfl rfl rfl rfl rfl rfl
    | extract_lets
    | split
    | with_reducible refine Keeps.lit ?_ rfl rfl rfl rfl rfl rfl rfl rfl

theorem writeRcv_keeps (s : State) (h : Keeps s0 s) (o : Nat) (w : WrWord) : Keeps s0 (State.writeRcv s o w) := by
  unfold State.writeRcv
  repeat' first
    | with_reducible assumption
    | (with_reducible apply Keeps.ite <;> intro _)
    | with_reducible apply Keeps.updPort
    | with_reducible apply writeSwreset_keeps
    | with_reducible apply after_keeps
    | with_reducible apply execPartFenceRelease_keeps
    | with_reducible apply execFenceRelease_keeps
    | (intro x; exact .inl rfl)
    | with_reducible exact Keeps.lit (by with_reducible assumption) rfl rfl rfl rfl rfl rfl rfl rfl
    | split
    | with_reducible refine Keeps.lit ?_ rfl rfl rfl rfl rfl rfl rfl rfl

theorem writePwr_keeps (s : State) (h : Keeps s0 s) (o : Nat) (w : WrWord) : Keeps s0 (State.writePwr s o w) := by
  unfold State.writePwr
  repeat' first
    | with_reducible assumption
    | (with_reducible apply Keeps.ite <;> intro _)
    | with_reducible apply lockedWrite_keeps
    | with_reducible exact Keeps.lit (by with_reducible assumption) rfl rfl rfl rfl rfl rfl rfl rfl
    | extract_lets
    | split
    | with_reducible refine Keeps.lit ?_ rfl rfl rfl rfl rfl rfl rfl rfl

theorem writeAge_keeps (s : State) (h : Keeps s0 s) (o : Nat) (w : WrWord) : Keeps s0 (State.writeAge s o w) := by
  unfold State.writeAge
  repeat' first
    | with_reducible assumption
    | (with_reducible apply Keeps.ite <;> intro _)
    | with_reducible apply after_keeps
    | with_reducible apply execLedgerRead_keeps
    | with_reducible apply execReplan_keeps
    | with_reducible exact Keeps.lit (by with_reducible assumption) rfl rfl rfl rfl rfl rfl rfl rfl
    | extract_lets
    | split
    | with_reducible refine Keeps.lit ?_ rfl rfl rfl rfl rfl rfl rfl rfl

theorem writeSec_keeps (s : State) (h : Keeps s0 s) (p : Port) (o : Nat) (w : WrWord) : Keeps s0 (State.writeSec s p o w) := by
  unfold State.writeSec
  repeat' first
    | with_reducible assumption
    | (with_reducible apply Keeps.ite <;> intro _)
    | with_reducible apply execSetupLockTake_keeps
    | with_reducible apply after_keeps
    | with_reducible exact Keeps.lit (by with_reducible assumption) rfl rfl rfl rfl rfl rfl rfl rfl
    | split
    | with_reducible refine Keeps.lit ?_ rfl rfl rfl rfl rfl rfl rfl rfl

theorem writeEng_keeps (s : State) (h : Keeps s0 s) (p : Port) (e : Eng) (o : Nat) (off : Nat) (size : Nat) (v : W64) : Keeps s0 (State.writeEng s p e o off size v) := by
  unfold State.writeEng
  repeat' first
    | with_reducible assumption
    | (with_reducible apply Keeps.ite <;> intro _)
    | with_reducible apply Keeps.updEng
    | with_reducible apply writeGroup_keeps
    | with_reducible apply writeCfg_keeps
    | extract_lets
    | split

theorem writeReg_keeps (s : State) (h : Keeps s0 s) (q : Part) (d : Nat) (v : Nat) : Keeps s0 (State.writeReg s q d v) := by
  unfold State.writeReg
  repeat' first
    | with_reducible assumption
    | (with_reducible apply Keeps.ite <;> intro _)
    | with_reducible apply Keeps.updPart
    | with_reducible exact Keeps.lit (by with_reducible assumption) rfl rfl rfl rfl rfl rfl rfl rfl
    | extract_lets
    | split
    | with_reducible refine Keeps.lit ?_ rfl rfl rfl rfl rfl rfl rfl rfl

theorem writePart_keeps (s : State) (h : Keeps s0 s) (q : Part) (o : Nat) (w : WrWord) : Keeps s0 (State.writePart s q o w) := by
  unfold State.writePart
  repeat' first
    | with_reducible assumption
    | (with_reducible apply Keeps.ite <;> intro _)
    | with_reducible apply writeReg_keeps
    | extract_lets
    | split

theorem writeDbg_keeps (s : State) (h : Keeps s0 s) (o : Nat) (w : WrWord) : Keeps s0 (State.writeDbg s o w) := by
  unfold State.writeDbg
  repeat' first
    | with_reducible assumption
    | (with_reducible apply Keeps.ite <;> intro _)
    | with_reducible apply execDbgQuiesce_keeps
    | with_reducible apply after_keeps
    | with_reducible exact Keeps.lit (by with_reducible assumption) rfl rfl rfl rfl rfl rfl rfl rfl
    | split
    | with_reducible refine Keeps.lit ?_ rfl rfl rfl rfl rfl rfl rfl rfl

theorem writePf_keeps (s : State) (h : Keeps s0 s) (p : Port) (off : Nat) (size : Nat) (v : W64) : Keeps s0 (State.writePf s p off size v) := by
  unfold State.writePf
  repeat' first
    | with_reducible assumption
    | (with_reducible apply Keeps.ite <;> intro _)
    | with_reducible apply writeIrq_keeps
    | with_reducible apply writePeer_keeps
    | with_reducible apply writeArea_keeps
    | with_reducible apply writePort_keeps
    | with_reducible apply writeMem_keeps
    | with_reducible apply execContextRecordWrite_keeps
    | with_reducible apply writeRcv_keeps
    | with_reducible apply writeAge_keeps
    | with_reducible apply writeSwreset_keeps
    | with_reducible apply writeSec_keeps
    | with_reducible apply after_keeps
    | with_reducible apply writeDbg_keeps
    | with_reducible apply writePwr_keeps
    | with_reducible apply writePart_keeps
    | with_reducible apply writeEng_keeps
    | with_reducible apply writeRingRegs_keeps
    | with_reducible apply execRingRecordWrite_keeps
    | extract_lets
    | split

theorem writeVf_keeps (s : State) (h : Keeps s0 s) (p : Port) (f : Fn) (off : Nat) (size : Nat) (v : W64) : Keeps s0 (State.writeVf s p f off size v) := by
  unfold State.writeVf
  repeat' first
    | with_reducible assumption
    | (with_reducible apply Keeps.ite <;> intro _)
    | with_reducible apply writeArea_keeps
    | with_reducible apply writeMsix_keeps
    | with_reducible apply execContextRecordWrite_keeps
    | with_reducible apply after_keeps
    | with_reducible apply writeRingRegs_keeps
    | with_reducible apply execRingRecordWrite_keeps
    | extract_lets
    | split

theorem execRegisterWrite_keeps (s : State) (h : Keeps s0 s) (p : Port) (f : Fn) (off : Nat) (size : Nat) (value : W64) : KeepsOut s0 (execRegisterWrite p f off size value s) := by
  unfold execRegisterWrite
  repeat' first
    | with_reducible assumption
    | (with_reducible apply Keeps.ite <;> intro _)
    | with_reducible apply Keeps.next
    | with_reducible apply writeVf_keeps
    | with_reducible apply writePf_keeps
    | split

theorem hostHit_keeps (s : State) (h : Keeps s0 s) (pa : Nat) : Keeps s0 (State.hostHit s pa) := by
  unfold State.hostHit
  repeat' first
    | with_reducible assumption
    | with_reducible apply postErr_keeps
    | with_reducible apply retire_keeps
    | with_reducible exact Keeps.lit (by with_reducible assumption) rfl rfl rfl rfl rfl rfl rfl rfl
    | with_reducible refine Keeps.lit ?_ rfl rfl rfl rfl rfl rfl rfl rfl

theorem execBar4Read_keeps (s : State) (h : Keeps s0 s) (p : Port) (off : Nat) (len : Nat) (bad : Bool) : KeepsOut s0 (execBar4Read p off len bad s) := by
  unfold execBar4Read
  repeat' first
    | with_reducible assumption
    | (with_reducible apply Keeps.ite <;> intro _)
    | with_reducible apply Keeps.next
    | with_reducible apply Keeps.emit
    | with_reducible apply hostHit_keeps
    | split

theorem execBar4Write_keeps (s : State) (h : Keeps s0 s) (p : Port) (off : Nat) (data : List Byte) (bad : Bool) : KeepsOut s0 (execBar4Write p off data bad s) := by
  unfold execBar4Write
  repeat' first
    | with_reducible assumption
    | (with_reducible apply Keeps.ite <;> intro _)
    | with_reducible apply Keeps.next
    | with_reducible apply Keeps.hbmWrite
    | with_reducible apply hostHit_keeps
    | with_reducible exact Keeps.lit (by with_reducible assumption) rfl rfl rfl rfl rfl rfl rfl rfl
    | extract_lets
    | split
    | with_reducible refine Keeps.lit ?_ rfl rfl rfl rfl rfl rfl rfl rfl

end Sys2Proof.Machine
end

