-- ==== Sys2Proof/Laws/KeepsTick.lean ====
section
/-!
SUPPORT. What the operations of Machine/Tick.lean keep.
-/

namespace Sys2Proof.Machine

open Sys2Proof

variable {s0 : State}

theorem readSensors_keeps (s : State) (h : Keeps s0 s) : Keeps s0 (State.readSensors s) := by
  unfold State.readSensors
  repeat' first
    | with_reducible assumption
    | with_reducible exact Keeps.lit (by with_reducible assumption) rfl rfl rfl rfl rfl rfl rfl rfl
    | with_reducible refine Keeps.lit ?_ rfl rfl rfl rfl rfl rfl rfl rfl

/-- A fuse that is blown raises the floor, and nothing else of the start changes. -/
theorem BootBlock.blow_fuses (b : BootBlock) : b.svnFuses ≤ b.blow.svnFuses ∧ b.blow.ready = b.ready := by
  unfold BootBlock.blow
  split
  · exact ⟨Nat.le_refl _, rfl⟩
  · split
    · exact ⟨Nat.le_succ _, rfl⟩
    · exact ⟨Nat.le_refl _, rfl⟩

theorem tick_keeps (s : State) (h : Keeps s0 s) : Keeps s0 (tick s) := by
  unfold tick
  split
  · exact h
  · extract_lets hk ab s1
    have h1 : Keeps s0 s1 := h.trans ⟨rfl, fun x => x, fun m => List.prefix_rfl, fun m x => x, (BootBlock.blow_fuses _).1, fun p => .inl rfl,
      fun x => (BootBlock.blow_fuses s.boot).2 ▸ x, fun _ x => ⟨x, rfl, rfl⟩⟩
    clear_value s1
    split
    · exact readSensors_keeps _ h1
    · exact h1

end Sys2Proof.Machine
end

