-- ==== Sys2Proof/Laws/KeepsExec.lean ====
section
/-!
SUPPORT. What every command keeps: one case for each, the two exceptions with what they change.
-/

namespace Sys2Proof.Machine

open Sys2Proof

/-- Every command keeps what `Keeps` says, but that the end of HBM training may raise READY, and IDE_KM on a DOE mailbox sets a
key of that port. -/
theorem exec_keeps (c : Instr) (s t : State) (e : exec c s = .next t) :
    Keeps s t ∨
    (∃ a b, c = .hbmTrainingComplete a b ∧ Keeps s { t with boot := { t.boot with ready := s.boot.ready } }) ∨
    ∃ p n stream key, c = .ideKm (.doe p) n stream key ∧ s.secured (.doe p) n = true ∧
      t = (s.updPort p fun h => { h with ide := Tab.set h.ide stream.val key }).emit
        (.spdm (.doe p) "VENDOR_DEFINED_RESPONSE" []) := by
  have h := Keeps.refl s
  cases c
  case nop => exact .inl (execNop_keeps _ h _ _ _ e)
  case matmul => exact .inl (execMatmul_keeps _ h _ _ _ e)
  case fused => exact .inl (execFused_keeps _ h _ _ _ e)
  case move => exact .inl (execMove_keeps _ h _ _ _ e)
  case convert => exact .inl (execConvert_keeps _ h _ _ _ e)
  case vector => exact .inl (execVector_keeps _ h _ _ _ e)
  case solve => exact .inl (execSolve_keeps _ h _ _ _ e)
  case route => exact .inl (execRoute_keeps _ h _ _ _ e)
  case update => exact .inl (execUpdate_keeps _ h _ _ _ e)
  case setGroup => exact .inl (execSetGroup_keeps _ h _ _ _ e)
  case scale => exact .inl (execScale_keeps _ h _ _ _ e)
  case collective => exact .inl (execCollective_keeps _ h _ _ _ e)
  case sem => exact .inl (execSem_keeps _ h _ _ _ e)
  case cancel => exact .inl (execCancel_keeps _ h _ _ _ e)
  case checkpoint => exact .inl (execCheckpoint_keeps _ h _ _ _ e)
  case restore => exact .inl (execRestore_keeps _ h _ _ _ e)
  case selftest => exact .inl (execSelftest_keeps _ h _ _ _ e)
  case descriptorFetch => exact .inl (execDescriptorFetch_keeps _ h _ _ _ e)
  case descriptorChecks => exact .inl (execDescriptorChecks_keeps _ h _ _ _ e)
  case orderingRelease => exact .inl (execOrderingRelease_keeps _ h _ _ _ e)
  case semaphoreWaitMet => exact .inl (execSemaphoreWaitMet_keeps _ h _ _ _ e)
  case semaphoreRetest => exact .inl (execSemaphoreRetest_keeps _ h _ e)
  case predicateRead => exact .inl (execPredicateRead_keeps _ h _ _ _ e)
  case admission => exact .inl (execAdmission_keeps _ h _ _ _ e)
  case commandVisibility => exact .inl (execCommandVisibility_keeps _ h _ _ _ e)
  case completionRecordWrite => exact .inl (execCompletionRecordWrite_keeps _ h _ _ _ e)
  case modTimeExpiry => exact .inl (execModTimeExpiry_keeps _ h _ _ _ e)
  case submissionDoorbell => exact .inl (execSubmissionDoorbell_keeps _ h _ _ _ _ _ _ e)
  case completionRingHead => exact .inl (execCompletionRingHead_keeps _ h _ _ _ _ _ _ e)
  case namedTileArrival => exact .inl (execNamedTileArrival_keeps _ h _ _ _ e)
  case groupEntry => exact .inl (execGroupEntry_keeps _ h _ _ _ e)
  case tileDrain => exact .inl (execTileDrain_keeps _ h _ _ _ e)
  case scaleTrackerAccess => exact .inl (execScaleTrackerAccess_keeps _ h _ _ _ _ _ e)
  case tableBuild => exact .inl (execTableBuild_keeps _ h _ _ e)
  case taskSwitch => exact .inl (execTaskSwitch_keeps _ h _ _ e)
  case switchBack => exact .inl (execSwitchBack_keeps _ h _ _ e)
  case streamRequestGrant => exact .inl (execStreamRequestGrant_keeps _ h _ _ e)
  case streamReadLanded => exact .inl (execStreamReadLanded_keeps _ h _ _ _ _ e)
  case streamWriteAcknowledged => exact .inl (execStreamWriteAcknowledged_keeps _ h _ _ _ _ e)
  case slotRelease => exact .inl (execSlotRelease_keeps _ h _ _ _ e)
  case rateWindowExpiry => exact .inl (execRateWindowExpiry_keeps _ h _ _ e)
  case streamTranslationFault => exact .inl (execStreamTranslationFault_keeps _ h _ _ _ e)
  case priResponse => exact .inl (execPriResponse_keeps _ h _ _ _ e)
  case commandStopAtTile => exact .inl (execCommandStopAtTile_keeps _ h _ _ _ _ e)
  case meltComplete => exact .inl (execMeltComplete_keeps _ h _ _ _ e)
  case ctxCreate => exact .inl (execCtxCreate_keeps _ h _ _ _ _ e)
  case ctxAbort => exact .inl (execCtxAbort_keeps _ h _ _ _ _ e)
  case ctxDestroy => exact .inl (execCtxDestroy_keeps _ h _ _ _ _ e)
  case ctxAdopt => exact .inl (execCtxAdopt_keeps _ h _ _ _ _ _ e)
  case contextRecordWrite => exact .inl (execContextRecordWrite_keeps _ h _ _ _ _ _ _ _ e)
  case ringEnable => exact .inl (execRingEnable_keeps _ h _ _ _ _ e)
  case ringStop => exact .inl (execRingStop_keeps _ h _ _ _ _ e)
  case ringDisable => exact .inl (execRingDisable_keeps _ h _ _ _ _ e)
  case ringDisableComplete => exact .inl (execRingDisableComplete_keeps _ h _ _ _ e)
  case ringPause => exact .inl (execRingPause_keeps _ h _ _ _ _ e)
  case ringResume => exact .inl (execRingResume_keeps _ h _ _ _ _ e)
  case cqEnable => exact .inl (execCqEnable_keeps _ h _ _ _ _ e)
  case cqDisable => exact .inl (execCqDisable_keeps _ h _ _ _ _ e)
  case cqDisableComplete => exact .inl (execCqDisableComplete_keeps _ h _ _ _ e)
  case ringRecordWrite => exact .inl (execRingRecordWrite_keeps _ h _ _ _ _ _ _ _ _ e)
  case faultResumeRetry => exact .inl (execFaultResumeRetry_keeps _ h _ _ e)
  case faultResumeAbort => exact .inl (execFaultResumeAbort_keeps _ h _ _ e)
  case memInval => exact .inl (execMemInval_keeps _ h _ _ _ _ _ e)
  case memInvalComplete => exact .inl (execMemInvalComplete_keeps _ h _ e)
  case retireConfirm => exact .inl (execRetireConfirm_keeps _ h _ _ e)
  case fenceRelease => exact .inl (execFenceRelease_keeps _ h _ _ e)
  case partFenceRelease => exact .inl (execPartFenceRelease_keeps _ h _ _ e)
  case swresetEngine => exact .inl (execSwresetEngine_keeps _ h _ _ e)
  case swresetPartition => exact .inl (execSwresetPartition_keeps _ h _ _ e)
  case swresetModule => exact .inl (execSwresetModule_keeps _ h _ e)
  case setupLockTake => exact .inl (execSetupLockTake_keeps _ h _ _ _ e)
  case replan => exact .inl (execReplan_keeps _ h _ _ e)
  case ledgerRead => exact .inl (execLedgerRead_keeps _ h _ _ _ e)
  case retrain => exact .inl (execRetrain_keeps _ h _ _ e)
  case peerNodeWrite => exact .inl (execPeerNodeWrite_keeps _ h _ _ e)
  case portDisable => exact .inl (execPortDisable_keeps _ h _ _ e)
  case streamCfgWrite => exact .inl (execStreamCfgWrite_keeps _ h _ _ _ e)
  case streamCfgApply => exact .inl (execStreamCfgApply_keeps _ h _ _ e)
  case dbgQuiesce => exact .inl (execDbgQuiesce_keeps _ h _ _ e)
  case quiesceTimeout => exact .inl (execQuiesceTimeout_keeps _ h _ _ e)
  case groupRecordWrite => exact .inl (execGroupRecordWrite_keeps _ h _ _ _ _ _ _ _ e)
  case registerWrite => exact .inl (execRegisterWrite_keeps _ h _ _ _ _ _ _ e)
  case bar4Read => exact .inl (execBar4Read_keeps _ h _ _ _ _ _ e)
  case bar4Write => exact .inl (execBar4Write_keeps _ h _ _ _ _ _ e)
  case perstAssert => exact .inl (execPerstAssert_keeps _ h _ _ e)
  case perstDeassert => exact .inl (execPerstDeassert_keeps _ h _ _ e)
  case functionLevelReset => exact .inl (execFunctionLevelReset_keeps _ h _ _ e)
  case hostLinkDown => exact .inl (execHostLinkDown_keeps _ h _ _ e)
  case portDownTimeout => exact .inl (execPortDownTimeout_keeps _ h _ _ e)
  case hostLinkUp => exact .inl (execHostLinkUp_keeps _ h _ _ e)
  case badFlitReceived => exact .inl (execBadFlitReceived_keeps _ h _ _ _ e)
  case nak => exact .inl (execNak_keeps _ h _ _ _ e)
  case ident => exact .inl (execIdent_keeps _ h _ _ _ e)
  case identAck => exact .inl (execIdentAck_keeps _ h _ _ _ e)
  case identResend => exact .inl (execIdentResend_keeps _ h _ _ e)
  case packetForward => exact .inl (execPacketForward_keeps _ h _ _ _ _ e)
  case write => exact .inl (execWrite_keeps _ h _ _ _ e)
  case read => exact .inl (execRead_keeps _ h _ _ _ e)
  case writeAck => exact .inl (execWriteAck_keeps _ h _ _ _ e)
  case readData => exact .inl (execReadData_keeps _ h _ _ _ e)
  case peerResponseTimeout => exact .inl (execPeerResponseTimeout_keeps _ h _ _ e)
  case collUp => exact .inl (execCollUp_keeps _ h _ _ _ e)
  case collDown => exact .inl (execCollDown_keeps _ h _ _ _ e)
  case collPacketWaitTimeout => exact .inl (execCollPacketWaitTimeout_keeps _ h _ _ e)
  case notice => exact .inl (execNotice_keeps _ h _ _ _ e)
  case ackTimeout => exact .inl (execAckTimeout_keeps _ h _ _ e)
  case fecLockLost => exact .inl (execFecLockLost_keeps _ h _ _ e)
  case trainingStepComplete => exact .inl (execTrainingStepComplete_keeps _ h _ _ _ e)
  case trainingTimeout => exact .inl (execTrainingTimeout_keeps _ h _ _ e)
  case hbmUncorrectableError => exact .inl (execHbmUncorrectableError_keeps _ h _ _ _ e)
  case correctedError => exact .inl (execCorrectedError_keeps _ h _ _ _ e)
  case unitFault => exact .inl (execUnitFault_keeps _ h _ _ e)
  case engineHang => exact .inl (execEngineHang_keeps _ h _ _ e)
  case domainWatchdogExpiry => exact .inl (execDomainWatchdogExpiry_keeps _ h _ _ e)
  case clockFault => exact .inl (execClockFault_keeps _ h _ _ e)
  case contextAbortOnFault => exact .inl (execContextAbortOnFault_keeps _ h _ _ e)
  case engineReset => exact .inl (execEngineReset_keeps _ h _ _ _ e)
  case engineResetComplete => exact .inl (execEngineResetComplete_keeps _ h _ _ e)
  case partitionReset => exact .inl (execPartitionReset_keeps _ h _ _ _ e)
  case partitionResetComplete => exact .inl (execPartitionResetComplete_keeps _ h _ _ e)
  case moduleReset => exact .inl (execModuleReset_keeps _ h _ _ e)
  case powerCycleRequest => exact .inl (execPowerCycleRequest_keeps _ h _ _ e)
  case powerCycleRepeat => exact .inl (execPowerCycleRepeat_keeps _ h _ e)
  case deadlineMissed => exact .inl (execDeadlineMissed_keeps _ h _ _ e)
  case inputUndervoltage => exact .inl (execInputUndervoltage_keeps _ h _ e)
  case inputOvervoltage => exact .inl (execInputOvervoltage_keeps _ h _ e)
  case inputOvercurrent => exact .inl (execInputOvercurrent_keeps _ h _ e)
  case railStageShort => exact .inl (execRailStageShort_keeps _ h _ _ e)
  case reversedInput => exact .inl (execReversedInput_keeps _ h _ e)
  case polarityRestored => exact .inl (execPolarityRestored_keeps _ h _ e)
  case inputBladeOpen => exact .inl (execInputBladeOpen_keeps _ h _ e)
  case inputQualified => exact .inl (execInputQualified_keeps _ h _ e)
  case aux3v3Loss => exact .inl (execAux3v3Loss_keeps _ h _ e)
  case aux3v3Rise => exact .inl (execAux3v3Rise_keeps _ h _ e)
  case rootPllLock => exact .inl (execRootPllLock_keeps _ h _ _ e)
  case diesLoaded => exact .inl (execDiesLoaded_keeps _ h _ _ e)
  case hbmTrainingComplete a b => exact .inr (.inl ⟨a, b, rfl, execHbmTrainingComplete_keeps s t a b e⟩)
  case thermalShutdown => exact .inl (execThermalShutdown_keeps _ h _ e)
  case thermalResume => exact .inl (execThermalResume_keeps _ h _ e)
  case sensorWarning => exact .inl (execSensorWarning_keeps _ h _ _ e)
  case refclkLoss => exact .inl (execRefclkLoss_keeps _ h _ e)
  case refclkReturn => exact .inl (execRefclkReturn_keeps _ h _ e)
  case pathDelaySample => exact .inl (execPathDelaySample_keeps _ h _ _ _ e)
  case monitorSample => exact .inl (execMonitorSample_keeps _ h _ _ e)
  case hourlyLedgerSave => exact .inl (execHourlyLedgerSave_keeps _ h _ e)
  case planTimer => exact .inl (execPlanTimer_keeps _ h _ _ e)
  case railCodeStep => exact .inl (execRailCodeStep_keeps _ h _ _ e)
  case windowOpen => exact .inl (execWindowOpen_keeps _ h _ _ _ e)
  case windowClose => exact .inl (execWindowClose_keeps _ h _ _ e)
  case preemptionTimeout => exact .inl (execPreemptionTimeout_keeps _ h _ _ e)
  case getVersion => exact .inl (execGetVersion_keeps _ h _ _ e)
  case getCapabilities => exact .inl (execGetCapabilities_keeps _ h _ _ e)
  case negotiateAlgorithms => exact .inl (execNegotiateAlgorithms_keeps _ h _ _ _ e)
  case getDigests => exact .inl (execGetDigests_keeps _ h _ _ e)
  case getCertificate => exact .inl (execGetCertificate_keeps _ h _ _ _ _ _ e)
  case challenge => exact .inl (execChallenge_keeps _ h _ _ _ _ e)
  case getMeasurements => exact .inl (execGetMeasurements_keeps _ h _ _ _ _ e)
  case keyExchange => exact .inl (execKeyExchange_keeps _ h _ _ _ _ e)
  case finish => exact .inl (execFinish_keeps _ h _ _ _ _ e)
  case keyUpdate => exact .inl (execKeyUpdate_keeps _ h _ _ _ e)
  case heartbeat => exact .inl (execHeartbeat_keeps _ h _ _ _ e)
  case endSession => exact .inl (execEndSession_keeps _ h _ _ _ e)
  case getCsr => exact .inl (execGetCsr_keeps _ h _ _ _ e)
  case setCertificate => exact .inl (execSetCertificate_keeps _ h _ _ _ _ _ e)
  case ideKm x n stream key =>
    rcases execIdeKm_keeps s t x n stream key e with k | ⟨p, rfl, h1, h2⟩
    · exact .inl k
    · exact .inr (.inr ⟨p, n, stream, key, rfl, h1, h2⟩)
  case requestUpdate => exact .inl (execRequestUpdate_keeps _ h _ _ e)
  case firmwareImageWrite => exact .inl (execFirmwareImageWrite_keeps _ h _ _ _ _ e)
  case activateFirmware => exact .inl (execActivateFirmware_keeps _ h _ e)
  case getSensorReading => exact .inl (execGetSensorReading_keeps _ h _ _ e)
  case setdasa => exact .inl (execSetdasa_keeps _ h _ _ e)
  case rstdaa => exact .inl (execRstdaa_keeps _ h _ e)
  case idle => exact .inl (execIdle_keeps _ h _ _ _ _ e)
  case alignmentCodeword => exact .inl (execAlignmentCodeword_keeps _ h _ _ e)
  case powerGovernor => exact .inl (execPowerGovernor_keeps _ h _ _ e)
  case portEnable => exact .inl (execPortEnable_keeps _ h _ _ e)
  case peerPortDisable => exact .inl (execPeerPortDisable_keeps _ h _ _ e)
  case trialTimeout => exact .inl (execTrialTimeout_keeps _ h _ e)
  case backgroundItemComplete => exact .inl (execBackgroundItemComplete_keeps _ h _ _ _ _ _ e)
  case vfEnable => exact .inl (execVfEnable_keeps _ h _ _ _ e)
  case bar4Resize => exact .inl (execBar4Resize_keeps _ h _ _ _ e)

end Sys2Proof.Machine
end

