-- ==== Sys2Proof/Laws/Store.lean ====
section
/-!
SUPPORT. Laws of stores through translation: within a 64 KiB page the translation moves with the address, and a store
changes only the bytes its addresses translate to.
-/

namespace Sys2Proof.Machine

open Sys2Proof

/-- A translation moved on by `i` bytes within its page. -/
def Xlate.add (i : Nat) : Xlate → Xlate
  | .hbm pa => .hbm (pa + i)
  | .host p ha => .host p (ha + i)
  | .fault k => .fault k

/-- Two addresses of one 64 KiB page share every quotient by a power of two from 2^16 on. -/
theorem page_div {va i n : Nat} (h : i < pageLeft va) (hn : 16 ≤ n) : (va + i) / 2 ^ n = va / 2 ^ n := by
  obtain ⟨m, rfl⟩ : ∃ m, n = 16 + m := ⟨n - 16, by omega⟩
  rw [Nat.pow_add, ← Nat.div_div_eq_div_mul, ← Nat.div_div_eq_div_mul]
  congr 1
  unfold pageLeft at h
  omega

theorem page_mod {va i : Nat} (h : i < pageLeft va) : (va + i) % 65536 = va % 65536 + i := by
  unfold pageLeft at h; omega

theorem page_mod21 {va i : Nat} (h : i < pageLeft va) : (va + i) % 2 ^ 21 = va % 2 ^ 21 + i := by
  unfold pageLeft at h; omega

/-- A page walk moves with the address within a page, and keeps the place in the page. -/
theorem State.walkFrom_add (s : State) {va i : Nat} (h : i < pageLeft va) (w : Bool) (fuel lvl table : Nat) :
    s.walkFrom (va + i) w fuel lvl table = (match s.walkFrom va w fuel lvl table with
      | .inl k => .inl k
      | .inr (a, b) => .inr (a + i, b)) ∧
    ∀ a b, s.walkFrom va w fuel lvl table = .inr (a, b) → a % 65536 = va % 65536 := by
  induction fuel generalizing lvl table with
  | zero => exact ⟨rfl, fun a b e => by simp [State.walkFrom] at e⟩
  | succ fuel ih =>
    have hs : (va + i) / 2 ^ (levelShape lvl).1 = va / 2 ^ (levelShape lvl).1 := by
      apply page_div h
      unfold levelShape; split <;> simp
    simp only [State.walkFrom, hs]
    generalize table + 8 * (va / 2 ^ (levelShape lvl).1 % 2 ^ (levelShape lvl).2) = at_
    generalize leNat (s.hbmRead at_ 8) = en
    split
    · exact ⟨rfl, fun a b e => by simp at e⟩
    split
    · exact ⟨rfl, fun a b e => by simp at e⟩
    split
    · exact ⟨rfl, fun a b e => by simp at e⟩
    split
    · exact ⟨rfl, fun a b e => by simp at e⟩
    split
    · exact ⟨rfl, fun a b e => by simp at e⟩
    split
    · exact ⟨rfl, fun a b e => by simp at e⟩
    split
    · exact ⟨rfl, fun a b e => by simp at e⟩
    next ha =>
    split
    · next hp =>
      by_cases h5 : lvl = 5
      · simp only [h5, if_true] at ha ⊢
        refine ⟨by rw [page_mod h]; simp [Nat.add_assoc], ?_⟩
        intro a b e
        simp only [Sum.inr.injEq, Prod.mk.injEq] at e
        have : bitsOf en 51 7 * 128 % 65536 = 0 := by simpa [entryAlign] using ha
        omega
      · simp only [h5, if_false] at ha ⊢
        refine ⟨by rw [page_mod21 h]; simp [Nat.add_assoc], ?_⟩
        intro a b e
        simp only [Sum.inr.injEq, Prod.mk.injEq] at e
        have : bitsOf en 51 7 * 128 % 2 ^ 21 = 0 := by
          have hp' := hp
          simp only [h5, beq_iff_eq, Bool.or_eq_true, false_or] at hp'
          simpa [entryAlign, h5, hp'] using ha
        omega
    · exact ih (lvl + 1) _

/-- Two physical addresses of one page are retired together. -/
theorem State.retired_add (s : State) {a i : Nat} (h : i < pageLeft a) : s.retired (a + i) = s.retired a := by
  have e : (a + i) / 65536 = a / 65536 := by simpa using page_div (n := 16) h (by omega)
  have es : pageStack (a + i) = pageStack a := by simp [pageStack, e]
  have ei : pageIndex (a + i) = pageIndex a := by simp [pageIndex, e]
  simp only [State.retired, es, ei]

/-- A translation moves with the address within a 64 KiB page. -/
theorem State.xlate_add (s : State) (c : CtxNo) {va i : Nat} (h : i < pageLeft va) (w : Bool) :
    s.xlate c (va + i) w = (s.xlate c va w).add i := by
  obtain ⟨e1, e2⟩ := s.walkFrom_add h w 5 1 (s.ctx c).root
  have e52 : (2 ^ 52 ≤ va + i) ↔ 2 ^ 52 ≤ va := by unfold pageLeft at h; omega
  have e21 : (va + i) / 2 ^ 21 = va / 2 ^ 21 := page_div h (by omega)
  simp only [State.xlate, State.xlateIn, e52, e21, e1]
  split
  · rfl
  split
  · rfl
  generalize hw : s.walkFrom va w 5 1 (s.ctx c).root = r at e2
  cases r with
  | inl k => rfl
  | inr x =>
    obtain ⟨a, b⟩ := x
    have hm := e2 a b rfl
    have hi : i < pageLeft a := by unfold pageLeft at *; omega
    cases b with
    | false =>
      simp only [s.retired_add hi]
      split <;> rfl
    | true =>
      dsimp only
      split
      · rfl
      · have ea : (a + i) / 65536 = a / 65536 := by simpa using page_div (n := 16) hi (by omega)
        simp only [State.atsOf, ea]
        split <;> simp_all [Xlate.add]

/-- What a store changes: the contents of the memories, nothing else. -/
theorem State.vwriteGo_eq (x s : State) (c : CtxNo) (fuel va : Nat) (bs : List Byte) :
    x.vwriteGo s c fuel va bs = { s with mem := { s.mem with
      hbm := (x.vwriteGo s c fuel va bs).mem.hbm, host := (x.vwriteGo s c fuel va bs).mem.host } } := by
  induction fuel generalizing s va bs with
  | zero => rfl
  | succ fuel ih =>
    simp only [State.vwriteGo]
    split
    · rfl
    · split
      · exact ih _ _ _
      · next pa e => have h := ih (s.hbmWrite pa (bs.take (min bs.length (pageLeft va)))) (va + min bs.length (pageLeft va)) (bs.drop (min bs.length (pageLeft va)))
                     have g := s.hbmWrite_eq pa (bs.take (min bs.length (pageLeft va)))
                     generalize s.hbmWrite pa (bs.take (min bs.length (pageLeft va))) = s1 at h g ⊢
                     rw [h, g]
      · exact ih _ _ _

theorem State.vwriteGo_memoryOk {x s : State} (h : Safety.memoryOk s) (c : CtxNo) (fuel va : Nat) (bs : List Byte) :
    Safety.memoryOk (x.vwriteGo s c fuel va bs) := (vwriteGo_keeps x s (Keeps.refl s) c fuel va bs).memory h

/-- A store leaves every HBM byte that none of its addresses translates to. -/
theorem State.vwriteGo_hbm (x s : State) (w : Safety.memoryOk s) (c : CtxNo) (fuel va : Nat) (bs : List Byte) (pa : Nat)
    (h : ∀ i < bs.length, x.xlate c (va + i) true ≠ .hbm pa) :
    Memory.get (x.vwriteGo s c fuel va bs).mem.hbm pa = Memory.get s.mem.hbm pa := by
  induction fuel generalizing s va bs with
  | zero => rfl
  | succ fuel ih =>
    simp only [State.vwriteGo]
    split
    · rfl
    · generalize hk : min bs.length (pageLeft va) = k
      have hkl : k ≤ bs.length := by omega
      have hkp : k ≤ pageLeft va := by omega
      have hd : ∀ i < (bs.drop k).length, x.xlate c (va + k + i) true ≠ .hbm pa := by
        intro i hi
        have hi' : k + i < bs.length := by simp at hi; omega
        have := h (k + i) hi'
        rwa [← Nat.add_assoc] at this
      split
      · exact ih s w _ _ hd
      · next a e =>
        rw [ih _ ((Keeps.refl s).hbmWrite _ _ |>.memory w) _ _ hd]
        refine State.hbm_get_hbmWrite_outside w.1 _ _ _ ?_
        by_cases hlt : pa < a
        · exact .inl hlt
        · refine .inr ?_
          have : ¬ pa - a < k := fun hc => by
            have h1 := h (pa - a) (by omega)
            rw [x.xlate_add c (by omega), e] at h1
            simp only [Xlate.add] at h1
            exact h1 (by congr 1; omega)
          simp; omega
      · next p a e =>
        exact ih _ ((Keeps.refl s).hostWrite _ _ _ |>.memory w) _ _ hd

/-- A store leaves every byte of host memory that none of its addresses translates to. -/
theorem State.vwriteGo_host (x s : State) (w : Safety.memoryOk s) (c : CtxNo) (fuel va : Nat) (bs : List Byte) (p : Port)
    (ha : Nat) (h : ∀ i < bs.length, x.xlate c (va + i) true ≠ .host p ha) :
    Memory.get ((x.vwriteGo s c fuel va bs).hostMem p) ha = Memory.get (s.hostMem p) ha := by
  induction fuel generalizing s va bs with
  | zero => rfl
  | succ fuel ih =>
    simp only [State.vwriteGo]
    split
    · rfl
    · generalize hk : min bs.length (pageLeft va) = k
      have hkl : k ≤ bs.length := by omega
      have hkp : k ≤ pageLeft va := by omega
      have hd : ∀ i < (bs.drop k).length, x.xlate c (va + k + i) true ≠ .host p ha := by
        intro i hi
        have hi' : k + i < bs.length := by simp at hi; omega
        have := h (k + i) hi'
        rwa [← Nat.add_assoc] at this
      split
      · exact ih s w _ _ hd
      · next a e =>
        rw [ih _ ((Keeps.refl s).hbmWrite _ _ |>.memory w) _ _ hd]
        rw [State.hbmWrite_eq]; rfl
      · next q a e =>
        rw [ih _ ((Keeps.refl s).hostWrite _ _ _ |>.memory w) _ _ hd]
        by_cases hq : p = q
        · subst hq
          rw [State.hostMem_hostWrite_same]
          refine Memory.get_write_outside (w.2 p) _ _ _ ?_
          by_cases hlt : ha < a
          · exact .inl hlt
          · refine .inr ?_
            have : ¬ ha - a < k := fun hc => by
              have h1 := h (ha - a) (by omega)
              rw [x.xlate_add c (by omega), e] at h1
              simp only [Xlate.add] at h1
              exact h1 (by congr 1; omega)
            simp; omega
        · rw [State.hostMem_hostWrite_ne _ _ _ _ hq]

/-- A store changes the contents of the memories and nothing else. -/
theorem State.vwrite_eq {s t : State} {c : CtxNo} {va : Nat} {bs : List Byte} (e : s.vwrite c va bs = .ok t) :
    t = { s with mem := { s.mem with hbm := t.mem.hbm, host := t.mem.host } } := by
  unfold State.vwrite at e
  split at e
  · cases e
  · injection e with e; subst e; exact State.vwriteGo_eq _ _ _ _ _ _

theorem State.vwrite_hbm {s t : State} (w : Safety.memoryOk s) {c : CtxNo} {va : Nat} {bs : List Byte}
    (e : s.vwrite c va bs = .ok t) (pa : Nat) (h : ∀ i < bs.length, s.xlate c (va + i) true ≠ .hbm pa) :
    Memory.get t.mem.hbm pa = Memory.get s.mem.hbm pa := by
  unfold State.vwrite at e
  split at e
  · cases e
  · injection e with e; subst e; exact State.vwriteGo_hbm _ _ w _ _ _ _ _ h

theorem State.vwrite_host {s t : State} (w : Safety.memoryOk s) {c : CtxNo} {va : Nat} {bs : List Byte}
    (e : s.vwrite c va bs = .ok t) (p : Port) (ha : Nat) (h : ∀ i < bs.length, s.xlate c (va + i) true ≠ .host p ha) :
    Memory.get (t.hostMem p) ha = Memory.get (s.hostMem p) ha := by
  unfold State.vwrite at e
  split at e
  · cases e
  · injection e with e; subst e; exact State.vwriteGo_host _ _ w _ _ _ _ _ _ h

end Sys2Proof.Machine
end

