-- ==== Sys2Proof/Laws/Frames.lean ====
section
/-!
SUPPORT. Frames of shared operations: what the stores, the row operations and the follow-up of a port event leave alone.
-/

namespace Sys2Proof.Machine

open Sys2Proof

/-! ### Stores -/

theorem onlyMemory_refl (s : State) : Safety.onlyMemory s s := rfl

theorem onlyMemory_trans {s t u : State} (h : Safety.onlyMemory s t) (k : Safety.onlyMemory t u) : Safety.onlyMemory s u := by
  unfold Safety.onlyMemory at *
  rw [k, h]

theorem vwrite_onlyMemory {s t : State} {c : CtxNo} {va : Nat} {bs : List Byte} (e : s.vwrite c va bs = .ok t) :
    Safety.onlyMemory s t := State.vwrite_eq e

theorem vwrite_leavesOutside {s t : State} (w : Safety.memoryOk s) {c : CtxNo} {va : Nat} {bs : List Byte}
    (e : s.vwrite c va bs = .ok t) : Safety.leavesOutside s t c va bs.length :=
  ⟨fun pa h => State.vwrite_hbm w e pa h, fun p ha h => State.vwrite_host w e p ha h⟩

theorem putElem_onlyMemory {s t : State} {c : CtxNo} {base bits i v : Nat} (e : s.putElem c base bits i v = .ok t) :
    Safety.onlyMemory s t := by
  unfold State.putElem at e
  split at e
  · exact vwrite_onlyMemory e
  · dsimp only at e
    cases hb : s.vread c (base + i * bits / 8) 1 with
    | error _ => rw [hb] at e; injection e
    | ok b => rw [hb] at e; exact vwrite_onlyMemory e

theorem putElems_onlyMemory {c : CtxNo} {base bits : Nat} (l : List (Nat × Nat)) {s t : State}
    (e : s.putElems c base bits l = .ok t) : Safety.onlyMemory s t := by
  induction l generalizing s with
  | nil => injection e with e; exact e ▸ onlyMemory_refl s
  | cons x l ih =>
    simp only [State.putElems] at e
    split at e
    · next s1 e1 => exact onlyMemory_trans (putElem_onlyMemory e1) (ih e)
    · injection e

theorem writeAll_onlyMemory {c : CtxNo} (l : List (Nat × List Byte)) {s t : State} (e : s.writeAll c l = .ok t) :
    Safety.onlyMemory s t := by
  induction l generalizing s with
  | nil => injection e with e; exact e ▸ onlyMemory_refl s
  | cons x l ih =>
    simp only [State.writeAll] at e
    split at e
    · next s1 e1 => exact onlyMemory_trans (vwrite_onlyMemory e1) (ih e)
    · injection e

/-- What holds of the state that an operation leaves when it succeeds. -/
def OkAll {ε : Type} (P : State → Prop) (x : Except ε State) : Prop := ∀ t, x = .ok t → P t

/-- What holds of the result of a sequence follows from what holds of its last part. -/
theorem OkAll.bind {ε α : Type} {P : State → Prop} {x : Except ε α} {f : α → Except ε State}
    (h : ∀ a, x = .ok a → OkAll P (f a)) : OkAll P (x >>= f) := by
  intro t e
  cases x with
  | error _ => injection e
  | ok a => exact h a rfl t e

theorem OkAll.pure {ε : Type} {P : State → Prop} {t : State} (h : P t) : OkAll (ε := ε) P (pure t) := fun u e => by
  injection e with e; exact e ▸ h

/-- A row done: the slot's row count is one more, and the command ends if that was its last row anywhere. -/
theorem rowDone_cases (s : State) (p : Port) (t : Tag) (e : Eng) (k : SlotNo) :
    ∃ f : Slot → Slot, (∀ v, (f v).rows = v.rows + 1) ∧
      (s.rowDone p t e k = s.updSlot e k f ∨ s.rowDone p t e k = (s.updSlot e k f).doneCmd p t) := by
  unfold State.rowDone
  extract_lets c s1
  refine ⟨fun v => { v with
    rows := v.rows + 1, vec := onVectorUnit c.op
    unit := if c.op = 0x04 ∨ c.op = 0x05 then 0
      else (unitsOf c.rowUnits c.mask e).1 + (v.rows + 1) / (if c.op = 0x08 then 64 else 1) }, fun _ => rfl, ?_⟩
  split
  · exact .inr rfl
  · exact .inl rfl

/-- A fold of operations that can fail keeps a reflexive and transitive relation that each of them keeps. -/
theorem foldE_rel {α σ : Type} (r : σ → σ → Prop) (hr : ∀ a, r a a) (ht : ∀ a b c, r a b → r b c → r a c)
    (f : σ → α → Except XErr σ) (hf : ∀ a x b, f a x = .ok b → r a b) (l : List α) (a b : σ) (e : foldE f a l = .ok b) :
    r a b := by
  induction l generalizing a with
  | nil => injection e with e; exact e ▸ hr a
  | cons x l ih =>
    simp only [foldE] at e
    split at e
    · next s' e' => exact ht _ _ _ (hf _ _ _ e') (ih s' e)
    · injection e

theorem putOuts_onlyMemory {s t : State} {c : Cmd} {r col : Nat} {v : VState} (e : s.putOuts c r col v = .ok t) :
    Safety.onlyMemory s t := by
  refine foldE_rel Safety.onlyMemory onlyMemory_refl (fun _ _ _ => onlyMemory_trans) _ ?_ _ _ _ e
  intro a x b eb
  dsimp only at eb
  split at eb
  · exact putElem_onlyMemory eb
  · injection eb with eb; exact eb ▸ onlyMemory_refl a

/-- A change of the memories followed by a change of one command. -/
theorem onlyMemoryAndCmd_of {s t : State} (h : Safety.onlyMemory s t) (p : Port) (tag : Tag) (f : Cmd → Cmd) :
    Safety.onlyMemoryAndCmd s (t.updCmd p tag f) p tag := by
  unfold Safety.onlyMemory at h
  unfold Safety.onlyMemoryAndCmd
  rw [State.cmd_updCmd_same]
  simp only [State.updCmd_mem]
  rw [← h]
  rfl

theorem vecRow_only {s t : State} {p : Port} {tag : Tag} {w : View} {c : Cmd} {r : Nat} (e : s.vecRow p tag w c r = .ok t) :
    Safety.onlyMemoryAndCmd s t p tag := by
  unfold State.vecRow at e
  cases e1 : foldE (fun (a : State × Cnt) col => do
    let v ← w.vecElem c r col
    let s1 ← a.1.putOuts c r col v
    pure (s1, a.2.add { sat := v.sat, under := v.under })) (s, {}) (List.range (c.f 76 4)) with
  | error x => rw [e1] at e; injection e
  | ok a =>
    rw [e1] at e
    injection e with e
    rw [← e]
    refine onlyMemoryAndCmd_of (s := s) (t := a.1) ?_ p tag _
    refine foldE_rel (fun x y => Safety.onlyMemory x.1 y.1) (fun a => onlyMemory_refl a.1)
      (fun a b c (h : Safety.onlyMemory a.1 b.1) (k : Safety.onlyMemory b.1 c.1) => onlyMemory_trans h k) _ ?_ _ _ _ e1
    intro a x b eb
    simp only [bind, Except.bind] at eb
    split at eb
    · cases eb
    · split at eb
      · cases eb
      · next s1 e2 => injection eb with eb; rw [← eb]; exact putOuts_onlyMemory e2

theorem solveOne_only {s t : State} {p : Port} {tag : Tag} {w : View} {c : Cmd} {r : Nat} (e : s.solveOne p tag w c r = .ok t) :
    Safety.onlyMemoryAndCmd s t p tag := by
  unfold State.solveOne at e
  simp only [bind, Except.bind] at e
  split at e
  · cases e
  split at e
  · cases e
  split at e
  · cases e
  next s1 e1 =>
  split at e
  · cases e
  next s2 e2 =>
  injection e with e
  rw [← e]
  exact onlyMemoryAndCmd_of (onlyMemory_trans (vwrite_onlyMemory e1) (vwrite_onlyMemory e2)) _ _ _

theorem updateRow_only {s t : State} {p : Port} {tag : Tag} {w : View} {c : Cmd} {r : Nat} (e : s.updateRow p tag w c r = .ok t) :
    t = ({ s with mem := t.mem, engines := t.engines } : State).updCmd p tag fun _ => t.cmd p tag := by
  have hv : ∀ {u : State} {va : Nat} {bs : List Byte} {f : Cmd → Cmd}, s.vwrite c.ctx va bs = .ok u →
      (u.updCmd p tag f) = ({ s with mem := (u.updCmd p tag f).mem, engines := (u.updCmd p tag f).engines } : State).updCmd p tag
        fun _ => (u.updCmd p tag f).cmd p tag := by
    intro u va bs f hu
    have := onlyMemoryAndCmd_of (vwrite_onlyMemory hu) p tag f
    unfold Safety.onlyMemoryAndCmd at this
    have e1 := vwrite_onlyMemory hu
    unfold Safety.onlyMemory at e1
    rw [State.cmd_updCmd_same]
    simp only [State.updCmd_mem, State.updCmd_engines]
    rw [e1]
    rfl
  suffices h : OkAll (fun t => t = ({ s with mem := t.mem, engines := t.engines } : State).updCmd p tag fun _ => t.cmd p tag)
      (s.updateRow p tag w c r) from h t e
  unfold State.updateRow
  extract_lets
  refine OkAll.bind fun _ _ => ?_
  split
  · exact OkAll.pure (by rw [State.cmd_updCmd_same]; rfl)
  · refine OkAll.bind fun _ _ => ?_
    dsimp only
    split
    · exact OkAll.bind fun _ _ => OkAll.bind fun _ _ => OkAll.bind fun u hu => OkAll.pure (hv hu)
    · exact OkAll.bind fun _ _ => OkAll.bind fun _ _ => OkAll.bind fun u hu => OkAll.pure (hv hu)

theorem convRow_only {s t : State} {p : Port} {tag : Tag} {w : View} {c : Cmd} {r : Nat} (e : s.convRow p tag w c r = .ok t) :
    Safety.onlyMemoryAndCmd s t p tag := by
  suffices h : OkAll (fun t => Safety.onlyMemoryAndCmd s t p tag) (s.convRow p tag w c r) from h t e
  unfold State.convRow
  extract_lets
  refine OkAll.bind fun bs _ => ?_
  extract_lets
  rename_i base bs _ codes cnt jp2 jp1
  have last : ∀ s1, Safety.onlyMemory s s1 → OkAll (fun t => Safety.onlyMemoryAndCmd s t p tag) (jp1 s1) := by
    intro s1 h1
    show OkAll _ (if _ then _ else _)
    split
    · exact OkAll.bind fun s2 h2 => OkAll.pure (onlyMemoryAndCmd_of (onlyMemory_trans h1 (vwrite_onlyMemory h2)) _ _ _)
    · exact OkAll.pure (onlyMemoryAndCmd_of h1 _ _ _)
  split
  · exact OkAll.bind fun s1 h1 => last s1 (vwrite_onlyMemory h1)
  · exact OkAll.bind fun s1 h1 => last s1 (putElems_onlyMemory _ h1)

/-- What changing a run of scale entries does to one entry. -/
theorem scaleEnt_updScales (s : State) (q : Part) (first : Nat) (f : Nat → ScaleEnt → ScaleEnt) (n m : Nat) :
    (s.updScales q first f n).scaleEnt q m =
      if first ≤ m ∧ m < first + n then f (m - first) (s.scaleEnt q m) else s.scaleEnt q m := by
  induction n with
  | zero => rw [if_neg (by omega)]; rfl
  | succ n ih =>
    by_cases h : m = first + n
    · subst h
      simp only [State.updScales, State.updScale, State.scaleEnt, State.part_updPart_same, Tab.get_upd_same]
      simp only [State.scaleEnt] at ih
      rw [ih, if_neg (by omega), if_pos (by omega)]
      congr 1; omega
    · simp only [State.updScales, State.updScale, State.scaleEnt, State.part_updPart_same]
      rw [Tab.get_upd_ne _ _ _ h]
      simp only [State.scaleEnt] at ih
      rw [ih]
      simp only [show (first ≤ m ∧ m < first + (n+1)) ↔ (first ≤ m ∧ m < first + n) by omega]

/-- What changing a run of scale entries leaves alone. -/
theorem updScales_frame (s : State) (q : Part) (first : Nat) (f : Nat → ScaleEnt → ScaleEnt) (n : Nat) :
    s.updScales q first f n = { s with parts := (s.updScales q first f n).parts } ∧
    ∀ r, r ≠ q → (s.updScales q first f n).part r = s.part r := by
  induction n with
  | zero => exact ⟨rfl, fun _ _ => rfl⟩
  | succ n ih =>
    refine ⟨?_, fun r h => ?_⟩
    · show (s.updScales q first f n).updPart q _ = _
      rw [ih.1]; rfl
    · show ((s.updScales q first f n).updPart q _).part r = _
      rw [State.part_updPart_ne _ _ _ h]; exact ih.2 r h

/-! ### Engines -/

/-- What raising counts of an engine changes: those counts. -/
theorem bumps_frame (e : Eng) (l : List (Nat × Nat)) (s : State) :
    ∃ cs, s.bumps e l = s ∨ s.bumps e l = s.updEng e fun g => { g with counts := cs } := by
  unfold State.bumps
  suffices h : ∀ t, (t = s ∨ ∃ cs, t = s.updEng e fun g => { g with counts := cs }) →
      (l.foldl (fun s x => if x.2 = 0 then s else s.bump e x.1 x.2) t = s ∨
        ∃ cs, l.foldl (fun s x => if x.2 = 0 then s else s.bump e x.1 x.2) t = s.updEng e fun g => { g with counts := cs }) by
    rcases h s (.inl rfl) with h | ⟨cs, h⟩
    · exact ⟨[], .inl h⟩
    · exact ⟨cs, .inr h⟩
  induction l with
  | nil => exact fun t h => h
  | cons x l ih =>
    intro t h
    refine ih _ ?_
    dsimp only
    split
    · exact h
    · rcases h with rfl | ⟨cs, rfl⟩
      · refine .inr ⟨Tab.upd 0 (t.eng e).counts ((x.1 - 0x800) / 8) fun v => satAdd 64 v x.2, ?_⟩
        unfold State.bump Engine.bump State.updEng State.eng Tab.upd
        rfl
      · refine .inr ⟨Tab.upd 0 cs ((x.1 - 0x800) / 8) fun v => satAdd 64 v x.2, ?_⟩
        rw [State.bump, State.updEng_updEng]
        rfl

/-- What changing the tile of a slot changes: the named tile it fills, or the slot's own tile. -/
theorem updTile_frame (s : State) (e : Eng) (k : SlotNo) (f : Tile → Tile) :
    (s.updTile e k f).eng e = { s.eng e with
      slots := ((s.updTile e k f).eng e).slots, named := ((s.updTile e k f).eng e).named } ∧
    (s.updTile e k f).slot e k = { s.slot e k with tile := ((s.updTile e k f).slot e k).tile } ∧
    (∀ d, d ≠ e → (s.updTile e k f).eng d = s.eng d) ∧ (∀ j, j ≠ k → (s.updTile e k f).slot e j = s.slot e j) ∧
    s.updTile e k f = { s with engines := (s.updTile e k f).engines } := by
  unfold State.updTile
  split
  · refine ⟨?_, ?_, ?_, ?_, rfl⟩
    · simp [State.updNamed]
    · simp
    · intro d h; simp [State.updNamed, h]
    · intro j h; simp
  · refine ⟨?_, ?_, ?_, ?_, rfl⟩
    · simp [State.updSlot]
    · simp
    · intro d h; simp [State.updSlot, h]
    · intro j h; simp [h]

/-! ### The destinations of a failed RESTORE -/

theorem updScales_ports (s : State) (q : Part) (first : Nat) (f : Nat → ScaleEnt → ScaleEnt) (n : Nat) :
    (s.updScales q first f n).ports = s.ports := by
  induction n with
  | zero => rfl
  | succ n ih => exact ih

theorem foldl_ports {α : Type} (f : State → α → State) (hf : ∀ s x, (f s x).ports = s.ports) (l : List α) (s : State) :
    (l.foldl f s).ports = s.ports := by
  induction l generalizing s with
  | nil => rfl
  | cons x l ih => exact (ih (f s x)).trans (hf s x)

theorem writeSection_ports {s t : State} {c : Cmd} {kind src : Nat} {b : List Byte}
    (e : s.writeSection c kind src b = .ok t) : t.ports = s.ports := by
  unfold State.writeSection at e
  split at e
  · rw [vwrite_onlyMemory e]
  · split at e
    · injection e with e; rw [e]
    · rw [vwrite_onlyMemory e]
  · injection e with e; subst e
    exact foldl_ports _ (fun s x => updScales_ports s _ _ _ _) _ _
  · injection e with e; subst e
    refine foldl_ports _ (fun s x => ?_) _ _
    rfl
  · injection e with e; rw [e]

/-- What a failed RESTORE leaves open changes no command and no other part of a host port. -/
@[simp] theorem spoil_ports (s : State) (c : Cmd) (k : Nat) : (s.spoil c k).ports = s.ports := by
  refine foldl_ports _ (fun s x => ?_) _ _
  dsimp only
  split
  · next s1 e => exact (show _ = s1.ports from rfl).trans (writeSection_ports e)
  · rfl

@[simp] theorem spoil_cmd (s : State) (c : Cmd) (k : Nat) (p : Port) (t : Tag) : (s.spoil c k).cmd p t = s.cmd p t := by
  simp [State.cmd, State.port]

end Sys2Proof.Machine
end

