-- ==== Sys2Proof/Laws/Within.lean ====
section
/-!
SUPPORT. What commands of work, streams, memory traffic, contexts, rings and peer links leave alone, as one relation between the states
before and after an operation: `Within`. The files Laws/Within*.lean hold one lemma for each operation.
-/

namespace Sys2Proof.Machine

/-- Which parts of the module, beside ports, engines, partitions, memory, peer links, outputs and free values, an operation may change. -/
structure Reach where
  ctxs : Bool := false
  hk : Bool := false
  rcv : Bool := false
  pwr : Bool := false
  boot : Bool := false
  sec : Bool := false
  age : Bool := false
  dbg : Bool := false
  order : Bool := false

/-- A part of the module that may change. -/
class May (b : Bool) : Prop where
  yes : b = true

/-- `t` differs from `s` at most in ports, engines, partitions, memory, peer links, outputs, free values and what `rch` names. -/
structure Within (rch : Reach) (s t : State) : Prop where
  ctxs : rch.ctxs = false → t.ctxs = s.ctxs
  hk : rch.hk = false → t.hk = s.hk
  rcv : rch.rcv = false → t.rcv = s.rcv
  pwr : rch.pwr = false → t.pwr = s.pwr
  boot : rch.boot = false → t.boot = s.boot
  sec : rch.sec = false → t.sec = s.sec
  age : rch.age = false → t.age = s.age
  dbg : rch.dbg = false → t.dbg = s.dbg
  order : rch.order = false → t.order = s.order
  pending : t.pending = s.pending

/-- `Within` for an outcome. -/
def WithinOut (rch : Reach) (s : State) (o : Out) : Prop := ∀ t, o = .next t → Within rch s t

/-- `Within` for an operation that can fail. -/
def WithinOk {ε : Type} (rch : Reach) (s : State) (x : Except ε State) : Prop := ∀ t, x = .ok t → Within rch s t

/-- `Within` for an operation that can fail and answers a value beside the state. -/
def WithinOk1 {ε α : Type} (rch : Reach) (s : State) (x : Except ε (State × α)) : Prop := ∀ t, x = .ok t → Within rch s t.1

/-- `Within` for an operation that may not apply. -/
def WithinOpt (rch : Reach) (s : State) (x : Option State) : Prop := ∀ t, x = some t → Within rch s t

namespace Within

variable {rch : Reach} {s0 s t u : State}

theorem refl (s : State) : Within rch s s := by constructor <;> intros <;> rfl

theorem trans (h : Within rch s t) (k : Within rch t u) : Within rch s u :=
  ⟨fun x => (k.ctxs x).trans (h.ctxs x),
    fun x => (k.hk x).trans (h.hk x),
    fun x => (k.rcv x).trans (h.rcv x),
    fun x => (k.pwr x).trans (h.pwr x),
    fun x => (k.boot x).trans (h.boot x),
    fun x => (k.sec x).trans (h.sec x),
    fun x => (k.age x).trans (h.age x),
    fun x => (k.dbg x).trans (h.dbg x),
    fun x => (k.order x).trans (h.order x),
    k.pending.trans h.pending⟩

/-- A state written out from the parts of another. -/
theorem lit (h : Within rch s0 s) {ports engines parts mem peer out fresh} :
    Within rch s0 ⟨s.hk, ports, s.ctxs, engines, parts, mem, peer, s.rcv, s.pwr, s.boot, s.sec, s.age, s.dbg, out, fresh, s.order, s.pending⟩ :=
  h.trans (by constructor <;> intros <;> first | rfl | simp_all [May.yes])

/-- A state written out from the parts of another, with another age. -/
theorem lit_age (h : Within rch s0 s) [wage : May rch.age] {ports engines parts mem peer age out fresh} :
    Within rch s0 ⟨s.hk, ports, s.ctxs, engines, parts, mem, peer, s.rcv, s.pwr, s.boot, s.sec, age, s.dbg, out, fresh, s.order, s.pending⟩ :=
  h.trans (by constructor <;> intros <;> first | rfl | simp_all [May.yes])

/-- A state written out from the parts of another, with another boot. -/
theorem lit_boot (h : Within rch s0 s) [wboot : May rch.boot] {ports engines parts mem peer boot out fresh} :
    Within rch s0 ⟨s.hk, ports, s.ctxs, engines, parts, mem, peer, s.rcv, s.pwr, boot, s.sec, s.age, s.dbg, out, fresh, s.order, s.pending⟩ :=
  h.trans (by constructor <;> intros <;> first | rfl | simp_all [May.yes])

/-- A state written out from the parts of another, with another ctxs. -/
theorem lit_ctxs (h : Within rch s0 s) [wctxs : May rch.ctxs] {ports ctxs engines parts mem peer out fresh} :
    Within rch s0 ⟨s.hk, ports, ctxs, engines, parts, mem, peer, s.rcv, s.pwr, s.boot, s.sec, s.age, s.dbg, out, fresh, s.order, s.pending⟩ :=
  h.trans (by constructor <;> intros <;> first | rfl | simp_all [May.yes])

/-- A state written out from the parts of another, with another dbg. -/
theorem lit_dbg (h : Within rch s0 s) [wdbg : May rch.dbg] {ports engines parts mem peer dbg out fresh} :
    Within rch s0 ⟨s.hk, ports, s.ctxs, engines, parts, mem, peer, s.rcv, s.pwr, s.boot, s.sec, s.age, dbg, out, fresh, s.order, s.pending⟩ :=
  h.trans (by constructor <;> intros <;> first | rfl | simp_all [May.yes])

/-- A state written out from the parts of another, with another order. -/
theorem lit_order (h : Within rch s0 s) [worder : May rch.order] {ports engines parts mem peer out fresh order} :
    Within rch s0 ⟨s.hk, ports, s.ctxs, engines, parts, mem, peer, s.rcv, s.pwr, s.boot, s.sec, s.age, s.dbg, out, fresh, order, s.pending⟩ :=
  h.trans (by constructor <;> intros <;> first | rfl | simp_all [May.yes])

/-- A state written out from the parts of another, with another pwr. -/
theorem lit_pwr (h : Within rch s0 s) [wpwr : May rch.pwr] {ports engines parts mem peer pwr out fresh} :
    Within rch s0 ⟨s.hk, ports, s.ctxs, engines, parts, mem, peer, s.rcv, pwr, s.boot, s.sec, s.age, s.dbg, out, fresh, s.order, s.pending⟩ :=
  h.trans (by constructor <;> intros <;> first | rfl | simp_all [May.yes])

/-- A state written out from the parts of another, with another rcv. -/
theorem lit_rcv (h : Within rch s0 s) [wrcv : May rch.rcv] {ports engines parts mem peer rcv out fresh} :
    Within rch s0 ⟨s.hk, ports, s.ctxs, engines, parts, mem, peer, rcv, s.pwr, s.boot, s.sec, s.age, s.dbg, out, fresh, s.order, s.pending⟩ :=
  h.trans (by constructor <;> intros <;> first | rfl | simp_all [May.yes])

/-- A state written out from the parts of another, with another sec. -/
theorem lit_sec (h : Within rch s0 s) [wsec : May rch.sec] {ports engines parts mem peer sec out fresh} :
    Within rch s0 ⟨s.hk, ports, s.ctxs, engines, parts, mem, peer, s.rcv, s.pwr, s.boot, sec, s.age, s.dbg, out, fresh, s.order, s.pending⟩ :=
  h.trans (by constructor <;> intros <;> first | rfl | simp_all [May.yes])

/-- A state written out from the parts of another, with another ctxs, age. -/
theorem lit_ctxs_age (h : Within rch s0 s) [wctxs : May rch.ctxs] [wage : May rch.age] {ports ctxs engines parts mem peer age out fresh} :
    Within rch s0 ⟨s.hk, ports, ctxs, engines, parts, mem, peer, s.rcv, s.pwr, s.boot, s.sec, age, s.dbg, out, fresh, s.order, s.pending⟩ :=
  h.trans (by constructor <;> intros <;> first | rfl | simp_all [May.yes])

/-- A state written out from the parts of another, with another ctxs, rcv. -/
theorem lit_ctxs_rcv (h : Within rch s0 s) [wctxs : May rch.ctxs] [wrcv : May rch.rcv] {ports ctxs engines parts mem peer rcv out fresh} :
    Within rch s0 ⟨s.hk, ports, ctxs, engines, parts, mem, peer, rcv, s.pwr, s.boot, s.sec, s.age, s.dbg, out, fresh, s.order, s.pending⟩ :=
  h.trans (by constructor <;> intros <;> first | rfl | simp_all [May.yes])

/-- A state written out from the parts of another, with another ctxs, sec. -/
theorem lit_ctxs_sec (h : Within rch s0 s) [wctxs : May rch.ctxs] [wsec : May rch.sec] {ports ctxs engines parts mem peer sec out fresh} :
    Within rch s0 ⟨s.hk, ports, ctxs, engines, parts, mem, peer, s.rcv, s.pwr, s.boot, sec, s.age, s.dbg, out, fresh, s.order, s.pending⟩ :=
  h.trans (by constructor <;> intros <;> first | rfl | simp_all [May.yes])

/-- A state written out from the parts of another, with another pwr, boot. -/
theorem lit_pwr_boot (h : Within rch s0 s) [wpwr : May rch.pwr] [wboot : May rch.boot] {ports engines parts mem peer pwr boot out fresh} :
    Within rch s0 ⟨s.hk, ports, s.ctxs, engines, parts, mem, peer, s.rcv, pwr, boot, s.sec, s.age, s.dbg, out, fresh, s.order, s.pending⟩ :=
  h.trans (by constructor <;> intros <;> first | rfl | simp_all [May.yes])

/-- A state written out from the parts of another, with another pwr, sec. -/
theorem lit_pwr_sec (h : Within rch s0 s) [wpwr : May rch.pwr] [wsec : May rch.sec] {ports engines parts mem peer pwr sec out fresh} :
    Within rch s0 ⟨s.hk, ports, s.ctxs, engines, parts, mem, peer, s.rcv, pwr, s.boot, sec, s.age, s.dbg, out, fresh, s.order, s.pending⟩ :=
  h.trans (by constructor <;> intros <;> first | rfl | simp_all [May.yes])

/-- A state written out from the parts of another, with another rcv, boot. -/
theorem lit_rcv_boot (h : Within rch s0 s) [wrcv : May rch.rcv] [wboot : May rch.boot] {ports engines parts mem peer rcv boot out fresh} :
    Within rch s0 ⟨s.hk, ports, s.ctxs, engines, parts, mem, peer, rcv, s.pwr, boot, s.sec, s.age, s.dbg, out, fresh, s.order, s.pending⟩ :=
  h.trans (by constructor <;> intros <;> first | rfl | simp_all [May.yes])

/-- A state written out from the parts of another, with another ctxs, rcv, age. -/
theorem lit_ctxs_rcv_age (h : Within rch s0 s) [wctxs : May rch.ctxs] [wrcv : May rch.rcv] [wage : May rch.age] {ports ctxs engines parts mem peer rcv age out fresh} :
    Within rch s0 ⟨s.hk, ports, ctxs, engines, parts, mem, peer, rcv, s.pwr, s.boot, s.sec, age, s.dbg, out, fresh, s.order, s.pending⟩ :=
  h.trans (by constructor <;> intros <;> first | rfl | simp_all [May.yes])

/-- A state written out from the parts of another, with another rcv, age, dbg. -/
theorem lit_rcv_age_dbg (h : Within rch s0 s) [wrcv : May rch.rcv] [wage : May rch.age] [wdbg : May rch.dbg] {ports engines parts mem peer rcv age dbg out fresh} :
    Within rch s0 ⟨s.hk, ports, s.ctxs, engines, parts, mem, peer, rcv, s.pwr, s.boot, s.sec, age, dbg, out, fresh, s.order, s.pending⟩ :=
  h.trans (by constructor <;> intros <;> first | rfl | simp_all [May.yes])

/-- A state written out from the parts of another, with another rcv, boot, sec. -/
theorem lit_rcv_boot_sec (h : Within rch s0 s) [wrcv : May rch.rcv] [wboot : May rch.boot] [wsec : May rch.sec] {ports engines parts mem peer rcv boot sec out fresh} :
    Within rch s0 ⟨s.hk, ports, s.ctxs, engines, parts, mem, peer, rcv, s.pwr, boot, sec, s.age, s.dbg, out, fresh, s.order, s.pending⟩ :=
  h.trans (by constructor <;> intros <;> first | rfl | simp_all [May.yes])

/-- A state written out from the parts of another, with another rcv, pwr, boot. -/
theorem lit_rcv_pwr_boot (h : Within rch s0 s) [wrcv : May rch.rcv] [wpwr : May rch.pwr] [wboot : May rch.boot] {ports engines parts mem peer rcv pwr boot out fresh} :
    Within rch s0 ⟨s.hk, ports, s.ctxs, engines, parts, mem, peer, rcv, pwr, boot, s.sec, s.age, s.dbg, out, fresh, s.order, s.pending⟩ :=
  h.trans (by constructor <;> intros <;> first | rfl | simp_all [May.yes])

/-- A state written out from the parts of another, with another hk, rcv, pwr, boot. -/
theorem lit_hk_rcv_pwr_boot (h : Within rch s0 s) [whk : May rch.hk] [wrcv : May rch.rcv] [wpwr : May rch.pwr] [wboot : May rch.boot] {hk ports engines parts mem peer rcv pwr boot out fresh} :
    Within rch s0 ⟨hk, ports, s.ctxs, engines, parts, mem, peer, rcv, pwr, boot, s.sec, s.age, s.dbg, out, fresh, s.order, s.pending⟩ :=
  h.trans (by constructor <;> intros <;> first | rfl | simp_all [May.yes])

/-- A state written out from the parts of another, with another ctxs, rcv, pwr, boot, age, dbg. -/
theorem lit_ctxs_rcv_pwr_boot_age_dbg (h : Within rch s0 s) [wctxs : May rch.ctxs] [wrcv : May rch.rcv] [wpwr : May rch.pwr] [wboot : May rch.boot] [wage : May rch.age] [wdbg : May rch.dbg] {ports ctxs engines parts mem peer rcv pwr boot age dbg out fresh} :
    Within rch s0 ⟨s.hk, ports, ctxs, engines, parts, mem, peer, rcv, pwr, boot, s.sec, age, dbg, out, fresh, s.order, s.pending⟩ :=
  h.trans (by constructor <;> intros <;> first | rfl | simp_all [May.yes])

/-- A state written out from the parts of another, with another ctxs, rcv, pwr, boot, sec, age, dbg. -/
theorem lit_ctxs_rcv_pwr_boot_sec_age_dbg (h : Within rch s0 s) [wctxs : May rch.ctxs] [wrcv : May rch.rcv] [wpwr : May rch.pwr] [wboot : May rch.boot] [wsec : May rch.sec] [wage : May rch.age] [wdbg : May rch.dbg] {ports ctxs engines parts mem peer rcv pwr boot sec age dbg out fresh} :
    Within rch s0 ⟨s.hk, ports, ctxs, engines, parts, mem, peer, rcv, pwr, boot, sec, age, dbg, out, fresh, s.order, s.pending⟩ :=
  h.trans (by constructor <;> intros <;> first | rfl | simp_all [May.yes])

/-- A state written out from the parts of another, with another ctxs, hk, rcv, pwr, boot, sec, age, dbg. -/
theorem lit_ctxs_hk_rcv_pwr_boot_sec_age_dbg (h : Within rch s0 s) [wctxs : May rch.ctxs] [whk : May rch.hk] [wrcv : May rch.rcv] [wpwr : May rch.pwr] [wboot : May rch.boot] [wsec : May rch.sec] [wage : May rch.age] [wdbg : May rch.dbg] {hk ports ctxs engines parts mem peer rcv pwr boot sec age dbg out fresh} :
    Within rch s0 ⟨hk, ports, ctxs, engines, parts, mem, peer, rcv, pwr, boot, sec, age, dbg, out, fresh, s.order, s.pending⟩ :=
  h.trans (by constructor <;> intros <;> first | rfl | simp_all [May.yes])

theorem updPort (h : Within rch s0 s) (p : Port) (f : HostPort → HostPort) : Within rch s0 (s.updPort p f) := h.lit
theorem updRing (h : Within rch s0 s) (p : Port) (r : RingNo) (f : Ring → Ring) : Within rch s0 (s.updRing p r f) := h.lit
theorem updCq (h : Within rch s0 s) (p : Port) (c : CqNo) (f : Cq → Cq) : Within rch s0 (s.updCq p c f) := h.lit
theorem updCmd (h : Within rch s0 s) (p : Port) (t : Tag) (f : Cmd → Cmd) : Within rch s0 (s.updCmd p t f) := h.lit
theorem updArea (h : Within rch s0 s) (p : Port) (n : Fn) (f : Area → Area) : Within rch s0 (s.updArea p n f) := h.lit
theorem updCtx (h : Within rch s0 s) (c : CtxNo) (f : Ctx → Ctx) [wctxs : May rch.ctxs] : Within rch s0 (s.updCtx c f) :=
  h.lit_ctxs
theorem updEng (h : Within rch s0 s) (e : Eng) (f : Engine → Engine) : Within rch s0 (s.updEng e f) := h.lit
theorem updSlot (h : Within rch s0 s) (e : Eng) (k : SlotNo) (f : Slot → Slot) : Within rch s0 (s.updSlot e k f) := h.lit
theorem updStrm (h : Within rch s0 s) (e : Eng) (i : StreamNo) (f : Strm → Strm) : Within rch s0 (s.updStrm e i f) := h.lit
theorem updNamed (h : Within rch s0 s) (e : Eng) (a : Nat) (f : Tile → Tile) : Within rch s0 (s.updNamed e a f) := h.lit
theorem bump (h : Within rch s0 s) (e : Eng) (off n : Nat) : Within rch s0 (s.bump e off n) := h.lit
theorem updPart (h : Within rch s0 s) (q : Part) (f : Partition → Partition) : Within rch s0 (s.updPart q f) := h.lit
theorem updLink (h : Within rch s0 s) (i : PeerPort) (f : PeerLink → PeerLink) : Within rch s0 (s.updLink i f) := h.lit
theorem emit (h : Within rch s0 s) (o : Output) : Within rch s0 (s.emit o) := h.lit
theorem updStack (h : Within rch s0 s) (m : Stack) (f : StackMem → StackMem) : Within rch s0 (s.updStack m f) := h.lit
theorem hostWrite (h : Within rch s0 s) (p : Port) (a : Nat) (bs : List Byte) : Within rch s0 (s.hostWrite p a bs) := h.lit

theorem hbmWrite (h : Within rch s0 s) (pa : Nat) (bs : List Byte) : Within rch s0 (s.hbmWrite pa bs) := by
  rw [State.hbmWrite_eq s pa bs]; exact h.lit

theorem ite {b : Prop} [Decidable b] {x y : State} (ha : b → Within rch s0 x) (hb : ¬b → Within rch s0 y) :
    Within rch s0 (if b then x else y) := by
  split
  · next h => exact ha h
  · next h => exact hb h

theorem foldl {α : Type} (f : State → α → State) (h : Within rch s0 s) (l : List α) (hf : ∀ s x, Within rch s0 s → Within rch s0 (f s x)) :
    Within rch s0 (l.foldl f s) := by
  induction l generalizing s with
  | nil => exact h
  | cons x l ih => exact ih (hf s x h)

theorem pair {α : Type} {x : State × α} {a : α} (e : x = (s, a)) (h : Within rch s0 x.1) : Within rch s0 s := by subst e; exact h

theorem next (h : Within rch s0 s) : WithinOut rch s0 (.next s) := fun t e => by injection e with e; exact e ▸ h

theorem ok {ε : Type} (h : Within rch s0 s) : WithinOk (ε := ε) rch s0 (.ok s) := fun t e => by injection e with e; exact e ▸ h
theorem error {ε : Type} (x : ε) : WithinOk rch s0 (.error x) := fun t e => by injection e
theorem ok1 {ε α : Type} {a : α} (h : Within rch s0 s) : WithinOk1 (ε := ε) rch s0 (.ok (s, a)) := fun t e => by injection e with e; exact e ▸ h
theorem error1 {ε α : Type} (x : ε) : WithinOk1 (α := α) rch s0 (.error x) := fun t e => by injection e
theorem pure {ε : Type} (h : Within rch s0 s) : WithinOk (ε := ε) rch s0 (pure s) := h.ok
theorem pure1 {ε α : Type} {a : α} (h : Within rch s0 s) : WithinOk1 (ε := ε) rch s0 (Pure.pure (s, a)) := h.ok1
theorem bind {ε α : Type} {x : Except ε α} {f : α → Except ε State} (h : ∀ a, x = .ok a → WithinOk rch s0 (f a)) :
    WithinOk rch s0 (x >>= f) := by
  intro t e
  cases x with
  | error _ => injection e
  | ok a => exact h a rfl t e
theorem pureBind {ε α : Type} {a : α} {f : α → Except ε State} (h : WithinOk rch s0 (f a)) : WithinOk rch s0 (Pure.pure a >>= f) := h
theorem bind1 {ε α β : Type} {x : Except ε α} {f : α → Except ε (State × β)} (h : ∀ a, x = .ok a → WithinOk1 rch s0 (f a)) :
    WithinOk1 rch s0 (x >>= f) := by
  intro t e
  cases x with
  | error _ => injection e
  | ok a => exact h a rfl t e
theorem map {ε α : Type} {x : Except ε α} {f : α → State} (h : ∀ a, x = .ok a → Within rch s0 (f a)) : WithinOk rch s0 (x.map f) := by
  intro t e
  cases x with
  | error _ => injection e
  | ok a => injection e with e; exact e ▸ h a rfl
theorem ofOk {ε : Type} {x : Except ε State} (h : WithinOk rch s0 x) (e : x = .ok t) : Within rch s0 t := h t e
theorem ofOk1 {ε α : Type} {x : Except ε (State × α)} {a : α} (h : WithinOk1 rch s0 x) (e : x = .ok (t, a)) : Within rch s0 t := h _ e
theorem ofSome {x : Option State} (h : WithinOpt rch s0 x) (e : x = .some t) : Within rch s0 t := h t e
theorem some (h : Within rch s0 s) : WithinOpt rch s0 (some s) := fun t e => by injection e with e; exact e ▸ h
theorem none : WithinOpt rch s0 none := fun t e => by injection e

/-- What `Within` says of a whole state, in the words of `Safety.calm`. -/
theorem calm (h : Within rch s t) : Safety.calm
    { s with
      hk := if rch.hk then t.hk else s.hk
      rcv := if rch.rcv then t.rcv else s.rcv
      pwr := if rch.pwr then t.pwr else s.pwr
      boot := if rch.boot then t.boot else s.boot
      sec := if rch.sec then t.sec else s.sec
      age := if rch.age then t.age else s.age
      dbg := if rch.dbg then t.dbg else s.dbg
      order := if rch.order then t.order else s.order } t := by
  obtain ⟨_, hk, rcv, pwr, boot, sec, age, dbg, order, pending⟩ := h
  have aux {α : Type} {b : Bool} {x y : α} (k : b = false → x = y) : x = if b then x else y := by
    cases b
    · exact k rfl
    · rfl
  unfold Safety.calm
  rw [← aux hk, ← aux rcv, ← aux pwr, ← aux boot, ← aux sec, ← aux age, ← aux dbg, ← aux order, ← pending]

end Within

end Sys2Proof.Machine
end

