-- ==== Sys2Proof/Laws/WithinOps.lean ====
section
/-!
SUPPORT. What the operations of Machine/Ops.lean leave alone.
-/

namespace Sys2Proof.Machine

open Sys2Proof

variable {rch : Reach} {s0 : State}

theorem storeAt_within (s : State) (h : Within rch s0 s) (x : Xlate) (bs : List Byte) : Within rch s0 (State.storeAt s x bs) := by
  unfold State.storeAt
  repeat' first
    | with_reducible assumption
    | with_reducible apply Within.hbmWrite
    | with_reducible apply Within.hostWrite
    | split

theorem vwriteGo_within (x s : State) (h : Within rch s0 s) (c : CtxNo) (fuel va : Nat) (bs : List Byte) :
    Within rch s0 (State.vwriteGo x s c fuel va bs) := by
  induction fuel generalizing s va bs with
  | zero => exact h
  | succ fuel ih =>
    simp only [State.vwriteGo]
    split
    · exact h
    · apply ih
      split
      · exact h
      · exact h.hbmWrite _ _
      · exact h.hostWrite _ _ _

theorem vwrite_within (s : State) (h : Within rch s0 s) (c : CtxNo) (va : Nat) (bs : List Byte) : WithinOk rch s0 (State.vwrite s c va bs) := by
  unfold State.vwrite
  repeat' first
    | with_reducible assumption
    | with_reducible apply Within.pureBind
    | with_reducible apply Within.pure
    | with_reducible refine Within.bind fun _ _ => ?_
    | with_reducible refine Within.map fun _ _ => ?_
    | with_reducible apply Within.ok
    | with_reducible exact Within.error _
    | with_reducible apply vwriteGo_within
    | split

end Sys2Proof.Machine
end

