-- ==== Sys2Proof/Laws/WithinFlags.lean ====
section
/-!
SUPPORT. What the operations of Machine/Flags.lean leave alone.
-/

namespace Sys2Proof.Machine

open Sys2Proof

variable {rch : Reach} {s0 : State}

theorem raiseVector_within (s : State) (h : Within rch s0 s) (p : Port) (f : Fn) (vec : Nat) : Within rch s0 (State.raiseVector s p f vec) := by
  unfold State.raiseVector
  split
  · exact h
  · extract_lets
    split
    · exact h.updPort _ _
    · exact h.emit _

theorem raiseCq_within (s : State) (h : Within rch s0 s) (p : Port) (c : CqNo) : Within rch s0 (State.raiseCq s p c) := by
  unfold State.raiseCq
  repeat' first
    | with_reducible assumption
    | (with_reducible apply Within.ite <;> intro _)
    | with_reducible apply Within.updCq
    | with_reducible apply raiseVector_within
    | with_reducible exact Within.lit
    | split
    | with_reducible refine Within.lit ?_

theorem setCause_within (s : State) (h : Within rch s0 s) (p : Port) (bit : Nat) : Within rch s0 (State.setCause s p bit) := by
  unfold State.setCause
  repeat' first
    | with_reducible assumption
    | (with_reducible apply Within.ite <;> intro _)
    | with_reducible apply Within.updPort
    | with_reducible apply raiseVector_within
    | with_reducible exact Within.lit
    | extract_lets
    | split
    | with_reducible refine Within.lit ?_

theorem setCauseAll_within (s : State) (h : Within rch s0 s) (bit : Nat) : Within rch s0 (State.setCauseAll s bit) := by
  unfold State.setCauseAll
  repeat' first
    | with_reducible assumption
    | with_reducible apply setCause_within

theorem postErrTo_within (s : State) (h : Within rch s0 s) (p : Port) (rec : List Byte) : Within rch s0 (State.postErrTo s p rec) := by
  unfold State.postErrTo
  repeat' first
    | with_reducible assumption
    | (with_reducible apply Within.ite <;> intro _)
    | with_reducible apply Within.hostWrite
    | with_reducible apply Within.updPort
    | with_reducible apply setCause_within
    | with_reducible exact Within.lit
    | extract_lets
    | split
    | with_reducible refine Within.lit ?_

theorem postFaultTo_within (s : State) (h : Within rch s0 s) (p : Port) (rec : List Byte) : Within rch s0 (State.postFaultTo s p rec) := by
  unfold State.postFaultTo
  repeat' first
    | with_reducible assumption
    | (with_reducible apply Within.ite <;> intro _)
    | with_reducible apply Within.hostWrite
    | with_reducible apply Within.updPort
    | with_reducible apply setCause_within
    | with_reducible exact Within.lit
    | extract_lets
    | split
    | with_reducible refine Within.lit ?_

theorem postErr_within (s : State) (h : Within rch s0 s) (r : ErrRec) : Within rch s0 (State.postErr s r) := by
  unfold State.postErr
  repeat' first
    | with_reducible assumption
    | with_reducible apply postErrTo_within
    | extract_lets

theorem postFault_within (s : State) (h : Within rch s0 s) (kind : Nat) (p : Port) (t : Tag) (engine : Nat) (stream : Nat) (w : Bool) (va : Nat) : Within rch s0 (State.postFault s kind p t engine stream w va) := by
  unfold State.postFault
  repeat' first
    | with_reducible assumption
    | with_reducible apply Within.updCmd
    | with_reducible apply postFaultTo_within
    | with_reducible exact Within.lit
    | with_reducible refine Within.lit ?_
    | extract_lets

theorem endCmd_within (s : State) (h : Within rch s0 s) (p : Port) (t : Tag) (st : Nat) : Within rch s0 (State.endCmd s p t st) := by
  unfold State.endCmd
  repeat' first
    | with_reducible assumption
    | with_reducible apply Within.updCmd
    | with_reducible exact Within.lit
    | with_reducible refine Within.lit ?_

theorem doneCmd_within (s : State) (h : Within rch s0 s) (p : Port) (t : Tag) : Within rch s0 (State.doneCmd s p t) := by
  unfold State.doneCmd
  repeat' first
    | with_reducible assumption
    | with_reducible apply Within.updCmd
    | with_reducible exact Within.lit
    | with_reducible refine Within.lit ?_

theorem stopStreams_within (s : State) (h : Within rch s0 s) (e : Eng) (p : Port) (t : Tag) : Within rch s0 (State.stopStreams s e p t) := by
  unfold State.stopStreams
  repeat' first
    | with_reducible assumption
    | (with_reducible apply Within.ite <;> intro _)
    | with_reducible apply Within.updStrm
    | with_reducible refine Within.foldl _ ?_ _ fun _ _ _ => ?_
    | extract_lets
    | split

theorem updTile_within (s : State) (h : Within rch s0 s) (e : Eng) (k : SlotNo) (f : Tile → Tile) : Within rch s0 (State.updTile s e k f) := by
  unfold State.updTile
  repeat' first
    | with_reducible assumption
    | with_reducible apply Within.updNamed
    | with_reducible apply Within.updSlot
    | with_reducible exact Within.lit
    | split
    | with_reducible refine Within.lit ?_

theorem clearFilling_within (s : State) (h : Within rch s0 s) (e : Eng) (k : SlotNo) : Within rch s0 (State.clearFilling s e k) := by
  unfold State.clearFilling
  repeat' first
    | with_reducible assumption
    | (with_reducible apply Within.ite <;> intro _)
    | with_reducible apply Within.updSlot
    | with_reducible apply updTile_within
    | with_reducible exact Within.lit
    | extract_lets
    | split
    | with_reducible refine Within.lit ?_

theorem stopWork_within (s : State) (h : Within rch s0 s) (p : Port) (t : Tag) : Within rch s0 (State.stopWork s p t) := by
  unfold State.stopWork
  repeat' first
    | with_reducible assumption
    | with_reducible apply stopStreams_within
    | with_reducible apply clearFilling_within
    | with_reducible refine Within.foldl _ ?_ _ fun _ _ _ => ?_

theorem dropSide_within (s : State) (h : Within rch s0 s) (p : Port) (t : Tag) : Within rch s0 (State.dropSide s p t) := by
  unfold State.dropSide
  repeat' first
    | with_reducible assumption
    | (with_reducible apply Within.ite <;> intro _)
    | with_reducible apply Within.updPart
    | with_reducible refine Within.foldl _ ?_ _ fun _ _ _ => ?_
    | with_reducible exact Within.lit
    | extract_lets
    | split
    | with_reducible refine Within.lit ?_

theorem abortOne_within (s : State) (h : Within rch s0 s) (p : Port) (t : Tag) (st : Nat) : Within rch s0 (State.abortOne s p t st) := by
  unfold State.abortOne
  repeat' first
    | with_reducible assumption
    | (with_reducible apply Within.ite <;> intro _)
    | with_reducible apply Within.updCmd
    | with_reducible apply free_within
    | with_reducible apply stopStreams_within
    | with_reducible apply stopWork_within
    | with_reducible apply endCmd_within
    | with_reducible apply dropSide_within
    | with_reducible refine Within.foldl _ ?_ _ fun _ _ _ => ?_
    | with_reducible exact Within.lit
    | with_reducible refine Within.pair (by with_reducible assumption) ?_
    | split
    | with_reducible refine Within.lit ?_

theorem abortGo_within (fuel : Nat) (s : State) (h : Within rch s0 s) (p : Port) (t : Tag) (st : Nat) :
    Within rch s0 (State.abortGo fuel s p t st) := by
  induction fuel generalizing s p t st with
  | zero => exact abortOne_within _ h _ _ _
  | succ fuel ih => exact Within.foldl _ (abortOne_within _ h _ _ _) _ fun s x hs => ih s hs _ _ _

theorem abortCmd_within (s : State) (h : Within rch s0 s) (p : Port) (t : Tag) (st : Nat) : Within rch s0 (State.abortCmd s p t st) := by
  unfold State.abortCmd
  repeat' first
    | with_reducible assumption
    | with_reducible apply abortGo_within

theorem markCmd_within (s : State) (h : Within rch s0 s) (p : Port) (t : Tag) (st : Nat) : Within rch s0 (State.markCmd s p t st) := by
  unfold State.markCmd
  repeat' first
    | with_reducible assumption
    | (with_reducible apply Within.ite <;> intro _)
    | with_reducible apply Within.updCmd
    | with_reducible apply free_within
    | with_reducible refine Within.pair (by with_reducible assumption) ?_
    | split

theorem abortCmds_within (s : State) (h : Within rch s0 s) (cs : List (Port × Tag)) (st : Nat) : Within rch s0 (State.abortCmds s cs st) := by
  unfold State.abortCmds
  repeat' first
    | with_reducible assumption
    | with_reducible apply markCmd_within
    | with_reducible apply abortCmd_within
    | with_reducible refine Within.foldl _ ?_ _ fun _ _ _ => ?_

theorem faultCmd_within (s : State) (h : Within rch s0 s) (p : Port) (t : Tag) : Within rch s0 (State.faultCmd s p t) := by
  unfold State.faultCmd
  repeat' first
    | with_reducible assumption
    | with_reducible apply abortCmd_within

theorem leaveTiles_within (s : State) (h : Within rch s0 s) (p : Port) (t : Tag) : Within rch s0 (State.leaveTiles s p t) := by
  unfold State.leaveTiles
  repeat' first
    | with_reducible assumption
    | (with_reducible apply Within.ite <;> intro _)
    | with_reducible apply Within.updNamed
    | with_reducible refine Within.foldl _ ?_ _ fun _ _ _ => ?_
    | with_reducible exact Within.lit
    | extract_lets
    | split
    | with_reducible refine Within.lit ?_

theorem freeJoined_within (s : State) (h : Within rch s0 s) (p : Port) (t : Tag) : Within rch s0 (State.freeJoined s p t) := by
  unfold State.freeJoined
  repeat' first
    | with_reducible assumption
    | (with_reducible apply Within.ite <;> intro _)
    | with_reducible apply abortCmd_within
    | with_reducible refine Within.foldl _ ?_ _ fun _ _ _ => ?_
    | with_reducible exact Within.lit
    | extract_lets
    | split
    | with_reducible refine Within.lit ?_

theorem freeSlots_within (s : State) (h : Within rch s0 s) (p : Port) (t : Tag) : Within rch s0 (State.freeSlots s p t) := by
  unfold State.freeSlots
  repeat' first
    | with_reducible assumption
    | (with_reducible apply Within.ite <;> intro _)
    | with_reducible apply Within.updEng
    | with_reducible refine Within.foldl _ ?_ _ fun _ _ _ => ?_
    | with_reducible exact Within.lit
    | extract_lets
    | split
    | with_reducible refine Within.lit ?_

theorem releaseSlots_within (s : State) (h : Within rch s0 s) (p : Port) (t : Tag) : Within rch s0 (State.releaseSlots s p t) := by
  unfold State.releaseSlots
  repeat' first
    | with_reducible assumption
    | with_reducible apply freeSlots_within
    | with_reducible apply leaveTiles_within
    | with_reducible apply freeJoined_within

end Sys2Proof.Machine
end

