-- ==== Sys2Proof/Laws/WithinContexts.lean ====
section
/-!
SUPPORT. What the operations of Machine/Contexts.lean leave alone.
-/

namespace Sys2Proof.Machine

open Sys2Proof

variable {rch : Reach} {s0 : State}

theorem clearHeld_within (s : State) (h : Within rch s0 s) (c : CtxNo) : Within rch s0 (State.clearHeld s c) := by
  unfold State.clearHeld
  repeat' first
    | with_reducible assumption
    | (with_reducible apply Within.ite <;> intro _)
    | with_reducible exact Within.lit
    | split
    | with_reducible refine Within.lit ?_

theorem updRingsOf_within (s : State) (h : Within rch s0 s) (c : CtxNo) (f : Ring → Ring) : Within rch s0 (State.updRingsOf s c f) := by
  unfold State.updRingsOf
  repeat' first
    | with_reducible assumption
    | (with_reducible apply Within.ite <;> intro _)
    | with_reducible apply Within.updPort
    | with_reducible exact Within.lit
    | split
    | with_reducible refine Within.lit ?_

theorem answerRing_within (s : State) (h : Within rch s0 s) (p : Port) (f : Fn) (reason : Nat) : Within rch s0 (State.answerRing s p f reason) := by
  unfold State.answerRing
  repeat' first
    | with_reducible assumption
    | (with_reducible apply Within.ite <;> intro _)
    | with_reducible apply Within.updArea
    | with_reducible exact Within.lit
    | split
    | with_reducible refine Within.lit ?_

theorem answerDisable_within (s : State) (h : Within rch s0 s) (p : Port) (g : Ring) : Within rch s0 (State.answerDisable s p g) := by
  unfold State.answerDisable
  repeat' first
    | with_reducible assumption
    | with_reducible apply answerRing_within
    | split

theorem clearRingsOf_within (s : State) (h : Within rch s0 s) (p : Port) (c : CtxNo) : Within rch s0 (State.clearRingsOf s p c) := by
  unfold State.clearRingsOf
  repeat' first
    | with_reducible assumption
    | (with_reducible apply Within.ite <;> intro _)
    | with_reducible apply Within.updPort
    | with_reducible apply answerDisable_within
    | with_reducible refine Within.foldl _ ?_ _ fun _ _ _ => ?_
    | with_reducible exact Within.lit
    | extract_lets
    | split
    | with_reducible refine Within.lit ?_

theorem beginAbort_within (s : State) (h : Within rch s0 s) (c : CtxNo) (st : Nat) [wctxs : May rch.ctxs] : Within rch s0 (State.beginAbort s c st) := by
  unfold State.beginAbort
  repeat' first
    | with_reducible assumption
    | with_reducible apply Within.updCtx
    | with_reducible apply abortCmds_within
    | with_reducible apply updRingsOf_within
    | with_reducible apply clearHeld_within
    | with_reducible exact Within.lit_ctxs
    | with_reducible refine Within.lit_ctxs ?_
    | extract_lets

theorem keepHomes_within (s : State) (h : Within rch s0 s) (c : CtxNo) : Within rch s0 (State.keepHomes s c) := by
  unfold State.keepHomes
  repeat' first
    | with_reducible assumption
    | with_reducible apply Within.updCmd
    | with_reducible refine Within.foldl _ ?_ _ fun _ _ _ => ?_
    | with_reducible exact Within.lit
    | with_reducible refine Within.lit ?_
    | extract_lets

theorem answerArea_within (s : State) (h : Within rch s0 s) (w : Option (Port × Fn)) (st : Nat) (reason : Nat) : Within rch s0 (State.answerArea s w st reason) := by
  unfold State.answerArea
  repeat' first
    | with_reducible assumption
    | with_reducible apply Within.updArea
    | split

theorem settleGo_within (fuel : Nat) (s : State) (h : Within rch s0 s) (c : CtxNo) [wctxs : May rch.ctxs] : Within rch s0 (State.settleGo fuel s c) := by
  induction fuel generalizing s with
  | zero => exact h
  | succ fuel ih =>
    simp only [State.settleGo]
    split
    · split
      · split
        · exact Within.foldl _ (answerArea_within _ ((clearRingsOf_within _ (keepHomes_within _ h _) _ _).updCtx _ _) _ _ _) _
            fun s x hs => answerArea_within _ hs _ _ _
        · exact ih _ (answerArea_within _ (h.updCtx _ _) _ _ _)
      · exact h
    · exact h

theorem settle_within (s : State) (h : Within rch s0 s) (c : CtxNo) [wctxs : May rch.ctxs] : Within rch s0 (State.settle s c) := by
  unfold State.settle
  repeat' first
    | with_reducible assumption
    | with_reducible apply settleGo_within

theorem endCtx_within (s : State) (h : Within rch s0 s) (c : CtxNo) (w : CtxEnd) (st : Nat) [wctxs : May rch.ctxs] : Within rch s0 (State.endCtx s c w st) := by
  unfold State.endCtx
  repeat' first
    | with_reducible assumption
    | (with_reducible apply Within.ite <;> intro _)
    | with_reducible apply Within.updCtx
    | with_reducible apply beginAbort_within
    | with_reducible apply settle_within
    | with_reducible exact Within.lit_ctxs
    | extract_lets
    | split
    | with_reducible refine Within.lit_ctxs ?_

theorem destroyCtx_within (s : State) (h : Within rch s0 s) (c : CtxNo) [wctxs : May rch.ctxs] : Within rch s0 (State.destroyCtx s c) := by
  unfold State.destroyCtx
  repeat' first
    | with_reducible assumption
    | (with_reducible apply Within.ite <;> intro _)
    | with_reducible apply endCtx_within
    | with_reducible apply free_within
    | with_reducible refine Within.pair (by with_reducible assumption) ?_
    | split

theorem execCtxCreate_within (s : State) (h : Within rch s0 s) (p : Port) (f : Fn) (c : CtxNo) [wctxs : May rch.ctxs] : WithinOut rch s0 (execCtxCreate p f c s) := by
  unfold execCtxCreate
  repeat' first
    | with_reducible assumption
    | (with_reducible apply Within.ite <;> intro _)
    | with_reducible apply Within.next
    | with_reducible apply Within.updArea
    | with_reducible apply Within.updCtx
    | with_reducible apply answerArea_within
    | with_reducible apply clearRingsOf_within
    | with_reducible exact Within.lit_ctxs
    | extract_lets
    | split
    | with_reducible refine Within.lit_ctxs ?_

theorem followPort_within (s : State) (h : Within rch s0 s) (p : Port) [wctxs : May rch.ctxs] : Within rch s0 (State.followPort s p) := by
  unfold State.followPort
  repeat' first
    | with_reducible assumption
    | (with_reducible apply Within.ite <;> intro _)
    | with_reducible apply Within.updCtx
    | with_reducible refine Within.foldl _ ?_ _ fun _ _ _ => ?_
    | with_reducible exact Within.lit_ctxs
    | extract_lets
    | split
    | with_reducible refine Within.lit_ctxs ?_

theorem execCtxAbort_within (s : State) (h : Within rch s0 s) (p : Port) (f : Fn) (c : CtxNo) [wctxs : May rch.ctxs] : WithinOut rch s0 (execCtxAbort p f c s) := by
  unfold execCtxAbort
  repeat' first
    | with_reducible assumption
    | (with_reducible apply Within.ite <;> intro _)
    | with_reducible apply Within.next
    | with_reducible apply Within.updArea
    | with_reducible apply answerArea_within
    | with_reducible apply endCtx_within
    | extract_lets
    | split

theorem execCtxDestroy_within (s : State) (h : Within rch s0 s) (p : Port) (f : Fn) (c : CtxNo) [wctxs : May rch.ctxs] : WithinOut rch s0 (execCtxDestroy p f c s) := by
  unfold execCtxDestroy
  repeat' first
    | with_reducible assumption
    | (with_reducible apply Within.ite <;> intro _)
    | with_reducible apply Within.next
    | with_reducible apply Within.updArea
    | with_reducible apply answerArea_within
    | with_reducible apply endCtx_within
    | extract_lets
    | split

theorem moveRings_within (s : State) (h : Within rch s0 s) (c : CtxNo) (p : Port) (q : CqNo) : Within rch s0 (State.moveRings s c p q) := by
  unfold State.moveRings
  repeat' first
    | with_reducible assumption
    | with_reducible apply Within.updRing
    | with_reducible apply answerDisable_within
    | with_reducible refine Within.foldl _ ?_ _ fun _ _ _ => ?_
    | extract_lets

theorem execCtxAdopt_within (s : State) (h : Within rch s0 s) (p : Port) (f : Fn) (c : CtxNo) (q : CqNo) [wctxs : May rch.ctxs] : WithinOut rch s0 (execCtxAdopt p f c q s) := by
  unfold execCtxAdopt
  repeat' first
    | with_reducible assumption
    | (with_reducible apply Within.ite <;> intro _)
    | with_reducible apply Within.next
    | with_reducible apply Within.updArea
    | with_reducible apply Within.updCtx
    | with_reducible apply moveRings_within
    | with_reducible apply answerArea_within
    | with_reducible exact Within.lit_ctxs
    | extract_lets
    | split
    | with_reducible refine Within.lit_ctxs ?_

theorem execContextRecordWrite_within (s : State) (h : Within rch s0 s) (p : Port) (f : Fn) (c : CtxNo) (off : Nat) (size : Nat) (v : W64) [wctxs : May rch.ctxs] : WithinOut rch s0 (execContextRecordWrite p f c off size v s) := by
  unfold execContextRecordWrite
  repeat' first
    | with_reducible assumption
    | (with_reducible apply Within.ite <;> intro _)
    | with_reducible apply Within.next
    | with_reducible apply Within.updCtx
    | extract_lets
    | split

end Sys2Proof.Machine
end

