-- ==== Sys2Proof/Laws/WithinRings.lean ====
section
/-!
SUPPORT. What the operations of Machine/Rings.lean leave alone.
-/

namespace Sys2Proof.Machine

open Sys2Proof

variable {rch : Reach} {s0 : State}

theorem ringError_within (s : State) (h : Within rch s0 s) (p : Port) (r : RingNo) (code : Nat) : Within rch s0 (State.ringError s p r code) := by
  unfold State.ringError
  repeat' first
    | with_reducible assumption
    | with_reducible apply Within.updRing
    | with_reducible apply raiseCq_within
    | with_reducible exact Within.lit
    | with_reducible refine Within.lit ?_

theorem execSubmissionDoorbell_within (s : State) (h : Within rch s0 s) (p : Port) (f : Fn) (r : RingNo) (size : Nat) (value : W64) : WithinOut rch s0 (execSubmissionDoorbell p f r size value s) := by
  unfold execSubmissionDoorbell
  repeat' first
    | with_reducible assumption
    | (with_reducible apply Within.ite <;> intro _)
    | with_reducible apply Within.next
    | with_reducible apply Within.updRing
    | with_reducible apply ringError_within
    | with_reducible exact Within.lit
    | extract_lets
    | split
    | with_reducible refine Within.lit ?_

theorem execCompletionRingHead_within (s : State) (h : Within rch s0 s) (p : Port) (f : Fn) (c : CqNo) (size : Nat) (value : W64) : WithinOut rch s0 (execCompletionRingHead p f c size value s) := by
  unfold execCompletionRingHead
  repeat' first
    | with_reducible assumption
    | (with_reducible apply Within.ite <;> intro _)
    | with_reducible apply Within.next
    | with_reducible apply Within.updCq
    | with_reducible apply raiseCq_within
    | with_reducible exact Within.lit
    | extract_lets
    | split
    | with_reducible refine Within.lit ?_

theorem execModTimeExpiry_within (s : State) (h : Within rch s0 s) (p : Port) (c : CqNo) : WithinOut rch s0 (execModTimeExpiry p c s) := by
  unfold execModTimeExpiry
  repeat' first
    | with_reducible assumption
    | (with_reducible apply Within.ite <;> intro _)
    | with_reducible apply Within.next
    | with_reducible apply raiseCq_within
    | extract_lets
    | split

theorem takeRing_within (s : State) (h : Within rch s0 s) (p : Port) (f : Fn) (op : Nat) (n : Nat) : Within rch s0 (State.takeRing s p f op n) := by
  unfold State.takeRing
  repeat' first
    | with_reducible assumption
    | with_reducible apply Within.updArea
    | with_reducible exact Within.lit
    | with_reducible refine Within.lit ?_

theorem ringOp_within (s : State) (h : Within rch s0 s) (p : Port) (f : Fn) (r : RingNo) (op : Nat) (eff : State → State)
    (he : ∀ t, Within rch s0 t → Within rch s0 (eff t)) : Within rch s0 (State.ringOp s p f r op eff) := by
  unfold State.ringOp
  split
  · exact h
  · split
    · exact he _ (takeRing_within _ h _ _ _ _)
    · exact answerRing_within _ (takeRing_within _ h _ _ _ _) _ _ _

theorem execRingEnable_within (s : State) (h : Within rch s0 s) (p : Port) (f : Fn) (r : RingNo) : WithinOut rch s0 (execRingEnable p f r s) := by
  unfold execRingEnable
  repeat' first
    | with_reducible assumption
    | with_reducible apply Within.next
    | with_reducible apply Within.updRing
    | with_reducible apply answerRing_within
    | with_reducible apply ringOp_within
    | intro _ _
    | with_reducible exact Within.lit
    | with_reducible refine Within.lit ?_

theorem execRingStop_within (s : State) (h : Within rch s0 s) (p : Port) (f : Fn) (r : RingNo) : WithinOut rch s0 (execRingStop p f r s) := by
  unfold execRingStop
  repeat' first
    | with_reducible assumption
    | with_reducible apply Within.next
    | with_reducible apply Within.updRing
    | with_reducible apply ringOp_within
    | with_reducible apply answerRing_within
    | intro _ _

theorem execRingDisable_within (s : State) (h : Within rch s0 s) (p : Port) (f : Fn) (r : RingNo) : WithinOut rch s0 (execRingDisable p f r s) := by
  unfold execRingDisable
  repeat' first
    | with_reducible assumption
    | with_reducible apply Within.next
    | with_reducible apply Within.updRing
    | with_reducible apply ringOp_within
    | intro _ _
    | with_reducible exact Within.lit
    | with_reducible refine Within.lit ?_

theorem execRingDisableComplete_within (s : State) (h : Within rch s0 s) (p : Port) (r : RingNo) : WithinOut rch s0 (execRingDisableComplete p r s) := by
  unfold execRingDisableComplete
  repeat' first
    | with_reducible assumption
    | (with_reducible apply Within.ite <;> intro _)
    | with_reducible apply Within.next
    | with_reducible apply Within.updRing
    | with_reducible apply answerRing_within
    | with_reducible exact Within.lit
    | extract_lets
    | split
    | with_reducible refine Within.lit ?_

theorem execRingPause_within (s : State) (h : Within rch s0 s) (p : Port) (f : Fn) (r : RingNo) : WithinOut rch s0 (execRingPause p f r s) := by
  unfold execRingPause
  repeat' first
    | with_reducible assumption
    | with_reducible apply Within.next
    | with_reducible apply Within.updRing
    | with_reducible apply answerRing_within
    | with_reducible apply ringOp_within
    | intro _ _
    | with_reducible exact Within.lit
    | with_reducible refine Within.lit ?_

theorem execRingResume_within (s : State) (h : Within rch s0 s) (p : Port) (f : Fn) (r : RingNo) : WithinOut rch s0 (execRingResume p f r s) := by
  unfold execRingResume
  repeat' first
    | with_reducible assumption
    | with_reducible apply Within.next
    | with_reducible apply Within.updRing
    | with_reducible apply answerRing_within
    | with_reducible apply ringOp_within
    | intro _ _
    | with_reducible exact Within.lit
    | with_reducible refine Within.lit ?_

theorem cqOp_within (s : State) (h : Within rch s0 s) (p : Port) (f : Fn) (c : CqNo) (op : Nat) (eff : State → State)
    (he : ∀ t, Within rch s0 t → Within rch s0 (eff t)) : Within rch s0 (State.cqOp s p f c op eff) := by
  unfold State.cqOp
  split
  · exact h
  · split
    · exact he _ (takeRing_within _ h _ _ _ _)
    · exact answerRing_within _ (takeRing_within _ h _ _ _ _) _ _ _

theorem execCqEnable_within (s : State) (h : Within rch s0 s) (p : Port) (f : Fn) (c : CqNo) : WithinOut rch s0 (execCqEnable p f c s) := by
  unfold execCqEnable
  repeat' first
    | with_reducible assumption
    | with_reducible apply Within.next
    | with_reducible apply Within.updCq
    | with_reducible apply answerRing_within
    | with_reducible apply cqOp_within
    | intro _ _
    | with_reducible exact Within.lit
    | with_reducible refine Within.lit ?_

theorem execCqDisable_within (s : State) (h : Within rch s0 s) (p : Port) (f : Fn) (c : CqNo) : WithinOut rch s0 (execCqDisable p f c s) := by
  unfold execCqDisable
  repeat' first
    | with_reducible assumption
    | with_reducible apply Within.next
    | with_reducible apply Within.updCq
    | with_reducible apply cqOp_within
    | intro _ _
    | with_reducible exact Within.lit
    | with_reducible refine Within.lit ?_

theorem execCqDisableComplete_within (s : State) (h : Within rch s0 s) (p : Port) (c : CqNo) : WithinOut rch s0 (execCqDisableComplete p c s) := by
  unfold execCqDisableComplete
  repeat' first
    | with_reducible assumption
    | (with_reducible apply Within.ite <;> intro _)
    | with_reducible apply Within.next
    | with_reducible apply Within.updCq
    | with_reducible apply answerRing_within
    | with_reducible exact Within.lit
    | split
    | with_reducible refine Within.lit ?_

theorem writeRingRecord_within (s : State) (h : Within rch s0 s) (p : Port) (f : Fn) (r : RingNo) (off : Nat) (size : Nat) (v : W64) : Within rch s0 (State.writeRingRecord s p f r off size v) := by
  unfold State.writeRingRecord
  repeat' first
    | with_reducible assumption
    | (with_reducible apply Within.ite <;> intro _)
    | with_reducible apply Within.updRing
    | with_reducible apply free_within
    | with_reducible exact Within.lit
    | with_reducible refine Within.pair (by with_reducible assumption) ?_
    | extract_lets
    | split
    | with_reducible refine Within.lit ?_

theorem writeCqRecord_within (s : State) (h : Within rch s0 s) (p : Port) (f : Fn) (c : CqNo) (off : Nat) (size : Nat) (v : W64) : Within rch s0 (State.writeCqRecord s p f c off size v) := by
  unfold State.writeCqRecord
  repeat' first
    | with_reducible assumption
    | (with_reducible apply Within.ite <;> intro _)
    | with_reducible apply Within.updCq
    | with_reducible exact Within.lit
    | extract_lets
    | split
    | with_reducible refine Within.lit ?_

theorem execRingRecordWrite_within (s : State) (h : Within rch s0 s) (p : Port) (f : Fn) (cq : Bool) (n : RingNo) (off : Nat) (size : Nat) (v : W64) : WithinOut rch s0 (execRingRecordWrite p f cq n off size v s) := by
  unfold execRingRecordWrite
  repeat' first
    | with_reducible assumption
    | (with_reducible apply Within.ite <;> intro _)
    | with_reducible apply Within.next
    | with_reducible apply writeCqRecord_within
    | with_reducible apply writeRingRecord_within
    | split

end Sys2Proof.Machine
end

