-- ==== Sys2Proof/Laws/WithinPipeline.lean ====
section
/-!
SUPPORT. What the operations of Machine/Pipeline.lean leave alone.
-/

namespace Sys2Proof.Machine

open Sys2Proof

variable {rch : Reach} {s0 : State}

theorem execDescriptorFetch_within (s : State) (h : Within rch s0 s) (p : Port) (t : Tag) [worder : May rch.order] : WithinOut rch s0 (execDescriptorFetch p t s) := by
  unfold execDescriptorFetch
  repeat' first
    | with_reducible assumption
    | (with_reducible apply Within.ite <;> intro _)
    | with_reducible apply Within.next
    | with_reducible apply Within.updCmd
    | with_reducible apply Within.updPort
    | with_reducible apply Within.updRing
    | with_reducible apply free_within
    | with_reducible exact Within.lit_order
    | with_reducible refine Within.pair (by with_reducible assumption) ?_
    | extract_lets
    | split
    | with_reducible refine Within.lit_order ?_

theorem execOrderingRelease_within (s : State) (h : Within rch s0 s) (p : Port) (t : Tag) : WithinOut rch s0 (execOrderingRelease p t s) := by
  unfold execOrderingRelease
  repeat' first
    | with_reducible assumption
    | (with_reducible apply Within.ite <;> intro _)
    | with_reducible apply Within.next
    | with_reducible apply Within.updCmd
    | extract_lets
    | split

theorem badRecord_within (s : State) (h : Within rch s0 s) (p : Port) (t : Tag) (w : Bool) (va : Nat) (kind : Nat) (quiet : Bool) : Within rch s0 (State.badRecord s p t w va kind quiet) := by
  unfold State.badRecord
  repeat' first
    | with_reducible assumption
    | with_reducible apply Within.updCmd
    | with_reducible apply postFault_within
    | with_reducible exact Within.lit
    | with_reducible refine Within.lit ?_

theorem badWord_within (s : State) (h : Within rch s0 s) (p : Port) (t : Tag) (w : Bool) (va : Nat) (kind : Nat) : Within rch s0 (State.badWord s p t w va kind) := by
  unfold State.badWord
  repeat' first
    | with_reducible assumption
    | with_reducible apply badRecord_within

theorem testWait_within (s : State) (h : Within rch s0 s) (p : Port) (t : Tag) : Within rch s0 (State.testWait s p t) := by
  unfold State.testWait
  repeat' first
    | with_reducible assumption
    | (with_reducible apply Within.ite <;> intro _)
    | with_reducible apply Within.updCmd
    | with_reducible apply badWord_within
    | extract_lets
    | split

theorem execSemaphoreWaitMet_within (s : State) (h : Within rch s0 s) (p : Port) (t : Tag) : WithinOut rch s0 (execSemaphoreWaitMet p t s) := by
  unfold execSemaphoreWaitMet
  repeat' first
    | with_reducible assumption
    | with_reducible apply Within.next
    | with_reducible apply testWait_within

theorem execSemaphoreRetest_within (s : State) (h : Within rch s0 s) : WithinOut rch s0 (execSemaphoreRetest s) := by
  unfold execSemaphoreRetest
  repeat' first
    | with_reducible assumption
    | with_reducible apply Within.next
    | with_reducible apply testWait_within
    | with_reducible refine Within.foldl _ ?_ _ fun _ _ _ => ?_

theorem signal_within (s : State) (h : Within rch s0 s) (p : Port) (t : Tag) : Within rch s0 (State.signal s p t) := by
  unfold State.signal
  repeat' first
    | with_reducible assumption
    | (with_reducible apply Within.ite <;> intro _)
    | with_reducible apply Within.hbmWrite
    | with_reducible apply Within.updCmd
    | with_reducible apply badWord_within
    | with_reducible exact Within.lit
    | extract_lets
    | split
    | with_reducible refine Within.lit ?_

theorem countCancelled_within (s : State) (h : Within rch s0 s) (c : Cmd) (q : Port × Tag × Nat) : Within rch s0 (State.countCancelled s c q) := by
  unfold State.countCancelled
  repeat' first
    | with_reducible assumption
    | (with_reducible apply Within.ite <;> intro _)
    | with_reducible apply Within.updCmd
    | with_reducible apply free_within
    | with_reducible exact Within.lit
    | with_reducible refine Within.pair (by with_reducible assumption) ?_
    | split
    | with_reducible refine Within.lit ?_

theorem releaseTag_within (s : State) (h : Within rch s0 s) (p : Port) (t : Tag) [wctxs : May rch.ctxs] : Within rch s0 (State.releaseTag s p t) := by
  unfold State.releaseTag
  repeat' first
    | with_reducible assumption
    | with_reducible apply Within.updCmd
    | with_reducible apply countCancelled_within
    | with_reducible apply settle_within
    | with_reducible refine Within.foldl _ ?_ _ fun _ _ _ => ?_
    | extract_lets

theorem discardRecord_within (s : State) (h : Within rch s0 s) (p : Port) (t : Tag) (x : Port × CqNo) (err : Bool) [wctxs : May rch.ctxs] : Within rch s0 (State.discardRecord s p t x err) := by
  unfold State.discardRecord
  repeat' first
    | with_reducible assumption
    | (with_reducible apply Within.ite <;> intro _)
    | with_reducible apply Within.updCq
    | with_reducible apply releaseTag_within
    | with_reducible exact Within.lit_ctxs
    | split
    | with_reducible refine Within.lit_ctxs ?_

theorem pageRequest_within (s : State) (h : Within rch s0 s) (x : Ctx) (va : Nat) (w : Bool) (wait : PriWait) : Within rch s0 (State.pageRequest s x va w wait) := by
  unfold State.pageRequest
  repeat' first
    | with_reducible assumption
    | with_reducible apply Within.emit
    | with_reducible exact Within.lit
    | with_reducible refine Within.lit ?_
    | extract_lets

theorem putRecord_within (s : State) (h : Within rch s0 s) (p : Port) (t : Tag) (x : Port × CqNo) (va : Nat) [wctxs : May rch.ctxs] : Within rch s0 (State.putRecord s p t x va) := by
  unfold State.putRecord
  repeat' first
    | with_reducible assumption
    | (with_reducible apply Within.ite <;> intro _)
    | with_reducible apply Within.updCq
    | with_reducible apply Within.updRing
    | with_reducible apply releaseTag_within
    | with_reducible apply storeAt_within
    | with_reducible apply raiseCq_within
    | with_reducible exact Within.lit_ctxs
    | extract_lets
    | split
    | with_reducible refine Within.lit_ctxs ?_

theorem execCompletionRecordWrite_within (s : State) (h : Within rch s0 s) (p : Port) (t : Tag) [wctxs : May rch.ctxs] : WithinOut rch s0 (execCompletionRecordWrite p t s) := by
  unfold execCompletionRecordWrite
  repeat' first
    | with_reducible assumption
    | (with_reducible apply Within.ite <;> intro _)
    | with_reducible apply Within.next
    | with_reducible apply Within.updCmd
    | with_reducible apply discardRecord_within
    | with_reducible apply pageRequest_within
    | with_reducible apply putRecord_within
    | with_reducible exact Within.lit_ctxs
    | extract_lets
    | split
    | with_reducible refine Within.lit_ctxs ?_

theorem execMeltComplete_within (s : State) (h : Within rch s0 s) (p : Port) (t : Tag) : WithinOut rch s0 (execMeltComplete p t s) := by
  unfold execMeltComplete
  repeat' first
    | with_reducible assumption
    | (with_reducible apply Within.ite <;> intro _)
    | with_reducible apply Within.next
    | with_reducible apply doneCmd_within
    | split

end Sys2Proof.Machine
end

