-- ==== Sys2Proof/Laws/WithinChecks.lean ====
section
/-!
SUPPORT. What the operations of Machine/Checks.lean leave alone.
-/

namespace Sys2Proof.Machine

open Sys2Proof

variable {rch : Reach} {s0 : State}

theorem endChecks_within (s : State) (h : Within rch s0 s) (p : Port) (t : Tag) (c : Cmd) (st : Nat) : Within rch s0 (State.endChecks s p t c st) := by
  unfold State.endChecks
  repeat' first
    | with_reducible assumption
    | with_reducible apply Within.updCmd
    | with_reducible apply endCmd_within
    | with_reducible exact Within.lit
    | with_reducible refine Within.lit ?_

theorem judge_within (s : State) (h : Within rch s0 s) (p : Port) (t : Tag) (c : Cmd) : Within rch s0 (State.judge s p t c) := by
  unfold State.judge
  repeat' first
    | with_reducible assumption
    | (with_reducible apply Within.ite <;> intro _)
    | with_reducible apply Within.updCmd
    | with_reducible apply badWord_within
    | with_reducible apply endChecks_within
    | with_reducible apply endCmd_within
    | extract_lets
    | split

theorem unread_within (s : State) (h : Within rch s0 s) (p : Port) (t : Tag) (c : Cmd) (x : XErr) (got : Copies) : Within rch s0 (State.unread s p t c x got) := by
  unfold State.unread
  repeat' first
    | with_reducible assumption
    | (with_reducible apply Within.ite <;> intro _)
    | with_reducible apply Within.updCmd
    | with_reducible apply endChecks_within
    | with_reducible apply badRecord_within
    | with_reducible apply pageRequest_within
    | with_reducible exact Within.lit
    | extract_lets
    | split
    | with_reducible refine Within.lit ?_

theorem checks_within (s : State) (h : Within rch s0 s) (p : Port) (t : Tag) : Within rch s0 (State.checks s p t) := by
  unfold State.checks
  repeat' first
    | with_reducible assumption
    | (with_reducible apply Within.ite <;> intro _)
    | with_reducible apply judge_within
    | with_reducible apply endChecks_within
    | with_reducible apply unread_within
    | with_reducible apply endCmd_within
    | extract_lets
    | split

theorem execDescriptorChecks_within (s : State) (h : Within rch s0 s) (p : Port) (t : Tag) : WithinOut rch s0 (execDescriptorChecks p t s) := by
  unfold execDescriptorChecks
  repeat' first
    | with_reducible assumption
    | (with_reducible apply Within.ite <;> intro _)
    | with_reducible apply Within.next
    | with_reducible apply checks_within
    | split

end Sys2Proof.Machine
end

