-- ==== Sys2Proof/Laws/WithinScales.lean ====
section
/-!
SUPPORT. What the operations of Machine/Scales.lean leave alone.
-/

namespace Sys2Proof.Machine

open Sys2Proof

variable {rch : Reach} {s0 : State}

theorem updScale_within (s : State) (h : Within rch s0 s) (q : Part) (n : Nat) (f : ScaleEnt → ScaleEnt) : Within rch s0 (State.updScale s q n f) := by
  unfold State.updScale
  repeat' first
    | with_reducible assumption
    | with_reducible apply Within.updPart
    | with_reducible exact Within.lit
    | with_reducible refine Within.lit ?_

theorem scaleReport_within (s : State) (h : Within rch s0 s) (id : Nat) (step : Nat) (mag : Option Int) (sat : Nat) : Within rch s0 (State.scaleReport s id step mag sat) := by
  unfold State.scaleReport
  repeat' first
    | with_reducible assumption
    | (with_reducible apply Within.ite <;> intro _)
    | with_reducible apply updScale_within
    | split

theorem scaleRead_within (s : State) (h : Within rch s0 s) (id : Nat) (step : Nat) : Within rch s0 (State.scaleRead s id step).1 := by
  unfold State.scaleRead
  repeat' first
    | with_reducible assumption
    | (with_reducible apply Within.ite <;> intro _)
    | with_reducible apply updScale_within
    | with_reducible exact Within.lit
    | extract_lets
    | split
    | with_reducible refine Within.lit ?_

theorem execScaleTrackerAccess_within (s : State) (h : Within rch s0 s) (q : Part) (n : ScaleNo) (step : W32) (report : Option (Option Int × Nat)) : WithinOut rch s0 (execScaleTrackerAccess q n step report s) := by
  unfold execScaleTrackerAccess
  repeat' first
    | with_reducible assumption
    | with_reducible apply Within.next
    | with_reducible apply updScale_within
    | split

theorem updScales_within (s : State) (h : Within rch s0 s) (q : Part) (first : Nat) (f : Nat → ScaleEnt → ScaleEnt) (n : Nat) :
    Within rch s0 (State.updScales s q first f n) := by
  induction n with
  | zero => exact h
  | succ n ih => exact updScale_within _ ih _ _ _

theorem scaleWork_within (s : State) (h : Within rch s0 s) (p : Port) (t : Tag) (c : Cmd) (q : Part) : WithinOk rch s0 (State.scaleWork s p t c q) := by
  unfold State.scaleWork
  extract_lets
  split
  · skip
    exact Within.bind fun s2 e => (doneCmd_within _ (vwrite_within _ (updScales_within _ h _ _ _ _) _ _ _ _ e) _ _).pure
  · refine Within.bind fun b _ => Within.pure ?_
    split
    · exact doneCmd_within _ (updScales_within _ h _ _ _ _) _ _
    · exact endCmd_within _ h _ _ _
  · exact (doneCmd_within _ (updScales_within _ h _ _ _ _) _ _).pure

theorem awaitPage_within (s : State) (h : Within rch s0 s) (page : Nat) : Within rch s0 (State.awaitPage s page) := by
  unfold State.awaitPage
  repeat' first
    | with_reducible assumption
    | (with_reducible apply Within.ite <;> intro _)
    | with_reducible exact Within.lit
    | split
    | with_reducible refine Within.lit ?_

theorem orWait_within (s : State) (h : Within rch s0 s) (r : Except XErr State) (hr : WithinOk rch s0 r) : Within rch s0 (State.orWait s r) := by
  unfold State.orWait
  split
  · exact hr _ rfl
  · split
    · exact awaitPage_within _ h _
    · exact h

end Sys2Proof.Machine
end

