-- ==== Sys2Proof/Laws/WithinSegments.lean ====
section
/-!
SUPPORT. What the operations of Machine/Segments.lean leave alone.
-/

namespace Sys2Proof.Machine

open Sys2Proof

variable {rch : Reach} {s0 : State}

theorem rowDone_within (s : State) (h : Within rch s0 s) (p : Port) (t : Tag) (e : Eng) (k : SlotNo) : Within rch s0 (State.rowDone s p t e k) := by
  unfold State.rowDone
  repeat' first
    | with_reducible assumption
    | (with_reducible apply Within.ite <;> intro _)
    | with_reducible apply Within.updSlot
    | with_reducible apply doneCmd_within
    | with_reducible exact Within.lit
    | extract_lets
    | split
    | with_reducible refine Within.lit ?_

theorem beginOn_within (s : State) (h : Within rch s0 s) (e : Eng) (k : SlotNo) : Within rch s0 (State.beginOn s e k) := by
  unfold State.beginOn
  repeat' first
    | with_reducible assumption
    | with_reducible apply Within.updSlot
    | with_reducible exact Within.lit
    | with_reducible refine Within.lit ?_

end Sys2Proof.Machine
end

