-- ==== Sys2Proof/Laws/WithinAdmission.lean ====
section
/-!
SUPPORT. What the operations of Machine/Admission.lean leave alone.
-/

namespace Sys2Proof.Machine

open Sys2Proof

variable {rch : Reach} {s0 : State}

theorem readCount_within (s : State) (h : Within rch s0 s) (p : Port) (t : Tag) : Within rch s0 (State.readCount s p t) := by
  unfold State.readCount
  repeat' first
    | with_reducible assumption
    | (with_reducible apply Within.ite <;> intro _)
    | with_reducible apply Within.updCmd
    | with_reducible apply doneCmd_within
    | with_reducible apply badRecord_within
    | with_reducible apply pageRequest_within
    | with_reducible apply endCmd_within
    | with_reducible exact Within.lit
    | extract_lets
    | split
    | with_reducible refine Within.lit ?_

theorem predFalse_within (s : State) (h : Within rch s0 s) (p : Port) (t : Tag) : Within rch s0 (State.predFalse s p t) := by
  unfold State.predFalse
  repeat' first
    | with_reducible assumption
    | with_reducible apply Within.bump
    | with_reducible apply Within.updCmd
    | with_reducible apply doneCmd_within
    | with_reducible exact Within.lit
    | extract_lets
    | split
    | with_reducible refine Within.lit ?_

theorem execPredicateRead_within (s : State) (h : Within rch s0 s) (p : Port) (t : Tag) : WithinOut rch s0 (execPredicateRead p t s) := by
  unfold execPredicateRead
  repeat' first
    | with_reducible assumption
    | (with_reducible apply Within.ite <;> intro _)
    | with_reducible apply Within.next
    | with_reducible apply predFalse_within
    | with_reducible apply readCount_within
    | with_reducible apply badWord_within
    | extract_lets
    | split

theorem returned_within (s : State) (h : Within rch s0 s) (e : Eng) (i : StreamNo) : Within rch s0 (State.returned s e i) := by
  unfold State.returned
  repeat' first
    | with_reducible assumption
    | with_reducible apply Within.updStrm
    | with_reducible apply reclaim_within
    | with_reducible refine Within.foldl _ ?_ _ fun _ _ _ => ?_
    | extract_lets

theorem refit_within (s : State) (h : Within rch s0 s) (e : Eng) (p : Port) (t : Tag) : Within rch s0 (State.refit s e p t) := by
  unfold State.refit
  repeat' first
    | with_reducible assumption
    | (with_reducible apply Within.ite <;> intro _)
    | with_reducible apply Within.updStrm
    | with_reducible refine Within.foldl _ ?_ _ fun _ _ _ => ?_
    | with_reducible exact Within.lit
    | extract_lets
    | split
    | with_reducible refine Within.lit ?_

theorem testRows_within (s : State) (h : Within rch s0 s) (p : Port) (t : Tag) (e : Eng) : Within rch s0 (State.testRows s p t e) := by
  unfold State.testRows
  repeat' first
    | with_reducible assumption
    | (with_reducible apply Within.ite <;> intro _)
    | with_reducible apply Within.updCmd
    | with_reducible apply refit_within
    | with_reducible exact Within.lit
    | extract_lets
    | split
    | with_reducible refine Within.lit ?_

theorem landReq_within (s : State) (h : Within rch s0 s) (e : Eng) (i : StreamNo) (n : Nat) : Within rch s0 (State.landReq s e i n) := by
  unfold State.landReq
  repeat' first
    | with_reducible assumption
    | (with_reducible apply Within.ite <;> intro _)
    | with_reducible apply Within.bump
    | with_reducible apply Within.updCmd
    | with_reducible apply Within.updStrm
    | with_reducible apply takeIn_within
    | with_reducible apply testRows_within
    | with_reducible apply reclaim_within
    | with_reducible apply returned_within
    | with_reducible refine Within.foldl _ ?_ _ fun _ _ _ => ?_
    | with_reducible exact Within.lit
    | extract_lets
    | split
    | with_reducible refine Within.lit ?_

theorem landOrphan_within (s : State) (h : Within rch s0 s) (e : Eng) (i : StreamNo) (n : Nat) : Within rch s0 (State.landOrphan s e i n) := by
  unfold State.landOrphan
  repeat' first
    | with_reducible assumption
    | with_reducible apply Within.bump
    | with_reducible apply Within.updEng
    | with_reducible exact Within.lit
    | split
    | with_reducible refine Within.lit ?_

theorem takeFurther_within (s : State) (h : Within rch s0 s) (e : Eng) (i : StreamNo) : Within rch s0 (State.takeFurther s e i) := by
  unfold State.takeFurther
  repeat' first
    | with_reducible assumption
    | with_reducible apply Within.updStrm
    | with_reducible exact Within.lit
    | split
    | with_reducible refine Within.lit ?_

theorem reclaim_within (s : State) (h : Within rch s0 s) (e : Eng) (i : StreamNo) : Within rch s0 (State.reclaim s e i) := by
  unfold State.reclaim
  repeat' first
    | with_reducible assumption
    | (with_reducible apply Within.ite <;> intro _)
    | with_reducible apply Within.bump
    | with_reducible apply Within.updStrm
    | with_reducible refine Within.foldl _ ?_ _ fun _ _ _ => ?_
    | extract_lets
    | split

theorem makeRoom_within (s : State) (h : Within rch s0 s) (e : Eng) (kib : Nat) : Within rch s0 (State.makeRoom s e kib) := by
  unfold State.makeRoom
  repeat' first
    | with_reducible assumption
    | (with_reducible apply Within.ite <;> intro _)
    | with_reducible apply reclaim_within
    | with_reducible refine Within.foldl _ ?_ _ fun _ _ _ => ?_
    | split

theorem takeSlot_within (s : State) (h : Within rch s0 s) (p : Port) (t : Tag) (c : Cmd) (e : Eng) : Within rch s0 (State.takeSlot s p t c e) := by
  unfold State.takeSlot
  repeat' first
    | with_reducible assumption
    | with_reducible apply Within.updEng
    | with_reducible apply Within.updStrm
    | with_reducible apply makeRoom_within
    | with_reducible refine Within.foldl _ ?_ _ fun _ _ _ => ?_
    | with_reducible exact Within.lit
    | extract_lets
    | split
    | with_reducible refine Within.lit ?_

theorem markPages_within (s : State) (h : Within rch s0 s) (p : Port) (t : Tag) (c : Cmd) : Within rch s0 (State.markPages s p t c) := by
  unfold State.markPages
  repeat' first
    | with_reducible assumption
    | with_reducible exact Within.lit
    | with_reducible refine Within.lit ?_
    | extract_lets

theorem readScales_within (l : List Nat) (s : State) (h : Within rch s0 s) (step : Nat) : Within rch s0 (State.readScales s step l).1 := by
  induction l generalizing s with
  | nil => exact h
  | cons i l ih => exact ih _ (scaleRead_within _ h _ _)

theorem takeIn_within (s : State) (h : Within rch s0 s) (p : Port) (t : Tag) (c : Cmd) (es : List Eng) : Within rch s0 (State.takeIn s p t c es) := by
  unfold State.takeIn
  extract_lets r s1 c1
  have h1 : Within rch s0 s1 := by
    show Within rch s0 (if c.op = 0x0D then r.1.markPages p t c else r.1)
    have hr : Within rch s0 r.1 := readScales_within _ _ h _
    clear_value r
    split
    · exact markPages_within _ hr _ _ _
    · exact hr
  clear_value s1
  exact Within.foldl _ (h1.updCmd _ _ _) _ fun s x hs => takeSlot_within _ hs _ _ _ _

theorem keepChoice_within (s : State) (h : Within rch s0 s) (p : Port) (t : Tag) (es : List Eng) : Within rch s0 (State.keepChoice s p t es) := by
  unfold State.keepChoice
  repeat' first
    | with_reducible assumption
    | (with_reducible apply Within.ite <;> intro _)
    | with_reducible apply Within.updCmd
    | with_reducible exact Within.lit
    | split
    | with_reducible refine Within.lit ?_

theorem execAdmission_within (s : State) (h : Within rch s0 s) (p : Port) (t : Tag) : WithinOut rch s0 (execAdmission p t s) := by
  unfold execAdmission
  repeat' first
    | with_reducible assumption
    | (with_reducible apply Within.ite <;> intro _)
    | with_reducible apply Within.next
    | with_reducible apply Within.updCmd
    | with_reducible apply takeIn_within
    | with_reducible apply postFault_within
    | with_reducible apply keepChoice_within
    | with_reducible apply pageRequest_within
    | with_reducible apply endCmd_within
    | with_reducible exact Within.lit
    | extract_lets
    | split
    | with_reducible refine Within.lit ?_

end Sys2Proof.Machine
end

