-- ==== Sys2Proof/Laws/WithinGroups.lean ====
section
/-!
SUPPORT. What the operations of Machine/Groups.lean leave alone.
-/

namespace Sys2Proof.Machine

open Sys2Proof

variable {rch : Reach} {s0 : State}

theorem bumps_within (s : State) (h : Within rch s0 s) (e : Eng) (l : List (Nat × Nat)) : Within rch s0 (State.bumps s e l) := by
  unfold State.bumps
  repeat' first
    | with_reducible assumption
    | (with_reducible apply Within.ite <;> intro _)
    | with_reducible apply Within.bump
    | with_reducible refine Within.foldl _ ?_ _ fun _ _ _ => ?_
    | split

end Sys2Proof.Machine
end

