-- ==== Sys2Proof/Laws/WithinTiles.lean ====
section
/-!
SUPPORT. What the operations of Machine/Tiles.lean leave alone.
-/

namespace Sys2Proof.Machine

open Sys2Proof

variable {rch : Reach} {s0 : State}

theorem putElem_within (s : State) (h : Within rch s0 s) (ctx : CtxNo) (base : Nat) (bits : Nat) (i : Nat) (v : Nat) : WithinOk rch s0 (State.putElem s ctx base bits i v) := by
  unfold State.putElem
  try dsimp only
  repeat' first
    | with_reducible assumption
    | (with_reducible apply Within.ite <;> intro _)
    | with_reducible apply Within.pureBind
    | with_reducible apply Within.pure
    | with_reducible refine Within.bind fun _ _ => ?_
    | with_reducible refine Within.map fun _ _ => ?_
    | with_reducible apply Within.ok
    | with_reducible exact Within.error _
    | with_reducible refine Within.ofOk (vwrite_within _ ?_ _ _ _) (by with_reducible assumption)
    | with_reducible apply vwrite_within
    | extract_lets
    | split

theorem putElems_within (l : List (Nat × Nat)) (s : State) (h : Within rch s0 s) (ctx : CtxNo) (base bits : Nat) :
    WithinOk rch s0 (State.putElems s ctx base bits l) := by
  induction l generalizing s with
  | nil => exact h.ok
  | cons x l ih =>
    simp only [State.putElems]
    split
    · next s' e => exact ih _ (putElem_within _ h _ _ _ _ _ _ e)
    · exact Within.error _

theorem putRow_within (s : State) (h : Within rch s0 s) (ctx : CtxNo) (x : MM) (r : Nat) (c0 : Nat) (oc : List Nat) (codes : List Nat) : WithinOk rch s0 (State.putRow s ctx x r c0 oc codes) := by
  unfold State.putRow
  extract_lets
  split
  · exact h.ok
  · split
    · exact putElems_within _ _ h _ _ _
    · exact vwrite_within _ h _ _ _

theorem writeAll_within (l : List (Nat × List Byte)) (s : State) (h : Within rch s0 s) (ctx : CtxNo) :
    WithinOk rch s0 (State.writeAll s ctx l) := by
  induction l generalizing s with
  | nil => exact h.ok
  | cons x l ih =>
    simp only [State.writeAll]
    split
    · next s' e => exact ih _ (vwrite_within _ h _ _ _ _ e)
    · exact Within.error _

theorem putRows_within (l : List (Nat × List Nat)) (s : State) (h : Within rch s0 s) (ctx : CtxNo) (x : MM) (c0 : Nat) (oc : List Nat) :
    WithinOk rch s0 (State.putRows s ctx x c0 oc l) := by
  induction l generalizing s with
  | nil => exact h.ok
  | cons y l ih =>
    simp only [State.putRows]
    split
    · next s' e => exact ih _ (putRow_within _ h _ _ _ _ _ _ _ e)
    · exact Within.error _

theorem finishUnits_within (s : State) (h : Within rch s0 s) (p : Port) (t : Tag) : Within rch s0 (State.finishUnits s p t) := by
  unfold State.finishUnits
  repeat' first
    | with_reducible assumption
    | (with_reducible apply Within.ite <;> intro _)
    | with_reducible apply doneCmd_within
    | extract_lets
    | split

theorem leaveArray_within (s : State) (h : Within rch s0 s) (e : Eng) (k : SlotNo) : Within rch s0 (State.leaveArray s e k) := by
  unfold State.leaveArray
  repeat' first
    | with_reducible assumption
    | (with_reducible apply Within.ite <;> intro _)
    | with_reducible apply Within.updEng
    | with_reducible exact Within.lit
    | extract_lets
    | split
    | with_reducible refine Within.lit ?_

theorem unitFormed_within (s : State) (h : Within rch s0 s) (e : Eng) (k : SlotNo) : Within rch s0 (State.unitFormed s e k) := by
  unfold State.unitFormed
  repeat' first
    | with_reducible assumption
    | (with_reducible apply Within.ite <;> intro _)
    | with_reducible apply Within.updCmd
    | with_reducible apply Within.updSlot
    | with_reducible exact Within.lit
    | extract_lets
    | split
    | with_reducible refine Within.lit ?_

theorem startDrain_within (s : State) (h : Within rch s0 s) (e : Eng) (k : SlotNo) : Within rch s0 (State.startDrain s e k) := by
  unfold State.startDrain
  repeat' first
    | with_reducible assumption
    | (with_reducible apply Within.ite <;> intro _)
    | with_reducible apply Within.updSlot
    | with_reducible apply updTile_within
    | with_reducible apply leaveArray_within
    | with_reducible refine Within.ofOk1 (drainUnit_within _ ?_ _ _ _ _ _ _) (by with_reducible assumption)
    | with_reducible apply drainUnit_within
    | with_reducible apply unitFormed_within
    | with_reducible exact Within.lit
    | extract_lets
    | split
    | with_reducible refine Within.lit ?_

theorem endReduction_within (s : State) (h : Within rch s0 s) (e : Eng) (k : SlotNo) : Within rch s0 (State.endReduction s e k) := by
  unfold State.endReduction
  repeat' first
    | with_reducible assumption
    | (with_reducible apply Within.ite <;> intro _)
    | with_reducible apply Within.updSlot
    | with_reducible apply leaveArray_within
    | with_reducible apply startDrain_within
    | with_reducible apply unitFormed_within
    | with_reducible exact Within.lit
    | extract_lets
    | split
    | with_reducible refine Within.lit ?_

theorem claimBanks_within (s : State) (h : Within rch s0 s) (e : Eng) (c : Cmd) (v : Slot) (st : Nat) (u : Nat) : Within rch s0 (State.claimBanks s e c v st u) := by
  unfold State.claimBanks
  repeat' first
    | with_reducible assumption
    | (with_reducible apply Within.ite <;> intro _)
    | with_reducible apply Within.updEng
    | with_reducible exact Within.lit
    | extract_lets
    | split
    | with_reducible refine Within.lit ?_

theorem formGroup_within (s : State) (h : Within rch s0 s) (e : Eng) (k : SlotNo) : Within rch s0 (State.formGroup s e k) := by
  unfold State.formGroup
  repeat' first
    | with_reducible assumption
    | (with_reducible apply Within.ite <;> intro _)
    | with_reducible apply Within.updCmd
    | with_reducible apply Within.updEng
    | with_reducible apply Within.updSlot
    | with_reducible apply updTile_within
    | with_reducible apply free_within
    | with_reducible apply claimBanks_within
    | with_reducible apply endReduction_within
    | with_reducible apply bumps_within
    | with_reducible exact Within.lit
    | with_reducible refine Within.pair (by with_reducible assumption) ?_
    | extract_lets
    | split
    | with_reducible refine Within.lit ?_

theorem execMatmul_within (s : State) (h : Within rch s0 s) (e : Eng) (k : SlotNo) : WithinOut rch s0 (execMatmul e k s) := by
  unfold execMatmul
  repeat' first
    | with_reducible assumption
    | (with_reducible apply Within.ite <;> intro _)
    | with_reducible apply Within.next
    | with_reducible apply formGroup_within
    | split

theorem execFused_within (s : State) (h : Within rch s0 s) (p : Port) (t : Tag) : WithinOut rch s0 (execFused p t s) := by
  unfold execFused
  repeat' first
    | with_reducible assumption
    | (with_reducible apply Within.ite <;> intro _)
    | with_reducible apply Within.next
    | with_reducible apply formGroup_within
    | split

theorem passOn_within (s : State) (h : Within rch s0 s) (e : Eng) (k : SlotNo) : Within rch s0 (State.passOn s e k) := by
  unfold State.passOn
  repeat' first
    | with_reducible assumption
    | (with_reducible apply Within.ite <;> intro _)
    | with_reducible apply Within.updCmd
    | with_reducible apply Within.updNamed
    | with_reducible apply Within.updSlot
    | with_reducible exact Within.lit
    | extract_lets
    | split
    | with_reducible refine Within.lit ?_

theorem execGroupEntry_within (s : State) (h : Within rch s0 s) (e : Eng) (k : SlotNo) : WithinOut rch s0 (execGroupEntry e k s) := by
  unfold execGroupEntry
  repeat' first
    | with_reducible assumption
    | (with_reducible apply Within.ite <;> intro _)
    | with_reducible apply Within.next
    | with_reducible apply Within.updCmd
    | with_reducible apply Within.updSlot
    | with_reducible apply updTile_within
    | with_reducible apply passOn_within
    | with_reducible apply finishUnits_within
    | with_reducible apply endReduction_within
    | with_reducible exact Within.lit
    | extract_lets
    | split
    | with_reducible refine Within.lit ?_

theorem drain_within (s : State) (h : Within rch s0 s) (w : View) (c : Cmd) (x : MM) (sr : ScaleRead) (i ct : Nat) (tile : Tile) (d : Drained)
    (e : State.drain s w c x sr i ct tile = .ok d) : Within rch s0 d.state := by
  unfold State.drain at e
  simp only [bind, Except.bind] at e
  repeat' split at e
  all_goals try contradiction
  next s1 e1 _ s2 e2 =>
  injection e with e
  rw [← e]
  exact scaleReport_within _ (writeAll_within _ _ (putRows_within _ _ h _ _ _ _ _ e1) _ _ e2) _ _ _ _

theorem drainUnit_within (s : State) (h : Within rch s0 s) (w : View) (c : Cmd) (st u : Nat) (tile : Tile) (cnt : Cnt) :
    WithinOk1 rch s0 (State.drainUnit s w c st u tile cnt) := by
  unfold State.drainUnit
  extract_lets
  refine Within.bind1 fun a _ => ?_
  obtain ⟨full, parts, c2⟩ := a
  dsimp only
  split
  · exact h.pure1
  · exact Within.bind1 fun d e => (drain_within _ h _ _ _ _ _ _ _ _ e).pure1

theorem endDrain_within (s : State) (h : Within rch s0 s) (e : Eng) (k : SlotNo) : Within rch s0 (State.endDrain s e k) := by
  unfold State.endDrain
  repeat' first
    | with_reducible assumption
    | (with_reducible apply Within.ite <;> intro _)
    | with_reducible apply Within.updNamed
    | with_reducible apply Within.updSlot
    | with_reducible apply startDrain_within
    | with_reducible exact Within.lit
    | extract_lets
    | split
    | with_reducible refine Within.lit ?_

theorem drainSlots_within (s : State) (h : Within rch s0 s) (e : Eng) (v : Slot) : Within rch s0 (State.drainSlots s e v) := by
  unfold State.drainSlots
  repeat' first
    | with_reducible assumption
    | (with_reducible apply Within.ite <;> intro _)
    | with_reducible apply takeFurther_within
    | with_reducible refine Within.foldl _ ?_ _ fun _ _ _ => ?_
    | split

theorem execTileDrain_within (s : State) (h : Within rch s0 s) (e : Eng) (k : SlotNo) : WithinOut rch s0 (execTileDrain e k s) := by
  unfold execTileDrain
  extract_lets v c q b p
  refine Within.next (Within.ite (fun _ => h) fun _ => Within.ite (fun _ => Within.ite (fun _ => (h.updPart _ _).updSlot _ _ _) fun _ => h)
    fun _ => Within.ite (fun _ => h) fun _ => Within.ite (fun _ => drainSlots_within _ h _ _) fun _ => orWait_within _ h _ ?_)
  intro t e2
  cases e1 : s.drainUnit (s.asLanded e v) c v.drainStage v.drainUnit p.1 p.2 with
  | error _ => rw [e1] at e2; injection e2
  | ok r => 
    rw [e1] at e2
    injection e2 with e2
    rw [← e2]
    exact finishUnits_within _ (endDrain_within _ ((drainUnit_within _ h _ _ _ _ _ _ _ e1).updCmd _ _ _) _ _) _ _

theorem takeTile_within (s : State) (h : Within rch s0 s) (e : Eng) (k : SlotNo) (a : Nat) (cont : Bool) : Within rch s0 (State.takeTile s e k a cont) := by
  unfold State.takeTile
  repeat' first
    | with_reducible assumption
    | (with_reducible apply Within.ite <;> intro _)
    | with_reducible apply Within.updCmd
    | with_reducible apply Within.updNamed
    | with_reducible apply Within.updSlot
    | with_reducible exact Within.lit
    | extract_lets
    | split
    | with_reducible refine Within.lit ?_

theorem turnAway_within (s : State) (h : Within rch s0 s) (p : Port) (t : Tag) (st : Nat) : Within rch s0 (State.turnAway s p t st) := by
  unfold State.turnAway
  repeat' first
    | with_reducible assumption
    | (with_reducible apply Within.ite <;> intro _)
    | with_reducible apply Within.updCmd
    | with_reducible apply Within.updNamed
    | with_reducible apply Within.updSlot
    | with_reducible apply abortCmd_within
    | with_reducible refine Within.foldl _ ?_ _ fun _ _ _ => ?_
    | with_reducible exact Within.lit
    | extract_lets
    | split
    | with_reducible refine Within.lit ?_

theorem execNamedTileArrival_within (s : State) (h : Within rch s0 s) (e : Eng) (k : SlotNo) : WithinOut rch s0 (execNamedTileArrival e k s) := by
  unfold execNamedTileArrival
  repeat' first
    | with_reducible assumption
    | (with_reducible apply Within.ite <;> intro _)
    | with_reducible apply Within.next
    | with_reducible apply Within.updSlot
    | with_reducible apply free_within
    | with_reducible apply passOn_within
    | with_reducible apply turnAway_within
    | with_reducible apply takeTile_within
    | with_reducible exact Within.lit
    | with_reducible refine Within.pair (by with_reducible assumption) ?_
    | extract_lets
    | split
    | with_reducible refine Within.lit ?_

end Sys2Proof.Machine
end

