-- ==== Sys2Proof/Laws/WithinVector.lean ====
section
/-!
SUPPORT. What the operations of Machine/Vector.lean leave alone.
-/

namespace Sys2Proof.Machine

open Sys2Proof

variable {rch : Reach} {s0 : State}

theorem doRow_within (s : State) (h : Within rch s0 s) (p : Port) (t : Tag) (op : Nat) (f : View → Cmd → Nat → Except XErr State)
    (hf : ∀ w c r, WithinOk rch s0 (f w c r)) : Within rch s0 (State.doRow s p t op f) := by
  unfold State.doRow
  split
  · exact h
  · exact orWait_within _ h _ (Within.map fun s1 e => rowDone_within _ (hf _ _ _ _ e) _ _ _ _)

theorem execMove_within (s : State) (h : Within rch s0 s) (p : Port) (t : Tag) : WithinOut rch s0 (execMove p t s) := by
  unfold execMove
  exact Within.next (doRow_within _ h _ _ _ _ fun w c r => Within.bind fun b _ => vwrite_within _ h _ _ _)

theorem convRow_within (s : State) (h : Within rch s0 s) (p : Port) (t : Tag) (w : View) (c : Cmd) (r : Nat) : WithinOk rch s0 (State.convRow s p t w c r) := by
  unfold State.convRow
  extract_lets
  refine Within.bind fun _ _ => ?_
  extract_lets codes cnt jp2 jp
  have hj : ∀ s1, Within rch s0 s1 → WithinOk rch s0 (jp s1) := by
    intro s1 h1
    have h2 : ∀ s2, Within rch s0 s2 → WithinOk rch s0 (jp2 s2) := fun s2 h2 => (h2.updCmd _ _ _).pure
    show WithinOk rch s0 (ite _ _ _)
    clear_value jp2
    split
    · exact Within.bind fun _ e => h2 _ (vwrite_within _ h1 _ _ _ _ e)
    · exact Within.pureBind (h2 _ h1)
  clear_value jp
  split
  · exact Within.bind fun _ e => hj _ (vwrite_within _ h _ _ _ _ e)
  · exact Within.bind fun _ e => hj _ (putElems_within _ _ h _ _ _ _ e)

theorem execConvert_within (s : State) (h : Within rch s0 s) (p : Port) (t : Tag) : WithinOut rch s0 (execConvert p t s) := by
  unfold execConvert
  extract_lets report
  have hr : ∀ s c, Within rch s0 s → Within rch s0 (report s c) := fun s c hs => scaleReport_within _ hs _ _ _ _
  clear_value report
  refine Within.next (Within.ite (fun _ => doneCmd_within _ (hr _ _ h) _ _) fun _ => doRow_within _ h _ _ _ _ fun w c r => Within.bind fun s1 e => ?_)
  have h1 := convRow_within _ h _ _ _ _ _ _ e
  refine Within.pure ?_
  split
  · exact hr _ _ h1
  · exact h1

theorem foldE_within {α σ : Type} (π : σ → State) (f : σ → α → Except XErr σ) (a : σ) (l : List α) (h : Within rch s0 (π a))
    (hf : ∀ a x b, Within rch s0 (π a) → f a x = .ok b → Within rch s0 (π b)) (b : σ) (e : foldE f a l = .ok b) : Within rch s0 (π b) := by
  induction l generalizing a with
  | nil => injection e with e; exact e ▸ h
  | cons x l ih =>
    simp only [foldE] at e
    split at e
    · next s' e' => exact ih s' (hf a x s' h e') e
    · injection e

theorem putOuts_within (s : State) (h : Within rch s0 s) (c : Cmd) (r : Nat) (col : Nat) (v : VState) :
    WithinOk rch s0 (State.putOuts s c r col v) := by
  intro t e
  refine foldE_within id _ _ _ h ?_ _ e
  intro a x b ha eb
  dsimp only at eb
  split at eb
  · exact putElem_within _ ha _ _ _ _ _ _ eb
  · injection eb with eb; exact eb ▸ ha

theorem vecRow_within (s : State) (h : Within rch s0 s) (p : Port) (t : Tag) (w : View) (c : Cmd) (r : Nat) : WithinOk rch s0 (State.vecRow s p t w c r) := by
  intro u e
  unfold State.vecRow at e
  cases e1 : foldE (fun (a : State × Cnt) col => do
    let v ← w.vecElem c r col
    let s1 ← a.1.putOuts c r col v
    pure (s1, a.2.add { sat := v.sat, under := v.under })) (s, {}) (List.range (c.f 76 4)) with
  | error x => rw [e1] at e; injection e
  | ok a =>
    rw [e1] at e
    injection e with e
    rw [← e]
    refine Within.updCmd (foldE_within (·.1) _ _ _ h ?_ _ e1) _ _ _
    intro a x b ha eb
    revert b
    exact Within.bind1 fun v _ => Within.bind1 fun s1 e => (putOuts_within _ ha _ _ _ _ _ e).pure1

theorem execVector_within (s : State) (h : Within rch s0 s) (p : Port) (t : Tag) : WithinOut rch s0 (execVector p t s) := by
  unfold execVector
  repeat' first
    | with_reducible assumption
    | (with_reducible apply Within.ite <;> intro _)
    | with_reducible apply Within.next
    | with_reducible refine Within.ofOk (vecRow_within _ ?_ _ _ _ _ _) (by with_reducible assumption)
    | with_reducible apply vecRow_within
    | with_reducible apply doneCmd_within
    | with_reducible apply doRow_within
    | split

theorem solveOne_within (s : State) (h : Within rch s0 s) (p : Port) (t : Tag) (w : View) (c : Cmd) (i : Nat) : WithinOk rch s0 (State.solveOne s p t w c i) := by
  unfold State.solveOne
  extract_lets
  refine Within.bind fun _ _ => Within.bind fun _ _ => ?_
  extract_lets
  exact Within.bind fun _ e1 => Within.bind fun _ e2 =>
    ((vwrite_within _ (vwrite_within _ h _ _ _ _ e1) _ _ _ _ e2).updCmd _ _ _).pure

theorem execSolve_within (s : State) (h : Within rch s0 s) (p : Port) (t : Tag) : WithinOut rch s0 (execSolve p t s) := by
  unfold execSolve
  repeat' first
    | with_reducible assumption
    | with_reducible apply Within.next
    | with_reducible refine Within.ofOk (solveOne_within _ ?_ _ _ _ _ _) (by with_reducible assumption)
    | with_reducible apply solveOne_within
    | with_reducible apply doRow_within

theorem routeWork_within (s : State) (h : Within rch s0 s) (p : Port) (t : Tag) (w : View) (c : Cmd) : WithinOk rch s0 (State.routeWork s p t w c) := by
  unfold State.routeWork
  extract_lets
  refine Within.bind fun _ _ => ?_
  extract_lets
  exact Within.bind fun _ e => (doneCmd_within _ (Within.foldl _ ((writeAll_within _ _ h _ _ e).updCmd _ _ _) _ fun _ _ ht => refit_within _ ht _ _ _) _ _).pure

theorem execRoute_within (s : State) (h : Within rch s0 s) (p : Port) (t : Tag) : WithinOut rch s0 (execRoute p t s) := by
  unfold execRoute
  repeat' first
    | with_reducible assumption
    | with_reducible apply Within.next
    | with_reducible apply Within.pureBind
    | with_reducible apply Within.pure
    | with_reducible refine Within.bind fun _ _ => ?_
    | with_reducible refine Within.map fun _ _ => ?_
    | with_reducible apply Within.ok
    | with_reducible exact Within.error _
    | with_reducible apply orWait_within
    | with_reducible refine Within.ofOk (routeWork_within _ ?_ _ _ _ _) (by with_reducible assumption)
    | with_reducible apply routeWork_within
    | with_reducible apply beginOn_within
    | split

theorem prologue_within (s : State) (h : Within rch s0 s) (p : Port) (t : Tag) (c : Cmd) : WithinOk rch s0 (State.prologue s p t c) := by
  unfold State.prologue
  extract_lets
  refine Within.bind fun _ _ => Within.bind fun _ _ => Within.bind fun _ _ => Within.bind fun _ _ => ?_
  extract_lets
  exact Within.bind fun _ e => ((writeAll_within _ _ h _ _ e).updCmd _ _ _).pure

theorem updateRow_within (s : State) (h : Within rch s0 s) (p : Port) (t : Tag) (w : View) (c : Cmd) (r : Nat) : WithinOk rch s0 (State.updateRow s p t w c r) := by
  unfold State.updateRow
  extract_lets
  refine Within.bind fun _ _ => ?_
  split
  · exact ((h.bump _ _ _).updCmd _ _ _).pure
  · refine Within.bind fun _ _ => ?_
    dsimp only
    have hv : ∀ (x : Except XErr State) (p : Port) (t : Tag) (f : Cmd → Cmd), WithinOk rch s0 x →
        WithinOk rch s0 (x >>= fun s1 => pure (s1.updCmd p t f)) :=
      fun x p t f hx => Within.bind fun s1 e => ((hx s1 e).updCmd _ _ _).pure
    split
    · refine Within.bind fun _ _ => Within.bind fun _ _ => ?_
      exact hv _ _ _ _ (vwrite_within _ h _ _ _)
    · refine Within.bind fun _ _ => Within.bind fun _ _ => ?_
      exact hv _ _ _ _ (vwrite_within _ h _ _ _)

theorem execUpdate_within (s : State) (h : Within rch s0 s) (p : Port) (t : Tag) : WithinOut rch s0 (execUpdate p t s) := by
  unfold execUpdate
  repeat' first
    | with_reducible assumption
    | (with_reducible apply Within.ite <;> intro _)
    | with_reducible apply Within.next
    | with_reducible apply Within.pureBind
    | with_reducible apply Within.pure
    | with_reducible refine Within.bind fun _ _ => ?_
    | with_reducible refine Within.map fun _ _ => ?_
    | with_reducible apply Within.ok
    | with_reducible exact Within.error _
    | with_reducible apply orWait_within
    | with_reducible refine Within.ofOk (updateRow_within _ ?_ _ _ _ _ _) (by with_reducible assumption)
    | with_reducible apply updateRow_within
    | with_reducible apply beginOn_within
    | with_reducible apply doRow_within
    | with_reducible refine Within.ofOk (prologue_within _ ?_ _ _ _) (by with_reducible assumption)
    | with_reducible apply prologue_within
    | extract_lets
    | split

theorem execScale_within (s : State) (h : Within rch s0 s) (p : Port) (t : Tag) : WithinOut rch s0 (execScale p t s) := by
  unfold execScale
  repeat' first
    | with_reducible assumption
    | with_reducible apply Within.next
    | with_reducible apply Within.pureBind
    | with_reducible apply Within.pure
    | with_reducible refine Within.bind fun _ _ => ?_
    | with_reducible refine Within.map fun _ _ => ?_
    | with_reducible apply Within.ok
    | with_reducible exact Within.error _
    | with_reducible apply orWait_within
    | with_reducible refine Within.ofOk (scaleWork_within _ ?_ _ _ _ _) (by with_reducible assumption)
    | with_reducible apply scaleWork_within
    | split

theorem execSetGroup_within (s : State) (h : Within rch s0 s) (p : Port) (t : Tag) : WithinOut rch s0 (execSetGroup p t s) := by
  unfold execSetGroup
  repeat' first
    | with_reducible assumption
    | (with_reducible apply Within.ite <;> intro _)
    | with_reducible apply Within.next
    | with_reducible apply Within.pureBind
    | with_reducible apply Within.pure
    | with_reducible refine Within.bind fun _ _ => ?_
    | with_reducible refine Within.map fun _ _ => ?_
    | with_reducible apply Within.ok
    | with_reducible exact Within.error _
    | with_reducible apply orWait_within
    | with_reducible apply postFault_within
    | with_reducible apply doneCmd_within
    | with_reducible refine Within.ofOk (vwrite_within _ ?_ _ _ _) (by with_reducible assumption)
    | with_reducible apply vwrite_within
    | with_reducible apply endCmd_within
    | extract_lets
    | split

end Sys2Proof.Machine
end

