-- ==== Sys2Proof/Laws/WithinRouting.lean ====
section
/-!
SUPPORT. What the operations of Machine/Routing.lean leave alone.
-/

namespace Sys2Proof.Machine

open Sys2Proof

variable {rch : Reach} {s0 : State}

theorem linkFlit_within (s : State) (h : Within rch s0 s) (i : PeerPort) (ftype : Nat) (body : List Byte) (o : List Byte → Output) : Within rch s0 (State.linkFlit s i ftype body o) := by
  unfold State.linkFlit
  repeat' first
    | with_reducible assumption
    | (with_reducible apply Within.ite <;> intro _)
    | with_reducible apply Within.emit
    | with_reducible apply Within.updLink
    | extract_lets
    | split

theorem idleGo_within (n : Nat) (s : State) (h : Within rch s0 s) (i : PeerPort) : Within rch s0 (State.idleGo i n s) := by
  induction n generalizing s with
  | zero => exact h
  | succ n ih =>
    simp only [State.idleGo]
    split
    · exact h
    · exact ih _ (linkFlit_within _ h _ _ _ _)

theorem idleBack_within (s : State) (h : Within rch s0 s) (i : PeerPort) : Within rch s0 (State.idleBack s i) := by
  exact idleGo_within _ _ h _

theorem pumpGo_within (fuel : Nat) (s : State) (h : Within rch s0 s) (i : PeerPort) : Within rch s0 (State.pumpGo i fuel s) := by
  induction fuel generalizing s with
  | zero => exact h
  | succ fuel ih =>
    simp only [State.pumpGo]
    split
    · exact h
    · exact ih _ ((h.updLink _ _).emit _)

theorem pump_within (s : State) (h : Within rch s0 s) (i : PeerPort) : Within rch s0 (State.pump s i) := by
  unfold State.pump
  split
  · exact h
  · exact pumpGo_within _ _ h _

theorem enqueue_within (s : State) (h : Within rch s0 s) (i : PeerPort) (k : Packet) (dl : Bool) : Within rch s0 (State.enqueue s i k dl) := by
  unfold State.enqueue
  repeat' first
    | with_reducible assumption
    | with_reducible apply Within.updLink
    | with_reducible apply pump_within
    | with_reducible exact Within.lit
    | with_reducible refine Within.lit ?_

theorem discardPacket_within (s : State) (h : Within rch s0 s) : Within rch s0 (State.discardPacket s) := by
  unfold State.discardPacket
  repeat' first
    | with_reducible assumption
    | with_reducible exact Within.lit
    | with_reducible refine Within.lit ?_

theorem sendOn_within (s : State) (h : Within rch s0 s) (k : Packet) (dl : Bool) (from_ : Option Nat) : Within rch s0 (State.sendOn s k dl from_) := by
  unfold State.sendOn
  repeat' first
    | with_reducible assumption
    | (with_reducible apply Within.ite <;> intro _)
    | with_reducible apply enqueue_within
    | with_reducible apply discardPacket_within
    | split

theorem sendPacket_within (s : State) (h : Within rch s0 s) (k : Packet) : Within rch s0 (State.sendPacket s k) := by
  unfold State.sendPacket
  repeat' first
    | with_reducible assumption
    | with_reducible apply sendOn_within

theorem mapGroups_within (s : State) (h : Within rch s0 s) (f : GroupRec → GroupRec) : Within rch s0 (State.mapGroups s f) := by
  unfold State.mapGroups
  repeat' first
    | with_reducible assumption
    | (with_reducible apply Within.ite <;> intro _)
    | with_reducible exact Within.lit
    | split
    | with_reducible refine Within.lit ?_

theorem departEngines_within (s : State) (h : Within rch s0 s) (node : Nat) (engines : W64) : Within rch s0 (State.departEngines s node engines) := by
  unfold State.departEngines
  repeat' first
    | with_reducible assumption
    | (with_reducible apply Within.ite <;> intro _)
    | with_reducible apply mapGroups_within
    | with_reducible refine Within.foldl _ ?_ _ fun _ _ _ => ?_
    | split

theorem departNode_within (s : State) (h : Within rch s0 s) (node : Nat) : Within rch s0 (State.departNode s node) := by
  unfold State.departNode
  repeat' first
    | with_reducible assumption
    | (with_reducible apply Within.ite <;> intro _)
    | with_reducible apply mapGroups_within
    | split

theorem flood_within (s : State) (h : Within rch s0 s) (r : NoticeRec) (from_ : Option PeerPort) : Within rch s0 (State.flood s r from_) := by
  unfold State.flood
  repeat' first
    | with_reducible assumption
    | (with_reducible apply Within.ite <;> intro _)
    | with_reducible apply enqueue_within
    | with_reducible refine Within.foldl _ ?_ _ fun _ _ _ => ?_
    | split

theorem applyNotice_within (s : State) (h : Within rch s0 s) (r : NoticeRec) : Within rch s0 (State.applyNotice s r) := by
  unfold State.applyNotice
  repeat' first
    | with_reducible assumption
    | (with_reducible apply Within.ite <;> intro _)
    | with_reducible apply departEngines_within
    | with_reducible apply departNode_within
    | with_reducible exact Within.lit
    | extract_lets
    | split
    | with_reducible refine Within.lit ?_

theorem issueNotice_within (s : State) (h : Within rch s0 s) (kind : Nat) (port : Nat) (node : Nat) (engines : W64) : Within rch s0 (State.issueNotice s kind port node engines) := by
  unfold State.issueNotice
  repeat' first
    | with_reducible assumption
    | with_reducible apply flood_within
    | with_reducible apply applyNotice_within
    | with_reducible exact Within.lit
    | with_reducible refine Within.lit ?_
    | extract_lets

theorem departOwn_within (s : State) (h : Within rch s0 s) (engines : W64) : Within rch s0 (State.departOwn s engines) := by
  unfold State.departOwn
  repeat' first
    | with_reducible assumption
    | (with_reducible apply Within.ite <;> intro _)
    | with_reducible apply issueNotice_within
    | with_reducible apply departEngines_within
    | split

theorem reroute_within (s : State) (h : Within rch s0 s) (l : List (Packet × Bool)) : Within rch s0 (State.reroute s l) := by
  unfold State.reroute
  repeat' first
    | with_reducible assumption
    | with_reducible apply sendOn_within
    | with_reducible refine Within.foldl _ ?_ _ fun _ _ _ => ?_

theorem reroutes_within (s : State) (h : Within rch s0 s) : Within rch s0 (State.reroutes s) := by
  unfold State.reroutes
  have hf : ∀ (l : List (Fin 6)) (a : State × List Nat), Within rch s0 a.1 → Within rch s0 (l.foldl (fun (a : State × List Nat) i =>
    if (a.1.link i).state ≠ .up then (a.1.updLink i fun l => { l with routeDir := 0xF, unused := false }, a.2)
    else
      match (a.1.peer.dirsOf (a.1.link i).nbrNode).find? fun d => !a.2.contains d with
      | some d => (a.1.updLink i fun l => { l with routeDir := d, unused := false }, a.2 ++ [d])
      | none => (a.1.updLink i fun l => { l with routeDir := 0xF, unused := true }, a.2)) a).1 := by
    intro l
    induction l with
    | nil => exact fun a ha => ha
    | cons x l ih =>
      intro a ha
      refine ih _ ?_
      dsimp only
      split
      · exact ha.updLink _ _
      · split
        · exact ha.updLink _ _
        · exact ha.updLink _ _
  exact hf _ (s, []) h

theorem linkLost_within (s : State) (h : Within rch s0 s) (i : PeerPort) (st : LinkState) : Within rch s0 (State.linkLost s i st) := by
  unfold State.linkLost
  repeat' first
    | with_reducible assumption
    | with_reducible apply Within.updLink
    | with_reducible apply reroute_within
    | with_reducible apply issueNotice_within
    | with_reducible apply reroutes_within
    | with_reducible exact Within.lit
    | with_reducible refine Within.lit ?_
    | extract_lets

theorem linkDown_within (s : State) (h : Within rch s0 s) (i : PeerPort) : Within rch s0 (State.linkDown s i) := by
  unfold State.linkDown
  repeat' first
    | with_reducible assumption
    | (with_reducible apply Within.ite <;> intro _)
    | with_reducible apply Within.bump
    | with_reducible apply Within.updLink
    | with_reducible apply linkLost_within
    | with_reducible apply postErr_within
    | with_reducible exact Within.lit
    | split
    | with_reducible refine Within.lit ?_

theorem receive_within (s : State) (h : Within rch s0 s) (i : PeerPort) (k : Packet) (dl : Bool) : WithinOpt rch s0 (State.receive s i k dl) := by
  unfold State.receive
  repeat' first
    | with_reducible assumption
    | (with_reducible apply Within.ite <;> intro _)
    | with_reducible apply Within.some
    | with_reducible exact Within.none
    | with_reducible apply Within.updLink
    | with_reducible exact Within.lit
    | split
    | with_reducible refine Within.lit ?_

theorem release_within (s : State) (h : Within rch s0 s) (i : PeerPort) (k : Packet) (dl : Bool) : Within rch s0 (State.release s i k dl) := by
  unfold State.release
  repeat' first
    | with_reducible assumption
    | with_reducible apply Within.updLink
    | with_reducible apply idleBack_within
    | with_reducible exact Within.lit
    | with_reducible refine Within.lit ?_
    | extract_lets

theorem onPacket_within (s : State) (h : Within rch s0 s) (i : PeerPort) (k : Packet) (dl : Bool) (f : State → State × Bool)
    (hf : ∀ t, Within rch s0 t → Within rch s0 (f t).1) : Within rch s0 (State.onPacket s i k dl f) := by
  unfold State.onPacket
  split
  · exact h
  · next s1 e =>
    have h1 := receive_within _ h _ _ _ _ e
    split
    · exact linkDown_within _ h _
    · extract_lets r
      have hr := hf s1 h1
      show Within rch s0 (if r.2 = true then r.1.idleBack i else r.1.release i k dl)
      have hr' : Within rch s0 r.1 := hr
      clear_value r
      split
      · exact idleBack_within _ hr' _
      · exact release_within _ hr' _ _ _

theorem answerPacket_within (s : State) (h : Within rch s0 s) (k : Packet) (ptype : Nat) (status : Nat) (data : List Byte) : Within rch s0 (State.answerPacket s k ptype status data) := by
  unfold State.answerPacket
  repeat' first
    | with_reducible assumption
    | with_reducible apply sendPacket_within

theorem serveWrite_within (s : State) (h : Within rch s0 s) (k : Packet) : WithinOk rch s0 (State.serveWrite s k) := by
  unfold State.serveWrite
  extract_lets pb s1
  have h1 : Within rch s0 s1 := h.lit
  clear_value s1
  split
  · exact (answerPacket_within _ h1 _ _ _ _).ok
  · split
    · next e => exact (answerPacket_within _ (vwrite_within _ h1 _ _ _ _ e) _ _ _ _).ok
    · split
      · exact Within.error _
      · exact (answerPacket_within _ h1 _ _ _ _).ok

theorem serveRead_within (s : State) (h : Within rch s0 s) (k : Packet) : Within rch s0 (State.serveRead s k) := by
  unfold State.serveRead
  repeat' first
    | with_reducible assumption
    | with_reducible apply answerPacket_within
    | extract_lets
    | split

theorem keepPacket_within (s : State) (h : Within rch s0 s) (i : PeerPort) (k : Packet) (dl : Bool) : Within rch s0 (State.keepPacket s i k dl) := by
  unfold State.keepPacket
  repeat' first
    | with_reducible assumption
    | with_reducible exact Within.lit
    | with_reducible refine Within.lit ?_

theorem forward_within (s : State) (h : Within rch s0 s) (i : PeerPort) (k : Packet) (dl : Bool) : Within rch s0 (State.forward s i k dl) := by
  unfold State.forward
  repeat' first
    | with_reducible assumption
    | (with_reducible apply Within.ite <;> intro _)
    | with_reducible apply Within.bump
    | with_reducible apply Within.updLink
    | with_reducible apply enqueue_within
    | with_reducible apply discardPacket_within
    | extract_lets
    | split

theorem atHome_within (s : State) (h : Within rch s0 s) (i : PeerPort) (k : Packet) (dl : Bool) (f : State → State × Bool)
    (hf : ∀ t, Within rch s0 t → Within rch s0 (f t).1) : Within rch s0 (State.atHome s i k dl f) := by
  unfold State.atHome
  refine onPacket_within _ h _ _ _ _ fun t ht => ?_
  split
  · exact forward_within _ ht _ _ _
  · split
    · exact hf t ht
    · exact discardPacket_within _ ht

end Sys2Proof.Machine
end

