-- ==== Sys2Proof/Laws/WithinCollectives.lean ====
section
/-!
SUPPORT. What the operations of Machine/Collectives.lean leave alone.
-/

namespace Sys2Proof.Machine

open Sys2Proof

variable {rch : Reach} {s0 : State}

theorem sendUp_within (s : State) (h : Within rch s0 s) (c : Cmd) (to_ : Nat) (seg : Nat) (contrib : Nat) (last : Nat) (data : List Byte) : Within rch s0 (State.sendUp s c to_ seg contrib last data) := by
  unfold State.sendUp
  repeat' first
    | with_reducible assumption
    | with_reducible apply sendPacket_within

theorem sendDown_within (s : State) (h : Within rch s0 s) (c : Cmd) (to_ : Nat) (seg : Nat) (contrib : Nat) (data : List Nat) : Within rch s0 (State.sendDown s c to_ seg contrib data) := by
  unfold State.sendDown
  repeat' first
    | with_reducible assumption
    | with_reducible apply sendPacket_within

theorem updColl_within (s : State) (h : Within rch s0 s) (p : Port) (t : Tag) (f : CollProg → CollProg) : Within rch s0 (State.updColl s p t f) := by
  unfold State.updColl
  repeat' first
    | with_reducible assumption
    | with_reducible apply Within.updCmd
    | with_reducible exact Within.lit
    | with_reducible refine Within.lit ?_

theorem keepSealed_within (s : State) (h : Within rch s0 s) (p : Port) (t : Tag) (ms : List (Nat × List Nat)) (k : Nat) (contrib : Nat) (data : List Nat) : Within rch s0 (State.keepSealed s p t ms k contrib data) := by
  unfold State.keepSealed
  repeat' first
    | with_reducible assumption
    | (with_reducible apply Within.ite <;> intro _)
    | with_reducible apply sendDown_within
    | with_reducible apply updColl_within
    | with_reducible refine Within.foldl _ ?_ _ fun _ _ _ => ?_
    | with_reducible exact Within.lit
    | extract_lets
    | split
    | with_reducible refine Within.lit ?_

theorem sealSeg_within (s : State) (h : Within rch s0 s) (p : Port) (t : Tag) (ms : List (Nat × List Nat)) (k : Nat) (contrib : Nat) (data : List Nat) : Within rch s0 (State.sealSeg s p t ms k contrib data) := by
  unfold State.sealSeg
  repeat' first
    | with_reducible assumption
    | (with_reducible apply Within.ite <;> intro _)
    | with_reducible apply Within.updCmd
    | with_reducible apply keepSealed_within
    | with_reducible refine Within.foldl _ ?_ _ fun _ _ _ => ?_
    | extract_lets
    | split

theorem passSeg_within (s : State) (h : Within rch s0 s) (p : Port) (t : Tag) (ms : List (Nat × List Nat)) (k : Nat) : Within rch s0 (State.passSeg s p t ms k) := by
  unfold State.passSeg
  repeat' first
    | with_reducible assumption
    | (with_reducible apply Within.ite <;> intro _)
    | with_reducible apply sealSeg_within
    | with_reducible apply sendUp_within
    | with_reducible apply updColl_within
    | with_reducible exact Within.lit
    | extract_lets
    | split
    | with_reducible refine Within.lit ?_

theorem foldIn_within (s : State) (h : Within rch s0 s) (p : Port) (t : Tag) (k : Nat) (n : Nat) (last : Nat) (own : Bool) (x : List Nat) : Within rch s0 (State.foldIn s p t k n last own x) := by
  unfold State.foldIn
  repeat' first
    | with_reducible assumption
    | with_reducible apply Within.updCmd
    | with_reducible exact Within.lit
    | with_reducible refine Within.lit ?_
    | extract_lets

theorem foldOwn_within (s : State) (h : Within rch s0 s) (p : Port) (t : Tag) (ms : List (Nat × List Nat)) (k : Nat) : Within rch s0 (State.foldOwn s p t ms k) := by
  unfold State.foldOwn
  repeat' first
    | with_reducible assumption
    | with_reducible apply foldIn_within
    | with_reducible refine Within.foldl _ ?_ _ fun _ _ _ => ?_
    | extract_lets

theorem startSegs_within (s : State) (h : Within rch s0 s) (p : Port) (t : Tag) (ms : List (Nat × List Nat)) : Within rch s0 (State.startSegs s p t ms) := by
  unfold State.startSegs
  repeat' first
    | with_reducible assumption
    | (with_reducible apply Within.ite <;> intro _)
    | with_reducible apply sealSeg_within
    | with_reducible apply foldOwn_within
    | with_reducible apply sendUp_within
    | with_reducible apply passSeg_within
    | with_reducible refine Within.foldl _ ?_ _ fun _ _ _ => ?_
    | extract_lets
    | split

theorem growStream_within (s : State) (h : Within rch s0 s) (p : Port) (t : Tag) (role : Nat) (n : Nat) : Within rch s0 (State.growStream s p t role n) := by
  unfold State.growStream
  repeat' first
    | with_reducible assumption
    | (with_reducible apply Within.ite <;> intro _)
    | with_reducible apply Within.updStrm
    | with_reducible exact Within.lit
    | extract_lets
    | split
    | with_reducible refine Within.lit ?_

theorem tellWrite_within (s : State) (h : Within rch s0 s) (p : Port) (t : Tag) (k : Nat) (ws : List (Nat × Nat)) : Within rch s0 (State.tellWrite s p t k ws) := by
  unfold State.tellWrite
  repeat' first
    | with_reducible assumption
    | (with_reducible apply Within.ite <;> intro _)
    | with_reducible apply updColl_within
    | with_reducible apply growStream_within
    | with_reducible exact Within.lit
    | extract_lets
    | split
    | with_reducible refine Within.lit ?_

theorem putDst_within (s : State) (h : Within rch s0 s) (p : Port) (t : Tag) (k : Nat) (ws : List (Nat × List Byte)) : Within rch s0 (State.putDst s p t k ws).1 := by
  unfold State.putDst
  extract_lets s1
  have h1 : Within rch s0 s1 := tellWrite_within _ h _ _ _ _
  clear_value s1
  split
  · next e => exact writeAll_within _ _ h1 _ _ e
  · exact orWait_within _ h1 _ (Within.error _)

theorem sparseDone_within (s : State) (h : Within rch s0 s) (p : Port) (t : Tag) (c : Cmd) (ms : List (Nat × List Nat)) : WithinOk rch s0 (State.sparseDone s p t c ms) := by
  unfold State.sparseDone
  extract_lets
  refine Within.bind fun _ _ => ?_
  split
  · refine Within.bind fun ws _ => ?_
    extract_lets r
    have hr : Within rch s0 r.1 := putDst_within _ h _ _ _ _
    clear_value r
    refine Within.pure ?_
    split
    · exact doneCmd_within _ (hr.updCmd _ _ _) _ _
    · exact hr
  · exact h.pure

theorem sparseStart_within (s : State) (h : Within rch s0 s) (p : Port) (t : Tag) (c : Cmd) (ms : List (Nat × List Nat)) : WithinOk rch s0 (State.sparseStart s p t c ms) := by
  unfold State.sparseStart
  try dsimp only
  repeat' first
    | with_reducible assumption
    | (with_reducible apply Within.ite <;> intro _)
    | with_reducible apply Within.pureBind
    | with_reducible apply Within.pure
    | with_reducible refine Within.bind fun _ _ => ?_
    | with_reducible refine Within.map fun _ _ => ?_
    | with_reducible apply Within.ok
    | with_reducible exact Within.error _
    | with_reducible apply sendUp_within
    | with_reducible apply updColl_within
    | with_reducible refine Within.foldl _ ?_ _ fun _ _ _ => ?_
    | with_reducible exact Within.lit
    | extract_lets
    | split
    | with_reducible refine Within.lit ?_

theorem drainShare_within (s : State) (h : Within rch s0 s) (c : Cmd) (x : MM) (sr : ScaleRead) (tileSat : Nat) (data : List Nat) (lo : Nat) (hi : Nat) : WithinOk1 rch s0 (State.drainShare s c x sr tileSat data lo hi) := by
  unfold State.drainShare
  extract_lets
  refine Within.bind1 fun _ _ => Within.bind1 fun _ _ => ?_
  extract_lets
  refine Within.bind1 fun s1 e => ?_
  have h1 : Within rch s0 s1 := by
    refine foldE_within id _ _ _ h ?_ _ e
    intro a x b ha eb
    split at eb
    · injection eb with eb; exact eb ▸ ha
    · exact putElems_within _ _ ha _ _ _ _ eb
  exact Within.bind1 fun s2 e => (scaleReport_within _ (writeAll_within _ _ h1 _ _ e) _ _ _ _).pure1

theorem finishTiles_within (s : State) (h : Within rch s0 s) (c : Cmd) (data : List Nat) (lo : Nat) (hi : Nat) : WithinOk1 rch s0 (State.finishTiles s c data lo hi) := by
  unfold State.finishTiles
  extract_lets a es
  have hf : ∀ (t : State) (f : Tile → Tile), Within rch s0 t → Within rch s0 (es.foldl (fun s e => s.updNamed e a f) t) :=
    fun t f ht => Within.foldl _ ht _ fun _ _ hs => hs.updNamed _ _ _
  have hk : ∀ x : Except XErr (State × Cnt), WithinOk1 rch s0 x →
      WithinOk1 rch s0 (x >>= fun d => pure (es.foldl (fun s e => s.updNamed e a fun _ => {}) d.1, d.2)) :=
    fun x hx => Within.bind1 fun d e => (hf _ _ (hx d e)).pure1
  split
  · exact (hf _ _ h).pure1
  · split
    · exact hk _ h.pure1
    · exact hk _ (drainShare_within _ h _ _ _ _ _ _ _)

theorem writeSeg_within (s : State) (h : Within rch s0 s) (p : Port) (t : Tag) (ms : List (Nat × List Nat)) (k : Nat) : Within rch s0 (State.writeSeg s p t ms k) := by
  unfold State.writeSeg
  extract_lets
  rename_i r
  have hr : Within rch s0 r.1 := putDst_within _ h _ _ _ _
  clear_value r
  split
  · exact hr
  · exact hr.updCmd _ _ _

theorem relayOn_within (s : State) (h : Within rch s0 s) (p : Port) (t : Tag) (ms : List (Nat × List Nat)) : Within rch s0 (State.relayOn s p t ms) := by
  unfold State.relayOn
  repeat' first
    | with_reducible assumption
    | (with_reducible apply Within.ite <;> intro _)
    | with_reducible exact Within.lit
    | extract_lets
    | split
    | with_reducible refine Within.lit ?_

theorem relayDown_within (s : State) (h : Within rch s0 s) (k : Packet) (g : GroupRec) : Within rch s0 (State.relayDown s k g) := by
  unfold State.relayDown
  repeat' first
    | with_reducible assumption
    | (with_reducible apply Within.ite <;> intro _)
    | with_reducible apply sendPacket_within
    | with_reducible refine Within.foldl _ ?_ _ fun _ _ _ => ?_
    | with_reducible exact Within.lit
    | extract_lets
    | split
    | with_reducible refine Within.lit ?_

theorem advanceColl_within (s : State) (h : Within rch s0 s) (p : Port) (t : Tag) (ms : List (Nat × List Nat)) : Within rch s0 (State.advanceColl s p t ms) := by
  unfold State.advanceColl
  extract_lets c rank need s1 c1 g held gave final sh s1' s2
  have h1 : Within rch s0 s1 := by
    show Within rch s0 (ite _ _ _)
    split
    · exact h
    · refine Within.foldl _ h _ fun s k hs => ?_
      dsimp only
      split
      · exact writeSeg_within _ hs _ _ _ _
      · exact hs
  have h1' : Within rch s0 s1' := by
    show Within rch s0 (ite _ _ _)
    split
    · exact tellWrite_within _ h1 _ _ _ _
    · exact h1
  have h2 : WithinOk1 rch s0 s2 := by
    show WithinOk1 rch s0 (ite _ _ _)
    split
    · exact h1'.ok1
    · exact finishTiles_within _ h1' _ _ _ _
  clear_value s1 held gave s2 s1'
  split
  · exact h1
  · split
    · exact h1'
    · next s3 n => exact doneCmd_within _ (relayOn_within _ ((h2 _ rfl).updCmd _ _ _) _ _ _) _ _

theorem goOn_within (s : State) (h : Within rch s0 s) (p : Port) (t : Tag) (ms : List (Nat × List Nat)) : Within rch s0 (State.goOn s p t ms) := by
  unfold State.goOn
  extract_lets
  split
  · exact h
  · split
    · exact orWait_within _ h _ (sparseDone_within _ h _ _ _ _)
    · exact advanceColl_within _ h _ _ _

theorem restartColl_within (s : State) (h : Within rch s0 s) (p : Port) (t : Tag) (g : GroupRec) : Within rch s0 (State.restartColl s p t g) := by
  unfold State.restartColl
  repeat' first
    | with_reducible assumption
    | (with_reducible apply Within.ite <;> intro _)
    | with_reducible apply Within.pureBind
    | with_reducible apply Within.pure
    | with_reducible refine Within.bind fun _ _ => ?_
    | with_reducible refine Within.map fun _ _ => ?_
    | with_reducible apply Within.ok
    | with_reducible exact Within.error _
    | with_reducible apply orWait_within
    | with_reducible refine Within.ofOk (sparseStart_within _ ?_ _ _ _ _) (by with_reducible assumption)
    | with_reducible apply sparseStart_within
    | with_reducible apply startSegs_within
    | with_reducible apply updColl_within
    | with_reducible exact Within.lit
    | extract_lets
    | split
    | with_reducible refine Within.lit ?_

theorem syncColl_within (s : State) (h : Within rch s0 s) (p : Port) (t : Tag) : Within rch s0 (State.syncColl s p t) := by
  unfold State.syncColl
  repeat' first
    | with_reducible assumption
    | (with_reducible apply Within.ite <;> intro _)
    | with_reducible apply restartColl_within
    | with_reducible apply faultCmd_within
    | with_reducible apply sendDown_within
    | with_reducible apply startSegs_within
    | with_reducible apply updColl_within
    | with_reducible refine Within.foldl _ ?_ _ fun _ _ _ => ?_
    | with_reducible exact Within.lit
    | extract_lets
    | split
    | with_reducible refine Within.lit ?_

theorem syncColls_within (s : State) (h : Within rch s0 s) : Within rch s0 (State.syncColls s) := by
  unfold State.syncColls
  repeat' first
    | with_reducible assumption
    | with_reducible apply syncColl_within
    | with_reducible refine Within.foldl _ ?_ _ fun _ _ _ => ?_

theorem takeUp_within (s : State) (h : Within rch s0 s) (p : Port) (t : Tag) (g : GroupRec) (k : Packet) : Within rch s0 (State.takeUp s p t g k) := by
  unfold State.takeUp
  repeat' first
    | with_reducible assumption
    | (with_reducible apply Within.ite <;> intro _)
    | with_reducible apply restartColl_within
    | with_reducible apply sealSeg_within
    | with_reducible apply foldIn_within
    | with_reducible apply foldOwn_within
    | with_reducible apply sendUp_within
    | with_reducible apply goOn_within
    | with_reducible apply updColl_within
    | with_reducible apply passSeg_within
    | with_reducible exact Within.lit
    | extract_lets
    | split
    | with_reducible refine Within.lit ?_

theorem takeDown_within (s : State) (h : Within rch s0 s) (p : Port) (t : Tag) (g : GroupRec) (k : Packet) : Within rch s0 (State.takeDown s p t g k) := by
  unfold State.takeDown
  repeat' first
    | with_reducible assumption
    | (with_reducible apply Within.ite <;> intro _)
    | with_reducible apply keepSealed_within
    | with_reducible apply goOn_within
    | extract_lets
    | split

theorem collPacket_within (s : State) (h : Within rch s0 s) (i : PeerPort) (k : Packet) (dl : Bool) : Within rch s0 (State.collPacket s i k dl).1 := by
  unfold State.collPacket
  repeat' first
    | with_reducible assumption
    | (with_reducible apply Within.ite <;> intro _)
    | with_reducible apply takeUp_within
    | with_reducible apply takeDown_within
    | with_reducible apply discardPacket_within
    | with_reducible apply relayDown_within
    | with_reducible apply keepPacket_within
    | with_reducible exact Within.lit
    | split
    | with_reducible refine Within.lit ?_

theorem writePacket_within (s : State) (h : Within rch s0 s) (i : PeerPort) (k : Packet) (dl : Bool) : Within rch s0 (State.writePacket s i k dl).1 := by
  unfold State.writePacket
  split
  · next e => exact serveWrite_within _ h _ _ e
  · exact keepPacket_within _ (awaitPage_within _ (h.lit) _) _ _ _

theorem retryWaiting_within (s : State) (h : Within rch s0 s) : Within rch s0 (State.retryWaiting s) := by
  unfold State.retryWaiting
  repeat' first
    | with_reducible assumption
    | (with_reducible apply Within.ite <;> intro _)
    | with_reducible apply collPacket_within
    | with_reducible apply release_within
    | with_reducible apply writePacket_within
    | with_reducible refine Within.foldl _ ?_ _ fun _ _ _ => ?_
    | with_reducible exact Within.lit
    | with_reducible refine Within.pair (by with_reducible assumption) ?_
    | extract_lets
    | split
    | with_reducible refine Within.lit ?_

theorem afterRecords_within (s : State) (h : Within rch s0 s) : Within rch s0 (State.afterRecords s) := by
  unfold State.afterRecords
  repeat' first
    | with_reducible assumption
    | with_reducible apply retryWaiting_within
    | with_reducible apply syncColls_within

theorem activateColl_within (s : State) (h : Within rch s0 s) (p : Port) (t : Tag) (g : GroupRec) (inputs : List (List Nat)) : Within rch s0 (State.activateColl s p t g inputs) := by
  unfold State.activateColl
  repeat' first
    | with_reducible assumption
    | (with_reducible apply Within.ite <;> intro _)
    | with_reducible apply Within.updCmd
    | with_reducible apply Within.updEng
    | with_reducible refine Within.foldl _ ?_ _ fun _ _ _ => ?_
    | with_reducible exact Within.lit
    | extract_lets
    | split
    | with_reducible refine Within.lit ?_

theorem tileInputs_within (s : State) (h : Within rch s0 s) (c : Cmd) (a : Nat) (s1 : State) (ins : List (List Nat)) (n : Cnt)
    (e : State.tileInputs s c a = .ready s1 ins n) : Within rch s0 s1 := by
  unfold State.tileInputs at e
  extract_lets at e
  split at e
  · contradiction
  · split at e
    · contradiction
    · split at e
      · contradiction
      · split at e
        · contradiction
        · injection e with e
          rw [← e]
          exact Within.foldl _ h _ fun _ _ hs => hs.updNamed _ _ _

theorem beginColl_within (s : State) (h : Within rch s0 s) (p : Port) (t : Tag) : Within rch s0 (State.beginColl s p t) := by
  unfold State.beginColl
  extract_lets c
  split
  · exact faultCmd_within _ h _ _
  · split
    · exact faultCmd_within _ h _ _
    · split
      · exact h
      · extract_lets ms go
        have hgo : ∀ s' ins, Within rch s0 s' → Within rch s0 (go s' ins) := by
          intro s' ins hs
          have ha := activateColl_within s' hs p t
          refine retryWaiting_within _ (goOn_within _ ?_ _ _ _)
          split
          · exact orWait_within _ (ha _ _) _ (sparseStart_within _ (ha _ _) _ _ _ _)
          · exact startSegs_within _ (ha _ _) _ _ _
        clear_value go
        split
        · split
          · exact h
          · exact abortCmd_within _ h _ _ _
          · next e => exact hgo _ _ ((tileInputs_within _ h _ _ _ _ _ e).updCmd _ _ _)
        · split
          · exact hgo _ _ h
          · split
            · exact h
            · exact hgo _ _ h

theorem lateRoot_within (s : State) (h : Within rch s0 s) (p : Port) (t : Tag) (ms : List (Nat × List Nat)) : Within rch s0 (State.lateRoot s p t ms) := by
  unfold State.lateRoot
  repeat' first
    | with_reducible assumption
    | (with_reducible apply Within.ite <;> intro _)
    | with_reducible apply startSegs_within
    | with_reducible apply growStream_within
    | with_reducible apply updColl_within
    | with_reducible exact Within.lit
    | extract_lets
    | split
    | with_reducible refine Within.lit ?_

theorem execCollective_within (s : State) (h : Within rch s0 s) (p : Port) (t : Tag) : WithinOut rch s0 (execCollective p t s) := by
  unfold execCollective
  repeat' first
    | with_reducible assumption
    | (with_reducible apply Within.ite <;> intro _)
    | with_reducible apply Within.next
    | with_reducible apply beginColl_within
    | with_reducible apply lateRoot_within
    | with_reducible apply goOn_within
    | with_reducible apply syncColl_within
    | extract_lets
    | split

theorem departColl_within (s : State) (h : Within rch s0 s) (c : Cmd) : Within rch s0 (State.departColl s c) := by
  unfold State.departColl
  repeat' first
    | with_reducible assumption
    | (with_reducible apply Within.ite <;> intro _)
    | with_reducible apply departOwn_within
    | with_reducible refine Within.foldl _ ?_ _ fun _ _ _ => ?_
    | extract_lets
    | split

theorem storeHeader_within (s : State) (h : Within rch s0 s) (p : Port) (t : Tag) : Within rch s0 (State.storeHeader s p t) := by
  unfold State.storeHeader
  repeat' first
    | with_reducible assumption
    | (with_reducible apply Within.ite <;> intro _)
    | with_reducible apply vwriteGo_within
    | extract_lets
    | split

theorem execCommandVisibility_within (s : State) (h : Within rch s0 s) (p : Port) (t : Tag) [wctxs : May rch.ctxs] : WithinOut rch s0 (execCommandVisibility p t s) := by
  unfold execCommandVisibility
  repeat' first
    | with_reducible assumption
    | (with_reducible apply Within.ite <;> intro _)
    | with_reducible apply Within.next
    | with_reducible apply Within.updCmd
    | with_reducible apply awaitPage_within
    | with_reducible apply releaseSlots_within
    | with_reducible apply afterRecords_within
    | with_reducible apply departColl_within
    | with_reducible apply signal_within
    | with_reducible apply dropSide_within
    | with_reducible apply storeHeader_within
    | with_reducible apply settle_within
    | with_reducible exact Within.lit_ctxs
    | split
    | with_reducible refine Within.lit_ctxs ?_

theorem execCollPacketWaitTimeout_within (s : State) (h : Within rch s0 s) (n : Nat) : WithinOut rch s0 (execCollPacketWaitTimeout n s) := by
  unfold execCollPacketWaitTimeout
  repeat' first
    | with_reducible assumption
    | (with_reducible apply Within.ite <;> intro _)
    | with_reducible apply Within.next
    | with_reducible apply release_within
    | with_reducible exact Within.lit
    | split
    | with_reducible refine Within.lit ?_

end Sys2Proof.Machine
end

