-- ==== Sys2Proof/Laws/WithinLinks.lean ====
section
/-!
SUPPORT. What the operations of Machine/Links.lean leave alone.
-/

namespace Sys2Proof.Machine

open Sys2Proof

variable {rch : Reach} {s0 : State}

theorem badFlit_within (s : State) (h : Within rch s0 s) (i : PeerPort) : Within rch s0 (State.badFlit s i) := by
  unfold State.badFlit
  repeat' first
    | with_reducible assumption
    | (with_reducible apply Within.ite <;> intro _)
    | with_reducible apply Within.updLink
    | with_reducible apply linkFlit_within
    | with_reducible exact Within.lit
    | extract_lets
    | split
    | with_reducible refine Within.lit ?_

theorem takePart_within (s : State) (h : Within rch s0 s) (i : PeerPort) (l : List (List Byte)) : Within rch s0 (State.takePart s i l) := by
  induction l generalizing s with
  | nil => exact h
  | cons b bs ih =>
    simp only [State.takePart]
    split
    · exact h
    · split
      · exact linkDown_within _ h _
      · exact ih _ (h.updLink _ _)

theorem judgeFlit_within (s : State) (h : Within rch s0 s) (i : PeerPort) (why : BadFlit) : Within rch s0 (State.judgeFlit s i why) := by
  unfold State.judgeFlit
  repeat' first
    | with_reducible assumption
    | (with_reducible apply Within.ite <;> intro _)
    | with_reducible apply Within.bump
    | with_reducible apply Within.updLink
    | with_reducible apply badFlit_within
    | split

theorem execBadFlitReceived_within (s : State) (h : Within rch s0 s) (i : PeerPort) (why : BadFlit) : WithinOut rch s0 (execBadFlitReceived i why s) := by
  unfold execBadFlitReceived
  repeat' first
    | with_reducible assumption
    | (with_reducible apply Within.ite <;> intro _)
    | with_reducible apply Within.next
    | with_reducible apply takePart_within
    | with_reducible apply judgeFlit_within
    | split

theorem resend_within (s : State) (h : Within rch s0 s) (i : PeerPort) (fl : List Flit) : Within rch s0 (State.resend s i fl) := by
  unfold State.resend
  repeat' first
    | with_reducible assumption
    | (with_reducible apply Within.ite <;> intro _)
    | with_reducible apply Within.bump
    | with_reducible apply Within.emit
    | with_reducible apply Within.updLink
    | with_reducible apply linkDown_within
    | with_reducible refine Within.foldl _ ?_ _ fun _ _ _ => ?_
    | with_reducible exact Within.lit
    | extract_lets
    | split
    | with_reducible refine Within.lit ?_

theorem execNak_within (s : State) (h : Within rch s0 s) (i : PeerPort) (seq : BitVec 12) : WithinOut rch s0 (execNak i seq s) := by
  unfold execNak
  repeat' first
    | with_reducible assumption
    | (with_reducible apply Within.ite <;> intro _)
    | with_reducible apply Within.next
    | with_reducible apply resend_within
    | with_reducible apply after_within
    | split

theorem execIdle_within (s : State) (h : Within rch s0 s) (i : PeerPort) (ack : Option (BitVec 12)) (credit : W32) : WithinOut rch s0 (execIdle i ack credit s) := by
  unfold execIdle
  repeat' first
    | with_reducible assumption
    | (with_reducible apply Within.ite <;> intro _)
    | with_reducible apply Within.next
    | with_reducible apply Within.updLink
    | with_reducible apply pump_within
    | extract_lets
    | split

theorem execAckTimeout_within (s : State) (h : Within rch s0 s) (i : PeerPort) : WithinOut rch s0 (execAckTimeout i s) := by
  unfold execAckTimeout
  repeat' first
    | with_reducible assumption
    | (with_reducible apply Within.ite <;> intro _)
    | with_reducible apply Within.next
    | with_reducible apply linkDown_within
    | with_reducible apply afterRecords_within
    | split

theorem execFecLockLost_within (s : State) (h : Within rch s0 s) (i : PeerPort) : WithinOut rch s0 (execFecLockLost i s) := by
  unfold execFecLockLost
  repeat' first
    | with_reducible assumption
    | with_reducible apply Within.next
    | with_reducible apply linkDown_within
    | with_reducible apply afterRecords_within

theorem execAlignmentCodeword_within (s : State) (h : Within rch s0 s) (i : PeerPort) : WithinOut rch s0 (execAlignmentCodeword i s) := by
  unfold execAlignmentCodeword
  repeat' first
    | with_reducible assumption
    | (with_reducible apply Within.ite <;> intro _)
    | with_reducible apply Within.next
    | with_reducible apply Within.emit
    | with_reducible apply Within.updLink
    | with_reducible exact Within.lit
    | extract_lets
    | split
    | with_reducible refine Within.lit ?_

theorem train_within (s : State) (h : Within rch s0 s) (i : PeerPort) : Within rch s0 (State.train s i) := by
  unfold State.train
  repeat' first
    | with_reducible assumption
    | (with_reducible apply Within.ite <;> intro _)
    | with_reducible apply Within.updLink
    | with_reducible exact Within.lit
    | split
    | with_reducible refine Within.lit ?_

theorem failPort_within (s : State) (h : Within rch s0 s) (i : PeerPort) : Within rch s0 (State.failPort s i) := by
  unfold State.failPort
  repeat' first
    | with_reducible assumption
    | with_reducible apply Within.bump
    | with_reducible apply Within.updLink
    | with_reducible exact Within.lit
    | with_reducible refine Within.lit ?_
    | extract_lets

theorem sendIdent_within (s : State) (h : Within rch s0 s) (i : PeerPort) : Within rch s0 (State.sendIdent s i) := by
  unfold State.sendIdent
  repeat' first
    | with_reducible assumption
    | with_reducible apply linkFlit_within
    | extract_lets

theorem portUp_within (s : State) (h : Within rch s0 s) (i : PeerPort) : Within rch s0 (State.portUp s i) := by
  unfold State.portUp
  repeat' first
    | with_reducible assumption
    | (with_reducible apply Within.ite <;> intro _)
    | with_reducible apply Within.updLink
    | with_reducible apply resend_within
    | with_reducible apply issueNotice_within
    | with_reducible apply pump_within
    | with_reducible apply reroutes_within
    | with_reducible exact Within.lit
    | extract_lets
    | split
    | with_reducible refine Within.lit ?_

theorem execTrainingStepComplete_within (s : State) (h : Within rch s0 s) (i : PeerPort) (lanes : LaneReport) : WithinOut rch s0 (execTrainingStepComplete i lanes s) := by
  unfold execTrainingStepComplete
  repeat' first
    | with_reducible assumption
    | (with_reducible apply Within.ite <;> intro _)
    | with_reducible apply Within.next
    | with_reducible apply Within.updLink
    | with_reducible apply sendIdent_within
    | with_reducible apply portUp_within
    | with_reducible apply afterRecords_within
    | with_reducible apply setCauseAll_within
    | with_reducible apply failPort_within
    | with_reducible exact Within.lit
    | extract_lets
    | split
    | with_reducible refine Within.lit ?_

theorem execTrainingTimeout_within (s : State) (h : Within rch s0 s) (i : PeerPort) : WithinOut rch s0 (execTrainingTimeout i s) := by
  unfold execTrainingTimeout
  repeat' first
    | with_reducible assumption
    | with_reducible apply Within.next
    | with_reducible apply failPort_within
    | split

theorem execIdent_within (s : State) (h : Within rch s0 s) (i : PeerPort) (rec : IdentRec) : WithinOut rch s0 (execIdent i rec s) := by
  unfold execIdent
  repeat' first
    | with_reducible assumption
    | (with_reducible apply Within.ite <;> intro _)
    | with_reducible apply Within.next
    | with_reducible apply Within.updLink
    | with_reducible apply setCauseAll_within
    | with_reducible apply linkFlit_within
    | with_reducible apply failPort_within
    | with_reducible exact Within.lit
    | extract_lets
    | split
    | with_reducible refine Within.lit ?_

theorem execIdentAck_within (s : State) (h : Within rch s0 s) (i : PeerPort) (node : Nat) : WithinOut rch s0 (execIdentAck i node s) := by
  unfold execIdentAck
  repeat' first
    | with_reducible assumption
    | (with_reducible apply Within.ite <;> intro _)
    | with_reducible apply Within.next
    | with_reducible apply Within.updLink
    | with_reducible exact Within.lit
    | split
    | with_reducible refine Within.lit ?_

theorem execIdentResend_within (s : State) (h : Within rch s0 s) (i : PeerPort) : WithinOut rch s0 (execIdentResend i s) := by
  unfold execIdentResend
  repeat' first
    | with_reducible assumption
    | (with_reducible apply Within.ite <;> intro _)
    | with_reducible apply Within.next
    | with_reducible apply sendIdent_within
    | split

theorem dropPort_within (s : State) (h : Within rch s0 s) (i : PeerPort) (st : LinkState) : Within rch s0 (State.dropPort s i st) := by
  unfold State.dropPort
  repeat' first
    | with_reducible assumption
    | (with_reducible apply Within.ite <;> intro _)
    | with_reducible apply Within.updLink
    | with_reducible apply linkLost_within
    | with_reducible exact Within.lit
    | split
    | with_reducible refine Within.lit ?_

theorem retrainPort_within (s : State) (h : Within rch s0 s) (i : PeerPort) : Within rch s0 (State.retrainPort s i) := by
  unfold State.retrainPort
  repeat' first
    | with_reducible assumption
    | (with_reducible apply Within.ite <;> intro _)
    | with_reducible apply Within.updLink
    | with_reducible apply train_within
    | with_reducible apply dropPort_within
    | with_reducible exact Within.lit
    | extract_lets
    | split
    | with_reducible refine Within.lit ?_

theorem execRetrain_within (s : State) (h : Within rch s0 s) (i : PeerPort) : WithinOut rch s0 (execRetrain i s) := by
  unfold execRetrain
  repeat' first
    | with_reducible assumption
    | (with_reducible apply Within.ite <;> intro _)
    | with_reducible apply Within.next
    | with_reducible apply retrainPort_within
    | with_reducible apply afterRecords_within
    | split

theorem disablePeer_within (s : State) (h : Within rch s0 s) (i : PeerPort) : Within rch s0 (State.disablePeer s i) := by
  unfold State.disablePeer
  repeat' first
    | with_reducible assumption
    | with_reducible apply Within.updLink
    | with_reducible apply dropPort_within
    | with_reducible exact Within.lit
    | with_reducible refine Within.lit ?_

theorem execPeerPortDisable_within (s : State) (h : Within rch s0 s) (i : PeerPort) : WithinOut rch s0 (execPeerPortDisable i s) := by
  unfold execPeerPortDisable
  repeat' first
    | with_reducible assumption
    | (with_reducible apply Within.ite <;> intro _)
    | with_reducible apply Within.next
    | with_reducible apply afterRecords_within
    | with_reducible apply disablePeer_within
    | split

theorem startPort_within (s : State) (h : Within rch s0 s) (i : PeerPort) : Within rch s0 (State.startPort s i) := by
  unfold State.startPort
  repeat' first
    | with_reducible assumption
    | (with_reducible apply Within.ite <;> intro _)
    | with_reducible apply Within.updLink
    | with_reducible apply train_within
    | with_reducible exact Within.lit
    | extract_lets
    | split
    | with_reducible refine Within.lit ?_

theorem enablePeer_within (s : State) (h : Within rch s0 s) (i : PeerPort) : Within rch s0 (State.enablePeer s i) := by
  unfold State.enablePeer
  repeat' first
    | with_reducible assumption
    | with_reducible apply Within.updLink
    | with_reducible apply startPort_within
    | with_reducible exact Within.lit
    | with_reducible refine Within.lit ?_

theorem lockedWrite_within (s : State) (h : Within rch s0 s) [wsec : May rch.sec] : Within rch s0 (State.lockedWrite s) := by
  unfold State.lockedWrite
  repeat' first
    | with_reducible assumption
    | with_reducible exact Within.lit_sec
    | with_reducible refine Within.lit_sec ?_

theorem writeNode_within (s : State) (h : Within rch s0 s) (v : Nat) [wsec : May rch.sec] : Within rch s0 (State.writeNode s v) := by
  unfold State.writeNode
  repeat' first
    | with_reducible assumption
    | (with_reducible apply Within.ite <;> intro _)
    | with_reducible apply startPort_within
    | with_reducible apply dropPort_within
    | with_reducible apply lockedWrite_within
    | with_reducible refine Within.foldl _ ?_ _ fun _ _ _ => ?_
    | with_reducible exact Within.lit_sec
    | extract_lets
    | split
    | with_reducible refine Within.lit_sec ?_

theorem execPeerNodeWrite_within (s : State) (h : Within rch s0 s) (value : W64) [wsec : May rch.sec] : WithinOut rch s0 (execPeerNodeWrite value s) := by
  unfold execPeerNodeWrite
  repeat' first
    | with_reducible assumption
    | (with_reducible apply Within.ite <;> intro _)
    | with_reducible apply Within.next
    | with_reducible apply afterRecords_within
    | with_reducible apply writeNode_within
    | split

theorem execPacketForward_within (s : State) (h : Within rch s0 s) (i : PeerPort) (pkt : Packet) (dl : Bool) : WithinOut rch s0 (execPacketForward i pkt dl s) := by
  unfold execPacketForward
  repeat' first
    | with_reducible assumption
    | (with_reducible apply Within.ite <;> intro _)
    | with_reducible apply Within.next
    | with_reducible apply atHome_within
    | with_reducible apply afterRecords_within
    | intro _ _
    | split

theorem execWrite_within (s : State) (h : Within rch s0 s) (i : PeerPort) (pkt : Arrived Packet) : WithinOut rch s0 (execWrite i pkt s) := by
  unfold execWrite
  repeat' first
    | with_reducible assumption
    | (with_reducible apply Within.ite <;> intro _)
    | with_reducible apply Within.next
    | with_reducible apply atHome_within
    | with_reducible apply afterRecords_within
    | with_reducible apply writePacket_within
    | intro _ _
    | with_reducible refine Within.pair (by with_reducible assumption) ?_
    | split

theorem execRead_within (s : State) (h : Within rch s0 s) (i : PeerPort) (pkt : Arrived Packet) : WithinOut rch s0 (execRead i pkt s) := by
  unfold execRead
  repeat' first
    | with_reducible assumption
    | (with_reducible apply Within.ite <;> intro _)
    | with_reducible apply Within.next
    | with_reducible apply atHome_within
    | with_reducible apply serveRead_within
    | with_reducible apply afterRecords_within
    | intro _ _
    | split

theorem endTxn_within (s : State) (h : Within rch s0 s) (x : PeerTxn) (ok : Bool) : Within rch s0 (State.endTxn s x ok) := by
  unfold State.endTxn
  repeat' first
    | with_reducible assumption
    | (with_reducible apply Within.ite <;> intro _)
    | with_reducible apply Within.updStrm
    | with_reducible apply landReq_within
    | with_reducible exact Within.lit
    | split
    | with_reducible refine Within.lit ?_

theorem takeResponse_within (s : State) (h : Within rch s0 s) (k : Packet) (read : Bool) : Within rch s0 (State.takeResponse s k read) := by
  unfold State.takeResponse
  repeat' first
    | with_reducible assumption
    | (with_reducible apply Within.ite <;> intro _)
    | with_reducible apply Within.bump
    | with_reducible apply Within.updCmd
    | with_reducible apply Within.updStrm
    | with_reducible apply endTxn_within
    | with_reducible apply free_within
    | with_reducible apply faultCmd_within
    | with_reducible exact Within.lit
    | with_reducible refine Within.pair (by with_reducible assumption) ?_
    | extract_lets
    | split
    | with_reducible refine Within.lit ?_

theorem execWriteAck_within (s : State) (h : Within rch s0 s) (i : PeerPort) (pkt : Arrived Packet) : WithinOut rch s0 (execWriteAck i pkt s) := by
  unfold execWriteAck
  repeat' first
    | with_reducible assumption
    | (with_reducible apply Within.ite <;> intro _)
    | with_reducible apply Within.next
    | with_reducible apply atHome_within
    | with_reducible apply takeResponse_within
    | with_reducible apply afterRecords_within
    | intro _ _
    | split

theorem execReadData_within (s : State) (h : Within rch s0 s) (i : PeerPort) (pkt : Arrived Packet) : WithinOut rch s0 (execReadData i pkt s) := by
  unfold execReadData
  repeat' first
    | with_reducible assumption
    | (with_reducible apply Within.ite <;> intro _)
    | with_reducible apply Within.next
    | with_reducible apply atHome_within
    | with_reducible apply afterRecords_within
    | with_reducible apply takeResponse_within
    | intro _ _
    | split

theorem execPeerResponseTimeout_within (s : State) (h : Within rch s0 s) (txn : W32) : WithinOut rch s0 (execPeerResponseTimeout txn s) := by
  unfold execPeerResponseTimeout
  repeat' first
    | with_reducible assumption
    | (with_reducible apply Within.ite <;> intro _)
    | with_reducible apply Within.next
    | with_reducible apply endTxn_within
    | with_reducible apply faultCmd_within
    | with_reducible exact Within.lit
    | extract_lets
    | split
    | with_reducible refine Within.lit ?_

theorem execCollUp_within (s : State) (h : Within rch s0 s) (i : PeerPort) (pkt : Arrived Packet) : WithinOut rch s0 (execCollUp i pkt s) := by
  unfold execCollUp
  repeat' first
    | with_reducible assumption
    | (with_reducible apply Within.ite <;> intro _)
    | with_reducible apply Within.next
    | with_reducible apply atHome_within
    | with_reducible apply afterRecords_within
    | with_reducible apply collPacket_within
    | with_reducible apply syncColls_within
    | intro _ _
    | with_reducible refine Within.pair (by with_reducible assumption) ?_
    | split

theorem execCollDown_within (s : State) (h : Within rch s0 s) (i : PeerPort) (pkt : Arrived Packet) : WithinOut rch s0 (execCollDown i pkt s) := by
  unfold execCollDown
  repeat' first
    | with_reducible assumption
    | (with_reducible apply Within.ite <;> intro _)
    | with_reducible apply Within.next
    | with_reducible apply atHome_within
    | with_reducible apply afterRecords_within
    | with_reducible apply collPacket_within
    | with_reducible apply syncColls_within
    | intro _ _
    | with_reducible refine Within.pair (by with_reducible assumption) ?_
    | split

theorem execNotice_within (s : State) (h : Within rch s0 s) (i : PeerPort) (rec : Arrived NoticeRec) : WithinOut rch s0 (execNotice i rec s) := by
  unfold execNotice
  apply Within.next
  refine afterRecords_within _ (onPacket_within _ h _ _ _ _ fun t ht => ?_)
  split
  · exact ht
  · exact flood_within _ (applyNotice_within _ ht.lit _) _ _

end Sys2Proof.Machine
end

