-- ==== Sys2Proof/Laws/WithinLedger.lean ====
section
/-!
SUPPORT. What the operations of Machine/Ledger.lean leave alone.
-/

namespace Sys2Proof.Machine

open Sys2Proof

variable {rch : Reach} {s0 : State}

theorem ledger_within (s : State) (h : Within rch s0 s) (type : Nat) (unit : Nat) (index : Nat) (op : Nat) (payload : List Byte) [wage : May rch.age] : Within rch s0 (State.ledger s type unit index op payload) := by
  unfold State.ledger
  repeat' first
    | with_reducible assumption
    | (with_reducible apply Within.ite <;> intro _)
    | with_reducible exact Within.lit_age
    | extract_lets
    | split
    | with_reducible refine Within.lit_age ?_

theorem retire_within (s : State) (h : Within rch s0 s) (m : Stack) (page : Nat) (why : Nat) (post : Bool) [wage : May rch.age] : Within rch s0 (State.retire s m page why post) := by
  unfold State.retire
  extract_lets k s1 s2
  have h1 : Within rch s0 s1 := h.updStack _ _
  clear_value s1
  have h2 : Within rch s0 s2 := Within.ite (fun _ => h1) fun _ => ledger_within _ h1 _ _ _ _ _
  clear_value s2
  split
  · exact h
  · split
    · exact postErr_within _ h2 _
    · exact h2

theorem confirmRetire_within (s : State) (h : Within rch s0 s) (m : Stack) [wage : May rch.age] : Within rch s0 (State.confirmRetire s m) := by
  unfold State.confirmRetire
  repeat' first
    | with_reducible assumption
    | with_reducible apply retire_within
    | with_reducible refine Within.foldl _ ?_ _ fun _ _ _ => ?_

theorem execRetireConfirm_within (s : State) (h : Within rch s0 s) (m : Stack) [wage : May rch.age] : WithinOut rch s0 (execRetireConfirm m s) := by
  unfold execRetireConfirm
  repeat' first
    | with_reducible assumption
    | (with_reducible apply Within.ite <;> intro _)
    | with_reducible apply Within.next
    | with_reducible apply confirmRetire_within
    | split

end Sys2Proof.Machine
end

