-- ==== Sys2Proof/Laws/WithinSnapshots.lean ====
section
/-!
SUPPORT. What the operations of Machine/Snapshots.lean leave alone.
-/

namespace Sys2Proof.Machine

open Sys2Proof

variable {rch : Reach} {s0 : State}

theorem setDown_within (s : State) (h : Within rch s0 s) (p : Port) (t : Tag) (e : Eng) (b : List Byte) : Within rch s0 (State.setDown s p t e b) := by
  unfold State.setDown
  repeat' first
    | with_reducible assumption
    | with_reducible apply Within.updCmd
    | with_reducible exact Within.lit
    | with_reducible refine Within.lit ?_

theorem storeImage_within (s : State) (h : Within rch s0 s) (p : Port) (t : Tag) (e : Eng) (off : Nat) (b : List Byte) : WithinOk rch s0 (State.storeImage s p t e off b) := by
  unfold State.storeImage
  repeat' first
    | with_reducible assumption
    | (with_reducible apply Within.ite <;> intro _)
    | with_reducible apply Within.pureBind
    | with_reducible apply Within.pure
    | with_reducible refine Within.bind fun _ _ => ?_
    | with_reducible refine Within.map fun _ _ => ?_
    | with_reducible apply Within.ok
    | with_reducible exact Within.error _
    | with_reducible apply setDown_within
    | with_reducible refine Within.ofOk (vwrite_within _ ?_ _ _ _) (by with_reducible assumption)
    | with_reducible apply vwrite_within
    | extract_lets
    | split

theorem unmark_within (s : State) (h : Within rch s0 s) (p : Port) (t : Tag) : Within rch s0 (State.unmark s p t) := by
  unfold State.unmark
  repeat' first
    | with_reducible assumption
    | (with_reducible apply Within.ite <;> intro _)
    | with_reducible apply retryWaiting_within
    | with_reducible exact Within.lit
    | extract_lets
    | split
    | with_reducible refine Within.lit ?_

theorem readPiece_within (s : State) (h : Within rch s0 s) (p : Port) (t : Tag) : WithinOk rch s0 (State.readPiece s p t) := by
  unfold State.readPiece
  repeat' first
    | with_reducible assumption
    | with_reducible apply Within.pureBind
    | with_reducible apply Within.pure
    | with_reducible refine Within.bind fun _ _ => ?_
    | with_reducible refine Within.map fun _ _ => ?_
    | with_reducible apply Within.ok
    | with_reducible exact Within.error _
    | with_reducible apply Within.updCmd
    | with_reducible apply unmark_within
    | with_reducible exact Within.lit
    | with_reducible refine Within.lit ?_
    | extract_lets

theorem readEarly_within (s : State) (h : Within rch s0 s) (p : Port) (t : Tag) (page : Nat) : WithinOk rch s0 (State.readEarly s p t page) := by
  unfold State.readEarly
  repeat' first
    | with_reducible assumption
    | with_reducible apply Within.pureBind
    | with_reducible apply Within.pure
    | with_reducible refine Within.bind fun _ _ => ?_
    | with_reducible refine Within.map fun _ _ => ?_
    | with_reducible apply Within.ok
    | with_reducible exact Within.error _
    | with_reducible apply Within.updCmd
    | with_reducible apply unmark_within
    | with_reducible exact Within.lit
    | with_reducible refine Within.lit ?_
    | extract_lets

theorem saveSection_within (s : State) (h : Within rch s0 s) (p : Port) (t : Tag) (e : Eng) (b : List Byte) : WithinOk rch s0 (State.saveSection s p t e b) := by
  unfold State.saveSection
  repeat' first
    | with_reducible assumption
    | (with_reducible apply Within.ite <;> intro _)
    | with_reducible apply Within.pureBind
    | with_reducible apply Within.pure
    | with_reducible refine Within.bind fun _ _ => ?_
    | with_reducible refine Within.map fun _ _ => ?_
    | with_reducible apply Within.ok
    | with_reducible exact Within.error _
    | with_reducible apply Within.updCmd
    | with_reducible refine Within.ofOk (storeImage_within _ ?_ _ _ _ _ _) (by with_reducible assumption)
    | with_reducible apply storeImage_within
    | with_reducible exact Within.lit
    | extract_lets
    | split
    | with_reducible refine Within.lit ?_

theorem setHeader_within (s : State) (h : Within rch s0 s) (p : Port) (t : Tag) (e : Eng) : Within rch s0 (State.setHeader s p t e) := by
  unfold State.setHeader
  repeat' first
    | with_reducible assumption
    | (with_reducible apply Within.ite <;> intro _)
    | with_reducible apply Within.updCmd
    | with_reducible apply setDown_within
    | with_reducible exact Within.lit
    | extract_lets
    | split
    | with_reducible refine Within.lit ?_

theorem execCheckpoint_within (s : State) (h : Within rch s0 s) (p : Port) (t : Tag) : WithinOut rch s0 (execCheckpoint p t s) := by
  unfold execCheckpoint
  repeat' first
    | with_reducible assumption
    | (with_reducible apply Within.ite <;> intro _)
    | with_reducible apply Within.next
    | with_reducible apply Within.pureBind
    | with_reducible apply Within.pure
    | with_reducible refine Within.bind fun _ _ => ?_
    | with_reducible refine Within.map fun _ _ => ?_
    | with_reducible apply Within.ok
    | with_reducible exact Within.error _
    | with_reducible apply Within.updCmd
    | with_reducible apply orWait_within
    | with_reducible refine Within.ofOk (readPiece_within _ ?_ _ _) (by with_reducible assumption)
    | with_reducible apply readPiece_within
    | with_reducible apply doneCmd_within
    | with_reducible apply setHeader_within
    | with_reducible refine Within.ofOk (saveSection_within _ ?_ _ _ _ _) (by with_reducible assumption)
    | with_reducible apply saveSection_within
    | with_reducible refine Within.ofOk (readEarly_within _ ?_ _ _ _) (by with_reducible assumption)
    | with_reducible apply readEarly_within
    | extract_lets
    | split

theorem restoreScales_within (s : State) (h : Within rch s0 s) (c : Cmd) (b : List Byte) : Within rch s0 (State.restoreScales s c b) := by
  unfold State.restoreScales
  repeat' first
    | with_reducible assumption
    | with_reducible apply updScales_within
    | with_reducible refine Within.foldl _ ?_ _ fun _ _ _ => ?_

theorem restoreGroups_within (s : State) (h : Within rch s0 s) (c : Cmd) (b : List Byte) : Within rch s0 (State.restoreGroups s c b) := by
  unfold State.restoreGroups
  repeat' first
    | with_reducible assumption
    | (with_reducible apply Within.ite <;> intro _)
    | with_reducible apply Within.updEng
    | with_reducible refine Within.foldl _ ?_ _ fun _ _ _ => ?_
    | with_reducible exact Within.lit
    | extract_lets
    | split
    | with_reducible refine Within.lit ?_

theorem writeSection_within (s : State) (h : Within rch s0 s) (c : Cmd) (kind : Nat) (src : Nat) (b : List Byte) : WithinOk rch s0 (State.writeSection s c kind src b) := by
  unfold State.writeSection
  repeat' first
    | with_reducible assumption
    | (with_reducible apply Within.ite <;> intro _)
    | with_reducible apply Within.pureBind
    | with_reducible apply Within.pure
    | with_reducible refine Within.bind fun _ _ => ?_
    | with_reducible refine Within.map fun _ _ => ?_
    | with_reducible apply Within.ok
    | with_reducible exact Within.error _
    | with_reducible apply restoreGroups_within
    | with_reducible apply restoreScales_within
    | with_reducible refine Within.ofOk (vwrite_within _ ?_ _ _ _) (by with_reducible assumption)
    | with_reducible apply vwrite_within
    | split

theorem spoil_within (s : State) (h : Within rch s0 s) (c : Cmd) (k : Nat) : Within rch s0 (State.spoil s c k) := by
  unfold State.spoil
  refine Within.foldl _ h _ fun s x h => ?_
  dsimp only
  split
  · next s1 e => exact (writeSection_within s h c _ _ _ _ e).lit
  · exact h

theorem takeHeader_within (s : State) (h : Within rch s0 s) (p : Port) (t : Tag) (h : List Byte) : Within rch s0 (State.takeHeader s p t h) := by
  unfold State.takeHeader
  repeat' first
    | with_reducible assumption
    | (with_reducible apply Within.ite <;> intro _)
    | with_reducible apply Within.updCmd
    | with_reducible apply refit_within
    | with_reducible apply endCmd_within
    | with_reducible refine Within.foldl _ ?_ _ fun _ _ _ => ?_
    | with_reducible exact Within.lit
    | extract_lets
    | split
    | with_reducible refine Within.lit ?_

theorem restoreStep_within (s : State) (h : Within rch s0 s) (e : Eng) (p : Port) (t : Tag) : WithinOk rch s0 (State.restoreStep s e p t) := by
  unfold State.restoreStep
  try dsimp only
  repeat' first
    | with_reducible assumption
    | (with_reducible apply Within.ite <;> intro _)
    | with_reducible apply Within.pureBind
    | with_reducible apply Within.pure
    | with_reducible refine Within.bind fun _ _ => ?_
    | with_reducible refine Within.map fun _ _ => ?_
    | with_reducible apply Within.ok
    | with_reducible exact Within.error _
    | with_reducible apply Within.updCmd
    | with_reducible apply faultCmd_within
    | with_reducible apply doneCmd_within
    | with_reducible refine Within.ofOk (writeSection_within _ ?_ _ _ _ _) (by with_reducible assumption)
    | with_reducible apply writeSection_within
    | with_reducible apply takeHeader_within
    | with_reducible apply spoil_within
    | with_reducible exact Within.lit
    | extract_lets
    | split
    | with_reducible refine Within.lit ?_

theorem execRestore_within (s : State) (h : Within rch s0 s) (p : Port) (t : Tag) : WithinOut rch s0 (execRestore p t s) := by
  unfold execRestore
  repeat' first
    | with_reducible assumption
    | with_reducible apply Within.next
    | with_reducible apply Within.pureBind
    | with_reducible apply Within.pure
    | with_reducible refine Within.bind fun _ _ => ?_
    | with_reducible refine Within.map fun _ _ => ?_
    | with_reducible apply Within.ok
    | with_reducible exact Within.error _
    | with_reducible apply orWait_within
    | with_reducible apply afterRecords_within
    | with_reducible refine Within.ofOk (restoreStep_within _ ?_ _ _ _) (by with_reducible assumption)
    | with_reducible apply restoreStep_within
    | split

end Sys2Proof.Machine
end

