-- ==== Sys2Proof/Laws/WithinSelftest.lean ====
section
/-!
SUPPORT. What the operations of Machine/Selftest.lean leave alone.
-/

namespace Sys2Proof.Machine

open Sys2Proof

variable {rch : Reach} {s0 : State}

theorem finishPlan_within (s : State) (h : Within rch s0 s) (q : Part) (code : Nat) (margin : Nat) (sref : Int) (payload : List Byte) (lower : Nat) [wage : May rch.age] : Within rch s0 (State.finishPlan s q code margin sref payload lower) := by
  unfold State.finishPlan
  repeat' first
    | with_reducible assumption
    | (with_reducible apply Within.ite <;> intro _)
    | with_reducible apply Within.emit
    | with_reducible apply Within.updPart
    | with_reducible apply setCauseAll_within
    | with_reducible apply ledger_within
    | with_reducible exact Within.lit_age
    | extract_lets
    | split
    | with_reducible refine Within.lit_age ?_

theorem free_within (s : State) (h : Within rch s0 s) : Within rch s0 (State.free s).1 := by
  unfold State.free
  repeat' first
    | with_reducible assumption
    | with_reducible exact Within.lit
    | with_reducible refine Within.lit ?_

theorem makePlan_within (s : State) (h : Within rch s0 s) (q : Part) (own : Bool) [wage : May rch.age] : Within rch s0 (State.makePlan s q own).1 := by
  unfold State.makePlan
  extract_lets
  rename_i a x r o pl payload
  split
  · exact h.updPart _ _
  · have hr : Within rch s0 r.1 := by
      show Within rch s0 (Prod.fst (α := State) (β := Nat) (match a.slackMin with
        | some v => (s, v)
        | none => (x.1, x.2.toNat % 2 ^ 12)))
      split
      · exact h
      · exact free_within _ h
    have hs : Within rch s0 o.1 := free_within _ hr
    clear_value r o
    split
    · exact hs.updPart _ _
    · exact finishPlan_within _ hs _ _ _ _ _ _

theorem execRailCodeStep_within (s : State) (h : Within rch s0 s) (q : Part) : WithinOut rch s0 (execRailCodeStep q s) := by
  unfold execRailCodeStep
  repeat' first
    | with_reducible assumption
    | (with_reducible apply Within.ite <;> intro _)
    | with_reducible apply Within.next
    | with_reducible apply Within.updPart
    | with_reducible exact Within.lit
    | extract_lets
    | split
    | with_reducible refine Within.lit ?_

theorem finishTest_within (s : State) (h : Within rch s0 s) (p : Port) (t : Tag) [wage : May rch.age] : Within rch s0 (State.finishTest s p t) := by
  unfold State.finishTest
  repeat' first
    | with_reducible assumption
    | (with_reducible apply Within.ite <;> intro _)
    | with_reducible apply Within.pureBind
    | with_reducible apply Within.pure
    | with_reducible refine Within.bind fun _ _ => ?_
    | with_reducible refine Within.map fun _ _ => ?_
    | with_reducible apply Within.ok
    | with_reducible exact Within.error _
    | with_reducible apply Within.updCmd
    | with_reducible apply orWait_within
    | with_reducible apply doneCmd_within
    | with_reducible apply ledger_within
    | with_reducible refine Within.ofOk (vwrite_within _ ?_ _ _ _) (by with_reducible assumption)
    | with_reducible apply vwrite_within
    | with_reducible refine Within.foldl _ ?_ _ fun _ _ _ => ?_
    | with_reducible exact Within.lit_age
    | extract_lets
    | split
    | with_reducible refine Within.lit_age ?_

theorem testOut_within (s : State) (h : Within rch s0 s) (p : Port) (t : Tag) (k : Nat) (o : ItemOut) [wage : May rch.age] : Within rch s0 (State.testOut s p t k o) := by
  unfold State.testOut
  repeat' first
    | with_reducible assumption
    | with_reducible apply Within.updCmd
    | with_reducible apply finishTest_within
    | with_reducible exact Within.lit_age
    | with_reducible refine Within.lit_age ?_

theorem itemOut_within (s : State) (h : Within rch s0 s) (q : Part) (it : TestItem) (o : ItemOut) [wage : May rch.age] : Within rch s0 (State.itemOut s q it o) := by
  unfold State.itemOut
  repeat' first
    | with_reducible assumption
    | (with_reducible apply Within.ite <;> intro _)
    | with_reducible apply testOut_within
    | split

theorem withdrawTrials_within (s : State) (h : Within rch s0 s) (q : Part) (o : ItemOut) [wage : May rch.age] : Within rch s0 (State.withdrawTrials s q o) := by
  unfold State.withdrawTrials
  repeat' first
    | with_reducible assumption
    | with_reducible apply Within.updPart
    | with_reducible apply itemOut_within
    | with_reducible refine Within.foldl _ ?_ _ fun _ _ _ => ?_
    | extract_lets

theorem planFor_within (s : State) (h : Within rch s0 s) (q : Part) (own : Bool) [wage : May rch.age] : Within rch s0 (State.planFor s q own) := by
  unfold State.planFor
  extract_lets r
  have hr : Within rch s0 r.1 := makePlan_within _ h _ _
  clear_value r
  split
  · exact withdrawTrials_within _ hr _ _
  · exact hr.updPart _ _

theorem planNow_within (s : State) (h : Within rch s0 s) (q : Part) [wage : May rch.age] : Within rch s0 (State.planNow s q) := by
  unfold State.planNow
  exact planFor_within _ h _ _

theorem execReplan_within (s : State) (h : Within rch s0 s) (mask : BitVec 8) [wage : May rch.age] : WithinOut rch s0 (execReplan mask s) := by
  unfold execReplan
  repeat' first
    | with_reducible assumption
    | (with_reducible apply Within.ite <;> intro _)
    | with_reducible apply Within.next
    | with_reducible apply planNow_within
    | with_reducible refine Within.foldl _ ?_ _ fun _ _ _ => ?_
    | with_reducible exact Within.lit_age
    | split
    | with_reducible refine Within.lit_age ?_

theorem execPlanTimer_within (s : State) (h : Within rch s0 s) (q : Part) [wage : May rch.age] : WithinOut rch s0 (execPlanTimer q s) := by
  unfold execPlanTimer
  repeat' first
    | with_reducible assumption
    | (with_reducible apply Within.ite <;> intro _)
    | with_reducible apply Within.next
    | with_reducible apply planNow_within
    | extract_lets
    | split

theorem queueItem_within (s : State) (h : Within rch s0 s) (p : Port) (t : Tag) (q : Part) [wage : May rch.age] : Within rch s0 (State.queueItem s p t q) := by
  unfold State.queueItem
  extract_lets c test put r
  have hp : ∀ t b, Within rch s0 t → Within rch s0 (put t b) := fun t b ht => ht.updPart _ _
  have hr : Within rch s0 r.1 := makePlan_within _ h _ _
  clear_value r put
  split
  · split
    · exact testOut_within _ (withdrawTrials_within _ hr _ _) _ _ _ _
    · exact hp _ _ hr
  · split
    · exact hp _ _ h
    · exact h

theorem execSelftest_within (s : State) (h : Within rch s0 s) (p : Port) (t : Tag) [wage : May rch.age] : WithinOut rch s0 (execSelftest p t s) := by
  unfold execSelftest
  repeat' first
    | with_reducible assumption
    | (with_reducible apply Within.ite <;> intro _)
    | with_reducible apply Within.next
    | with_reducible apply Within.updCmd
    | with_reducible apply finishTest_within
    | with_reducible apply queueItem_within
    | with_reducible refine Within.foldl _ ?_ _ fun _ _ _ => ?_
    | with_reducible exact Within.lit_age
    | extract_lets
    | split
    | with_reducible refine Within.lit_age ?_

theorem execWindowOpen_within (s : State) (h : Within rch s0 s) (q : Part) (results : List ItemResult) : WithinOut rch s0 (execWindowOpen q results s) := by
  unfold execWindowOpen
  repeat' first
    | with_reducible assumption
    | (with_reducible apply Within.ite <;> intro _)
    | with_reducible apply Within.next
    | with_reducible apply Within.updPart
    | with_reducible refine Within.foldl _ ?_ _ fun _ _ _ => ?_
    | with_reducible exact Within.lit
    | extract_lets
    | split
    | with_reducible refine Within.lit ?_

theorem endTrial_within (s : State) (h : Within rch s0 s) (q : Part) (it : TestItem) (fail : Bool) [wage : May rch.age] : Within rch s0 (State.endTrial s q it fail).1 := by
  unfold State.endTrial
  extract_lets a
  split
  · exact h
  · next w _ =>
    have h1 : ∀ (t : State) (o : ItemOut) (f g : Partition → Partition), Within rch s0 t →
        Within rch s0 (((t.updPart q f).withdrawTrials q o).updPart q g) := fun t o f g ht =>
      (withdrawTrials_within _ (ht.updPart _ _) _ _).updPart _ _
    have h2 : ∀ c : Bool, ∀ t : State, Within rch s0 t → Within rch s0 (if c then t.planFor q a.replanQueued else t) := fun c t ht => by
      split
      · exact planFor_within _ ht _ _
      · exact ht
    exact h2 _ _ (h1 _ _ _ _ (finishPlan_within _ h _ _ _ _ _ _))

theorem endSweep_within (s : State) (h : Within rch s0 s) (q : Part) : Within rch s0 (State.endSweep s q).1 := by
  unfold State.endSweep
  extract_lets a s1
  have h1 : Within rch s0 s1 := h.updPart _ _
  clear_value s1
  split
  · exact h1
  · exact h1.updPart _ _

theorem shutWindow_within (s : State) (h : Within rch s0 s) (q : Part) : Within rch s0 (State.shutWindow s q) := by
  unfold State.shutWindow
  repeat' first
    | with_reducible assumption
    | with_reducible apply Within.updPart
    | with_reducible exact Within.lit
    | with_reducible refine Within.lit ?_

theorem breakWindow_within (s : State) (h : Within rch s0 s) (q : Part) [wage : May rch.age] : Within rch s0 (State.breakWindow s q) := by
  unfold State.breakWindow
  extract_lets a s1 s2 more
  have h1 : Within rch s0 s1 := (shutWindow_within _ h _).updPart _ _
  have h2 : Within rch s0 s2 := by
    show Within rch s0 (match a.running.head? with
      | none => s1
      | some it => s1.itemOut q it { result := 3, windows := 1, preempted := it.preempted, failEngines := 0, values := [] })
    split
    · exact h1
    · exact itemOut_within _ h1 _ _ _
  clear_value s2
  split
  · exact h
  · split
    · exact planFor_within _ h2 _ _
    · exact h2

theorem execPreemptionTimeout_within (s : State) (h : Within rch s0 s) (q : Part) : WithinOut rch s0 (execPreemptionTimeout q s) := by
  unfold execPreemptionTimeout
  repeat' first
    | with_reducible assumption
    | (with_reducible apply Within.ite <;> intro _)
    | with_reducible apply Within.next
    | with_reducible apply Within.updPart
    | with_reducible exact Within.lit
    | split
    | with_reducible refine Within.lit ?_

theorem emergency_within (s : State) (h : Within rch s0 s) (e : Eng) (monitor : Nat) (slack : Nat) [wage : May rch.age] : Within rch s0 (State.emergency s e monitor slack) := by
  unfold State.emergency
  repeat' first
    | with_reducible assumption
    | (with_reducible apply Within.ite <;> intro _)
    | with_reducible apply Within.updPart
    | with_reducible apply breakWindow_within
    | with_reducible apply planNow_within
    | with_reducible apply setCauseAll_within
    | with_reducible apply ledger_within
    | with_reducible exact Within.lit_age
    | extract_lets
    | split
    | with_reducible refine Within.lit_age ?_

theorem sampled_within (s : State) (h : Within rch s0 s) (e : Eng) (samples : List Nat) [wage : May rch.age] : Within rch s0 (State.sampled s e samples) := by
  unfold State.sampled
  repeat' first
    | with_reducible assumption
    | (with_reducible apply Within.ite <;> intro _)
    | with_reducible apply Within.updEng
    | with_reducible apply Within.updPart
    | with_reducible apply emergency_within
    | with_reducible refine Within.foldl _ ?_ _ fun _ _ _ => ?_
    | with_reducible exact Within.lit_age
    | extract_lets
    | split
    | with_reducible refine Within.lit_age ?_

theorem execPathDelaySample_within (s : State) (h : Within rch s0 s) (e : Eng) (samples : List Nat) [wage : May rch.age] : WithinOut rch s0 (execPathDelaySample e samples s) := by
  unfold execPathDelaySample
  repeat' first
    | with_reducible assumption
    | with_reducible apply Within.next
    | with_reducible apply sampled_within

theorem readMonitors_within (s : State) (h : Within rch s0 s) (q : Part) (r : ItemResult) [wage : May rch.age] : Within rch s0 (State.readMonitors s q r).1 := by
  unfold State.readMonitors
  exact Within.foldl _ h _ fun _ _ ht => sampled_within _ ht _ _

theorem endItem_within (s : State) (h : Within rch s0 s) (q : Part) (it : TestItem) (r : ItemResult) [wage : May rch.age] : Within rch s0 (State.endItem s q it r) := by
  unfold State.endItem
  extract_lets o
  split
  · exact itemOut_within _ (endTrial_within _ h _ _ _) _ _ _
  · have hx := endSweep_within _ h q
    split
    · exact itemOut_within _ hx _ _ _
    · exact itemOut_within _ hx _ _ _
  · exact itemOut_within _ (readMonitors_within _ h _ _) _ _ _
  · exact itemOut_within _ h _ _ _

theorem execWindowClose_within (s : State) (h : Within rch s0 s) (q : Part) [wage : May rch.age] : WithinOut rch s0 (execWindowClose q s) := by
  unfold execWindowClose
  apply Within.next
  extract_lets
  split
  · exact h
  · exact (Within.foldl _ (shutWindow_within _ h _) _ fun _ _ hs => endItem_within _ hs _ _ _).updPart _ _

theorem execBackgroundItemComplete_within (s : State) (h : Within rch s0 s) (p : Port) (t : Tag) (q : Part) (result : ItemResult) [wage : May rch.age] : WithinOut rch s0 (execBackgroundItemComplete p t q result s) := by
  unfold execBackgroundItemComplete
  apply Within.next
  extract_lets c test mine named ran res s1 r
  have h1 : Within rch s0 s1 := by
    show Within rch s0 (ite _ _ _)
    split
    · exact h.updPart _ _
    · exact h
  have hr : Within rch s0 r.1 := by
    have hm : ∀ n : Nat, Within rch s0 (match (generalizing := false) n with
      | 3 => (((named.filter s.isolated).foldl (fun s e => s.updEng e Engine.marched) s1, ([] : List Byte)) : State × List Byte)
      | 0x10 => s1.readMonitors q result
      | 0x30 => (s1, result.values)
      | 0x31 => (s1, result.values)
      | _ => (s1, [])).1 := by
      intro n
      split
      · exact Within.foldl _ h1 _ fun _ _ ht => ht.updEng _ _
      · exact readMonitors_within _ h1 _ _
      · exact h1
      · exact h1
      · exact h1
    exact hm test
  clear_value r
  repeat' first
    | exact h
    | exact testOut_within _ hr _ _ _ _
    | split

theorem execMonitorSample_within (s : State) (h : Within rch s0 s) (v : MonitorValue) [wage : May rch.age] : WithinOut rch s0 (execMonitorSample v s) := by
  unfold execMonitorSample
  repeat' first
    | with_reducible assumption
    | (with_reducible apply Within.ite <;> intro _)
    | with_reducible apply Within.next
    | with_reducible apply Within.updPart
    | with_reducible exact Within.lit_age
    | extract_lets
    | split
    | with_reducible refine Within.lit_age ?_

theorem execHourlyLedgerSave_within (s : State) (h : Within rch s0 s) [wage : May rch.age] : WithinOut rch s0 (execHourlyLedgerSave s) := by
  unfold execHourlyLedgerSave
  extract_lets op s1 s2 s3 s4
  have h1 : Within rch s0 s1 := Within.foldl _ h _ fun _ _ ht => ledger_within _ ht _ _ _ _ _
  clear_value s1
  have h2 : Within rch s0 s2 := Within.foldl _ h1 _ fun _ _ ht => ledger_within _ ht _ _ _ _ _
  clear_value s2
  have h3 : Within rch s0 s3 := Within.foldl _ h2 _ fun _ _ ht => ledger_within _ ht _ _ _ _ _
  clear_value s3
  have h4 : Within rch s0 s4 := Within.foldl _ h3 _ fun _ _ ht => ledger_within _ ht _ _ _ _ _
  clear_value s4
  exact h4.lit_age.next

theorem execLedgerRead_within (s : State) (h : Within rch s0 s) (index : W32) (area : BitVec 2) [wage : May rch.age] : WithinOut rch s0 (execLedgerRead index area s) := by
  unfold execLedgerRead
  repeat' first
    | with_reducible assumption
    | (with_reducible apply Within.ite <;> intro _)
    | with_reducible apply Within.next
    | with_reducible exact Within.lit_age
    | split
    | with_reducible refine Within.lit_age ?_

end Sys2Proof.Machine
end

