-- ==== Sys2Proof/Laws/WithinControl.lean ====
section
/-!
SUPPORT. What the operations of Machine/Control.lean leave alone.
-/

namespace Sys2Proof.Machine

open Sys2Proof

variable {rch : Reach} {s0 : State}

theorem nothingToDo_within (s : State) (h : Within rch s0 s) (p : Port) (t : Tag) (op : Nat) : Within rch s0 (State.nothingToDo s p t op) := by
  unfold State.nothingToDo
  repeat' first
    | with_reducible assumption
    | (with_reducible apply Within.ite <;> intro _)
    | with_reducible apply doneCmd_within
    | split

theorem execNop_within (s : State) (h : Within rch s0 s) (p : Port) (t : Tag) : WithinOut rch s0 (execNop p t s) := by
  unfold execNop
  repeat' first
    | with_reducible assumption
    | with_reducible apply Within.next
    | with_reducible apply nothingToDo_within

theorem execSem_within (s : State) (h : Within rch s0 s) (p : Port) (t : Tag) : WithinOut rch s0 (execSem p t s) := by
  unfold execSem
  repeat' first
    | with_reducible assumption
    | with_reducible apply Within.next
    | with_reducible apply nothingToDo_within

theorem selectCmd_within (s : State) (h : Within rch s0 s) (by_ : Port × Tag × Nat) (p : Port) (t : Tag) : Within rch s0 (State.selectCmd s by_ p t) := by
  unfold State.selectCmd
  repeat' first
    | with_reducible assumption
    | (with_reducible apply Within.ite <;> intro _)
    | with_reducible apply Within.updCmd
    | with_reducible apply Within.updSlot
    | with_reducible apply abortCmd_within
    | with_reducible refine Within.foldl _ ?_ _ fun _ _ _ => ?_
    | with_reducible exact Within.lit
    | extract_lets
    | split
    | with_reducible refine Within.lit ?_

theorem addRange_within (s : State) (h : Within rch s0 s) (c : Cmd) : Within rch s0 (State.addRange s c) := by
  unfold State.addRange
  repeat' first
    | with_reducible assumption
    | (with_reducible apply Within.ite <;> intro _)
    | with_reducible apply Within.updRing
    | with_reducible exact Within.lit
    | extract_lets
    | split
    | with_reducible refine Within.lit ?_

theorem execCancel_within (s : State) (h : Within rch s0 s) (p : Port) (t : Tag) : WithinOut rch s0 (execCancel p t s) := by
  unfold execCancel
  repeat' first
    | with_reducible assumption
    | (with_reducible apply Within.ite <;> intro _)
    | with_reducible apply Within.next
    | with_reducible apply Within.updCmd
    | with_reducible apply doneCmd_within
    | with_reducible apply selectCmd_within
    | with_reducible apply addRange_within
    | with_reducible refine Within.foldl _ ?_ _ fun _ _ _ => ?_
    | with_reducible exact Within.lit
    | extract_lets
    | split
    | with_reducible refine Within.lit ?_

theorem execCommandStopAtTile_within (s : State) (h : Within rch s0 s) (p : Port) (t : Tag) (e : Eng) : WithinOut rch s0 (execCommandStopAtTile p t e s) := by
  unfold execCommandStopAtTile
  repeat' first
    | with_reducible assumption
    | (with_reducible apply Within.ite <;> intro _)
    | with_reducible apply Within.next
    | with_reducible apply Within.updSlot
    | with_reducible apply abortCmd_within
    | with_reducible apply finishUnits_within
    | with_reducible refine Within.foldl _ ?_ _ fun _ _ _ => ?_
    | with_reducible exact Within.lit
    | extract_lets
    | split
    | with_reducible refine Within.lit ?_

end Sys2Proof.Machine
end

