-- ==== Sys2Proof/Laws/WithinStreams.lean ====
section
/-!
SUPPORT. What the operations of Machine/Streams.lean leave alone.
-/

namespace Sys2Proof.Machine

open Sys2Proof

variable {rch : Reach} {s0 : State}

theorem sendRequest_within (s : State) (h : Within rch s0 s) (e : Eng) (i : StreamNo) (va : Nat) (b : Nat) : Within rch s0 (State.sendRequest s e i va b).1 := by
  unfold State.sendRequest
  repeat' first
    | with_reducible assumption
    | (with_reducible apply Within.ite <;> intro _)
    | with_reducible apply sendPacket_within
    | with_reducible exact Within.lit
    | extract_lets
    | split
    | with_reducible refine Within.lit ?_

theorem takeMap_within (s : State) (h : Within rch s0 s) (p : Port) (t : Tag) (st : Nat) : Within rch s0 (State.takeMap s p t st) := by
  unfold State.takeMap
  repeat' first
    | with_reducible assumption
    | with_reducible apply Within.updCmd
    | with_reducible apply refit_within
    | with_reducible refine Within.foldl _ ?_ _ fun _ _ _ => ?_
    | extract_lets

theorem issue_within (s : State) (h : Within rch s0 s) (e : Eng) (i : StreamNo) : Within rch s0 (State.issue s e i) := by
  unfold State.issue
  repeat' first
    | with_reducible assumption
    | (with_reducible apply Within.ite <;> intro _)
    | with_reducible apply Within.updPart
    | with_reducible apply Within.updStrm
    | with_reducible apply takeFurther_within
    | with_reducible apply takeMap_within
    | with_reducible apply sendRequest_within
    | with_reducible refine Within.foldl _ ?_ _ fun _ _ _ => ?_
    | with_reducible exact Within.lit
    | with_reducible refine Within.pair (by with_reducible assumption) ?_
    | extract_lets
    | split
    | with_reducible refine Within.lit ?_

theorem execStreamRequestGrant_within (s : State) (h : Within rch s0 s) (q : Part) : WithinOut rch s0 (execStreamRequestGrant q s) := by
  unfold execStreamRequestGrant
  repeat' first
    | with_reducible assumption
    | (with_reducible apply Within.ite <;> intro _)
    | with_reducible apply Within.next
    | with_reducible apply issue_within
    | split

theorem execStreamReadLanded_within (s : State) (h : Within rch s0 s) (e : Eng) (i : StreamNo) (n : Nat) : WithinOut rch s0 (execStreamReadLanded e i n s) := by
  unfold execStreamReadLanded
  repeat' first
    | with_reducible assumption
    | (with_reducible apply Within.ite <;> intro _)
    | with_reducible apply Within.next
    | with_reducible apply landReq_within
    | with_reducible apply landOrphan_within
    | extract_lets
    | split

theorem execStreamWriteAcknowledged_within (s : State) (h : Within rch s0 s) (e : Eng) (i : StreamNo) (n : Nat) : WithinOut rch s0 (execStreamWriteAcknowledged e i n s) := by
  unfold execStreamWriteAcknowledged
  repeat' first
    | with_reducible assumption
    | (with_reducible apply Within.ite <;> intro _)
    | with_reducible apply Within.next
    | with_reducible apply Within.updStrm
    | with_reducible apply landReq_within
    | extract_lets
    | split

theorem giveUpKept_within (s : State) (h : Within rch s0 s) (e : Eng) (i : StreamNo) : Within rch s0 (State.giveUpKept s e i) := by
  unfold State.giveUpKept
  repeat' first
    | with_reducible assumption
    | with_reducible apply Within.updStrm
    | with_reducible refine Within.foldl _ ?_ _ fun _ _ _ => ?_
    | with_reducible exact Within.lit
    | with_reducible refine Within.lit ?_
    | extract_lets

theorem execSlotRelease_within (s : State) (h : Within rch s0 s) (e : Eng) (i : StreamNo) : WithinOut rch s0 (execSlotRelease e i s) := by
  unfold execSlotRelease
  repeat' first
    | with_reducible assumption
    | (with_reducible apply Within.ite <;> intro _)
    | with_reducible apply Within.next
    | with_reducible apply Within.updStrm
    | with_reducible apply giveUpKept_within
    | with_reducible exact Within.lit
    | extract_lets
    | split
    | with_reducible refine Within.lit ?_

theorem execRateWindowExpiry_within (s : State) (h : Within rch s0 s) (e : Eng) : WithinOut rch s0 (execRateWindowExpiry e s) := by
  unfold execRateWindowExpiry
  repeat' first
    | with_reducible assumption
    | (with_reducible apply Within.ite <;> intro _)
    | with_reducible apply Within.next
    | with_reducible apply Within.updStrm
    | with_reducible refine Within.foldl _ ?_ _ fun _ _ _ => ?_
    | with_reducible exact Within.lit
    | extract_lets
    | split
    | with_reducible refine Within.lit ?_

theorem halt_within (s : State) (h : Within rch s0 s) (e : Eng) (i : StreamNo) (id : W32) (kind : Nat) : Within rch s0 (State.halt s e i id kind) := by
  unfold State.halt
  repeat' first
    | with_reducible assumption
    | (with_reducible apply Within.ite <;> intro _)
    | with_reducible apply Within.updStrm
    | with_reducible refine Within.foldl _ ?_ _ fun _ _ _ => ?_
    | with_reducible exact Within.lit
    | split
    | with_reducible refine Within.lit ?_

theorem execStreamTranslationFault_within (s : State) (h : Within rch s0 s) (e : Eng) (i : StreamNo) : WithinOut rch s0 (execStreamTranslationFault e i s) := by
  unfold execStreamTranslationFault
  repeat' first
    | with_reducible assumption
    | (with_reducible apply Within.ite <;> intro _)
    | with_reducible apply Within.next
    | with_reducible apply Within.bump
    | with_reducible apply halt_within
    | with_reducible apply postFault_within
    | with_reducible apply faultCmd_within
    | with_reducible apply pageRequest_within
    | extract_lets
    | split

theorem resumeStream_within (s : State) (h : Within rch s0 s) (e : Eng) (i : StreamNo) : Within rch s0 (State.resumeStream s e i) := by
  unfold State.resumeStream
  repeat' first
    | with_reducible assumption
    | (with_reducible apply Within.ite <;> intro _)
    | with_reducible apply Within.updStrm
    | with_reducible refine Within.foldl _ ?_ _ fun _ _ _ => ?_
    | with_reducible exact Within.lit
    | split
    | with_reducible refine Within.lit ?_

theorem takeResume_within (s : State) (h : Within rch s0 s) (id : W32) (abort : Bool) : Within rch s0 (State.takeResume s id abort) := by
  unfold State.takeResume
  repeat' first
    | with_reducible assumption
    | with_reducible exact Within.lit
    | with_reducible refine Within.lit ?_

theorem execFaultResumeRetry_within (s : State) (h : Within rch s0 s) (id : W32) : WithinOut rch s0 (execFaultResumeRetry id s) := by
  unfold execFaultResumeRetry
  repeat' first
    | with_reducible assumption
    | (with_reducible apply Within.ite <;> intro _)
    | with_reducible apply Within.next
    | with_reducible apply resumeStream_within
    | with_reducible apply takeResume_within
    | extract_lets
    | split

theorem execFaultResumeAbort_within (s : State) (h : Within rch s0 s) (id : W32) : WithinOut rch s0 (execFaultResumeAbort id s) := by
  unfold execFaultResumeAbort
  repeat' first
    | with_reducible assumption
    | (with_reducible apply Within.ite <;> intro _)
    | with_reducible apply Within.next
    | with_reducible apply faultCmd_within
    | with_reducible apply takeResume_within
    | extract_lets
    | split

theorem priOk_within (s : State) (h : Within rch s0 s) (w : PriWait) : Within rch s0 (State.priOk s w) := by
  unfold State.priOk
  repeat' first
    | with_reducible assumption
    | (with_reducible apply Within.ite <;> intro _)
    | with_reducible apply Within.updCmd
    | with_reducible apply readCount_within
    | with_reducible apply resumeStream_within
    | with_reducible exact Within.lit
    | split
    | with_reducible refine Within.lit ?_

theorem priFail_within (s : State) (h : Within rch s0 s) (w : PriWait) (va : Nat) (wr : Bool) [wctxs : May rch.ctxs] : Within rch s0 (State.priFail s w va wr) := by
  unfold State.priFail
  repeat' first
    | with_reducible assumption
    | (with_reducible apply Within.ite <;> intro _)
    | with_reducible apply Within.updCmd
    | with_reducible apply postFault_within
    | with_reducible apply discardRecord_within
    | with_reducible apply faultCmd_within
    | with_reducible apply badRecord_within
    | with_reducible exact Within.lit_ctxs
    | extract_lets
    | split
    | with_reducible refine Within.lit_ctxs ?_

theorem execPriResponse_within (s : State) (h : Within rch s0 s) (n : Nat) (ok : Bool) [wctxs : May rch.ctxs] : WithinOut rch s0 (execPriResponse n ok s) := by
  unfold execPriResponse
  repeat' first
    | with_reducible assumption
    | (with_reducible apply Within.ite <;> intro _)
    | with_reducible apply Within.next
    | with_reducible apply priOk_within
    | with_reducible apply priFail_within
    | with_reducible exact Within.lit_ctxs
    | extract_lets
    | split
    | with_reducible refine Within.lit_ctxs ?_

theorem applyCfg_within (s : State) (h : Within rch s0 s) (e : Eng) : Within rch s0 (State.applyCfg s e) := by
  unfold State.applyCfg
  repeat' first
    | with_reducible assumption
    | (with_reducible apply Within.ite <;> intro _)
    | with_reducible apply Within.updEng
    | with_reducible exact Within.lit
    | split
    | with_reducible refine Within.lit ?_

theorem execStreamCfgApply_within (s : State) (h : Within rch s0 s) (e : Eng) : WithinOut rch s0 (execStreamCfgApply e s) := by
  unfold execStreamCfgApply
  repeat' first
    | with_reducible assumption
    | with_reducible apply Within.next
    | with_reducible apply applyCfg_within

theorem writeCfg_within (s : State) (h : Within rch s0 s) (e : Eng) (value : Nat) : Within rch s0 (State.writeCfg s e value) := by
  unfold State.writeCfg
  repeat' first
    | with_reducible assumption
    | (with_reducible apply Within.ite <;> intro _)
    | with_reducible apply Within.updEng
    | with_reducible apply applyCfg_within
    | with_reducible exact Within.lit
    | extract_lets
    | split
    | with_reducible refine Within.lit ?_

theorem execStreamCfgWrite_within (s : State) (h : Within rch s0 s) (e : Eng) (value : W32) : WithinOut rch s0 (execStreamCfgWrite e value s) := by
  unfold execStreamCfgWrite
  repeat' first
    | with_reducible assumption
    | (with_reducible apply Within.ite <;> intro _)
    | with_reducible apply Within.next
    | with_reducible apply writeCfg_within
    | split

theorem switchTo_within (s : State) (h : Within rch s0 s) (e : Eng) (h : SlotNo) (k : SlotNo) : Within rch s0 (State.switchTo s e h k) := by
  unfold State.switchTo
  repeat' first
    | with_reducible assumption
    | (with_reducible apply Within.ite <;> intro _)
    | with_reducible apply Within.bump
    | with_reducible apply Within.updEng
    | with_reducible apply Within.updSlot
    | with_reducible apply updTile_within
    | with_reducible exact Within.lit
    | extract_lets
    | split
    | with_reducible refine Within.lit ?_

theorem execTaskSwitch_within (s : State) (h : Within rch s0 s) (e : Eng) : WithinOut rch s0 (execTaskSwitch e s) := by
  unfold execTaskSwitch
  repeat' first
    | with_reducible assumption
    | (with_reducible apply Within.ite <;> intro _)
    | with_reducible apply Within.next
    | with_reducible apply Within.bump
    | with_reducible apply switchTo_within
    | extract_lets
    | split

theorem execSwitchBack_within (s : State) (h : Within rch s0 s) (e : Eng) : WithinOut rch s0 (execSwitchBack e s) := by
  unfold execSwitchBack
  repeat' first
    | with_reducible assumption
    | (with_reducible apply Within.ite <;> intro _)
    | with_reducible apply Within.next
    | with_reducible apply Within.bump
    | with_reducible apply Within.updEng
    | with_reducible apply Within.updSlot
    | with_reducible apply updTile_within
    | with_reducible apply switchTo_within
    | with_reducible exact Within.lit
    | extract_lets
    | split
    | with_reducible refine Within.lit ?_

theorem execTableBuild_within (s : State) (h : Within rch s0 s) (e : Eng) : WithinOut rch s0 (execTableBuild e s) := by
  unfold execTableBuild
  repeat' first
    | with_reducible assumption
    | (with_reducible apply Within.ite <;> intro _)
    | with_reducible apply Within.next
    | with_reducible apply Within.bump
    | with_reducible apply Within.updEng
    | with_reducible apply Within.updSlot
    | with_reducible exact Within.lit
    | extract_lets
    | split
    | with_reducible refine Within.lit ?_

end Sys2Proof.Machine
end

