-- ==== Sys2Proof/Laws/WithinResets.lean ====
section
/-!
SUPPORT. What the operations of Machine/Resets.lean leave alone.
-/

namespace Sys2Proof.Machine

open Sys2Proof

variable {rch : Reach} {s0 : State}

theorem ledgerReset_within (s : State) (h : Within rch s0 s) (unit : Nat) (index : Nat) (level : Nat) (cause : Nat) (stage : Nat) [wage : May rch.age] : Within rch s0 (State.ledgerReset s unit index level cause stage) := by
  unfold State.ledgerReset
  repeat' first
    | with_reducible assumption
    | (with_reducible apply Within.ite <;> intro _)
    | with_reducible apply ledger_within
    | extract_lets
    | split

theorem recordOnly_within (s : State) (h : Within rch s0 s) (r : ErrRec) : Within rch s0 (State.recordOnly s r) := by
  unfold State.recordOnly
  repeat' first
    | with_reducible assumption
    | (with_reducible apply Within.ite <;> intro _)
    | with_reducible apply postErr_within
    | with_reducible exact Within.lit
    | split
    | with_reducible refine Within.lit ?_

theorem faultContext_within (s : State) (h : Within rch s0 s) (c : CtxNo) (r : ErrRec) [wctxs : May rch.ctxs] [wrcv : May rch.rcv] : Within rch s0 (State.faultContext s c r) := by
  unfold State.faultContext
  repeat' first
    | with_reducible assumption
    | (with_reducible apply Within.ite <;> intro _)
    | with_reducible apply free_within
    | with_reducible apply endCtx_within
    | with_reducible apply postErr_within
    | with_reducible apply recordOnly_within
    | with_reducible exact Within.lit_ctxs_rcv
    | with_reducible refine Within.pair (by with_reducible assumption) ?_
    | split
    | with_reducible refine Within.lit_ctxs_rcv ?_

theorem dropOn_within (s : State) (h : Within rch s0 s) (es : List Eng) (st : Nat) : Within rch s0 (State.dropOn s es st) := by
  unfold State.dropOn
  repeat' first
    | with_reducible assumption
    | with_reducible apply abortCmds_within
    | extract_lets

theorem unquiesce_within (s : State) (h : Within rch s0 s) (mask : W64) [wdbg : May rch.dbg] : Within rch s0 (State.unquiesce s mask) := by
  unfold State.unquiesce
  repeat' first
    | with_reducible assumption
    | with_reducible exact Within.lit_dbg
    | with_reducible refine Within.lit_dbg ?_

theorem spoilStream_within (s : State) (h : Within rch s0 s) (e : Eng) (x : Strm) : Within rch s0 (State.spoilStream s e x) := by
  unfold State.spoilStream
  repeat' first
    | with_reducible assumption
    | (with_reducible apply Within.ite <;> intro _)
    | with_reducible apply free_within
    | with_reducible refine Within.ofOk (vwrite_within _ ?_ _ _ _) (by with_reducible assumption)
    | with_reducible apply vwrite_within
    | with_reducible refine Within.foldl _ ?_ _ fun _ _ _ => ?_
    | with_reducible exact Within.lit
    | with_reducible refine Within.pair (by with_reducible assumption) ?_
    | extract_lets
    | split
    | with_reducible refine Within.lit ?_

theorem spoilWrites_within (s : State) (h : Within rch s0 s) (es : List Eng) : Within rch s0 (State.spoilWrites s es) := by
  unfold State.spoilWrites
  repeat' first
    | with_reducible assumption
    | with_reducible apply spoilStream_within
    | with_reducible refine Within.foldl _ ?_ _ fun _ _ _ => ?_

theorem dropWrites_within (s : State) (h : Within rch s0 s) (es : List Eng) : Within rch s0 (State.dropWrites s es) := by
  unfold State.dropWrites
  repeat' first
    | with_reducible assumption
    | (with_reducible apply Within.ite <;> intro _)
    | with_reducible apply Within.updEng
    | with_reducible refine Within.foldl _ ?_ _ fun _ _ _ => ?_
    | with_reducible exact Within.lit
    | split
    | with_reducible refine Within.lit ?_

theorem resetEngine_within (s : State) (h : Within rch s0 s) (e : Eng) (cause : Nat) (esc : Bool) (r : ErrRec) [wrcv : May rch.rcv] [wage : May rch.age] [wdbg : May rch.dbg] : Within rch s0 (State.resetEngine s e cause esc r) := by
  unfold State.resetEngine
  repeat' first
    | with_reducible assumption
    | (with_reducible apply Within.ite <;> intro _)
    | with_reducible apply breakWindow_within
    | with_reducible apply dropOn_within
    | with_reducible apply afterRecords_within
    | with_reducible apply unquiesce_within
    | with_reducible apply spoilWrites_within
    | with_reducible apply dropWrites_within
    | with_reducible apply postErr_within
    | with_reducible apply recordOnly_within
    | with_reducible apply departOwn_within
    | with_reducible apply ledgerReset_within
    | with_reducible exact Within.lit_rcv_age_dbg
    | extract_lets
    | split
    | with_reducible refine Within.lit_rcv_age_dbg ?_

theorem resetPartition_within (s : State) (h : Within rch s0 s) (q : Part) (cause : Nat) (esc : Bool) (r : ErrRec) [wrcv : May rch.rcv] [wage : May rch.age] [wdbg : May rch.dbg] : Within rch s0 (State.resetPartition s q cause esc r) := by
  unfold State.resetPartition
  repeat' first
    | with_reducible assumption
    | (with_reducible apply Within.ite <;> intro _)
    | with_reducible apply Within.updPart
    | with_reducible apply dropOn_within
    | with_reducible apply afterRecords_within
    | with_reducible apply abortCmd_within
    | with_reducible apply unquiesce_within
    | with_reducible apply spoilWrites_within
    | with_reducible apply dropWrites_within
    | with_reducible apply postErr_within
    | with_reducible apply recordOnly_within
    | with_reducible apply departOwn_within
    | with_reducible apply ledgerReset_within
    | with_reducible refine Within.foldl _ ?_ _ fun _ _ _ => ?_
    | with_reducible exact Within.lit_rcv_age_dbg
    | extract_lets
    | split
    | with_reducible refine Within.lit_rcv_age_dbg ?_

theorem settlePages_within (s : State) (h : Within rch s0 s) [wage : May rch.age] : Within rch s0 (State.settlePages s) := by
  unfold State.settlePages
  exact Within.foldl _ h _ fun s m hs => Within.updStack
    (Within.foldl _ hs _ fun _ _ hs => postErr_within _ (ledger_within _ hs _ _ _ _ _) _) _ _

theorem clearModule_within (s : State) (h : Within rch s0 s) [wctxs : May rch.ctxs] [wrcv : May rch.rcv] [wpwr : May rch.pwr] [wboot : May rch.boot] [wsec : May rch.sec] [wage : May rch.age] [wdbg : May rch.dbg] : Within rch s0 (State.clearModule s) := by
  unfold State.clearModule
  extract_lets s1
  have h1 : Within rch s0 s1 := settlePages_within _ h
  clear_value s1
  exact h1.lit_ctxs_rcv_pwr_boot_sec_age_dbg

theorem dropHosts_within (s : State) (h : Within rch s0 s) : Within rch s0 (State.dropHosts s) := by
  unfold State.dropHosts
  repeat' first
    | with_reducible assumption
    | (with_reducible apply Within.ite <;> intro _)
    | with_reducible apply Within.emit
    | with_reducible apply linkDown_within
    | with_reducible refine Within.foldl _ ?_ _ fun _ _ _ => ?_
    | split

theorem holdStart_within (s : State) (h : Within rch s0 s) (hold : ModReset) [wrcv : May rch.rcv] [wboot : May rch.boot] : Within rch s0 (State.holdStart s hold) := by
  unfold State.holdStart
  extract_lets s1
  have h1 : Within rch s0 s1 := dropHosts_within _ h
  clear_value s1
  exact h1.lit_rcv_boot

theorem resetModule_within (s : State) (h : Within rch s0 s) (cause : Nat) (esc : Bool) (hold : ModReset) (r : ErrRec) [wctxs : May rch.ctxs] [wrcv : May rch.rcv] [wpwr : May rch.pwr] [wboot : May rch.boot] [wsec : May rch.sec] [wage : May rch.age] [wdbg : May rch.dbg] : Within rch s0 (State.resetModule s cause esc hold r) := by
  unfold State.resetModule
  split
  · exact recordOnly_within _ h _
  · split
    · extract_lets s1
      have h1 : Within rch s0 s1 := recordOnly_within _ h _
      clear_value s1
      split
      · exact h1
      · exact holdStart_within _ h1 _
    · extract_lets soft s1 s2
      have h1 : Within rch s0 s1 := ledgerReset_within _ (postErr_within _ h _) _ _ _ _ _
      have h2 : Within rch s0 s2 := clearModule_within _ (dropHosts_within _ (spoilWrites_within _ h1 _))
      clear_value s2
      exact h2.lit_ctxs_rcv_pwr_boot_sec_age_dbg

theorem requestCycle_within (s : State) (h : Within rch s0 s) (cause : Nat) (stage : Nat) (esc : Bool) (r : ErrRec) [wctxs : May rch.ctxs] [wrcv : May rch.rcv] [wpwr : May rch.pwr] [wboot : May rch.boot] [wage : May rch.age] [wdbg : May rch.dbg] : Within rch s0 (State.requestCycle s cause stage esc r) := by
  unfold State.requestCycle
  split
  · exact recordOnly_within _ h _
  · extract_lets t0 s1 s2 pb rc pw bb db s3
    have h0 : Within rch s0 t0 := Within.foldl _ h _ fun _ _ hs => confirmRetire_within _ hs _
    have h1 : Within rch s0 s1 := ledgerReset_within _ (postErr_within _ h0 _) _ _ _ _ _
    have h2 : Within rch s0 s2 := dropHosts_within _ (spoilWrites_within _ h1 _)
    clear_value s2
    have h3 : Within rch s0 s3 := h2.lit_ctxs_rcv_pwr_boot_age_dbg
    exact (followPort_within _ (followPort_within _ h3 _) _).emit _

theorem mainRails_within (s : State) (h : Within rch s0 s) [wpwr : May rch.pwr] [wboot : May rch.boot] : Within rch s0 (State.mainRails s) := by
  unfold State.mainRails
  repeat' first
    | with_reducible assumption
    | (with_reducible apply Within.ite <;> intro _)
    | with_reducible exact Within.lit_pwr_boot
    | split
    | with_reducible refine Within.lit_pwr_boot ?_

theorem resumeStart_within (s : State) (h : Within rch s0 s) [wrcv : May rch.rcv] [wpwr : May rch.pwr] [wboot : May rch.boot] : Within rch s0 (State.resumeStart s) := by
  unfold State.resumeStart
  repeat' first
    | with_reducible assumption
    | (with_reducible apply Within.ite <;> intro _)
    | with_reducible apply mainRails_within
    | with_reducible exact Within.lit_rcv_pwr_boot
    | extract_lets
    | split
    | with_reducible refine Within.lit_rcv_pwr_boot ?_

theorem loseSupply_within (s : State) (h : Within rch s0 s) [wctxs : May rch.ctxs] [wrcv : May rch.rcv] [wpwr : May rch.pwr] [wboot : May rch.boot] [wsec : May rch.sec] [wage : May rch.age] [wdbg : May rch.dbg] : Within rch s0 (State.loseSupply s) := by
  unfold State.loseSupply
  extract_lets
  rename_i off r s1 rb bb
  have ho : ∀ t, Within rch s0 t → Within rch s0 (off t) := fun t ht => ht.lit_ctxs_rcv_pwr_boot_sec_age_dbg
  have h1 : Within rch s0 s1 := ho _ (resetModule_within _ h _ _ _ _)
  clear_value s1 off
  split
  · split
    · exact recordOnly_within _ h _
    · exact h
  · split
    · exact ho _ (recordOnly_within _ h _)
    · exact h1.lit_ctxs_rcv_pwr_boot_sec_age_dbg

end Sys2Proof.Machine
end

