-- ==== Sys2Proof/Laws/WithinRecovery.lean ====
section
/-!
SUPPORT. What the operations of Machine/Recovery.lean leave alone.
-/

namespace Sys2Proof.Machine

open Sys2Proof

variable {rch : Reach} {s0 : State}

theorem badRead_within (s : State) (h : Within rch s0 s) (p : Port) (t : Tag) (pa : Nat) : Within rch s0 (State.badRead s p t pa) := by
  unfold State.badRead
  repeat' first
    | with_reducible assumption
    | with_reducible apply postFault_within
    | with_reducible apply faultCmd_within
    | split

theorem execHbmUncorrectableError_within (s : State) (h : Within rch s0 s) (pa : Nat) (reader : Option (Port × Tag)) [wage : May rch.age] : WithinOut rch s0 (execHbmUncorrectableError pa reader s) := by
  unfold execHbmUncorrectableError
  repeat' first
    | with_reducible assumption
    | (with_reducible apply Within.ite <;> intro _)
    | with_reducible apply Within.next
    | with_reducible apply free_within
    | with_reducible apply badRead_within
    | with_reducible apply retire_within
    | with_reducible apply postErr_within
    | with_reducible exact Within.lit_age
    | with_reducible refine Within.pair (by with_reducible assumption) ?_
    | extract_lets
    | split
    | with_reducible refine Within.lit_age ?_

theorem countCorrected_within (s : State) (h : Within rch s0 s) (u : UnitId) (n : Nat) : Within rch s0 (State.countCorrected s u n) := by
  unfold State.countCorrected
  repeat' first
    | with_reducible assumption
    | with_reducible apply Within.bump
    | with_reducible apply Within.updLink
    | with_reducible apply Within.updPart
    | with_reducible apply Within.updStack
    | with_reducible exact Within.lit
    | split
    | with_reducible refine Within.lit ?_
    | (intro x; exact List.prefix_rfl)
    | (intro x hx; exact hx)

theorem postCorrected_within (s : State) (h : Within rch s0 s) (u : UnitId) (pa : Nat) [wrcv : May rch.rcv] : Within rch s0 (State.postCorrected s u pa) := by
  unfold State.postCorrected
  repeat' first
    | with_reducible assumption
    | (with_reducible apply Within.ite <;> intro _)
    | with_reducible apply postErr_within
    | with_reducible exact Within.lit_rcv
    | extract_lets
    | split
    | with_reducible refine Within.lit_rcv ?_

theorem pageCorrected_within (s : State) (h : Within rch s0 s) (m : Stack) (pa : Nat) : Within rch s0 (State.pageCorrected s m pa) := by
  unfold State.pageCorrected
  repeat' first
    | with_reducible assumption
    | (with_reducible apply Within.ite <;> intro _)
    | with_reducible apply Within.updStack
    | with_reducible apply postErr_within
    | with_reducible exact Within.lit
    | (intro x; exact List.prefix_rfl)
    | (intro x hx; exact hx)
    | extract_lets
    | split
    | with_reducible refine Within.lit ?_
    | (intro x; exact List.prefix_rfl)
    | (intro x hx; exact hx)

theorem execCorrectedError_within (s : State) (h : Within rch s0 s) (u : UnitId) (pa : Nat) [wrcv : May rch.rcv] : WithinOut rch s0 (execCorrectedError u pa s) := by
  unfold execCorrectedError
  repeat' first
    | with_reducible assumption
    | (with_reducible apply Within.ite <;> intro _)
    | with_reducible apply Within.next
    | with_reducible apply postCorrected_within
    | with_reducible apply countCorrected_within
    | with_reducible apply pageCorrected_within
    | split

theorem dataFault_within (s : State) (h : Within rch s0 s) (p : Port) (t : Tag) (unit : Nat) (index : Nat) : Within rch s0 (State.dataFault s p t unit index) := by
  unfold State.dataFault
  repeat' first
    | with_reducible assumption
    | (with_reducible apply Within.ite <;> intro _)
    | with_reducible apply free_within
    | with_reducible apply faultCmd_within
    | with_reducible apply postErr_within
    | with_reducible exact Within.lit
    | with_reducible refine Within.pair (by with_reducible assumption) ?_
    | split
    | with_reducible refine Within.lit ?_

theorem contextErr_within (s : State) (h : Within rch s0 s) : Within rch s0 (State.contextErr s).1 := by
  unfold State.contextErr
  repeat' first
    | with_reducible assumption
    | with_reducible apply free_within
    | with_reducible exact Within.lit
    | with_reducible refine Within.pair (by with_reducible assumption) ?_
    | with_reducible refine Within.lit ?_
    | extract_lets

theorem contextFault_within (s : State) (h : Within rch s0 s) (c : CtxNo) [wctxs : May rch.ctxs] [wrcv : May rch.rcv] [wage : May rch.age] : Within rch s0 (State.contextFault s c) := by
  unfold State.contextFault
  repeat' first
    | with_reducible assumption
    | with_reducible apply faultContext_within
    | with_reducible apply contextErr_within
    | with_reducible apply retire_within
    | with_reducible refine Within.pair (by with_reducible assumption) ?_
    | extract_lets

theorem execUnitFault_within (s : State) (h : Within rch s0 s) (f : UnitFault) [wctxs : May rch.ctxs] [wrcv : May rch.rcv] [wpwr : May rch.pwr] [wboot : May rch.boot] [wsec : May rch.sec] [wage : May rch.age] [wdbg : May rch.dbg] : WithinOut rch s0 (execUnitFault f s) := by
  unfold execUnitFault
  repeat' first
    | with_reducible assumption
    | with_reducible apply Within.next
    | with_reducible apply contextFault_within
    | with_reducible apply resetPartition_within
    | with_reducible apply requestCycle_within
    | with_reducible apply resetModule_within
    | with_reducible apply resetEngine_within
    | with_reducible apply dataFault_within
    | with_reducible exact Within.lit_ctxs_rcv_pwr_boot_sec_age_dbg
    | split
    | with_reducible refine Within.lit_ctxs_rcv_pwr_boot_sec_age_dbg ?_

theorem execEngineHang_within (s : State) (h : Within rch s0 s) (e : Eng) [wrcv : May rch.rcv] [wage : May rch.age] [wdbg : May rch.dbg] : WithinOut rch s0 (execEngineHang e s) := by
  unfold execEngineHang
  repeat' first
    | with_reducible assumption
    | (with_reducible apply Within.ite <;> intro _)
    | with_reducible apply Within.next
    | with_reducible apply resetEngine_within
    | with_reducible exact Within.lit_rcv_age_dbg
    | split
    | with_reducible refine Within.lit_rcv_age_dbg ?_

theorem execDomainWatchdogExpiry_within (s : State) (h : Within rch s0 s) (d : Domain) [wctxs : May rch.ctxs] [wrcv : May rch.rcv] [wpwr : May rch.pwr] [wboot : May rch.boot] [wsec : May rch.sec] [wage : May rch.age] [wdbg : May rch.dbg] : WithinOut rch s0 (execDomainWatchdogExpiry d s) := by
  unfold execDomainWatchdogExpiry
  repeat' first
    | with_reducible assumption
    | with_reducible apply Within.next
    | with_reducible apply resetPartition_within
    | with_reducible apply requestCycle_within
    | with_reducible apply resetModule_within
    | with_reducible apply afterRecords_within
    | with_reducible apply linkDown_within
    | with_reducible apply postErr_within
    | with_reducible exact Within.lit_ctxs_rcv_pwr_boot_sec_age_dbg
    | split
    | with_reducible refine Within.lit_ctxs_rcv_pwr_boot_sec_age_dbg ?_

theorem execClockFault_within (s : State) (h : Within rch s0 s) (d : ClockDomain) [wctxs : May rch.ctxs] [wrcv : May rch.rcv] [wpwr : May rch.pwr] [wboot : May rch.boot] [wsec : May rch.sec] [wage : May rch.age] [wdbg : May rch.dbg] : WithinOut rch s0 (execClockFault d s) := by
  unfold execClockFault
  repeat' first
    | with_reducible assumption
    | (with_reducible apply Within.ite <;> intro _)
    | with_reducible apply Within.next
    | with_reducible apply resetPartition_within
    | with_reducible apply resetModule_within
    | with_reducible apply afterRecords_within
    | with_reducible apply resetEngine_within
    | with_reducible apply linkDown_within
    | with_reducible apply postErr_within
    | with_reducible exact Within.lit_ctxs_rcv_pwr_boot_sec_age_dbg
    | split
    | with_reducible refine Within.lit_ctxs_rcv_pwr_boot_sec_age_dbg ?_

theorem execContextAbortOnFault_within (s : State) (h : Within rch s0 s) (c : CtxNo) [wctxs : May rch.ctxs] [wrcv : May rch.rcv] [wage : May rch.age] : WithinOut rch s0 (execContextAbortOnFault c s) := by
  unfold execContextAbortOnFault
  repeat' first
    | with_reducible assumption
    | with_reducible apply Within.next
    | with_reducible apply contextFault_within

theorem execEngineReset_within (s : State) (h : Within rch s0 s) (e : Eng) (cause : BitVec 8) [wrcv : May rch.rcv] [wage : May rch.age] [wdbg : May rch.dbg] : WithinOut rch s0 (execEngineReset e cause s) := by
  unfold execEngineReset
  repeat' first
    | with_reducible assumption
    | with_reducible apply Within.next
    | with_reducible apply resetEngine_within
    | with_reducible exact Within.lit_rcv_age_dbg
    | with_reducible refine Within.lit_rcv_age_dbg ?_

theorem execEngineResetComplete_within (s : State) (h : Within rch s0 s) (e : Eng) [wrcv : May rch.rcv] : WithinOut rch s0 (execEngineResetComplete e s) := by
  unfold execEngineResetComplete
  repeat' first
    | with_reducible assumption
    | (with_reducible apply Within.ite <;> intro _)
    | with_reducible apply Within.next
    | with_reducible apply Within.updEng
    | with_reducible exact Within.lit_rcv
    | extract_lets
    | split
    | with_reducible refine Within.lit_rcv ?_

theorem execPartitionReset_within (s : State) (h : Within rch s0 s) (q : Part) (cause : BitVec 8) [wrcv : May rch.rcv] [wage : May rch.age] [wdbg : May rch.dbg] : WithinOut rch s0 (execPartitionReset q cause s) := by
  unfold execPartitionReset
  repeat' first
    | with_reducible assumption
    | with_reducible apply Within.next
    | with_reducible apply resetPartition_within
    | with_reducible exact Within.lit_rcv_age_dbg
    | with_reducible refine Within.lit_rcv_age_dbg ?_
    | extract_lets

theorem execPartitionResetComplete_within (s : State) (h : Within rch s0 s) (q : Part) [wrcv : May rch.rcv] : WithinOut rch s0 (execPartitionResetComplete q s) := by
  unfold execPartitionResetComplete
  repeat' first
    | with_reducible assumption
    | (with_reducible apply Within.ite <;> intro _)
    | with_reducible apply Within.next
    | with_reducible apply Within.updEng
    | with_reducible apply Within.updPart
    | with_reducible refine Within.foldl _ ?_ _ fun _ _ _ => ?_
    | with_reducible exact Within.lit_rcv
    | extract_lets
    | split
    | with_reducible refine Within.lit_rcv ?_

theorem execModuleReset_within (s : State) (h : Within rch s0 s) (cause : BitVec 8) [wctxs : May rch.ctxs] [wrcv : May rch.rcv] [wpwr : May rch.pwr] [wboot : May rch.boot] [wsec : May rch.sec] [wage : May rch.age] [wdbg : May rch.dbg] : WithinOut rch s0 (execModuleReset cause s) := by
  unfold execModuleReset
  repeat' first
    | with_reducible assumption
    | with_reducible apply Within.next
    | with_reducible apply resetModule_within
    | with_reducible exact Within.lit_ctxs_rcv_pwr_boot_sec_age_dbg
    | with_reducible refine Within.lit_ctxs_rcv_pwr_boot_sec_age_dbg ?_
    | extract_lets

theorem execPowerCycleRequest_within (s : State) (h : Within rch s0 s) (cause : BitVec 8) [wctxs : May rch.ctxs] [wrcv : May rch.rcv] [wpwr : May rch.pwr] [wboot : May rch.boot] [wage : May rch.age] [wdbg : May rch.dbg] : WithinOut rch s0 (execPowerCycleRequest cause s) := by
  unfold execPowerCycleRequest
  repeat' first
    | with_reducible assumption
    | with_reducible apply Within.next
    | with_reducible apply requestCycle_within
    | with_reducible exact Within.lit_ctxs_rcv_pwr_boot_age_dbg
    | with_reducible refine Within.lit_ctxs_rcv_pwr_boot_age_dbg ?_
    | extract_lets

theorem execPowerCycleRepeat_within (s : State) (h : Within rch s0 s) : WithinOut rch s0 (execPowerCycleRepeat s) := by
  unfold execPowerCycleRepeat
  repeat' first
    | with_reducible assumption
    | (with_reducible apply Within.ite <;> intro _)
    | with_reducible apply Within.next
    | with_reducible apply Within.emit
    | split

theorem execDeadlineMissed_within (s : State) (h : Within rch s0 s) (r : MissedReset) [wctxs : May rch.ctxs] [wrcv : May rch.rcv] [wpwr : May rch.pwr] [wboot : May rch.boot] [wsec : May rch.sec] [wage : May rch.age] [wdbg : May rch.dbg] : WithinOut rch s0 (execDeadlineMissed r s) := by
  unfold execDeadlineMissed
  repeat' first
    | with_reducible assumption
    | (with_reducible apply Within.ite <;> intro _)
    | with_reducible apply Within.next
    | with_reducible apply resetPartition_within
    | with_reducible apply resetModule_within
    | with_reducible apply requestCycle_within
    | with_reducible apply resetEngine_within
    | with_reducible refine Within.foldl _ ?_ _ fun _ _ _ => ?_
    | with_reducible exact Within.lit_ctxs_rcv_pwr_boot_sec_age_dbg
    | extract_lets
    | split
    | with_reducible refine Within.lit_ctxs_rcv_pwr_boot_sec_age_dbg ?_

theorem execFenceRelease_within (s : State) (h : Within rch s0 s) (mask : W64) [wrcv : May rch.rcv] : WithinOut rch s0 (execFenceRelease mask s) := by
  unfold execFenceRelease
  repeat' first
    | with_reducible assumption
    | (with_reducible apply Within.ite <;> intro _)
    | with_reducible apply Within.next
    | with_reducible apply free_within
    | with_reducible refine Within.foldl _ ?_ _ fun _ _ _ => ?_
    | with_reducible exact Within.lit_rcv
    | with_reducible refine Within.pair (by with_reducible assumption) ?_
    | extract_lets
    | split
    | with_reducible refine Within.lit_rcv ?_

theorem execPartFenceRelease_within (s : State) (h : Within rch s0 s) (mask : BitVec 8) [wrcv : May rch.rcv] : WithinOut rch s0 (execPartFenceRelease mask s) := by
  unfold execPartFenceRelease
  repeat' first
    | with_reducible assumption
    | (with_reducible apply Within.ite <;> intro _)
    | with_reducible apply Within.next
    | with_reducible exact Within.lit_rcv
    | split
    | with_reducible refine Within.lit_rcv ?_

theorem takeSw_within (s : State) (h : Within rch s0 s) (level : Nat) (target : Nat) [wrcv : May rch.rcv] : Within rch s0 (State.takeSw s level target) := by
  unfold State.takeSw
  repeat' first
    | with_reducible assumption
    | (with_reducible apply Within.ite <;> intro _)
    | with_reducible exact Within.lit_rcv
    | split
    | with_reducible refine Within.lit_rcv ?_

theorem sw_within (s : State) (h : Within rch s0 s) [wrcv : May rch.rcv] : Within rch s0 (State.sw s) := by
  unfold State.sw
  repeat' first
    | with_reducible assumption
    | with_reducible exact Within.lit_rcv
    | with_reducible refine Within.lit_rcv ?_

theorem execSwresetEngine_within (s : State) (h : Within rch s0 s) (e : Eng) [wrcv : May rch.rcv] [wage : May rch.age] [wdbg : May rch.dbg] : WithinOut rch s0 (execSwresetEngine e s) := by
  unfold execSwresetEngine
  repeat' first
    | with_reducible assumption
    | with_reducible apply Within.next
    | with_reducible apply takeSw_within
    | with_reducible apply sw_within
    | with_reducible apply resetEngine_within
    | with_reducible exact Within.lit_rcv_age_dbg
    | with_reducible refine Within.lit_rcv_age_dbg ?_

theorem execSwresetPartition_within (s : State) (h : Within rch s0 s) (q : Part) [wrcv : May rch.rcv] [wage : May rch.age] [wdbg : May rch.dbg] : WithinOut rch s0 (execSwresetPartition q s) := by
  unfold execSwresetPartition
  repeat' first
    | with_reducible assumption
    | with_reducible apply Within.next
    | with_reducible apply takeSw_within
    | with_reducible apply resetPartition_within
    | with_reducible apply sw_within
    | with_reducible exact Within.lit_rcv_age_dbg
    | with_reducible refine Within.lit_rcv_age_dbg ?_

theorem execSwresetModule_within (s : State) (h : Within rch s0 s) [wctxs : May rch.ctxs] [wrcv : May rch.rcv] [wpwr : May rch.pwr] [wboot : May rch.boot] [wsec : May rch.sec] [wage : May rch.age] [wdbg : May rch.dbg] : WithinOut rch s0 (execSwresetModule s) := by
  unfold execSwresetModule
  repeat' first
    | with_reducible assumption
    | with_reducible apply Within.next
    | with_reducible apply takeSw_within
    | with_reducible apply resetModule_within
    | with_reducible apply sw_within
    | with_reducible exact Within.lit_ctxs_rcv_pwr_boot_sec_age_dbg
    | with_reducible refine Within.lit_ctxs_rcv_pwr_boot_sec_age_dbg ?_

end Sys2Proof.Machine
end

