-- ==== Sys2Proof/Laws/WithinHosts.lean ====
section
/-!
SUPPORT. What the operations of Machine/Hosts.lean leave alone.
-/

namespace Sys2Proof.Machine

open Sys2Proof

variable {rch : Reach} {s0 : State}

theorem destroyOwned_within (s : State) (h : Within rch s0 s) (p : Port) [wctxs : May rch.ctxs] : Within rch s0 (State.destroyOwned s p) := by
  unfold State.destroyOwned
  repeat' first
    | with_reducible assumption
    | with_reducible apply destroyCtx_within
    | with_reducible refine Within.foldl _ ?_ _ fun _ _ _ => ?_

theorem dropDoe_within (s : State) (h : Within rch s0 s) (p : Port) [wsec : May rch.sec] : Within rch s0 (State.dropDoe s p) := by
  unfold State.dropDoe
  repeat' first
    | with_reducible assumption
    | with_reducible exact Within.lit_sec
    | with_reducible refine Within.lit_sec ?_

theorem execPerstAssert_within (s : State) (h : Within rch s0 s) (p : Port) [wctxs : May rch.ctxs] [wsec : May rch.sec] : WithinOut rch s0 (execPerstAssert p s) := by
  unfold execPerstAssert
  exact (dropDoe_within _ (followPort_within _ (h.updPort _ _) _) _).next

theorem execPerstDeassert_within (s : State) (h : Within rch s0 s) (p : Port) [wctxs : May rch.ctxs] : WithinOut rch s0 (execPerstDeassert p s) := by
  unfold execPerstDeassert
  repeat' first
    | with_reducible assumption
    | (with_reducible apply Within.ite <;> intro _)
    | with_reducible apply Within.next
    | with_reducible apply Within.updPort
    | with_reducible apply destroyOwned_within
    | with_reducible exact Within.lit_ctxs
    | split
    | with_reducible refine Within.lit_ctxs ?_

theorem execFunctionLevelReset_within (s : State) (h : Within rch s0 s) (p : Port) [wctxs : May rch.ctxs] [wsec : May rch.sec] : WithinOut rch s0 (execFunctionLevelReset p s) := by
  unfold execFunctionLevelReset
  repeat' first
    | with_reducible assumption
    | with_reducible apply Within.next
    | with_reducible apply Within.updPort
    | with_reducible apply destroyOwned_within
    | with_reducible apply dropDoe_within

theorem execHostLinkDown_within (s : State) (h : Within rch s0 s) (p : Port) : WithinOut rch s0 (execHostLinkDown p s) := by
  unfold execHostLinkDown
  repeat' first
    | with_reducible assumption
    | (with_reducible apply Within.ite <;> intro _)
    | with_reducible apply Within.next
    | with_reducible apply Within.updPort
    | with_reducible apply linkLost_within
    | with_reducible exact Within.lit
    | split
    | with_reducible refine Within.lit ?_

theorem execPortDownTimeout_within (s : State) (h : Within rch s0 s) (p : Port) [wctxs : May rch.ctxs] : WithinOut rch s0 (execPortDownTimeout p s) := by
  unfold execPortDownTimeout
  repeat' first
    | with_reducible assumption
    | (with_reducible apply Within.ite <;> intro _)
    | with_reducible apply Within.next
    | with_reducible apply Within.updPort
    | with_reducible apply followPort_within
    | with_reducible apply linkLost_within
    | with_reducible exact Within.lit_ctxs
    | split
    | with_reducible refine Within.lit_ctxs ?_

theorem execHostLinkUp_within (s : State) (h : Within rch s0 s) (p : Port) [wctxs : May rch.ctxs] : WithinOut rch s0 (execHostLinkUp p s) := by
  unfold execHostLinkUp
  repeat' first
    | with_reducible assumption
    | (with_reducible apply Within.ite <;> intro _)
    | with_reducible apply Within.next
    | with_reducible apply Within.updPort
    | with_reducible apply followPort_within
    | with_reducible apply linkLost_within
    | with_reducible exact Within.lit_ctxs
    | split
    | with_reducible refine Within.lit_ctxs ?_

theorem enablePort_within (s : State) (h : Within rch s0 s) (p : Port) (on : Bool) [wctxs : May rch.ctxs] : Within rch s0 (State.enablePort s p on) := by
  unfold State.enablePort
  repeat' first
    | with_reducible assumption
    | with_reducible apply Within.updPort
    | with_reducible apply followPort_within
    | with_reducible exact Within.lit_ctxs
    | with_reducible refine Within.lit_ctxs ?_

theorem execPortDisable_within (s : State) (h : Within rch s0 s) (p : Port) [wctxs : May rch.ctxs] : WithinOut rch s0 (execPortDisable p s) := by
  unfold execPortDisable
  repeat' first
    | with_reducible assumption
    | (with_reducible apply Within.ite <;> intro _)
    | with_reducible apply Within.next
    | with_reducible apply enablePort_within
    | split

theorem execPortEnable_within (s : State) (h : Within rch s0 s) (p : Port) [wctxs : May rch.ctxs] : WithinOut rch s0 (execPortEnable p s) := by
  unfold execPortEnable
  repeat' first
    | with_reducible assumption
    | (with_reducible apply Within.ite <;> intro _)
    | with_reducible apply Within.next
    | with_reducible apply enablePort_within
    | split

theorem execVfEnable_within (s : State) (h : Within rch s0 s) (p : Port) (n : Nat) : WithinOut rch s0 (execVfEnable p n s) := by
  unfold execVfEnable
  repeat' first
    | with_reducible assumption
    | with_reducible apply Within.next
    | with_reducible apply Within.updPort
    | with_reducible exact Within.lit
    | with_reducible refine Within.lit ?_

theorem execBar4Resize_within (s : State) (h : Within rch s0 s) (p : Port) (log2 : Nat) : WithinOut rch s0 (execBar4Resize p log2 s) := by
  unfold execBar4Resize
  repeat' first
    | with_reducible assumption
    | (with_reducible apply Within.ite <;> intro _)
    | with_reducible apply Within.next
    | with_reducible apply Within.updPort
    | with_reducible exact Within.lit
    | split
    | with_reducible refine Within.lit ?_

end Sys2Proof.Machine
end

