-- ==== Sys2Proof/Laws/WithinSecurity.lean ====
section
/-!
SUPPORT. What the operations of Machine/Security.lean leave alone.
-/

namespace Sys2Proof.Machine

open Sys2Proof

variable {rch : Reach} {s0 : State}

theorem fixMeasurements_within (s : State) (h : Within rch s0 s) [wsec : May rch.sec] : Within rch s0 (State.fixMeasurements s) := by
  unfold State.fixMeasurements
  repeat' first
    | with_reducible assumption
    | with_reducible exact Within.lit_sec
    | with_reducible refine Within.lit_sec ?_

theorem setConn_within (s : State) (h : Within rch s0 s) (x : Transport) (c : SpdmConn) [wsec : May rch.sec] : Within rch s0 (State.setConn s x c) := by
  unfold State.setConn
  repeat' first
    | with_reducible assumption
    | with_reducible exact Within.lit_sec
    | with_reducible refine Within.lit_sec ?_

theorem spdm_within (s : State) (h : Within rch s0 s) (x : Transport) (ok : Bool) (eff : State → State)
    (he : ∀ t, Within rch s0 t → Within rch s0 (eff t)) : Within rch s0 (State.spdm s x ok eff) := by
  unfold State.spdm
  split
  · exact h
  · split
    · exact he _ h
    · exact h.emit _

theorem execGetVersion_within (s : State) (h : Within rch s0 s) (x : Transport) [wsec : May rch.sec] : WithinOut rch s0 (execGetVersion x s) := by
  unfold execGetVersion
  repeat' first
    | with_reducible assumption
    | with_reducible apply Within.next
    | with_reducible apply Within.emit
    | with_reducible apply spdm_within
    | with_reducible apply setConn_within
    | intro _ _
    | with_reducible exact Within.lit_sec
    | with_reducible refine Within.lit_sec ?_

theorem execGetCapabilities_within (s : State) (h : Within rch s0 s) (x : Transport) [wsec : May rch.sec] : WithinOut rch s0 (execGetCapabilities x s) := by
  unfold execGetCapabilities
  repeat' first
    | with_reducible assumption
    | with_reducible apply Within.next
    | with_reducible apply Within.emit
    | with_reducible apply spdm_within
    | with_reducible apply setConn_within
    | intro _ _
    | with_reducible exact Within.lit_sec
    | with_reducible refine Within.lit_sec ?_

theorem execNegotiateAlgorithms_within (s : State) (h : Within rch s0 s) (x : Transport) (offered : AlgOffer) [wsec : May rch.sec] : WithinOut rch s0 (execNegotiateAlgorithms x offered s) := by
  unfold execNegotiateAlgorithms
  repeat' first
    | with_reducible assumption
    | with_reducible apply Within.next
    | with_reducible apply Within.emit
    | with_reducible apply spdm_within
    | with_reducible apply setConn_within
    | intro _ _
    | with_reducible exact Within.lit_sec
    | with_reducible refine Within.lit_sec ?_
    | extract_lets

theorem execGetDigests_within (s : State) (h : Within rch s0 s) (x : Transport) : WithinOut rch s0 (execGetDigests x s) := by
  unfold execGetDigests
  repeat' first
    | with_reducible assumption
    | with_reducible apply Within.next
    | with_reducible apply Within.emit
    | with_reducible apply spdm_within
    | with_reducible refine Within.foldl _ ?_ _ fun _ _ _ => ?_
    | intro _ _
    | extract_lets

theorem execGetCertificate_within (s : State) (h : Within rch s0 s) (x : Transport) (slot : Fin 8) (off : Nat) (len : Nat) : WithinOut rch s0 (execGetCertificate x slot off len s) := by
  unfold execGetCertificate
  repeat' first
    | with_reducible assumption
    | with_reducible apply Within.next
    | with_reducible apply Within.emit
    | with_reducible apply spdm_within
    | intro _ _

theorem execChallenge_within (s : State) (h : Within rch s0 s) (x : Transport) (slot : Fin 8) (nonce : List Byte) : WithinOut rch s0 (execChallenge x slot nonce s) := by
  unfold execChallenge
  repeat' first
    | with_reducible assumption
    | with_reducible apply Within.next
    | with_reducible apply Within.emit
    | with_reducible apply spdm_within
    | intro _ _
    | with_reducible exact Within.lit
    | with_reducible refine Within.lit ?_
    | extract_lets

theorem execGetMeasurements_within (s : State) (h : Within rch s0 s) (x : Transport) (index : BitVec 8) (signed : Bool) : WithinOut rch s0 (execGetMeasurements x index signed s) := by
  unfold execGetMeasurements
  repeat' first
    | with_reducible assumption
    | (with_reducible apply Within.ite <;> intro _)
    | with_reducible apply Within.next
    | with_reducible apply Within.emit
    | with_reducible apply spdm_within
    | intro _ _
    | extract_lets
    | split

theorem execKeyExchange_within (s : State) (h : Within rch s0 s) (x : Transport) (slot : Fin 8) (share : List Byte) [wsec : May rch.sec] : WithinOut rch s0 (execKeyExchange x slot share s) := by
  unfold execKeyExchange
  repeat' first
    | with_reducible assumption
    | with_reducible apply Within.next
    | with_reducible apply Within.emit
    | with_reducible apply spdm_within
    | with_reducible apply setConn_within
    | intro _ _
    | with_reducible exact Within.lit_sec
    | with_reducible refine Within.lit_sec ?_
    | extract_lets

theorem execFinish_within (s : State) (h : Within rch s0 s) (x : Transport) (session : Fin 4) (verify : List Byte) [wsec : May rch.sec] : WithinOut rch s0 (execFinish x session verify s) := by
  unfold execFinish
  apply Within.next
  extract_lets
  split
  · exact spdm_within _ h _ _ _ fun t ht => ht
  · split
    · exact h
    · split
      · exact (setConn_within _ h _ _).emit _
      · exact (setConn_within _ h _ _).emit _

theorem execKeyUpdate_within (s : State) (h : Within rch s0 s) (x : Transport) (session : Fin 4) [wsec : May rch.sec] : WithinOut rch s0 (execKeyUpdate x session s) := by
  unfold execKeyUpdate
  repeat' first
    | with_reducible assumption
    | with_reducible apply Within.next
    | with_reducible apply Within.emit
    | with_reducible apply spdm_within
    | with_reducible apply setConn_within
    | intro _ _
    | with_reducible exact Within.lit_sec
    | with_reducible refine Within.lit_sec ?_

theorem execHeartbeat_within (s : State) (h : Within rch s0 s) (x : Transport) (session : Fin 4) : WithinOut rch s0 (execHeartbeat x session s) := by
  unfold execHeartbeat
  repeat' first
    | with_reducible assumption
    | with_reducible apply Within.next
    | with_reducible apply Within.emit
    | with_reducible apply spdm_within
    | intro _ _

theorem execEndSession_within (s : State) (h : Within rch s0 s) (x : Transport) (session : Fin 4) [wsec : May rch.sec] : WithinOut rch s0 (execEndSession x session s) := by
  unfold execEndSession
  repeat' first
    | with_reducible assumption
    | with_reducible apply Within.next
    | with_reducible apply Within.emit
    | with_reducible apply spdm_within
    | with_reducible apply setConn_within
    | intro _ _

theorem execGetCsr_within (s : State) (h : Within rch s0 s) (x : Transport) (session : Option (Fin 4)) : WithinOut rch s0 (execGetCsr x session s) := by
  unfold execGetCsr
  repeat' first
    | with_reducible assumption
    | with_reducible apply Within.next
    | with_reducible apply Within.emit
    | with_reducible apply spdm_within
    | intro _ _

theorem execSetCertificate_within (s : State) (h : Within rch s0 s) (x : Transport) (session : Option (Fin 4)) (slot : Fin 8) (chain : List Byte) [wsec : May rch.sec] : WithinOut rch s0 (execSetCertificate x session slot chain s) := by
  unfold execSetCertificate
  repeat' first
    | with_reducible assumption
    | with_reducible apply Within.next
    | with_reducible apply Within.emit
    | with_reducible apply spdm_within
    | intro _ _
    | with_reducible exact Within.lit_sec
    | with_reducible refine Within.lit_sec ?_

theorem execIdeKm_within (s : State) (h : Within rch s0 s) (x : Transport) (session : Option (Fin 4)) (stream : Fin 8)
    (key : List Byte) : WithinOut rch s0 (execIdeKm x session stream key s) := by
  unfold execIdeKm
  apply Within.next
  split
  · exact spdm_within _ h _ _ _ fun t ht => (ht.updPort _ _).emit _
  · exact spdm_within _ h _ _ _ fun t ht => ht

theorem execRequestUpdate_within (s : State) (h : Within rch s0 s) (agent : UpdateAgent) [wboot : May rch.boot] : WithinOut rch s0 (execRequestUpdate agent s) := by
  unfold execRequestUpdate
  repeat' first
    | with_reducible assumption
    | (with_reducible apply Within.ite <;> intro _)
    | with_reducible apply Within.next
    | with_reducible apply Within.emit
    | with_reducible exact Within.lit_boot
    | extract_lets
    | split
    | with_reducible refine Within.lit_boot ?_

theorem execFirmwareImageWrite_within (s : State) (h : Within rch s0 s) (off : Nat) (data : List Byte) (last : Bool) [wboot : May rch.boot] : WithinOut rch s0 (execFirmwareImageWrite off data last s) := by
  unfold execFirmwareImageWrite
  repeat' first
    | with_reducible assumption
    | (with_reducible apply Within.ite <;> intro _)
    | with_reducible apply Within.next
    | with_reducible apply Within.emit
    | with_reducible exact Within.lit_boot
    | extract_lets
    | split
    | with_reducible refine Within.lit_boot ?_

theorem execActivateFirmware_within (s : State) (h : Within rch s0 s) [wboot : May rch.boot] : WithinOut rch s0 (execActivateFirmware s) := by
  unfold execActivateFirmware
  repeat' first
    | with_reducible assumption
    | (with_reducible apply Within.ite <;> intro _)
    | with_reducible apply Within.next
    | with_reducible apply Within.emit
    | with_reducible exact Within.lit_boot
    | split
    | with_reducible refine Within.lit_boot ?_

theorem execGetSensorReading_within (s : State) (h : Within rch s0 s) (n : Sensor) : WithinOut rch s0 (execGetSensorReading n s) := by
  unfold execGetSensorReading
  repeat' first
    | with_reducible assumption
    | (with_reducible apply Within.ite <;> intro _)
    | with_reducible apply Within.next
    | with_reducible apply Within.emit
    | with_reducible exact Within.lit
    | extract_lets
    | split
    | with_reducible refine Within.lit ?_

theorem execSetdasa_within (s : State) (h : Within rch s0 s) (addr : BitVec 7) [wpwr : May rch.pwr] : WithinOut rch s0 (execSetdasa addr s) := by
  unfold execSetdasa
  repeat' first
    | with_reducible assumption
    | (with_reducible apply Within.ite <;> intro _)
    | with_reducible apply Within.next
    | with_reducible exact Within.lit_pwr
    | split
    | with_reducible refine Within.lit_pwr ?_

theorem execRstdaa_within (s : State) (h : Within rch s0 s) [wpwr : May rch.pwr] : WithinOut rch s0 (execRstdaa s) := by
  unfold execRstdaa
  repeat' first
    | with_reducible assumption
    | with_reducible apply Within.next
    | with_reducible exact Within.lit_pwr
    | with_reducible refine Within.lit_pwr ?_

end Sys2Proof.Machine
end

