-- ==== Sys2Proof/Laws/WithinPower.lean ====
section
/-!
SUPPORT. What the operations of Machine/Power.lean leave alone.
-/

namespace Sys2Proof.Machine

open Sys2Proof

variable {rch : Reach} {s0 : State}

theorem loseInput_within (s : State) (h : Within rch s0 s) [wctxs : May rch.ctxs] [wrcv : May rch.rcv] [wpwr : May rch.pwr] [wboot : May rch.boot] [wsec : May rch.sec] [wage : May rch.age] [wdbg : May rch.dbg] : Within rch s0 (State.loseInput s) := by
  unfold State.loseInput
  repeat' first
    | with_reducible assumption
    | (with_reducible apply Within.ite <;> intro _)
    | with_reducible apply loseSupply_within
    | with_reducible exact Within.lit_ctxs_rcv_pwr_boot_sec_age_dbg
    | split
    | with_reducible refine Within.lit_ctxs_rcv_pwr_boot_sec_age_dbg ?_

theorem execInputUndervoltage_within (s : State) (h : Within rch s0 s) [wctxs : May rch.ctxs] [wrcv : May rch.rcv] [wpwr : May rch.pwr] [wboot : May rch.boot] [wsec : May rch.sec] [wage : May rch.age] [wdbg : May rch.dbg] : WithinOut rch s0 (execInputUndervoltage s) := by
  unfold execInputUndervoltage
  repeat' first
    | with_reducible assumption
    | with_reducible apply Within.next
    | with_reducible apply loseInput_within

theorem execInputOvervoltage_within (s : State) (h : Within rch s0 s) [wctxs : May rch.ctxs] [wrcv : May rch.rcv] [wpwr : May rch.pwr] [wboot : May rch.boot] [wsec : May rch.sec] [wage : May rch.age] [wdbg : May rch.dbg] : WithinOut rch s0 (execInputOvervoltage s) := by
  unfold execInputOvervoltage
  repeat' first
    | with_reducible assumption
    | with_reducible apply Within.next
    | with_reducible apply loseInput_within

theorem shortStage_within (s : State) (h : Within rch s0 s) (n : Nat) [wctxs : May rch.ctxs] [wrcv : May rch.rcv] [wpwr : May rch.pwr] [wboot : May rch.boot] [wage : May rch.age] [wdbg : May rch.dbg] : Within rch s0 (State.shortStage s n) := by
  unfold State.shortStage
  repeat' first
    | with_reducible assumption
    | with_reducible apply requestCycle_within
    | with_reducible refine Within.foldl _ ?_ _ fun _ _ _ => ?_
    | with_reducible exact Within.lit_ctxs_rcv_pwr_boot_age_dbg
    | with_reducible refine Within.lit_ctxs_rcv_pwr_boot_age_dbg ?_
    | extract_lets

theorem execInputOvercurrent_within (s : State) (h : Within rch s0 s) [wctxs : May rch.ctxs] [wrcv : May rch.rcv] [wpwr : May rch.pwr] [wboot : May rch.boot] [wage : May rch.age] [wdbg : May rch.dbg] : WithinOut rch s0 (execInputOvercurrent s) := by
  unfold execInputOvercurrent
  repeat' first
    | with_reducible assumption
    | (with_reducible apply Within.ite <;> intro _)
    | with_reducible apply Within.next
    | with_reducible apply shortStage_within
    | split

theorem execRailStageShort_within (s : State) (h : Within rch s0 s) (stage : Fin 22) [wctxs : May rch.ctxs] [wrcv : May rch.rcv] [wpwr : May rch.pwr] [wboot : May rch.boot] [wage : May rch.age] [wdbg : May rch.dbg] : WithinOut rch s0 (execRailStageShort stage s) := by
  unfold execRailStageShort
  repeat' first
    | with_reducible assumption
    | (with_reducible apply Within.ite <;> intro _)
    | with_reducible apply Within.next
    | with_reducible apply shortStage_within
    | split

theorem noteReversed_within (s : State) (h : Within rch s0 s) [wpwr : May rch.pwr] : Within rch s0 (State.noteReversed s) := by
  unfold State.noteReversed
  repeat' first
    | with_reducible assumption
    | (with_reducible apply Within.ite <;> intro _)
    | with_reducible apply Within.emit
    | with_reducible exact Within.lit_pwr
    | split
    | with_reducible refine Within.lit_pwr ?_

theorem execReversedInput_within (s : State) (h : Within rch s0 s) [wctxs : May rch.ctxs] [wrcv : May rch.rcv] [wpwr : May rch.pwr] [wboot : May rch.boot] [wsec : May rch.sec] [wage : May rch.age] [wdbg : May rch.dbg] : WithinOut rch s0 (execReversedInput s) := by
  unfold execReversedInput
  repeat' first
    | with_reducible assumption
    | with_reducible apply Within.next
    | with_reducible apply noteReversed_within
    | with_reducible apply loseInput_within
    | with_reducible exact Within.lit_ctxs_rcv_pwr_boot_sec_age_dbg
    | with_reducible refine Within.lit_ctxs_rcv_pwr_boot_sec_age_dbg ?_

theorem execPolarityRestored_within (s : State) (h : Within rch s0 s) [wpwr : May rch.pwr] : WithinOut rch s0 (execPolarityRestored s) := by
  unfold execPolarityRestored
  repeat' first
    | with_reducible assumption
    | with_reducible apply Within.next
    | with_reducible exact Within.lit_pwr
    | with_reducible refine Within.lit_pwr ?_

theorem execInputBladeOpen_within (s : State) (h : Within rch s0 s) : WithinOut rch s0 (execInputBladeOpen s) := by
  unfold execInputBladeOpen
  repeat' first
    | with_reducible assumption
    | (with_reducible apply Within.ite <;> intro _)
    | with_reducible apply Within.next
    | with_reducible apply Within.emit
    | split

theorem execInputQualified_within (s : State) (h : Within rch s0 s) [wrcv : May rch.rcv] [wpwr : May rch.pwr] [wboot : May rch.boot] : WithinOut rch s0 (execInputQualified s) := by
  unfold execInputQualified
  repeat' first
    | with_reducible assumption
    | (with_reducible apply Within.ite <;> intro _)
    | with_reducible apply Within.next
    | with_reducible apply resumeStart_within
    | with_reducible exact Within.lit_rcv_pwr_boot
    | split
    | with_reducible refine Within.lit_rcv_pwr_boot ?_

theorem powerDown_within (s : State) (h : Within rch s0 s) [wctxs : May rch.ctxs] [whk : May rch.hk] [wrcv : May rch.rcv] [wpwr : May rch.pwr] [wboot : May rch.boot] [wsec : May rch.sec] [wage : May rch.age] [wdbg : May rch.dbg] : Within rch s0 (State.powerDown s) := by
  unfold State.powerDown
  exact h.lit_ctxs_hk_rcv_pwr_boot_sec_age_dbg

theorem execAux3v3Loss_within (s : State) (h : Within rch s0 s) [wctxs : May rch.ctxs] [whk : May rch.hk] [wrcv : May rch.rcv] [wpwr : May rch.pwr] [wboot : May rch.boot] [wsec : May rch.sec] [wage : May rch.age] [wdbg : May rch.dbg] : WithinOut rch s0 (execAux3v3Loss s) := by
  unfold execAux3v3Loss
  repeat' first
    | with_reducible assumption
    | (with_reducible apply Within.ite <;> intro _)
    | with_reducible apply Within.next
    | with_reducible apply powerDown_within
    | split

theorem execAux3v3Rise_within (s : State) (h : Within rch s0 s) [wpwr : May rch.pwr] : WithinOut rch s0 (execAux3v3Rise s) := by
  unfold execAux3v3Rise
  repeat' first
    | with_reducible assumption
    | (with_reducible apply Within.ite <;> intro _)
    | with_reducible apply Within.next
    | with_reducible exact Within.lit_pwr
    | split
    | with_reducible refine Within.lit_pwr ?_

theorem execRootPllLock_within (s : State) (h : Within rch s0 s) (strap : BitVec 3) [whk : May rch.hk] [wrcv : May rch.rcv] [wpwr : May rch.pwr] [wboot : May rch.boot] : WithinOut rch s0 (execRootPllLock strap s) := by
  unfold execRootPllLock
  apply Within.next
  split
  · exact h
  · extract_lets pw bb s1
    have h1 : Within rch s0 s1 := h.lit_hk_rcv_pwr_boot
    clear_value s1
    refine resumeStart_within _ ?_
    split
    · exact noteReversed_within _ h1
    · exact h1

theorem execDiesLoaded_within (s : State) (h : Within rch s0 s) (accepted : Bool) [wrcv : May rch.rcv] [wboot : May rch.boot] [wsec : May rch.sec] : WithinOut rch s0 (execDiesLoaded accepted s) := by
  unfold execDiesLoaded
  apply Within.next
  split
  · exact h
  · split
    · split
      · exact fixMeasurements_within _ h.lit_rcv_boot_sec
      · exact h.lit_rcv_boot_sec
    · refine Within.foldl _ ?_ _ fun _ _ ht => train_within _ ht _
      exact h.lit_rcv_boot_sec

theorem execHbmTrainingComplete_within (s : State) (h : Within rch s0 s) (trained again : BitVec 6) [wrcv : May rch.rcv] [wpwr : May rch.pwr] [wboot : May rch.boot] : WithinOut rch s0 (execHbmTrainingComplete trained again s) := by
  unfold execHbmTrainingComplete
  apply Within.next
  extract_lets
  split
  · exact h
  · split
    · exact h.lit_rcv_pwr_boot
    · exact h.lit_rcv_pwr_boot

theorem execTrialTimeout_within (s : State) (h : Within rch s0 s) [wboot : May rch.boot] : WithinOut rch s0 (execTrialTimeout s) := by
  unfold execTrialTimeout
  apply Within.next
  split
  · exact h
  · have e : (s.boot.loseTrial 8).svnFuses = s.boot.svnFuses ∧ (s.boot.loseTrial 8).ready = s.boot.ready := by
      unfold BootBlock.loseTrial; split <;> exact ⟨rfl, rfl⟩
    exact h.lit_boot

theorem execThermalShutdown_within (s : State) (h : Within rch s0 s) [wctxs : May rch.ctxs] [wrcv : May rch.rcv] [wpwr : May rch.pwr] [wboot : May rch.boot] [wsec : May rch.sec] [wage : May rch.age] [wdbg : May rch.dbg] : WithinOut rch s0 (execThermalShutdown s) := by
  unfold execThermalShutdown
  repeat' first
    | with_reducible assumption
    | (with_reducible apply Within.ite <;> intro _)
    | with_reducible apply Within.next
    | with_reducible apply loseSupply_within
    | with_reducible exact Within.lit_ctxs_rcv_pwr_boot_sec_age_dbg
    | split
    | with_reducible refine Within.lit_ctxs_rcv_pwr_boot_sec_age_dbg ?_

theorem execThermalResume_within (s : State) (h : Within rch s0 s) [wrcv : May rch.rcv] [wpwr : May rch.pwr] [wboot : May rch.boot] : WithinOut rch s0 (execThermalResume s) := by
  unfold execThermalResume
  repeat' first
    | with_reducible assumption
    | (with_reducible apply Within.ite <;> intro _)
    | with_reducible apply Within.next
    | with_reducible apply resumeStart_within
    | with_reducible exact Within.lit_rcv_pwr_boot
    | split
    | with_reducible refine Within.lit_rcv_pwr_boot ?_

theorem execSensorWarning_within (s : State) (h : Within rch s0 s) (n : Sensor) [wpwr : May rch.pwr] : WithinOut rch s0 (execSensorWarning n s) := by
  unfold execSensorWarning
  repeat' first
    | with_reducible assumption
    | (with_reducible apply Within.ite <;> intro _)
    | with_reducible apply Within.next
    | with_reducible apply Within.emit
    | with_reducible exact Within.lit_pwr
    | extract_lets
    | split
    | with_reducible refine Within.lit_pwr ?_

theorem execRefclkLoss_within (s : State) (h : Within rch s0 s) [wctxs : May rch.ctxs] [wrcv : May rch.rcv] [wpwr : May rch.pwr] [wboot : May rch.boot] [wsec : May rch.sec] [wage : May rch.age] [wdbg : May rch.dbg] : WithinOut rch s0 (execRefclkLoss s) := by
  unfold execRefclkLoss
  repeat' first
    | with_reducible assumption
    | (with_reducible apply Within.ite <;> intro _)
    | with_reducible apply Within.next
    | with_reducible apply resetModule_within
    | with_reducible exact Within.lit_ctxs_rcv_pwr_boot_sec_age_dbg
    | extract_lets
    | split
    | with_reducible refine Within.lit_ctxs_rcv_pwr_boot_sec_age_dbg ?_

theorem execRefclkReturn_within (s : State) (h : Within rch s0 s) [wrcv : May rch.rcv] [wpwr : May rch.pwr] [wboot : May rch.boot] : WithinOut rch s0 (execRefclkReturn s) := by
  unfold execRefclkReturn
  repeat' first
    | with_reducible assumption
    | (with_reducible apply Within.ite <;> intro _)
    | with_reducible apply Within.next
    | with_reducible apply resumeStart_within
    | with_reducible exact Within.lit_rcv_pwr_boot
    | extract_lets
    | split
    | with_reducible refine Within.lit_rcv_pwr_boot ?_

theorem execPowerGovernor_within (s : State) (h : Within rch s0 s) (withhold : Bool) [wpwr : May rch.pwr] : WithinOut rch s0 (execPowerGovernor withhold s) := by
  unfold execPowerGovernor
  repeat' first
    | with_reducible assumption
    | (with_reducible apply Within.ite <;> intro _)
    | with_reducible apply Within.next
    | with_reducible apply free_within
    | with_reducible exact Within.lit_pwr
    | with_reducible refine Within.pair (by with_reducible assumption) ?_
    | extract_lets
    | split
    | with_reducible refine Within.lit_pwr ?_

end Sys2Proof.Machine
end

