-- ==== Sys2Proof/Laws/WithinReadback.lean ====
section
/-!
SUPPORT. What the operations of Machine/Readback.lean leave alone.
-/

namespace Sys2Proof.Machine

open Sys2Proof

variable {rch : Reach} {s0 : State}

theorem seen_within (s : State) (h : Within rch s0 s) : Within rch s0 (State.seen s) := by
  unfold State.seen
  repeat' first
    | with_reducible assumption
    | (with_reducible apply Within.ite <;> intro _)
    | with_reducible exact Within.lit
    | split
    | with_reducible refine Within.lit ?_

end Sys2Proof.Machine
end

