-- ==== Sys2Proof/Laws/WithinRegisters.lean ====
section
/-!
SUPPORT. What the operations of Machine/Registers.lean leave alone.
-/

namespace Sys2Proof.Machine

open Sys2Proof

variable {rch : Reach} {s0 : State}

theorem execSetupLockTake_within (s : State) (h : Within rch s0 s) (p : Port) (f : Fn) [wsec : May rch.sec] : WithinOut rch s0 (execSetupLockTake p f s) := by
  unfold execSetupLockTake
  apply Within.next
  split
  · exact h
  · exact h.lit_sec

theorem startInval_within (s : State) (h : Within rch s0 s) (c : CtxNo) (region : Option Nat) : Within rch s0 (State.startInval s c region) := by
  unfold State.startInval
  repeat' first
    | with_reducible assumption
    | with_reducible exact Within.lit
    | with_reducible refine Within.lit ?_

theorem execMemInval_within (s : State) (h : Within rch s0 s) (p : Port) (c : CtxNo) (whole : Bool) (va : Nat) : WithinOut rch s0 (execMemInval p c whole va s) := by
  unfold execMemInval
  repeat' first
    | with_reducible assumption
    | (with_reducible apply Within.ite <;> intro _)
    | with_reducible apply Within.next
    | with_reducible apply startInval_within
    | with_reducible exact Within.lit
    | extract_lets
    | split
    | with_reducible refine Within.lit ?_

theorem endInval_within (s : State) (h : Within rch s0 s) (j : CtxNo × Option Nat) [wctxs : May rch.ctxs] : Within rch s0 (State.endInval s j) := by
  unfold State.endInval
  repeat' first
    | with_reducible assumption
    | (with_reducible apply Within.ite <;> intro _)
    | with_reducible apply Within.updCtx
    | with_reducible exact Within.lit_ctxs
    | split
    | with_reducible refine Within.lit_ctxs ?_

theorem execMemInvalComplete_within (s : State) (h : Within rch s0 s) [wctxs : May rch.ctxs] : WithinOut rch s0 (execMemInvalComplete s) := by
  unfold execMemInvalComplete
  repeat' first
    | with_reducible assumption
    | with_reducible apply Within.next
    | with_reducible apply endInval_within
    | with_reducible refine Within.foldl _ ?_ _ fun _ _ _ => ?_
    | with_reducible exact Within.lit_ctxs
    | with_reducible refine Within.lit_ctxs ?_
    | extract_lets

theorem execDbgQuiesce_within (s : State) (h : Within rch s0 s) (value : W64) [wdbg : May rch.dbg] : WithinOut rch s0 (execDbgQuiesce value s) := by
  unfold execDbgQuiesce
  repeat' first
    | with_reducible assumption
    | (with_reducible apply Within.ite <;> intro _)
    | with_reducible apply Within.next
    | with_reducible exact Within.lit_dbg
    | split
    | with_reducible refine Within.lit_dbg ?_

theorem execQuiesceTimeout_within (s : State) (h : Within rch s0 s) (e : Eng) [wdbg : May rch.dbg] : WithinOut rch s0 (execQuiesceTimeout e s) := by
  unfold execQuiesceTimeout
  repeat' first
    | with_reducible assumption
    | (with_reducible apply Within.ite <;> intro _)
    | with_reducible apply Within.next
    | with_reducible apply unquiesce_within
    | split

theorem writeGroup_within (s : State) (h : Within rch s0 s) (p : Port) (e : Eng) (k : StreamNo) (off : Nat) (size : Nat) (v : W64) : Within rch s0 (State.writeGroup s p e k off size v) := by
  unfold State.writeGroup
  repeat' first
    | with_reducible assumption
    | (with_reducible apply Within.ite <;> intro _)
    | with_reducible apply Within.updEng
    | with_reducible apply afterRecords_within
    | with_reducible exact Within.lit
    | extract_lets
    | split
    | with_reducible refine Within.lit ?_

theorem execGroupRecordWrite_within (s : State) (h : Within rch s0 s) (p : Port) (e : Eng) (k : StreamNo) (off : Nat) (size : Nat) (v : W64) : WithinOut rch s0 (execGroupRecordWrite p e k off size v s) := by
  unfold execGroupRecordWrite
  repeat' first
    | with_reducible assumption
    | (with_reducible apply Within.ite <;> intro _)
    | with_reducible apply Within.next
    | with_reducible apply writeGroup_within
    | split

theorem after_within (s : State) (h : Within rch s0 s) (o : Out) (ho : WithinOut rch s0 o) : Within rch s0 (after s o) := by
  unfold after
  split
  · exact ho _ rfl
  · exact h

theorem writeCtxCmd_within (s : State) (h : Within rch s0 s) (p : Port) (f : Fn) (w : WrWord) [wctxs : May rch.ctxs] : Within rch s0 (State.writeCtxCmd s p f w) := by
  unfold State.writeCtxCmd
  repeat' first
    | with_reducible assumption
    | (with_reducible apply Within.ite <;> intro _)
    | with_reducible apply Within.updArea
    | with_reducible apply after_within
    | with_reducible apply execCtxCreate_within
    | with_reducible apply execCtxAdopt_within
    | with_reducible apply execCtxDestroy_within
    | with_reducible apply execCtxAbort_within
    | with_reducible exact Within.lit_ctxs
    | extract_lets
    | split
    | with_reducible refine Within.lit_ctxs ?_

theorem writeArea_within (s : State) (h : Within rch s0 s) (p : Port) (f : Fn) (o : Nat) (off : Nat) (size : Nat) (v : W64) [wctxs : May rch.ctxs] : Within rch s0 (State.writeArea s p f o off size v) := by
  unfold State.writeArea
  repeat' first
    | with_reducible assumption
    | (with_reducible apply Within.ite <;> intro _)
    | with_reducible apply Within.updArea
    | with_reducible apply writeCtxCmd_within
    | with_reducible exact Within.lit_ctxs
    | split
    | with_reducible refine Within.lit_ctxs ?_

theorem writeRingCmd_within (s : State) (h : Within rch s0 s) (p : Port) (h : Port) (f : Fn) (w : WrWord) : Within rch s0 (State.writeRingCmd s p h f w) := by
  unfold State.writeRingCmd
  repeat' first
    | with_reducible assumption
    | (with_reducible apply Within.ite <;> intro _)
    | with_reducible apply Within.updArea
    | with_reducible apply execRingStop_within
    | with_reducible apply answerRing_within
    | with_reducible apply execRingResume_within
    | with_reducible apply takeRing_within
    | with_reducible apply execCqDisable_within
    | with_reducible apply after_within
    | with_reducible apply execRingEnable_within
    | with_reducible apply execRingPause_within
    | with_reducible apply execRingDisable_within
    | with_reducible apply execCqEnable_within
    | with_reducible exact Within.lit
    | extract_lets
    | split
    | with_reducible refine Within.lit ?_

theorem writeRingRegs_within (s : State) (h : Within rch s0 s) (p : Port) (h : Port) (f : Fn) (o : Nat) (w : WrWord) : Within rch s0 (State.writeRingRegs s p h f o w) := by
  unfold State.writeRingRegs
  repeat' first
    | with_reducible assumption
    | (with_reducible apply Within.ite <;> intro _)
    | with_reducible apply Within.updArea
    | with_reducible apply writeRingCmd_within
    | with_reducible exact Within.lit
    | split
    | with_reducible refine Within.lit ?_

theorem writeMsix_within (s : State) (h : Within rch s0 s) (p : Port) (f : Fn) (o : Nat) (w : WrWord) : Within rch s0 (State.writeMsix s p f o w) := by
  unfold State.writeMsix
  extract_lets m v m1 go s1
  have h1 : Within rch s0 s1 := h.updPort _ _
  clear_value s1 go
  split
  · exact h1.emit _
  · exact h1

theorem writePort_within (s : State) (h : Within rch s0 s) (p : Port) (off : Nat) (w : WrWord) [wctxs : May rch.ctxs] [wsec : May rch.sec] : Within rch s0 (State.writePort s p off w) := by
  unfold State.writePort
  repeat' first
    | with_reducible assumption
    | (with_reducible apply Within.ite <;> intro _)
    | with_reducible apply Within.updPort
    | with_reducible apply enablePort_within
    | with_reducible apply lockedWrite_within
    | with_reducible exact Within.lit_ctxs_sec
    | extract_lets
    | split
    | with_reducible refine Within.lit_ctxs_sec ?_

theorem writeIrq_within (s : State) (hs : Within rch s0 s) (h : Port) (o : Nat) (w : WrWord) : Within rch s0 (State.writeIrq s h o w) := by
  unfold State.writeIrq
  repeat' first
    | with_reducible assumption
    | with_reducible apply Within.updPort
    | with_reducible apply writeMsix_within
    | split

theorem writeMem_within (s : State) (h : Within rch s0 s) (p : Port) (o : Nat) (w : WrWord) [wctxs : May rch.ctxs] [wage : May rch.age] : Within rch s0 (State.writeMem s p o w) := by
  unfold State.writeMem
  repeat' first
    | with_reducible assumption
    | (with_reducible apply Within.ite <;> intro _)
    | with_reducible apply Within.updCtx
    | with_reducible apply Within.updPort
    | with_reducible apply execFaultResumeAbort_within
    | with_reducible apply after_within
    | with_reducible apply confirmRetire_within
    | with_reducible apply execFaultResumeRetry_within
    | with_reducible apply takeResume_within
    | with_reducible apply startInval_within
    | with_reducible exact Within.lit_ctxs_age
    | extract_lets
    | split
    | with_reducible refine Within.lit_ctxs_age ?_

theorem writePeerCtl_within (s : State) (h : Within rch s0 s) (i : PeerPort) (w : WrWord) : Within rch s0 (State.writePeerCtl s i w) := by
  unfold State.writePeerCtl
  repeat' first
    | with_reducible assumption
    | (with_reducible apply Within.ite <;> intro _)
    | with_reducible apply retrainPort_within
    | with_reducible apply enablePeer_within
    | with_reducible apply afterRecords_within
    | with_reducible apply disablePeer_within
    | extract_lets
    | split

theorem writePeer_within (s : State) (h : Within rch s0 s) (o : Nat) (w : WrWord) [wsec : May rch.sec] : Within rch s0 (State.writePeer s o w) := by
  unfold State.writePeer
  repeat' first
    | with_reducible assumption
    | (with_reducible apply Within.ite <;> intro _)
    | with_reducible apply afterRecords_within
    | with_reducible apply writeNode_within
    | with_reducible apply writePeerCtl_within
    | with_reducible exact Within.lit_sec
    | split
    | with_reducible refine Within.lit_sec ?_

theorem writeSwreset_within (s : State) (h : Within rch s0 s) (w : WrWord) [wctxs : May rch.ctxs] [wrcv : May rch.rcv] [wpwr : May rch.pwr] [wboot : May rch.boot] [wsec : May rch.sec] [wage : May rch.age] [wdbg : May rch.dbg] : Within rch s0 (State.writeSwreset s w) := by
  unfold State.writeSwreset
  repeat' first
    | with_reducible assumption
    | (with_reducible apply Within.ite <;> intro _)
    | with_reducible apply execSwresetEngine_within
    | with_reducible apply after_within
    | with_reducible apply execSwresetModule_within
    | with_reducible apply execSwresetPartition_within
    | with_reducible exact Within.lit_ctxs_rcv_pwr_boot_sec_age_dbg
    | extract_lets
    | split
    | with_reducible refine Within.lit_ctxs_rcv_pwr_boot_sec_age_dbg ?_

theorem writeRcv_within (s : State) (h : Within rch s0 s) (o : Nat) (w : WrWord) [wctxs : May rch.ctxs] [wrcv : May rch.rcv] [wpwr : May rch.pwr] [wboot : May rch.boot] [wsec : May rch.sec] [wage : May rch.age] [wdbg : May rch.dbg] : Within rch s0 (State.writeRcv s o w) := by
  unfold State.writeRcv
  repeat' first
    | with_reducible assumption
    | (with_reducible apply Within.ite <;> intro _)
    | with_reducible apply Within.updPort
    | with_reducible apply writeSwreset_within
    | with_reducible apply after_within
    | with_reducible apply execPartFenceRelease_within
    | with_reducible apply execFenceRelease_within
    | with_reducible exact Within.lit_ctxs_rcv_pwr_boot_sec_age_dbg
    | split
    | with_reducible refine Within.lit_ctxs_rcv_pwr_boot_sec_age_dbg ?_

theorem writePwr_within (s : State) (h : Within rch s0 s) (o : Nat) (w : WrWord) [wpwr : May rch.pwr] [wsec : May rch.sec] : Within rch s0 (State.writePwr s o w) := by
  unfold State.writePwr
  repeat' first
    | with_reducible assumption
    | (with_reducible apply Within.ite <;> intro _)
    | with_reducible apply lockedWrite_within
    | with_reducible exact Within.lit_pwr_sec
    | extract_lets
    | split
    | with_reducible refine Within.lit_pwr_sec ?_

theorem writeAge_within (s : State) (h : Within rch s0 s) (o : Nat) (w : WrWord) [wage : May rch.age] : Within rch s0 (State.writeAge s o w) := by
  unfold State.writeAge
  repeat' first
    | with_reducible assumption
    | (with_reducible apply Within.ite <;> intro _)
    | with_reducible apply after_within
    | with_reducible apply execLedgerRead_within
    | with_reducible apply execReplan_within
    | with_reducible exact Within.lit_age
    | extract_lets
    | split
    | with_reducible refine Within.lit_age ?_

theorem writeSec_within (s : State) (h : Within rch s0 s) (p : Port) (o : Nat) (w : WrWord) [wsec : May rch.sec] : Within rch s0 (State.writeSec s p o w) := by
  unfold State.writeSec
  repeat' first
    | with_reducible assumption
    | (with_reducible apply Within.ite <;> intro _)
    | with_reducible apply execSetupLockTake_within
    | with_reducible apply after_within
    | with_reducible exact Within.lit_sec
    | split
    | with_reducible refine Within.lit_sec ?_

theorem writeEng_within (s : State) (h : Within rch s0 s) (p : Port) (e : Eng) (o : Nat) (off : Nat) (size : Nat) (v : W64) : Within rch s0 (State.writeEng s p e o off size v) := by
  unfold State.writeEng
  repeat' first
    | with_reducible assumption
    | (with_reducible apply Within.ite <;> intro _)
    | with_reducible apply Within.updEng
    | with_reducible apply writeGroup_within
    | with_reducible apply writeCfg_within
    | extract_lets
    | split

theorem writeReg_within (s : State) (h : Within rch s0 s) (q : Part) (d : Nat) (v : Nat) : Within rch s0 (State.writeReg s q d v) := by
  unfold State.writeReg
  repeat' first
    | with_reducible assumption
    | (with_reducible apply Within.ite <;> intro _)
    | with_reducible apply Within.updPart
    | with_reducible exact Within.lit
    | extract_lets
    | split
    | with_reducible refine Within.lit ?_

theorem writePart_within (s : State) (h : Within rch s0 s) (q : Part) (o : Nat) (w : WrWord) : Within rch s0 (State.writePart s q o w) := by
  unfold State.writePart
  repeat' first
    | with_reducible assumption
    | (with_reducible apply Within.ite <;> intro _)
    | with_reducible apply writeReg_within
    | extract_lets
    | split

theorem writeDbg_within (s : State) (h : Within rch s0 s) (o : Nat) (w : WrWord) [wdbg : May rch.dbg] : Within rch s0 (State.writeDbg s o w) := by
  unfold State.writeDbg
  repeat' first
    | with_reducible assumption
    | (with_reducible apply Within.ite <;> intro _)
    | with_reducible apply execDbgQuiesce_within
    | with_reducible apply after_within
    | with_reducible exact Within.lit_dbg
    | split
    | with_reducible refine Within.lit_dbg ?_

theorem writePf_within (s : State) (h : Within rch s0 s) (p : Port) (off : Nat) (size : Nat) (v : W64) [wctxs : May rch.ctxs] [wrcv : May rch.rcv] [wpwr : May rch.pwr] [wboot : May rch.boot] [wsec : May rch.sec] [wage : May rch.age] [wdbg : May rch.dbg] : Within rch s0 (State.writePf s p off size v) := by
  unfold State.writePf
  repeat' first
    | with_reducible assumption
    | (with_reducible apply Within.ite <;> intro _)
    | with_reducible apply writeIrq_within
    | with_reducible apply writePeer_within
    | with_reducible apply writeArea_within
    | with_reducible apply writePort_within
    | with_reducible apply writeMem_within
    | with_reducible apply execContextRecordWrite_within
    | with_reducible apply writeRcv_within
    | with_reducible apply writeAge_within
    | with_reducible apply writeSwreset_within
    | with_reducible apply writeSec_within
    | with_reducible apply after_within
    | with_reducible apply writeDbg_within
    | with_reducible apply writePwr_within
    | with_reducible apply writePart_within
    | with_reducible apply writeEng_within
    | with_reducible apply writeRingRegs_within
    | with_reducible apply execRingRecordWrite_within
    | extract_lets
    | split

theorem writeVf_within (s : State) (h : Within rch s0 s) (p : Port) (f : Fn) (off : Nat) (size : Nat) (v : W64) [wctxs : May rch.ctxs] : Within rch s0 (State.writeVf s p f off size v) := by
  unfold State.writeVf
  repeat' first
    | with_reducible assumption
    | (with_reducible apply Within.ite <;> intro _)
    | with_reducible apply writeArea_within
    | with_reducible apply writeMsix_within
    | with_reducible apply execContextRecordWrite_within
    | with_reducible apply after_within
    | with_reducible apply writeRingRegs_within
    | with_reducible apply execRingRecordWrite_within
    | extract_lets
    | split

theorem execRegisterWrite_within (s : State) (h : Within rch s0 s) (p : Port) (f : Fn) (off : Nat) (size : Nat) (value : W64) [wctxs : May rch.ctxs] [wrcv : May rch.rcv] [wpwr : May rch.pwr] [wboot : May rch.boot] [wsec : May rch.sec] [wage : May rch.age] [wdbg : May rch.dbg] : WithinOut rch s0 (execRegisterWrite p f off size value s) := by
  unfold execRegisterWrite
  repeat' first
    | with_reducible assumption
    | (with_reducible apply Within.ite <;> intro _)
    | with_reducible apply Within.next
    | with_reducible apply writeVf_within
    | with_reducible apply writePf_within
    | split

theorem hostHit_within (s : State) (h : Within rch s0 s) (pa : Nat) [wage : May rch.age] : Within rch s0 (State.hostHit s pa) := by
  unfold State.hostHit
  repeat' first
    | with_reducible assumption
    | with_reducible apply postErr_within
    | with_reducible apply retire_within
    | with_reducible exact Within.lit_age
    | with_reducible refine Within.lit_age ?_

theorem execBar4Read_within (s : State) (h : Within rch s0 s) (p : Port) (off : Nat) (len : Nat) (bad : Bool) [wage : May rch.age] : WithinOut rch s0 (execBar4Read p off len bad s) := by
  unfold execBar4Read
  repeat' first
    | with_reducible assumption
    | (with_reducible apply Within.ite <;> intro _)
    | with_reducible apply Within.next
    | with_reducible apply Within.emit
    | with_reducible apply hostHit_within
    | split

theorem execBar4Write_within (s : State) (h : Within rch s0 s) (p : Port) (off : Nat) (data : List Byte) (bad : Bool) [wage : May rch.age] : WithinOut rch s0 (execBar4Write p off data bad s) := by
  unfold execBar4Write
  repeat' first
    | with_reducible assumption
    | (with_reducible apply Within.ite <;> intro _)
    | with_reducible apply Within.next
    | with_reducible apply Within.hbmWrite
    | with_reducible apply hostHit_within
    | with_reducible exact Within.lit_age
    | extract_lets
    | split
    | with_reducible refine Within.lit_age ?_

end Sys2Proof.Machine
end

