-- ==== Sys2Proof/Tests/Slice0.lean ====
section
/-!
SUPPORT. Tests: ill-formed commands that `Instr.wf` refuses, and, for every obligation, states and operands that meet the
hypotheses of its clauses (`test_witness_…`), with the outcome where it is short to ask for.
-/

namespace Sys2Proof.Tests

-- one test after the other: in parallel their threads' stacks take more memory than the check allows
set_option Elab.async false

open Sys2Proof Sys2Proof.Machine

/-! ### Builders -/

/-- What a test asks of a next state. -/
def okWith (o : Out) (f : State → Bool) : Bool :=
  match o with
  | .next t => f t
  | .fault _ => false
  | .refused _ => false

/-- An operation succeeds, and its result has a property. -/
def goes {ε α : Type} (x : Except ε α) (f : α → Bool := fun _ => true) : Bool :=
  match x with
  | .ok v => f v
  | .error _ => false

/-- A record of `n` bytes with bytes laid at offsets. -/
def lay (n : Nat) (l : List (Nat × List Byte)) : List Byte :=
  l.foldl (fun b x => patch b x.1 x.2) (List.replicate n 0)

/-- A descriptor from its opcode and bytes laid at offsets. -/
def desc (op : Nat) (l : List (Nat × List Byte)) : List Byte := lay 128 ((0, toLe 1 op) :: l)

/-- The module after reset with context 0 ACTIVE and the device virtual addresses below 64 KiB mapped to HBM from
0x10000 on: one page-table entry there points to its own table and serves all five levels; the next 64 KiB are a page of the owner's host at 0x20000. -/
def mapped : State :=
  { ctxs := [(0, { state := .active, rootValid := true, root := 0x10000, engineAllow := BitVec.allOnes 64, priv := 3,
                   semBase := 0x4000, semLog2 := 4, groupTable := 0x6000 })]
    mem := { hbm := [(0x10000, 0x05), (0x10002, 0x01), (0x10008, 0x0D), (0x1000A, 0x02)] } }

/-- A state in which tag 3 of port 0 holds a command. -/
def withCmd (s : State) (c : Cmd) : State := s.updCmd 0 3 fun _ => c

/-- A state with its RCV block replaced. -/
def withRcv (s : State) (f : RcvBlock → RcvBlock) : State := { s with rcv := f s.rcv }

/-- A running command with a descriptor. -/
def run (d : List Byte) : Cmd := { phase := .running, desc := d }

/-- A running command at its place on engine 2. -/
def working (s : State) (c : Cmd) : State :=
  (withCmd s c).updSlot 2 0 fun _ => { state := .admitted, port := 0, tag := 3, opcode := c.op }

/-! ### Well-formed commands: each check refuses a term -/

/-- A packet of 36 header bytes. -/
def pkt (dest src ptype : Nat) (l : List (Nat × List Byte)) (payload : List Byte) : Packet :=
  { dest := dest, src := src, ptype := ptype, detoured := false, detours := 0, fields := lay 36 l
    payload := payload, vc := vcOf ptype }

/-- An item's result with 24 value bytes. -/
def item (fail : Bool) : ItemResult := { fail := fail, failEngines := 0, values := List.replicate 24 0 }

/-- Sizes and values of a bus write; offsets within a record or a function's space (R384). -/
theorem test_wf_writes :
    Instr.wf (.submissionDoorbell 0 0 0 3 0) = false ∧ Instr.wf (.completionRingHead 0 0 0 4 (2 ^ 32)) = false ∧
    Instr.wf (.contextRecordWrite 0 0 0 64 4 0) = false ∧ Instr.wf (.ringRecordWrite 0 0 false 0 32 4 0) = false ∧
    Instr.wf (.ringRecordWrite 0 0 true 64 0 4 0) = false ∧ Instr.wf (.groupRecordWrite 0 0 0 128 4 0) = false ∧
    Instr.wf (.registerWrite 0 1 0x10000 4 0) = false ∧ Instr.wf (.registerWrite 0 0 0x1000000 4 0) = false ∧
    Instr.wf (.registerWrite 0 0 0x400000 4 0x12C) = true := by decide +kernel

/-- BAR4, MEM.INVAL and memory addresses. -/
theorem test_wf_addresses :
    Instr.wf (.memInval 0 0 false (2 ^ 52)) = false ∧ Instr.wf (.bar4Read 0 0 0 false) = false ∧
    Instr.wf (.bar4Read 0 (2 ^ 39) 1 false) = false ∧ Instr.wf (.bar4Write 0 0 [] false) = false ∧
    Instr.wf (.hbmUncorrectableError (384 * 2 ^ 30) none) = false ∧ Instr.wf (.correctedError (.memory 1) 0) = false ∧
    Instr.wf (.correctedError (.memory 1) 0x10000) = true := by decide +kernel

/-- Packets, identities and notices. -/
theorem test_wf_packets :
    Instr.wf (.packetForward 0 (pkt (2 ^ 17) 0 1 [] []) false) = false ∧ Instr.wf (.write 0 (pkt 0 0 3 [] [], false)) = false ∧
    Instr.wf (.read 0 (pkt 0 0 1 [] [], false)) = false ∧ Instr.wf (.writeAck 0 (pkt 0 0 4 [] [], false)) = false ∧
    Instr.wf (.readData 0 (pkt 0 0 2 [] [], false)) = false ∧ Instr.wf (.collUp 0 (pkt 0 0 0x11 [] [], false)) = false ∧
    Instr.wf (.collDown 0 (pkt 0 0 0x10 [] [], false)) = false ∧ Instr.wf (.collDown 0 (pkt 0 0 0x11 [] [], false)) = true ∧
    Instr.wf (.ident 0 ⟨2 ^ 17, 0, 0, 0, 0⟩) = false ∧ Instr.wf (.identAck 0 (2 ^ 17)) = false ∧
    Instr.wf (.notice 0 (⟨256, 0, 0, 0, 0, 0⟩, false)) = false := by decide +kernel

/-- Causes, monitors, items, security requests, updates and the aperture's sizes. -/
theorem test_wf_others :
    Instr.wf (.engineReset 0 0) = false ∧ Instr.wf (.partitionReset 0 0x0E) = false ∧ Instr.wf (.moduleReset 0) = false ∧
    Instr.wf (.powerCycleRequest 0) = false ∧ Instr.wf (.pathDelaySample 0 [60]) = false ∧
    Instr.wf (.monitorSample (.oscillators 0 [])) = false ∧ Instr.wf (.monitorSample (.hbmMargin 0 [])) = false ∧
    Instr.wf (.monitorSample (.peerEye 0 [⟨0, 0, 0, 0⟩])) = false ∧ Instr.wf (.monitorSample (.hostEye 0 [])) = false ∧
    Instr.wf (.windowOpen 0 [{ fail := false, failEngines := 0, values := [] }]) = false ∧
    Instr.wf (.backgroundItemComplete 0 0 0 { fail := false, failEngines := 0, values := [] }) = false ∧
    Instr.wf (.getCertificate .i3c 0 (2 ^ 16) 0) = false ∧ Instr.wf (.challenge .i3c 0 []) = false ∧
    Instr.wf (.keyExchange .i3c 0 []) = false ∧ Instr.wf (.finish .i3c 0 []) = false ∧
    Instr.wf (.firmwareImageWrite (2 ^ 25) [0] false) = false ∧ Instr.wf (.vfEnable 0 17) = false ∧
    Instr.wf (.bar4Resize 0 29) = false ∧ Instr.wf (.bar4Resize 0 40) = false ∧ Instr.wf (.bar4Resize 0 30) = true := by decide +kernel

/-! ### 01: the queue, reset, whole-machine statements -/

theorem test_witness_StepRunsTheFront :
    okWith (step { pending := [.aux3v3Rise, .rstdaa] }) (fun t => t.pending == [.rstdaa]) = true := by decide +kernel

theorem test_witness_IdleStepIsOneHousekeepingCycle :
    State.reset.pending = [] ∧ okWith (step State.reset) (fun t => t.hk == 1) = true ∧
    okWith (step { pwr := { hkRunning := false } }) (fun t => t.hk == 0) = true := by decide +kernel

theorem test_witness_EveryStepKeepsMemoryCanonical :
    Memory.wf mapped.mem.hbm = true ∧ okWith (step { mapped with pending := [.bar4Write 0 8 [1] false] }) (fun t =>
      Memory.wf t.mem.hbm && Memory.get t.mem.hbm 8 == 1) = true := by decide +kernel

theorem test_witness_CommandsLeaveTheQueue :
    okWith (exec .rstdaa { pending := [.aux3v3Rise], pwr := { i3cDynamic := some 9 }, hk := 4 }) (fun t =>
      t.pending == [.aux3v3Rise] && t.pwr.i3cDynamic == none && t.hk == 4) = true := by decide +kernel

theorem test_witness_RetirementAndFusesArePermanent :
    okWith (step { pending := [.hbmUncorrectableError 0 none], boot := { svnFuses := 2 } }) (fun t =>
      (t.stack 0).retired == [0] && t.boot.svnFuses == 2) = true := by decide +kernel

theorem test_witness_SetupLockHoldsWhileReady :
    okWith (step { pending := [.rstdaa], sec := { locked := true, lockedBy := 1 } }) (fun t =>
      t.boot.ready && t.sec.locked && t.sec.lockedBy == 1) = true ∧
    okWith (step { pending := [.hbmTrainingComplete 0x3F 0], boot := { ready := false, phase := 3 } }) (fun t =>
      t.boot.ready) = true := by decide +kernel

/-- A connection of port 1's DOE mailbox with session 2 established. -/
def secured : State := { sec := { conns := [(1, { version := true, capabilities := true, algorithms := true, sessions := [2] })] } }

theorem test_witness_KeysReachAPortOnlyThroughIdeKm :
    secured.secured (.doe 1) (some 2) = true ∧
    okWith (exec (.ideKm (.doe 1) (some 2) 5 [7]) secured) (fun t => (t.port 1).ide == [(5, [7])] && (t.port 0).ide == []) = true ∧
    okWith (exec (.ideKm (.doe 0) (some 2) 5 [7]) secured) (fun t => (t.port 0).ide == []) = true := by decide +kernel

/-! ### 02, 03: work -/

theorem test_witness_NopAndSemOnlyEnd :
    ((withCmd mapped (run (desc 0x00 []))).cmd 0 3).phase = .running ∧ ((withCmd mapped (run (desc 0x00 []))).cmd 0 3).op = 0x00 ∧
    ((withCmd mapped (run (desc 0x0B []))).cmd 0 3).op = 0x0B ∧
    okWith (exec (.sem 0 3) (withCmd mapped (run (desc 0x0B [])))) (fun t => (t.cmd 0 3).phase == .ended) = true := by decide +kernel

/-- A MATMUL of one row, one column and one product, L16, at 0x100, 0x110 and 0x120. -/
def mm1 : List Byte :=
  desc 0x01 [(3, toLe 1 1), (52, toLe 1 1), (56, toLe 4 1), (60, toLe 4 1), (64, toLe 4 1), (80, toLe 8 4),
    (88, toLe 8 0x100), (96, toLe 8 0x110), (104, toLe 8 0x120)]

/-- It runs on engine 2. -/
def atEngine (c : Cmd) (v : Slot) : State :=
  ((withCmd mapped c).updSlot 2 0 fun _ => { v with port := 0, tag := 3, opcode := 1, lastUnit := 1 }).updEng 2 fun g =>
    { g with head := some 0 }

/-- It as a command with its stage copied. -/
def mmCmd (d : List Byte) : Cmd := { phase := .running, desc := d, stages := [{ body := d }], prec := 1, group := 3 }

/-- What a slot on engine 2 needs for its next group. -/
def canGroup (s : State) (st : Nat) : Bool :=
  let v := s.slot 2 0
  let c := s.cmd 0 3
  let x := c.mm st
  let a := x.groupAt (x.unitJ 0) v.group
  s.canForm 2 0 && c.nextTile 2 v == some (st, 0) && decide (v.group < x.partGroups (x.unitJ 0)) &&
    goes ((s.asLanded 2 v).groupResults c.ctx x (c.srcOf st (x.unitC 0)) (x.unitI 0) (x.unitC 0) a.g a.pass) &&
    goes ((s.asLanded 2 v).groupCounts c.ctx x (c.srcOf st (x.unitC 0)) (x.unitI 0) (x.unitC 0) (x.unitJ 0) a (s.lanesOf 2 v st))

/-- A FUSED command of two stages of the same size on engine 2. -/
def fusedAt : State :=
  (working mapped { run (desc 0x02 [(50, toLe 1 2)]) with
    stages := [{ body := mm1 }, { body := mm1 }], prec := 1, group := 3 }).updSlot 2 0 fun v => { v with lastUnit := 2 }

theorem test_witness_MatmulFormsItsNextGroup :
    (let s := atEngine (mmCmd mm1) { state := .admitted }
     (s.slot 2 0).opcode = 1 ∧ canGroup s 0 = true ∧
     okWith (exec (.matmul 2 0) s) (fun t => (t.slot 2 0).hasFormed && (t.slot 2 0).state == .head) = true) ∧
    (fusedAt.cmd 0 3).op = 2 ∧ ((fusedAt.cmdSlots 0 3).find? fun x => fusedAt.canForm x.1 x.2.1).map (·.2.1) = some 0 ∧
    canGroup fusedAt 0 = true ∧
    okWith (exec (.fused 0 3) fusedAt) (fun t => (t.slot 2 0).hasFormed && (t.eng 2).head == some 0) = true := by decide +kernel

theorem test_witness_GroupEntersItsTile :
    let d := patch mm1 64 (toLe 4 33)
    let s := atEngine (mmCmd d) { state := .head, hasFormed := true }
    s.arrayFree 2 0 = true ∧ (s.slot 2 0).hasFormed = true ∧
    (s.slot 2 0).group + 1 < ((s.cmd 0 3).mm 0).partGroups (((s.cmd 0 3).mm 0).unitJ 0) ∧
    okWith (exec (.groupEntry 2 0) s) (fun t => (t.slot 2 0).group == 1) = true := by decide +kernel

theorem test_witness_TilesAreTakenAndDrained :
    (let s := atEngine (mmCmd (patch mm1 51 (toLe 1 1))) { state := .admitted }
     let held (o : CtxNo) (k : Nat) := (s.updNamed 2 0 fun _ => { state := .held, owner := o, cls := k })
     s.accOf (s.slot 2 0) = some 0 ∧ (s.cmd 0 3).phase = .running ∧ (s.slot 2 0).pass = .none ∧ (s.slot 2 0).unit < (s.slot 2 0).lastUnit ∧
     (s.named 2 0).state = .free ∧ okWith (exec (.namedTileArrival 2 0) s) (fun t => (t.named 2 0).state == .busy) = true ∧
     okWith (exec (.namedTileArrival 2 0) (held 1 0)) (fun t => (t.cmd 0 3).status == some stDenied) = true ∧
     ((((s.cmd 0 3).mm 0).continues || ((s.cmd 0 3).mm 0).joins) = false) ∧
     okWith (exec (.namedTileArrival 2 0) (held 0 0)) (fun t => (t.named 2 0).state == .busy) = true) ∧
    (let s := atEngine (mmCmd (patch mm1 51 (toLe 1 5))) { state := .admitted }
     let held (k : Nat) := (s.updNamed 2 0 fun _ => { state := .held, owner := 0, cls := k })
     (((s.cmd 0 3).mm 0).continues || ((s.cmd 0 3).mm 0).joins) = true ∧
     okWith (exec (.namedTileArrival 2 0) (held 5)) (fun t => (t.cmd 0 3).status == some stAccClass) = true ∧
     okWith (exec (.namedTileArrival 2 0) (held 1)) (fun t => (t.named 2 0).state == .busy && (t.cmd 0 3).aux0 == 1) = true) ∧
    (let v : Slot := { state := .head, draining := true, drainTile := { state := .draining } }
     let s := atEngine (mmCmd mm1) v
     let d := (s.drainTileOf 2 0).promote
     s.inReset 2 = false ∧ s.isolated 2 = false ∧ s.partLeft 2 (s.slot 2 0) = 0 ∧ s.drainRoom 2 (s.slot 2 0) = true ∧
     goes (s.drainUnit (s.asLanded 2 (s.slot 2 0)) (s.cmd 0 3) 0 0 d.1 d.2) = true ∧
     okWith (exec (.tileDrain 2 0) s) (fun t => !(t.slot 2 0).draining) = true ∧
     okWith (exec (.tileDrain 2 0) (s.updSlot 2 0 fun v => { v with filled := true })) (fun t => (t.slot 2 0).draining) = true) := by
  decide +kernel

theorem test_witness_MoveCopiesOneRow :
    let d := desc 0x03 [(56, toLe 8 0x0807060504030201), (64, toLe 8 0x100), (72, toLe 4 10), (76, toLe 4 1), (96, toLe 8 4), (104, toLe 1 1)]
    let s := working mapped (run d)
    (s.rowSlot 0 3 0x03).isSome = true ∧ Memory.wf s.mem.hbm = true ∧ goes ((s.asLanded 2 (s.slot 2 0)).moveRow (s.cmd 0 3) 0) (fun b =>
      goes (s.vwrite 0 0x100 b)) = true ∧
    okWith (exec (.move 0 3) s) (fun t => (t.cmd 0 3).phase == .ended && Memory.get t.mem.hbm 0x10101 == 2) = true := by decide +kernel

/-- A VECTOR of one row over no column, a SOLVE of an order 0 system and an UPDATE over no column. -/
theorem test_witness_RowCommandsWorkRowByRow :
    (let s := working mapped (run (desc 0x05 [(72, toLe 4 1), (76, toLe 4 0)]))
     (s.rowSlot 0 3 0x05).isSome = true ∧ goes (s.vecRow 0 3 (s.asLanded 2 (s.slot 2 0)) (s.cmd 0 3) 0) = true ∧
     okWith (exec (.vector 0 3) s) (fun t => (t.cmd 0 3).phase == .ended && (t.slot 2 0).rows == 1) = true) ∧
    (let s := working mapped (run (desc 0x05 []))
     s.noRows 0 3 0x05 = true ∧ okWith (exec (.vector 0 3) s) (fun t => (t.cmd 0 3).phase == .ended) = true) ∧
    (let s := working mapped (run (desc 0x06 [(51, toLe 1 1), (52, toLe 2 1), (56, toLe 4 1), (64, toLe 8 4), (72, toLe 8 0x100),
        (80, toLe 8 0x110), (88, toLe 8 0x120), (96, toLe 8 0x130)]))
     (s.rowSlot 0 3 0x06).isSome = true ∧ goes (s.solveOne 0 3 (s.asLanded 2 (s.slot 2 0)) (s.cmd 0 3) 0) = true ∧
     okWith (exec (.solve 0 3) s) (fun t => (t.cmd 0 3).phase == .ended) = true) ∧
    (let s := working mapped { run (desc 0x08 [(51, toLe 1 1), (64, toLe 8 0x100), (72, toLe 8 0x200), (88, toLe 4 1), (96, toLe 8 4)]) with
        entry := List.replicate 64 0, prog := List.replicate 256 0 }
     (s.rowSlot 0 3 0x08).isSome = true ∧ (s.cmd 0 3).f 50 1 = 0 ∧ (bitOf (fld (s.cmd 0 3).entry 20 1) 1 && (s.cmd 0 3).factor == 0) = false ∧
     goes (s.updateRow 0 3 (s.asLanded 2 (s.slot 2 0)) (s.cmd 0 3) 0) = true ∧ okWith (exec (.update 0 3) s) (fun t => (t.cmd 0 3).phase == .ended) = true) := by
  decide +kernel

theorem test_witness_ConvertWorksRowByRow :
    let d (sid : Nat) := desc 0x04 [(50, toLe 1 1), (51, toLe 1 1), (54, toLe 2 sid), (56, toLe 8 0x100), (64, toLe 8 0x200),
      (88, toLe 4 2), (92, toLe 4 1)]
    (let s := working mapped (run (d 0xFFFF))
     (s.rowSlot 0 3 0x04).isSome = true ∧ goes (s.convRow 0 3 (s.asLanded 2 (s.slot 2 0)) (s.cmd 0 3) 0) = true ∧
     okWith (exec (.convert 0 3) s) (fun t => (t.cmd 0 3).phase == .ended && t.parts == []) = true) ∧
    (let s := working mapped (run (d 1))
     (s.rowSlot 0 3 0x04).isSome = true ∧ goes (s.convRow 0 3 (s.asLanded 2 (s.slot 2 0)) (s.cmd 0 3) 0) = true ∧ okWith (exec (.convert 0 3) s) (fun t => (t.scaleEnt 0 1).reports == 1) = true) := by
  decide +kernel

theorem test_witness_ScaleReadsWritesAndResets :
    let d (sop : Nat) := desc 0x09 [(44, toLe 4 5), (50, toLe 1 sop), (51, toLe 1 2), (52, toLe 2 3), (54, toLe 2 2), (56, toLe 8 0x100)]
    let s (sop : Nat) := working mapped (run (d sop))
    ((s 0).wholeSlot 0 3 0x09).isSome = true ∧
    goes (((s 0).updScales 2 3 (fun _ en => en.access 5) 2).vwrite 0 0x100
      (((s 0).updScales 2 3 (fun _ en => en.access 5) 2).scaleImages 2 3 2)) = true ∧
    okWith (exec (.scale 0 3) (s 0)) (fun t => (t.cmd 0 3).phase == .ended && (t.scaleEnt 2 4).step == 5) = true ∧
    okWith (exec (.scale 0 3) (s 0)) (fun t =>
      let u := withCmd t (run (d 1))
      goes (u.vread 0 0x100 64) (fun b => (List.range 2).all fun i => scaleImageOk (slice b (32 * i) 32)) &&
        okWith (exec (.scale 0 3) u) fun w => (w.cmd 0 3).status == none && (w.scaleEnt 2 3).step == 5) = true ∧
    goes ((s 1).vread 0 0x100 64) (fun b => !(List.range 2).all fun i => scaleImageOk (slice b (32 * i) 32)) = true ∧
    okWith (exec (.scale 0 3) (s 1)) (fun t => (t.cmd 0 3).status == some stBadDescriptor) = true ∧
    okWith (exec (.scale 0 3) (s 2)) (fun t => (t.cmd 0 3).phase == .ended) = true := by decide +kernel

theorem test_witness_RouteAndSetGroupStoreAndEnd :
    (let s := working mapped (run (desc 0x07 [(51, toLe 1 1), (52, toLe 2 2), (56, toLe 8 0x100), (64, toLe 4 16), (68, toLe 4 1),
        (80, toLe 8 0x200), (88, toLe 8 0x300), (96, toLe 8 0x400)]))
     (s.wholeSlot 0 3 0x07).isSome = true ∧ goes (s.routeWork 0 3 (s.asLanded 2 (s.slot 2 0)) (s.cmd 0 3)) = true ∧
     okWith (exec (.route 0 3) s) (fun t => (t.cmd 0 3).phase == .ended) = true) ∧
    (let s := withCmd mapped { run (desc 0x08 [(44, toLe 4 9), (50, toLe 1 1), (52, toLe 2 2)]) with phase := .admission, groupTable := 0x6000 }
     (s.cmd 0 3).op = 0x08 ∧ (s.cmd 0 3).f 50 1 = 1 ∧ s.xlate 0 0x6080 true = .hbm 0x16080 ∧
     goes (s.vwrite 0 0x6080 (patch (slice (s.cmd 0 3).desc 56 64) 24 (toLe 4 9))) = true ∧
     okWith (exec (.setGroup 0 3) s) (fun t => (t.cmd 0 3).phase == .ended && Memory.get t.mem.hbm 0x16098 == 9) = true) ∧
    (let s := withCmd mapped { run (desc 0x08 [(50, toLe 1 1)]) with phase := .admission, groupTable := 0x10000 }
     s.xlate 0 0x10000 true = .host 0 0x20000 ∧
     okWith (exec (.setGroup 0 3) s) (fun t => (t.cmd 0 3).status == some stBadDescriptor) = true) := by decide +kernel

/-- The first stage opens at once, the second once the first has drained its tile; a FUSED at rest without a slot waits. -/
theorem test_witness_FusedWorksTileByTile :
    (let c := fusedAt.cmd 0 3
     let d := { c with tilesDrained := [(0, 1)], tilesFormed := [(0, 1)] }
     c.stageOpen 0 0 = true ∧ c.stageOpen 1 0 = false ∧ d.stageOpen 1 0 = true ∧ d.stageOpen 0 1 = false ∧
     c.nextTile 2 (fusedAt.slot 2 0) = some (0, 0) ∧ (fusedAt.slot 2 0).atStart = true ∧
     d.nextTile 2 (fusedAt.slot 2 0) = some (1, 0) ∧ d.nextTile 2 { fusedAt.slot 2 0 with group := 1, stage := 1 } = some (1, 0) ∧
     ({ fusedAt.slot 2 0 with group := 1, stage := 1 } : Slot).atStart = false) ∧
    (let s := withCmd mapped (fusedAt.cmd 0 3)
     s.cmdSlots 0 3 = [] ∧ okWith (exec (.fused 0 3) s) (fun t => t == s) = true) := by decide +kernel

/-! ### 04: control commands -/

/-- Port 0 with a second command under tag 4. -/
def withTwo (s : State) (c d : Cmd) : State := (withCmd s c).updCmd 0 4 fun _ => d

theorem test_witness_CancelStopsWhatItSelects :
    (let s := withTwo mapped (run (desc 0x0C [])) { phase := .ordering }
     (s.cmd 0 3).op = 0x0C ∧ (s.cmd 0 3).progress = 0 ∧ (s.cmd 0 4).phase ≠ .free ∧ (s.cmd 0 3).selects (s.cmd 0 4) = true ∧
     okWith (exec (.cancel 0 3) s) (fun t => (t.cmd 0 4).status == some stCancelled && (t.cmd 0 4).phase == .ended) = true) ∧
    (let s := withTwo mapped { run (desc 0x0C []) with progress := 1 } { phase := .ended }
     okWith (exec (.cancel 0 3) s) (fun t => (t.cmd 0 3).phase == .ended) = true) ∧
    (let s := withTwo mapped { run (desc 0x0C []) with progress := 1 } { phase := .ended, cancellers := [(0, 3, 0)] }
     (0, 3, (s.cmd 0 3).order) ∈ (s.cmd 0 4).cancellers ∧ okWith (exec (.cancel 0 3) s) (fun t => t == s) = true) ∧
    (let v : Slot := { state := .admitted, port := 0, tag := 3, opcode := 1, lastUnit := 2, stopping := true }
     let s := (withCmd mapped (mmCmd mm1)).updSlot 2 0 fun _ => v
     s.cmdSlots 0 3 = [(2, 0, v)] ∧ s.mayStop 2 v = true ∧ (s.cmd 0 3).allFilled 2 v = false ∧
     okWith (exec (.commandStopAtTile 0 3 2) s) (fun t => (t.cmd 0 3).phase == .cancelling) = true ∧
     okWith (exec (.commandStopAtTile 0 3 2) (s.updSlot 5 1 fun _ => { v with stopping := false })) (fun t =>
       (t.slot 2 0).stopped && (t.cmd 0 3).phase == .running) = true ∧
     okWith (exec (.commandStopAtTile 0 3 2) (s.updSlot 2 0 fun v => { v with unit := 2 })) (fun t =>
       (t.cmd 0 3).phase == .ended && (t.cmd 0 3).status == none) = true) := by decide +kernel

theorem test_witness_SelftestQueuesItsItemsAndReports :
    (let s := withCmd mapped (run (desc 0x0F [(50, toLe 2 1), (52, toLe 1 0x81), (56, toLe 8 0x800)]))
     windowTest ((s.cmd 0 3).f 50 2) = true ∧ (s.cmd 0 3).f 50 2 ≠ 0x20 ∧ (s.cmd 0 3).progress = 0 ∧
     okWith (exec (.selftest 0 3) s) (fun t => (t.part 7).items.length == 1 && (t.part 1).items == []) = true) ∧
    (let o : ItemOut := { result := 1, windows := 1, preempted := false, failEngines := 2, values := [] }
     let s := withCmd mapped { run (desc 0x0F [(50, toLe 2 1), (52, toLe 1 1), (56, toLe 8 0x800)]) with progress := 1, outs := [(0, o)] }
     ((s.cmd 0 3).testKeys.all fun k => (s.cmd 0 3).outs.any (·.1 == k)) = true ∧ Memory.wf s.mem.hbm = true ∧
     goes (s.vwrite 0 0x800 ((s.cmd 0 3).testRecord 1 s.time48)) = true ∧
     okWith (exec (.selftest 0 3) s) (fun t => (t.cmd 0 3).aux0 == 1 && (t.cmd 0 3).aux1 == 1 && t.age.seq == 1) = true) := by
  decide +kernel

/-- A CHECKPOINT of one tensor of 16 bytes at 0x100 on engine 2, `landed` bytes of which have landed. -/
def savingAt (landed written : Nat) (f : Cmd → Cmd) : State :=
  let c : Cmd := { run (desc 0x0D [(64, toLe 8 0x2000), (72, toLe 4 (2 ^ 31)), (80, toLe 8 4096)]) with
    engines := 4, snap := { tensors := [(0x100, 16)], tables := [[], [], []] } }
  ((working mapped (f c)).updStrm 2 0 fun x => { x with state := .issuing, port := 0, tag := 3, role := 0, kind := 0, position := landed }).updStrm 2 1
    fun x => { x with state := .issuing, port := 0, tag := 3, role := 1, kind := 1, position := written }

theorem test_witness_CheckpointGoesSectionBySection :
    let due (s : State) := s.mem.awaited.find? fun g => s.mem.marked.contains (tagField 0 3, g)
    let slot (s : State) := (s.snapSlot 0 3 0x0D (s.cmd 0 3).sectionAt).map (·.1)
    (let s := { savingAt 0 0 id with mem := { mapped.mem with marked := [(tagField 0 3, 1)], awaited := [1] } }
     s.peer.waiting = [] ∧ slot s = some 2 ∧ due s = some 1 ∧ goes (s.readEarly 0 3 1) = true ∧
     okWith (exec (.checkpoint 0 3) s) (fun t => t.mem.marked == [] && t.mem.awaited == []) = true) ∧
    (let s := savingAt 16 0 fun c => { c with snap := { c.snap with cur := List.replicate 16 0 } }
     slot s = some 2 ∧ due s = none ∧ (s.cmd 0 3).progress < (s.cmd 0 3).snapSecs ∧
     (s.cmd 0 3).section_ = some (List.replicate 16 0) ∧ goes (s.saveSection 0 3 2 (List.replicate 16 0)) = true ∧
     okWith (exec (.checkpoint 0 3) s) (fun t => (t.cmd 0 3).progress == 1 && (t.cmd 0 3).snap.cur == []) = true) ∧
    (let s := savingAt 16 0 id
     (s.cmd 0 3).section_ = none ∧ (s.cmd 0 3).snapPiece.2 = 16 ∧ s.landedTo (s.roleStrm 2 0 3 0) = 16 ∧ goes (s.readPiece 0 3) = true ∧
     okWith (exec (.checkpoint 0 3) s) (fun t => (t.cmd 0 3).snap.cur.length == 16 && (t.cmd 0 3).progress == 0) = true ∧
     okWith (exec (.checkpoint 0 3) (savingAt 15 0 id)) (fun t => t == savingAt 15 0 id) = true) := by decide +kernel

/-- The header is made once its sections are acknowledged, and the work ends once it is. -/
theorem test_witness_CheckpointMakesItsHeader :
    let at_ (pos n : Nat) : State := savingAt 16 pos fun c => { c with progress := n, snap := { c.snap with digest := 2 ^ 32 + 7 } }
    (let s := at_ 16 4
     (s.snapSlot 0 3 0x0D (s.cmd 0 3).sectionAt).isSome = true ∧ (s.cmd 0 3).progress = (s.cmd 0 3).snapSecs ∧
     (s.cmd 0 3).digestOnly = false ∧ (s.cmd 0 3).atPeer = false ∧ s.snapAcked 0 3 = true ∧ (at_ 15 4).snapAcked 0 3 = false) ∧
    (let s := at_ (16 + 4096) 5
     s.snapAcked 0 3 = true ∧ okWith (exec (.checkpoint 0 3) s) (fun t =>
       (t.cmd 0 3).aux0 == 7 && (t.cmd 0 3).aux1 == 1 && (t.cmd 0 3).phase == .ended && t.mem == s.mem) = true) := by decide +kernel

theorem test_witness_RestoreGoesSectionBySection :
    let c : Cmd := { run (desc 0x0E [(72, toLe 4 (2 ^ 31))]) with engines := 4, snap := { header := [1] } }
    let s := working mapped c
    (s.snapSlot 0 3 0x0E (s.cmd 0 3).loadAt).isSome = true ∧ fld (s.cmd 0 3).snap.header 6 2 ≤ (s.cmd 0 3).progress ∧ (s.cmd 0 4).op ≠ 0x0A ∧
    okWith (exec (.restore 0 3) s) (fun t => (t.cmd 0 3).phase == .ended && (t.cmd 0 3).status == none) = true ∧
    okWith (exec (.restore 0 3) (working mapped { c with snap := { c.snap with digest := 1 } })) (fun t =>
      (t.cmd 0 3).status == some stFaultAbort) = true ∧
    (let h := lay 96 [(6, toLe 2 1), (64, toLe 1 1), (72, toLe 8 4096), (80, toLe 8 16), (88, toLe 8 0x100), (68, toLe 4 (crc32 (List.replicate 16 0)))]
     let u := (working mapped { c with snap := { header := h } }).updStrm 2 0 fun x =>
       { x with state := .issuing, port := 0, tag := 3, role := 0, kind := 0, position := 4112 }
     let x := secEntry (u.cmd 0 3).snap.header 0
     (u.snapSlot 0 3 0x0E (u.cmd 0 3).loadAt).isSome = true ∧
     (u.cmd 0 3).progress < fld (u.cmd 0 3).snap.header 6 2 ∧ x.1 = 1 ∧ crc32 (List.replicate 16 0) = x.2.1 ∧
     goes (u.loadImage 2 0 3 ((u.cmd 0 3).loadPos 2 0) x.2.2.1 x.2.2.2.1) (· == some (List.replicate 16 0)) = true ∧
     goes (u.vwrite 0 x.2.2.2.2 (List.replicate 16 0)) = true ∧
     okWith (exec (.restore 0 3) u) (fun t => (t.cmd 0 3).progress == 1) = true) := by decide +kernel

/-- A sum of one L16 element over group 5. -/
def collCmd : Cmd := run (desc 0x0A [(50, toLe 1 1), (51, toLe 1 1), (52, toLe 2 5), (56, toLe 8 0x100), (64, toLe 8 0x200), (72, toLe 8 1), (80, toLe 8 4)])

theorem test_witness_CollectiveStartsUnderItsGroupRecord :
    let g : GroupRec := { id := 5, state := 1, seq := 8, epoch := 2, digest := 77 }
    let s := ((working mapped { collCmd with chosen := some 2 }).updEng 2 fun e => { e with groups := [(0, g)] }).updStrm 2 0 fun x =>
      { x with state := .issuing, port := 0, tag := 3, role := 0, length := 2, position := 2 }
    s.running 0 3 0x0A = true ∧ s.collIn 0 3 = true ∧ (s.cmd 0 3).coll.active = false ∧ s.recordOf (s.cmd 0 3) = some g ∧
    s.collBehind (s.cmd 0 3) = false ∧ (s.cmd 0 3).cfmt ≠ 0 ∧ (s.cmd 0 3).sparse = false ∧ s.peer.waiting = [] ∧
    goes (s.srcInputs (s.cmd 0 3)) = true ∧ okWith (exec (.collective 0 3) s) (fun t => (t.cmd 0 3).coll.gseq == 8) = true ∧
    (s.updStrm 2 0 fun x => { x with position := 1 }).collIn 0 3 = false := by decide +kernel


/-! ### 05: the pipeline -/

/-- Port 0 with ring 1 ACTIVE over context 0, its descriptors at a base address, two of them waiting, and completion ring 0 ACTIVE. -/
def ringed (base : Nat) : State :=
  (mapped.updRing 0 1 fun _ => { state := .active, log2Len := 4, base := base, head := 5, tail := 7 }).updCq 0 0 fun _ =>
    { state := .active, base := 0x3000, head := 2, tail := 2 }

theorem test_witness_FetchTakesATagAndTheDescriptor :
    (let s := ringed 0x1000
     (s.cmd 0 3).phase = .free ∧ s.nextRing 0 = some 1 ∧ goes (s.vread 0 (0x1000 + 128 * 5) 128) = true ∧
     okWith (exec (.descriptorFetch 0 3) s) (fun t => (t.cmd 0 3).phase == .fetched && (t.ring 0 1).head == 6) = true) ∧
    (let s := ringed 0x1000000
     s.nextRing 0 = some 1 ∧ goes (s.vread 0 (0x1000000 + 128 * 5) 128) = false ∧
     okWith (exec (.descriptorFetch 0 3) s) (fun t => (t.ring 0 1).state == .error && (t.ring 0 1).err == 2) = true) := by decide +kernel

/-- Each outcome of the checks: what a fetched command's descriptor, context and state lead to. -/
theorem test_witness_ChecksEndOrPassACommand :
    let s (d : List Byte) := withCmd mapped { phase := .fetched, desc := d }
    let cc (u : State) := u.inherit (u.cmd 0 3)
    let passes (u : State) := headerOk (cc u) && recordAddrsOk (cc u) && bodyOwnOk (cc u)
    let rules (u : State) := goes (u.fetchRecords (cc u)) fun c => bodyOk c && u.semOk c && u.collOk c
    let ends (u : State) (st : Nat) := okWith (exec (.descriptorChecks 0 3) u) fun t => (t.cmd 0 3).status == some st
    let wait := desc 0x0B [(2, toLe 1 8)]
    let st := desc 0x0F [(50, toLe 2 1), (52, toLe 1 1), (56, toLe 8 0x800)]
    let mv := desc 0x03 [(56, toLe 8 0x100), (64, toLe 8 0x200), (72, toLe 4 8), (76, toLe 4 1), (80, toLe 8 8), (88, toLe 8 8), (96, toLe 8 4)]
    ends ((s []).updCmd 0 3 fun c => { c with status := some stCancelled }) stCancelled = true ∧
    passes (s (desc 0x20 [])) = false ∧ ends (s (desc 0x20 [])) stBadDescriptor = true ∧
    passes (s (desc 0x0B [])) = true ∧ rules (s (desc 0x0B [])) = false ∧ ends (s (desc 0x0B [])) stBadDescriptor = true ∧
    (let u := (s wait).updCtx 0 fun x => { x with semBase := 0x10000 }
     passes u = true ∧ rules u = true ∧ u.wordHost (cc u) = true ∧ ends u stBadDescriptor = true) ∧
    (let u := (s st).updCtx 0 fun x => { x with priv := 0 }
     passes u = true ∧ rules u = true ∧ u.wordHost (cc u) = false ∧ u.denied (cc u) = true ∧ ends u stDenied = true) ∧
    (let u := withRcv (s mv) fun r => { r with fence := 4 }
     passes u = true ∧ rules u = true ∧ u.denied (cc u) = false ∧ u.namesIsolated (cc u) = true ∧ ends u stDropped = true) ∧
    passes (s mv) = true ∧ rules (s mv) = true ∧ (s mv).wordHost (cc (s mv)) = false ∧ (s mv).denied (cc (s mv)) = false ∧
    (s mv).namesIsolated (cc (s mv)) = false ∧ (s mv).wordFault (cc (s mv)) = none ∧
    okWith (exec (.descriptorChecks 0 3) (s mv)) (fun t => (t.cmd 0 3).phase == .ordering) = true := by decide +kernel

theorem test_witness_OrderingSemaphoreAndPredicate :
    (let s := withTwo mapped { phase := .ordering, desc := desc 0x0B [(2, toLe 1 8)], order := 1 } {}
     s.ordered (s.cmd 0 3) = true ∧ okWith (exec (.orderingRelease 0 3) s) (fun t => (t.cmd 0 3).phase == .semaphore) = true) ∧
    (let s := withTwo mapped { phase := .ordering, desc := desc 0x00 [(1, toLe 1 1)], order := 1 } { phase := .running, order := 0 }
     s.ordered (s.cmd 0 3) = false ∧ okWith (exec (.orderingRelease 0 3) s) (fun t => (t.cmd 0 3).phase == .ordering) = true) ∧
    (let s (v : Nat) := withCmd mapped { phase := .semaphore, desc := desc 0x0B [(2, toLe 1 8), (4, toLe 2 1), (8, toLe 8 v)] }
     (s 0).xlate 0 0x4008 false = .hbm 0x14008 ∧
     okWith (exec (.semaphoreWaitMet 0 3) (s 0)) (fun t => (t.cmd 0 3).phase == .admission) = true ∧
     okWith (exec (.semaphoreWaitMet 0 3) (s 1)) (fun t => (t.cmd 0 3).phase == .semaphore) = true ∧
     okWith (exec .semaphoreRetest (s 0)) (fun t => (t.cmd 0 3).phase == .admission) = true ∧
     (let u := (s 0).updCtx 0 fun x => { x with semBase := 0x10000 }
      u.xlate 0 0x10008 false = .host 0 0x20008 ∧
      okWith (exec (.semaphoreWaitMet 0 3) u) (fun t => (t.cmd 0 3).status == some stFaultAbort && (t.cmd 0 3).noSignal) = true)) ∧
    (let s (op va : Nat) := withCmd mapped { phase := .predicate, desc := desc 0x03 [(2, toLe 1 op), (24, toLe 8 va)] }
     (s 1 0x100).xlate 0 0x100 false = .hbm 0x10100 ∧ predTrue 1 0 0 = true ∧ predTrue 2 0 0 = false ∧
     okWith (exec (.predicateRead 0 3) (s 1 0x100)) (fun t => (t.cmd 0 3).phase == .admission) = true ∧
     okWith (exec (.predicateRead 0 3) (s 2 0x100)) (fun t => (t.cmd 0 3).predSkipped) = true ∧
     okWith (exec (.predicateRead 0 3) (s 2 0x10000)) (fun t => (t.cmd 0 3).status == some stFaultAbort) = true) := by decide +kernel

theorem test_witness_AdmissionTakesASlotOfEveryEngine :
    let mv := desc 0x03 [(56, toLe 8 0x100), (64, toLe 8 0x200), (72, toLe 4 8), (76, toLe 4 1), (80, toLe 8 8), (88, toLe 8 8), (96, toLe 8 4)]
    let s (d : List Byte) := withCmd mapped { phase := .admission, desc := d }
    ((s (desc 0 [])).cmd 0 3).needsEngine = false ∧ okWith (exec (.admission 0 3) (s (desc 0 []))) (fun t => (t.cmd 0 3).phase == .running) = true ∧
    (let u := withRcv (s mv) fun r => { r with fence := 4 }
     u.enginesUsed (u.cmd 0 3) = [2] ∧ u.isolated 2 = true ∧
     okWith (exec (.admission 0 3) u) (fun t => (t.cmd 0 3).status == some stDropped) = true) ∧
    (let u := (s mv).updEng 2 fun g => { g with cfgPending := some (14, 14) }
     u.tooLarge (u.cmd 0 3) [2] = false ∧ u.room (u.cmd 0 3) [2] = false ∧ okWith (exec (.admission 0 3) u) (fun t => t == u) = true) ∧
    (s mv).isolated 2 = false ∧ (s mv).tooLarge ((s mv).cmd 0 3) [2] = false ∧ (s mv).room ((s mv).cmd 0 3) [2] = true ∧
    okWith (exec (.admission 0 3) (s mv)) (fun t => (t.eng 2).admitCount == 1 && (t.slot 2 0).state == .admitted) = true := by decide +kernel

/-- Slots of 4 MiB are more than an engine holds. -/
theorem test_witness_AdmissionTooLarge :
    let mv := desc 0x03 [(56, toLe 8 0x100), (64, toLe 8 0x200), (72, toLe 4 8), (76, toLe 4 1), (80, toLe 8 8), (88, toLe 8 8), (96, toLe 8 4)]
    let s := (withCmd mapped { phase := .admission, desc := mv }).updEng 2 fun g => { g with minLog2 := 22 }
    s.tooLarge (s.cmd 0 3) [2] = true ∧ okWith (exec (.admission 0 3) s) (fun t => (t.cmd 0 3).status == some stWorkset) = true := by
  decide +kernel

theorem test_witness_VisibilitySignalsAndReturnsWhatItHeld :
    let s := withCmd mapped { phase := .ended, desc := desc 0x0B [(2, toLe 1 0x10), (6, toLe 2 1), (16, toLe 8 9)] }
    Memory.wf s.mem.hbm = true ∧ s.drains 0 3 = false ∧ (s.ctx 0).state ≠ .aborting ∧ (s.cmd 0 3).signals = true ∧
    s.xlate 0 0x4008 true = .hbm 0x14008 ∧ ((List.range 8).all fun i => s.served (0x14008 + i)) = true ∧
    okWith (exec (.commandVisibility 0 3) s) (fun t =>
      (t.cmd 0 3).phase == .record && leNat (t.hbmRead 0x14008 8) == 9 && (t.cmd 0 3).signalled) = true ∧
    (let u := withCmd mapped { phase := .ended, desc := desc 0 [] }
     (u.cmd 0 3).signals = false ∧ okWith (exec (.commandVisibility 0 3) u) (fun t => t.mem == u.mem) = true) := by decide +kernel

theorem test_witness_RecordsAreWrittenOrDiscarded :
    let s (q : Cq) := ((withCmd (ringed 0x1000) { phase := .record, ring := 1, desc := desc 0 [] })).updCq 0 0 fun _ => q
    let q : Cq := { state := .active, base := 0x3000, head := 2, tail := 2 }
    (s q).cqOf ((s q).cmd 0 3) = (0, 0) ∧ ((s q).ctx 0).state ≠ .aborting ∧ (s q).xlate 0 (0x3000 + 64) true = .hbm 0x13040 ∧ q.full = false ∧
    okWith (exec (.completionRecordWrite 0 3) (s q)) (fun t => (t.cmd 0 3).phase == .free && (t.cq 0 0).tail == 3) = true ∧
    ({ q with tail := 18 } : Cq).full = true ∧
    okWith (exec (.completionRecordWrite 0 3) (s { q with tail := 18 })) (fun t => (t.cmd 0 3).phase == .record) = true ∧
    okWith (exec (.completionRecordWrite 0 3) (s { q with state := .error })) (fun t => (t.cq 0 0).discarded == 1) = true ∧
    okWith (exec (.completionRecordWrite 0 3) (s { q with state := .disabled })) (fun t => t == s { q with state := .disabled }) = true ∧
    (s { q with base := 0x1000000 }).xlate 0 (0x1000000 + 64) true = .fault 1 ∧
    okWith (exec (.completionRecordWrite 0 3) (s { q with base := 0x1000000 })) (fun t => (t.cq 0 0).state == .error) = true := by decide +kernel

/-- TAIL at HEAD + 2^LOG2_LEN is within the ring, one more is beyond it, one behind TAIL is behind it. -/
theorem test_witness_DoorbellsAndHeads :
    let s := ringed 0x1000
    s.ringHolder 0 1 = 0 ∧ okWith (exec (.submissionDoorbell 0 0 1 8 21) s) (fun t => (t.ring 0 1).tail == 21) = true ∧
    okWith (exec (.submissionDoorbell 0 0 1 8 22) s) (fun t => (t.ring 0 1).err == 1) = true ∧
    okWith (exec (.submissionDoorbell 0 0 1 8 6) s) (fun t => (t.ring 0 1).err == 4 && (t.cq 0 0).raised) = true ∧
    okWith (exec (.submissionDoorbell 0 0 1 4 21) s) (fun t => t == s) = true ∧
    (let u := s.updCq 0 0 fun q => { q with tail := 4, raised := true, modCount := 3, modTime := 5 }
     okWith (exec (.completionRingHead 0 0 0 4 4) u) (fun t => (t.cq 0 0).head == 4 && !(t.cq 0 0).raised) = true ∧
     okWith (exec (.completionRingHead 0 0 0 4 5) u) (fun t => t == u) = true ∧
     okWith (exec (.modTimeExpiry 0 0) u) (fun t => t == u) = true ∧
     okWith (exec (.modTimeExpiry 0 0) (u.updCq 0 0 fun q => { q with raised := false })) (fun t => (t.cq 0 0).raised) = true) := by decide +kernel

/-! ### 06: streams -/

theorem test_witness_ScaleEntriesAndTablesAreKept :
    laterStep 5 ((mapped.scaleEnt 1 9).step) = true ∧ laterStep 0 ((mapped.scaleEnt 1 9).step) = false ∧
    okWith (exec (.scaleTrackerAccess 1 9 5 none) mapped) (fun t => (t.scaleEnt 1 9).step == 5) = true ∧
    okWith (exec (.scaleTrackerAccess 1 9 5 (some (some 3, 2))) mapped) (fun t => (t.scaleEnt 1 9).reports == 1) = true := by decide +kernel

/-- A serial MATMUL of one INT8 row and column on engine 2, whose builder starts. -/
theorem test_witness_ATableIsBuilt :
    let s := atEngine { mmCmd (patch (patch mm1 3 (toLe 1 5)) 50 (toLe 1 0x88)) with phase := .running } { state := .head }
    (match s.serialAt 2 with
     | some w =>
       let c := s.cmd 0 3
       let x := c.mm w.stage
       let b := s.builderFor 2 w
       match fillAt x w.units 0 b.next with
       | some r => decide (b.next ≤ w.current x + 1) && !s.inReset 2 && !s.isolated 2 && s.bankIn 2 w r.1 r.2.1 r.2.2 &&
           goes ((s.asLanded 2 w.slot).bankOf c.ctx x (c.srcOf w.stage (x.unitC r.2.1)) r.2.1 r.2.2 b.lo)
       | none => false
     | none => false) = true ∧
    okWith (exec (.tableBuild 2) s) (fun t => (t.eng 2).builder == some { port := 0, tag := 3, stage := 0, next := 1, lo := 0 }) = true := by
  decide +kernel


/-- The state that a command leaves. -/
def after (c : Instr) (s : State) : State :=
  match exec c s with
  | .next t => t
  | .fault _ => s
  | .refused _ => s

/-- A MATMUL of one element admitted to engine 2, and one that is admitted after it under tag 4. -/
def oneAdmitted : State := after (.admission 0 3) (withCmd mapped { mmCmd mm1 with phase := .admission })
def twoAdmitted : State := after (.admission 0 4) (oneAdmitted.updCmd 0 4 fun _ => { mmCmd mm1 with phase := .admission })

/-- The second's operands are in, the first's are not. -/
def secondReady : State := twoAdmitted.updEng 2 fun g =>
  { g with head := some 0, streams := g.streams.map fun x => (x.1, if x.2.tag = 4 then { x.2 with position := x.2.length } else x.2) }

theorem test_witness_TaskSwitchesParkAndBringBack :
    (let s := secondReady
     (s.eng 2).head = some 0 ∧ s.lateData 2 (s.slot 2 0) = true ∧ s.betweenSteps (s.slot 2 0) = true ∧ s.dbg.quiesce.getLsbD 2 = false ∧
     s.earliest 2 ((List.finRange 4).filter fun k => k != 0 && s.readyFor 2 k) = some 1 ∧
     okWith (exec (.taskSwitch 2) s) (fun t => (t.eng 2).head == some 1 && (t.slot 2 0).state == .parked) = true) ∧
    (let s := twoAdmitted.updEng 2 fun g => { g with head := some 0 }
     s.lateData 2 (s.slot 2 0) = true ∧ s.betweenSteps (s.slot 2 0) = true ∧
     s.earliest 2 ((List.finRange 4).filter fun k => k != 0 && s.readyFor 2 k) = none ∧
     okWith (exec (.taskSwitch 2) s) (fun t => (t.eng 2).head == some 0) = true) ∧
    (let s := (secondReady.updSlot 2 1 fun v => { v with state := .parked }).updEng 2 fun g => { g with head := none }
     s.earliest 2 ((List.finRange 4).filter fun k => (s.slot 2 k).state == .parked && s.readyFor 2 k) = some 1 ∧
     okWith (exec (.switchBack 2) s) (fun t => (t.eng 2).head == some 1) = true) ∧
    (let s := secondReady.updEng 2 fun g => { g with
       head := some 1, streams := g.streams.map fun x => (x.1, { x.2 with position := x.2.length })
       slots := g.slots.map fun v => (v.1, if v.1 = 0 then { v.2 with state := .parked } else v.2) }
     s.earliest 2 (((List.finRange 4).filter fun k => (s.slot 2 k).state == .parked && s.readyFor 2 k).filter fun k =>
       decide ((s.slot 2 k).admitSeq < (s.slot 2 1).admitSeq)) = some 0 ∧ (s.slot 2 1).atStart = true ∧
     okWith (exec (.switchBack 2) s) (fun t => (t.eng 2).head == some 0 && (t.slot 2 1).state == .parked) = true) := by decide +kernel

theorem test_witness_StreamsIssueLandAndRelease :
    partOf 2 = 0 ∧ (oneAdmitted.part 0).window = false ∧ oneAdmitted.winner 0 = some (2, 0) ∧
    (oneAdmitted.nextReq 2 (oneAdmitted.strm 2 0)).any (fun r => decide (r.1 < peerBase)) = true ∧
    (let s := after (.streamRequestGrant 0) oneAdmitted
     (s.strm 2 0).reqs.length = 1 ∧ (s.strm 2 0).isRead = true ∧ ((s.strm 2 0).reqs.all fun r => !r.melt && !r.reclaim && r.txn.isNone) = true ∧
     okWith (exec (.streamReadLanded 2 0 0) s) (fun t => (t.strm 2 0).landed == (s.strm 2 0).position && (t.strm 2 0).reqs == []) = true) ∧
    (let s := after .semaphoreRetest (after (.streamRequestGrant 7) oneAdmitted)
     s.winner 7 = none ∧ (s == oneAdmitted) = true) ∧
    (let s : State := mapped.updStrm 2 1 fun _ => { state := .issuing, kind := 1, reqs := [{ queue := 0, off := 0, bytes := 64 }] }
     (s.strm 2 1).isRead = false ∧ okWith (exec (.streamWriteAcknowledged 2 1 0) s) (fun t => (t.strm 2 1).landed == 64) = true) ∧
    (let s (k : Nat) (r : Req) : State := mapped.updStrm 2 1 fun _ => { state := .melting, kind := k, reqs := [r] }
     let m := s 0 { queue := 0, off := 0, bytes := 64, melt := true }
     okWith (exec (.streamReadLanded 2 1 0) m) (fun t => (t.strm 2 1).meltBytes == 64 && (t.strm 2 1).landed == 0) = true ∧
     (let x (k : Nat) := s k { queue := 8, off := 0, bytes := 64, txn := some 9 }
      okWith (exec (.streamReadLanded 2 1 0) (x 0)) (fun t => t == x 0) = true ∧
      okWith (exec (.streamWriteAcknowledged 2 1 0) (x 1)) (fun t => t == x 1) = true)) ∧
    (let s : State := mapped.updStrm 2 1 fun _ => { state := .issuing, kind := 0, length := 40000, position := 20000 }
     let next := min 40000 ((0 / 2 ^ (s.eng 2).minLog2 + 1) * 2 ^ (s.eng 2).minLog2)
     (s.strm 2 1).isRead = true ∧ s.starved 2 1 = false ∧ (s.strm 2 1).consumed ≠ next ∧ next ≤ s.releasable 2 (s.strm 2 1) ∧
     okWith (exec (.slotRelease 2 1) s) (fun t => (t.strm 2 1).consumed == 16384) = true ∧
     okWith (exec (.rateWindowExpiry 2) (after (.slotRelease 2 1) s)) (fun t => (t.strm 2 1).rate == 16384) = true) ∧
    (let c := mmCmd (patch (patch mm1 56 (toLe 4 200)) 64 (toLe 4 300))
     let s := (after (.admission 0 3) ((withCmd mapped { c with phase := .admission }).updEng 2 fun g => { g with minLog2 := 8 })).updSlot 2 3 fun v => { v with state := .admitted, workset := 6029 }
     let u (g : Nat) := (s.updStrm 2 1 fun x => { x with landed := 256, position := 256, cap := 256 }).updSlot 2 0 fun v =>
       { v with group := g, begun := true }
     (u 16).starved 2 1 = true ∧ ((u 16).strm 2 1).isRead = true ∧ ((u 16).strm 2 1).peloton = 0 ∧
     ((u 16).giveUpKept 2 1).releasable 2 (((u 16).giveUpKept 2 1).strm 2 1) = 256 ∧
     okWith (exec (.slotRelease 2 1) (u 16)) (fun t => (t.strm 2 1).refetch == [1] && (t.strm 2 1).consumed == 256) = true ∧
     ((u 0).giveUpKept 2 1).releasable 2 (((u 0).giveUpKept 2 1).strm 2 1) = 0 ∧
     okWith (exec (.slotRelease 2 1) (u 0)) (fun t => t == u 0) = true) := by decide +kernel

/-- Address 0x20000 is not mapped, 0x10000 is a host page. -/
theorem test_witness_StreamFaultsHaltResumeAndMelt :
    let mv := desc 0x03 [(56, toLe 8 0x20000), (64, toLe 8 0x200), (72, toLe 4 8), (76, toLe 4 1), (80, toLe 8 8), (88, toLe 8 8), (96, toLe 8 4)]
    let s := after (.admission 0 3) (withCmd mapped { phase := .admission, desc := mv })
    let x := s.strm 2 0
    x.state = .issuing ∧ x.kind ≠ 3 ∧ s.standing 2 0 ≠ 2 ∧ x.peloton = 0 ∧ (s.nextReq 2 x).any (fun r => decide (r.1 < handBase)) = true ∧
    s.xlate (s.cmd x.port x.tag).ctx 0x20000 false = .fault 1 ∧
    okWith (exec (.streamTranslationFault 2 0) s) (fun t => (t.strm 2 0).state == .halted && (t.strm 2 0).faultKind == 1) = true ∧
    (let u := withCmd mapped { phase := .cancelling }
     u.drains 0 3 = false ∧ ((u.cmdSlots 0 3).any fun y => u.readsInFlight y.1 0 3) = false ∧
     okWith (exec (.meltComplete 0 3) u) (fun t => (t.cmd 0 3).phase == .ended) = true) ∧
    (let u := ((withCmd mapped { phase := .cancelling }).updSlot 2 0 fun _ => { state := .cancelling, tag := 3 }).updStrm 2 0 fun _ =>
       { state := .melting, tag := 3, reqs := [{ queue := 0, off := 0, bytes := 8 }] }
     u.drains 0 3 = false ∧ ((u.cmdSlots 0 3).any fun y => u.readsInFlight y.1 0 3) = true) := by decide +kernel

/-- Page requests of a stream, a fetch, a step 5 and a record, and their responses. -/
theorem test_witness_PageResponses :
    let q (w : PriWait) : State := { mapped with mem := { mapped.mem with pri := [{ wait := w, page := 0x20000, va := 0x10000, w := false }] } }
    let halted := (q (.stream 2 0 9)).updStrm 2 0 fun _ => { state := .halted, faultId := 9, faultKind := 3 }
    let waits (w : PriWait) (c : Cmd) := (q w).updCmd 0 3 fun _ => c
    okWith (exec (.priResponse 0 true) halted) (fun t => (t.strm 2 0).state == .issuing && t.mem.pri == []) = true ∧
    okWith (exec (.priResponse 0 true) (waits (.fetch 0 3) { phase := .priWait })) (fun t => (t.cmd 0 3).phase == .fetched) = true ∧
    okWith (exec (.priResponse 0 true) (waits (.step5 0 3) { phase := .priWait5 })) (fun t => (t.cmd 0 3).phase == .admission) = true ∧
    okWith (exec (.priResponse 0 true) (waits (.record 0 3) { phase := .record, recordPri := true })) (fun t => !(t.cmd 0 3).recordPri) = true ∧
    okWith (exec (.priResponse 0 false) (waits (.fetch 0 3) { phase := .priWait })) (fun t =>
      (t.cmd 0 3).status == some stFaultAbort && (t.cmd 0 3).noSignal) = true ∧
    okWith (exec (.priResponse 0 false) (waits (.step4 0 3) { phase := .priWait4 })) (fun t =>
      (t.cmd 0 3).status == some stFaultAbort && !(t.cmd 0 3).noSignal) = true ∧
    okWith (exec (.priResponse 0 false) (waits (.step5 0 3) { phase := .priWait5 })) (fun t => (t.cmd 0 3).status == some stFaultAbort) = true := by
  decide +kernel

/-! ### 07: contexts and rings -/

theorem test_witness_ContextsAreCreatedAndAdopted :
    (let s : State := { sec := { locked := true } }
     s.areaFree 0 0 = true ∧ s.createReason 0 0 7 = 0 ∧
     okWith (exec (.ctxCreate 0 0 7) s) (fun t => (t.ctx 7).state == .active && (t.area 0 0).ctxState == 2) = true) ∧
    State.reset.createReason 0 0 7 = 10 ∧ okWith (exec (.ctxCreate 0 0 7) State.reset) (fun t => (t.area 0 0).ctxReason == 10) = true ∧
    (let s := ((ringed 0x1000).updPort 0 fun h => { h with linkUp := false, lostTooLong := true }).updCq 1 5 fun q => { q with state := .active }
     s.boot.ready = true ∧ s.areaFree 1 0 = true ∧ s.adoptReason 1 0 0 5 = 0 ∧ s.ringsOf 0 = [1] ∧
     okWith (exec (.ctxAdopt 1 0 0 5) s) (fun t => (t.ctx 0).owner == 1 && (t.ring 0 1) == {} && (t.ring 1 1).cq == 5) = true ∧
     s.adoptReason 1 0 0 4 = 4 ∧ okWith (exec (.ctxAdopt 1 0 0 4) s) (fun t => (t.area 1 0).ctxReason == 4) = true) := by decide +kernel

theorem test_witness_ContextsAreAbortedAndDestroyed :
    (let s := ringed 0x1000
     s.areaFree 0 0 = true ∧ s.mayWriteCtx 0 0 0 = true ∧ (s.ctx 0).state ≠ .aborting ∧ (s.ctx 0).ends = [] ∧ s.cmdsOf 0 = [] ∧
     okWith (exec (.ctxAbort 0 0 0) s) (fun t => (t.ctx 0).state == .active && (t.ring 0 1).state == .stopped) = true ∧
     okWith (exec (.ctxDestroy 0 0 0) s) (fun t => (t.ctx 0) == {} && (t.ring 0 1) == {}) = true ∧
     s.mayWriteCtx 1 0 0 = false ∧ okWith (exec (.ctxAbort 1 0 0) s) (fun t => (t.area 1 0).ctxReason == 2) = true) ∧
    (let s := withCmd (ringed 0x1000) { phase := .ordering }
     (s.cmdsOf 0).length = 1 ∧ okWith (exec (.ctxAbort 0 0 0) s) (fun t =>
       (t.ctx 0).state == .aborting && (t.cmd 0 3).status == some stCancelled && (t.area 0 0).ctxState == 1) = true) := by decide +kernel

/-- The last 4 bytes of the record may be written, the bytes past it not. -/
theorem test_witness_ContextRecordsChangeOnlyInTheirMutableFields :
    accessOk 60 4 = true ∧ accessOk 62 4 = false ∧ mapped.mayWriteCtx 0 0 0 = true ∧
    okWith (exec (.contextRecordWrite 0 0 0 8 8 0x55) mapped) (fun t => (t.ctx 0).seed == 0x55) = true ∧
    okWith (exec (.contextRecordWrite 0 0 0 60 8 1) mapped) (fun t => t == mapped) = true ∧
    okWith (exec (.contextRecordWrite 1 0 0 8 8 0x55) mapped) (fun t => t == mapped) = true := by decide +kernel

theorem test_witness_RingOperations :
    (let s := ((ringed 0x1000).updRing 0 1 fun g => { g with state := .disabled }).updPort 0 fun h => { h with areas := [(0, { ringCount := 9 })] }
     s.ringAreaFree 0 0 = true ∧ s.ringHolder 0 1 = 0 ∧ (s.ctx 0).owner = 0 ∧ ringShapeOk 0x1000 4 = true ∧ ringShapeOk 0x1000 17 = false ∧
     okWith (exec (.ringEnable 0 0 1) s) (fun t => (t.ring 0 1).head == 9 && (t.ring 0 1).state == .active) = true) ∧
    (let s := ringed 0x1000
     okWith (exec (.ringStop 0 0 1) s) (fun t => (t.ring 0 1).abandoned == 2) = true ∧
     okWith (exec (.ringPause 0 0 1) s) (fun t => (t.ring 0 1).paused) = true ∧
     okWith (exec (.ringResume 0 0 1) (after (.ringPause 0 0 1) s)) (fun t => !(t.ring 0 1).paused) = true ∧
     okWith (exec (.ringResume 0 0 1) s) (fun t => (t.area 0 0).ringState == 3) = true ∧
     (let u := after (.ringDisable 0 0 1) (after (.ringStop 0 0 1) s)
      (u.ring 0 1).disabling = some 0 ∧ u.ringInFlight 0 1 = 0 ∧
      okWith (exec (.ringDisableComplete 0 1) u) (fun t => (t.ring 0 1).state == .disabled) = true ∧
      (withCmd u { phase := .running, ring := 1 }).ringInFlight 0 1 ≠ 0)) ∧
    (let s := (ringed 0x1000).updPort 0 fun h => { h with vfEnabled := 1, vfRings := [(0, { ringCount := 4 })] }
     s.ringAreaFree 0 0 = true ∧ s.ringHolder 0 1 = 1 ∧ okWith (exec (.ringStop 0 0 1) s) (fun t => (t.ring 0 1).state == .active) = true) := by
  decide +kernel

theorem test_witness_CompletionRingOperationsAndRecords :
    (let s := State.reset.updCq 0 2 fun q => { q with base := 0x1000 }
     s.ringAreaFree 0 0 = true ∧ s.cqHolder 0 2 = 0 ∧ okWith (exec (.cqEnable 0 0 2) s) (fun t => (t.cq 0 2).state == .active) = true ∧
     (let u := after (.cqDisable 0 0 2) (after (.cqEnable 0 0 2) s)
      (u.cq 0 2).disabling = some 0 ∧ u.cqUnbound 0 2 = true ∧ u.cqWaiting 0 2 = 0 ∧
      okWith (exec (.cqDisableComplete 0 2) u) (fun t => (t.cq 0 2).state == .disabled) = true ∧
      (u.updRing 0 8 fun g => { g with state := .active, cq := 2 }).cqUnbound 0 2 = false)) ∧
    State.reset.fnUp 0 0 = true ∧ State.reset.fnUp 0 1 = false ∧
    okWith (exec (.ringRecordWrite 0 0 true 63 0 8 0x50001000600) State.reset) (fun t => (t.cq 0 63).modCount == 0x500 && (t.cq 0 63).log2Len == 6) = true ∧
    okWith (exec (.ringRecordWrite 0 0 false 5 0 8 0x07000400) mapped) (fun t => (t.ring 0 5).cq == 7 && (t.ring 0 5).log2Len == 4) = true ∧
    okWith (exec (.ringRecordWrite 0 0 false 1 0 8 0x07000400) (ringed 0x1000)) (fun t => t == ringed 0x1000) = true := by decide +kernel

/-! ### 08 to 10: resets, set-up, hosts -/

theorem test_witness_ResetsFenceTheirScopeAndEndItsCommands :
    (let s := working mapped (run (desc 0x03 []))
     s.wideReset = false ∧ s.inReset 2 = false ∧ s.slotsOf 2 = [(0, s.slot 2 0)] ∧
     okWith (exec (.engineReset 2 0x0C) s) (fun t => t.rcv.inReset == 4 && t.rcv.fence == 4 && (t.cmd 0 3).status == some stDropped) = true ∧
     okWith (exec (.swresetEngine 2) s) (fun t => t.rcv.cause == 9 && t.rcv.engine == 2) = true ∧
     okWith (exec (.partitionReset 0 0x0C) s) (fun t => t.rcv.partInReset == 1 && (t.cmd 0 3).status == some stPartitionReset) = true ∧
     okWith (exec (.swresetPartition 7) s) (fun t => t.rcv.partInReset == 0x80 && (t.cmd 0 3).status == none) = true ∧
     (let u := after (.engineReset 2 0x0C) s
      u.inReset 2 = true ∧ u.wideReset = false ∧ okWith (exec (.engineReset 2 0x0C) u) (fun t => t.rcv.inReset == 4) = true ∧
      okWith (exec (.engineResetComplete 2) u) (fun t => t.rcv.inReset == 0 && t.rcv.fence == 4 && (t.slot 2 0) == {}) = true) ∧
     okWith (exec (.partitionResetComplete 0) (after (.partitionReset 0 0x0C) s)) (fun t => t.rcv.partInReset == 0 && t.rcv.partFence == 1) = true ∧
     s.rcv.powerCycle = false ∧ s.rcv.modReset = .none ∧
     okWith (exec .swresetModule s) (fun t => t.rcv.modReset == .running && t.ctxs == [] && t.mem.hbm == []) = true) := by decide +kernel

theorem test_witness_MissedDeadlinesEscalate :
    (let s := after (.ctxAbort 0 0 0) (working mapped (run (desc 0x03 [])))
     (s.ctx 0).state = .aborting ∧ s.wideReset = false ∧ s.slotsOf 2 = [(0, s.slot 2 0)] ∧
     okWith (exec (.deadlineMissed (.context 0)) s) (fun t => t.inReset 2) = true) ∧
    (let s := after (.engineReset 2 1) mapped
     s.rcv.inReset.getLsbD 2 = true ∧ s.rcv.partInReset.getLsbD 0 = false ∧
     okWith (exec (.deadlineMissed (.engine 2)) s) (fun t => t.rcv.partInReset == 1 && t.rcv.escalated) = true) ∧
    (let s := after (.partitionReset 3 1) mapped
     okWith (exec (.deadlineMissed (.partition 3)) s) (fun t => t.rcv.modReset == .running) = true ∧
     (let u := after (.deadlineMissed (.partition 3)) s
      okWith (exec (.deadlineMissed .module) u) (fun t => t.rcv.powerCycle && t.rcv.fenceAll && !t.pwr.alertN) = true)) ∧
    okWith (exec (.powerCycleRequest 5) mapped) (fun t => t.rcv.cycleCause == 5) = true ∧
    okWith (exec .powerCycleRepeat (after (.powerCycleRequest 5) mapped)) (fun t => t.out.length == 4) = true := by decide +kernel

theorem test_witness_ReleasesResumesAndInvalidations :
    (let s := withRcv (after (.engineReset 3 1) mapped) fun r => { r with fence := r.fence ||| 1, partFence := 5, partInReset := 4 }
     s.boot.ready = true ∧ okWith (exec (.fenceRelease (BitVec.allOnes 64)) s) (fun t => t.rcv.fence == 8) = true ∧
     okWith (exec (.partFenceRelease 0xFF) s) (fun t => t.rcv.partFence == 4) = true) ∧
    (let s := (working mapped (run (desc 0x03 []))).updStrm 2 5 fun _ => { state := .halted, tag := 3, faultId := 9, faultKind := 1 }
     s.faulted 9 = some (2, 5) ∧ (s.strm 2 5).peloton = 0 ∧ s.faulted 8 = none ∧
     okWith (exec (.faultResumeRetry 9) s) (fun t => (t.strm 2 5).state == .issuing) = true ∧
     okWith (exec (.faultResumeAbort 9) s) (fun t => (t.cmd 0 3).status == some stFaultAbort) = true ∧
     okWith (exec (.faultResumeAbort 8) s) (fun t => t.engines == s.engines) = true) ∧
    (let s := mapped.updCtx 0 fun x => { x with withdrawn := true }
     s.mayWriteCtx 0 0 0 = true ∧ s.mayWriteCtx 1 0 0 = false ∧
     okWith (exec .memInvalComplete (after (.memInval 0 0 true 0) s)) (fun t => !(t.ctx 0).withdrawn && t.mem.invalJobs == []) = true ∧
     okWith (exec .memInvalComplete (after (.memInval 0 0 false 0x10000) s)) (fun t => (t.ctx 0).withdrawn && (t.ctx 0).remapped == [0]) = true ∧
     okWith (exec (.memInval 1 0 true 0) s) (fun t => t == s) = true) ∧
    (let s : State := { mem := { stackMems := [(2, { pending := [2] })] } }
     (s.stack 2).pending = [2] ∧ okWith (exec (.retireConfirm 2) s) (fun t => (t.stack 2).retired == [2]) = true) := by decide +kernel

/-- GOV_LIMIT 300 and 700 are taken, 299 and 701 ignored; after the lock a write only counts. -/
theorem test_witness_SetupLockAndRegisterWrites :
    State.reset.boot.ready = true ∧ State.reset.sec.locked = false ∧
    okWith (exec (.setupLockTake 1 0) State.reset) (fun t => t.sec.locked && t.sec.lockedBy == 1) = true ∧
    okWith (exec (.setupLockTake 1 1) State.reset) (fun t => t == State.reset) = true ∧
    okWith (exec (.registerWrite 0 0 0x600000 4 1) State.reset) (fun t => t.sec.locked) = true ∧
    okWith (exec (.registerWrite 0 0 0x400000 4 300) State.reset) (fun t => t.pwr.govLimit == 300) = true ∧
    okWith (exec (.registerWrite 0 0 0x400000 4 700) { pwr := { govLimit := 300 } }) (fun t => t.pwr.govLimit == 700) = true ∧
    okWith (exec (.registerWrite 0 0 0x400000 4 299) State.reset) (fun t => t.pwr.govLimit == 700) = true ∧
    okWith (exec (.registerWrite 0 0 0x400000 4 701) { pwr := { govLimit := 300 } }) (fun t => t.pwr.govLimit == 300) = true ∧
    okWith (exec (.registerWrite 0 0 0x400000 4 300) { sec := { locked := true } }) (fun t =>
      t.pwr.govLimit == 700 && t.sec.lockedWrites == 1) = true ∧
    accessOk 2 4 = false ∧ okWith (exec (.registerWrite 0 0 0x400000 4 300) { boot := { ready := false } }) (fun t =>
      t.pwr.govLimit == 700) = true := by decide +kernel

theorem test_witness_LedgerQuiesceStreamsPlansAndGroups :
    State.reset.boot.ready = true ∧ okWith (exec (.ledgerRead 3 0) State.reset) (fun t => t.age.ledgerIndex == 3) = true ∧
    okWith (exec (.dbgQuiesce 7) { rcv := { fence := 1 } }) (fun t => t.dbg.quiesce == 6) = true ∧
    ({ dbg := { quiesce := 4 } } : State).quiesced 2 = true ∧ State.reset.quiesced 2 = false ∧
    okWith (exec (.quiesceTimeout 2) { dbg := { quiesce := 4 } }) (fun t => t.dbg.quiesce == 0) = true ∧
    okWith (exec (.streamCfgWrite 2 0x120C) State.reset) (fun t => (t.eng 2).minLog2 == 12 && (t.eng 2).maxLog2 == 18) = true ∧
    okWith (exec (.streamCfgWrite 2 0x130C) State.reset) (fun t => t == State.reset) = true ∧
    okWith (exec (.streamCfgWrite 2 0x120C) oneAdmitted) (fun t => (t.eng 2).cfgPending == some (12, 18)) = true ∧
    okWith (exec (.streamCfgApply 2) (State.reset.updEng 2 fun g => { g with cfgPending := some (12, 18) })) (fun t => (t.eng 2).minLog2 == 12) = true ∧
    (let s := State.reset.updPart 1 fun a => { a with slackMin := some 4095 }
     ((s.part 1).plan 4095).code < (s.part 1).planCode ∧ (s.part 1).lowering = none ∧
     okWith (exec (.replan 2) s) (fun t => (t.part 1).items.length == 1) = true) ∧
    (let s := State.reset.updPart 1 fun a => { a with slackMin := some 60 }
     (s.part 1).planCode ≤ ((s.part 1).plan 60).code ∧ okWith (exec (.replan 2) s) (fun t => (t.part 1).slackMin == none) = true) ∧
    accessOk 120 8 = true ∧ mapped.mayWriteCtx 0 0 0 = true ∧
    okWith (exec (.groupRecordWrite 0 2 1 0 4 0x00010005) mapped) (fun t => (Tab.get {} (t.eng 2).groups 1).id == 5) = true ∧
    okWith (exec (.groupRecordWrite 1 2 1 0 4 0x00010005) mapped) (fun t => t == mapped) = true := by decide +kernel

theorem test_witness_HostPortsGoDownAndComeBack :
    okWith (exec (.portDisable 0) mapped) (fun t => (t.ctx 0).state == .orphaned && (t.port 0).isDown) = true ∧
    okWith (exec (.portEnable 0) (after (.portDisable 0) mapped)) (fun t => (t.ctx 0).state == .active) = true ∧
    okWith (exec (.perstAssert 0) (mapped.updPort 0 fun h => { h with ide := [(1, [2])] })) (fun t => (t.port 0).ide == []) = true ∧
    (let s := after (.hostLinkDown 0) mapped
     (s.port 0).linkLost = true ∧ (s.port 0).linkUp = false ∧ (s.ctx 0).state = .active ∧
     okWith (exec (.portDownTimeout 0) s) (fun t => (t.ctx 0).state == .orphaned) = true ∧
     s.mayLink 0 = true ∧ okWith (exec (.hostLinkUp 0) (after (.portDownTimeout 0) s)) (fun t => (t.ctx 0).state == .active) = true) ∧
    okWith (exec (.vfEnable 0 16) mapped) (fun t => (t.port 0).vfEnabled == 16) = true ∧
    okWith (exec (.bar4Resize 0 39) (mapped.updPort 0 fun h => { h with bar4Base := 5 })) (fun t => (t.port 0).bar4Base == 0 && (t.port 0).bar4Log2 == 39) = true ∧
    okWith (exec (.bar4Resize 0 30) (mapped.updPort 0 fun h => { h with bar4Base := 5 })) (fun t => (t.port 0).bar4Base == 5) = true ∧
    okWith (exec (.bar4Resize 0 40) mapped) (fun t => t == mapped) = true := by decide +kernel

theorem test_witness_ResetsDestroyContextsAndBar4ReachesHbm :
    (let s := after (.perstAssert 0) mapped
     (s.port 0).perst = true ∧ (s.ctx 0).state ≠ .aborting ∧ s.cmdsOf 0 = [] ∧
     okWith (exec (.perstDeassert 0) s) (fun t => (t.ctx 0) == {} && !(t.port 0).perst) = true ∧
     okWith (exec (.functionLevelReset 0) mapped) (fun t => (t.ctx 0) == {}) = true ∧
     okWith (exec (.functionLevelReset 1) mapped) (fun t => (t.ctx 0) == mapped.ctx 0) = true) ∧
    mapped.bar4At 0 0x10000 4 = some 0x10000 ∧ mapped.served 0x10000 = true ∧ Memory.wf mapped.mem.hbm = true ∧
    okWith (exec (.bar4Read 0 0x10000 4 false) mapped) (fun t => t.out == [.bar4 0 (some [5, 0, 1, 0])]) = true ∧
    okWith (exec (.bar4Read 0 0x10000 4 true) mapped) (fun t => t.out.contains (.bar4 0 none)) = true ∧
    okWith (exec (.bar4Write 0 0x10001 [0xAA] false) mapped) (fun t => t.hbmRead 0x10000 4 == [5, 0xAA, 1, 0]) = true := by decide +kernel

/-! ### 11: peer links -/

/-- A node of a 2 by 1 by 1 torus, number 0, whose port 0 is as given and leads to node (1, 0, 0), number 2048. -/
def peered (l : PeerLink) : State :=
  ({ mapped with peer := { nodeId := 0, dxM1 := 1, valid := true } } : State).updLink 0 fun _ => l

/-- What eight lanes show of a pattern and their number, inverted by a mask, in order or reversed. -/
def laneShow (inv : BitVec 8) (rev : Bool) : LaneReport :=
  { lanes := (List.range 8).map fun n =>
      let lane := if rev then 7 - n else n
      some (if inv.getLsbD n then (0x2B5 ^^^ 0x3FF, lane ^^^ 0x3FF) else (0x2B5, lane)) }

theorem test_witness_PeerPortsTrainAndIdentify :
    let ok := laneShow 2 true
    let bad : LaneReport := { lanes := none :: (laneShow 0 false).lanes.drop 1 }
    (peered { state := .down }).mayTrain 0 = true ∧ none ∈ bad.lanes ∧
    okWith (exec (.trainingStepComplete 0 ok) (peered { state := .down })) (fun t => (t.link 0).state == .step 1) = true ∧
    okWith (exec (.trainingStepComplete 0 ok) (peered { state := .step 1 })) (fun t => (t.link 0).polInv == 2 && (t.link 0).reversed) = true ∧
    okWith (exec (.trainingStepComplete 0 bad) (peered { state := .step 1 })) (fun t => (t.link 0).state == .failed && (t.link 0).laneFault) = true ∧
    okWith (exec (.trainingStepComplete 0 ok) (peered { state := .step 2 })) (fun t => t.out.length == 1) = true ∧
    okWith (exec (.trainingStepComplete 0 ok) (peered { state := .step 3, identGot := true, identAcked := true })) (fun t => (t.link 0).state == .up) = true ∧
    okWith (exec (.trainingTimeout 0) (peered { state := .step 2 })) (fun t => (t.link 0).state == .failed) = true ∧
    (let s := peered { state := .step 3 }
     s.peer.txOff = false ∧ (s.identOf 0).dims = 1 ∧
     okWith (exec (.ident 0 ⟨2048, 1, 1, 256, 1⟩) s) (fun t => (t.link 0).identGot && !(t.link 0).miswired) = true ∧
     okWith (exec (.ident 0 ⟨2048, 1, 1, 255, 1⟩) s) (fun t => (t.link 0).identFault && (t.link 0).state == .failed && t.out.length == 1) = true ∧
     okWith (exec (.ident 0 ⟨2048, 1, 1, 256, 1⟩) (peered { state := .step 3, wentDown := true, nbrSeen := true, nbrNode := 2048, nbrPort := 0 }))
       (fun t => (t.link 0).state == .failed && !(t.link 0).wentDown) = true ∧
     okWith (exec (.ident 0 ⟨2048, 1, 1, 256, 1⟩) (peered { state := .up })) (fun t => t.out.length == 1 && (t.link 0).state == .up) = true ∧
     okWith (exec (.identAck 0 0) s) (fun t => (t.link 0).identAcked) = true ∧ okWith (exec (.identAck 0 2048) s) (fun t => t == s) = true ∧
     okWith (exec (.identResend 0) s) (fun t => t.out.length == 1) = true ∧
     okWith (exec (.alignmentCodeword 0) s) (fun t => (t.link 0).codewords == 1 && t.out.length == 1) = true ∧
     okWith (exec (.retrain 0) s) (fun t => (t.link 0).state == .step 0) = true ∧
     okWith (exec (.peerPortDisable 0) s) (fun t => (t.link 0).state == .disabled) = true) := by decide +kernel

/-- A node number in the last column of a 2 by 1 by 1 torus is taken, one outside it ignored; no VALID stops the ports. -/
theorem test_witness_PeerNodeIsSet :
    let v : W64 := 2 ^ 63 + 2 ^ 20 + 2 ^ 11
    let w : W64 := 2 ^ 63 + 2 ^ 11
    coord 2048 0 = 1 ∧ bitsOf v.toNat 25 20 = 1 ∧ bitsOf w.toNat 25 20 < coord 2048 0 ∧ v.getLsbD 63 = true ∧ mapped.peer.valid = false ∧
    mapped.boot.ready = true ∧ mapped.peer.waiting = [] ∧ mapped.cmds = [] ∧
    okWith (exec (.peerNodeWrite v) mapped) (fun t => t.peer.nodeId == 2048 && t.peer.valid && (t.link 3).state == .step 0) = true ∧
    okWith (exec (.peerNodeWrite v) (mapped.updLink 3 fun l => { l with failedHeld := true })) (fun t => (t.link 3).state == .failed) = true ∧
    okWith (exec (.peerNodeWrite w) mapped) (fun t => t == mapped) = true ∧
    okWith (exec (.peerNodeWrite 0) (peered { state := .up })) (fun t => !t.peer.valid && (t.link 0).state == .disabled) = true ∧
    okWith (exec (.peerNodeWrite v) { sec := { locked := true } }) (fun t => t.sec.lockedWrites == 1 && !t.peer.valid) = true := by decide +kernel

/-- Bad flits: an uncorrectable codeword, a wrong CRC (256 bytes of zeros), an expected IDLE. -/
theorem test_witness_LinkLayerKeepsFlitsInOrder :
    (let s := peered { state := .up, expected := 5 }
     let zeros := List.replicate 256 0
     crcBad zeros = true ∧ crcBad (List.replicate 252 0 ++ toLe 4 (crc32 (List.replicate 252 0))) = false ∧
     okWith (exec (.badFlitReceived 0 (.flit [] zeros)) s) (fun t => t.out.length == 1 && (t.link 0).discarding && Tab.get 0 (t.link 0).counts cntCrcErrors == 1) = true ∧
     okWith (exec (.badFlitReceived 0 (.flit [] (List.replicate 252 0 ++ toLe 4 (crc32 (List.replicate 252 0))))) s) (fun t => t == s) = true ∧
     (let b0 := toLe 1 1 ++ toLe 1 0 ++ toLe 2 5 ++ List.replicate 248 0
      let b := b0 ++ toLe 4 (crc32 b0)
      (s.link 0).partOk b = true ∧ flitPair b = 0 ∧
      okWith (exec (.badFlitReceived 0 (.flit [b] zeros)) s) (fun t => (t.link 0).expected == 6 && Tab.get 0 (t.link 0).held 0 == 1 && t.out.length == 1) = true) ∧
     okWith (exec (.badFlitReceived 0 (.fec [] 2)) (peered { state := .up, expected := 5, nakFor := some (4, 0) })) (fun t =>
       t.out == [] && Tab.get 0 (t.link 0).counts cntFecUncorrectable == 2) = true ∧
     okWith (exec (.badFlitReceived 0 (.fec [] 1)) (peered { state := .step 3 })) (fun t => t.out == [] && !(t.link 0).discarding) = true ∧
     okWith (exec (.badFlitReceived 0 (.fec [] 1)) (peered { state := .down })) (fun t => t.out == []) = true) ∧
    (let f (n p : Nat) : Flit := { seq := n, pair := p, head := true, last := true, body := [] }
     let s := peered { state := .up, replay := [f 4095 0, f 0 1, f 1 0], credits := [(0, 250)] }
     ((s.link 0).after 4095).map (·.seq) = [0, 1] ∧ s.peer.txOff = false ∧
     okWith (exec (.nak 0 4095) s) (fun t => t.out.length == 1 && (t.link 0).replay.length == 3) = true ∧
     okWith (exec (.idle 0 (some 0) 0xF) s) (fun t => (t.link 0).replay == [f 1 0] && Tab.get 0 (t.link 0).credits 0 == 256) = true ∧
     okWith (exec (.ackTimeout 0) s) (fun t => (t.link 0).state == .down && Tab.get 0 (t.link 0).counts cntLinkDowns == 1) = true ∧
     okWith (exec (.fecLockLost 0) s) (fun t => (t.link 0).state == .down) = true) ∧
    okWith (exec (.ackTimeout 0) (peered { state := .up })) (fun t => (t.link 0).state == .up) = true := by decide +kernel

/-- Port 0 is UP, and the PEER block as given. -/
def upLink (f : PeerBlock → PeerBlock) : State :=
  let s := peered { state := .up, nbrNode := 2048, routeDir := 0 }
  { s with peer := f s.peer }

/-- A link that hears, and what is heard: writes through a window, reads, packets that break the rules, packets for others. -/
theorem test_witness_PacketsAreForwardedServedOrDropped :
    let s := upLink fun b => { b with windows := [(0, { base := 0, size := 65536, allNodes := true, write := true, read := true, enable := true })] }
    let w := pkt 0 2048 1 [(0, toLe 8 0x200)] [7]
    (s.link 0).state = .up ∧ (s.link 0).overrun w false = false ∧ s.peer.waiting = [] ∧ w.dest = s.peer.nodeId ∧ packetFormed w = true ∧ s.cmds = [] ∧
    (s.windowFor 2048 (pf w 12 8) 1 true).isSome = true ∧ goes (s.vwrite 0 (pf w 12 8) [7]) = true ∧
    okWith (exec (.write 0 (w, false)) s) (fun t => Memory.get t.mem.hbm 0x10200 == 7) = true ∧
    (upLink id).windowFor 2048 (pf w 12 8) 1 true = none ∧ okWith (exec (.write 0 (w, false)) (upLink id)) (fun t => t.mem == s.mem) = true ∧
    (let bad := { w with vc := 3 }
     packetFormed bad = false ∧ okWith (exec (.write 0 (bad, false)) s) (fun t => t.peer.discarded == 1 && t.mem == s.mem) = true) ∧
    okWith (exec (.packetForward 0 (pkt 2048 0 1 [] []) false) (upLink id)) (fun t => t.peer.discarded == 0) = true ∧
    (upLink fun b => { b with detours := [(0, 0)] }).route (pkt 2048 0 1 [] []) false none = none ∧
    okWith (exec (.packetForward 0 (pkt 2048 0 1 [] []) false) (upLink fun b => { b with txOff := true })) (fun t => t.out == []) = true ∧
    okWith (exec (.read 0 (pkt 0 2048 3 [(0, toLe 8 0x200), (12, toLe 4 8)] [], false)) s) (fun t => t.mem == s.mem) = true := by decide +kernel

theorem test_witness_PeerAnswersAndNotices :
    let x (read : Bool) : PeerTxn := { txn := 9, port := 0, tag := 3, order := 0, eng := 2, stream := 0, read := read, off := 0, len := 2 }
    let s (read : Bool) := (upLink fun b => { b with txns := [x read] }).updCmd 0 3 fun _ => run (desc 0x0E [])
    let a (n : Nat) (d : List Byte) := pkt 0 2048 n [(0, toLe 4 9)] d
    pf (a 2 []) 12 4 = 9 ∧ pf (a 2 []) 16 1 = 0 ∧ packetFormed (a 2 []) = true ∧ packetFormed (a 4 [5, 6]) = true ∧ (s true).asks (x true) = true ∧
    okWith (exec (.writeAck 0 (a 2 [], false)) (s false)) (fun t => t.peer.txns == []) = true ∧
    okWith (exec (.readData 0 (a 4 [5, 6], false)) (s true)) (fun t => t.peer.txns == [] && Tab.get [] (t.cmd 0 3).snap.data 2 == [5, 6]) = true ∧
    okWith (exec (.peerResponseTimeout 9) (s true)) (fun t => (t.cmd 0 3).status == some stFaultAbort) = true ∧
    (let n : NoticeRec := { kind := 1, port := 2, node := 0, engines := 0, origin := 2048, nseq := 4 }
     ((upLink id).link 0).overrun (noticePacket (upLink id) n) false = false ∧
     okWith (exec (.notice 0 (n, false)) (upLink id)) (fun t => t.peer.downLinks.contains (0, 2) && t.peer.seen.contains (2048, 4)) = true ∧
     okWith (exec (.notice 0 ({ n with kind := 2, nseq := 5 }, false)) (after (.notice 0 (n, false)) (upLink id))) (fun t => t.peer.downLinks == []) = true) ∧
    (let c := pkt 0 2048 0x10 [(0, toLe 2 5)] []
     let u := upLink fun b => { b with waiting := [(0, c, false)] }
     u.anyRecord (cf c 12 2) = none ∧
     okWith (exec (.collPacketWaitTimeout 0) u) (fun t => t.peer.waiting == [] && t.peer.staleEpoch == 1) = true ∧
     okWith (exec (.collPacketWaitTimeout 0) (upLink fun b => { b with waiting := [(0, pkt 0 2048 1 [] [], false)] })) (fun t =>
       t.peer.waiting.length == 1) = true) := by decide +kernel

/-- A COLL packet of an earlier epoch, and one that a collective at work takes. -/
theorem test_witness_CollPacketsAreStaleOrTaken :
    let g : GroupRec := { id := 5, state := 1, epoch := 2, digest := 77, seq := 9 }
    let s := ((peered { state := .up, nbrNode := 2048, routeDir := 0 }).updEng 2 fun e => { e with groups := [(0, g)] }).updCmd 0 3 fun _ =>
      { collCmd with coll := { active := true, gseq := 8, epoch := 2, digest := 77 } }
    let k (epoch : Nat) := pkt 0 2048 0x11 [(0, toLe 2 5), (4, toLe 4 epoch), (8, toLe 4 77), (12, toLe 8 8)] [1, 2]
    (match s.collFate (k 1) with | .stale => true | _ => false) = true ∧
    (match s.collFate (k 2) with | .take p t r => p == 0 && t == 3 && r == g | _ => false) = true ∧ s.recordOf (s.cmd 0 3) = some g ∧ (s.cmd 0 3).coll.kept = false ∧
    (s.cmd 0 3).sparse = false ∧ (s.cmd 0 3).chain = false ∧ (s.cmd 0 3).cop ≠ 5 ∧
    ((s.cmd 0 3).coll.sealedSegs.any fun x => x.1 == cf (k 2) 32 4) = false ∧ (s.link 0).overrun (k 2) false = false := by decide +kernel

/-! ### 12 to 16: faults, power, start, ageing, security, stated rules -/

theorem test_witness_FaultsEnterTheirLevel :
    let mv := desc 0x03 [(56, toLe 8 0x100), (64, toLe 8 0x200), (72, toLe 4 8), (76, toLe 4 1), (80, toLe 8 8), (88, toLe 8 8), (96, toLe 8 4)]
    let s := after (.admission 0 3) (withCmd mapped { phase := .admission, desc := mv })
    s.served 0x20000 = true ∧ s.served (384 * 2 ^ 30) = false ∧
    okWith (exec (.hbmUncorrectableError 0x20000 (some (0, 3))) s) (fun t => !t.served 0x20000 && (t.cmd 0 3).status == some stFaultAbort) = true ∧
    okWith (exec (.correctedError (.engine 2) 0) s) (fun t => Tab.get 0 (t.eng 2).counts 23 == 1) = true ∧
    okWith (exec (.correctedError (.partition 2) 0) s) (fun t => (t.part 2).corrected == 1) = true ∧
    okWith (exec (.correctedError (.peerPort 3) 15) s) (fun t => Tab.get 0 (t.link 3).counts cntFecSymbols == 15) = true ∧
    (let u : State := { hk := 100, mem := { stackMems := [(2, { pageErrors := [(pageIndex 0x20000, List.replicate 15 50)] })] } }
     pageStack 0x20000 = 2 ∧ okWith (exec (.correctedError (.memory 2) 0x20000) u) (fun t => (t.stack 2).pending == [pageIndex 0x20000]) = true) ∧
    s.wideReset = false ∧ s.inReset 2 = false ∧ okWith (exec (.unitFault (.residue 2)) s) (fun t => t.rcv.inReset == 4) = true ∧
    s.isolated 2 = false ∧ s.workPending 2 = true ∧ s.workPending 3 = false ∧ okWith (exec (.engineHang 2) s) (fun t => t.rcv.cause == 1) = true ∧
    okWith (exec (.clockFault (.engine 2)) (withRcv s fun r => { r with fence := 4 })) (fun t => t.rcv.inReset == 0) = true ∧
    s.rcv.fenceAll = false ∧ okWith (exec (.clockFault (.partition 1)) s) (fun t => t.rcv.partInReset == 2) = true ∧
    okWith (exec (.domainWatchdogExpiry .mmu) s) (fun t => t.rcv.modReset == .running && t.rcv.lastLevel == 4) = true ∧
    okWith (exec (.clockFault (.peerLink 0)) (peered { state := .up })) (fun t => (t.link 0).state == .down && t.rcv == {}) = true ∧
    okWith (exec (.unitFault .housekeepingSram) s) (fun t => t.rcv.powerCycle && t.rcv.cycleCause == 0x0D) = true ∧
    okWith (exec (.unitFault (.poisoned 0 3)) s) (fun t => (t.cmd 0 3).status == some stFaultAbort) = true ∧
    (s.ctx 0).state = .active ∧ (s.cmdsOf 0).length = 1 ∧
    okWith (exec (.contextAbortOnFault 0) s) (fun t => (t.ctx 0).state == .aborting && (t.cmd 0 3).status == some stFaultAbort) = true ∧
    okWith (exec (.unitFault (.contextState 0)) mapped) (fun t => (t.ctx 0).state == .active) = true := by decide +kernel

theorem test_witness_SupplyTemperatureAndClockFaults :
    mapped.pwr.mainOn = true ∧ mapped.rcv.powerCycle = false ∧ mapped.rcv.modReset = .none ∧ mapped.pwr.hkRunning = true ∧
    okWith (exec .inputOvervoltage mapped) (fun t => !t.pwr.mainOn && t.rcv.modReset == .heldSupply && !t.pwr.input48) = true ∧
    okWith (exec .inputUndervoltage mapped) (fun t => t.rcv.cause == 7) = true ∧
    okWith (exec .thermalShutdown mapped) (fun t => t.pwr.thermal && !t.pwr.thermN) = true ∧
    okWith (exec .thermalResume (after .thermalShutdown mapped)) (fun t => !t.pwr.thermal && t.pwr.faultN) = true ∧
    okWith (exec .inputQualified (after .inputUndervoltage mapped)) (fun t => t.pwr.mainOn && t.rcv.modReset == .running) = true ∧
    okWith (exec (.railStageShort 21) mapped) (fun t => t.pwr.shorted == 22 && t.rcv.powerCycle) = true ∧
    okWith (exec .inputOvercurrent mapped) (fun t => t.pwr.shorted == 1) = true ∧
    okWith (exec .reversedInput mapped) (fun t => t.pwr.reversed && t.pwr.reversedNow) = true ∧
    okWith (exec .polarityRestored (after .reversedInput mapped)) (fun t => t.pwr.reversed && !t.pwr.reversedNow) = true ∧
    okWith (exec (.sensorWarning .coldPlate) mapped) (fun t => !t.pwr.thermN) = true ∧
    (after .refclkLoss mapped).rcv.modReset = .heldRefclk ∧
    okWith (exec .refclkReturn { (after .refclkLoss mapped) with pwr := { mapped.pwr with mainOn := false, refclk := false, input48 := false } })
      (fun t => t.rcv.modReset == .heldSupply && !t.pwr.mainOn) = true ∧
    okWith (exec .refclkReturn { (after .refclkLoss mapped) with pwr := { mapped.pwr with mainOn := false, refclk := false } })
      (fun t => t.rcv.modReset == .running && t.pwr.mainOn) = true ∧
    okWith (exec .refclkReturn (after .refclkLoss mapped)) (fun t => t.pwr.hkRunning && t.rcv.modReset == .running) = true ∧
    okWith (exec (.powerGovernor true) mapped) (fun t => t.pwr.governing) = true := by decide +kernel

/-- A start from AUX_3V3 to READY. -/
theorem test_witness_StartUpStepByStep :
    let s1 := after (.rootPllLock 5) (after .aux3v3Rise (after .aux3v3Loss mapped))
    s1.pwr.pll = true ∧ s1.pwr.strap = 5 ∧ (after .aux3v3Loss mapped).ctxs = [] ∧
    (let s (n : Nat) : State := { boot := { ready := false, phase := n, diesUp := false } }
     okWith (exec (.diesLoaded true) (s 1)) (fun t => t.boot.phase == 2 && !t.boot.diesUp && t.sec.meas.length == 9) = true ∧
     okWith (exec (.diesLoaded true) (s 2)) (fun t => t.boot.phase == 3 && t.sec.meas == (s 2).sec.meas) = true ∧
     okWith (exec (.diesLoaded false) (s 1)) (fun t => t.boot.failCode == 6) = true) ∧
    (let s : State := { hk := 375000, boot := { ready := false, phase := 3 } }
     okWith (exec (.hbmTrainingComplete 0x3B 4) s) (fun t => t.boot.ready && t.boot.phase == 4 && t.boot.readyMs == 2) = true ∧
     okWith (exec (.hbmTrainingComplete 0x3A 1) s) (fun t => !t.boot.ready && t.boot.failCode == 0x22) = true ∧
     okWith (exec .trialTimeout { s with boot := { s.boot with trialRunning := true } }) (fun t => t.boot.preferred == 1) = true) := by decide +kernel

theorem test_witness_SamplesSavesAndRailSteps :
    (let s := State.reset.updPart 0 fun a => { a with actualCode := 50 }
     okWith (exec (.pathDelaySample 2 (List.replicate 16 60)) s) (fun t => (t.part 0).slackMin == some 60 && (t.part 0).actualCode == 50) = true ∧
     okWith (exec (.pathDelaySample 2 (59 :: List.replicate 15 60)) s) (fun t => (t.part 0).actualCode == 51 && (t.part 0).raises == 1) = true ∧
     okWith (exec (.pathDelaySample 2 (59 :: List.replicate 15 60)) State.reset) (fun t => t.age.exhausted == 1 && (t.part 0).actualCode == 64) = true) ∧
    (let ls : List LaneEye := ⟨12, 9, 11, 20⟩ :: ⟨30, 30, 30, 8⟩ :: List.replicate 6 ⟨40, 40, 40, 40⟩
     ls.length = 8 ∧ okWith (exec (.monitorSample (.peerEye 3 ls)) State.reset) (fun t => Tab.get [] t.age.peerEye 3 == [9, 8, 0, 1]) = true) ∧
    okWith (exec (.monitorSample (.hbmMargin 2 (List.replicate 31 (9, 8) ++ [(7, 8)]))) State.reset) (fun t =>
      Tab.get [] t.age.hbmMargin 2 == [7, 8, 31, 0]) = true ∧
    okWith (exec .hourlyLedgerSave State.reset) (fun t => t.age.seq == 22) = true ∧
    (let s (a t : Nat) := State.reset.updPart 0 fun p => { p with planCode := 30, actualCode := a, target := t }
     okWith (exec (.railCodeStep 0) (s 63 64)) (fun t => (t.part 0).actualCode == 64) = true ∧
     okWith (exec (.railCodeStep 0) (s 40 30)) (fun t => (t.part 0).actualCode == 39) = true ∧
     okWith (exec (.railCodeStep 0) (s 30 30)) (fun t => (t.part 0).actualCode == 30) = true ∧
     (let w (test a : Nat) (sw : List (Nat × Nat)) (l : Option PlanWait) := (s a 30).updPart 0 fun p =>
        { p with window := true, running := [{ test := test, cmd := none, arg := 0 }], sweep := sw, lowering := l }
      okWith (exec (.railCodeStep 0) (w 0x11 30 [(30, 60)] none)) (fun t => (t.part 0).actualCode == 29) = true ∧
      okWith (exec (.railCodeStep 0) (w 0x11 30 [(30, 59)] none)) (fun t => (t.part 0).actualCode == 30) = true ∧
      okWith (exec (.railCodeStep 0) (w 1 30 [] none)) (fun t => (t.part 0).actualCode == 30) = true ∧
      (let l : Option PlanWait := some ⟨true, 20, 9000, 0, []⟩
       okWith (exec (.railCodeStep 0) (w 0x20 20 [] l)) (fun t => (t.part 0).actualCode == 19) = true ∧
       okWith (exec (.railCodeStep 0) ((w 0x20 20 [] l).updPart 0 fun p => { p with raised := true })) (fun t => (t.part 0).actualCode == 20) = true))) ∧
    (let s := State.reset.updPart 0 fun p => { p with window := true, actualCode := 40, running := [{ test := 0x11, cmd := none, arg := 0 }] }
     (s.part 0).sweeping = true ∧ okWith (exec (.pathDelaySample 2 (59 :: List.replicate 15 61)) s) (fun t =>
       (t.part 0).sweep == [(40, 59)] && (t.part 0).raises == 0) = true) := by decide +kernel

theorem test_witness_PlansAndWindows :
    (let s (v : Nat) := State.reset.updPart 1 fun a => { a with slackMin := some v }
     ((s 60).part 1).planned = false ∧ ((s 60).part 1).lowering = none ∧
     okWith (exec (.planTimer 1) (s 4095)) (fun t => (t.part 1).items.length == 1 && (t.part 1).planCode == 64) = true ∧
     okWith (exec (.planTimer 1) (s 60)) (fun t => (t.part 1).slackMin == none && t.age.seq == 1) = true) ∧
    (let i : TestItem := { test := 1, cmd := some (0, 3), arg := 0 }
     let s := mapped.updPart 0 fun a => { a with items := [i, { i with test := 2 }, { i with test := 0x30 }] }
     s.windowItems 0 = [i, { i with test := 2 }] ∧ s.rcv.partInReset.getLsbD 0 = false ∧ (mapped.windowItems 0) = [] ∧
     s.isolated 0 = false ∧ ((enginesOf 0).all fun e => s.isolated e || s.betweenCommands e) = true ∧
     okWith (exec (.windowOpen 0 [item false, item false]) s) (fun t => (t.part 0).running.length == 2 && (t.part 0).items.length == 1) = true ∧
     (atEngine (mmCmd mm1) { state := .head, begun := true }).betweenCommands 2 = false ∧
     okWith (exec (.preemptionTimeout 0) s) (fun t => (t.part 0).preempting) = true ∧
     okWith (exec (.windowClose 0) (after (.windowOpen 0 [item false, item false]) s)) (fun t => !(t.part 0).window) = true) ∧
    (let it : TestItem := { test := 0x20, cmd := none, arg := 0 }
     let s (a : Nat) (fail : Bool) := mapped.updPart 0 fun p => { p with
       window := true, running := [it], results := [item fail], planCode := 40, actualCode := a, lowering := some ⟨true, 30, 9000, 0, []⟩ }
     ((s 40 false).part 0).inTrial = true ∧ okWith (exec (.windowClose 0) (s 40 false)) (fun t => t == s 40 false) = true ∧
     ((s 29 false).part 0).inTrial = false ∧
     okWith (exec (.windowClose 0) (s 29 false)) (fun t => (t.part 0).planCode == 30 && (t.part 0).actualCode == 30) = true ∧
     okWith (exec (.windowClose 0) (s 29 true)) (fun t => (t.part 0).actualCode == 40 && bitOf t.age.lowerFailed 0) = true ∧
     okWith (exec (.windowClose 0) ((s 41 false).updPart 0 fun p => { p with raised := true })) (fun t =>
       (t.part 0).planCode == 40 && (t.part 0).actualCode == 41 && bitOf t.age.lowerFailed 0) = true) := by decide +kernel

/-- Values with no window, an item that still waits for one, a march of fenced and of running engines, and fenced monitors. -/
theorem test_witness_BackgroundItems :
    let c (test : Nat) (arg : Nat) : Cmd := { run (desc 0x0F [(50, toLe 2 test), (52, toLe 1 5), (64, toLe 8 arg)]) with progress := 1 }
    let s (test arg : Nat) (fence : W64) : State := withRcv ((withCmd mapped (c test arg)).updPart 2 fun a => { a with
      items := [{ test := test, cmd := some (0, 3), arg := (c test arg).testMask }] }) fun r => { r with fence := fence }
    let gives (u : State) (r : ItemResult) (f : ItemOut → Bool) : Bool :=
      okWith (exec (.backgroundItemComplete 0 3 2 r) u) fun t => (t.part 2).items.isEmpty && (t.cmd 0 3).outs.any fun o => o.1 == 2 && f o.2
    ((s 3 0x10000 0).cmd 0 3).testKeys = [0, 2] ∧ itemEngines 2 0x10000 = [16] ∧
    okWith (exec (.backgroundItemComplete 0 3 2 (item true)) (withCmd mapped (c 0x30 0))) (fun t =>
      (t.cmd 0 3).outs.any fun o => o.1 == 2 && o.2.result == 1 && o.2.values.length == 24) = true ∧
    gives (s 3 0x10000 0) (item false) (·.result == 2) = true ∧ gives (s 3 0x10000 0x10000) (item false) (·.result == 0) = true ∧
    okWith (exec (.backgroundItemComplete 0 3 2 (item false)) ((s 3 0x10000 0x10000).updEng 16 fun g => { g with builder := some ⟨0, 3, 0, 1, 0⟩ })) (fun t =>
      (t.eng 16).builder == none) = true ∧
    gives (s 4 0 0) (item true) (·.result == 2) = true ∧
    (s 1 0 0).itemFenced 2 { test := 1, cmd := some (0, 3), arg := 0 } = false ∧
    okWith (exec (.backgroundItemComplete 0 3 2 (item true)) (s 1 0 0)) (fun t => t == s 1 0 0) = true ∧
    gives (s 1 0 0xFF0000) (item true) (·.result == 1) = true ∧
    gives (s 0x10 0 0xFF0000) { item false with slacks := 70 :: List.replicate 127 80 } (fun o => leNat (o.values.take 4) == 70 + 65536 * 80) = true ∧
    okWith (exec (.backgroundItemComplete 0 3 2 (item true)) (mapped.updCmd 0 3 fun _ => c 1 0)) (fun t => (t.cmd 0 3).outs == []) = true := by decide +kernel

theorem test_witness_SpdmRequestsFollowTheirOrder :
    secured.serves (.doe 1) = true ∧ ({ pwr := { aux := false } } : State).serves .i3c = false ∧
    okWith (exec (.getVersion .i3c) secured) (fun t => (t.conn .i3c).version && t.out.length == 1) = true ∧
    okWith (exec (.getCapabilities .i3c) secured) (fun t => t.out == [.spdm .i3c "ERROR" []]) = true ∧
    okWith (exec (.getCapabilities (.doe 1)) secured) (fun t => t.out == [.spdm (.doe 1) "CAPABILITIES" (toLe 4 0x1862D6)]) = true ∧
    okWith (exec (.negotiateAlgorithms (.doe 1) ⟨0x60, 4, 0x10, 2⟩) secured) (fun t => (t.conn (.doe 1)).algorithms && (t.conn (.doe 1)).asym == 5) = true ∧
    okWith (exec (.negotiateAlgorithms (.doe 1) ⟨0x40, 4, 0x10, 2⟩) secured) (fun t => (t.conn (.doe 1)).asym == 6) = true ∧
    okWith (exec (.negotiateAlgorithms (.doe 1) ⟨0x60, 4, 0x10, 1⟩) secured) (fun t => t.out == [.spdm (.doe 1) "ERROR" []]) = true ∧
    okWith (exec (.getCsr (.doe 1) (some 1)) secured) (fun t => t.out == [.spdm (.doe 1) "ERROR" []]) = true ∧
    secured.hasChain 0 = true ∧ secured.hasChain 1 = false ∧ (secured.conn (.doe 1)).taken 0 = false ∧
    (secured.conn (.doe 1)).taken 2 = true ∧ (secured.conn (.doe 1)).live 2 = true ∧
    okWith (exec (.keyExchange (.doe 1) 0 []) secured) (fun t => (t.conn (.doe 1)).taken 0) = true ∧
    okWith (exec (.finish (.doe 1) 2 []) secured) (fun t => t.out == [.spdm (.doe 1) "ERROR" []]) = true ∧
    okWith (exec (.keyUpdate (.doe 1) 2) secured) (fun t => Tab.get 0 (t.conn (.doe 1)).keyGen 2 == 1) = true ∧
    okWith (exec (.endSession (.doe 1) 2) secured) (fun t => !(t.conn (.doe 1)).live 2) = true ∧
    okWith (exec (.setCertificate (.doe 1) (some 2) 7 [1]) secured) (fun t => t.chain 7 == [1]) = true ∧
    okWith (exec (.setCertificate (.doe 1) (some 2) 0 [1]) secured) (fun t => t.sec.certs == []) = true ∧
    okWith (exec (.getMeasurements (.doe 1) 0 false) secured) (fun t => t.out == [.spdm (.doe 1) "MEASUREMENTS" [10]]) = true := by decide +kernel

theorem test_witness_FirmwareUpdateWritesTheOtherBank :
    let a : UpdateAgent := ⟨1, 0x6440⟩
    State.reset.managed = true ∧ State.reset.boot.update = none ∧
    okWith (exec (.requestUpdate a) State.reset) (fun t => t.boot.bankCode 1 == 1 && (t.boot.bankAt 0).bytes == none) = true ∧
    okWith (exec (.requestUpdate { a with component := 1 }) State.reset) (fun t => t.out == [.pldm "ComponentNotSupported" 1] && t.boot.update == none) = true ∧
    okWith (exec (.requestUpdate a) (after (.requestUpdate a) State.reset)) (fun t => t.out.length == 2) = true ∧
    okWith (exec (.requestUpdate a) { boot := { ready := false } }) (fun t => t.out == [.pldm "RETRY_REQUEST_UPDATE" 0]) = true ∧
    (let s := after (.requestUpdate a) State.reset
     okWith (exec (.firmwareImageWrite 0 [1, 2] false) s) (fun t =>
       (t.boot.update.map (·.image)) == some [1, 2] && (t.boot.bankAt 1).bytes == some [0xFF, 0xFF]) = true ∧
     s.boot.imageCode (layIn [] 0 [1, 2]) (fun _ => true) ≠ 0 ∧
     okWith (exec (.firmwareImageWrite 0 [1, 2] true) s) (fun t => t.boot.update == none && t.boot.bankCode 1 == 1) = true ∧
     okWith (exec (.firmwareImageWrite (2 ^ 25) [1] true) s) (fun t => t == s) = true) ∧
    (let s : State := { boot := { update := some { agent := 0, bank := 1, image := [], verified := true } } }
     s.boot.pref.seq = 0 ∧ okWith (exec .activateFirmware s) (fun t => t.boot.preferred == 1 && t.boot.trial) = true) := by decide +kernel

theorem test_witness_SensorsAndTheManagementAddress :
    okWith (exec (.getSensorReading (.railCode 0)) State.reset) (fun t => t.out == [.pldm "GetSensorReading" 64]) = true ∧
    State.reset.pldmTypes = some 0x25 ∧ State.reset.busAddress = some (false, 0x60 + State.reset.pwr.strap) ∧
    okWith (exec (.setdasa 9) State.reset) (fun t => t.busAddress == some (true, 9)) = true ∧
    okWith (exec (.setdasa 8) (after (.setdasa 9) State.reset)) (fun t => t.pwr.i3cDynamic == some 9) = true ∧
    okWith (exec .rstdaa (after (.setdasa 9) State.reset)) (fun t => t.pwr.i3cDynamic == none) = true := by decide +kernel

/-- FAULT_Q of port 0; the fault queue's interrupt field is bits 27 to 16 with the vector below its enable. -/
theorem test_witness_CauseBitsAndTheirVectors :
    let s := mapped.updPort 0 fun h => { h with event := 2 ^ 27 + 5 * 2 ^ 16, faultQ := { h.faultQ with enable := true }, msix := [(5, { ctl := 0 })] }
    (s.ctx (s.cmd 0 3).ctx).owner = 0 ∧ (s.port 0).isDown = false ∧ (s.port 0).faultQ.full = false ∧
    bitOf ((s.postFault 1 0 3 2 0 false 0).port 0).cause 8 = true ∧ ((s.postFault 1 0 3 2 0 false 0).port 1).cause = 0 ∧
    bitOf (s.port 0).cause 8 = false ∧ bitOf (s.port 0).event (eventField 8).2 = true ∧
    (s.setCause 0 8).out = [.msix 0 0 5] ∧ ((s.setCause 0 8).setCause 0 8).out = [.msix 0 0 5] ∧
    bitOf (s.port 1).event (eventField 6).2 = false ∧ ((s.setCauseAll 6).port 1).cause = 64 := by decide +kernel

theorem test_witness_WrittenNaNsAreCanonical :
    decodeFmt .bf16 0xFFC1 0 = .nan ∧ (convertNum .nan .bf16 0 none).v = 0x7FC0 ∧
    decodeFmt .fp32 0x7F800001 0 = .nan ∧ decodeFmt .fp16 0xFFFF 0 = .nan := by decide +kernel

/-- Codes 1 and 32766 are the ends: m = 64 with b = -63 gives 256, m = 127 with b = 56 gives 32736. -/
theorem test_witness_L8ValuesAreL16Values :
    decodeFmt .l8 0x40 (-63) = decodeFmt .l16 256 0 ∧ decodeFmt .l8 0xFF 56 = decodeFmt .l16 (0x8000 + 32736) 0 ∧
    (1 : Int) ≤ 16384 + 32 * ((64 : Int) - 64) + 256 * (-63) ∧ (16384 : Int) + 32 * ((127 : Int) - 64) + 256 * 56 ≤ 32766 := by decide +kernel

/-! ### Joined tiles, maps, headers, ranks and what a wait leaves -/

/-- Two commands of named tile 0 on engine 2: tag 3 fills it, tag 4 stands behind it; their ACC bytes. -/
def atTile (a b : Nat) : State :=
  let c (k : Nat) := mmCmd (patch mm1 51 (toLe 1 k))
  (((withTwo mapped (c a) (c b)).updSlot 2 0 fun _ => { state := .head, port := 0, tag := 3, opcode := 1, lastUnit := 1, pass := .filling }).updSlot 2 1
    fun _ => { state := .admitted, port := 0, tag := 4, opcode := 1, lastUnit := 1 }).updNamed 2 0 fun _ => { state := .busy, owner := 0, cls := 1 }

/-- One that does not join waits, one that joins a command with no HOLD is turned away, another hangs on it and its drain waits. -/
theorem test_witness_JoinedTiles :
    ((atTile 9 1).chainTail 2 0).map (·.tag) = some 3 ∧ ((atTile 9 1).updSlot 2 0 fun v => { v with pass := .none }).chainTail 2 0 = none ∧
    okWith (exec (.namedTileArrival 2 1) (atTile 9 1)) (fun t => t == atTile 9 1) = true ∧
    okWith (exec (.namedTileArrival 2 1) (atTile 1 17)) (fun t => (t.cmd 0 4).status == some stBadDescriptor) = true ∧
    okWith (exec (.namedTileArrival 2 1) ((atTile 9 17).updCmd 0 4 fun c => { c with prec := 4, stages := [{ body := patch (patch mm1 51 (toLe 1 17)) 3 (toLe 1 0x81) }] }))
      (fun t => (t.cmd 0 4).status == some stAccClass) = true ∧
    okWith (exec (.namedTileArrival 2 1) (atTile 9 17)) (fun t => (t.slot 2 1).pass == .joined && t.joinWaits 0 4) = true ∧
    (let s := (after (.namedTileArrival 2 1) (atTile 9 17)).updSlot 2 1 fun v => { v with draining := true }
     okWith (exec (.tileDrain 2 1) s) (fun t => t == s) = true) := by decide +kernel

/-- A named command that is turned away leaves the tile it has reached on another engine as it found it. -/
theorem test_witness_TurnedAway :
    let s := ((atTile 1 17).updSlot 5 0 fun _ =>
      { state := .admitted, port := 0, tag := 4, opcode := 1, lastUnit := 1, pass := .filling, tile := { state := .held, cls := 1 } }).updNamed 5 0 fun _ => { state := .busy, cls := 1 }
    okWith (exec (.namedTileArrival 2 1) s) (fun t => (t.named 5 0).state == .held && (t.cmd 0 4).status == some stBadDescriptor) = true := by decide +kernel

/-- A stream of A whose stage has a tile map reads the map first, and the steps it shows absent are not fetched. -/
theorem test_witness_TileMapIsReadFirst :
    let c : Cmd := { phase := .admission, desc := mm1, stages := [{ body := patch mm1 120 (toLe 8 0x600), ext := lay 64 [(24, toLe 8 0x700)] }], prec := 1, group := 3 }
    let s (m : Byte) : State :=
      let u : State := { mapped with mem := { mapped.mem with hbm := mapped.mem.hbm ++ (if m = 0 then [] else [(0x10700, m)]) } }
      (after (.admission 0 3) (withCmd u c)).updCmd 0 3 fun c => { c with maps := [] }
    ((s 1).slot 2 0).state = .admitted ∧ (s 1).winner 0 = some (2, 0) ∧ (s 1).mapOwed ((s 1).strm 2 0) = some 0x700 ∧
    (let t := after (.streamRequestGrant 0) (s 1)
     ((t.cmd 0 3).mm 0).map = some [1] ∧ (t.strm 2 0).reqs = [] ∧ 0 < (t.strm 2 0).length ∧ t.mapOwed (t.strm 2 0) = none) ∧
    (((s 0).takeMap 0 3 0).strm 2 0).length = 0 := by decide +kernel

/-- The header of a CHECKPOINT's image reaches memory as it passes step 7 with OK, and not with another status. -/
theorem test_witness_CheckpointHeaderBecomesVisible :
    let c : Cmd := { phase := .ended, desc := desc 0x0D [(64, toLe 8 0x2000), (72, toLe 4 (2 ^ 31))], snap := { header := [7, 8] } }
    let s := withCmd mapped c
    (s.cmd 0 3).atPeer = false ∧ s.headerWaits 0 3 = none ∧ s.drains 0 3 = false ∧ s.writesOut 0 3 = true ∧ s.joinOpen 0 3 = false ∧
    okWith (exec (.commandVisibility 0 3) s) (fun t => Memory.get t.mem.hbm 0x12001 == 8) = true ∧
    okWith (exec (.commandVisibility 0 3) (withCmd mapped { c with status := some stDropped })) (fun t => t.mem == s.mem) = true ∧
    (let u := { s with mem := { mapped.mem with marked := [(tagField 0 9, 1)] } }
     u.headerWaits 0 3 = some 1 ∧ okWith (exec (.commandVisibility 0 3) u) (fun t => t.mem.awaited == [1] && (t.cmd 0 3).phase == .ended) = true) := by decide +kernel

/-- A record that cannot be read: what the descriptor and the records already read decide ranks ahead of it. -/
theorem test_witness_UnreadableRecords :
    let d := patch (patch (patch mm1 112 (toLe 8 0x20000)) 52 (toLe 1 0)) 3 (toLe 1 0x11)
    let s (d : List Byte) (m : List (Nat × Byte)) : State :=
      let u := withCmd mapped { phase := .fetched, desc := d }
      { u with mem := { u.mem with hbm := mapped.mem.hbm ++ m } }
    let c (u : State) := u.inherit (u.cmd 0 3)
    let ext := patch d 120 (toLe 8 0x600)
    let st (u : State) := match exec (.descriptorChecks 0 3) u with | .next t => (t.cmd 0 3).status | _ => none
    (headerOk (c (s d [])) && recordAddrsOk (c (s d [])) && bodyOwnOk (c (s d []))) = true ∧
    (match (s d []).fetchRecords (c (s d [])) with | .error (.at_ x, _) => x.kind == 1 | _ => false) = true ∧
    st (s d []) = some stFaultAbort ∧
    st (s ext [(0x10600, 16)]) = some stBadDescriptor ∧ st (s ext []) = some stFaultAbort ∧
    st ((s d []).updCtx 0 fun x => { x with engineAllow := 1 }) = some stDenied ∧
    st (withRcv (s d []) fun r => { r with fence := 4 }) = some stDropped := by decide +kernel

/-- A module without power: triggers change nothing. -/
theorem test_witness_Unpowered :
    let s : State := { mapped with pwr := { mapped.pwr with pll := false } }
    s.powered = false ∧ mapped.powered = true ∧ s.wideReset = true ∧
    okWith (exec (.powerCycleRequest 9) s) (fun t => t == s) = true ∧ okWith (exec (.correctedError (.engine 2) 0) s) (fun t => t == s) = true ∧
    okWith (exec .swresetModule s) (fun t => t.ctxs == s.ctxs && t.rcv.moduleResets == 0) = true := by decide +kernel

/-- ENABLE is refused for the context before the ring's shape and its completion ring; RING.RESULT keeps the reason. -/
theorem test_witness_RingReasons :
    let s (f : Ring → Ring) : State := (ringed 0x1000).updRing 0 1 fun g => f { g with state := .disabled }
    let reason (i : Instr) (u : State) : Option (Nat × Nat) := match exec i u with
      | .next t => some ((t.area 0 0).ringState, (t.area 0 0).ringReason)
      | _ => none
    reason (.ringEnable 0 0 1) (s fun g => { g with ctx := 9, log2Len := 17 }) = some (3, 3) ∧
    reason (.ringEnable 0 0 1) (s fun g => { g with log2Len := 17 }) = some (3, 4) ∧ reason (.ringEnable 0 0 1) (s fun g => { g with cq := 9 }) = some (3, 4) ∧
    reason (.ringEnable 0 0 1) (ringed 0x1000) = some (3, 1) ∧ reason (.ringDisable 0 0 1) (s id) = some (3, 1) ∧
    reason (.ringPause 0 0 1) (s id) = some (3, 1) ∧
    reason (.ringStop 0 0 1) ((s id).updPort 0 fun h => { h with vfEnabled := 1, vfRings := [(0, { ringCount := 4 })] }) = some (3, 2) ∧
    reason (.cqEnable 0 0 3) (State.reset.updCq 0 3 fun q => { q with log2Len := 17 }) = some (3, 4) ∧ reason (.cqEnable 0 0 0) (ringed 0x1000) = some (3, 1) := by decide +kernel

/-- PORT.VF_RINGS of a virtual function is an RWL field: written while the set-up is open, counted while it is locked. -/
theorem test_witness_VfRingsAreLocked :
    okWith (exec (.registerWrite 0 0 0x11108 8 3) State.reset) (fun t => Tab.get {} (t.port 1).vfRings 1 == vfRingsOf 3) = true ∧
    okWith (exec (.registerWrite 0 0 0x11108 8 3) { sec := { locked := true } }) (fun t =>
      (t.port 1).vfRings == [] && t.sec.lockedWrites == 1) = true := by decide +kernel

/-- A READ of a window is answered with its bytes, one outside every window with STATUS 1. -/
theorem test_witness_ReadIsAnswered :
    let k := pkt 0 2048 3 [(0, toLe 8 0x100), (8, toLe 4 7), (12, toLe 4 2)] []
    let s := upLink id
    (s.link 0).overrun k false = false ∧ packetFormed k = true ∧ s.peer.waiting = [] ∧ s.peer.txOff = false ∧
    s.windowFor k.src (pf k 12 8) (pf k 24 4) false = none ∧
    (s.route (s.packetTo k.src 4 (toLe 4 (pf k 20 4) ++ toLe 1 1) []) false none).isSome = true ∧
    okWith (exec (.read 0 (k, false)) s) (fun t => t.mem == s.mem && (t.link 0).txq.any fun x => x.1.ptype == 4 && pf x.1 12 4 == 7 && pf x.1 16 1 == 1) = true := by decide +kernel

/-- A bank whose components are all checked at step 4 has nothing for step 8 to reject. -/
theorem test_witness_DigestsOfDies :
    let s : State := { boot := { ready := false, phase := 1, diesUp := false, banks := [(0, { bytes := some (lay 200 [(6, toLe 2 1), (64, toLe 1 2)]) })] } }
    State.reset.boot.diesOk 0 = true ∧ s.boot.diesOk 0 = true ∧ okWith (exec (.diesLoaded true) s) (fun t => t.boot.phase == 2) = true ∧
    okWith (exec (.diesLoaded false) { s with boot := { s.boot with trialRunning := true } }) (fun t =>
      t.boot.preferred == 1 && !t.boot.trial && t.boot.lostTrial == 6) = true := by decide +kernel

/-- An engine that a pre-emption has stopped brings no parked command back. -/
theorem test_witness_StoppedByPreemption :
    let s := ((secondReady.updSlot 2 1 fun v => { v with state := .parked }).updEng 2 fun g => { g with head := none }).updPart 0 fun a => { a with preempting := true }
    s.atBoundary 2 = true ∧ okWith (exec (.switchBack 2) s) (fun t => t == s) = true := by decide +kernel

/-- A packet of an unknown PTYPE at its destination is discarded and counted. -/
theorem test_witness_UnknownPacketsAreDiscarded :
    let k := pkt 0 2048 0x55 [] []
    otherRow k = false ∧ otherRow (pkt 0 2048 1 [] []) = true ∧
    okWith (exec (.packetForward 0 k false) (upLink id)) (fun t => t.peer.discarded == 1) = true := by decide +kernel

/-- The prologue of a factored pass runs on the lowest engine of its mask. -/
theorem test_witness_FactoredPrologue :
    let c : Cmd := { run (desc 0x08 [(51, toLe 1 1), (64, toLe 8 0x100), (72, toLe 8 0x200), (80, toLe 8 0x400), (88, toLe 4 1), (92, toLe 4 1), (96, toLe 8 4)]) with
      entry := lay 64 [(20, toLe 1 2)], prog := List.replicate 256 0 }
    let s := working mapped c
    (s.firstSlot 0 3).map (·.1) = some 2 ∧ (bitOf (fld (s.cmd 0 3).entry 20 1) 1 && (s.cmd 0 3).factor == 0) = true ∧
    goes (s.prologue 0 3 (s.cmd 0 3)) = true ∧ okWith (exec (.update 0 3) s) (fun t => (t.cmd 0 3).factor == 0x10000 && (t.slot 2 0).rows == 0) = true := by decide +kernel
end Sys2Proof.Tests
end

section
/-!
SUPPORT. The set-up lock and the register writes that it guards: what a write to one offset of BAR0 does (16 R384, R386).
-/

namespace Sys2Proof.Machine

theorem exec_registerWrite (p : Port) (f : Fn) (off size : Nat) (v : W64) (s : State) :
    exec (.registerWrite p f off size v) s = execRegisterWrite p f off size v s := rfl

/-! ### The lock's command -/

/-- R386: a physical function takes a free lock. -/
theorem execSetupLockTake_free {p : Port} {s : State} (ready : s.boot.ready = true) (free : s.sec.locked = false) :
    execSetupLockTake p 0 s =
      .next { s with sec := { s.sec with locked := true, lockedBy := p, lockSnapshot := s.rwlFields } } := by
  simp [execSetupLockTake, ready, free]

/-- A virtual function never takes the lock, and no one takes it twice. -/
theorem execSetupLockTake_refused {p : Port} {f : Fn} {s : State} (h : f ≠ 0 ∨ s.sec.locked = true) :
    execSetupLockTake p f s = .next s := by
  rcases h with h | h <;> simp [execSetupLockTake, h]

/-! ### Which writes reach the register map -/

/-- R384: an access that is not 4 or 8 bytes, or not aligned, is ignored. -/
theorem execRegisterWrite_misplaced {off size : Nat} (h : accessOk off size = false) (p : Port) (f : Fn) (v : W64) (s : State) :
    execRegisterWrite p f off size v s = .next s := by
  simp [execRegisterWrite, h]

/-- BAR0 ends at 16 MiB. -/
theorem execRegisterWrite_beyond {off : Nat} (h : 0x1000000 ≤ off) (p : Port) (f : Fn) (size : Nat) (v : W64) (s : State) :
    execRegisterWrite p f off size v s = .next s := by
  simp [execRegisterWrite, Nat.not_lt.2 h, show ¬off < 0x10000 by omega]

/-- A good access by a physical function goes to the register map. -/
theorem execRegisterWrite_pf {off size : Nat} (ok : accessOk off size = true) (h : off < 0x1000000) (p : Port) (v : W64) (s : State) :
    execRegisterWrite p 0 off size v s = .next (s.writePf p off size v) := by
  simp [execRegisterWrite, ok, h]

/-- R368: before READY the map takes a write to RCV.SWRESET only. -/
theorem writePf_notReady {s : State} (ready : s.boot.ready = false) {off : Nat} (h : off / 8 * 8 ≠ 0x300020) (p : Port)
    (size : Nat) (v : W64) : s.writePf p off size v = s := by
  simp [State.writePf, ready, h]

theorem writeVf_notReady {s : State} (ready : s.boot.ready = false) (p : Port) (f : Fn) (off size : Nat) (v : W64) :
    s.writeVf p f off size v = s := by
  simp [State.writeVf, ready]

theorem writeVf_absent {s : State} {p : Port} {f : Fn} (up : s.fnUp p f = false) (off size : Nat) (v : W64) :
    s.writeVf p f off size v = s := by
  simp [State.writeVf, up]

/-- The physical function of a port always exists. -/
@[simp] theorem State.fnUp_zero (s : State) (p : Port) : s.fnUp p 0 = true := rfl

/-- A write that neither map takes. -/
theorem execRegisterWrite_ignored {p : Port} {f : Fn} {off size : Nat} {v : W64} {s : State}
    (pf : f = 0 → s.writePf p off size v = s) (vf : s.writeVf p f off size v = s) :
    execRegisterWrite p f off size v s = .next s := by
  unfold execRegisterWrite
  congr 1
  by_cases hf : f = 0
  · simp [hf, pf hf]
  · simp [hf, vf]

/-! ### A write as the eight bytes around it see it -/

/-- At an 8-aligned offset the low bits of the write are the low bits of its value. -/
theorem wrWord_four_val {off : Nat} (h : off % 8 = 0) (v : W64) : (wrWord off 4 v).val = v.toNat % 2 ^ 32 := by
  simp [wrWord, h]

theorem wrWord_four_hits {off : Nat} (h : off % 8 = 0) (v : W64) : (wrWord off 4 v).hits 0 = true := by
  simp [wrWord, WrWord.hits, bitOf, h]

/-- A write of all eight bytes replaces the word. -/
theorem wrWord_eight_merge {off : Nat} (h : off % 8 = 0) (v : W64) (old : Nat) : (wrWord off 8 v).merge old = v.toNat := by
  simp [wrWord, WrWord.merge, h, Nat.mod_eq_of_lt v.isLt]

/-! ### The RWL registers, and the lock's own -/

/-- SEC.LOCK (R386): a physical function that writes TAKE gives the command. -/
theorem exec_registerWrite_lock {s : State} (ready : s.boot.ready = true) (p : Port) {v : W64} (take : v.getLsbD 0 = true) :
    exec (.registerWrite p 0 0x600000 4 v) s = exec (.setupLockTake p 0) s := by
  have one : (wrWord 0x600000 4 v).one 0 = true := by
    rw [BitVec.getLsbD, Nat.testBit_zero, decide_eq_true_eq] at take
    simp [WrWord.one, wrWord_four_val, bitOf, take]
  have write : s.writePf p 0x600000 4 v = after s (execSetupLockTake p 0 s) := by
    simp [State.writePf, State.writeSec, ready, one]
  rw [exec_registerWrite, execRegisterWrite_pf rfl (by decide), write]
  rfl

/-- PWR.GOV_LIMIT (R386) sees the low ten bits of the value. -/
theorem exec_registerWrite_govLimit {s : State} (ready : s.boot.ready = true) (p : Port) (v : W64) :
    exec (.registerWrite p 0 0x400000 4 v) s = .next (
      if s.sec.locked then s.lockedWrite
      else if 300 ≤ bitsOf v.toNat 9 0 ∧ bitsOf v.toNat 9 0 ≤ 700 then
        { s with pwr := { s.pwr with govLimit := bitsOf v.toNat 9 0 } }
      else s) := by
  have low : bitsOf (wrWord 0x400000 4 v).val 9 0 = bitsOf v.toNat 9 0 := by
    rw [wrWord_four_val (by decide)]
    simp only [bitsOf]
    omega
  rw [exec_registerWrite, execRegisterWrite_pf rfl (by decide)]
  simp [State.writePf, State.writePwr, ready, low, wrWord_four_hits]

/-- PORT.VF_RINGS (R386) of the virtual function `i + 1` of port `h`. -/
theorem exec_registerWrite_vfRings {s : State} (ready : s.boot.ready = true) (p h : Port) (i : Fin 16) (v : W64) :
    exec (.registerWrite p 0 (0x10100 + 0x1000 * h.val + 8 * i.val) 8 v) s = .next (
      if s.sec.locked then s.lockedWrite
      else s.updPort h fun x => { x with vfRings := Tab.upd {} x.vfRings i.val fun _ => vfRingsOf v.toNat }) := by
  have hh := h.isLt
  have hi := i.isLt
  generalize hoff : 0x10100 + 0x1000 * h.val + 8 * i.val = off
  have aligned : off / 8 * 8 = off := by omega
  have port : Fin.ofNat 2 ((off - 0x10000) / 0x1000) = h := by
    apply Fin.ext; simp only [Fin.ofNat]; omega
  have place : (off - 0x10000) % 0x1000 = 0x100 + 8 * i.val := by omega
  have slot : (0x100 + 8 * i.val - 0x100) / 8 = i.val := by omega
  have merge (old : Nat) := wrWord_eight_merge (off := off) (by omega) v old
  have ok : accessOk off 8 = true := by simp [accessOk, show off % 8 = 0 by omega]
  rw [exec_registerWrite, execRegisterWrite_pf ok (by omega), State.writePf, State.writePort]
  simp only [aligned, port, place, slot, merge, ready]
  simp (disch := omega) only [if_neg, if_pos, Bool.not_true, Bool.false_eq_true, if_false]

end Sys2Proof.Machine
end

section
open Sys2Proof Sys2Proof.Machine

/-- Settles O43: the lock's command by its two cases, the RWL registers by what a write to each answers, and the writes that
change nothing by the check that turns each away. -/
theorem setupLockAndRegisterWrites : Obligations.SetupLockAndRegisterWrites := by
  unfold Obligations.SetupLockAndRegisterWrites
  refine ⟨fun p f s ready => ⟨?_, execSetupLockTake_refused⟩, fun p v s take ready => exec_registerWrite_lock ready p take,
    fun p v s ready => ⟨?_, ?_, ?_⟩, fun p h i v s ready => ⟨?_, ?_⟩,
    fun p f off size v s => ⟨fun bad => execRegisterWrite_misplaced bad p f v s,
      fun beyond => execRegisterWrite_beyond beyond p f size v s, ?_, ?_⟩⟩
  · rintro rfl free
    exact ⟨_, execSetupLockTake_free ready free, rfl, rfl, rfl, rfl⟩
  · intro locked
    rw [exec_registerWrite_govLimit ready, if_pos locked]
    rfl
  · intro free low high
    rw [exec_registerWrite_govLimit ready, if_neg (by simp [free]), if_pos ⟨low, high⟩]
  · intro free outside
    rw [exec_registerWrite_govLimit ready, if_neg (by simp [free]), if_neg (by omega)]
  · intro locked
    rw [exec_registerWrite_vfRings ready, if_pos locked]
    rfl
  · intro free
    rw [exec_registerWrite_vfRings ready, if_neg (by simp [free])]
  · exact fun ready h => execRegisterWrite_ignored (fun _ => writePf_notReady ready h p size v)
      (writeVf_notReady ready p f off size v)
  · intro absent
    refine execRegisterWrite_ignored (fun pf => ?_) (writeVf_absent absent off size v)
    rw [pf, State.fnUp_zero] at absent
    exact absurd absent (by decide)

end

section
/-!
SUPPORT. Cancellation of commands: what an abort for CANCELLED changes of the commands and what it leaves alone of the host ports
(09 R199, R222).
-/

namespace Sys2Proof.Machine

/-! ### Tables -/

/-- An entry that differs from the default is listed. -/
theorem Tab.get_mem_of_ne {α : Type} {d : α} {t : Tab α} {i : Nat} (h : Tab.get d t i ≠ d) : (i, Tab.get d t i) ∈ t := by
  induction t with
  | nil => exact absurd rfl h
  | cons x t ih =>
    obtain ⟨k, v⟩ := x
    by_cases e : i = k
    · simp [Tab.get, e]
    · simp only [Tab.get, e, if_false] at h ⊢
      exact List.mem_cons_of_mem _ (ih h)

theorem Tab.mem_keysBelow_of_get_ne {α : Type} {d : α} {t : Tab α} {n : Nat} {i : Fin n} (h : Tab.get d t i.val ≠ d) :
    i ∈ Tab.keysBelow n t := by
  simp only [Tab.keysBelow, List.mem_filterMap]
  exact ⟨_, Tab.get_mem_of_ne h, by simp⟩

/-- Reading an entry of a table some of whose entries were changed alike. -/
theorem Tab.get_map_if {α : Type} (d : α) (t : Tab α) (i : Nat) (P : α → Prop) [DecidablePred P] (f : α → α) (hd : P d → f d = d) :
    Tab.get d (t.map fun x => if P x.2 then (x.1, f x.2) else x) i =
      if P (Tab.get d t i) then f (Tab.get d t i) else Tab.get d t i := by
  rw [← Tab.get_map d t i (fun v => if P v then f v else v) (by simpa using hd)]
  congr 2; funext x; split <;> rfl

/-- What no operation of a fold changes, the fold leaves as it was. -/
theorem foldl_same {α β : Type} {f : State → α → State} (g : State → β) (hf : ∀ s x, g (f s x) = g s) (l : List α) (s : State) :
    g (l.foldl f s) = g s := by
  induction l generalizing s with
  | nil => rfl
  | cons x l ih => exact (ih (f s x)).trans (hf s x)

/-! ### The commands of a context -/

theorem State.mem_cmds {s : State} {p : Port} {g : Tag} {x : Cmd} :
    (p, g, x) ∈ s.cmds ↔ x = s.cmd p g ∧ x.phase ≠ .free := by
  simp only [State.cmds, List.mem_flatMap, List.mem_finRange, true_and, List.mem_filterMap]
  constructor
  · rintro ⟨q, h, -, e⟩
    split at e
    · cases e
    · next live => cases e; exact ⟨rfl, live⟩
  · rintro ⟨rfl, live⟩
    refine ⟨p, g, Tab.mem_keysBelow_of_get_ne (d := {}) fun e => live ?_, by simp [live]⟩
    rw [State.cmd, e]

theorem State.mem_cmdsOf {s : State} {c : CtxNo} {p : Port} {g : Tag} {x : Cmd} :
    (p, g, x) ∈ s.cmdsOf c ↔ x = s.cmd p g ∧ x.phase ≠ .free ∧ x.ctx = c ∧ x.home = none := by
  simp [State.cmdsOf, State.mem_cmds, and_assoc]

/-- Which commands a context has follows from the commands alone. -/
theorem State.cmdsOf_eq_nil_of_cmd {s t : State} {c : CtxNo} (h : ∀ p g, t.cmd p g = s.cmd p g) (nil : s.cmdsOf c = []) :
    t.cmdsOf c = [] := by
  refine List.eq_nil_iff_forall_not_mem.2 fun ⟨p, g, x⟩ hx => ?_
  rw [State.mem_cmdsOf, h, ← State.mem_cmdsOf, nil] at hx
  cases hx

/-! ### Operations that leave the host ports alone -/

theorem updCmd_ports_congr {s t : State} (h : t.ports = s.ports) (p : Port) (g : Tag) (f : Cmd → Cmd) :
    (t.updCmd p g f).ports = (s.updCmd p g f).ports := by
  simp only [State.updCmd, State.updPort, State.setPort, State.port, h]

@[simp] theorem stopStreams_ports (s : State) (e : Eng) (p : Port) (g : Tag) : (s.stopStreams e p g).ports = s.ports := by
  refine foldl_ports _ (fun s i => ?_) _ _
  dsimp only
  split <;> rfl

@[simp] theorem clearFilling_ports (s : State) (e : Eng) (k : SlotNo) : (s.clearFilling e k).ports = s.ports := by
  simp only [State.clearFilling, State.updSlot_ports]
  split
  · obtain ⟨-, -, -, -, frame⟩ := updTile_frame s e k fun _ => {}
    rw [frame]
  · rfl

@[simp] theorem stopWork_ports (s : State) (p : Port) (g : Tag) : (s.stopWork p g).ports = s.ports :=
  foldl_ports _ (fun s x => by simp) _ _

@[simp] theorem dropSide_ports (s : State) (p : Port) (g : Tag) : (s.dropSide p g).ports = s.ports := by
  unfold State.dropSide
  exact foldl_ports (fun s q => s.updPart q (Partition.dropItems · p g)) (fun _ _ => rfl) _ _

/-! ### What a cancellation makes of a command -/

/-- CANCELLED ranks behind every other cause (R222). -/
theorem ranksFirst_cancelled (old : Nat) : ranksFirst stCancelled old = false := by
  by_cases h : old ∈ [stPartitionReset, stDropped, stFaultAbort, stCancelled]
  · simp only [List.mem_cons, List.not_mem_nil, or_false] at h
    rcases h with rfl | rfl | rfl | rfl <;> decide
  · simp only [ranksFirst, List.contains_eq_mem, decide_eq_false h, Bool.and_false, Bool.false_and]

/-- R222: a command that is cancelled keeps a status that it has. -/
theorem Cmd.fail_cancelled (c : Cmd) (now : W64) : c.fail stCancelled now =
    { c with status := some (c.status.getD stCancelled), causeAt := if c.status = none then now else c.causeAt } := by
  unfold Cmd.fail
  split
  · next h => simp [h]
  · next old h =>
    rw [ranksFirst_cancelled, if_neg (by simp), if_neg (by simp [h]), h, Option.getD_some, ← h]

/-- `d` is the command `c` after a cancellation of some commands: it may have ended, with a status that it had not; neither its
tag nor its record has been reached that was not, and a status it had stays. -/
structure Cmd.Cancelling (c d : Cmd) : Prop where
  rest : d = { c with phase := d.phase, status := d.status, causeAt := d.causeAt }
  free : d.phase = .free ↔ c.phase = .free
  record : d.phase = .record ↔ c.phase = .record
  status : ∀ st, c.status = some st → d.status = some st

namespace Cmd.Cancelling

theorem refl (c : Cmd) : Cmd.Cancelling c c := ⟨rfl, .rfl, .rfl, fun _ => id⟩

theorem trans {c d e : Cmd} (h : Cmd.Cancelling c d) (k : Cmd.Cancelling d e) : Cmd.Cancelling c e where
  rest := by rw [k.rest, h.rest]
  free := k.free.trans h.free
  record := k.record.trans h.record
  status st x := k.status st (h.status st x)

theorem ctx {c d : Cmd} (h : Cmd.Cancelling c d) : d.ctx = c.ctx := by rw [h.rest]
theorem home {c d : Cmd} (h : Cmd.Cancelling c d) : d.home = c.home := by rw [h.rest]

/-- A command whose record is not reached takes CANCELLED and goes on to a phase before its record. -/
theorem fail {c : Cmd} (free : c.phase ≠ .free) (record : c.phase ≠ .record) (now : W64) {ph : Phase} (free' : ph ≠ .free)
    (record' : ph ≠ .record) : Cmd.Cancelling c { c.fail stCancelled now with phase := ph } := by
  rw [Cmd.fail_cancelled]
  exact ⟨rfl, by simp [free, free'], by simp [record, record'], fun st h => by simp [h]⟩

end Cmd.Cancelling

/-- A command of a context is still one after a cancellation. -/
theorem State.mem_cmdsOf_of_cancelling {s t : State} {c : CtxNo} {p : Port} {g : Tag}
    (h : Cmd.Cancelling (s.cmd p g) (t.cmd p g)) (m : (p, g, s.cmd p g) ∈ s.cmdsOf c) : (p, g, t.cmd p g) ∈ t.cmdsOf c := by
  rw [State.mem_cmdsOf] at m ⊢
  obtain ⟨-, live, ctx, home⟩ := m
  exact ⟨rfl, mt h.free.1 live, h.ctx.trans ctx, h.home.trans home⟩

/-! ### What a cancellation makes of the state -/

/-- `t` is `s` after a cancellation of some commands, as far as the host ports go: of a port only commands have changed. -/
structure Cancelling (s t : State) : Prop where
  port : ∀ p, t.port p = { s.port p with tags := (t.port p).tags }
  cmd : ∀ p g, Cmd.Cancelling (s.cmd p g) (t.cmd p g)

namespace Cancelling

theorem refl (s : State) : Cancelling s s := ⟨fun _ => rfl, fun _ _ => .refl _⟩

theorem trans {s t u : State} (h : Cancelling s t) (k : Cancelling t u) : Cancelling s u where
  port p := by rw [k.port, h.port]
  cmd p g := (h.cmd p g).trans (k.cmd p g)

theorem foldl {α : Type} {f : State → α → State} (hf : ∀ s x, Cancelling s (f s x)) (l : List α) (s : State) :
    Cancelling s (l.foldl f s) := by
  induction l generalizing s with
  | nil => exact refl s
  | cons x l ih => exact (hf s x).trans (ih _)

/-- The change of one command, in a state whose ports are otherwise untouched. -/
theorem of_ports {s t : State} {p : Port} {g : Tag} {f : Cmd → Cmd} (ports : t.ports = (s.updCmd p g f).ports)
    (h : Cmd.Cancelling (s.cmd p g) (f (s.cmd p g))) : Cancelling s t := by
  have port (q : Port) : t.port q = (s.updCmd p g f).port q := by simp only [State.port, ports]
  refine ⟨fun q => ?_, fun q j => ?_⟩
  · rw [port]
    by_cases e : q = p
    · subst e; simp [State.updCmd]
    · simp [State.updCmd, e]
  · have cmd : t.cmd q j = (s.updCmd p g f).cmd q j := by simp only [State.cmd, port]
    rw [cmd, State.cmd_updCmd]
    split
    · next e => obtain ⟨rfl, rfl⟩ := e; exact h
    · exact .refl _

theorem area {s t : State} (h : Cancelling s t) (p : Port) (f : Fn) : t.area p f = s.area p f := by
  simp only [State.area]; rw [h.port]

end Cancelling

/-- What ends a command before its record takes it to a phase before its record. -/
theorem abortOne_cancelling (s : State) (p : Port) (g : Tag) : Cancelling s (s.abortOne p g stCancelled) := by
  unfold State.abortOne
  split
  · exact .refl s
  · exact .refl s
  · next ph =>
    refine .of_ports (updCmd_ports_congr (foldl_ports _ (fun _ _ => stopStreams_ports ..) _ _) ..) ?_
    have k := Cmd.Cancelling.fail (c := s.cmd p g) (by simp [ph]) (by simp [ph]) s.hk (ph := .ended) (by simp) (by simp)
    simpa [Cmd.fail_cancelled, ← ph] using k
  · next ph =>
    exact .of_ports (updCmd_ports_congr (by simp) ..) (.fail (by simp [ph]) (by simp [ph]) s.hk (by decide) (by decide))
  · next ph =>
    exact .of_ports (updCmd_ports_congr (by simp) ..) (.fail (by simp [ph]) (by simp [ph]) s.hk (by decide) (by decide))
  · next free record _ _ _ =>
    exact .of_ports (updCmd_ports_congr (by simp) ..) (.fail free record _ (by simp) (by simp))

theorem abortGo_cancelling (fuel : Nat) (s : State) (p : Port) (g : Tag) : Cancelling s (s.abortGo fuel p g stCancelled) := by
  induction fuel generalizing s p g with
  | zero => exact abortOne_cancelling s p g
  | succ fuel ih => exact (abortOne_cancelling s p g).trans (.foldl (fun s (j : Port × Tag) => ih s j.1 j.2) _ _)

theorem abortCmd_cancelling (s : State) (p : Port) (g : Tag) : Cancelling s (s.abortCmd p g stCancelled) :=
  abortGo_cancelling 4 s p g

/-- The cause marks a command whose record is not reached, and no other. -/
theorem cmd_markCmd (s : State) (p : Port) (g : Tag) (st : Nat) (q : Port) (j : Tag) : (s.markCmd p g st).cmd q j =
    if (q = p ∧ j = g) ∧ (s.cmd p g).phase ≠ .free ∧ (s.cmd p g).phase ≠ .record then (s.cmd p g).fail st s.hk else s.cmd q j := by
  unfold State.markCmd
  split
  · next reached =>
    rw [if_neg]
    rintro ⟨-, free, record⟩
    exact reached.elim free record
  · next h =>
    have waits : (s.cmd p g).phase ≠ .free ∧ (s.cmd p g).phase ≠ .record := not_or.1 h
    rw [State.cmd_updCmd]
    simp only [waits, ne_eq, not_false_eq_true, and_true]

theorem markCmd_cancelling (s : State) (p : Port) (g : Tag) : Cancelling s (s.markCmd p g stCancelled) := by
  unfold State.markCmd
  split
  · exact .refl s
  · next h =>
    obtain ⟨free, record⟩ := not_or.1 h
    have k := Cmd.Cancelling.fail free record s.hk free record
    exact .of_ports rfl (by simpa [Cmd.fail_cancelled] using k)

/-- Every command that an abort names, and whose record is not reached, carries CANCELLED unless it had a status. -/
theorem markCmds_status {cs : List (Port × Tag)} {p : Port} {g : Tag} (m : (p, g) ∈ cs) {s : State}
    (free : (s.cmd p g).phase ≠ .free) (record : (s.cmd p g).phase ≠ .record) :
    ((cs.foldl (fun s c => s.markCmd c.1 c.2 stCancelled) s).cmd p g).status = some ((s.cmd p g).status.getD stCancelled) := by
  induction cs generalizing s with
  | nil => cases m
  | cons c cs ih =>
    by_cases e : c = (p, g)
    · subst e
      have rest : Cancelling (s.markCmd p g stCancelled) (cs.foldl (fun s c => s.markCmd c.1 c.2 stCancelled) _) :=
        .foldl (fun s (c : Port × Tag) => markCmd_cancelling s c.1 c.2) _ _
      refine (rest.cmd p g).status _ ?_
      rw [cmd_markCmd, if_pos ⟨⟨rfl, rfl⟩, free, record⟩, Cmd.fail_cancelled]
    · have m' : (p, g) ∈ cs := (List.mem_cons.1 m).resolve_left (Ne.symm e)
      have other : (s.markCmd c.1 c.2 stCancelled).cmd p g = s.cmd p g := by
        rw [cmd_markCmd, if_neg]
        rintro ⟨⟨rfl, rfl⟩, -⟩
        exact e rfl
      rw [List.foldl_cons, ih m' (by rwa [other]) (by rwa [other]), other]

/-- Commands that are aborted one after the other. -/
theorem foldl_abortCmd_cancelling (s : State) (cs : List (Port × Tag)) :
    Cancelling s (cs.foldl (fun s c => s.abortCmd c.1 c.2 stCancelled) s) :=
  .foldl (fun s (c : Port × Tag) => abortCmd_cancelling s c.1 c.2) cs s

theorem abortCmds_cancelling (s : State) (cs : List (Port × Tag)) : Cancelling s (s.abortCmds cs stCancelled) :=
  .trans (.foldl (fun s (c : Port × Tag) => markCmd_cancelling s c.1 c.2) cs s) (foldl_abortCmd_cancelling _ cs)

theorem abortCmds_status {cs : List (Port × Tag)} {p : Port} {g : Tag} (m : (p, g) ∈ cs) {s : State}
    (free : (s.cmd p g).phase ≠ .free) (record : (s.cmd p g).phase ≠ .record) :
    ((s.abortCmds cs stCancelled).cmd p g).status = some ((s.cmd p g).status.getD stCancelled) :=
  ((foldl_abortCmd_cancelling _ cs).cmd p g).status _ (markCmds_status m free record)

@[simp] theorem abortCmds_ctx (s : State) (cs : List (Port × Tag)) (st : Nat) (c : CtxNo) : (s.abortCmds cs st).ctx c = s.ctx c := by
  simp only [State.ctx, (abortCmds_within (rch := {}) s (.refl s) cs st).ctxs rfl]

end Sys2Proof.Machine
end

section
/-!
SUPPORT. The end of a context: what the operations of an abort and of a destruction change (09 R99, R199; 16 R390).
-/

namespace Sys2Proof.Machine

/-! ### Rings, tiles and areas -/

theorem State.ring_updRingsOf (s : State) (c : CtxNo) (f : Ring → Ring) (q : Port) (r : RingNo) : (s.updRingsOf c f).ring q r =
    if q = (s.ctx c).owner ∧ (s.ring q r).state ≠ .disabled ∧ (s.ring q r).ctx = c then f (s.ring q r) else s.ring q r := by
  by_cases hq : q = (s.ctx c).owner
  · subst hq
    simp only [State.updRingsOf, State.ring, State.port_updPort_same, true_and]
    exact Tab.get_map_if ({} : Ring) _ _ (fun g => g.state ≠ .disabled ∧ g.ctx = c) f (by simp)
  · simp [State.updRingsOf, State.ring, hq]

@[simp] theorem State.cmd_updRingsOf (s : State) (c : CtxNo) (f : Ring → Ring) (q : Port) (g : Tag) :
    (s.updRingsOf c f).cmd q g = s.cmd q g := by
  by_cases hq : q = (s.ctx c).owner
  · subst hq; simp [State.updRingsOf, State.cmd]
  · simp [State.updRingsOf, State.cmd, hq]

@[simp] theorem State.area_updRingsOf (s : State) (c : CtxNo) (f : Ring → Ring) (q : Port) (n : Fn) :
    (s.updRingsOf c f).area q n = s.area q n := by
  by_cases hq : q = (s.ctx c).owner
  · subst hq; simp [State.updRingsOf, State.area]
  · simp [State.updRingsOf, State.area, hq]

@[simp] theorem State.isDown_updRingsOf (s : State) (c : CtxNo) (f : Ring → Ring) (q : Port) :
    ((s.updRingsOf c f).port q).isDown = (s.port q).isDown := by
  by_cases hq : q = (s.ctx c).owner
  · subst hq; simp [State.updRingsOf, HostPort.isDown]
  · simp [State.updRingsOf, hq]

@[simp] theorem State.isDown_updArea (s : State) (p : Port) (n : Fn) (f : Area → Area) (q : Port) :
    ((s.updArea p n f).port q).isDown = (s.port q).isDown := by
  simp [HostPort.isDown]

@[simp] theorem State.ctx_updRingsOf (s : State) (c : CtxNo) (f : Ring → Ring) (d : CtxNo) : (s.updRingsOf c f).ctx d = s.ctx d := rfl

@[simp] theorem State.port_clearHeld (s : State) (c : CtxNo) (q : Port) : (s.clearHeld c).port q = s.port q := rfl
@[simp] theorem State.ring_clearHeld (s : State) (c : CtxNo) (q : Port) (r : RingNo) : (s.clearHeld c).ring q r = s.ring q r := rfl
@[simp] theorem State.cmd_clearHeld (s : State) (c : CtxNo) (q : Port) (g : Tag) : (s.clearHeld c).cmd q g = s.cmd q g := rfl
@[simp] theorem State.area_clearHeld (s : State) (c : CtxNo) (q : Port) (n : Fn) : (s.clearHeld c).area q n = s.area q n := rfl
@[simp] theorem State.ctx_clearHeld (s : State) (c d : CtxNo) : (s.clearHeld c).ctx d = s.ctx d := rfl

/-- R99: the tiles that a context holds are cleared, and no others. -/
theorem State.named_clearHeld (s : State) (c : CtxNo) (e : Eng) (a : Nat) : (s.clearHeld c).named e a =
    if (s.named e a).state = .held ∧ (s.named e a).owner = c then {} else s.named e a := by
  have eng := Tab.get_map ({} : Engine) s.engines e.val (fun g => { g with named := g.named.map fun t =>
    if t.2.state = .held ∧ t.2.owner = c then (t.1, {}) else t }) rfl
  have named : ((s.clearHeld c).eng e).named = _ := congrArg Engine.named eng
  rw [State.named, named]
  exact Tab.get_map_if ({} : Tile) _ _ (fun t => t.state = .held ∧ t.owner = c) (fun _ => {}) (by simp)

/-- CTX.RESULT of the area that waits leaves busy. -/
@[simp] theorem State.answerArea_some (s : State) (p : Port) (f : Fn) (st reason : Nat) :
    s.answerArea (some (p, f)) st reason = s.updArea p f fun a => a.ctxAnswer st reason := rfl

/-! ### The rings of a context that goes -/

theorem answerDisable_eq (s : State) (p : Port) (g : Ring) :
    s.answerDisable p g = s ∨ ∃ f, g.disabling = some f ∧ s.answerDisable p g = s.answerRing p f 0 := by
  unfold State.answerDisable
  split
  · next f h => exact .inr ⟨f, h, rfl⟩
  · exact .inl rfl

@[simp] theorem State.ring_answerDisable (s : State) (p : Port) (g : Ring) (q : Port) (r : RingNo) :
    (s.answerDisable p g).ring q r = s.ring q r := by
  rcases answerDisable_eq s p g with e | ⟨f, -, e⟩ <;> simp [e, State.answerRing]

@[simp] theorem State.ctx_answerDisable (s : State) (p : Port) (g : Ring) (d : CtxNo) : (s.answerDisable p g).ctx d = s.ctx d := by
  rcases answerDisable_eq s p g with e | ⟨f, -, e⟩ <;> simp [e, State.answerRing]

@[simp] theorem State.mem_answerDisable (s : State) (p : Port) (g : Ring) : (s.answerDisable p g).mem = s.mem := by
  rcases answerDisable_eq s p g with e | ⟨f, -, e⟩ <;> simp [e, State.answerRing]

/-- A DISABLE that waits is done, and one that was done stays so (R393). -/
theorem State.ringState_answerDisable {s : State} {p : Port} {g : Ring} {f : Fn}
    (h : g.disabling = some f ∨ (s.area p f).ringState = 2) : ((s.answerDisable p g).area p f).ringState = 2 := by
  unfold State.answerDisable
  split
  · next f' waits =>
    rw [State.answerRing, State.area_updArea]
    split
    · rfl
    · next other =>
      refine h.resolve_left fun same => other ⟨rfl, ?_⟩
      rw [same] at waits
      exact Option.some.inj waits
  · next none => exact h.resolve_left (by simp [none])

theorem ringState_answerDisables {p : Port} {f : Fn} {l : List Ring} {s : State}
    (h : (∃ g ∈ l, g.disabling = some f) ∨ (s.area p f).ringState = 2) :
    ((l.foldl (fun s g => s.answerDisable p g) s).area p f).ringState = 2 := by
  induction l generalizing s with
  | nil => simpa using h
  | cons g l ih =>
    refine ih ?_
    rcases h with ⟨g', m, h⟩ | h
    · rcases List.mem_cons.1 m with rfl | m
      · exact .inr (State.ringState_answerDisable (.inl h))
      · exact .inl ⟨g', m, h⟩
    · exact .inr (State.ringState_answerDisable (.inr h))

section
variable (g : Ring)
@[simp] theorem Ring.stop_ctx : g.stop.ctx = g.ctx := by unfold Ring.stop; split <;> rfl
@[simp] theorem Ring.stop_head : g.stop.head = g.head := by unfold Ring.stop; split <;> rfl
@[simp] theorem Ring.stop_paused : g.stop.paused = g.paused := by unfold Ring.stop; split <;> rfl
@[simp] theorem Ring.stop_disabling : g.stop.disabling = g.disabling := by unfold Ring.stop; split <;> rfl
theorem Ring.stop_state (h : g.state ≠ .disabled) : g.stop.state = .stopped := by simp [Ring.stop, h]
end

theorem State.ring_clearRingsOf (s : State) (p : Port) (c : CtxNo) (r : RingNo) : (s.clearRingsOf p c).ring p r =
    if (s.ring p r).ctx = c then { paused := (s.ring p r).paused } else s.ring p r := by
  simp only [State.clearRingsOf]
  generalize hu : List.foldl _ s _ = u
  have ring : u.ring p r = s.ring p r := hu ▸ foldl_same (fun s => s.ring p r) (fun _ _ => State.ring_answerDisable ..) _ _
  rw [← ring, State.ring, State.port_updPort_same]
  exact Tab.get_map_if ({} : Ring) _ _ (fun g => g.ctx = c) (fun g => { paused := g.paused }) (fun _ => rfl)

@[simp] theorem State.ctx_clearRingsOf (s : State) (p : Port) (c d : CtxNo) : (s.clearRingsOf p c).ctx d = s.ctx d :=
  foldl_same (fun s => s.ctx d) (fun _ _ => State.ctx_answerDisable ..) _ _

@[simp] theorem State.mem_clearRingsOf (s : State) (p : Port) (c : CtxNo) : (s.clearRingsOf p c).mem = s.mem :=
  foldl_same State.mem (fun _ _ => State.mem_answerDisable ..) _ _

/-- A DISABLE that waited on a ring of the context is done (R393). -/
theorem State.ringState_clearRingsOf {s : State} {p : Port} {c : CtxNo} {r : RingNo} {f : Fn} (ctx : (s.ring p r).ctx = c)
    (h : (s.ring p r).disabling = some f) : ((s.clearRingsOf p c).area p f).ringState = 2 := by
  have listed : s.ring p r ∈ ((s.port p).rings.map (·.2)).filter fun g => g.ctx == c := by
    rw [List.mem_filter, List.mem_map]
    refine ⟨⟨_, Tab.get_mem_of_ne (d := {}) fun e => ?_, rfl⟩, by simpa using ctx⟩
    rw [State.ring, e] at h
    cases h
  simp only [State.clearRingsOf]
  rw [State.area, State.port_updPort_same]
  exact ringState_answerDisables (.inl ⟨_, listed, h⟩)

/-! ### An abort that begins -/

section
variable (s : State) (c : CtxNo)

theorem State.ctx_beginAbort (st : Nat) (d : CtxNo) :
    (s.beginAbort c st).ctx d = if d = c then { s.ctx c with state := .aborting } else s.ctx d := by
  simp only [State.beginAbort, State.ctx_clearHeld, State.ctx_updRingsOf, abortCmds_ctx]
  exact State.ctx_updCtx s c (fun x => { x with state := .aborting }) d

@[simp] theorem State.area_beginAbort (p : Port) (f : Fn) : (s.beginAbort c stCancelled).area p f = s.area p f := by
  simp only [State.beginAbort, State.area_clearHeld, State.area_updRingsOf]
  rw [(abortCmds_cancelling ..).area, State.area_updCtx]

theorem State.cmd_beginAbort (p : Port) (g : Tag) : Cmd.Cancelling (s.cmd p g) ((s.beginAbort c stCancelled).cmd p g) := by
  simp only [State.beginAbort, State.cmd_clearHeld, State.cmd_updRingsOf]
  exact (abortCmds_cancelling (s.updCtx c _) _).cmd p g

/-- R199: every command of the context whose record is not reached carries CANCELLED unless it had a status. -/
theorem State.status_beginAbort {p : Port} {g : Tag} (m : (p, g, s.cmd p g) ∈ s.cmdsOf c) (waits : (s.cmd p g).phase ≠ .record) :
    ((s.beginAbort c stCancelled).cmd p g).status = some ((s.cmd p g).status.getD stCancelled) := by
  obtain ⟨-, live, -⟩ := State.mem_cmdsOf.1 m
  simp only [State.beginAbort, State.cmd_clearHeld, State.cmd_updRingsOf]
  refine abortCmds_status (s := s.updCtx c _) (List.mem_map.2 ⟨(p, g, s.cmd p g), ?_, rfl⟩) live waits
  rw [State.mem_cmdsOf] at m ⊢
  exact m

end

/-! ### An abort that ends -/

/-- A context without commands whose abort or destruction has begun: `w` waits for its end. -/
def State.haltCtx (s : State) (c : CtxNo) (w : CtxEnd) : State :=
  ((s.updCtx c fun x => { x with ends := x.ends ++ [w], state := .aborting }).updRingsOf c Ring.stop).clearHeld c

section
variable (s : State) (c : CtxNo) (w : CtxEnd)

theorem State.ctx_haltCtx (d : CtxNo) : (s.haltCtx c w).ctx d =
    if d = c then { s.ctx c with ends := (s.ctx c).ends ++ [w], state := .aborting } else s.ctx d :=
  State.ctx_updCtx s c (fun x => { x with ends := x.ends ++ [w], state := .aborting }) d

theorem State.ring_haltCtx (q : Port) (r : RingNo) : (s.haltCtx c w).ring q r =
    if q = (s.ctx c).owner ∧ (s.ring q r).state ≠ .disabled ∧ (s.ring q r).ctx = c then (s.ring q r).stop else s.ring q r := by
  simp [State.haltCtx, State.ring_updRingsOf]

theorem State.named_haltCtx (e : Eng) (a : Nat) : (s.haltCtx c w).named e a =
    if (s.named e a).state = .held ∧ (s.named e a).owner = c then {} else s.named e a :=
  State.named_clearHeld _ c e a

/-- Stopping the rings of a context leaves the fields that its destruction reads. -/
theorem State.ring_haltCtx_fields (q : Port) (r : RingNo) : ((s.haltCtx c w).ring q r).ctx = (s.ring q r).ctx ∧
    ((s.haltCtx c w).ring q r).paused = (s.ring q r).paused ∧ ((s.haltCtx c w).ring q r).disabling = (s.ring q r).disabling := by
  rw [State.ring_haltCtx]
  split <;> simp

@[simp] theorem State.cmd_haltCtx (q : Port) (g : Tag) : (s.haltCtx c w).cmd q g = s.cmd q g := by simp [State.haltCtx]
@[simp] theorem State.area_haltCtx (q : Port) (n : Fn) : (s.haltCtx c w).area q n = s.area q n := by simp [State.haltCtx]
@[simp] theorem State.mem_haltCtx : (s.haltCtx c w).mem = s.mem := rfl

@[simp] theorem State.liveState_haltCtx : (s.haltCtx c w).liveState c = s.liveState c := by
  simp only [State.liveState, State.ctx_haltCtx, if_true]
  simp [State.haltCtx]

end

theorem endCtx_begins {s : State} {c : CtxNo} (calm : (s.ctx c).state ≠ .aborting) (w : CtxEnd) (st : Nat) :
    s.endCtx c w st = ((s.updCtx c fun x => { x with ends := x.ends ++ [w] }).beginAbort c st).settle c := by
  simp [State.endCtx, calm]

theorem endCtx_idle {s : State} {c : CtxNo} (calm : (s.ctx c).state ≠ .aborting) (idle : s.cmdsOf c = []) (w : CtxEnd) (st : Nat) :
    s.endCtx c w st = (s.haltCtx c w).settle c := by
  have none : (s.updCtx c fun x => { x with ends := x.ends ++ [w], state := .aborting }).cmdsOf c = [] :=
    State.cmdsOf_eq_nil_of_cmd (fun _ _ => rfl) idle
  rw [endCtx_begins calm, State.beginAbort]
  simp only [State.updCtx_updCtx, none]
  rfl

/-- A context that is in no abort has nothing to settle. -/
theorem settleGo_calm {s : State} {c : CtxNo} (calm : (s.ctx c).state ≠ .aborting) (fuel : Nat) : s.settleGo fuel c = s := by
  cases fuel with
  | zero => rfl
  | succ fuel =>
    simp only [State.settleGo]
    split
    · next h _ => exact absurd h calm
    · rfl

/-- An abort waits for every command whose record is not reached. -/
theorem settleGo_waits {s : State} {c : CtxNo} {x : Port × Tag × Cmd} (m : x ∈ s.cmdsOf c) (h : x.2.2.phase ≠ .record)
    (fuel : Nat) : s.settleGo fuel c = s := by
  cases fuel with
  | zero => rfl
  | succ fuel =>
    simp only [State.settleGo]
    split
    · next w _ _ _ =>
      have waits : ¬(s.cmdsOf c).all (fun y => s.settled w.destroy y.2.2) = true := by
        rw [List.all_eq_true]
        exact fun all => by simpa [State.settled, h] using all x m
      rw [if_neg waits]
    · rfl

theorem State.liveState_ne_aborting (s : State) (c : CtxNo) : s.liveState c ≠ .aborting := by
  unfold State.liveState
  split <;> simp

/-- The one abort of a context without commands ends: the context lives again (R199). -/
theorem settleGo_abort {s : State} {c : CtxNo} {a : Option (Port × Fn)} (aborting : (s.ctx c).state = .aborting)
    (one : (s.ctx c).ends = [⟨false, a⟩]) (idle : s.cmdsOf c = []) (fuel : Nat) :
    s.settleGo (fuel + 1) c = (s.updCtx c fun x => { x with ends := [], state := s.liveState c }).answerArea a 2 0 := by
  generalize ht : (s.updCtx c fun x => { x with ends := [], state := s.liveState c }).answerArea a 2 0 = t
  have calm : (t.ctx c).state ≠ .aborting := by
    rw [← ht]
    cases a <;> simp [State.answerArea, s.liveState_ne_aborting c]
  rw [← settleGo_calm calm fuel, ← ht]
  simp [State.settleGo, aborting, one, idle]

/-- The one destruction of a context without commands ends: record and rings return to their reset values (R9, R199). -/
theorem settleGo_destroy {s : State} {c : CtxNo} {a : Option (Port × Fn)} (aborting : (s.ctx c).state = .aborting)
    (one : (s.ctx c).ends = [⟨true, a⟩]) (idle : s.cmdsOf c = []) (fuel : Nat) :
    s.settleGo (fuel + 1) c = ((s.clearRingsOf (s.ctx c).owner c).updCtx c fun _ => {}).answerArea a 2 0 := by
  simp [State.settleGo, State.keepHomes, aborting, one, idle]

section
variable {s : State} {c : CtxNo} (calm : (s.ctx c).state ≠ .aborting) (ends : (s.ctx c).ends = []) (idle : s.cmdsOf c = [])
include calm ends idle

/-- A context without commands is alive again as soon as it is aborted. -/
theorem endCtx_abort_idle (a : Option (Port × Fn)) (st : Nat) : s.endCtx c ⟨false, a⟩ st =
    ((s.haltCtx c ⟨false, a⟩).updCtx c fun x => { x with ends := [], state := s.liveState c }).answerArea a 2 0 := by
  rw [endCtx_idle calm idle, ← State.liveState_haltCtx s c ⟨false, a⟩]
  exact settleGo_abort (by simp [State.ctx_haltCtx]) (by simp [State.ctx_haltCtx, ends])
    (State.cmdsOf_eq_nil_of_cmd (by simp) idle) 4095

/-- A context without commands is free as soon as it is destroyed. -/
theorem endCtx_destroy_idle (a : Option (Port × Fn)) (st : Nat) : s.endCtx c ⟨true, a⟩ st =
    (((s.haltCtx c ⟨true, a⟩).clearRingsOf (s.ctx c).owner c).updCtx c fun _ => {}).answerArea a 2 0 := by
  have owner : ((s.haltCtx c ⟨true, a⟩).ctx c).owner = (s.ctx c).owner := by simp [State.ctx_haltCtx]
  rw [endCtx_idle calm idle, ← owner]
  exact settleGo_destroy (by simp [State.ctx_haltCtx]) (by simp [State.ctx_haltCtx, ends])
    (State.cmdsOf_eq_nil_of_cmd (by simp) idle) 4095

end

end Sys2Proof.Machine
end

section
/-!
SUPPORT. CTX_ABORT and CTX_DESTROY, the one operation that they share, by whether the context has commands (09 R199; 16 R389, R390).
-/

namespace Sys2Proof.Machine

/-- The command that asks for the end of a context: its destruction, or an abort. -/
def endInstr (destroy : Bool) (p : Port) (f : Fn) (c : CtxNo) : Instr := if destroy then .ctxDestroy p f c else .ctxAbort p f c

/-- CTX.CMD takes the operation. -/
def State.takeEnd (s : State) (destroy : Bool) (p : Port) (f : Fn) (c : CtxNo) : State :=
  s.updArea p f fun a => a.take (if destroy then 3 else 2) c 0

section
variable (s : State) (destroy : Bool) (p : Port) (f : Fn) (c : CtxNo)
@[simp] theorem State.ctx_takeEnd (d : CtxNo) : (s.takeEnd destroy p f c).ctx d = s.ctx d := rfl
@[simp] theorem State.mem_takeEnd : (s.takeEnd destroy p f c).mem = s.mem := rfl
@[simp] theorem State.named_takeEnd (e : Eng) (a : Nat) : (s.takeEnd destroy p f c).named e a = s.named e a := rfl
@[simp] theorem State.ring_takeEnd (q : Port) (r : RingNo) : (s.takeEnd destroy p f c).ring q r = s.ring q r := by
  simp [State.takeEnd]
@[simp] theorem State.cmd_takeEnd (q : Port) (g : Tag) : (s.takeEnd destroy p f c).cmd q g = s.cmd q g := by
  simp [State.takeEnd]
@[simp] theorem State.liveState_takeEnd (d : CtxNo) : (s.takeEnd destroy p f c).liveState d = s.liveState d := by
  simp [State.takeEnd, State.liveState]
end

theorem exec_endInstr {p : Port} {f : Fn} {s : State} (free : s.areaFree p f = true) (ready : s.boot.ready = true) (destroy : Bool)
    (c : CtxNo) : exec (endInstr destroy p f c) s = .next (
      if s.mayWriteCtx p f c then (s.takeEnd destroy p f c).endCtx c ⟨destroy, some (p, f)⟩ stCancelled
      else (s.takeEnd destroy p f c).answerArea (some (p, f)) 3 2) := by
  cases destroy
  · show execCtxAbort p f c s = _
    simp [execCtxAbort, free, ready, State.takeEnd]
  · show execCtxDestroy p f c s = _
    simp [execCtxDestroy, free, ready, State.takeEnd]

/-- R368: a module that is not READY takes no operation. -/
theorem exec_endInstr_notReady {s : State} (ready : s.boot.ready = false) (destroy : Bool) (p : Port) (f : Fn) (c : CtxNo) :
    exec (endInstr destroy p f c) s = .next s := by
  cases destroy
  · show execCtxAbort p f c s = _
    simp [execCtxAbort, ready]
  · show execCtxDestroy p f c s = _
    simp [execCtxDestroy, ready]

/-- Who may write a context's record belongs to its owner (R196). -/
theorem State.owner_of_mayWriteCtx {s : State} {p : Port} {f : Fn} {c : CtxNo} (may : s.mayWriteCtx p f c = true) :
    (s.ctx c).owner = p := by
  simp only [State.mayWriteCtx, Bool.and_eq_true, beq_iff_eq] at may
  obtain ⟨⟨⟨-, owner⟩, -⟩, -⟩ := may
  exact owner

/-- Only a change of the host ports: REASON 2 of the area (R390). -/
theorem exec_endInstr_refused {p : Port} {f : Fn} {c : CtxNo} {s : State} (free : s.areaFree p f = true) (ready : s.boot.ready = true)
    (may : s.mayWriteCtx p f c = false) (destroy : Bool) : ∃ t, exec (endInstr destroy p f c) s = .next t ∧
      (t.area p f).ctxState = 3 ∧ (t.area p f).ctxReason = 2 ∧ t = { s with ports := t.ports } ∧
      (∀ h r, t.ring h r = s.ring h r) ∧ ∀ h g, t.cmd h g = s.cmd h g := by
  refine ⟨_, by rw [exec_endInstr free ready, may, if_neg (by simp)], ?_, ?_, rfl, fun h r => ?_, fun h g => ?_⟩ <;>
    simp [State.takeEnd, Area.ctxAnswer]

section
variable {p : Port} {f : Fn} {c : CtxNo} {s : State} (free : s.areaFree p f = true) (ready : s.boot.ready = true)
  (may : s.mayWriteCtx p f c = true) (calm : (s.ctx c).state ≠ .aborting)
include free ready may calm

/-- R199: a context without commands is alive again after its abort, its rings STOPPED and its tiles cleared. -/
theorem exec_ctxAbort_idle (ends : (s.ctx c).ends = []) (idle : s.cmdsOf c = []) : ∃ t, exec (.ctxAbort p f c) s = .next t ∧
    (t.ctx c).state = s.liveState c ∧ (t.ctx c).ends = [] ∧ (∀ d, d ≠ c → t.ctx d = s.ctx d) ∧
    (∀ r, t.ring p r =
      if (s.ring p r).state ≠ .disabled ∧ (s.ring p r).ctx = c then (s.ring p r).stop else s.ring p r) ∧
    (∀ e a, t.named e a = if (s.named e a).state = .held ∧ (s.named e a).owner = c then {} else s.named e a) ∧
    (t.area p f).ctxState = 2 ∧ t.mem = s.mem := by
  have owner := State.owner_of_mayWriteCtx may
  have idle' : (s.takeEnd false p f c).cmdsOf c = [] := State.cmdsOf_eq_nil_of_cmd (by simp) idle
  have step := exec_endInstr free ready false c
  rw [if_pos may, endCtx_abort_idle (s := s.takeEnd false p f c) calm ends idle'] at step
  refine ⟨_, step, ?_, ?_, fun d other => ?_, fun r => ?_, fun e a => ?_, ?_, rfl⟩
  · simp
  · simp
  · simp [other, State.ctx_haltCtx]
  · simp [State.ring_haltCtx, owner]
  · exact State.named_haltCtx (s.takeEnd false p f c) c ⟨false, some (p, f)⟩ e a
  · simp [Area.ctxAnswer]

/-- R9, R199: after its destruction a context without commands, and every ring that names it, are at their reset values, but for
PAUSED. -/
theorem exec_ctxDestroy_idle (ends : (s.ctx c).ends = []) (idle : s.cmdsOf c = []) : ∃ t, exec (.ctxDestroy p f c) s = .next t ∧
    t.ctx c = {} ∧ (∀ d, d ≠ c → t.ctx d = s.ctx d) ∧
    (∀ r, t.ring p r = if (s.ring p r).ctx = c then { paused := (s.ring p r).paused } else s.ring p r) ∧
    (∀ r f', (s.ring p r).ctx = c → (s.ring p r).disabling = some f' → (t.area p f').ringState = 2) ∧
    (t.area p f).ctxState = 2 ∧ t.mem = s.mem := by
  have owner : ((s.takeEnd true p f c).ctx c).owner = p := State.owner_of_mayWriteCtx (s := s) may
  have idle' : (s.takeEnd true p f c).cmdsOf c = [] := State.cmdsOf_eq_nil_of_cmd (by simp) idle
  have step := exec_endInstr free ready true c
  rw [if_pos may, endCtx_destroy_idle (s := s.takeEnd true p f c) calm ends idle', owner] at step
  have kept := State.ring_haltCtx_fields (s.takeEnd true p f c) c ⟨true, some (p, f)⟩ p
  simp only [State.ring_takeEnd] at kept
  refine ⟨_, step, ?_, fun d other => ?_, fun r => ?_, fun r f' ctx waits => ?_, ?_, ?_⟩
  · simp
  · simp [other, State.ctx_haltCtx]
  · obtain ⟨ctx, paused, -⟩ := kept r
    simp only [State.answerArea_some, State.ring_updArea, State.ring_updCtx, State.ring_clearRingsOf, ctx, paused]
    split
    · rfl
    · next other => simp [State.ring_haltCtx, other]
  · obtain ⟨ctx', -, waits'⟩ := kept r
    have done := State.ringState_clearRingsOf (ctx'.trans ctx) (waits'.trans waits)
    rw [State.answerArea_some, State.area_updArea]
    split
    · next same => obtain ⟨-, rfl⟩ := same; exact done
    · exact done
  · simp [Area.ctxAnswer]
  · simp

/-- R199: while a command of the context has not reached its record, the abort or destruction waits, and every such command
carries CANCELLED unless it had a status. -/
theorem exec_endInstr_busy {h : Port} {g : Tag} (m : (h, g, s.cmd h g) ∈ s.cmdsOf c) (waits : (s.cmd h g).phase ≠ .record)
    (destroy : Bool) : ∃ t, exec (endInstr destroy p f c) s = .next t ∧ (t.ctx c).state = .aborting ∧ (t.area p f).ctxState = 1 ∧
      ∀ h g, (h, g, s.cmd h g) ∈ s.cmdsOf c → (s.cmd h g).phase ≠ .record →
        (t.cmd h g).status = some ((s.cmd h g).status.getD stCancelled) := by
  have step := exec_endInstr free ready destroy c
  rw [if_pos may, endCtx_begins (s := s.takeEnd destroy p f c) calm] at step
  generalize hu : (s.takeEnd destroy p f c).updCtx c (fun x => { x with ends := x.ends ++ [⟨destroy, some (p, f)⟩] }) = u at step
  have cmd (h : Port) (g : Tag) : u.cmd h g = s.cmd h g := by simp [← hu]
  have mem {h : Port} {g : Tag} (m : (h, g, s.cmd h g) ∈ s.cmdsOf c) : (h, g, u.cmd h g) ∈ u.cmdsOf c := by
    rw [State.mem_cmdsOf] at m ⊢
    rwa [cmd]
  have begun := u.cmd_beginAbort c h g
  have settled := settleGo_waits (State.mem_cmdsOf_of_cancelling begun (mem m)) (by rwa [ne_eq, begun.record, cmd]) 4096
  rw [State.settle, settled] at step
  refine ⟨_, step, ?_, ?_, fun h g m waits => ?_⟩
  · simp [State.ctx_beginAbort]
  · simp [← hu, State.takeEnd, Area.take]
  · rw [u.status_beginAbort c (mem m) (by rwa [cmd]), cmd]

end

end Sys2Proof.Machine
end

section
open Sys2Proof Sys2Proof.Machine

/-- Settles O36: by whether the function may write the context, and then by whether the context has commands. -/
theorem contextsAreAbortedAndDestroyed : Obligations.ContextsAreAbortedAndDestroyed := by
  unfold Obligations.ContextsAreAbortedAndDestroyed
  refine ⟨fun p f c s destroy => ?_, fun p f c s ready =>
    ⟨exec_endInstr_notReady ready false p f c, exec_endInstr_notReady ready true p f c⟩⟩
  intro i mine free ready
  refine ⟨fun may => exec_endInstr_refused free ready may destroy, fun may calm ends => ⟨fun idle => ⟨?_, ?_⟩, ?_⟩⟩
  · obtain ⟨t, step, state, ended, others, ring, named, area, mem⟩ := exec_ctxAbort_idle free ready may calm ends idle
    refine ⟨t, step, state, ended, fun r m => ?_, fun r m => ?_, fun e a h => ?_, fun e a h => ?_, area, others, mem⟩
    · rw [ring, if_pos m]
      exact ⟨Ring.stop_state _ m.1, Ring.stop_head _⟩
    · rw [ring, if_neg m]
    · rw [named, if_pos h]
    · rw [named, if_neg h]
  · obtain ⟨t, step, ctx, others, ring, waited, area, mem⟩ := exec_ctxDestroy_idle free ready may calm ends idle
    exact ⟨t, step, ctx, ring, area, others, waited, mem⟩
  · rintro ⟨⟨h, g, x⟩, m, waits⟩
    obtain rfl : x = s.cmd h g := (State.mem_cmdsOf.1 m).1
    exact exec_endInstr_busy free ready may calm m waits destroy

end

section
/-!
SUPPORT. The fields of an IEEE element and of an L8 or L16 code: what a sign, an exponent field and a fraction laid side by side
decode to, and which exponent fields a conversion can write (02 R27, R30, R36, R37, R42).
-/

namespace Sys2Proof.Machine

/-! ### Fields laid side by side -/

/-- A field of `w` bits between what stands above it and the `n` bits below it. -/
theorem bitsOf_field {n w f : Nat} (k x : Nat) (hx : x < 2 ^ w) (hf : f < 2 ^ n) (hw : 0 < w) :
    bitsOf (k * 2 ^ (w + n) + x * 2 ^ n + f) (w + n - 1) n = x := by
  have split : k * 2 ^ (w + n) + x * 2 ^ n + f = f + 2 ^ n * (x + 2 ^ w * k) := by
    rw [Nat.add_comm _ f, Nat.pow_add, Nat.mul_comm k, Nat.mul_comm x, Nat.mul_comm (2 ^ w) (2 ^ n), Nat.mul_assoc, ← Nat.mul_add,
      Nat.add_comm x]
  rw [bitsOf, split, Nat.add_mul_div_left _ _ (Nat.two_pow_pos n), Nat.div_eq_of_lt hf, Nat.zero_add,
    show w + n - 1 + 1 - n = w by omega, Nat.add_mul_mod_self_left, Nat.mod_eq_of_lt hx]

/-- The top bit of a word above a field. -/
theorem bitOf_signBit_add {n x : Nat} (neg : Bool) (hx : x < 2 ^ n) : bitOf (b2n neg * 2 ^ n + x) n = neg := by
  rw [bitOf, Nat.add_comm, Nat.add_mul_div_right _ _ (Nat.two_pow_pos n), Nat.div_eq_of_lt hx]
  cases neg <;> rfl

theorem signBit_add_lt {n x : Nat} (neg : Bool) (hx : x < 2 ^ n) : b2n neg * 2 ^ n + x < 2 ^ (n + 1) := by
  have sign : b2n neg * 2 ^ n ≤ 1 * 2 ^ n := Nat.mul_le_mul_right _ (by cases neg <;> decide)
  rw [Nat.pow_succ]
  omega

/-- A binary digit is a sign bit. -/
theorem exists_eq_b2n {n : Nat} (hn : n < 2) : ∃ neg, n = b2n neg := by
  match n, hn with
  | 0, _ => exact ⟨false, rfl⟩
  | 1, _ => exact ⟨true, rfl⟩

/-! ### IEEE elements -/

/-- The element with sign `neg`, exponent field `ex` and fraction `fr` (R36). -/
def ieeeElem (eb fb : Nat) (neg : Bool) (ex fr : Nat) : Nat := b2n neg * 2 ^ (eb + fb) + ex * 2 ^ fb + fr

section
variable {eb fb ex fr : Nat}

/-- The exponent field and the fraction stand below the sign. -/
theorem ieeeElem_fields_lt (hex : ex < 2 ^ eb) (hfr : fr < 2 ^ fb) : ex * 2 ^ fb + fr < 2 ^ (eb + fb) :=
  calc ex * 2 ^ fb + fr < (ex + 1) * 2 ^ fb := by rw [Nat.succ_mul]; omega
    _ ≤ 2 ^ eb * 2 ^ fb := Nat.mul_le_mul_right _ hex
    _ = 2 ^ (eb + fb) := (Nat.pow_add ..).symm

theorem ieeeElem_lt (neg : Bool) (hex : ex < 2 ^ eb) (hfr : fr < 2 ^ fb) : ieeeElem eb fb neg ex fr < 2 ^ (eb + fb + 1) := by
  rw [ieeeElem, Nat.add_assoc]
  exact signBit_add_lt neg (ieeeElem_fields_lt hex hfr)

/-- With exponent field 0 the fraction stands alone below the sign: a zero or a subnormal. -/
theorem ieeeElem_subnormal (neg : Bool) : ieeeElem eb fb neg 0 fr = b2n neg * 2 ^ (eb + fb) + fr := by
  rw [ieeeElem, Nat.zero_mul, Nat.add_zero]

/-- R36, R37: an element is a NaN exactly where its exponent field is all ones and its fraction is not zero. -/
theorem decodeIeee_ieeeElem_eq_nan_iff (neg : Bool) (heb : 0 < eb) (hex : ex < 2 ^ eb) (hfr : fr < 2 ^ fb) :
    decodeIeee eb fb (ieeeElem eb fb neg ex fr) = .nan ↔ ex = 2 ^ eb - 1 ∧ fr ≠ 0 := by
  have exField : bitsOf (ieeeElem eb fb neg ex fr) (eb + fb - 1) fb = ex := bitsOf_field _ _ hex hfr heb
  have fraction : ieeeElem eb fb neg ex fr % 2 ^ fb = fr := by
    rw [ieeeElem, Nat.pow_add, ← Nat.mul_assoc, ← Nat.add_mul, Nat.add_comm, Nat.add_mul_mod_self_right, Nat.mod_eq_of_lt hfr]
  simp only [decodeIeee, exField, fraction]
  by_cases ones : ex = 2 ^ eb - 1
  · rw [if_pos ones]
    by_cases zero : fr = 0
    · rw [if_pos zero]
      exact ⟨nofun, fun h => absurd zero h.2⟩
    · rw [if_neg zero]
      exact ⟨fun _ => ⟨ones, zero⟩, fun _ => rfl⟩
  · rw [if_neg ones]
    refine ⟨fun h => ?_, fun h => absurd h.1 ones⟩
    split at h
    · split at h <;> nomatch h
    · nomatch h

end

/-! ### What a conversion writes -/

theorem lt_two_pow_bitLen (v : Nat) : v < 2 ^ bitLen v := by
  rw [bitLen]
  split
  · next zero => exact zero ▸ Nat.two_pow_pos 0
  · exact Nat.lt_log2_self

/-- Rounding at bit `n` stays within the power of two that bounds the value. -/
theorem roundShift_le {v n k : Nat} (hv : v < 2 ^ (n + k)) : roundShift v n ≤ 2 ^ k := by
  have quotient : (v : Int) / 2 ^ n < 2 ^ k := by
    exact_mod_cast Nat.div_lt_of_lt_mul (by rwa [← Nat.pow_add])
  rw [roundShift]
  split
  · next zero =>
    rw [zero, Int.pow_zero, Int.ediv_one] at quotient
    exact Int.le_of_lt quotient
  · dsimp only
    split
    · exact Int.le_of_lt quotient
    · split
      · exact quotient
      · split
        · exact Int.le_of_lt quotient
        · exact quotient

/-- A magnitude of `bitLen v` bits, shifted to leave `n` of them and rounded, is at most 2^n. -/
theorem shifted_le {v n : Nat} {sh : Int} (hv : (bitLen v : Int) ≤ sh + n) :
    (if sh ≤ 0 then v * 2 ^ (-sh).toNat else (roundShift v sh.toNat).toNat) ≤ 2 ^ n := by
  have hlt := lt_two_pow_bitLen v
  split
  · calc v * 2 ^ (-sh).toNat ≤ 2 ^ bitLen v * 2 ^ (-sh).toNat := Nat.mul_le_mul_right _ (Nat.le_of_lt hlt)
      _ = 2 ^ (bitLen v + (-sh).toNat) := (Nat.pow_add ..).symm
      _ ≤ 2 ^ n := Nat.pow_le_pow_right Nat.two_pos (by omega)
  · have fits : v < 2 ^ (sh.toNat + n) := Nat.lt_of_lt_of_le hlt (Nat.pow_le_pow_right Nat.two_pos (by omega))
    have rounded := roundShift_le fits
    rw [Int.toNat_le]
    exact_mod_cast rounded

/-- R42: what a finite value is rounded to has an exponent field below all ones. -/
theorem toIeee_v {eb : Nat} (heb : 0 < eb) (fb : Nat) (neg : Bool) (sig : Nat) (e : Int) (sticky : Bool) :
    ∃ ex fr, ex < 2 ^ eb - 1 ∧ fr < 2 ^ fb ∧ (toIeee eb fb neg sig e sticky).v = ieeeElem eb fb neg ex fr := by
  have sign : (if neg then 2 ^ (eb + fb) else 0) = b2n neg * 2 ^ (eb + fb) := by
    cases neg
    · exact (Nat.zero_mul _).symm
    · exact (Nat.one_mul _).symm
  have ones := Nat.two_pow_pred_mul_two heb
  have half := Nat.two_pow_pos (eb - 1)
  have unit := Nat.two_pow_pos fb
  simp only [toIeee, sign]
  generalize sig * 4 + b2n sticky = v
  generalize hlow : max (e - 2 + bitLen v - 1) (1 - (2 ^ (eb - 1) - 1)) = lowest
  have small := shifted_le (v := v) (n := fb + 1) (sh := lowest - fb - (e - 2)) (by push_cast; omega)
  generalize (if lowest - fb - (e - 2) ≤ 0 then _ else _ : Nat) = u at small ⊢
  generalize hex : (if 2 ^ (fb + 1) ≤ u then lowest + 1 else lowest) = ex
  generalize hu : (if 2 ^ (fb + 1) ≤ u then u / 2 else u) = w
  have digits : w < 2 ^ fb + 2 ^ fb := by
    rw [Nat.pow_succ] at small hu
    split at hu <;> omega
  by_cases zero : u = 0
  · rw [if_pos zero]
    exact ⟨0, 0, by omega, unit, (ieeeElem_subnormal (eb := eb) (fb := fb) (fr := 0) neg).symm⟩
  rw [if_neg zero]
  by_cases large : (2 : Int) ^ (eb - 1) - 1 < ex
  · rw [if_pos large]
    exact ⟨2 ^ eb - 2, 2 ^ fb - 1, by omega, by omega, rfl⟩
  rw [if_neg large]
  by_cases subnormal : w < 2 ^ fb
  · rw [if_pos subnormal]
    exact ⟨0, w, by omega, subnormal, (ieeeElem_subnormal neg).symm⟩
  rw [if_neg subnormal]
  refine ⟨_, _, ?_, ?_, rfl⟩
  · have cast : (2 : Int) ^ (eb - 1) = (2 ^ (eb - 1) : Nat) := by norm_cast
    rw [cast] at large ⊢
    omega
  · omega

/-! ### The three IEEE formats -/

section
variable {f : Fmt} {eb fb : Nat} (hf : f.ieee = some (eb, fb))
include hf

/-- R36: the formats with an exponent field. -/
theorem Fmt.ieee_cases : (f = .bf16 ∧ eb = 8 ∧ fb = 7) ∨ (f = .fp16 ∧ eb = 5 ∧ fb = 10) ∨ (f = .fp32 ∧ eb = 8 ∧ fb = 23) := by
  cases f with
  | bf16 => cases hf; exact .inl ⟨rfl, rfl, rfl⟩
  | fp16 => cases hf; exact .inr (.inl ⟨rfl, rfl, rfl⟩)
  | fp32 => cases hf; exact .inr (.inr ⟨rfl, rfl, rfl⟩)
  | _ => nomatch hf

theorem Fmt.ieee_exponent_pos : 0 < eb := by
  obtain ⟨-, rfl, -⟩ | ⟨-, rfl, -⟩ | ⟨-, rfl, -⟩ := Fmt.ieee_cases hf <;> decide

theorem decodeFmt_ieee (v : Nat) (b : Int) : decodeFmt f v b = decodeIeee eb fb (v % 2 ^ (eb + fb + 1)) := by
  obtain ⟨rfl, rfl, rfl⟩ | ⟨rfl, rfl, rfl⟩ | ⟨rfl, rfl, rfl⟩ := Fmt.ieee_cases hf <;> rfl

/-- R36, R37: which elements read as a NaN, whatever their sign and payload. -/
theorem decodeFmt_ieeeElem_eq_nan_iff {ex fr : Nat} (neg : Bool) (hex : ex < 2 ^ eb) (hfr : fr < 2 ^ fb) (b : Int) :
    decodeFmt f (ieeeElem eb fb neg ex fr) b = .nan ↔ ex = 2 ^ eb - 1 ∧ fr ≠ 0 := by
  rw [decodeFmt_ieee hf, Nat.mod_eq_of_lt (ieeeElem_lt neg hex hfr)]
  exact decodeIeee_ieeeElem_eq_nan_iff neg (Fmt.ieee_exponent_pos hf) hex hfr

/-- R37: a conversion writes the canonical NaN for a NaN, an infinity, a zero, or what a finite magnitude is rounded to. -/
theorem convertNum_ieee_cases (x : Num) (b : Int) (st : Option Nat) :
    (x = .nan ∧ (convertNum x f b st).v = nanOf eb fb) ∨
    (∃ neg, (convertNum x f b st).v = ieeeElem eb fb neg (2 ^ eb - 1) 0) ∨
    (∃ neg, (convertNum x f b st).v = ieeeElem eb fb neg 0 0) ∨
    ∃ neg sig e sticky, convertNum x f b st = toIeee eb fb neg sig e sticky := by
  obtain ⟨rfl, rfl, rfl⟩ | ⟨rfl, rfl, rfl⟩ | ⟨rfl, rfl, rfl⟩ := Fmt.ieee_cases hf <;>
  cases x with
  | nan => exact .inl ⟨rfl, rfl⟩
  | inf neg => exact .inr (.inl ⟨neg, by cases neg <;> rfl⟩)
  | zero neg => exact .inr (.inr (.inl ⟨neg, by cases neg <;> rfl⟩))
  | lin neg sig e => exact .inr (.inr (.inr ⟨neg, sig, e, false, rfl⟩))
  | code neg l => exact .inr (.inr (.inr ⟨neg, _, _, _, rfl⟩))
  | wide neg lg => exact .inr (.inr (.inr ⟨neg, _, _, _, rfl⟩))

/-- R37: a NaN in is the canonical NaN out. -/
theorem convertNum_nan_ieee (b : Int) (st : Option Nat) : (convertNum .nan f b st).v = nanOf eb fb := by
  obtain ⟨rfl, rfl, rfl⟩ | ⟨rfl, rfl, rfl⟩ | ⟨rfl, rfl, rfl⟩ := Fmt.ieee_cases hf <;> rfl

/-- R37: the one NaN that a conversion writes is the canonical one. -/
theorem convertNum_eq_nanOf {x : Num} {b : Int} {st : Option Nat} {c : Int}
    (reads : decodeFmt f (convertNum x f b st).v c = .nan) : (convertNum x f b st).v = nanOf eb fb := by
  have heb : 1 < 2 ^ eb := Nat.one_lt_two_pow (Nat.ne_of_gt (Fmt.ieee_exponent_pos hf))
  obtain ⟨-, canonical⟩ | ⟨neg, inf⟩ | ⟨neg, zero⟩ | ⟨neg, sig, e, sticky, finite⟩ := convertNum_ieee_cases hf x b st
  · exact canonical
  · rw [inf, decodeFmt_ieeeElem_eq_nan_iff hf neg (by omega) (Nat.two_pow_pos fb)] at reads
    exact absurd rfl reads.2
  · rw [zero, decodeFmt_ieeeElem_eq_nan_iff hf neg (by omega) (Nat.two_pow_pos fb)] at reads
    exact absurd rfl reads.2
  · obtain ⟨ex, fr, hex, hfr, written⟩ := toIeee_v (Fmt.ieee_exponent_pos hf) fb neg sig e sticky
    rw [finite, written, decodeFmt_ieeeElem_eq_nan_iff hf neg (by omega) hfr] at reads
    exact absurd reads.1 (Nat.ne_of_lt hex)

/-- R37: every NaN pattern, whatever its sign and payload, reads as the one NaN. -/
theorem decodeFmt_ones_eq_nan {neg payload : Nat} (hneg : neg < 2) (pos : 0 < payload) (small : payload < 2 ^ fb) (b : Int) :
    decodeFmt f (neg * 2 ^ (eb + fb) + (2 ^ eb - 1) * 2 ^ fb + payload) b = .nan := by
  obtain ⟨neg, rfl⟩ := exists_eq_b2n hneg
  exact (decodeFmt_ieeeElem_eq_nan_iff hf neg (Nat.sub_lt (Nat.two_pow_pos eb) Nat.one_pos) small b).2
    ⟨rfl, Nat.ne_of_gt pos⟩

end

/-! ### L8 within L16 -/

/-- R27: the L16 element of sign `neg` and a code between the zero and the infinity. -/
theorem decodeFmt_l16 (neg : Bool) {m : Nat} (low : 1 ≤ m) (high : m ≤ 32766) (b : Int) :
    decodeFmt .l16 (b2n neg * 2 ^ 15 + m) b = .code neg ((m : Int) - 16384) := by
  have sign := bitOf_signBit_add (n := 15) neg (x := m) (by omega)
  have word := signBit_add_lt (n := 15) neg (x := m) (by omega)
  have code : (b2n neg * 2 ^ 15 + m) % 2 ^ 15 = m := by omega
  rw [decodeFmt, Nat.mod_eq_of_lt word, decodeL16, sign, code]
  simp (disch := omega) only [if_neg]

/-- R29, R30: the L8 element of sign `neg` and a code that is not zero. -/
theorem decodeFmt_l8 (neg : Bool) {m : Nat} (low : 1 ≤ m) (high : m ≤ 127) (b : Int) :
    decodeFmt .l8 (b2n neg * 2 ^ 7 + m) b = .code neg (32 * ((m : Int) - 64) + 256 * b) := by
  have sign := bitOf_signBit_add (n := 7) neg (x := m) (by omega)
  have word := signBit_add_lt (n := 7) neg (x := m) (by omega)
  have code : (b2n neg * 2 ^ 7 + m) % 2 ^ 7 = m := by omega
  rw [decodeFmt, Nat.mod_eq_of_lt word, decodeL8, sign, code]
  simp (disch := omega) only [if_neg]

end Sys2Proof.Machine
end

section
open Sys2Proof Sys2Proof.Machine

/-- Settles O59: a conversion writes the canonical NaN or an element whose exponent field and fraction are no NaN's, and the
sign and the fraction of a NaN are not looked at. -/
theorem writtenNaNsAreCanonical : Obligations.WrittenNaNsAreCanonical := by
  unfold Obligations.WrittenNaNsAreCanonical
  refine ⟨fun x b st => ⟨convertNum_eq_nanOf (f := .fp32) rfl, convertNum_eq_nanOf (f := .bf16) rfl,
      convertNum_eq_nanOf (f := .fp16) rfl⟩,
    fun b st => ⟨convertNum_nan_ieee (f := .fp32) rfl b st, convertNum_nan_ieee (f := .bf16) rfl b st,
      convertNum_nan_ieee (f := .fp16) rfl b st⟩,
    fun b neg payload sign pos => ⟨fun small => ?_, fun small => ?_, fun small => ?_⟩⟩
  · exact decodeFmt_ones_eq_nan (f := .fp32) rfl sign pos small b
  · exact decodeFmt_ones_eq_nan (f := .bf16) rfl sign pos small b
  · exact decodeFmt_ones_eq_nan (f := .fp16) rfl sign pos small b

/-- Settles O60: both elements read as the sign with the log code 32(m - 64) + 256b. -/
theorem l8ValuesAreL16Values : Obligations.L8ValuesAreL16Values := by
  unfold Obligations.L8ValuesAreL16Values
  intro n m b c hn low high least most
  obtain ⟨neg, rfl⟩ := exists_eq_b2n hn
  rw [decodeFmt_l8 neg low high, decodeFmt_l16 neg (by omega) (by omega), Int.toNat_of_nonneg (by omega)]
  congr 1
  omega

end

section
/-!
SUPPORT. What the work of a slot leaves alone: the other engines, and on its own one the streams, the other slots and the other commands; and what
the operations at a slot's tile make of the slot, of its named tile and of its command (04 R75 to R90).
-/

namespace Sys2Proof.Machine

open Sys2Proof

/-! ### Descriptors -/

@[simp] theorem Cmd.mm_tally (c : Cmd) (n : Cnt) (st : Nat) : (c.tally n).mm st = c.mm st := rfl

/-- Which named tile a slot's command fills is told by the slot's command and that command's descriptor. -/
theorem State.accOf_congr {s t : State} {v w : Slot} (desc : (t.cmd w.port w.tag).desc = (s.cmd v.port v.tag).desc) :
    t.accOf w = s.accOf v := by
  unfold State.accOf Cmd.op Cmd.f
  dsimp only
  rw [desc]

/-! ### Work on one engine, and work of one slot -/

/-- `t` differs from `s` at most in the host ports and in one engine, whose streams stay. -/
structure OnEngine (e : Eng) (s t : State) : Prop where
  rest : t = { s with engines := t.engines, ports := t.ports }
  engs : ∀ d, d ≠ e → t.eng d = s.eng d
  streams : (t.eng e).streams = (s.eng e).streams

/-- `t` differs from `s` at most in a slot, the named tiles and the like of its engine, and the command of that slot, which the slot keeps and
whose descriptor stays. -/
structure OnSlot (e : Eng) (k : SlotNo) (s t : State) : Prop extends OnEngine e s t where
  slots : ∀ j, j ≠ k → t.slot e j = s.slot e j
  cmds : ∀ q g, (q ≠ (s.slot e k).port ∨ g ≠ (s.slot e k).tag) → t.cmd q g = s.cmd q g
  port : (t.slot e k).port = (s.slot e k).port
  tag : (t.slot e k).tag = (s.slot e k).tag
  desc : (t.cmd (s.slot e k).port (s.slot e k).tag).desc = (s.cmd (s.slot e k).port (s.slot e k).tag).desc

section
variable {e : Eng} {k : SlotNo} {s t u : State}

namespace OnEngine

theorem refl (s : State) : OnEngine e s s := ⟨rfl, fun _ _ => rfl, rfl⟩

theorem trans (h : OnEngine e s t) (h' : OnEngine e t u) : OnEngine e s u where
  rest := by rw [h'.rest, h.rest]
  engs d ne := (h'.engs d ne).trans (h.engs d ne)
  streams := h'.streams.trans h.streams

theorem updSlot (s : State) (k : SlotNo) (f : Slot → Slot) : OnEngine e s (s.updSlot e k f) where
  rest := rfl
  engs d ne := by simp [State.updSlot, ne]
  streams := by simp

theorem updNamed (s : State) (a : Nat) (f : Tile → Tile) : OnEngine e s (s.updNamed e a f) where
  rest := rfl
  engs d ne := by simp [State.updNamed, ne]
  streams := by simp [State.updNamed]

theorem updCmd (s : State) (p : Port) (g : Tag) (f : Cmd → Cmd) : OnEngine e s (s.updCmd p g f) := ⟨rfl, fun _ _ => rfl, rfl⟩

end OnEngine

namespace OnSlot

theorem refl (s : State) : OnSlot e k s s := ⟨.refl s, fun _ _ => rfl, fun _ _ _ => rfl, rfl, rfl, rfl⟩

theorem trans (h : OnSlot e k s t) (h' : OnSlot e k t u) : OnSlot e k s u where
  toOnEngine := h.toOnEngine.trans h'.toOnEngine
  slots j ne := (h'.slots j ne).trans (h.slots j ne)
  cmds q g ne := (h'.cmds q g (by rwa [h.port, h.tag])).trans (h.cmds q g ne)
  port := h'.port.trans h.port
  tag := h'.tag.trans h.tag
  desc := by have := h'.desc; rw [h.port, h.tag] at this; exact this.trans h.desc

/-- The slot's command fills the same named tile before and after. -/
theorem accOf (h : OnSlot e k s t) : t.accOf (t.slot e k) = s.accOf (s.slot e k) :=
  State.accOf_congr (by rw [h.port, h.tag, h.desc])

theorem updSlot (s : State) {f : Slot → Slot} (port : (f (s.slot e k)).port = (s.slot e k).port)
    (tag : (f (s.slot e k)).tag = (s.slot e k).tag) : OnSlot e k s (s.updSlot e k f) where
  toOnEngine := .updSlot s k f
  slots j ne := by simp [ne]
  cmds _ _ _ := rfl
  port := by simpa using port
  tag := by simpa using tag
  desc := rfl

theorem updNamed (s : State) (a : Nat) (f : Tile → Tile) : OnSlot e k s (s.updNamed e a f) where
  toOnEngine := .updNamed s a f
  slots _ _ := by simp
  cmds _ _ _ := rfl
  port := by simp
  tag := by simp
  desc := rfl

theorem updTile (s : State) (f : Tile → Tile) : OnSlot e k s (s.updTile e k f) := by
  unfold State.updTile
  split
  · exact updNamed s _ f
  · exact updSlot s rfl rfl

/-- A change of who has the array. -/
theorem updHead (s : State) (f : Option SlotNo → Option SlotNo) : OnSlot e k s (s.updEng e fun g => { g with head := f g.head }) where
  rest := rfl
  engs d ne := by simp [ne]
  streams := by simp
  slots j _ := by simp [State.slot]
  cmds _ _ _ := rfl
  port := by simp [State.slot]
  tag := by simp [State.slot]
  desc := rfl

theorem updCmd {p : Port} {g : Tag} (s : State) {f : Cmd → Cmd} (hp : (s.slot e k).port = p) (hg : (s.slot e k).tag = g)
    (desc : (f (s.cmd p g)).desc = (s.cmd p g).desc) : OnSlot e k s (s.updCmd p g f) where
  toOnEngine := .updCmd s p g f
  slots _ _ := rfl
  cmds q j ne := by
    subst hp hg
    exact State.cmd_updCmd_ne _ _ _ _ fun ⟨hp, hg⟩ => ne.elim (· hp) (· hg)
  port := rfl
  tag := rfl
  desc := by subst hp hg; simpa using desc

end OnSlot

end

/-- The command that holds a slot. -/
abbrev State.cmdAt (s : State) (e : Eng) (k : SlotNo) : Cmd := s.cmd (s.slot e k).port (s.slot e k).tag

/-! ### The end of a reduction, and the drain that follows it -/

section
variable (s : State) (e : Eng) (k : SlotNo)

/-- Leaving the array gives it up, where the slot has no product left to form. -/
theorem leaveArray_cases :
    s.leaveArray e k = (s.updEng e fun g => { g with head := if g.head = some k then none else g.head }) ∨ s.leaveArray e k = s := by
  unfold State.leaveArray
  extract_lets v
  split
  · exact .inl rfl
  · exact .inr rfl

@[simp] theorem slot_leaveArray (j : SlotNo) : (s.leaveArray e k).slot e j = s.slot e j := by
  obtain h | h := leaveArray_cases s e k <;> rw [h]
  simp [State.slot]

@[simp] theorem named_leaveArray (a : Nat) : (s.leaveArray e k).named e a = s.named e a := by
  obtain h | h := leaveArray_cases s e k <;> rw [h]
  simp [State.named]

theorem leaveArray_onSlot : OnSlot e k s (s.leaveArray e k) := by
  obtain h | h := leaveArray_cases s e k <;> rw [h]
  · exact .updHead s fun h => if h = some k then none else h
  · exact .refl s

theorem slot_unitFormed : (s.unitFormed e k).slot e k = { s.slot e k with
    unit := if (s.slot e k).opcode = 0x02 then (s.slot e k).unit else (s.slot e k).unit + 1, group := 0, filled := false } := by
  simp [State.unitFormed]

@[simp] theorem named_unitFormed (a : Nat) : (s.unitFormed e k).named e a = s.named e a := by
  simp [State.unitFormed]

theorem unitFormed_onSlot : OnSlot e k s (s.unitFormed e k) :=
  (OnSlot.updSlot s rfl rfl).trans (.updCmd _ (by simp) (by simp) ((apply_ite Cmd.desc _ _ _).trans (ite_self _)))

/-- A slot whose tile begins its drain has come to its next unit; an AUTO command's tile moves to the drain. -/
theorem slot_startDrain : (s.startDrain e k).slot e k = { s.slot e k with
    state := ((s.startDrain e k).slot e k).state
    draining := true, drainStage := (s.slot e k).stage, drainUnit := (s.slot e k).unit
    drainTile := if (s.accOf (s.slot e k)).isNone then { (s.slot e k).tile with state := .draining } else {}
    tile := if (s.accOf (s.slot e k)).isNone then {} else (s.slot e k).tile
    unit := if (s.slot e k).opcode = 0x02 then (s.slot e k).unit else (s.slot e k).unit + 1, group := 0, filled := false } := by
  unfold State.startDrain State.updTile
  cases acc : s.accOf (s.slot e k) <;> simp [slot_unitFormed, acc]

theorem startDrain_onSlot : OnSlot e k s (s.startDrain e k) :=
  ((((OnSlot.updTile s _).trans (.updSlot _ rfl rfl)).trans (unitFormed_onSlot _ e k)).trans (leaveArray_onSlot _ e k)).trans (.updSlot _ rfl rfl)

/-- A slot whose drain is over, with no tile that waits for it, drains no more. -/
theorem slot_endDrain (filled : (s.slot e k).filled = false) : (s.endDrain e k).slot e k =
    { s.slot e k with draining := false, drainTile := {}, sent := 0, pass := .none } := by
  unfold State.endDrain
  cases acc : s.accOf (s.slot e k) <;> simp [filled, acc]

/-- A tile that waited begins its drain as the one before it ends. -/
theorem draining_endDrain (filled : (s.slot e k).filled = true) : ((s.endDrain e k).slot e k).draining = true := by
  simp only [State.endDrain, filled, if_true]
  rw [slot_startDrain]

/-- A named tile that has drained is free. -/
theorem named_endDrain {a : Nat} (acc : s.accOf (s.slot e k) = some a) (filled : (s.slot e k).filled = false) :
    (s.endDrain e k).named e a = {} := by
  simp [State.endDrain, acc, filled]

theorem endDrain_onSlot : OnSlot e k s (s.endDrain e k) := by
  unfold State.endDrain
  extract_lets v s1
  have ends : OnSlot e k s s1 := by
    refine OnSlot.trans ?_ (.updSlot _ rfl rfl)
    split
    · exact .updNamed s _ _
    · exact .refl s
  split
  · exact ends.trans (startDrain_onSlot s1 e k)
  · exact ends

/-! ### The end of a command's units -/

/-- The units of a command that are all done end its work. -/
theorem finishUnits_cases (p : Port) (g : Tag) : s.finishUnits p g = s.doneCmd p g ∨ s.finishUnits p g = s := by
  unfold State.finishUnits
  extract_lets c
  split
  · exact .inl rfl
  · exact .inr rfl

theorem finishUnits_onSlot {p : Port} {g : Tag} (hp : (s.slot e k).port = p) (hg : (s.slot e k).tag = g) :
    OnSlot e k s (s.finishUnits p g) := by
  obtain h | h := finishUnits_cases s p g <;> rw [h]
  · exact .updCmd s hp hg rfl
  · exact .refl s

theorem finishUnits_onEngine (p : Port) (g : Tag) : OnEngine e s (s.finishUnits p g) := by
  obtain h | h := finishUnits_cases s p g <;> rw [h]
  · exact .updCmd s p g _
  · exact .refl s

@[simp] theorem finishUnits_engines (p : Port) (g : Tag) : (s.finishUnits p g).engines = s.engines := by
  obtain h | h := finishUnits_cases s p g <;> rw [h]
  rfl

@[simp] theorem slot_finishUnits (p : Port) (g : Tag) (d : Eng) (j : SlotNo) : (s.finishUnits p g).slot d j = s.slot d j := by
  simp [State.slot, State.eng]

@[simp] theorem named_finishUnits (p : Port) (g : Tag) (d : Eng) (a : Nat) : (s.finishUnits p g).named d a = s.named d a := by
  simp [State.named, State.eng]

/-! ### The counts of a command -/

/-- Saturations and underflows of a command. -/
def Cmd.tallies (c : Cmd) : Nat × Nat := (c.sat, c.under)

/-- A change that keeps a command's tallies keeps everyone's. -/
theorem tallies_updCmd {f : Cmd → Cmd} (keeps : ∀ c, (f c).tallies = c.tallies) (p q : Port) (g j : Tag) :
    ((s.updCmd p g f).cmd q j).tallies = (s.cmd q j).tallies := by
  rw [State.cmd_updCmd]
  split
  · next h => rw [keeps, h.1, h.2]
  · rfl

variable (q : Port) (j : Tag)

@[simp] theorem tallies_finishUnits (p : Port) (g : Tag) : ((s.finishUnits p g).cmd q j).tallies = (s.cmd q j).tallies := by
  obtain h | h := finishUnits_cases s p g <;> rw [h]
  exact tallies_updCmd s (f := fun c => { c with phase := .ended }) (fun _ => rfl) p q g j

@[simp] theorem tallies_leaveArray : ((s.leaveArray e k).cmd q j).tallies = (s.cmd q j).tallies := by
  obtain h | h := leaveArray_cases s e k <;> rw [h]
  rfl

@[simp] theorem tallies_unitFormed : ((s.unitFormed e k).cmd q j).tallies = (s.cmd q j).tallies := by
  unfold State.unitFormed
  extract_lets v
  rw [tallies_updCmd _ fun c => ?_, State.cmd_updSlot]
  exact (apply_ite Cmd.tallies _ _ _).trans (ite_self _)

@[simp] theorem tallies_startDrain : ((s.startDrain e k).cmd q j).tallies = (s.cmd q j).tallies := by
  simp only [State.startDrain, State.cmd_updSlot, tallies_leaveArray, tallies_unitFormed]
  unfold State.updTile
  split <;> rfl

end

end Sys2Proof.Machine
end

section
/-!
SUPPORT. GROUP_ENTRY: the tile and the slot once a group has entered, where a HOLD's tile goes, and what the command answers (04 R75 to R80, R84,
R86, R90).
-/

namespace Sys2Proof.Machine

open Sys2Proof

/-- The stage whose tile a slot fills. -/
abbrev State.mmAt (s : State) (e : Eng) (k : SlotNo) : MM := (s.cmdAt e k).mm (s.slot e k).stage

/-- A slot's tile once its formed group has entered every run, with what that counted (R75, R77, R79, R80, R108). -/
def State.entry (s : State) (e : Eng) (k : SlotNo) : Tile × Cnt :=
  let v := s.slot e k
  let x := s.mmAt e k
  let a := x.groupAt (x.unitJ v.unit) v.group
  (s.tileOf e k).enter (x.mode == 2) a.passEnd
    (fun n => (s.asLanded e v).entryDraw (s.cmdAt e k) x (x.unitI v.unit) (x.unitC v.unit) (2 ^ 31 + a.seq) n) v.formed

/-- The state in which a slot's tile and its command's counts have become those of an entry, and the slot stands at its next group. -/
def State.entered (s : State) (e : Eng) (k : SlotNo) (r : Tile × Cnt) : State :=
  ((s.updTile e k fun _ => r.1).updCmd (s.slot e k).port (s.slot e k).tag fun c => c.tally r.2).updSlot e k fun v =>
    { v with formed := [], hasFormed := false, group := v.group + 1 }

section
variable (s : State) (e : Eng) (k : SlotNo)

section
variable (r : Tile × Cnt)

theorem entered_onSlot : OnSlot e k s (s.entered e k r) :=
  have tile := OnSlot.updTile (e := e) (k := k) s fun _ => r.1
  (tile.trans (.updCmd _ tile.port tile.tag rfl)).trans (.updSlot _ rfl rfl)

theorem slot_entered : (s.entered e k r).slot e k = { s.slot e k with
    tile := if (s.accOf (s.slot e k)).isNone then r.1 else (s.slot e k).tile
    formed := [], hasFormed := false, group := (s.slot e k).group + 1 } := by
  unfold State.entered State.updTile
  cases acc : s.accOf (s.slot e k) <;> simp

theorem cmd_entered : (s.entered e k r).cmd (s.slot e k).port (s.slot e k).tag = (s.cmdAt e k).tally r.2 := by
  unfold State.entered State.updTile
  cases acc : s.accOf (s.slot e k) <;> simp

theorem cmdAt_entered : (s.entered e k r).cmdAt e k = (s.cmdAt e k).tally r.2 := by
  unfold State.cmdAt
  rw [slot_entered]
  exact cmd_entered s e k r

theorem mmAt_entered : (s.entered e k r).mmAt e k = s.mmAt e k := by
  unfold State.mmAt
  rw [cmdAt_entered, Cmd.mm_tally, slot_entered]

theorem tileOf_entered : (s.entered e k r).tileOf e k = r.1 := by
  unfold State.tileOf
  rw [(entered_onSlot s e k r).accOf, slot_entered]
  unfold State.entered State.updTile
  cases acc : s.accOf (s.slot e k) <;> simp

theorem entered_eq : s.entered e k r = ({ s with engines := (s.entered e k r).engines }).updCmd (s.slot e k).port (s.slot e k).tag
    fun c => c.tally r.2 := by
  unfold State.entered State.updTile
  split <;> rfl

theorem named_entered {n : Nat} (acc : s.accOf (s.slot e k) = some n) : (s.entered e k r).named e n = r.1 := by
  simp [State.entered, State.updTile, acc]

end

/-! #### Ends of a reduction -/

/-- The group that a slot has formed, if any. -/
def Slot.formedGroup (v : Slot) : List (Nat × GroupRes) × Bool := (v.formed, v.hasFormed)

/-- A change that keeps a slot's formed group keeps everyone's. -/
theorem formedGroup_updSlot {f : Slot → Slot} (keeps : ∀ v, (f v).formedGroup = v.formedGroup) (e d : Eng) (i j : SlotNo) :
    ((s.updSlot e i f).slot d j).formedGroup = (s.slot d j).formedGroup := by
  rw [State.slot_updSlot]
  split
  · next h => rw [keeps, h.1, h.2]
  · rfl

theorem endReduction_of_hold (hold : ((s.mmAt e k).accSel != 0 && (s.mmAt e k).holds) = true) :
    s.endReduction e k = (s.unitFormed e k).leaveArray e k := if_pos hold

section
variable (drain : ((s.mmAt e k).accSel != 0 && (s.mmAt e k).holds) = false)
include drain

theorem endReduction_of_draining (draining : (s.slot e k).draining = true) :
    s.endReduction e k = s.updSlot e k fun v => { v with filled := true } := by
  unfold State.endReduction
  simp [drain, draining]

theorem endReduction_of_idle (idle : (s.slot e k).draining = false) : s.endReduction e k = s.startDrain e k := by
  unfold State.endReduction
  simp [drain, idle]

end

/-- A reduction that ends leaves its tile to the HOLD, waiting, or in its drain. -/
theorem endReduction_cases : s.endReduction e k = (s.unitFormed e k).leaveArray e k ∨
    s.endReduction e k = (s.updSlot e k fun v => { v with filled := true }) ∨ s.endReduction e k = s.startDrain e k := by
  cases hold : (s.mmAt e k).accSel != 0 && (s.mmAt e k).holds
  · cases draining : (s.slot e k).draining
    · exact .inr (.inr (endReduction_of_idle s e k hold draining))
    · exact .inr (.inl (endReduction_of_draining s e k hold draining))
  · exact .inl (endReduction_of_hold s e k hold)

theorem endReduction_onSlot : OnSlot e k s (s.endReduction e k) := by
  obtain h | h | h := endReduction_cases s e k <;> rw [h]
  · exact (unitFormed_onSlot s e k).trans (leaveArray_onSlot _ e k)
  · exact .updSlot s rfl rfl
  · exact startDrain_onSlot s e k

theorem formedGroup_endReduction : ((s.endReduction e k).slot e k).formedGroup = (s.slot e k).formedGroup := by
  obtain h | h | h := endReduction_cases s e k <;> rw [h]
  · rw [slot_leaveArray, slot_unitFormed]; rfl
  · rw [State.slot_updSlot_same]; rfl
  · rw [slot_startDrain]; rfl

@[simp] theorem tallies_endReduction (q : Port) (j : Tag) : ((s.endReduction e k).cmd q j).tallies = (s.cmd q j).tallies := by
  obtain h | h | h := endReduction_cases s e k <;> rw [h]
  · rw [tallies_leaveArray, tallies_unitFormed]
  · rfl
  · exact tallies_startDrain s e k q j

/-! #### A tile passed on -/

variable {s e} in
theorem slot_of_mem_slotsOf {x : SlotNo × Slot} (m : x ∈ s.slotsOf e) : x.2 = s.slot e x.1 := by
  obtain ⟨j, -, h⟩ := List.mem_filterMap.1 m
  dsimp only at h
  split at h
  · cases h
  · cases h; rfl

theorem passOn_onEngine : OnEngine e s (s.passOn e k) := by
  unfold State.passOn
  extract_lets v
  split
  · exact (((OnEngine.updNamed s _ _).trans (.updCmd _ _ _ _)).trans (.updSlot _ _ _)).trans (.updSlot _ _ _)
  · exact .refl s

theorem formedGroup_passOn : ((s.passOn e k).slot e k).formedGroup = (s.slot e k).formedGroup := by
  unfold State.passOn
  extract_lets v
  split
  · extract_lets
    rw [formedGroup_updSlot, formedGroup_updSlot, State.slot_updCmd, State.slot_updNamed]
    all_goals exact fun _ => rfl
  · rfl

/-- A tile that no command has joined is not passed on. -/
theorem passOn_of_unjoined (unjoined : ∀ j, (s.slot e j).joinAfter ≠ some ((s.slot e k).port, (s.slot e k).tag)) : s.passOn e k = s := by
  unfold State.passOn
  extract_lets v
  split
  · next w acc found =>
    have join := List.find?_some found
    rw [slot_of_mem_slotsOf (List.mem_of_find?_eq_some found)] at join
    simp only [Bool.and_eq_true, beq_iff_eq] at join
    obtain ⟨⟨⟨-, joined⟩, -⟩, -⟩ := join
    exact absurd joined (unjoined w.1)
  · rfl

/-- A HOLD that none has joined leaves its named tile as its last group left it, and goes on to its next unit. -/
theorem hold_endReduction {n : Nat} {r : Tile × Cnt} (acc : s.accOf (s.slot e k) = some n) (opcode : (s.slot e k).opcode = 0x01)
    (hold : ((s.mmAt e k).accSel != 0 && (s.mmAt e k).holds) = true)
    (unjoined : ∀ j, (s.slot e j).joinAfter ≠ some ((s.slot e k).port, (s.slot e k).tag)) :
    let t := (s.entered e k r).endReduction e k
    t.passOn e k = t ∧ t.named e n = r.1 ∧ (t.slot e k).unit = (s.slot e k).unit + 1 ∧ (t.slot e k).group = 0 ∧
      (t.slot e k).draining = (s.slot e k).draining := by
  intro t
  have on : OnSlot e k s t := (entered_onSlot s e k r).trans (endReduction_onSlot _ e k)
  have eq : t = ((s.entered e k r).unitFormed e k).leaveArray e k := endReduction_of_hold _ e k (by rwa [mmAt_entered])
  have slot : t.slot e k = { s.slot e k with
      unit := (s.slot e k).unit + 1, group := 0, filled := false, formed := [], hasFormed := false } := by
    rw [eq, slot_leaveArray, slot_unitFormed, slot_entered, acc]
    simp [opcode]
  refine ⟨passOn_of_unjoined t e k fun j => ?_, ?_, by rw [slot], by rw [slot], by rw [slot]⟩
  · rw [on.port, on.tag]
    by_cases own : j = k
    · subst own; rw [slot]; exact unjoined j
    · rw [on.slots j own]; exact unjoined j
  · rw [eq, named_leaveArray, named_unitFormed, named_entered _ _ _ _ acc]

/-- An AUTO tile that has its last group is in its drain, or waits filled while the slot's other tile drains. -/
theorem auto_endReduction {r : Tile × Cnt} (auto : s.accOf (s.slot e k) = none)
    (drain : ((s.mmAt e k).accSel != 0 && (s.mmAt e k).holds) = false) :
    let t := (s.entered e k r).endReduction e k
    ((s.slot e k).draining = false → (t.slot e k).draining = true ∧ (t.slot e k).drainTile = { r.1 with state := .draining } ∧
      (t.slot e k).drainStage = (s.slot e k).stage ∧ (t.slot e k).drainUnit = (s.slot e k).unit ∧ (t.slot e k).group = 0) ∧
    ((s.slot e k).draining = true → (t.slot e k).filled = true ∧ (t.slot e k).tile = r.1 ∧ (t.slot e k).unit = (s.slot e k).unit) := by
  rw [← mmAt_entered s e k r] at drain
  refine ⟨fun idle => ?_, fun draining => ?_⟩
  · rw [endReduction_of_idle _ _ _ drain (by rwa [slot_entered]), slot_startDrain, (entered_onSlot s e k r).accOf, slot_entered, auto]
    exact ⟨rfl, rfl, rfl, rfl, rfl⟩
  · rw [endReduction_of_draining _ _ _ drain (by rwa [slot_entered]), State.slot_updSlot_same, slot_entered, auto]
    exact ⟨rfl, rfl, rfl⟩

/-! #### What GROUP_ENTRY does -/

variable {s e k}
variable (free : s.arrayFree e k = true) (formed : (s.slot e k).hasFormed = true) {r : Tile × Cnt} (entry : s.entry e k = r)
include free formed entry

theorem exec_groupEntry_mid (more : ¬(s.mmAt e k).partGroups ((s.mmAt e k).unitJ (s.slot e k).unit) ≤ (s.slot e k).group + 1) :
    exec (.groupEntry e k) s = .next (s.entered e k r) := by
  subst entry
  show execGroupEntry e k s = _
  simp only [execGroupEntry, free, formed, Bool.not_true, Bool.or_self, Bool.false_eq_true, if_false]
  rw [if_pos (Nat.lt_of_not_le more)]
  rfl

theorem exec_groupEntry_last (last : (s.mmAt e k).partGroups ((s.mmAt e k).unitJ (s.slot e k).unit) ≤ (s.slot e k).group + 1) :
    exec (.groupEntry e k) s = .next (
      if ((s.mmAt e k).accSel != 0 && (s.mmAt e k).holds) = true then
        (((s.entered e k r).endReduction e k).passOn e k).finishUnits (s.slot e k).port (s.slot e k).tag
      else (s.entered e k r).endReduction e k) := by
  subst entry
  show execGroupEntry e k s = _
  simp only [execGroupEntry, free, formed, Bool.not_true, Bool.or_self, Bool.false_eq_true, if_false]
  rw [if_neg (Nat.not_lt.2 last)]
  rfl

end

end Sys2Proof.Machine
end

section
/-!
SUPPORT. NAMED_TILE_ARRIVAL, case by case, and the tiles that it takes (04 R85 to R89).
-/

namespace Sys2Proof.Machine

open Sys2Proof

/-! ### Taking a named tile, and being turned away -/

/-- A slot that takes a named tile fills it, and has the tile as it was. -/
theorem slot_takeTile (s : State) (e : Eng) (k : SlotNo) (a : Nat) (cont : Bool) :
    (s.takeTile e k a cont).slot e k = { s.slot e k with pass := .filling, tile := s.named e a } := by
  simp [State.takeTile]

theorem takeTile_onSlot (s : State) (e : Eng) (k : SlotNo) (a : Nat) (cont : Bool) : OnSlot e k s (s.takeTile e k a cont) :=
  ((OnSlot.updNamed s a _).trans (.updCmd _ (by simp) (by simp) rfl)).trans (.updSlot _ rfl rfl)

/-- Other named tiles stay. -/
theorem named_takeTile_ne (s : State) (e : Eng) (k : SlotNo) {a b : Nat} (ne : b ≠ a) (cont : Bool) :
    (s.takeTile e k a cont).named e b = s.named e b := by
  simp [State.takeTile, ne]

/-- A named tile taken from zero is a fresh one. -/
theorem named_takeTile_fresh (s : State) (e : Eng) (k : SlotNo) (a : Nat) :
    (s.takeTile e k a false).named e a =
      freshTile ((s.cmdAt e k).mm 0) (s.cmdAt e k).ctx (s.slot e k).port (s.slot e k).tag := by
  simp [State.takeTile]

/-- A command that takes a tile from zero keeps its counts. -/
theorem cmd_takeTile_fresh (s : State) (e : Eng) (k : SlotNo) (a : Nat) (q : Port) (g : Tag) : (s.takeTile e k a false).cmd q g = s.cmd q g := by
  simp only [State.takeTile, State.cmd_updSlot, State.cmd_updCmd, State.cmd_updNamed]
  split
  · next h => obtain ⟨rfl, rfl⟩ := h; rfl
  · rfl

/-- A command that goes on with a tile's entries fences them: its class or its group size is another (R88). -/
def Tile.fences (t : Tile) (x : MM) : Bool := t.cls != x.cls || t.group != x.g

/-- A tile's entries as a command goes on with them. -/
def Tile.fencedFor (t : Tile) (x : MM) : Tile × Cnt := if t.fences x then t.fence x.cls x.g else (t, {})

section
variable (s : State) (e : Eng) (k : SlotNo) (a : Nat)

theorem named_takeTile_continued :
    (s.takeTile e k a true).named e a =
      { ((s.named e a).fencedFor ((s.cmdAt e k).mm 0)).1 with
        state := .busy, mode := ((s.cmdAt e k).mm 0).mode
        lastPort := (s.slot e k).port, lastTag := (s.slot e k).tag } := by
  simp [State.takeTile, Tile.fencedFor, Tile.fences]

theorem cmd_takeTile_continued :
    (s.takeTile e k a true).cmd (s.slot e k).port (s.slot e k).tag =
      let c := s.cmdAt e k
      { c.tally ((s.named e a).fencedFor (c.mm 0)).2 with aux0 := c.aux0 + b2n ((s.named e a).fences (c.mm 0)) } := by
  simp [State.takeTile, Tile.fencedFor, Tile.fences]

end

/-- A fold whose every step leaves the state as it is leaves it so. -/
theorem foldl_eq_self {α : Type} {f : State → α → State} {s : State} (l : List α) (keeps : ∀ x ∈ l, f s x = s) : l.foldl f s = s := by
  induction l with
  | nil => rfl
  | cons x l ih =>
    rw [List.foldl_cons, keeps x (.head l)]
    exact ih fun y m => keeps y (.tail x m)

/-- Where no slot of a command fills a tile yet, it is turned away with its counts back at zero. -/
theorem turnAway_eq {s : State} {p : Port} {g : Tag} (unfilled : ∀ y ∈ s.cmdSlots p g, y.2.2.pass ≠ .filling) (st : Nat) :
    s.turnAway p g st = (s.updCmd p g fun c => { c with aux0 := 0, sat := 0, under := 0 }).abortCmd p g st := by
  unfold State.turnAway
  dsimp only
  rw [foldl_eq_self _ fun y m => ?_]
  have waits : (y.2.2.pass == .filling) = false := beq_false_of_ne (unfilled y m)
  split
  · rw [waits, Bool.false_and, if_neg Bool.false_ne_true]
  · rfl

/-! ### NAMED_TILE_ARRIVAL -/

section
variable {e : Eng} {k : SlotNo} {s : State} {a : Nat}

/-- A running command that neither fills its named tile nor has joined it, with units left and not cancelling, arrives at it. -/
structure Arrives (s : State) (e : Eng) (k : SlotNo) (a : Nat) : Prop where
  acc : s.accOf (s.slot e k) = some a
  running : (s.cmdAt e k).phase = .running
  waits : (s.slot e k).pass = .none
  left : (s.slot e k).unit < (s.slot e k).lastUnit
  live : (s.slot e k).state ≠ .cancelling

variable (h : Arrives s e k a)
include h

theorem exec_namedTileArrival_draining (tile : (s.named e a).state = .draining) : exec (.namedTileArrival e k) s = .next s := by
  obtain ⟨acc, running, waits, left, live⟩ := h
  show execNamedTileArrival e k s = _
  simp [execNamedTileArrival, acc, running, waits, live, tile]

theorem exec_namedTileArrival_free (tile : (s.named e a).state = .free) :
    exec (.namedTileArrival e k) s = .next (s.takeTile e k a false) := by
  obtain ⟨acc, running, waits, left, live⟩ := h
  show execNamedTileArrival e k s = _
  simp [execNamedTileArrival, acc, running, waits, Nat.not_le.2 left, live, tile]

section
variable (tile : (s.named e a).state = .held)
include tile

theorem exec_namedTileArrival_denied (owner : (s.named e a).owner ≠ (s.cmdAt e k).ctx) :
    exec (.namedTileArrival e k) s = .next (s.turnAway (s.slot e k).port (s.slot e k).tag stDenied) := by
  obtain ⟨acc, running, waits, left, live⟩ := h
  show execNamedTileArrival e k s = _
  simp [execNamedTileArrival, acc, running, waits, Nat.not_le.2 left, live, tile, owner]

variable (owner : (s.named e a).owner = (s.cmdAt e k).ctx)
include owner

theorem exec_namedTileArrival_fresh (fresh : (((s.cmdAt e k).mm 0).continues || ((s.cmdAt e k).mm 0).joins) = false) :
    exec (.namedTileArrival e k) s = .next (s.takeTile e k a false) := by
  obtain ⟨acc, running, waits, left, live⟩ := h
  have fresh' : (!((s.cmdAt e k).mm 0).continues && !((s.cmdAt e k).mm 0).joins) = true := by rw [← Bool.not_or, fresh]; rfl
  show execNamedTileArrival e k s = _
  simp [execNamedTileArrival, acc, running, waits, Nat.not_le.2 left, live, tile, owner, fresh']

variable (goesOn : (((s.cmdAt e k).mm 0).continues || ((s.cmdAt e k).mm 0).joins) = true)
include goesOn

theorem exec_namedTileArrival_held : exec (.namedTileArrival e k) s = .next (
    if ((s.named e a).cls == 5) = (((s.cmdAt e k).mm 0).cls == 5) then s.takeTile e k a true
    else s.turnAway (s.slot e k).port (s.slot e k).tag stAccClass) := by
  obtain ⟨acc, running, waits, left, live⟩ := h
  have goesOn' : (!((s.cmdAt e k).mm 0).continues && !((s.cmdAt e k).mm 0).joins) = false := by rw [← Bool.not_or, goesOn]; rfl
  show execNamedTileArrival e k s = _
  simp only [execNamedTileArrival, acc, running, waits, Nat.not_le.2 left, live, tile, owner, goesOn', ne_eq, not_true_eq_false, or_self, if_false,
    Bool.false_eq_true, bne_iff_ne, ite_not]

end

section
variable (tile : (s.named e a).state = .busy)
include tile

theorem exec_namedTileArrival_noTail (tail : s.chainTail e a = none) : exec (.namedTileArrival e k) s = .next s := by
  obtain ⟨acc, running, waits, left, live⟩ := h
  show execNamedTileArrival e k s = _
  simp [execNamedTileArrival, acc, running, waits, live, tile, tail]

variable {w : Slot} (tail : s.chainTail e a = some w)
include tail

theorem exec_namedTileArrival_behind (behind : w.ctx ≠ (s.cmdAt e k).ctx ∨ ((s.cmdAt e k).mm 0).joins = false) :
    exec (.namedTileArrival e k) s = .next s := by
  obtain ⟨acc, running, waits, left, live⟩ := h
  show execNamedTileArrival e k s = _
  simp [execNamedTileArrival, acc, running, waits, live, tile, tail, behind]

variable (ctx : w.ctx = (s.cmdAt e k).ctx) (joins : ((s.cmdAt e k).mm 0).joins = true)
include ctx joins

theorem exec_namedTileArrival_noHold (holds : ((s.cmd w.port w.tag).mm 0).holds = false) :
    exec (.namedTileArrival e k) s = .next (s.turnAway (s.slot e k).port (s.slot e k).tag stBadDescriptor) := by
  obtain ⟨acc, running, waits, left, live⟩ := h
  show execNamedTileArrival e k s = _
  simp [execNamedTileArrival, acc, running, waits, Nat.not_le.2 left, live, tile, tail, ctx, joins, holds]

variable (holds : ((s.cmd w.port w.tag).mm 0).holds = true)
include holds

theorem exec_namedTileArrival_otherClass
    (cls : (((s.cmd w.port w.tag).mm 0).cls == 5) ≠ (((s.cmdAt e k).mm 0).cls == 5)) :
    exec (.namedTileArrival e k) s = .next (s.turnAway (s.slot e k).port (s.slot e k).tag stAccClass) := by
  obtain ⟨acc, running, waits, left, live⟩ := h
  show execNamedTileArrival e k s = _
  simp only [execNamedTileArrival, acc, running, waits, Nat.not_le.2 left, live, tile, tail, ctx, joins, holds, bne_iff_ne.2 cls, ne_eq,
    not_true_eq_false, or_self, if_false, Bool.not_true, Bool.false_eq_true, if_true]

theorem exec_namedTileArrival_joins (cls : (((s.cmd w.port w.tag).mm 0).cls == 5) = (((s.cmdAt e k).mm 0).cls == 5))
    (ahead : w.unit < w.lastUnit) : exec (.namedTileArrival e k) s = .next
      (s.updSlot e k fun v => { v with pass := .joined, joinAfter := some (w.port, w.tag) }) := by
  obtain ⟨acc, running, waits, left, live⟩ := h
  show execNamedTileArrival e k s = _
  simp [execNamedTileArrival, acc, running, waits, Nat.not_le.2 left, live, tile, tail, ctx, joins, holds, cls, Nat.not_le.2 ahead]

end

end

end Sys2Proof.Machine
end

section
/-!
SUPPORT. TILE_DRAIN: what the epilogue's stores change, and what the command answers (04 R78, R87, R93; 07 R134; 09 R211).
-/

namespace Sys2Proof.Machine

open Sys2Proof

/-! ### The drain of a tile -/

theorem putRow_onlyMemory {s t : State} {ctx : CtxNo} {x : MM} {r c0 : Nat} {oc codes : List Nat}
    (e : s.putRow ctx x r c0 oc codes = .ok t) : Safety.onlyMemory s t := by
  unfold State.putRow at e
  extract_lets base w at e
  split at e
  · injection e with e; exact e ▸ onlyMemory_refl s
  · split at e
    · exact putElems_onlyMemory _ e
    · exact vwrite_onlyMemory e

theorem putRows_onlyMemory {ctx : CtxNo} {x : MM} {c0 : Nat} {oc : List Nat} (l : List (Nat × List Nat)) {s t : State}
    (e : s.putRows ctx x c0 oc l = .ok t) : Safety.onlyMemory s t := by
  induction l generalizing s with
  | nil => injection e with e; exact e ▸ onlyMemory_refl s
  | cons y l ih =>
    simp only [State.putRows] at e
    split at e
    · next s1 e1 => exact onlyMemory_trans (putRow_onlyMemory e1) (ih e)
    · injection e

/-- `t` is `s` but for the contents of the memories and the scale tables. -/
structure OnlyStores (s t : State) : Prop where
  rest : t = { s with mem := { s.mem with hbm := t.mem.hbm, host := t.mem.host }, parts := t.parts }
  scale : ∀ q, t.part q = { s.part q with scale := (t.part q).scale }

theorem OnlyStores.refl (s : State) : OnlyStores s s := ⟨rfl, fun _ => rfl⟩

theorem OnlyStores.engines {s t : State} (h : OnlyStores s t) : t.engines = s.engines := by rw [h.rest]
theorem OnlyStores.ports {s t : State} (h : OnlyStores s t) : t.ports = s.ports := by rw [h.rest]

/-- A report after stores. -/
theorem OnlyStores.of_report {s t : State} (h : Safety.onlyMemory s t) (id step : Nat) (mag : Option Int) (sat : Nat) :
    OnlyStores s (t.scaleReport id step mag sat) := by
  have rest : t = { s with mem := { s.mem with hbm := t.mem.hbm, host := t.mem.host } } := h
  have part (q : Part) : t.part q = s.part q := by rw [rest]; rfl
  unfold State.scaleReport
  split
  · exact ⟨by rw [rest], fun q => by rw [part]⟩
  · refine ⟨?_, fun q => ?_⟩
    · rw [State.updScale, State.updPart, rest]
    · by_cases ne : q = (scalePlace id).1
      · subst ne; simp [State.updScale, part]
      · simp [State.updScale, ne, part]

theorem drain_onlyStores {s : State} {w : View} {c : Cmd} {x : MM} {sr : ScaleRead} {i ct : Nat} {tile : Tile} {d : Drained}
    (e : s.drain w c x sr i ct tile = .ok d) : OnlyStores s d.state := by
  unfold State.drain at e
  simp only [bind, Except.bind] at e
  repeat' split at e
  all_goals try contradiction
  next s1 e1 _ s2 e2 =>
  injection e with e
  rw [← e]
  exact .of_report (onlyMemory_trans (putRows_onlyMemory _ e1) (writeAll_onlyMemory _ e2)) _ _ _ _

/-- A sequence that succeeds has a first part that does. -/
theorem exists_of_bind_eq_ok {ε α β : Type} {x : Except ε α} {f : α → Except ε β} {b : β} (h : x >>= f = .ok b) :
    ∃ a, x = .ok a ∧ f a = .ok b := by
  cases x with
  | error _ => injection h
  | ok a => exact ⟨a, rfl, h⟩

/-- Draining a unit changes memories and scale tables, and answers the command with its descriptor. -/
theorem drainUnit_frame {s t : State} {w : View} {c c' : Cmd} {st u : Nat} {tile : Tile} {cnt : Cnt}
    (e : s.drainUnit w c st u tile cnt = .ok (t, c')) : OnlyStores s t ∧ c'.desc = c.desc := by
  unfold State.drainUnit at e
  extract_lets x c1 parts key old at e
  obtain ⟨⟨full, left, c2⟩, parts, e⟩ := exists_of_bind_eq_ok e
  have desc : c2.desc = c.desc := by
    split at parts
    · cases parts; rfl
    · split at parts
      · cases parts; rfl
      · cases parts; rfl
  cases full with
  | none => cases e; exact ⟨.refl s, desc⟩
  | some tile =>
    obtain ⟨d, drained, e⟩ := exists_of_bind_eq_ok e
    cases e
    exact ⟨drain_onlyStores drained, desc⟩

/-! ### TILE_DRAIN -/

/-- A slot is in its drain, on an engine neither isolated nor in reset. -/
structure Drains (s : State) (e : Eng) (k : SlotNo) : Prop where
  draining : (s.slot e k).draining = true
  held : (s.cmdAt e k).phase ≠ .free
  reset : s.inReset e = false
  isolated : s.isolated e = false

section
variable {e : Eng} {k : SlotNo} {s : State}

theorem exec_tileDrain_joined (joined : s.joinWaits (s.slot e k).port (s.slot e k).tag = true) : exec (.tileDrain e k) s = .next s := by
  show execTileDrain e k s = _
  simp [execTileDrain, joined]

theorem exec_tileDrain_awaits (sent : s.partLeft e (s.slot e k) = 0) (inputs : s.drainIn e (s.slot e k) = false) :
    exec (.tileDrain e k) s = .next s := by
  show execTileDrain e k s = _
  simp [execTileDrain, sent, inputs]

variable (h : Drains s e k) (alone : s.joinWaits (s.slot e k).port (s.slot e k).tag = false)
include h alone

theorem exec_tileDrain_sends (left : 0 < s.partLeft e (s.slot e k)) : exec (.tileDrain e k) s = .next (
    if (s.part (partOf e)).hasTokens 9 (min 4096 (s.partLeft e (s.slot e k))) then
      (s.updPart (partOf e) fun a => a.take 9 (min 4096 (s.partLeft e (s.slot e k)))).updSlot e k fun v =>
        { v with sent := v.sent + min 4096 (s.partLeft e (s.slot e k)) }
    else s) := by
  obtain ⟨draining, held, reset, isolated⟩ := h
  show execTileDrain e k s = _
  simp [execTileDrain, draining, held, reset, isolated, alone, left]

theorem exec_tileDrain_drains (sent : s.partLeft e (s.slot e k) = 0)
    (inputs : s.drainIn e (s.slot e k) = true) (room : s.drainRoom e (s.slot e k) = true) {s1 : State} {c1 : Cmd}
    (drained : s.drainUnit (s.asLanded e (s.slot e k)) (s.cmdAt e k) (s.slot e k).drainStage (s.slot e k).drainUnit
      (s.drainTileOf e k).promote.1 (s.drainTileOf e k).promote.2 = .ok (s1, c1)) :
    exec (.tileDrain e k) s = .next
      (((s1.updCmd (s.slot e k).port (s.slot e k).tag fun _ => c1).endDrain e k).finishUnits (s.slot e k).port (s.slot e k).tag) := by
  obtain ⟨draining, held, reset, isolated⟩ := h
  show execTileDrain e k s = _
  simp [execTileDrain, draining, held, reset, isolated, alone, sent, inputs, room, drained, Except.map, State.orWait]

end

/-! ### The state that a drain leaves -/

section
variable {s s1 : State} (stores : OnlyStores s s1)
include stores

/-- The epilogue's stores leave every engine and command as it is. -/
theorem OnlyStores.eng (d : Eng) : s1.eng d = s.eng d := by
  unfold State.eng
  rw [stores.engines]

theorem OnlyStores.slot (d : Eng) (j : SlotNo) : s1.slot d j = s.slot d j := by
  unfold State.slot
  rw [stores.eng]

theorem OnlyStores.cmd (q : Port) (j : Tag) : s1.cmd q j = s.cmd q j := by
  unfold State.cmd State.port
  rw [stores.ports]

/-- A change of engines and ports after the epilogue's stores. -/
theorem OnlyStores.rest_of_enginesAndPorts {t : State} (rest : t = { s1 with engines := t.engines, ports := t.ports }) :
    (∀ q, t.part q = { s.part q with scale := (t.part q).scale }) ∧
      t = { s with mem := { s.mem with hbm := t.mem.hbm, host := t.mem.host }, parts := t.parts, engines := t.engines, ports := t.ports } := by
  have part (q : Part) : t.part q = s1.part q := by rw [rest]; rfl
  exact ⟨fun q => by rw [part]; exact stores.scale q, by rw [rest, stores.rest]⟩

variable {e : Eng} {k : SlotNo} {c1 : Cmd} (desc : c1.desc = (s.cmdAt e k).desc)
include desc

theorem drained_updCmd_onSlot : OnSlot e k s1 (s1.updCmd (s.slot e k).port (s.slot e k).tag fun _ => c1) :=
  .updCmd s1 (by rw [stores.slot]) (by rw [stores.slot]) (by rw [stores.cmd, desc])

/-- After the epilogue's stores a drain's end is the work of its slot. -/
theorem drained_onSlot : OnSlot e k s1
    (((s1.updCmd (s.slot e k).port (s.slot e k).tag fun _ => c1).endDrain e k).finishUnits (s.slot e k).port (s.slot e k).tag) :=
  have ends := (drained_updCmd_onSlot stores desc).trans (endDrain_onSlot _ e k)
  ends.trans (finishUnits_onSlot _ e k (ends.port.trans (by rw [stores.slot])) (ends.tag.trans (by rw [stores.slot])))

/-- The slot's named tile after the epilogue's stores is the one before. -/
theorem drained_accOf : (s1.updCmd (s.slot e k).port (s.slot e k).tag fun _ => c1).accOf (s1.slot e k) = s.accOf (s.slot e k) :=
  State.accOf_congr (by rw [stores.slot, State.cmd_updCmd_same, desc])

end

end Sys2Proof.Machine
end

section
open Sys2Proof Sys2Proof.Machine

/-- Settles O12: the group enters its tile, and, where it was the last of its unit, the reduction ends. -/
theorem groupEntersItsTile : Obligations.GroupEntersItsTile := by
  unfold Obligations.GroupEntersItsTile
  intro e k s v c x a r last free formed
  have ent : OnSlot e k s (s.entered e k r) := entered_onSlot s e k r
  have left : ((s.entered e k r).slot e k).formedGroup = ([], false) := by rw [slot_entered]; rfl
  by_cases more : last
  case neg =>
    refine ⟨_, exec_groupEntry_mid free formed (r := r) rfl more, congrArg Prod.fst left, congrArg Prod.snd left, ent.engs, ent.streams, ent.rest,
      fun _ => ⟨tileOf_entered s e k r, by rw [slot_entered], by rw [slot_entered], entered_eq s e k r⟩, fun h => absurd h more,
      fun n h => absurd h more⟩
  case pos =>
    have ends := ent.trans (endReduction_onSlot _ e k)
    have step := exec_groupEntry_last free formed (r := r) rfl more
    have left1 := (formedGroup_endReduction (s.entered e k r) e k).trans left
    by_cases hold : (x.accSel != 0 && x.holds) = true
    case pos =>
      rw [if_pos hold] at step
      have work := (ends.toOnEngine.trans (passOn_onEngine _ e k)).trans (finishUnits_onEngine _ e v.port v.tag)
      have left2 := (formedGroup_passOn ((s.entered e k r).endReduction e k) e k).trans left1
      refine ⟨_, step, ?_, ?_, work.engs, work.streams, work.rest, fun h => absurd more h, fun _ _ sel => ?_,
        fun n _ acc opcode _ _ unjoined => ?_⟩
      · rw [slot_finishUnits]; exact congrArg Prod.fst left2
      · rw [slot_finishUnits]; exact congrArg Prod.snd left2
      · simp [sel] at hold
      · obtain ⟨kept, named, unit, group, draining⟩ := hold_endReduction s e k (r := r) acc opcode hold unjoined
        have counts : ((((s.entered e k r).endReduction e k).finishUnits v.port v.tag).cmd v.port v.tag).tallies = (c.tally r.2).tallies := by
          rw [tallies_finishUnits, tallies_endReduction, cmd_entered]
        rw [kept, named_finishUnits, slot_finishUnits]
        exact ⟨congrArg Prod.fst counts, congrArg Prod.snd counts, named, unit, group, draining⟩
    case neg =>
      rw [if_neg hold] at step
      refine ⟨_, step, congrArg Prod.fst left1, congrArg Prod.snd left1, ends.engs, ends.streams, ends.rest, fun h => absurd more h,
        fun _ auto _ => ?_, fun n _ _ _ sel holds => absurd (by simp [sel, holds]) hold⟩
      have counts := (tallies_endReduction (s.entered e k r) e k v.port v.tag).trans (congrArg Cmd.tallies (cmd_entered s e k r))
      exact ⟨congrArg Prod.fst counts, congrArg Prod.snd counts, auto_endReduction s e k auto (Bool.eq_false_iff.2 hold)⟩

/-- Settles O13: NAMED_TILE_ARRIVAL by the state of the tile and the command ahead, TILE_DRAIN by what its drain still waits for. -/
theorem tilesAreTakenAndDrained : Obligations.TilesAreTakenAndDrained := by
  unfold Obligations.TilesAreTakenAndDrained
  refine ⟨fun e k s a => ?_, fun e k s => ?_⟩
  · intro v c x old fen f taken acc running waits left live
    have h : Arrives s e k a := ⟨acc, running, waits, left, live⟩
    have takes (cont : Bool) : taken (s.takeTile e k a cont) :=
      have on := takeTile_onSlot s e k a cont
      ⟨by rw [slot_takeTile], fun b ne => named_takeTile_ne s e k ne cont, on.engs, on.slots, on.streams, on.rest⟩
    refine ⟨fun tile => ⟨_, exec_namedTileArrival_free h tile, takes false, named_takeTile_fresh s e k a, cmd_takeTile_fresh s e k a⟩, ?_⟩
    intro away
    have turned {st : Nat} (step : exec (.namedTileArrival e k) s = .next (s.turnAway v.port v.tag st)) : away st :=
      ⟨step, fun unfilled => by rw [step, turnAway_eq unfilled]⟩
    refine ⟨exec_namedTileArrival_draining h, fun tile => ⟨exec_namedTileArrival_noTail h tile, fun w tail => ?_⟩,
      fun tile owner => turned (exec_namedTileArrival_denied h tile owner),
      fun tile owner => ⟨fun fresh => ?_, fun goesOn cls => ?_, fun goesOn cls => ?_⟩⟩
    · exact ⟨exec_namedTileArrival_behind h tile tail, fun ctx joins => ⟨
        fun holds => turned (exec_namedTileArrival_noHold h tile tail ctx joins holds),
        fun holds cls => turned (exec_namedTileArrival_otherClass h tile tail ctx joins holds cls),
        exec_namedTileArrival_joins h tile tail ctx joins⟩⟩
    · exact ⟨_, exec_namedTileArrival_fresh h tile owner fresh, takes false, named_takeTile_fresh s e k a, cmd_takeTile_fresh s e k a⟩
    · exact turned ((exec_namedTileArrival_held h tile owner goesOn).trans (by rw [if_neg cls]))
    · exact ⟨_, (exec_namedTileArrival_held h tile owner goesOn).trans (by rw [if_pos cls]), takes true, named_takeTile_continued s e k a,
        cmd_takeTile_continued s e k a, (takeTile_onSlot s e k a true).cmds⟩
  · intro v c b d draining held reset isolated
    have h : Drains s e k := ⟨draining, held, reset, isolated⟩
    refine ⟨exec_tileDrain_joined, fun _ => exec_tileDrain_awaits, fun alone left => ?_, fun s1 c1 alone sent inputs room drained => ?_⟩
    · have step := exec_tileDrain_sends h alone left
      exact ⟨fun tokens => step.trans (by rw [if_pos tokens]), fun tokens => step.trans (by rw [if_neg (by rw [tokens]; decide)])⟩
    · obtain ⟨stores, desc⟩ := drainUnit_frame drained
      have filled : ((s1.updCmd v.port v.tag fun _ => c1).slot e k).filled = v.filled := congrArg Slot.filled (stores.slot e k)
      have on := drained_onSlot stores desc
      refine ⟨_, exec_tileDrain_drains h alone sent inputs room drained, rfl, fun last => ?_, fun more => ?_, fun a named last => ?_,
        fun j ne => ?_, fun d ne => ?_, ?_, fun q g ne => ?_, stores.rest_of_enginesAndPorts on.rest⟩
      · rw [slot_finishUnits, slot_endDrain _ _ _ (filled.trans last)]
        exact ⟨rfl, rfl⟩
      · rw [slot_finishUnits, draining_endDrain _ _ _ (filled.trans more)]
      · rw [named_finishUnits, named_endDrain _ _ _ ((drained_accOf stores desc).trans named) (filled.trans last)]
      · rw [on.slots j ne, stores.slot]
      · rw [on.engs d ne, stores.eng]
      · rw [on.streams, stores.eng]
      · rw [on.cmds q g (by rwa [stores.slot]), stores.cmd]

end

section
/-!
SUPPORT. Row-by-row commands: what a row done changes (09 R213, R215), and what MOVE's next row is.
-/

namespace Sys2Proof.Machine

open Sys2Proof

/-- The task slots of a command are told by the engines alone. -/
theorem State.cmdSlots_congr {s t : State} (engines : t.engines = s.engines) (p : Port) (g : Tag) : t.cmdSlots p g = s.cmdSlots p g := by
  unfold State.cmdSlots State.slotsOf State.slot State.eng
  rw [engines]

/-- A change of a slot changes no other part of an engine. -/
theorem State.eng_updSlot (s : State) (e : Eng) (k : SlotNo) (f : Slot → Slot) (d : Eng) :
    (s.updSlot e k f).eng d = { s.eng d with slots := ((s.updSlot e k f).eng d).slots } := by
  by_cases h : d = e
  · subst h; simp [State.updSlot]
  · simp [State.updSlot, h]

/-- A change of a command changes no other part of a host port. -/
theorem State.port_updCmd (s : State) (p : Port) (g : Tag) (f : Cmd → Cmd) (q : Port) :
    (s.updCmd p g f).port q = { s.port q with tags := ((s.updCmd p g f).port q).tags } := by
  by_cases h : q = p
  · subst h; simp [State.updCmd]
  · simp [State.updCmd, h]

/-! ### A row done -/

/-- A slot of a command after a row: it stands at the next row, and at the unit of that row. -/
def Slot.afterRow (c : Cmd) (e : Eng) (v : Slot) : Slot :=
  { v with
    rows := v.rows + 1, vec := onVectorUnit c.op
    unit := if c.op = 0x04 ∨ c.op = 0x05 then 0
      else (unitsOf c.rowUnits c.mask e).1 + (v.rows + 1) / (if c.op = 0x08 then 64 else 1) }

/-- Every slot of the command that holds a tag has done its rows. -/
def State.rowsAllDone (s : State) (p : Port) (g : Tag) : Bool :=
  (s.cmdSlots p g).all fun y => decide ((s.cmd p g).rowCount y.1 ≤ y.2.2.rows)

section
variable (s : State) (p : Port) (g : Tag) (e : Eng) (k : SlotNo)

/-- A row done moves the slot on, and ends the command where that was the last row of all. -/
theorem State.rowDone_eq : s.rowDone p g e k =
    if (s.updSlot e k (Slot.afterRow (s.cmd p g) e)).rowsAllDone p g then (s.updSlot e k (Slot.afterRow (s.cmd p g) e)).doneCmd p g
    else s.updSlot e k (Slot.afterRow (s.cmd p g) e) := rfl

/-- A row done changes slots as the move of its slot does, whether or not the command ends. -/
theorem rowDone_engines : (s.rowDone p g e k).engines = (s.updSlot e k (Slot.afterRow (s.cmd p g) e)).engines := by
  rw [State.rowDone_eq]; split <;> rfl

@[simp] theorem rowDone_mem : (s.rowDone p g e k).mem = s.mem := by
  rw [State.rowDone_eq]; split <;> rfl

theorem rowDone_rest : s.rowDone p g e k =
    { s with engines := (s.rowDone p g e k).engines, ports := (s.rowDone p g e k).ports } := by
  rw [State.rowDone_eq]; split <;> rfl

theorem eng_rowDone (d : Eng) : (s.rowDone p g e k).eng d = (s.updSlot e k (Slot.afterRow (s.cmd p g) e)).eng d := by
  simp only [State.eng, rowDone_engines]

theorem slot_rowDone (d : Eng) (j : SlotNo) :
    (s.rowDone p g e k).slot d j = if d = e ∧ j = k then (s.slot e k).afterRow (s.cmd p g) e else s.slot d j := by
  rw [← State.slot_updSlot, State.slot, eng_rowDone, ← State.slot]

theorem port_rowDone (q : Port) : (s.rowDone p g e k).port q = { s.port q with tags := ((s.rowDone p g e k).port q).tags } := by
  rw [State.rowDone_eq]
  split
  · exact State.port_updCmd _ p g _ q
  · rfl

theorem cmd_rowDone_ne {q : Port} {j : Tag} (ne : q ≠ p ∨ j ≠ g) : (s.rowDone p g e k).cmd q j = s.cmd q j := by
  rw [State.rowDone_eq]
  split
  · exact State.cmd_updCmd_ne _ _ _ _ fun ⟨hp, hg⟩ => ne.elim (· hp) (· hg)
  · rfl

/-- The command of a row done has ended exactly when every slot of it has done its rows. -/
theorem cmd_rowDone_same : (s.rowDone p g e k).cmd p g = { s.cmd p g with
    phase := if (s.updSlot e k (Slot.afterRow (s.cmd p g) e)).rowsAllDone p g then .ended else (s.cmd p g).phase } := by
  rw [State.rowDone_eq]
  split
  · exact State.cmd_updCmd_same _ _ _ _
  · rfl

/-- A row done is all that `rowEnds` lets change. -/
theorem rowDone_rowEnds : Safety.rowEnds s (s.rowDone p g e k) p g e k := by
  refine ⟨rowDone_rest s p g e k, fun d => ?_, fun d j ne => ?_, ?_, port_rowDone s p g e k, fun _ _ => cmd_rowDone_ne s p g e k, ?_⟩
  · rw [eng_rowDone]; exact State.eng_updSlot s e k _ d
  · rw [slot_rowDone, if_neg fun ⟨hd, hj⟩ => ne.elim (· hd) (· hj)]
  · rw [slot_rowDone, if_pos ⟨rfl, rfl⟩]; rfl
  · rw [State.cmdSlots_congr (rowDone_engines s p g e k)]; exact cmd_rowDone_same s p g e k

end

/-! ### The next row of a command, and of MOVE -/

/-- A row that an engine can do, and whose work succeeds, is done. -/
theorem doRow_of_ok {s s1 : State} {p : Port} {g : Tag} {op : Nat} {f : View → Cmd → Nat → Except XErr State} {e : Eng} {k : SlotNo}
    {v : Slot} (next : s.rowSlot p g op = some (e, k, v))
    (works : f (s.asLanded e v) (s.cmd p g) ((s.cmd p g).rowAt e v.rows) = .ok s1) : s.doRow p g op f = s1.rowDone p g e k := by
  simp [State.doRow, next, works, Except.map, State.orWait]

theorem exec_move (p : Port) (g : Tag) (s : State) : exec (.move p g) s = execMove p g s := rfl

/-- MOVE does its next row where the row can be read, or filled, and written. -/
theorem exec_move_row {s s1 : State} {p : Port} {g : Tag} {e : Eng} {k : SlotNo} {v : Slot} {b : List Byte}
    (next : s.rowSlot p g 0x03 = some (e, k, v))
    (row : (s.asLanded e v).moveRow (s.cmd p g) ((s.cmd p g).rowAt e v.rows) = .ok b)
    (stored : s.vwrite (s.cmd p g).ctx ((s.cmd p g).f 64 8 + (s.cmd p g).rowAt e v.rows * (s.cmd p g).f 88 8) b = .ok s1) :
    exec (.move p g) s = .next (s1.rowDone p g e k) := by
  rw [exec_move, execMove, doRow_of_ok next (s1 := s1)]
  rw [row]
  exact stored

/-- That a store leaves the other bytes alone is about the memories, whatever else has changed since. -/
theorem leavesOutside_of_mem {s t u : State} {c : CtxNo} {va n : Nat} (h : Safety.leavesOutside s t c va n) (mem : u.mem = t.mem) :
    Safety.leavesOutside s u c va n := by
  unfold Safety.leavesOutside State.hostMem at *
  rwa [mem]

end Sys2Proof.Machine
end

section
open Sys2Proof Sys2Proof.Machine

/-- Settles O14: the row is stored, and the state after the store has one row more done. -/
theorem moveCopiesOneRow : Obligations.MoveCopiesOneRow := by
  unfold Obligations.MoveCopiesOneRow
  intro p tag s s1 e k v b c r va canonical next row stored
  exact ⟨_, exec_move_row next row stored, rowDone_rowEnds s1 p tag e k, vwrite_onlyMemory stored,
    leavesOutside_of_mem (vwrite_leavesOutside canonical stored) (rowDone_mem s1 p tag e k)⟩

end

section
/-!
SUPPORT. Steps 3 and 4: the ordering, the semaphore wait with its retests, the predicate and the count record of a gathered command, and
what a fault record of a command before step 6 leaves as it was (08 R178 to R181, R190; 09 R215 to R217).
-/

namespace Sys2Proof.Machine

open Sys2Proof

/-- A change of a command changes nothing else. -/
theorem onlyCmd_updCmd (s : State) (p : Port) (g : Tag) (f : Cmd → Cmd) : Safety.onlyCmd s (s.updCmd p g f) p g :=
  State.updCmd_congr _ _ _ (State.cmd_updCmd_same _ _ _ _).symm

/-! ### States that translate alike and read the same HBM -/

/-- All that a translation and a read of HBM look at is the same in two states. -/
structure SameSight (s t : State) : Prop where
  ctxs : t.ctxs = s.ctxs
  hbm : t.mem.hbm = s.mem.hbm
  ats : t.mem.ats = s.mem.ats
  stackMems : t.mem.stackMems = s.mem.stackMems

namespace SameSight

variable {s t u : State}

theorem refl (s : State) : SameSight s s := ⟨rfl, rfl, rfl, rfl⟩

theorem trans (h : SameSight s t) (k : SameSight t u) : SameSight s u :=
  ⟨k.ctxs.trans h.ctxs, k.hbm.trans h.hbm, k.ats.trans h.ats, k.stackMems.trans h.stackMems⟩

theorem ctx (h : SameSight s t) (c : CtxNo) : t.ctx c = s.ctx c := by rw [State.ctx, h.ctxs, State.ctx]

theorem retired (h : SameSight s t) (pa : Nat) : t.retired pa = s.retired pa := by
  simp only [State.retired, State.stack, h.stackMems]

theorem served (h : SameSight s t) (pa : Nat) : t.served pa = s.served pa := by rw [State.served, State.served, h.retired]

theorem hbmRead (h : SameSight s t) (pa n : Nat) : t.hbmRead pa n = s.hbmRead pa n := by
  induction n generalizing pa with
  | zero => rfl
  | succ n ih => rw [State.hbmRead, State.hbmRead, h.served, h.hbm, ih]

theorem walkFrom (h : SameSight s t) (va : Nat) (w : Bool) (fuel lvl table : Nat) :
    t.walkFrom va w fuel lvl table = s.walkFrom va w fuel lvl table := by
  induction fuel generalizing lvl table with
  | zero => rfl
  | succ fuel ih => simp only [State.walkFrom, h.retired, h.hbmRead, ih]

theorem xlate (h : SameSight s t) (c : CtxNo) (va : Nat) (w : Bool) : t.xlate c va w = s.xlate c va w := by
  simp only [State.xlate, State.xlateIn, State.atsOf, h.ctx, h.walkFrom, h.retired, h.ats]

theorem semAddr (h : SameSight s t) (c : Cmd) (i : Nat) : t.semAddr c i = s.semAddr c i := by
  simp only [State.semAddr, h.ctx]

end SameSight

/-! ### Fault records -/

/-- What sending an interrupt or writing a fault record does not change: what HBM reads as, and every command. -/
structure Reported (s t : State) : Prop extends SameSight s t where
  tags : ∀ q, (t.port q).tags = (s.port q).tags

namespace Reported

theorem trans {s t u : State} (h : Reported s t) (k : Reported t u) : Reported s u :=
  ⟨h.toSameSight.trans k.toSameSight, fun q => (k.tags q).trans (h.tags q)⟩

theorem cmd {s t : State} (h : Reported s t) (q : Port) (j : Tag) : t.cmd q j = s.cmd q j := by
  rw [State.cmd, h.tags, State.cmd]

theorem updPort (s : State) (p : Port) {f : HostPort → HostPort} (keeps : ∀ h, (f h).tags = h.tags) : Reported s (s.updPort p f) where
  toSameSight := ⟨rfl, rfl, rfl, rfl⟩
  tags q := by
    rw [State.port_updPort]
    split
    · next h => rw [keeps, h]
    · rfl

theorem hostWrite (s : State) (p : Port) (a : Nat) (bs : List Byte) : Reported s (s.hostWrite p a bs) :=
  ⟨⟨rfl, rfl, rfl, rfl⟩, fun _ => rfl⟩

end Reported

theorem HostPort.setMsix_tags (h : HostPort) (f : Fn) (vec : Nat) (m : Msix) : (h.setMsix f vec m).tags = h.tags := by
  unfold HostPort.setMsix
  split <;> rfl

theorem raiseVector_reported (s : State) (p : Port) (f : Fn) (vec : Nat) : Reported s (s.raiseVector p f vec) := by
  unfold State.raiseVector
  dsimp only
  split
  · exact ⟨.refl s, fun _ => rfl⟩
  · split
    · exact .updPort s p fun h => h.setMsix_tags _ _ _
    · exact ⟨⟨rfl, rfl, rfl, rfl⟩, fun _ => rfl⟩

theorem setCause_reported (s : State) (p : Port) (bit : Nat) : Reported s (s.setCause p bit) := by
  unfold State.setCause
  dsimp only
  have set := Reported.updPort s p (f := fun h => { h with cause := setBit h.cause bit }) fun _ => rfl
  split
  · exact ⟨.refl s, fun _ => rfl⟩
  · split
    · exact set.trans (raiseVector_reported _ _ _ _)
    · exact set

theorem postFaultTo_reported (s : State) (p : Port) (rec : List Byte) : Reported s (s.postFaultTo p rec) := by
  unfold State.postFaultTo
  dsimp only
  split
  · exact .updPort s p fun _ => rfl
  · refine .trans ?_ (setCause_reported _ p 8)
    exact .trans (.hostWrite s p _ rec) (.updPort _ p fun _ => rfl)

section
variable (s : State) (p : Port) (g : Tag) (w : Bool) (va kind : Nat)

/-- A fault record of a command only marks that command as having one. -/
theorem postFault_reported (engine stream : Nat) :
    Reported (s.updCmd p g fun c => { c with faultPosted := true }) (s.postFault kind p g engine stream w va) := by
  unfold State.postFault
  refine .trans ?_ (postFaultTo_reported _ _ _)
  exact ⟨⟨rfl, rfl, rfl, rfl⟩, fun _ => rfl⟩

theorem badRecord_sameSight (quiet : Bool) : SameSight s (s.badRecord p g w va kind quiet) := by
  have h := (postFault_reported s p g w va kind 0xFF 0xFF).toSameSight
  exact ⟨h.ctxs, h.hbm, h.ats, h.stackMems⟩

theorem cmd_badRecord_same (quiet : Bool) : (s.badRecord p g w va kind quiet).cmd p g =
    { ({ s.cmd p g with faultPosted := true } : Cmd).fail stFaultAbort s.hk with
      phase := .ended, noSignal := (s.cmd p g).noSignal || quiet } := by
  have h := postFault_reported s p g w va kind 0xFF 0xFF
  rw [State.badRecord, State.cmd_updCmd_same, h.cmd, State.cmd_updCmd_same]

theorem cmd_badRecord_ne (quiet : Bool) {q : Port} {j : Tag} (ne : ¬(q = p ∧ j = g)) :
    (s.badRecord p g w va kind quiet).cmd q j = s.cmd q j := by
  rw [State.badRecord, State.cmd_updCmd_ne _ _ _ _ ne, (postFault_reported s p g w va kind 0xFF 0xFF).cmd, State.cmd_updCmd_ne _ _ _ _ ne]

/-- A wait, predicate read or signal that cannot be made ends its command, without a signal, with FAULT_ABORT as its cause where none
has arisen before (R217). -/
theorem cmd_badWord : ((s.badWord p g w va kind).cmd p g).phase = .ended ∧
    ((s.cmd p g).status = none → ((s.badWord p g w va kind).cmd p g).status = some stFaultAbort) ∧
    ((s.badWord p g w va kind).cmd p g).noSignal = true := by
  rw [State.badWord, cmd_badRecord_same]
  refine ⟨rfl, fun clear => ?_, Bool.or_true _⟩
  simp [Cmd.fail, clear]

end

/-! ### The ordering and the semaphore wait -/

theorem Cmd.past_false (c : Cmd) :
    c.past false = { c with phase := if c.waitEn then .semaphore else if c.reads4 then .predicate else .admission } := by
  simp [Cmd.past]

theorem Cmd.past_true (c : Cmd) : c.past true = { c with phase := if c.reads4 then .predicate else .admission } := by
  simp [Cmd.past]

theorem Cmd.past_true_phase (c : Cmd) : (c.past true).phase ≠ .semaphore := by
  rw [Cmd.past_true]
  dsimp only
  split <;> simp

section
variable {s : State} {p : Port} {g : Tag}

theorem exec_orderingRelease_ordered (phase : (s.cmd p g).phase = .ordering) (ordered : s.ordered (s.cmd p g) = true) :
    exec (.orderingRelease p g) s = .next (s.updCmd p g fun c => c.past false) :=
  congrArg Host.Outcome.next (if_pos ⟨phase, ordered⟩)

theorem exec_orderingRelease_unordered (unordered : s.ordered (s.cmd p g) = false) : exec (.orderingRelease p g) s = .next s :=
  congrArg Host.Outcome.next (if_neg fun h => by simp [unordered] at h)

theorem exec_semaphoreWaitMet (p : Port) (g : Tag) (s : State) : exec (.semaphoreWaitMet p g) s = .next (s.testWait p g) := rfl

theorem testWait_of_not_waiting (h : (s.cmd p g).phase ≠ .semaphore) : s.testWait p g = s := if_pos h

/-- A command stands at a semaphore wait whose word is in HBM at `pa` (R217). -/
structure WaitsAt (s : State) (p : Port) (g : Tag) (pa : Nat) : Prop where
  phase : (s.cmd p g).phase = .semaphore
  word : s.xlate (s.cmd p g).ctx (s.semAddr (s.cmd p g) ((s.cmd p g).f 4 2)) false = .hbm pa

theorem WaitsAt.testWait {pa : Nat} (h : WaitsAt s p g pa) : s.testWait p g =
    if (s.cmd p g).f 8 8 ≤ leNat (s.hbmRead pa 8) then s.updCmd p g (fun c => c.past true) else s := by
  simp only [State.testWait, h.phase, h.word, ne_eq, not_true_eq_false, if_false]

theorem testWait_of_host {h : Port} {ha : Nat} (phase : (s.cmd p g).phase = .semaphore)
    (word : s.xlate (s.cmd p g).ctx (s.semAddr (s.cmd p g) ((s.cmd p g).f 4 2)) false = .host h ha) :
    s.testWait p g = s.badWord p g false (s.semAddr (s.cmd p g) ((s.cmd p g).f 4 2)) 2 := by
  simp only [State.testWait, phase, word, ne_eq, not_true_eq_false, if_false]

end

/-- A test of a wait passes its command on, ends it, or does nothing. -/
theorem testWait_cases (s : State) (p : Port) (g : Tag) : s.testWait p g = s ∨ s.testWait p g = s.updCmd p g (fun c => c.past true) ∨
    ∃ va kind, s.testWait p g = s.badWord p g false va kind := by
  unfold State.testWait
  dsimp only
  split
  · exact .inl rfl
  · split
    · split
      · exact .inr (.inl rfl)
      · exact .inl rfl
    · exact .inr (.inr ⟨_, _, rfl⟩)
    · exact .inr (.inr ⟨_, _, rfl⟩)

theorem testWait_sameSight (s : State) (p : Port) (g : Tag) : SameSight s (s.testWait p g) := by
  obtain h | h | ⟨va, kind, h⟩ := testWait_cases s p g <;> rw [h]
  · exact .refl s
  · exact ⟨rfl, rfl, rfl, rfl⟩
  · exact badRecord_sameSight s p g false va kind true

theorem cmd_testWait_ne {s : State} {p q : Port} {g j : Tag} (ne : ¬(q = p ∧ j = g)) : (s.testWait p g).cmd q j = s.cmd q j := by
  obtain h | h | ⟨va, kind, h⟩ := testWait_cases s p g <;> rw [h]
  · exact State.cmd_updCmd_ne s _ _ _ ne
  · exact cmd_badRecord_ne s p g false va kind true ne

theorem cmd_testWait_not_waiting {s : State} {q : Port} {j : Tag} (idle : (s.cmd q j).phase ≠ .semaphore) (p : Port) (g : Tag) :
    (s.testWait p g).cmd q j = s.cmd q j := by
  by_cases h : q = p ∧ j = g
  · obtain ⟨rfl, rfl⟩ := h
    rw [testWait_of_not_waiting idle]
  · exact cmd_testWait_ne h

/-! ### SEMAPHORE_RETEST -/

/-- The waits of a list of commands are tested one after the other. -/
def State.testWaits (s : State) (l : List (Port × Tag × Cmd)) : State := l.foldl (fun s x => s.testWait x.1 x.2.1) s

theorem exec_semaphoreRetest (s : State) : exec .semaphoreRetest s = .next (s.testWaits s.cmds) := rfl

theorem State.testWaits_cons (s : State) (x : Port × Tag × Cmd) (l : List (Port × Tag × Cmd)) :
    s.testWaits (x :: l) = (s.testWait x.1 x.2.1).testWaits l := rfl

theorem testWaits_sameSight (s : State) (l : List (Port × Tag × Cmd)) : SameSight s (s.testWaits l) := by
  induction l generalizing s with
  | nil => exact .refl s
  | cons x l ih => exact (testWait_sameSight s x.1 x.2.1).trans (ih _)

theorem cmd_testWaits_not_waiting {s : State} {p : Port} {g : Tag} (idle : (s.cmd p g).phase ≠ .semaphore)
    (l : List (Port × Tag × Cmd)) : (s.testWaits l).cmd p g = s.cmd p g := by
  induction l generalizing s with
  | nil => rfl
  | cons x l ih =>
    have same := cmd_testWait_not_waiting idle x.1 x.2.1
    rw [State.testWaits_cons, ih (by rwa [same]), same]

/-- The test of another command's wait leaves a command where it waits. -/
theorem WaitsAt.other {s : State} {p q : Port} {g j : Tag} {pa : Nat} (h : WaitsAt s p g pa) (ne : ¬(p = q ∧ g = j)) :
    WaitsAt (s.testWait q j) p g pa where
  phase := by rw [cmd_testWait_ne ne]; exact h.phase
  word := by
    have sight := testWait_sameSight s q j
    rw [cmd_testWait_ne ne, sight.semAddr, sight.xlate]
    exact h.word

/-- A wait that is not met stays so through every test, be it of the command itself. -/
theorem cmd_testWaits_unmet {s : State} {p : Port} {g : Tag} {pa : Nat} (h : WaitsAt s p g pa)
    (unmet : ¬(s.cmd p g).f 8 8 ≤ leNat (s.hbmRead pa 8)) (l : List (Port × Tag × Cmd)) : (s.testWaits l).cmd p g = s.cmd p g := by
  induction l generalizing s with
  | nil => rfl
  | cons x l ih =>
    rw [State.testWaits_cons]
    by_cases own : p = x.1 ∧ g = x.2.1
    · obtain ⟨rfl, rfl⟩ := own
      rw [h.testWait, if_neg unmet]
      exact ih h unmet
    · have same := cmd_testWait_ne (s := s) own
      rw [ih (h.other own) (by rwa [same, (testWait_sameSight s _ _).hbmRead]), same]

/-- A wait that is met is passed at the command's first test, and no later one tests it again. -/
theorem cmd_testWaits_met {s : State} {p : Port} {g : Tag} {pa : Nat} (h : WaitsAt s p g pa)
    (met : (s.cmd p g).f 8 8 ≤ leNat (s.hbmRead pa 8)) {l : List (Port × Tag × Cmd)} {c : Cmd} (m : (p, g, c) ∈ l) :
    (s.testWaits l).cmd p g = (s.cmd p g).past true := by
  induction l generalizing s with
  | nil => cases m
  | cons x l ih =>
    rw [State.testWaits_cons]
    by_cases own : p = x.1 ∧ g = x.2.1
    · obtain ⟨rfl, rfl⟩ := own
      have passed : (s.testWait x.1 x.2.1).cmd x.1 x.2.1 = (s.cmd x.1 x.2.1).past true := by
        rw [h.testWait, if_pos met, State.cmd_updCmd_same]
      rw [cmd_testWaits_not_waiting (by rw [passed]; exact Cmd.past_true_phase _), passed]
    · have same := cmd_testWait_ne (s := s) own
      obtain rfl | m := List.mem_cons.1 m
      · exact absurd ⟨rfl, rfl⟩ own
      · rw [ih (h.other own) (by rwa [same, (testWait_sameSight s _ _).hbmRead]) m, same]

/-- SEMAPHORE_RETEST tests every command that waits. -/
theorem cmd_retest {s : State} {p : Port} {g : Tag} {pa : Nat} (h : WaitsAt s p g pa) :
    (s.testWaits s.cmds).cmd p g =
      if (s.cmd p g).f 8 8 ≤ leNat (s.hbmRead pa 8) then (s.cmd p g).past true else s.cmd p g := by
  split
  · next met => exact cmd_testWaits_met h met (State.mem_cmds.2 ⟨rfl, by simp [h.phase]⟩)
  · next unmet => exact cmd_testWaits_unmet h unmet _

/-! ### Step 4 -/

section
variable {s : State} {p : Port} {g : Tag}

/-- A command at step 4 whose work goes on: it has no predicate, or the word in HBM makes it true (R178). -/
def State.predHolds (s : State) (c : Cmd) : Prop := c.predOp = 0 ∨ ∃ pa, s.xlate c.ctx (c.f 24 8) false = .hbm pa ∧
  predTrue c.predOp (leNat (s.hbmRead pa 8)) (c.f 32 8) = true

theorem exec_predicateRead (p : Port) (g : Tag) (s : State) : exec (.predicateRead p g) s = execPredicateRead p g s := rfl

theorem exec_predicateRead_true (phase : (s.cmd p g).phase = .predicate) (holds : s.predHolds (s.cmd p g)) :
    exec (.predicateRead p g) s = .next (s.readCount p g) := by
  rw [exec_predicateRead, execPredicateRead]
  by_cases absent : (s.cmd p g).predOp = 0
  · simp [phase, absent]
  · obtain ⟨pa, word, met⟩ := holds.resolve_left absent
    simp [phase, absent, word, met]

section
variable (phase : (s.cmd p g).phase = .predicate) (op : (s.cmd p g).predOp ≠ 0)
include phase op

theorem exec_predicateRead_false {pa : Nat} (word : s.xlate (s.cmd p g).ctx ((s.cmd p g).f 24 8) false = .hbm pa)
    (fails : predTrue (s.cmd p g).predOp (leNat (s.hbmRead pa 8)) ((s.cmd p g).f 32 8) = false) :
    exec (.predicateRead p g) s = .next (s.predFalse p g) := by
  simp [exec_predicateRead, execPredicateRead, phase, op, word, fails]

theorem exec_predicateRead_host {h : Port} {ha : Nat} (word : s.xlate (s.cmd p g).ctx ((s.cmd p g).f 24 8) false = .host h ha) :
    exec (.predicateRead p g) s = .next (s.badWord p g false ((s.cmd p g).f 24 8) 2) := by
  simp [exec_predicateRead, execPredicateRead, phase, op, word]

end

theorem predFalse_eq (s : State) (p : Port) (g : Tag) : s.predFalse p g =
    ({ s with engines := (s.predFalse p g).engines }).updCmd p g fun c => { c with phase := .ended, predSkipped := true } := by
  unfold State.predFalse State.doneCmd
  dsimp only
  rw [State.updCmd_updCmd]
  split <;> rfl

theorem cmd_predFalse (s : State) (p : Port) (g : Tag) :
    (s.predFalse p g).cmd p g = { s.cmd p g with phase := .ended, predSkipped := true } := by
  rw [predFalse_eq, State.cmd_updCmd_same]
  rfl

/-- A command that is skipped counts once, on the engine that it names (R194). -/
theorem eng_predFalse (s : State) (p : Port) (g : Tag) (e : Eng) :
    (s.predFalse p g).eng e = if s.namedEngine (s.cmd p g) = some e then (s.eng e).bump 0x870 1 else s.eng e := by
  unfold State.predFalse State.doneCmd
  dsimp only
  split
  · next d named =>
    rw [State.bump, State.eng_updEng, named]
    by_cases own : e = d
    · subst own; simp
    · simp [own, Ne.symm own]
  · next unnamed => simp [unnamed]

theorem readCount_not_gathered (h : ((s.cmd p g).op ≠ 0x01 ∧ (s.cmd p g).op ≠ 0x02) ∨ ((s.cmd p g).mm 0).gather = 0) :
    s.readCount p g = s.updCmd p g fun c => { c with phase := .admission } := if_pos h

/-- A gathered command once its count record has been read, at an HKCLK count: a count of 0 ends its work, and of the others those
that break a rule end it with BAD_DESCRIPTOR (R190). -/
def Cmd.counted (c : Cmd) (accepted : Nat) (now : W64) : Cmd :=
  let c1 := { c with accepted := accepted }
  if accepted = 0 then { c1 with phase := .ended }
  else if c1.gatherOk then { c1 with phase := .admission }
  else { c1.fail stBadDescriptor now with phase := .ended }

section
variable {c : Cmd} {n : Nat} {now : W64}

theorem Cmd.counted_zero (zero : n = 0) : c.counted n now = { c with accepted := n, phase := .ended } := if_pos zero

theorem Cmd.counted_ok (nonzero : n ≠ 0) (ok : ({ c with accepted := n } : Cmd).gatherOk = true) :
    c.counted n now = { c with accepted := n, phase := .admission } := (if_neg nonzero).trans (if_pos ok)

theorem Cmd.counted_bad (nonzero : n ≠ 0) (bad : ({ c with accepted := n } : Cmd).gatherOk = false) :
    c.counted n now = { ({ c with accepted := n } : Cmd).fail stBadDescriptor now with phase := .ended } :=
  (if_neg nonzero).trans (if_neg fun ok => by simp [bad] at ok)

end

theorem readCount_gathered {b : List Byte} (op : (s.cmd p g).op = 0x01 ∨ (s.cmd p g).op = 0x02) (gather : ((s.cmd p g).mm 0).gather ≠ 0)
    (count : s.vread (s.cmd p g).ctx ((s.cmd p g).mm 0).countAddr 4 = .ok b) :
    s.readCount p g = s.updCmd p g fun c => c.counted (fld b 0 4) s.hk := by
  have gathered : ¬(((s.cmd p g).op ≠ 0x01 ∧ (s.cmd p g).op ≠ 0x02) ∨ ((s.cmd p g).mm 0).gather = 0) :=
    fun h => h.elim (fun other => op.elim other.1 other.2) gather
  unfold State.readCount
  dsimp only
  rw [if_neg gathered, count]
  dsimp only
  split
  · next zero => rw [State.doneCmd, State.updCmd_updCmd]; exact State.updCmd_congr _ _ _ (Cmd.counted_zero zero).symm
  · next nonzero =>
    split
    · next ok => rw [State.updCmd_updCmd]; exact State.updCmd_congr _ _ _ (Cmd.counted_ok nonzero ok).symm
    · next bad =>
      rw [State.endCmd, State.updCmd_updCmd, State.updCmd_hk]
      exact State.updCmd_congr _ _ _ (Cmd.counted_bad nonzero (eq_false_of_ne_true bad)).symm

end

end Sys2Proof.Machine
end

section
open Sys2Proof Sys2Proof.Machine

/-- Settles O26: step 3, the wait with its retests, the predicate and the count record, each by its own rule. -/
theorem orderingSemaphoreAndPredicate : Obligations.OrderingSemaphoreAndPredicate := by
  unfold Obligations.OrderingSemaphoreAndPredicate
  refine ⟨fun p g s => ⟨fun phase ordered => ?_, fun _ unordered => exec_orderingRelease_unordered unordered⟩,
    fun p g s phase => ⟨fun pa word => ?_, fun h ha word => ?_⟩,
    fun s => ⟨_, exec_semaphoreRetest s, (testWaits_sameSight s s.cmds).hbm, fun p g => ⟨fun idle => ?_, fun phase pa word => ?_⟩⟩,
    fun p g s phase op => ⟨fun pa word dense => ⟨fun met => ?_, fun fails => ?_⟩, fun h ha word => ?_⟩,
    fun p g s b phase op gather count holds => ?_⟩
  · simp only [exec_orderingRelease_ordered phase ordered, Cmd.past_false]
  · simp only [exec_semaphoreWaitMet, (WaitsAt.mk phase word).testWait, Cmd.past_true]
  · exact ⟨_, exec_semaphoreWaitMet p g s, by rw [testWait_of_host phase word]; exact cmd_badWord s p g false _ 2⟩
  · exact cmd_testWaits_not_waiting idle s.cmds
  · exact (cmd_retest ⟨phase, word⟩).trans (by rw [Cmd.past_true])
  · rw [exec_predicateRead_true phase (.inr ⟨pa, word, met⟩), readCount_not_gathered dense]
  · refine ⟨_, exec_predicateRead_false phase op word fails, cmd_predFalse s p g, ?_, eng_predFalse s p g⟩
    rw [cmd_predFalse]
    exact predFalse_eq s p g
  · exact ⟨_, exec_predicateRead_host phase op word, cmd_badWord s p g false _ 2⟩
  · rw [exec_predicateRead_true phase holds, readCount_gathered op gather count]
    refine ⟨fun zero => ?_, fun nonzero ok => ?_, fun nonzero bad clear => ⟨_, rfl, ?_⟩⟩
    · exact congrArg Host.Outcome.next (State.updCmd_congr _ _ _ (Cmd.counted_zero zero))
    · exact congrArg Host.Outcome.next (State.updCmd_congr _ _ _ (Cmd.counted_ok nonzero ok))
    · rw [State.cmd_updCmd_same, Cmd.counted_bad nonzero bad]
      exact ⟨onlyCmd_updCmd s p g _, rfl, by simp [Cmd.fail, clear]⟩

end

section
/-!
SUPPORT. SCALE and the scale tracker: runs of entries, the three kinds of SCALE, and what a later step makes of an entry (11 R278 to R282).
-/

namespace Sys2Proof.Machine

open Sys2Proof

/-! ### Runs of entries -/

/-- The `n` entries of a partition from `first` on are those of `f`, and no other entry of any partition differs. -/
structure SetsScales (s t : State) (q : Part) (first n : Nat) (f : Nat → ScaleEnt) : Prop where
  inside : ∀ i, i < n → t.scaleEnt q (first + i) = f i
  outside : ∀ m, (m < first ∨ first + n ≤ m) → t.scaleEnt q m = s.scaleEnt q m
  others : ∀ r, r ≠ q → t.part r = s.part r

section
variable (s : State) (q : Part) (first : Nat) (f : Nat → ScaleEnt → ScaleEnt) (n : Nat)

theorem updScales_setsScales : SetsScales s (s.updScales q first f n) q first n fun i => f i (s.scaleEnt q (first + i)) where
  inside i hi := by rw [scaleEnt_updScales, if_pos (by omega), Nat.add_sub_cancel_left]
  outside m hm := by rw [scaleEnt_updScales, if_neg (by omega)]
  others := (updScales_frame s q first f n).2

/-- A command that has changed a run of entries and ends differs in the partitions and in itself. -/
theorem updScales_doneCmd (p : Port) (g : Tag) : (s.updScales q first f n).doneCmd p g =
    ({ s with parts := ((s.updScales q first f n).doneCmd p g).parts } : State).doneCmd p g :=
  congrArg (State.doneCmd · p g) (updScales_frame s q first f n).1

end

/-- Entries are the partitions' alone. -/
theorem SetsScales.of_parts {s t u : State} {q : Part} {first n : Nat} {f : Nat → ScaleEnt} (h : SetsScales s t q first n f)
    (parts : u.parts = t.parts) : SetsScales s u q first n f := by
  have part (r : Part) : u.part r = t.part r := by rw [State.part, parts, State.part]
  refine ⟨fun i hi => ?_, fun m hm => ?_, fun r ne => (part r).trans (h.others r ne)⟩
  · rw [State.scaleEnt, part]; exact h.inside i hi
  · rw [State.scaleEnt, part]; exact h.outside m hm

theorem phase_doneCmd (s : State) (p : Port) (g : Tag) : ((s.doneCmd p g).cmd p g).phase = .ended := by
  rw [State.doneCmd, State.cmd_updCmd_same]

/-! ### The work of SCALE by its SOP -/

/-- The state in which a SCALE stores images: each entry that it names has been accessed with its STEP (R279, R282). -/
def State.accessScales (s : State) (q : Part) (c : Cmd) : State :=
  s.updScales q (c.f 52 2) (fun _ en => en.access (BitVec.ofNat 32 c.step)) (c.f 54 2)

theorem accessScales_setsScales (s : State) (q : Part) (c : Cmd) : SetsScales s (s.accessScales q c) q (c.f 52 2) (c.f 54 2)
    fun i => (s.scaleEnt q (c.f 52 2 + i)).access (BitVec.ofNat 32 c.step) :=
  updScales_setsScales s q (c.f 52 2) (fun _ en => en.access (BitVec.ofNat 32 c.step)) (c.f 54 2)

theorem accessScales_rest (s : State) (q : Part) (c : Cmd) : s.accessScales q c = { s with parts := (s.accessScales q c).parts } :=
  (updScales_frame s q (c.f 52 2) _ (c.f 54 2)).1

section
variable {s : State} {p : Port} {g : Tag} {c : Cmd} {q : Part}

theorem scaleWork_stores {s1 : State} (sop : c.f 50 1 = 0)
    (stored : (s.accessScales q c).vwrite c.ctx (c.f 56 8) ((s.accessScales q c).scaleImages q (c.f 52 2) (c.f 54 2)) = .ok s1) :
    s.scaleWork p g c q = .ok (s1.doneCmd p g) := by
  unfold State.accessScales at stored
  simp only [State.scaleWork, sop, stored]
  rfl

theorem scaleWork_replaces {b : List Byte} (sop : c.f 50 1 = 1) (read : s.vread c.ctx (c.f 56 8) (32 * c.f 54 2) = .ok b) :
    s.scaleWork p g c q = .ok (
      if (List.range (c.f 54 2)).all fun i => scaleImageOk (slice b (32 * i) 32) then
        (s.updScales q (c.f 52 2) (fun i _ => scaleOfImage (slice b (32 * i) 32)) (c.f 54 2)).doneCmd p g
      else s.endCmd p g stBadDescriptor) := by
  simp only [State.scaleWork, sop, read]
  rfl

theorem scaleWork_resets (sop : c.f 50 1 = 2) :
    s.scaleWork p g c q = .ok ((s.updScales q (c.f 52 2) (fun _ _ => {}) (c.f 54 2)).doneCmd p g) := by
  simp only [State.scaleWork, sop]
  rfl

theorem exec_scale {t : State} (engine : (s.wholeSlot p g 0x09).isSome = true)
    (works : s.scaleWork p g (s.cmd p g) ⟨(s.cmd p g).f 51 1 % 8, Nat.mod_lt _ (by decide)⟩ = .ok t) : exec (.scale p g) s = .next t := by
  show execScale p g s = _
  obtain ⟨x, slot⟩ := Option.isSome_iff_exists.1 engine
  simp only [execScale, slot, works, State.orWait]

end

end Sys2Proof.Machine
end

section
open Sys2Proof Sys2Proof.Machine

/-- Settles O17: by SOP, the run of entries that each sets. -/
theorem scaleReadsWritesAndResets : Obligations.ScaleReadsWritesAndResets := by
  unfold Obligations.ScaleReadsWritesAndResets
  intro p tag s c q sets engine
  have ended {t : State} {f : Nat → ScaleEnt} (run : SetsScales s t q (c.f 52 2) (c.f 54 2) f) : sets (t.doneCmd p tag) f :=
    have run' := run.of_parts (u := t.doneCmd p tag) rfl
    ⟨run'.inside, run'.outside, run'.others, phase_doneCmd t p tag⟩
  refine ⟨fun s1 sop stored => ?_, fun b sop read => ⟨fun ok => ?_, fun bad => ?_⟩, fun sop => ?_⟩
  · have memory := vwrite_onlyMemory stored
    have parts : s1.parts = (s.accessScales q c).parts := by rw [memory]; rfl
    refine ⟨exec_scale engine (scaleWork_stores sop stored), ended ((accessScales_setsScales s q c).of_parts parts), ?_⟩
    rw [parts, ← accessScales_rest]
    exact memory
  · have work := exec_scale engine (scaleWork_replaces sop read)
    rw [if_pos ok] at work
    exact ⟨_, work, ended (updScales_setsScales s q _ _ _), updScales_doneCmd s q _ _ _ p tag⟩
  · have work := exec_scale engine (scaleWork_replaces sop read)
    rwa [if_neg (by rw [bad]; decide)] at work
  · exact ⟨_, exec_scale engine (scaleWork_resets sop), ended (updScales_setsScales s q _ _ _), updScales_doneCmd s q _ _ _ p tag⟩

end

section
/-!
SUPPORT. ROUTE and set-group: what storing ROUTE's results changes, and what each command answers (08 R182 to R189; 11 R272, R273).
-/

namespace Sys2Proof.Machine

open Sys2Proof

/-! ### The streams of a command -/

/-- `t` is `s` but for streams of the command that holds a tag. -/
structure OwnStreams (p : Port) (g : Tag) (s t : State) : Prop where
  rest : t = { s with engines := t.engines }
  engs : ∀ d, t.eng d = { s.eng d with streams := (t.eng d).streams }
  others : ∀ d i, ((s.strm d i).port ≠ p ∨ (s.strm d i).tag ≠ g) → t.strm d i = s.strm d i

namespace OwnStreams

variable {p : Port} {g : Tag}

theorem refl (s : State) : OwnStreams p g s s := ⟨rfl, fun _ => rfl, fun _ _ _ => rfl⟩

theorem trans {s t u : State} (h : OwnStreams p g s t) (k : OwnStreams p g t u) : OwnStreams p g s u where
  rest := by rw [k.rest, h.rest]
  engs d := by rw [k.engs, h.engs]
  others d i foreign := by
    have same := h.others d i foreign
    exact (k.others d i (by rwa [same])).trans same

theorem foldl {α : Type} {f : State → α → State} (hf : ∀ s x, OwnStreams p g s (f s x)) (l : List α) (s : State) :
    OwnStreams p g s (l.foldl f s) := by
  induction l generalizing s with
  | nil => exact refl s
  | cons x l ih => exact (hf s x).trans (ih (f s x))

/-- A change of a stream of the command. -/
theorem updStrm {s : State} {e : Eng} {i : StreamNo} (port : (s.strm e i).port = p) (tag : (s.strm e i).tag = g) (f : Strm → Strm) :
    OwnStreams p g s (s.updStrm e i f) where
  rest := rfl
  engs d := by
    by_cases h : d = e
    · subst h; simp [State.updStrm]
    · simp [State.updStrm, h]
  others d j foreign := State.strm_updStrm_ne _ _ _ _ fun ⟨hd, hj⟩ => by
    subst hd hj
    exact foreign.elim (· port) (· tag)

end OwnStreams

theorem refit_ownStreams (s : State) (e : Eng) (p : Port) (g : Tag) : OwnStreams p g s (s.refit e p g) := by
  refine .foldl (fun s i => ?_) (List.finRange 16) s
  dsimp only
  split
  · next own => exact .updStrm own.2.1 own.2.2 _
  · exact .refl s

/-- Refitting on each engine of a list of slots. -/
theorem refits_ownStreams (s : State) (p : Port) (g : Tag) (l : List (Eng × SlotNo × Slot)) :
    OwnStreams p g s (l.foldl (fun s x => s.refit x.1 p g) s) := by
  refine .foldl (fun s x => ?_) l s
  exact refit_ownStreams s x.1 p g

/-! ### ROUTE -/

/-- ROUTE stores its results, sets its own counts, refits its streams and ends. -/
theorem routeWork_cases {s t : State} {p : Port} {g : Tag} {w : View} {c : Cmd} (works : s.routeWork p g w c = .ok t) :
    ∃ s1 f u, Safety.onlyMemory s s1 ∧ OwnStreams p g (s1.updCmd p g f) u ∧ t = u.doneCmd p g := by
  suffices h : OkAll (fun t => ∃ s1 f u, Safety.onlyMemory s s1 ∧ OwnStreams p g (s1.updCmd p g f) u ∧ t = u.doneCmd p g)
      (s.routeWork p g w c) from h t works
  unfold State.routeWork
  extract_lets
  refine OkAll.bind fun rows _ => ?_
  extract_lets
  refine OkAll.bind fun s1 stored => ?_
  exact OkAll.pure ⟨s1, _, _, writeAll_onlyMemory _ stored, refits_ownStreams _ p g _, rfl⟩

section
variable {s t : State} {p : Port} {g : Tag} {w : View} {c : Cmd} (works : s.routeWork p g w c = .ok t)
include works

theorem routeWork_ends (e : Eng) (k : SlotNo) : ((t.beginOn e k).cmd p g).phase = .ended := by
  obtain ⟨s1, f, u, -, -, rfl⟩ := routeWork_cases works
  exact phase_doneCmd u p g

theorem routeWork_onlyMemoryAndCmd : Safety.onlyMemoryAndCmd { s with engines := t.engines } t p g := by
  obtain ⟨s1, f, u, memory, own, rfl⟩ := routeWork_cases works
  have ends : u.doneCmd p g = ({ s1 with engines := u.engines } : State).updCmd p g fun c => { f c with phase := .ended } := by
    rw [own.rest]
    exact State.updCmd_updCmd { s1 with engines := u.engines } p g f _
  rw [ends]
  refine onlyMemoryAndCmd_of ?_ p g _
  unfold Safety.onlyMemory at memory ⊢
  rw [memory]
  rfl

theorem routeWork_ownStreams : (∀ d, t.eng d = { s.eng d with streams := (t.eng d).streams }) ∧
    ∀ d i, ((s.strm d i).port ≠ p ∨ (s.strm d i).tag ≠ g) → t.strm d i = s.strm d i := by
  obtain ⟨s1, f, u, memory, own, rfl⟩ := routeWork_cases works
  have eng (d : Eng) : s1.eng d = s.eng d := by rw [memory]; rfl
  have strm (d : Eng) (i : StreamNo) : s1.strm d i = s.strm d i := by rw [State.strm, eng, State.strm]
  refine ⟨fun d => ?_, fun d i foreign => ?_⟩
  · rw [← eng]; exact own.engs d
  · rw [← strm] at foreign ⊢; exact own.others d i foreign

end

theorem exec_route {s s1 : State} {p : Port} {g : Tag} {e : Eng} {k : SlotNo} {v : Slot} (engine : s.wholeSlot p g 0x07 = some (e, k, v))
    (works : s.routeWork p g (s.asLanded e v) (s.cmd p g) = .ok s1) : exec (.route p g) s = .next (s1.beginOn e k) := by
  show execRoute p g s = _
  simp only [execRoute, engine, works, Except.map, State.orWait]

/-! ### Set-group -/

/-- A set-group stands at step 5. -/
structure SetsGroup (c : Cmd) : Prop where
  admission : c.phase = .admission
  op : c.op = 0x08
  uop : c.f 50 1 = 1

section
variable {s : State} {p : Port} {g : Tag} (h : SetsGroup (s.cmd p g))
include h

theorem exec_setGroup_stores {pa : Nat} {s1 : State}
    (place : s.xlate (s.cmd p g).ctx ((s.cmd p g).groupTable + 64 * (s.cmd p g).f 52 2) true = .hbm pa)
    (stored : s.vwrite (s.cmd p g).ctx ((s.cmd p g).groupTable + 64 * (s.cmd p g).f 52 2)
      (patch (slice (s.cmd p g).desc 56 64) 24 (toLe 4 (s.cmd p g).step)) = .ok s1) :
    exec (.setGroup p g) s = .next (s1.doneCmd p g) := by
  obtain ⟨admission, op, uop⟩ := h
  show execSetGroup p g s = _
  simp [execSetGroup, admission, op, uop, place, stored, Except.map, State.orWait]

theorem exec_setGroup_host {o : Port} {ha : Nat}
    (place : s.xlate (s.cmd p g).ctx ((s.cmd p g).groupTable + 64 * (s.cmd p g).f 52 2) true = .host o ha) :
    exec (.setGroup p g) s = .next (s.endCmd p g stBadDescriptor) := by
  obtain ⟨admission, op, uop⟩ := h
  show execSetGroup p g s = _
  simp [execSetGroup, admission, op, uop, place]

end

end Sys2Proof.Machine
end

section
open Sys2Proof Sys2Proof.Machine

/-- Settles O18: ROUTE by what its work changes, set-group by where its entry lies. -/
theorem routeAndSetGroupStoreAndEnd : Obligations.RouteAndSetGroupStoreAndEnd := by
  unfold Obligations.RouteAndSetGroupStoreAndEnd
  refine ⟨fun p tag s s1 e k v engine works => ?_, fun p tag s => ?_⟩
  · exact ⟨exec_route engine works, routeWork_ends works e k, routeWork_onlyMemoryAndCmd works, routeWork_ownStreams works⟩
  · intro c va entry admission op uop
    have h : SetsGroup c := ⟨admission, op, uop⟩
    exact ⟨fun pa s1 canonical place stored =>
      ⟨exec_setGroup_stores h place stored, vwrite_onlyMemory stored, vwrite_leavesOutside canonical stored⟩,
      fun o ha place => exec_setGroup_host h place⟩

end

section
/-!
SUPPORT. The scale tracker's accesses and the table builder: what the end of a step makes of an entry (11 R279, R280), and what
TABLE_BUILD does to its engine (06 R122, R125, R131).
-/

namespace Sys2Proof.Machine

open Sys2Proof

/-! ### The end of an entry's step -/

namespace ScaleEnt

variable {en : ScaleEnt} {t : W32}

theorem access_of_not_later (h : laterStep t en.step = false) : en.access t = en := by simp [access, h]

theorem access_of_later (h : laterStep t en.step = true) : en.access t = en.close t := by simp [access, h]

theorem newEst_of_unreported (h : en.stepMax = none) : en.newEst = en.est := by
  unfold newEst
  simp only [h]

theorem newEst_first {m : Int} (h : en.stepMax = some m) (first : en.est = none) : en.newEst = some m := by
  simp only [newEst, h, first]

theorem newEst_moves {m x : Int} (h : en.stepMax = some m) (old : en.est = some x) :
    en.newEst = some (x + asr ((m - x) * en.smooth) 8) := by
  simp only [newEst, h, old]

/-- Only an entry without an estimate is left without one. -/
theorem est_of_newEst_none (h : en.newEst = none) : en.est = none := by
  unfold newEst at h
  split at h
  · exact h
  · injection h
  · injection h

theorem newScale_saturated (sat : 0 < en.satStep) (v : Int) :
    en.newScale v = clampI (-128) 127 (max (ceilDivI (v + 256 - en.top) 256) (en.scale + 2)) := by
  simp only [newScale, sat, if_true]

theorem newScale_unsaturated (sat : en.satStep = 0) (v : Int) :
    en.newScale v = clampI (-128) 127 (
      if en.scale < ceilDivI (v + 256 - en.top) 256 then ceilDivI (v + 256 - en.top) 256
      else if ceilDivI (v + 256 - en.top) 256 ≤ en.scale - 2 then en.scale - 1
      else en.scale) := by
  simp only [newScale, sat, Nat.lt_irrefl, if_false]

/-- Without an estimate the end of a step only empties what it gathered. -/
theorem close_of_none (h : en.newEst = none) (t : W32) :
    en.close t = { en with step := t, stepMax := none, satStep := 0, reports := 0 } := by
  simp only [close, h]

theorem close_of_some {v : Int} (h : en.newEst = some v) (t : W32) : en.close t = { en with
    step := t, stepMax := none, satStep := 0, reports := 0, est := some v, scale := en.newScale v
    raises := if 0 < en.satStep then satAdd 16 en.raises 1 else en.raises, satFlag := decide (0 < en.satStep) } := by
  simp only [close, h]

theorem est_close (en : ScaleEnt) (t : W32) : (en.close t).est = en.newEst := by
  cases h : en.newEst with
  | none =>
    have unestimated := est_of_newEst_none h
    rw [close_of_none h]
    exact unestimated
  | some v => rw [close_of_some h]

/-- The end of a step leaves TOP, MODE, SMOOTH and the totals as they are. -/
theorem close_rest (en : ScaleEnt) (t : W32) : en.close t = { en with
    step := t, stepMax := none, satStep := 0, reports := 0, est := (en.close t).est, scale := (en.close t).scale
    raises := (en.close t).raises, satFlag := (en.close t).satFlag } := by
  cases h : en.newEst with
  | none => rw [close_of_none h]
  | some v => rw [close_of_some h]

theorem close_unestimated (h : (en.close t).est = none) :
    (en.close t).scale = en.scale ∧ (en.close t).raises = en.raises ∧ (en.close t).satFlag = en.satFlag := by
  rw [est_close] at h
  rw [close_of_none h]
  exact ⟨rfl, rfl, rfl⟩

theorem close_saturated {v : Int} (h : (en.close t).est = some v) (sat : 0 < en.satStep) :
    (en.close t).scale = clampI (-128) 127 (max (ceilDivI (v + 256 - en.top) 256) (en.scale + 2)) ∧
      (en.close t).raises = satAdd 16 en.raises 1 ∧ (en.close t).satFlag = true := by
  rw [est_close] at h
  rw [close_of_some h]
  exact ⟨newScale_saturated sat v, if_pos sat, decide_eq_true sat⟩

theorem close_unsaturated {v : Int} (h : (en.close t).est = some v) (sat : en.satStep = 0) :
    (en.close t).scale = clampI (-128) 127 (
      if en.scale < ceilDivI (v + 256 - en.top) 256 then ceilDivI (v + 256 - en.top) 256
      else if ceilDivI (v + 256 - en.top) 256 ≤ en.scale - 2 then en.scale - 1
      else en.scale) ∧
      (en.close t).raises = en.raises ∧ (en.close t).satFlag = false := by
  rw [est_close] at h
  rw [close_of_some h]
  have calm : ¬0 < en.satStep := by omega
  exact ⟨newScale_unsaturated sat v, if_neg calm, decide_eq_false calm⟩

end ScaleEnt

/-! ### SCALE_TRACKER_ACCESS -/

/-- What an access, or a report, makes of the entry that it reaches. -/
def ScaleEnt.reached (step : W32) : Option (Option Int × Nat) → ScaleEnt → ScaleEnt
  | none, en => en.access step
  | some (mag, sat), en => en.report step mag sat

theorem exec_scaleTrackerAccess (q : Part) (n : ScaleNo) (step : W32) (rep : Option (Option Int × Nat)) (s : State) :
    exec (.scaleTrackerAccess q n step rep) s = .next (s.updScale q n.val (ScaleEnt.reached step rep)) := by
  cases rep <;> rfl

section
variable (s : State) (q : Part) (n : Nat) (f : ScaleEnt → ScaleEnt)

@[simp] theorem State.scaleEnt_updScale_same : (s.updScale q n f).scaleEnt q n = f (s.scaleEnt q n) := by
  simp [State.updScale, State.scaleEnt]

theorem State.scaleEnt_updScale_ne {m : Nat} (ne : m ≠ n) : (s.updScale q n f).scaleEnt q m = s.scaleEnt q m := by
  simp [State.updScale, State.scaleEnt, ne]

theorem State.part_updScale_ne {r : Part} (ne : r ≠ q) : (s.updScale q n f).part r = s.part r := State.part_updPart_ne _ _ _ ne

end

/-! ### TABLE_BUILD -/

/-- The lane groups of a stage of a slot begin again (R126, R131). -/
def Slot.restartLanes (st : Nat) (v : Slot) : Slot := { v with lanes := Tab.set v.lanes st {} }

/-- An engine whose builder has filled its next bank; one that begins anew, for the stage `st` of slot `k`, has lost the banks of the stage that it
served, and the lane groups of its own stage begin again (R125, R131). -/
def Engine.fillBank (g : Engine) (begins : Bool) (k : SlotNo) (st : Nat) (b : Builder) (bytes : List Byte) (built skipped : Nat) : Engine :=
  { g with
    slots := if begins then Tab.upd {} g.slots k.val (Slot.restartLanes st) else g.slots
    banks := Tab.set (if begins then [] else g.banks) (b.next % 2) bytes
    builder := some { b with next := b.next + 1, lo := 0 }
    counts := Tab.upd 0 (Tab.upd 0 g.counts 7 fun v => satAdd 64 v built) 8 fun v => satAdd 64 v skipped }

/-- The stage that serial-path work belongs to. -/
def State.serialMM (s : State) (w : Serial) : MM := (s.cmd w.slot.port w.slot.tag).mm w.stage

/-- The tables of bank `blk` of unit `u`, from the operands as they landed (R121). -/
def State.tablesOf (s : State) (e : Eng) (w : Serial) (u blk : Nat) : Except XErr (List Byte × Nat × Nat) :=
  (s.asLanded e w.slot).bankOf (s.cmd w.slot.port w.slot.tag).ctx (s.serialMM w)
    ((s.cmd w.slot.port w.slot.tag).srcOf w.stage ((s.serialMM w).unitC u)) u blk (s.builderFor e w).lo

/-- The builder of an engine can fill its next bank, the bank `blk` of unit `u`, which stands at place `n` of the stage's units. -/
structure CanFill (s : State) (e : Eng) (w : Serial) (n u blk : Nat) : Prop where
  serves : s.serialAt e = some w
  left : fillAt (s.serialMM w) w.units 0 (s.builderFor e w).next = some (n, u, blk)
  near : (s.builderFor e w).next ≤ w.current (s.serialMM w) + 1
  reset : s.inReset e = false
  isolated : s.isolated e = false
  operands : s.bankIn e w n u blk = true

theorem exec_tableBuild_fills {s : State} {e : Eng} {w : Serial} {n u blk built skipped : Nat} {bytes : List Byte}
    (h : CanFill s e w n u blk) (tables : s.tablesOf e w u blk = .ok (bytes, built, skipped)) :
    exec (.tableBuild e) s = .next (s.updEng e fun g =>
      g.fillBank ((s.eng e).builder != some (s.builderFor e w)) w.no w.stage (s.builderFor e w) bytes built skipped) := by
  obtain ⟨serves, left, near, reset, isolated, operands⟩ := h
  have free : ¬(w.current (s.serialMM w) + 1 < (s.builderFor e w).next ∨ s.inReset e ∨ s.isolated e ∨ !s.bankIn e w n u blk) := by
    simp [near, reset, isolated, operands]
  unfold State.tablesOf at tables
  unfold State.serialMM at left free tables
  show execTableBuild e s = _
  unfold execTableBuild
  simp only [serves, left, if_neg free, tables]
  cases (s.eng e).builder != some (s.builderFor e w)
  · simp only [State.bump, State.updEng_updEng]; rfl
  · simp only [State.bump, State.updSlot, State.updEng_updEng, if_true]; rfl

section
variable (g : Engine) (begins : Bool) (k : SlotNo) (st : Nat) (b : Builder) (bytes : List Byte) (built skipped : Nat)

theorem Engine.bank_fillBank_same : Tab.get [] (g.fillBank begins k st b bytes built skipped).banks (b.next % 2) = bytes :=
  Tab.get_set_same _ _ _ _

theorem Engine.bank_fillBank_other : Tab.get [] (g.fillBank begins k st b bytes built skipped).banks (1 - b.next % 2) =
    if begins then [] else Tab.get [] g.banks (1 - b.next % 2) := by
  have other : 1 - b.next % 2 ≠ b.next % 2 := by omega
  cases begins
  · exact Tab.get_set_ne _ _ _ other
  · exact Tab.get_set_ne _ _ _ other

theorem Engine.counts_fillBank : (g.fillBank begins k st b bytes built skipped).counts =
    Tab.upd 0 (Tab.upd 0 g.counts 7 fun v => satAdd 64 v built) 8 fun v => satAdd 64 v skipped := rfl

theorem Engine.built_fillBank : Tab.get 0 (g.fillBank begins k st b bytes built skipped).counts 7 = satAdd 64 (Tab.get 0 g.counts 7) built := by
  rw [Engine.counts_fillBank, Tab.get_upd_ne _ _ _ (by decide), Tab.get_upd_same]

theorem Engine.skipped_fillBank :
    Tab.get 0 (g.fillBank begins k st b bytes built skipped).counts 8 = satAdd 64 (Tab.get 0 g.counts 8) skipped := by
  rw [Engine.counts_fillBank, Tab.get_upd_same, Tab.get_upd_ne _ _ _ (by decide)]

/-- Where the builder begins anew, the lane groups of its stage begin again in its slot. -/
theorem Engine.slot_fillBank (j : SlotNo) : Tab.get {} (g.fillBank begins k st b bytes built skipped).slots j.val =
    if begins = true ∧ j = k then (Tab.get {} g.slots j.val).restartLanes st else Tab.get {} g.slots j.val := by
  cases begins with
  | false => rfl
  | true =>
    by_cases h : j = k
    · subst h
      rw [if_pos ⟨rfl, rfl⟩]
      exact Tab.get_upd_same _ _ _ _
    · rw [if_neg fun own => h own.2]
      exact Tab.get_upd_ne _ _ _ (Fin.val_ne_of_ne h)

end

end Sys2Proof.Machine
end

section
open Sys2Proof Sys2Proof.Machine

/-- Settles O31: the entry by whether the access ends its step, TABLE_BUILD by what filling a bank makes of the engine. -/
theorem scaleEntriesAndTablesAreKept : Obligations.ScaleEntriesAndTablesAreKept := by
  unfold Obligations.ScaleEntriesAndTablesAreKept
  refine ⟨fun q n step rep s => ⟨_, exec_scaleTrackerAccess q n step rep s, ?_, ?_, ?_, fun m ne => State.scaleEnt_updScale_ne s q _ _ ne,
    fun r ne => State.part_updScale_ne s q _ _ ne, rfl⟩, fun e s w n u blk bytes built skipped => ?_⟩
  · rintro rfl early
    rw [State.scaleEnt_updScale_same]
    exact ScaleEnt.access_of_not_later early
  · rintro rfl later en up
    have closed : up = en.close step := (State.scaleEnt_updScale_same s q _ _).trans (ScaleEnt.access_of_later later)
    have est : up.est = en.newEst := by rw [closed, ScaleEnt.est_close]
    rw [closed] at est ⊢
    exact ⟨fun h => est.trans (ScaleEnt.newEst_of_unreported h), fun m h first => est.trans (ScaleEnt.newEst_first h first),
      fun m x h old => est.trans (ScaleEnt.newEst_moves h old), ScaleEnt.close_unestimated,
      fun v h => ⟨ScaleEnt.close_saturated h, ScaleEnt.close_unsaturated h⟩, ScaleEnt.close_rest en step⟩
  · rintro mag sat rfl
    exact State.scaleEnt_updScale_same s q _ _
  · intro c x b serves left near reset isolated operands bank
    have fills := exec_tableBuild_fills ⟨serves, left, near, reset, isolated, operands⟩ bank
    refine ⟨_, fills, ?_⟩
    rw [State.eng_updEng_same]
    refine ⟨Engine.bank_fillBank_same .., ?_, rfl, Engine.built_fillBank .., Engine.skipped_fillBank .., fun j => ?_, rfl,
      fun d ne => State.eng_updEng_ne _ _ _ ne, rfl⟩
    · rw [Engine.bank_fillBank_other]
      by_cases h : (s.eng e).builder = some b <;> simp [h, b]
    · rw [State.slot, State.eng_updEng_same, Engine.slot_fillBank]
      simp only [bne_iff_ne]
      rfl

end

section
/-!
SUPPORT. What every step keeps of the memories, the lists of retired pages and the fuses (13 R342, R343; 15 R372, R374): `exec_keeps` and
`tick_keeps`, without the exceptions, which concern READY and the IDE keys alone.
-/

namespace Sys2Proof.Machine

open Sys2Proof

/-- The state `t` has the memories and the fuses of a state that `s` becomes by an operation. -/
def KeepsStore (s t : State) : Prop := ∃ u, Keeps s u ∧ u.mem = t.mem ∧ u.boot.svnFuses = t.boot.svnFuses

theorem Keeps.store {s t : State} (h : Keeps s t) : KeepsStore s t := ⟨t, h, rfl, rfl⟩

/-- The end of HBM training raises READY and IDE_KM sets a key: neither touches a memory, a retired page or a fuse. -/
theorem exec_keepsStore {c : Instr} {s t : State} (e : exec c s = .next t) : KeepsStore s t := by
  rcases exec_keeps c s t e with h | ⟨a, b, -, h⟩ | ⟨p, n, stream, key, -, -, rfl⟩
  · exact h.store
  · exact ⟨_, h, rfl, rfl⟩
  · exact ⟨s, .refl s, rfl, rfl⟩

/-- A step takes its command from the queue before it does what the command says. -/
theorem step_keepsStore {s t : State} (e : step s = .next t) : ∃ q, KeepsStore { s with pending := q } t := by
  unfold step at e
  split at e
  · injection e with e
    subst e
    exact ⟨s.pending, (tick_keeps s (.refl s)).store⟩
  · next rest _ => exact ⟨rest, exec_keepsStore e⟩

namespace KeepsStore

variable {s t : State} (h : KeepsStore s t)
include h

theorem inv (ok : Safety.inv s) : Safety.inv t := by
  obtain ⟨memory, room⟩ := ok
  obtain ⟨u, k, mem, -⟩ := h
  have kept : Safety.inv u := ⟨k.memory memory, fun m => k.room m (room m)⟩
  unfold Safety.inv Safety.memoryOk State.hostMem State.stack at kept ⊢
  rwa [mem] at kept

theorem retired (m : Stack) : (s.stack m).retired <+: (t.stack m).retired := by
  obtain ⟨u, k, mem, -⟩ := h
  rw [State.stack, State.stack, ← mem]
  exact k.retired m

theorem fuses : s.boot.svnFuses ≤ t.boot.svnFuses := by
  obtain ⟨u, k, -, fuses⟩ := h
  exact fuses ▸ k.fuses

end KeepsStore

end Sys2Proof.Machine
end

section
open Sys2Proof Sys2Proof.Machine

/-- Settles O5: by what every command, and a cycle without one, keeps of the memories and of the retired pages. -/
theorem everyStepKeepsMemoryCanonical : Obligations.EveryStepKeepsMemoryCanonical := by
  unfold Obligations.EveryStepKeepsMemoryCanonical
  intro s t step ok
  obtain ⟨q, kept⟩ := step_keepsStore step
  exact kept.inv ok

/-- Settles O7: retired pages only gain successors, and a fuse is only ever blown. -/
theorem retirementAndFusesArePermanent : Obligations.RetirementAndFusesArePermanent := by
  unfold Obligations.RetirementAndFusesArePermanent
  intro s t step
  obtain ⟨q, kept⟩ := step_keepsStore step
  exact ⟨kept.retired, kept.fuses⟩

end

section
/-!
SUPPORT. The start of the module: the boot preference once it is written, the start's way past step 7, the training of the peer ports, and
what each command of the start answers (15 R366 to R374; 17 R415).
-/

namespace Sys2Proof.Machine

open Sys2Proof

/-! ### Tables laid out over an index -/

theorem Tab.get_map_of_mem {α : Type} {n : Nat} (d : α) (f : Fin n → α) {i : Fin n} {l : List (Fin n)} (m : i ∈ l) :
    Tab.get d (l.map fun q => (q.val, f q)) i.val = f i := by
  induction l with
  | nil => cases m
  | cons q l ih =>
    by_cases h : i = q
    · simp [Tab.get, h]
    · have m' : i ∈ l := (List.mem_cons.1 m).resolve_left h
      simpa [Tab.get, Fin.val_ne_of_ne h] using ih m'

/-- Reading an entry of a table that lists every index. -/
@[simp] theorem Tab.get_finRange {α : Type} {n : Nat} (d : α) (f : Fin n → α) (i : Fin n) :
    Tab.get d ((List.finRange n).map fun q => (q.val, f q)) i.val = f i :=
  Tab.get_map_of_mem d f (List.mem_finRange i)

/-! ### The boot preference -/

section
variable (b : BootBlock)

/-- The copy that a write of the boot preference makes. -/
def BootBlock.nextPref (bank : Nat) (trial : Bool) : PrefCopy :=
  { bank, trial, seq := (b.pref.seq + 1) % 2 ^ 32, crc := PrefCopy.sum { bank, trial, seq := (b.pref.seq + 1) % 2 ^ 32 } }

theorem BootBlock.nextPref_good (bank : Nat) (trial : Bool) : (b.nextPref bank trial).crc = (b.nextPref bank trial).sum := rfl

theorem BootBlock.prefer_eq (bank : Nat) (trial : Bool) : b.prefer bank trial = { b with
    copies := if b.secondCopy then (b.nextPref bank trial, b.copies.2) else (b.copies.1, b.nextPref bank trial) } := rfl

/-- R370, R374: the copy just written counts, as its sequence number is the higher one. -/
theorem BootBlock.pref_prefer (room : b.pref.seq + 1 < 2 ^ 32) (bank : Nat) (trial : Bool) :
    (b.prefer bank trial).pref = b.nextPref bank trial := by
  have good := b.nextPref_good bank trial
  have seq : (b.nextPref bank trial).seq = b.pref.seq + 1 := Nat.mod_eq_of_lt room
  rw [BootBlock.prefer_eq]
  generalize b.nextPref bank trial = c at good seq ⊢
  cases second : b.secondCopy with
  | true =>
    have newer : ¬c.seq < b.copies.2.seq := by
      rw [seq, BootBlock.pref, if_pos second]
      omega
    have first : (BootBlock.secondCopy { b with copies := (c, b.copies.2) }) = false := by
      simp [BootBlock.secondCopy, good, newer]
    simp [BootBlock.pref, first]
  | false =>
    have newer : b.copies.1.seq < c.seq := by
      rw [seq, BootBlock.pref, if_neg (by simp [second])]
      omega
    have last : (BootBlock.secondCopy { b with copies := (b.copies.1, c) }) = true := by
      simp [BootBlock.secondCopy, good, newer]
    simp [BootBlock.pref, last]

theorem BootBlock.loseTrial_idle (idle : b.trialRunning = false) (code : Nat) : b.loseTrial code = b := by
  simp [BootBlock.loseTrial, idle]

theorem BootBlock.loseTrial_running (trial : b.trialRunning = true) (code : Nat) : b.loseTrial code =
    { b with copies := (b.prefer (otherBank b.preferred) false).copies, trialRunning := false, lostTrial := code } :=
  if_pos trial

/-- R374: a trial bank that is lost gives way to the other bank, which is on trial no more. -/
theorem BootBlock.pref_loseTrial (trial : b.trialRunning = true) (room : b.pref.seq + 1 < 2 ^ 32) (code : Nat) :
    (b.loseTrial code).preferred = otherBank b.preferred ∧ (b.loseTrial code).trial = false := by
  have pref : (b.loseTrial code).pref = b.nextPref (otherBank b.preferred) false := by
    rw [b.loseTrial_running trial]
    exact b.pref_prefer room _ _
  exact ⟨congrArg PrefCopy.bank pref, congrArg PrefCopy.trial pref⟩

end

/-! ### AUX_3V3 -/

theorem exec_aux3v3Loss_powered {s : State} (aux : s.pwr.aux = true) : exec .aux3v3Loss s = .next s.powerDown := by
  show execAux3v3Loss s = _
  rw [execAux3v3Loss, if_pos aux]

theorem exec_aux3v3Loss_unpowered {s : State} (aux : s.pwr.aux = false) : exec .aux3v3Loss s = .next s := by
  show execAux3v3Loss s = _
  rw [execAux3v3Loss, if_neg (by simp [aux])]

theorem exec_aux3v3Rise_unpowered {s : State} (aux : s.pwr.aux = false) :
    exec .aux3v3Rise s = .next { s with pwr := { s.pwr with aux := true } } := by
  show execAux3v3Rise s = _
  rw [execAux3v3Rise, if_neg (by simp [aux])]

/-- R343: the lists of retired pages outlive the supply. -/
theorem State.retired_powerDown (s : State) (m : Stack) : (s.powerDown.stack m).retired = (s.stack m).retired := by
  have kept := Tab.get_map {} s.mem.stackMems m.val (fun k : StackMem => { retired := k.retired }) rfl
  exact (congrArg StackMem.retired kept :)

/-! ### ROOT_PLL_LOCK -/

@[simp] theorem part_mainRails (s : State) (q : Part) : s.mainRails.part q = { s.part q with actualCode := 64, target := 64 } :=
  Tab.get_finRange _ _ q

section
variable (w : PwrBlock)
@[simp] theorem PwrBlock.releaseFault_pll : w.releaseFault.pll = w.pll := by unfold PwrBlock.releaseFault; split <;> rfl
@[simp] theorem PwrBlock.releaseFault_hkRunning : w.releaseFault.hkRunning = w.hkRunning := by
  unfold PwrBlock.releaseFault; split <;> rfl
@[simp] theorem PwrBlock.releaseFault_strap : w.releaseFault.strap = w.strap := by unfold PwrBlock.releaseFault; split <;> rfl
end

/-- The start either waits at step 7 or has its main rails up, and a module reset that waited for them may run (R366, R368). -/
theorem resumeStart_cases (s : State) : s.resumeStart = s ∨ ∃ modReset, s.resumeStart = { s.mainRails with
    pwr := ({ s.mainRails.pwr with thermalFault := false } : PwrBlock).releaseFault, rcv := { s.rcv with modReset } } := by
  unfold State.resumeStart
  split
  · exact .inl rfl
  · refine .inr ?_
    dsimp only
    split
    · exact ⟨.running, rfl⟩
    · exact ⟨s.rcv.modReset, rfl⟩

/-- The state once the root PLL has locked, before the start goes on (R366, R367, R374, R420). -/
def State.lockPll (s : State) (strap : Nat) : State :=
  { s with
    hk := 0
    parts := (List.finRange 8).map fun (q : Part) => (q.val, s.age.load q)
    pwr := { s.pwr with pll := true, hkRunning := true, strap }
    boot := { s.boot.choose with lostRequested := none, startHk := 0 }
    rcv := match s.boot.lostRequested with
      | some c => s.rcv.note 5 c 0 0 (c == 8)
      | none => s.rcv }

theorem exec_rootPllLock {s : State} (aux : s.pwr.aux = true) (pll : s.pwr.pll = false) (refclk : s.pwr.refclk = true) (strap : BitVec 3) :
    exec (.rootPllLock strap) s = .next (if (s.lockPll strap.toNat).pwr.reversedNow then (s.lockPll strap.toNat).noteReversed
      else s.lockPll strap.toNat).resumeStart := by
  show execRootPllLock strap s = _
  rw [execRootPllLock, if_neg (by simp [aux, pll, refclk])]
  rfl

theorem noteReversed_eq (s : State) : s.noteReversed = { s with
    pwr := { s.pwr with reversed := s.noteReversed.pwr.reversed, faultN := s.noteReversed.pwr.faultN }, out := s.noteReversed.out } := by
  unfold State.noteReversed
  split <;> rfl

theorem AgeBlock.opSeconds_load (a : AgeBlock) (q : Part) : (a.load q).opSeconds = Tab.get 0 a.savedOp q.val := by
  unfold AgeBlock.load
  extract_lets ps p0
  split <;> rfl

/-- What the steps after the lock of the root PLL leave as they found it. -/
structure StartsFrom (s t : State) : Prop where
  hk : t.hk = s.hk
  pll : t.pwr.pll = s.pwr.pll
  hkRunning : t.pwr.hkRunning = s.pwr.hkRunning
  strap : t.pwr.strap = s.pwr.strap
  lostRequested : t.boot.lostRequested = s.boot.lostRequested
  rcv : t.rcv = { s.rcv with modReset := t.rcv.modReset }
  opSeconds : ∀ q, (t.part q).opSeconds = (s.part q).opSeconds

theorem StartsFrom.refl (s : State) : StartsFrom s s := ⟨rfl, rfl, rfl, rfl, rfl, rfl, fun _ => rfl⟩

theorem resumeStart_startsFrom (s : State) : StartsFrom s s.resumeStart := by
  rcases resumeStart_cases s with h | ⟨modReset, h⟩
  · rw [h]; exact .refl s
  · rw [h]
    refine ⟨rfl, PwrBlock.releaseFault_pll _, PwrBlock.releaseFault_hkRunning _, PwrBlock.releaseFault_strap _, rfl, rfl, fun q => ?_⟩
    exact (congrArg Partition.opSeconds (part_mainRails s q) :)

theorem StartsFrom.trans {s t u : State} (h : StartsFrom s t) (k : StartsFrom t u) : StartsFrom s u where
  hk := k.hk.trans h.hk
  pll := k.pll.trans h.pll
  hkRunning := k.hkRunning.trans h.hkRunning
  strap := k.strap.trans h.strap
  lostRequested := k.lostRequested.trans h.lostRequested
  rcv := by rw [k.rcv, h.rcv]
  opSeconds q := (k.opSeconds q).trans (h.opSeconds q)

theorem noteReversed_startsFrom (s : State) : StartsFrom s s.noteReversed := by
  rw [noteReversed_eq]
  exact ⟨rfl, rfl, rfl, rfl, rfl, rfl, fun _ => rfl⟩

/-- R366, R367: what ROOT_PLL_LOCK answers is the locked state, further on in its start. -/
theorem exec_rootPllLock_startsFrom {s : State} (aux : s.pwr.aux = true) (pll : s.pwr.pll = false) (refclk : s.pwr.refclk = true)
    (strap : BitVec 3) : ∃ t, exec (.rootPllLock strap) s = .next t ∧ StartsFrom (s.lockPll strap.toNat) t := by
  refine ⟨_, exec_rootPllLock aux pll refclk strap, ?_⟩
  split
  · exact (noteReversed_startsFrom _).trans (resumeStart_startsFrom _)
  · exact resumeStart_startsFrom _

/-! ### The training of peer ports -/

theorem train_rest (s : State) (i : PeerPort) : s.train i = { s with peer := (s.train i).peer } := by
  unfold State.train
  split <;> rfl

theorem trains_rest (l : List PeerPort) (s : State) : l.foldl State.train s = { s with peer := (l.foldl State.train s).peer } := by
  induction l generalizing s with
  | nil => rfl
  | cons i l ih =>
    rw [List.foldl_cons, ih, train_rest]

@[simp] theorem mayTrain_train (s : State) (i j : PeerPort) : (s.train i).mayTrain j = s.mayTrain j := by
  unfold State.train
  split
  · by_cases h : j = i
    · subst h; simp [State.mayTrain, State.updLink, State.link]
    · simp only [State.mayTrain, State.link_updLink_ne _ _ _ h]; rfl
  · rfl

theorem state_train_same {s : State} {i : PeerPort} (may : s.mayTrain i = true) : ((s.train i).link i).state = .step 0 := by
  rw [State.train, if_pos may, State.link_updLink_same]

theorem state_train_of_step {s : State} {j : PeerPort} (step : (s.link j).state = .step 0) (i : PeerPort) :
    ((s.train i).link j).state = .step 0 := by
  by_cases may : s.mayTrain i = true
  · rw [State.train, if_pos may, State.link_updLink]
    split
    · rfl
    · exact step
  · rwa [State.train, if_neg may]

/-- R293: every port of a list that may train is at step 1 afterwards. -/
theorem state_trains {i : PeerPort} {l : List PeerPort} {s : State} (may : s.mayTrain i = true)
    (h : i ∈ l ∨ (s.link i).state = .step 0) : ((l.foldl State.train s).link i).state = .step 0 := by
  induction l generalizing s with
  | nil => exact h.resolve_left (by simp)
  | cons j l ih =>
    refine ih (by rwa [mayTrain_train]) ?_
    rcases h with m | step
    · rcases List.mem_cons.1 m with rfl | m
      · exact .inr (state_train_same may)
      · exact .inl m
    · exact .inr (state_train_of_step step j)

/-! ### DIES_LOADED -/

/-- DIES_LOADED takes a step of the start: the main rails are up, the dies are not, and nothing holds the start (R367). -/
structure LoadsDies (s : State) : Prop where
  mainOn : s.pwr.mainOn = true
  diesUp : s.boot.diesUp = false
  recovery : s.boot.recovery = false
  powerCycle : s.rcv.powerCycle = false
  refclk : s.rcv.modReset ≠ .heldRefclk

/-- A start that ends at step 8 (R369). -/
def BootBlock.failDies (b : BootBlock) : BootBlock := { b with phase := 15, failCode := 6 }

/-- Step 9 (R367): the rails move to their plan codes and the engines leave reset. -/
def State.leaveReset (s : State) : State :=
  { s with
    boot := { s.boot with phase := 3, diesUp := true }
    rcv := { s.rcv with inReset := 0, partFence := 0 }
    parts := (List.finRange 8).map fun (q : Part) =>
      (q.val, { s.part q with actualCode := (s.part q).planCode, target := (s.part q).planCode }) }

section
variable {s : State} (h : LoadsDies s)
include h

theorem exec_diesLoaded (b : Bool) (phase : s.boot.phase = 1 ∨ s.boot.phase = 2) : exec (.diesLoaded b) s = .next (
    if s.boot.phase = 1 then
      (if b && s.boot.diesOk s.boot.bank then ({ s with boot := { s.boot with phase := 2 } } : State).fixMeasurements
        else { s with boot := s.boot.failDies.loseTrial 6 })
    else (List.finRange 6).foldl State.train s.leaveReset) := by
  obtain ⟨mainOn, diesUp, recovery, powerCycle, refclk⟩ := h
  show execDiesLoaded b s = _
  rw [execDiesLoaded, if_neg]
  · rfl
  · rcases phase with phase | phase <;> simp [mainOn, diesUp, recovery, powerCycle, refclk, phase]

/-- R373, R375: at step 8 the components are those of their digests, and the measurements are fixed. -/
theorem exec_diesLoaded_accepted (phase : s.boot.phase = 1) (ok : s.boot.diesOk s.boot.bank = true) :
    exec (.diesLoaded true) s = .next ({ s with boot := { s.boot with phase := 2 } } : State).fixMeasurements := by
  rw [exec_diesLoaded h true (.inl phase), if_pos phase, if_pos (by simp [ok])]

/-- R373, R374: a component that is misread, or is not that of its digest, ends the start with FAIL_CODE 6. -/
theorem exec_diesLoaded_rejected (phase : s.boot.phase = 1) {b : Bool} (bad : b = false ∨ s.boot.diesOk s.boot.bank = false) :
    exec (.diesLoaded b) s =
      .next { s with boot := s.boot.failDies.loseTrial 6 } := by
  rw [exec_diesLoaded h b (.inl phase), if_pos phase, if_neg]
  rcases bad with bad | bad <;> simp [bad]

theorem exec_diesLoaded_step9 (phase : s.boot.phase = 2) (b : Bool) :
    exec (.diesLoaded b) s = .next ((List.finRange 6).foldl State.train s.leaveReset) := by
  rw [exec_diesLoaded h b (.inr phase), if_neg (by simp [phase])]

end

/-! ### HBM_TRAINING_COMPLETE -/

section
variable {s : State} (trained again : BitVec 6)

theorem exec_hbmTrainingComplete_early (phase : s.boot.phase ≠ 3) : exec (.hbmTrainingComplete trained again) s = .next s := by
  show execHbmTrainingComplete trained again s = _
  simp [execHbmTrainingComplete, phase]

variable (phase : s.boot.phase = 3) (refclk : s.rcv.modReset ≠ .heldRefclk) (powerCycle : s.rcv.powerCycle = false)
include phase refclk powerCycle

theorem exec_hbmTrainingComplete_ready (all : trained ||| again = 0x3F) : exec (.hbmTrainingComplete trained again) s = .next { s with
    mem := { s.mem with hbm := [] }
    boot := { s.boot.commit with phase := 4, ready := true, hbmTrained := 0x3F, readyMs := s.readyMs }
    rcv := RcvBlock.swDone { s.rcv with modReset := .none }
    pwr := { s.pwr with readyN := false } } := by
  show execHbmTrainingComplete trained again s = _
  simp [execHbmTrainingComplete, phase, refclk, powerCycle, all]

theorem exec_hbmTrainingComplete_failed (bad : trained ||| again ≠ 0x3F) : exec (.hbmTrainingComplete trained again) s = .next { s with
    boot := { s.boot with
      phase := 15, hbmTrained := (trained ||| again).toNat
      failCode := 0x20 + ((List.range 6).find? fun m => !bitOf (trained ||| again).toNat m).getD 0 } } := by
  show execHbmTrainingComplete trained again s = _
  simp only [execHbmTrainingComplete, phase, powerCycle, if_neg bad]
  rw [if_neg (by simp [refclk])]

end

/-- The lowest stack that did not train is the one that the search finds. -/
theorem find_untrained {all : BitVec 6} {m : Fin 6} (bad : all.getLsbD m.val = false)
    (below : ∀ k : Fin 6, k.val < m.val → all.getLsbD k.val = true) :
    (List.range 6).find? (fun k => !bitOf all.toNat k) = some m.val := by
  have bit (k : Nat) : bitOf all.toNat k = all.getLsbD k := by
    rw [← BitVec.testBit_toNat, Nat.testBit_eq_decide_div_mod_eq, bitOf]
    exact beq_eq_decide _ _
  rw [List.find?_range_eq_some]
  refine ⟨by rw [bit, bad]; rfl, List.mem_range.2 m.isLt, fun k hk => ?_⟩
  simpa [bit] using below ⟨k, by omega⟩ hk

/-! ### TRIAL_TIMEOUT -/

theorem exec_trialTimeout_ready {s : State} (ready : s.boot.ready = true) : exec .trialTimeout s = .next s := by
  show execTrialTimeout s = _
  rw [execTrialTimeout, if_pos ready]

theorem exec_trialTimeout_late {s : State} (ready : s.boot.ready = false) :
    exec .trialTimeout s = .next { s with boot := s.boot.loseTrial 8 } := by
  show execTrialTimeout s = _
  rw [execTrialTimeout, if_neg (by simp [ready])]

end Sys2Proof.Machine
end

section
open Sys2Proof Sys2Proof.Machine

/-- Settles O52: command by command, in the order of the start. -/
theorem startUpStepByStep : Obligations.StartUpStepByStep := by
  unfold Obligations.StartUpStepByStep
  refine ⟨fun s => ⟨fun aux => ?loss, fun aux => ⟨exec_aux3v3Loss_unpowered aux, exec_aux3v3Rise_unpowered aux⟩⟩,
    fun strap s aux pll refclk => ?lock,
    fun s mainOn diesUp recovery powerCycle refclk =>
      have h : LoadsDies s := ⟨mainOn, diesUp, recovery, powerCycle, refclk⟩
      ⟨fun phase => ⟨fun ok => ?accepted, fun b bad => ⟨fun idle => ?rejected, fun trial room => ?trial⟩⟩,
        fun phase b => ?step9⟩,
    fun trained again s => ⟨fun early => exec_hbmTrainingComplete_early trained again early, fun phase refclk powerCycle =>
      ⟨fun all => ?ready, fun m bad below => ?failed⟩⟩,
    fun s => ⟨exec_trialTimeout_ready, fun late trial room => ?timeout⟩⟩
  case loss =>
    exact ⟨_, exec_aux3v3Loss_powered aux, rfl, rfl, rfl, rfl, rfl, rfl, rfl, rfl, rfl, rfl, rfl, rfl, rfl, rfl, rfl, rfl,
      s.retired_powerDown, rfl⟩
  case lock =>
    obtain ⟨t, step, from_⟩ := exec_rootPllLock_startsFrom aux pll refclk strap
    refine ⟨t, step, from_.hk, from_.pll, from_.hkRunning, from_.strap, from_.lostRequested, fun c lost => ?_, fun q => ?_⟩
    · rw [from_.rcv]
      simp [State.lockPll, lost, RcvBlock.note]
    · rw [from_.opSeconds, State.lockPll, State.part, Tab.get_finRange]
      exact s.age.opSeconds_load q
  case accepted =>
    exact ⟨_, exec_diesLoaded_accepted h phase ok, by simp [State.fixMeasurements], rfl⟩
  case rejected =>
    rw [exec_diesLoaded_rejected h phase bad, s.boot.failDies.loseTrial_idle idle]
    rfl
  case trial =>
    obtain ⟨preferred, ended⟩ := s.boot.failDies.pref_loseTrial trial room 6
    refine ⟨_, exec_diesLoaded_rejected h phase bad, preferred, ended, ?_⟩
    rw [s.boot.failDies.loseTrial_running trial]
    rfl
  case step9 =>
    have rest := trains_rest (List.finRange 6) s.leaveReset
    refine ⟨_, exec_diesLoaded_step9 h phase b, ?_, ?_, ?_, ?_, ?_, fun q => ?_, fun i may => state_trains may (.inl (List.mem_finRange i))⟩
    iterate 5 rw [rest]; rfl
    rw [rest]
    exact congrArg Partition.actualCode (Tab.get_finRange _ _ q)
  case ready =>
    exact ⟨_, exec_hbmTrainingComplete_ready trained again phase refclk powerCycle all, rfl, rfl, rfl, rfl, rfl, rfl, rfl, rfl⟩
  case failed =>
    have notAll : trained ||| again ≠ 0x3F := by
      intro all
      rw [all] at bad
      have full : ∀ m : Fin 6, (0x3F : BitVec 6).getLsbD m.val = true := by decide
      rw [full m] at bad
      cases bad
    refine ⟨_, exec_hbmTrainingComplete_failed trained again phase refclk powerCycle notAll, rfl, rfl, ?_⟩
    rw [find_untrained bad below]
    rfl
  case timeout =>
    obtain ⟨preferred, ended⟩ := s.boot.pref_loseTrial trial room 8
    exact ⟨_, exec_trialTimeout_late late, ended, preferred, by rw [BootBlock.loseTrial_running _ trial]⟩

end

section
/-!
SUPPORT. A status that a command has: aborts, the traffic of collectives and what waiting packets do leave it, unless a cause of the same HKCLK
cycle ranks before it (09 R222; 12 R314 to R320).
-/

namespace Sys2Proof.Machine

open Sys2Proof

/-! ### Causes -/

theorem Cmd.status_fail_of_none {c : Cmd} (h : c.status = none) (u : Nat) (now : W64) : (c.fail u now).status = some u := by
  simp [Cmd.fail, h]

theorem Cmd.status_fail_of_some {c : Cmd} {st u : Nat} (h : c.status = some st) (later : ranksFirst u st = false) (now : W64) :
    (c.fail u now).status = some st := by
  simp [Cmd.fail, h, later]

theorem Cmd.fail_rest (c : Cmd) (u : Nat) (now : W64) :
    c.fail u now = { c with status := (c.fail u now).status, causeAt := (c.fail u now).causeAt } := by
  unfold Cmd.fail
  split
  · rfl
  · split <;> rfl

/-- A status that neither the cancellation of a joined command nor a fault of data takes back (R222). -/
structure Lasts (st : Nat) : Prop where
  cancelled : ranksFirst stCancelled st = false
  fault : ranksFirst stFaultAbort st = false

theorem lasts_dropped : Lasts stDropped := ⟨by decide, by decide⟩
theorem lasts_partitionReset : Lasts stPartitionReset := ⟨by decide, by decide⟩
theorem lasts_faultAbort : Lasts stFaultAbort := ⟨by decide, by decide⟩

/-! ### Operations that keep a status -/

/-- Every command that has the status `st` keeps it. -/
def KeepsStatus (st : Nat) (s t : State) : Prop := ∀ p g, (s.cmd p g).status = some st → (t.cmd p g).status = some st

namespace KeepsStatus

variable {st : Nat} {s0 s t u : State}

theorem refl (s : State) : KeepsStatus st s s := fun _ _ => id

theorem trans (h : KeepsStatus st s t) (k : KeepsStatus st t u) : KeepsStatus st s u := fun p g x => k p g (h p g x)

theorem of_ports (h : KeepsStatus st s0 s) (ports : t.ports = s.ports) : KeepsStatus st s0 t := fun p g x => by
  rw [State.cmd, State.port, ports]
  exact h p g x

theorem updCmd (h : KeepsStatus st s0 s) (p : Port) (g : Tag) {f : Cmd → Cmd}
    (hf : ∀ c, c.status = some st → (f c).status = some st) : KeepsStatus st s0 (s.updCmd p g f) := fun q j x => by
  rw [State.cmd_updCmd]
  split
  · next own => obtain ⟨rfl, rfl⟩ := own; exact hf _ (h q j x)
  · exact h q j x

theorem ite {c : Prop} [Decidable c] (ht : KeepsStatus st s t) (hu : KeepsStatus st s u) : KeepsStatus st s (if c then t else u) := by
  split
  · exact ht
  · exact hu

theorem foldl {α : Type} {f : State → α → State} (h : KeepsStatus st s0 s) (hf : ∀ s x, KeepsStatus st s0 s → KeepsStatus st s0 (f s x))
    (l : List α) : KeepsStatus st s0 (l.foldl f s) := by
  induction l generalizing s with
  | nil => exact h
  | cons x l ih => exact ih (hf s x h)

end KeepsStatus

/-! ### Aborts -/

section
variable {st u : Nat} {s0 s : State} (later : ranksFirst u st = false) (h : KeepsStatus st s0 s) (p : Port) (g : Tag)
include later h

theorem abortOne_keepsStatus : KeepsStatus st s0 (s.abortOne p g u) := by
  have fails {t : State} (ports : t.ports = s.ports) (k : Cmd → Phase) :
      KeepsStatus st s0 (t.updCmd p g fun c => { c.fail u s.hk with phase := k c }) :=
    (h.of_ports ports).updCmd p g fun c x => Cmd.status_fail_of_some x later s.hk
  unfold State.abortOne
  split
  · exact h
  · exact h
  · exact (h.of_ports (foldl_ports _ (fun _ _ => stopStreams_ports ..) _ _)).updCmd p g fun c x => Cmd.status_fail_of_some x later s.hk
  · exact fails (by simp) _
  · exact fails (by simp) _
  · exact (h.of_ports (dropSide_ports s p g)).updCmd p g fun c x => Cmd.status_fail_of_some x later _

theorem markCmd_keepsStatus : KeepsStatus st s0 (s.markCmd p g u) := by
  unfold State.markCmd
  split
  · exact h
  · exact h.updCmd p g fun c x => Cmd.status_fail_of_some x later s.hk

end

section
variable {st : Nat} (lasts : Lasts st) {s0 s : State}
include lasts

theorem abortGo_keepsStatus {u : Nat} (later : ranksFirst u st = false) (h : KeepsStatus st s0 s) (fuel : Nat) (p : Port) (g : Tag) :
    KeepsStatus st s0 (s.abortGo fuel p g u) := by
  induction fuel generalizing s p g u with
  | zero => exact abortOne_keepsStatus later h p g
  | succ fuel ih =>
    exact (abortOne_keepsStatus later h p g).foldl (fun _ (j : Port × Tag) hs => ih lasts.cancelled hs j.1 j.2) _

theorem abortCmd_keepsStatus {u : Nat} (later : ranksFirst u st = false) (h : KeepsStatus st s0 s) (p : Port) (g : Tag) :
    KeepsStatus st s0 (s.abortCmd p g u) := abortGo_keepsStatus lasts later h 4 p g

theorem abortCmds_keepsStatus {u : Nat} (later : ranksFirst u st = false) (h : KeepsStatus st s0 s) (cs : List (Port × Tag)) :
    KeepsStatus st s0 (s.abortCmds cs u) :=
  (h.foldl (fun _ (c : Port × Tag) hs => markCmd_keepsStatus later hs c.1 c.2) cs).foldl
    (fun _ (c : Port × Tag) hs => abortCmd_keepsStatus lasts later hs c.1 c.2) cs

end

theorem ranksFirst_self (st : Nat) : ranksFirst st st = false := by simp [ranksFirst]

/-- A running command that has no status takes the cause of its abort. -/
theorem status_abortOne_running {s : State} {p : Port} {g : Tag} (running : (s.cmd p g).phase = .running)
    (clear : (s.cmd p g).status = none) (u : Nat) : ((s.abortOne p g u).cmd p g).status = some u := by
  have same : ((s.stopWork p g).dropSide p g).cmd p g = s.cmd p g := by simp [State.cmd, State.port]
  unfold State.abortOne
  simp only [running, State.cmd_updCmd_same, same]
  exact Cmd.status_fail_of_none clear u s.hk

/-- R222: a running command without a status that is aborted ends with the cause, whatever else the abort reaches. -/
theorem status_abortCmd_running {s : State} {p : Port} {g : Tag} (running : (s.cmd p g).phase = .running)
    (clear : (s.cmd p g).status = none) {u : Nat} (lasts : Lasts u) : ((s.abortCmd p g u).cmd p g).status = some u := by
  have rest := KeepsStatus.foldl (f := fun s (j : Port × Tag) => State.abortGo 3 s j.1 j.2 stCancelled) (.refl (s.abortOne p g u))
    (fun s j hs => abortGo_keepsStatus lasts lasts.cancelled hs 3 j.1 j.2) (s.joinedTo p g)
  exact rest p g (status_abortOne_running running clear u)

/-- R222, R328: every running command that is named, and that has no status, ends with the cause of the abort. -/
theorem status_abortCmds_running {cs : List (Port × Tag)} {p : Port} {g : Tag} (m : (p, g) ∈ cs) {s : State}
    (running : (s.cmd p g).phase = .running) (clear : (s.cmd p g).status = none) {u : Nat} (lasts : Lasts u) :
    ((s.abortCmds cs u).cmd p g).status = some u := by
  have marked : ∀ (cs : List (Port × Tag)) (s : State), (p, g) ∈ cs → (s.cmd p g).phase = .running → (s.cmd p g).status = none →
      ((cs.foldl (fun s c => s.markCmd c.1 c.2 u) s).cmd p g).status = some u := by
    intro cs
    induction cs with
    | nil => intro s m; cases m
    | cons c cs ih =>
      intro s m running clear
      by_cases own : c = (p, g)
      · subst own
        refine KeepsStatus.foldl (.refl _) (fun s (c : Port × Tag) hs => markCmd_keepsStatus (ranksFirst_self u) hs c.1 c.2) cs p g ?_
        rw [cmd_markCmd, if_pos ⟨⟨rfl, rfl⟩, by simp [running], by simp [running]⟩]
        exact Cmd.status_fail_of_none clear u s.hk
      · have other : (s.markCmd c.1 c.2 u).cmd p g = s.cmd p g := by
          rw [cmd_markCmd, if_neg]
          rintro ⟨⟨rfl, rfl⟩, -⟩
          exact own rfl
        exact ih _ ((List.mem_cons.1 m).resolve_left (Ne.symm own)) (by rwa [other]) (by rwa [other])
  exact KeepsStatus.foldl (.refl _) (fun s (c : Port × Tag) hs => abortCmd_keepsStatus lasts (ranksFirst_self u) hs c.1 c.2) cs p g
    (marked cs s m running clear)

/-! ### Packets leave the host ports alone -/

section
variable (s : State)

@[simp] theorem linkFlit_ports (i : PeerPort) (ftype : Nat) (body : List Byte) (o : List Byte → Output) :
    (s.linkFlit i ftype body o).ports = s.ports := by
  unfold State.linkFlit
  dsimp only
  split <;> rfl

@[simp] theorem idleGo_ports (i : PeerPort) (n : Nat) : (State.idleGo i n s).ports = s.ports := by
  induction n generalizing s with
  | zero => rfl
  | succ n ih =>
    simp only [State.idleGo]
    split
    · rfl
    · rw [ih, linkFlit_ports]

@[simp] theorem pumpGo_ports (i : PeerPort) (n : Nat) : (State.pumpGo i n s).ports = s.ports := by
  induction n generalizing s with
  | zero => rfl
  | succ n ih =>
    simp only [State.pumpGo]
    split
    · rfl
    · rw [ih]; rfl

@[simp] theorem enqueue_ports (i : PeerPort) (k : Packet) (dl : Bool) : (s.enqueue i k dl).ports = s.ports := by
  unfold State.enqueue State.pump
  split
  · rfl
  · exact pumpGo_ports _ i _

@[simp] theorem sendPacket_ports (k : Packet) : (s.sendPacket k).ports = s.ports := by
  unfold State.sendPacket State.sendOn
  split
  · rfl
  · split
    · exact enqueue_ports s _ _ _
    · rfl

@[simp] theorem release_ports (i : PeerPort) (k : Packet) (dl : Bool) : (s.release i k dl).ports = s.ports :=
  idleGo_ports _ i _

@[simp] theorem applyNotice_ports (r : NoticeRec) : (s.applyNotice r).ports = s.ports := by
  unfold State.applyNotice
  split
  · extract_lets _ _ s1
    have s1_ports : s1.ports = s.ports := rfl
    clear_value s1
    split
    · exact s1_ports
    · exact s1_ports
  · rfl
  · rfl
  · rfl

@[simp] theorem flood_ports (r : NoticeRec) (came : Option PeerPort) : (s.flood r came).ports = s.ports := by
  unfold State.flood
  split
  · rfl
  · refine foldl_ports _ (fun s i => ?_) _ _
    split
    · exact enqueue_ports s _ _ _
    · rfl

@[simp] theorem departOwn_ports (engines : W64) : (s.departOwn engines).ports = s.ports := by
  unfold State.departOwn State.issueNotice
  split
  · rw [flood_ports, applyNotice_ports]
  · rfl

@[simp] theorem awaitPage_ports (page : Nat) : (s.awaitPage page).ports = s.ports := by
  unfold State.awaitPage
  split <;> rfl

@[simp] theorem growStream_ports (p : Port) (g : Tag) (role n : Nat) : (s.growStream p g role n).ports = s.ports := by
  unfold State.growStream
  split
  · rfl
  · split <;> rfl

@[simp] theorem relayOn_ports (p : Port) (g : Tag) (ms : List (Nat × List Nat)) : (s.relayOn p g ms).ports = s.ports := by
  unfold State.relayOn
  extract_lets _ _ _ left
  by_cases none : left.isEmpty
  · rw [if_pos none]
  · rw [if_neg none]

@[simp] theorem relayDown_ports (k : Packet) (g : GroupRec) : (s.relayDown k g).ports = s.ports := by
  unfold State.relayDown
  extract_lets seg
  split
  · rfl
  · extract_lets
    rename_i s1
    have s1_ports : s1.ports = s.ports := rfl
    clear_value s1
    refine (foldl_ports _ (fun s n => ?_) _ _).trans s1_ports
    split
    · exact sendPacket_ports s _
    · rfl

@[simp] theorem scaleReport_ports (id step : Nat) (mag : Option Int) (sat : Nat) : (s.scaleReport id step mag sat).ports = s.ports := by
  unfold State.scaleReport
  split <;> rfl

theorem writePacket_ports (i : PeerPort) (k : Packet) (dl : Bool) : (s.writePacket i k dl).1.ports = s.ports := by
  have serves {t : State} (e : s.serveWrite k = .ok t) : t.ports = s.ports := by
    unfold State.serveWrite at e
    dsimp only at e
    split at e
    · injection e with e
      rw [← e]
      exact sendPacket_ports _ _
    · split at e
      · next s1 stored =>
        injection e with e
        rw [← e]
        exact (sendPacket_ports _ _).trans (by rw [vwrite_onlyMemory stored])
      · split at e
        · cases e
        · injection e with e
          rw [← e]
          exact sendPacket_ports _ _
  unfold State.writePacket
  split
  · next s1 e => exact serves e
  · exact awaitPage_ports _ _

end

/-! ### Tiles of a collective leave the host ports alone -/

/-- An operation that can fail, and answers a value beside the state, leaves the host ports of `s` as they are. -/
def PortsOk (s : State) (x : Except XErr (State × Cnt)) : Prop := ∀ r, x = .ok r → r.1.ports = s.ports

theorem PortsOk.bind {α : Type} {s : State} {x : Except XErr α} {f : α → Except XErr (State × Cnt)}
    (h : ∀ a, x = .ok a → PortsOk s (f a)) : PortsOk s (x >>= f) := by
  intro r e
  cases x with
  | error _ => cases e
  | ok a => exact h a rfl r e

theorem PortsOk.pure {s t : State} {n : Cnt} (h : t.ports = s.ports) : PortsOk s (Pure.pure (t, n)) := fun r e => by
  injection e with e
  rw [← e]
  exact h

theorem drainShare_ports (s : State) (c : Cmd) (x : MM) (sr : ScaleRead) (tileSat : Nat) (data : List Nat) (lo hi : Nat) :
    PortsOk s (s.drainShare c x sr tileSat data lo hi) := by
  unfold State.drainShare
  extract_lets
  refine PortsOk.bind fun _ _ => PortsOk.bind fun _ _ => ?_
  extract_lets
  refine PortsOk.bind fun s1 put => PortsOk.bind fun s2 stored => PortsOk.pure ?_
  have memory : Safety.onlyMemory s s1 := by
    refine foldE_rel Safety.onlyMemory onlyMemory_refl (fun _ _ _ => onlyMemory_trans) _ ?_ _ _ _ put
    intro a x b e
    split at e
    · injection e with e; exact e ▸ onlyMemory_refl a
    · exact putElems_onlyMemory _ e
  rw [scaleReport_ports, onlyMemory_trans memory (writeAll_onlyMemory _ stored)]

theorem finishTiles_ports (s : State) (c : Cmd) (data : List Nat) (lo hi : Nat) : PortsOk s (s.finishTiles c data lo hi) := by
  unfold State.finishTiles
  extract_lets a es
  have tiles (f : Tile → Tile) (t : State) : (es.foldl (fun s e => s.updNamed e a f) t).ports = t.ports :=
    foldl_ports (fun s e => s.updNamed e a f) (fun _ _ => rfl) es t
  split
  · exact .pure (tiles _ s)
  · split
    · exact .bind fun d e => .pure ((tiles _ d.1).trans (PortsOk.pure rfl d e))
    · exact .bind fun d e => .pure ((tiles _ d.1).trans (drainShare_ports _ _ _ _ _ _ _ _ d e))

/-! ### Collectives keep a status -/

section
variable {st : Nat} {s0 s : State} (h : KeepsStatus st s0 s)
include h

theorem orWait_keepsStatus {x : Except XErr State} (hx : ∀ t, x = .ok t → KeepsStatus st s0 t) : KeepsStatus st s0 (s.orWait x) := by
  unfold State.orWait
  split
  · exact hx _ rfl
  · split
    · exact h.of_ports (awaitPage_ports s _)
    · exact h

theorem updColl_keepsStatus (p : Port) (g : Tag) (f : CollProg → CollProg) : KeepsStatus st s0 (s.updColl p g f) :=
  h.updCmd p g fun _ => id

theorem doneCmd_keepsStatus (p : Port) (g : Tag) : KeepsStatus st s0 (s.doneCmd p g) := h.updCmd p g fun _ => id

theorem sendUp_keepsStatus (c : Cmd) (dest seg contrib last : Nat) (data : List Byte) :
    KeepsStatus st s0 (s.sendUp c dest seg contrib last data) := h.of_ports (sendPacket_ports s _)

theorem sendDown_keepsStatus (c : Cmd) (dest seg contrib : Nat) (data : List Nat) :
    KeepsStatus st s0 (s.sendDown c dest seg contrib data) := h.of_ports (sendPacket_ports s _)

variable (p : Port) (g : Tag) (ms : List (Nat × List Nat))

theorem keepSealed_keepsStatus (k contrib : Nat) (data : List Nat) : KeepsStatus st s0 (s.keepSealed p g ms k contrib data) := by
  unfold State.keepSealed
  exact (updColl_keepsStatus h p g _).foldl (fun s n hs => .ite (sendDown_keepsStatus hs _ _ _ _ _) hs) _

theorem sealSeg_keepsStatus (k contrib : Nat) (data : List Nat) : KeepsStatus st s0 (s.sealSeg p g ms k contrib data) := by
  unfold State.sealSeg
  extract_lets c rs
  have tallied (n : Cnt) : KeepsStatus st s0 (s.updCmd p g fun c => c.tally n) := h.updCmd p g fun _ x => x
  exact keepSealed_keepsStatus (tallied _) p g ms _ _ _

theorem passSeg_keepsStatus (k : Nat) : KeepsStatus st s0 (s.passSeg p g ms k) := by
  unfold State.passSeg
  extract_lets c me seg root want s1
  have sent : KeepsStatus st s0 s1 := updColl_keepsStatus h p g _
  exact .ite h (.ite (sealSeg_keepsStatus sent p g ms _ _ _) (sendUp_keepsStatus sent _ _ _ _ _ _))

theorem foldIn_keepsStatus (k n last : Nat) (own : Bool) (x : List Nat) : KeepsStatus st s0 (s.foldIn p g k n last own x) :=
  h.updCmd p g fun _ x => x

theorem foldOwn_keepsStatus (k : Nat) : KeepsStatus st s0 (s.foldOwn p g ms k) := by
  unfold State.foldOwn
  exact h.foldl (fun s x hs => foldIn_keepsStatus hs p g _ _ _ _ _) _

theorem startSegs_keepsStatus : KeepsStatus st s0 (s.startSegs p g ms) := by
  unfold State.startSegs
  extract_lets c me root mine
  split
  · exact .ite (h.foldl (fun s k hs => sealSeg_keepsStatus hs p g ms _ _ _) _) h
  · exact h.foldl (fun s k hs => .ite (sealSeg_keepsStatus hs p g ms _ _ _) (sendUp_keepsStatus hs _ _ _ _ _ _)) _
  · exact h.foldl (fun s k hs => .ite hs (passSeg_keepsStatus (foldOwn_keepsStatus hs p g ms k) p g ms k)) _

theorem tellWrite_keepsStatus (k : Nat) (ws : List (Nat × Nat)) : KeepsStatus st s0 (s.tellWrite p g k ws) := by
  unfold State.tellWrite
  dsimp only
  split
  · exact h
  · exact (updColl_keepsStatus h p g _).of_ports (growStream_ports _ _ _ _ _)

theorem putDst_keepsStatus (k : Nat) (ws : List (Nat × List Byte)) : KeepsStatus st s0 (s.putDst p g k ws).1 := by
  have told := tellWrite_keepsStatus h p g k (ws.map fun w => (w.1, w.2.length))
  unfold State.putDst
  dsimp only
  split
  · next s2 stored => exact told.of_ports (by rw [writeAll_onlyMemory _ stored])
  · exact orWait_keepsStatus told fun _ e => nomatch e

theorem sparseDone_keepsStatus (c : Cmd) : OkAll (KeepsStatus st s0) (s.sparseDone p g c ms) := by
  unfold State.sparseDone
  extract_lets me
  refine OkAll.bind fun runs _ => ?_
  split
  · refine OkAll.bind fun ws _ => ?_
    extract_lets r
    have put : KeepsStatus st s0 r.1 := putDst_keepsStatus h p g _ _
    refine OkAll.pure ?_
    refine .ite (doneCmd_keepsStatus (put.updCmd p g ?_) p g) put
    exact fun _ x => x
  · exact OkAll.pure h

theorem sparseStart_keepsStatus (c : Cmd) : OkAll (KeepsStatus st s0) (s.sparseStart p g c ms) := by
  unfold State.sparseStart
  extract_lets me
  refine OkAll.bind fun runs _ => OkAll.pure (h.foldl (fun s r hs => ?_) _)
  split
  · exact updColl_keepsStatus hs p g _
  · exact hs.foldl (fun s x hs => sendUp_keepsStatus hs _ _ _ _ _ _) _

theorem writeSeg_keepsStatus (k : Nat) : KeepsStatus st s0 (s.writeSeg p g ms k) := by
  unfold State.writeSeg
  extract_lets
  rename_i r
  have put : KeepsStatus st s0 r.1 := putDst_keepsStatus h p g _ _
  split
  · exact put
  · exact put.updCmd p g fun _ => id

theorem advanceColl_keepsStatus : KeepsStatus st s0 (s.advanceColl p g ms) := by
  unfold State.advanceColl
  extract_lets c rank need s1 c1 coll held gave final sh told tiles
  have written : KeepsStatus st s0 s1 := by
    show KeepsStatus st s0 (ite _ _ _)
    split
    · exact h
    · refine h.foldl (fun s k hs => ?_) _
      exact .ite (writeSeg_keepsStatus hs p g ms k) hs
  have toldKept : KeepsStatus st s0 told := by
    show KeepsStatus st s0 (ite _ _ _)
    split
    · exact tellWrite_keepsStatus written p g _ _
    · exact written
  have tilesPorts : PortsOk told tiles := by
    show PortsOk told (ite _ _ _)
    split
    · exact .pure rfl
    · exact finishTiles_ports _ _ _ _ _
  clear_value s1 held gave tiles told
  split
  · exact written
  · split
    · exact toldKept
    · next s3 n =>
      have tally := (toldKept.of_ports (tilesPorts _ rfl)).updCmd p g (f := fun c =>
        { c.tally n with aux0 := final, reduced := decide (final < coll.atCheck) }) fun _ => id
      exact doneCmd_keepsStatus (tally.of_ports (relayOn_ports _ p g ms)) p g

theorem goOn_keepsStatus : KeepsStatus st s0 (s.goOn p g ms) := by
  unfold State.goOn
  dsimp only
  split
  · exact h
  · split
    · exact orWait_keepsStatus h (sparseDone_keepsStatus h p g ms _)
    · exact advanceColl_keepsStatus h p g ms

theorem restartColl_keepsStatus (r : GroupRec) : KeepsStatus st s0 (s.restartColl p g r) := by
  unfold State.restartColl
  dsimp only
  have again := updColl_keepsStatus h p g
  split
  · exact orWait_keepsStatus (again _) (sparseStart_keepsStatus (again _) p g _ _)
  · exact startSegs_keepsStatus (again _) p g _

theorem takeUp_keepsStatus (r : GroupRec) (k : Packet) : KeepsStatus st s0 (s.takeUp p g r k) := by
  unfold State.takeUp
  extract_lets seg s1 c ms data
  have lost : KeepsStatus st s0 s1 := by
    show KeepsStatus st s0 (ite _ _ _)
    split
    · exact restartColl_keepsStatus h p g r
    · exact h
  clear_value s1
  split
  · exact goOn_keepsStatus (updColl_keepsStatus lost p g _) p g _
  · split
    · exact lost
    · split
      · exact .ite (goOn_keepsStatus (sealSeg_keepsStatus lost p g _ _ _ _) p g _) (sendUp_keepsStatus lost _ _ _ _ _ _)
      · have folded := foldIn_keepsStatus lost p g
        refine goOn_keepsStatus (passSeg_keepsStatus ?_ p g _ _) p g _
        exact .ite (foldOwn_keepsStatus (folded _ _ _ _ _) p g _ _) (folded _ _ _ _ _)

theorem takeDown_keepsStatus (r : GroupRec) (k : Packet) : KeepsStatus st s0 (s.takeDown p g r k) := by
  unfold State.takeDown
  dsimp only
  split
  · exact h
  · exact goOn_keepsStatus (keepSealed_keepsStatus h p g _ _ _ _) p g _

omit p g ms in
theorem collPacket_keepsStatus (i : PeerPort) (k : Packet) (dl : Bool) : KeepsStatus st s0 (s.collPacket i k dl).1 := by
  unfold State.collPacket
  split
  · exact h.of_ports rfl
  · exact h.of_ports rfl
  · split
    · exact h.of_ports rfl
    · exact .ite (h.of_ports (relayDown_ports s _ _)) h
  · exact .ite (takeUp_keepsStatus h _ _ _ _) (takeDown_keepsStatus h _ _ _ _)

omit p g ms in
theorem retryWaiting_keepsStatus : KeepsStatus st s0 s.retryWaiting := by
  unfold State.retryWaiting
  have emptied : KeepsStatus st s0 { s with peer := { s.peer with waiting := [] } } := h.of_ports rfl
  refine emptied.foldl (fun s x hs => ?_) _
  have served : KeepsStatus st s0 (if x.2.1.ptype = 1 then s.writePacket x.1 x.2.1 x.2.2 else s.collPacket x.1 x.2.1 x.2.2).1 := by
    split
    · exact hs.of_ports (writePacket_ports s _ _ _)
    · exact collPacket_keepsStatus hs _ _ _
  exact .ite served (served.of_ports (release_ports _ _ _ _))

end

section
variable {st : Nat} (lasts : Lasts st) {s0 s : State} (h : KeepsStatus st s0 s)
include lasts h

theorem syncColl_keepsStatus (p : Port) (g : Tag) : KeepsStatus st s0 (s.syncColl p g) := by
  unfold State.syncColl
  dsimp only
  split
  · exact h
  · split
    · exact h
    · split
      · exact abortCmd_keepsStatus lasts lasts.fault h p g
      · split
        · exact restartColl_keepsStatus h p g _
        · refine startSegs_keepsStatus ((updColl_keepsStatus h p g _).foldl (fun s n hs => ?_) _) p g _
          exact hs.foldl (fun s x hs => sendDown_keepsStatus hs _ _ _ _ _) _

/-- What follows a change of group records leaves every status that a fault of data does not rank before (R222, R318 to R320). -/
theorem afterRecords_keepsStatus : KeepsStatus st s0 s.afterRecords :=
  retryWaiting_keepsStatus (h.foldl (fun _ (x : Port × Tag × Cmd) hs => syncColl_keepsStatus lasts hs x.1 x.2.1) _)

end

end Sys2Proof.Machine
end

section
/-!
SUPPORT. What the resets of the ladder do: what an error record, a broken test window and discarded writes leave alone, the rules of a level's
start, and how SWRESET reaches them (13 R328 to R338).
-/

namespace Sys2Proof.Machine

open Sys2Proof

/-! ### Error records -/

/-- What posting an error record leaves: what HBM reads as, every command, and all but the host ports, the hosts' memories and the outputs. -/
structure Posted (s t : State) : Prop extends Reported s t where
  rest : t = { s with ports := t.ports, mem := t.mem, out := t.out }

namespace Posted

variable {s t u : State}

theorem refl (s : State) : Posted s s := ⟨⟨.refl s, fun _ => rfl⟩, rfl⟩

theorem trans (h : Posted s t) (k : Posted t u) : Posted s u :=
  ⟨h.toReported.trans k.toReported, k.rest.trans (by rw [h.rest])⟩

theorem updPort (s : State) (p : Port) {f : HostPort → HostPort} (keeps : ∀ h, (f h).tags = h.tags) : Posted s (s.updPort p f) :=
  ⟨.updPort s p keeps, rfl⟩

theorem hostWrite (s : State) (p : Port) (a : Nat) (bs : List Byte) : Posted s (s.hostWrite p a bs) := ⟨.hostWrite s p a bs, rfl⟩

theorem ite {c : Prop} [Decidable c] (ht : Posted s t) (hu : Posted s u) : Posted s (if c then t else u) := by
  split
  · exact ht
  · exact hu

theorem engines (h : Posted s t) : t.engines = s.engines := by rw [h.rest]
theorem peer (h : Posted s t) : t.peer = s.peer := by rw [h.rest]
theorem rcv (h : Posted s t) : t.rcv = s.rcv := by rw [h.rest]
theorem boot (h : Posted s t) : t.boot = s.boot := by rw [h.rest]

end Posted

theorem raiseVector_posted (s : State) (p : Port) (f : Fn) (vec : Nat) : Posted s (s.raiseVector p f vec) := by
  refine ⟨raiseVector_reported s p f vec, ?_⟩
  unfold State.raiseVector
  split
  · rfl
  · extract_lets m
    split <;> rfl

theorem setCause_posted (s : State) (p : Port) (bit : Nat) : Posted s (s.setCause p bit) := by
  unfold State.setCause
  extract_lets h s1 fl
  have set : Posted s s1 := .updPort s p fun _ => rfl
  exact .ite (.refl s) (.ite (set.trans (raiseVector_posted s1 p 0 _)) set)

theorem postErrTo_posted (s : State) (p : Port) (rec : List Byte) : Posted s (s.postErrTo p rec) := by
  unfold State.postErrTo
  extract_lets h
  refine .ite (.updPort s p fun _ => rfl) (.trans ?_ (setCause_posted _ p 7))
  exact .trans (.hostWrite s p _ rec) (.updPort _ p fun _ => rfl)

theorem postErr_posted (s : State) (r : ErrRec) : Posted s (s.postErr r) := by
  unfold State.postErr
  extract_lets b
  exact (postErrTo_posted s 0 _).trans (postErrTo_posted _ 1 _)

theorem recordOnly_posted (s : State) (r : ErrRec) : Posted s (s.recordOnly r) := by
  unfold State.recordOnly
  exact .ite (postErr_posted s _) (.refl s)

theorem setCauseAll_posted (s : State) (bit : Nat) : Posted s (s.setCauseAll bit) :=
  (setCause_posted s 0 bit).trans (setCause_posted _ 1 bit)

/-! ### Operations that spare commands -/

/-- The engines stay as they are, and so does every command with a property. -/
structure Spares (P : Cmd → Prop) (s t : State) : Prop where
  engines : t.engines = s.engines
  cmd : ∀ p g, P (s.cmd p g) → t.cmd p g = s.cmd p g

namespace Spares

variable {P : Cmd → Prop} {s0 s t u : State}

theorem refl (s : State) : Spares P s s := ⟨rfl, fun _ _ _ => rfl⟩

theorem trans (h : Spares P s t) (k : Spares P t u) : Spares P s u where
  engines := k.engines.trans h.engines
  cmd p g x := (k.cmd p g (h.cmd p g x ▸ x)).trans (h.cmd p g x)

/-- An operation that changes neither the engines nor the host ports. -/
theorem of_same (engines : t.engines = s.engines) (ports : t.ports = s.ports) : Spares P s t :=
  ⟨engines, fun p g _ => by rw [State.cmd, State.port, ports]; rfl⟩

theorem ite {c : Prop} [Decidable c] (ht : Spares P s t) (hu : Spares P s u) : Spares P s (if c then t else u) := by
  split
  · exact ht
  · exact hu

theorem foldl {α : Type} {f : State → α → State} (hf : ∀ s x, Spares P s (f s x)) (l : List α) (s : State) :
    Spares P s (l.foldl f s) := by
  induction l generalizing s with
  | nil => exact .refl s
  | cons x l ih => exact (hf s x).trans (ih (f s x))

theorem updCmd (h : Spares P s t) {p : Port} {g : Tag} (hit : ¬P (s.cmd p g)) (f : Cmd → Cmd) : Spares P s (t.updCmd p g f) := by
  refine ⟨h.engines, fun q j x => ?_⟩
  rw [State.cmd_updCmd]
  split
  · next own => obtain ⟨rfl, rfl⟩ := own; exact absurd x hit
  · exact h.cmd q j x

theorem slotsOf (h : Spares P s t) (e : Eng) : t.slotsOf e = s.slotsOf e := by
  unfold State.slotsOf State.slot State.eng
  rw [h.engines]

end Spares

theorem Posted.spares {P : Cmd → Prop} {s t : State} (h : Posted s t) : Spares P s t :=
  ⟨h.engines, fun p g _ => h.toReported.cmd p g⟩

theorem Spares.ledger {P : Cmd → Prop} {s t : State} (h : Spares P s t) (type unit index op : Nat) (payload : List Byte) :
    Spares P s (t.ledger type unit index op payload) := h.trans (.of_same rfl rfl)

/-! ### A broken window ends items of SELFTESTs alone (R365) -/

/-- The end of a test window leaves the engines and every command that is no SELFTEST. -/
abbrev SparesTested (s t : State) : Prop := Spares (fun c => c.op ≠ 0x0F) s t

theorem orWait_spares {P : Cmd → Prop} (s : State) {x : Except XErr State} (hx : ∀ t, x = .ok t → Spares P s t) :
    Spares P s (s.orWait x) := by
  unfold State.orWait
  split
  · exact hx _ rfl
  · refine .ite ?_ (.refl s)
    unfold State.awaitPage
    exact .ite (.refl s) (.of_same rfl rfl)

theorem finishTest_spares (s : State) (p : Port) (g : Tag) : SparesTested s (s.finishTest p g) := by
  unfold State.finishTest
  extract_lets c result mask aux1
  split
  · exact .refl s
  · next going =>
    have test : ¬(s.cmd p g).op ≠ 0x0F := fun other => going (.inr (.inl other))
    refine orWait_spares s fun t e => ?_
    cases stored : s.vwrite c.ctx (c.f 56 8) (c.testRecord result s.time48) with
    | error _ => rw [stored] at e; cases e
    | ok s1 =>
      rw [stored] at e
      cases e
      have only := vwrite_onlyMemory stored
      have written : SparesTested s s1 := .of_same (by rw [only]) (by rw [only])
      have logged := written.ledger 3 5 0 s.age.modOpSeconds (toLe 2 (c.f 50 2) ++ toLe 1 (c.f 52 1) ++ toLe 4 result ++ toLe 4 aux1)
      exact (logged.updCmd test _).updCmd test _

theorem itemOut_spares (s : State) (q : Part) (it : TestItem) (o : ItemOut) : SparesTested s (s.itemOut q it o) := by
  unfold State.itemOut
  split
  · exact .refl s
  · next p g _ =>
    split
    · next own =>
      have noted : SparesTested s (s.updCmd p g fun c => { c with outs := Tab.set c.outs q.val o }) :=
        Spares.updCmd (.refl s) (fun other => other own.2) _
      exact noted.trans (finishTest_spares _ p g)
    · exact .refl s

theorem withdrawTrials_spares (s : State) (q : Part) (o : ItemOut) : SparesTested s (s.withdrawTrials q o) := by
  unfold State.withdrawTrials
  extract_lets shares
  have kept : SparesTested s (s.updPart q fun a => a.setItems (a.items.filter fun i => !shares i)) := .of_same rfl rfl
  exact kept.trans (.foldl (fun s i => itemOut_spares s q i o) _ _)

theorem finishPlan_spares {P : Cmd → Prop} (s : State) (q : Part) (code margin : Nat) (sref : Int) (payload : List Byte) (lower : Nat) :
    Spares P s (s.finishPlan q code margin sref payload lower) := by
  unfold State.finishPlan
  extract_lets s1 age s2 s3 s4
  have recorded : Spares P s s3 := .of_same rfl rfl
  have warned : Spares P s s4 := recorded.trans (setCauseAll_posted s3 6).spares
  clear_value s3 s4
  exact .ite (.ite (warned.trans (.of_same rfl rfl)) warned) recorded

theorem makePlan_spares {P : Cmd → Prop} (s : State) (q : Part) (own : Bool) : Spares P s (s.makePlan q own).1 := by
  unfold State.makePlan
  extract_lets a x r o pl payload
  have chosen : Spares P s r.1 := by
    show Spares P s (match a.slackMin with | some v => (s, v) | none => (x.1, x.2.toNat % 2 ^ 12)).1
    split <;> exact .of_same rfl rfl
  have drawn : Spares P s o.1 := chosen.trans (.of_same rfl rfl)
  clear_value r o
  split
  · exact .of_same rfl rfl
  · split
    · exact drawn.trans (.of_same rfl rfl)
    · exact drawn.trans (finishPlan_spares _ _ _ _ _ _ _)

theorem planFor_spares (s : State) (q : Part) (own : Bool) : SparesTested s (s.planFor q own) := by
  have made : SparesTested s (s.makePlan q own).1 := makePlan_spares s q own
  unfold State.planFor
  extract_lets r
  split
  · exact made.trans (withdrawTrials_spares _ q _)
  · exact made.trans (.of_same rfl rfl)

theorem breakWindow_spares (s : State) (q : Part) : SparesTested s (s.breakWindow q) := by
  unfold State.breakWindow
  extract_lets a s1 s2 more
  have shut : SparesTested s s1 := .of_same rfl rfl
  have broken : SparesTested s s2 := by
    show SparesTested s (match a.running.head? with | none => s1 | some it => _)
    split
    · exact shut
    · exact shut.trans (itemOut_spares s1 q _ _)
  clear_value s2
  exact .ite (.refl s) (.ite (broken.trans (planFor_spares s2 q _)) broken)

/-! ### Discarded writes (R334) -/

/-- Only the memory and the free values used differ. -/
def Spoiled (s t : State) : Prop := t = { s with mem := t.mem, fresh := t.fresh }

theorem Spoiled.trans {s t u : State} (h : Spoiled s t) (k : Spoiled t u) : Spoiled s u := by
  unfold Spoiled at *
  rw [k, h]

theorem Spoiled.foldl {α : Type} {f : State → α → State} (hf : ∀ s x, Spoiled s (f s x)) (l : List α) (s : State) :
    Spoiled s (l.foldl f s) := by
  induction l generalizing s with
  | nil => rfl
  | cons x l ih => exact (hf s x).trans (ih (f s x))

theorem spoilStream_spoiled (s : State) (e : Eng) (x : Strm) : Spoiled s (s.spoilStream e x) := by
  unfold State.spoilStream
  split
  · rfl
  · extract_lets c left
    refine Spoiled.foldl (fun s g => ?_) _ s
    split
    · rfl
    · extract_lets free
      split
      · next s1 stored =>
        unfold Spoiled
        rw [vwrite_onlyMemory stored]
      · rfl

theorem spoilWrites_spoiled (s : State) (es : List Eng) : Spoiled s (s.spoilWrites es) :=
  Spoiled.foldl (fun s e => Spoiled.foldl (fun s i => spoilStream_spoiled s e (s.strm e i)) _ s) es s

theorem Spoiled.peer {s t : State} (h : Spoiled s t) : t.peer = s.peer := by rw [h]

theorem Spoiled.spares {P : Cmd → Prop} {s t : State} (h : Spoiled s t) : Spares P s t :=
  .of_same (by rw [h]) (by rw [h])

theorem dropWrites_ports (s : State) (es : List Eng) : (s.dropWrites es).ports = s.ports := by
  unfold State.dropWrites
  refine foldl_ports _ ?_ es s
  exact fun _ _ => rfl

end Sys2Proof.Machine
end

section
/-!
SUPPORT. Levels 2 to 5 of the ladder: what each records, fences and ends, and how SWRESET reaches levels 2 to 4 (13 R328 to R337).
-/

namespace Sys2Proof.Machine

open Sys2Proof

/-! ### A wider reset -/

theorem State.wideReset_eq_false {s : State} :
    s.wideReset = false ↔ s.rcv.modReset = .none ∧ s.rcv.powerCycle = false ∧ s.powered = true := by
  simp [State.wideReset, and_assoc]

theorem State.wideReset_congr {s t : State} (modReset : t.rcv.modReset = s.rcv.modReset) (cycle : t.rcv.powerCycle = s.rcv.powerCycle)
    (pwr : t.pwr = s.pwr) : t.wideReset = s.wideReset := by
  simp only [State.wideReset, State.powered, modReset, cycle, pwr]

/-! ### SWRESET (R337) -/

/-- `t` is `s` but for the contents of RCV.SWRESET. -/
def SwOf (s t : State) : Prop :=
  ∃ l n runs, t = { s with rcv := { s.rcv with swLevel := l, swTarget := n, swRuns := runs } }

theorem SwOf.refl (s : State) : SwOf s s := ⟨s.rcv.swLevel, s.rcv.swTarget, s.rcv.swRuns, rfl⟩

theorem takeSw_swOf (s : State) (level target : Nat) : SwOf s (s.takeSw level target) := by
  unfold State.takeSw
  split
  · exact .refl s
  · exact ⟨_, _, _, rfl⟩

/-- RCV without what SWRESET reads. -/
def RcvBlock.noSw (b : RcvBlock) : RcvBlock := { b with swLevel := 0, swTarget := 0, swRuns := [] }

namespace SwOf

variable {s t : State} (h : SwOf s t)
include h

theorem noSw : t.rcv.noSw = s.rcv.noSw := by obtain ⟨l, n, runs, rfl⟩ := h; rfl
theorem rest : t = { s with rcv := t.rcv } := by obtain ⟨l, n, runs, rfl⟩ := h; rfl
theorem wideReset : t.wideReset = s.wideReset := by obtain ⟨l, n, runs, rfl⟩ := h; rfl
theorem inReset (e : Eng) : t.inReset e = s.inReset e := by obtain ⟨l, n, runs, rfl⟩ := h; rfl
theorem cmd (p : Port) (g : Tag) : t.cmd p g = s.cmd p g := by obtain ⟨l, n, runs, rfl⟩ := h; rfl
theorem slot (e : Eng) (k : SlotNo) : t.slot e k = s.slot e k := by obtain ⟨l, n, runs, rfl⟩ := h; rfl
theorem slotsOf (e : Eng) : t.slotsOf e = s.slotsOf e := by obtain ⟨l, n, runs, rfl⟩ := h; rfl

end SwOf

theorem sw_swOf (s : State) : SwOf s s.sw := ⟨_, _, _, rfl⟩

/-- ENGINE_RESET and SWRESET of an engine start the same reset. -/
theorem exec_engineReset_or_swreset {e : Eng} {cause : BitVec 8} {i : Instr} {n : Nat} (s : State)
    (h : i = .engineReset e cause ∧ n = cause.toNat ∨ i = .swresetEngine e ∧ n = 0x09) :
    ∃ s1 r t, SwOf s s1 ∧ SwOf (s1.resetEngine e n false r) t ∧ exec i s = .next t := by
  obtain ⟨rfl, rfl⟩ | ⟨rfl, rfl⟩ := h
  · exact ⟨s, _, _, .refl s, .refl _, rfl⟩
  · exact ⟨_, _, _, takeSw_swOf s 2 e.val, sw_swOf _, rfl⟩

/-- PARTITION_RESET and SWRESET of a partition start the same reset. -/
theorem exec_partitionReset_or_swreset {q : Part} {cause : BitVec 8} {i : Instr} (s : State)
    (h : i = .partitionReset q cause ∨ i = .swresetPartition q) :
    ∃ s1 n r t, SwOf s s1 ∧ SwOf (s1.resetPartition q n false r) t ∧ exec i s = .next t := by
  obtain rfl | rfl := h
  · exact ⟨s, _, _, _, .refl s, .refl _, rfl⟩
  · exact ⟨_, _, _, _, takeSw_swOf s 3 q.val, sw_swOf _, rfl⟩

/-- MODULE_RESET and SWRESET of the module start the same reset. -/
theorem exec_moduleReset_or_swreset {cause : BitVec 8} {i : Instr} (s : State) (h : i = .moduleReset cause ∨ i = .swresetModule) :
    ∃ s1 n r t, SwOf s s1 ∧ SwOf (s1.resetModule n false .running r) t ∧ exec i s = .next t := by
  obtain rfl | rfl := h
  · exact ⟨s, _, _, _, .refl s, .refl _, rfl⟩
  · exact ⟨_, _, _, _, takeSw_swOf s 4 0, sw_swOf _, rfl⟩

/-! ### Commands with a task slot (R328) -/

/-- The commands that `dropOn` ends. -/
theorem mem_dropped {s : State} {es : List Eng} {e : Eng} (on : e ∈ es) {k : SlotNo} (busy : (k, s.slot e k) ∈ s.slotsOf e) :
    ((s.slot e k).port, (s.slot e k).tag) ∈ (es.flatMap fun e => (s.slotsOf e).map fun v => (v.2.port, v.2.tag)).eraseDups := by
  rw [List.mem_eraseDups]
  exact List.mem_flatMap.2 ⟨e, on, List.mem_map.2 ⟨_, busy, rfl⟩⟩

/-- A running command that had no status and holds a slot of an engine that is reset carries the status, where what came before left the engines
and the command alone. -/
theorem status_dropOn {P : Cmd → Prop} {s s1 : State} (spared : Spares P s s1) {es : List Eng} {e : Eng} (on : e ∈ es) {k : SlotNo}
    (busy : (k, s.slot e k) ∈ s.slotsOf e) (own : P (s.cmd (s.slot e k).port (s.slot e k).tag))
    (running : (s.cmd (s.slot e k).port (s.slot e k).tag).phase = .running)
    (clear : (s.cmd (s.slot e k).port (s.slot e k).tag).status = none) {st : Nat} (lasts : Lasts st) :
    ((s1.dropOn es st).cmd (s.slot e k).port (s.slot e k).tag).status = some st := by
  have same := spared.cmd _ _ own
  have hit := mem_dropped on busy
  unfold State.dropOn
  extract_lets cs
  have named : cs = (es.flatMap fun e => (s.slotsOf e).map fun v => (v.2.port, v.2.tag)).eraseDups := by
    simp only [cs, spared.slotsOf]
  exact status_abortCmds_running (named ▸ hit) (same ▸ running) (same ▸ clear) lasts

/-! ### Level 2: an engine reset -/

/-- R331: a trigger inside a scope in reset is recorded only. -/
theorem resetEngine_inReset {s : State} {e : Eng} (reset : s.inReset e = true) (cause : Nat) (esc : Bool) (r : ErrRec) :
    s.resetEngine e cause esc r = s.recordOnly r := by
  unfold State.resetEngine
  rw [if_pos (by simp [reset])]

/-- What RCV holds once an engine reset has begun. -/
def RcvBlock.engineReset (b : RcvBlock) (e : Eng) (cause : Nat) (esc : Bool) : RcvBlock :=
  { b.note 2 cause e.val (partOf e).val esc with fence := b.fence ||| engBit e, inReset := b.inReset ||| engBit e }

theorem engineReset_noSw {s t : State} (h : SwOf s t) (e : Eng) (cause : Nat) (esc : Bool) :
    (t.rcv.engineReset e cause esc).noSw = (s.rcv.engineReset e cause esc).noSw := by
  obtain ⟨l, n, runs, rfl⟩ := h
  rfl

/-- The state in which an engine is fenced and its writes are discarded, before its commands end. -/
def State.fenceEngine (s : State) (e : Eng) (cause : Nat) (esc : Bool) (r : ErrRec) : State :=
  let s0 := (s.breakWindow (partOf e)).unquiesce (engBit e)
  ((({ s0 with rcv := s0.rcv.engineReset e cause esc } : State).postErr { r with action := 3, cause := cause }).ledgerReset 0 e.val 2
    cause 0).spoilWrites [e]

theorem fenceEngine_rcv (s : State) (e : Eng) (cause : Nat) (esc : Bool) (r : ErrRec) :
    (s.fenceEngine e cause esc r).rcv = s.rcv.engineReset e cause esc := by
  have aged : May true := ⟨rfl⟩
  unfold State.fenceEngine
  extract_lets s0
  have broken : s0.rcv = s.rcv := (breakWindow_within (rch := { age := true }) s (.refl s) (partOf e)).rcv rfl
  clear_value s0
  rw [(spoilWrites_within (rch := {}) _ (.refl _) [e]).rcv rfl, (ledgerReset_within (rch := { age := true }) _ (.refl _) _ _ _ _ _).rcv rfl,
    (postErr_posted _ _).rcv, broken]

theorem fenceEngine_spares (s : State) (e : Eng) (cause : Nat) (esc : Bool) (r : ErrRec) : SparesTested s (s.fenceEngine e cause esc r) := by
  unfold State.fenceEngine
  extract_lets s0
  have broken : SparesTested s s0 := (breakWindow_spares s (partOf e)).trans (.of_same rfl rfl)
  clear_value s0
  refine .trans ?_ (spoilWrites_spoiled _ [e]).spares
  refine .ledger (.trans ?_ (postErr_posted _ _).spares) _ _ _ _ _
  exact broken.trans (.of_same rfl rfl)

section
variable {s : State} {e : Eng} (calm : s.wideReset = false) (free : s.inReset e = false) (cause : Nat) (esc : Bool) (r : ErrRec)
include calm free

theorem resetEngine_begins : s.resetEngine e cause esc r =
    ((((s.fenceEngine e cause esc r).dropOn [e] stDropped).dropWrites [e]).departOwn (s.grouped [e])).afterRecords := by
  unfold State.resetEngine
  rw [if_neg (by simp [calm, free])]
  rfl

theorem resetEngine_rcv : (s.resetEngine e cause esc r).rcv = s.rcv.engineReset e cause esc := by
  rw [resetEngine_begins calm free, ← fenceEngine_rcv s e cause esc r]
  have rest : Within {} (s.fenceEngine e cause esc r) _ :=
    afterRecords_within _ (departOwn_within _ (dropWrites_within _ (dropOn_within _ (.refl _) [e] stDropped) [e]) (s.grouped [e]))
  exact rest.rcv rfl

/-- R328: the running commands with a slot of the engine end with DROPPED. -/
theorem status_resetEngine {k : SlotNo} (busy : (k, s.slot e k) ∈ s.slotsOf e)
    (running : (s.cmd (s.slot e k).port (s.slot e k).tag).phase = .running) (noTest : (s.cmd (s.slot e k).port (s.slot e k).tag).op ≠ 0x0F)
    (clear : (s.cmd (s.slot e k).port (s.slot e k).tag).status = none) :
    ((s.resetEngine e cause esc r).cmd (s.slot e k).port (s.slot e k).tag).status = some stDropped := by
  have dropped := status_dropOn (fenceEngine_spares s e cause esc r) (List.mem_singleton_self e) busy noTest running clear lasts_dropped
  rw [resetEngine_begins calm free]
  have after := afterRecords_keepsStatus lasts_dropped (((KeepsStatus.refl ((s.fenceEngine e cause esc r).dropOn [e] stDropped)).of_ports
    (dropWrites_ports _ [e])).of_ports (departOwn_ports _ (s.grouped [e])))
  exact after _ _ dropped

end

end Sys2Proof.Machine
end

section
/-!
SUPPORT. Levels 3 to 5 of the ladder: what a partition reset, a module reset and a power-cycle request record, fence and end (13 R328 to R334).
-/

namespace Sys2Proof.Machine

open Sys2Proof

/-! ### Level 3: a partition reset -/

/-- What RCV holds once a partition reset has begun. -/
def RcvBlock.partitionReset (b : RcvBlock) (q : Part) (cause : Nat) (esc : Bool) : RcvBlock :=
  RcvBlock.swDone { b.note 3 cause 0 q.val esc with
    partFence := b.partFence ||| BitVec.ofNat 8 (2 ^ q.val), partInReset := b.partInReset ||| BitVec.ofNat 8 (2 ^ q.val)
    inReset := b.inReset &&& ~~~partMask q }

theorem partitionReset_noSw {s t : State} (h : SwOf s t) (q : Part) (cause : Nat) (esc : Bool) :
    (t.rcv.partitionReset q cause esc).noSw = (s.rcv.partitionReset q cause esc).noSw := by
  obtain ⟨l, n, runs, rfl⟩ := h
  rfl

/-- The state in which a partition is fenced and its writes are discarded, before its commands end. -/
def State.fencePartition (s : State) (q : Part) (cause : Nat) (esc : Bool) (r : ErrRec) : State :=
  let s0 := s.unquiesce (partMask q)
  ((({ s0 with rcv := s0.rcv.partitionReset q cause esc } : State).postErr { r with action := 4, cause := cause }).ledgerReset unitPart
    q.val 3 cause 0).spoilWrites (enginesOf q)

theorem fencePartition_rcv (s : State) (q : Part) (cause : Nat) (esc : Bool) (r : ErrRec) :
    (s.fencePartition q cause esc r).rcv = s.rcv.partitionReset q cause esc := by
  have aged : May true := ⟨rfl⟩
  unfold State.fencePartition
  extract_lets s0
  have unquiesced : s0.rcv = s.rcv := rfl
  clear_value s0
  rw [(spoilWrites_within (rch := {}) _ (.refl _) _).rcv rfl, (ledgerReset_within (rch := { age := true }) _ (.refl _) _ _ _ _ _).rcv rfl,
    (postErr_posted _ _).rcv, unquiesced]

theorem fencePartition_spares {P : Cmd → Prop} (s : State) (q : Part) (cause : Nat) (esc : Bool) (r : ErrRec) :
    Spares P s (s.fencePartition q cause esc r) := by
  unfold State.fencePartition
  extract_lets s0
  have unquiesced : Spares P s s0 := .of_same rfl rfl
  clear_value s0
  refine .trans ?_ (spoilWrites_spoiled _ _).spares
  refine .ledger (.trans ?_ (postErr_posted _ _).spares) _ _ _ _ _
  exact unquiesced.trans (.of_same rfl rfl)

/-- A partition whose reset begins: its tests are over and its rail takes the plan code (R365). -/
def Partition.testsEnded (a : Partition) : Partition :=
  { a with
    window := false, preempting := false, items := [], running := [], results := [], lowering := none
    sweep := [], replanQueued := false, raised := false, actualCode := max a.planCode a.actualCode }

/-- The commands of a partition that is reset end: those with a slot of its engines, then the SELFTESTs with an item there (R328, R365). -/
def State.endPartition (s : State) (q : Part) (tests : List (Port × Tag)) : State :=
  tests.foldl (fun s c => s.abortCmd c.1 c.2 stPartitionReset) ((s.dropOn (enginesOf q) stPartitionReset).dropWrites (enginesOf q))

section
variable {s : State} {q : Part} (calm : s.wideReset = false) (free : s.rcv.partInReset.getLsbD q.val = false) (cause : Nat) (esc : Bool)
  (r : ErrRec)
include calm free

theorem resetPartition_begins : s.resetPartition q cause esc r =
    ((((s.fencePartition q cause esc r).endPartition q (s.testsOn q)).updPart q Partition.testsEnded).departOwn
      (s.grouped (enginesOf q))).afterRecords := by
  unfold State.resetPartition
  rw [if_neg (by rw [calm, free]; decide)]
  rfl

theorem resetPartition_rcv : (s.resetPartition q cause esc r).rcv = s.rcv.partitionReset q cause esc := by
  rw [resetPartition_begins calm free, ← fencePartition_rcv s q cause esc r]
  have ended : Within {} (s.fencePartition q cause esc r) ((s.fencePartition q cause esc r).endPartition q (s.testsOn q)) :=
    Within.foldl _ (dropWrites_within _ (dropOn_within _ (.refl _) _ stPartitionReset) _) _ fun _ _ h => abortCmd_within _ h _ _ _
  have rest := afterRecords_within _ (departOwn_within _ (ended.updPart q Partition.testsEnded) (s.grouped (enginesOf q)))
  exact rest.rcv rfl

/-- R328: the running commands with a slot of an engine of the partition end with PARTITION_RESET. -/
theorem status_resetPartition {e : Eng} (on : partOf e = q) {k : SlotNo} (busy : (k, s.slot e k) ∈ s.slotsOf e)
    (running : (s.cmd (s.slot e k).port (s.slot e k).tag).phase = .running)
    (clear : (s.cmd (s.slot e k).port (s.slot e k).tag).status = none) :
    ((s.resetPartition q cause esc r).cmd (s.slot e k).port (s.slot e k).tag).status = some stPartitionReset := by
  have member : e ∈ enginesOf q := List.mem_filter.2 ⟨List.mem_finRange e, by simp [on]⟩
  have spared : Spares (fun _ => True) s (s.fencePartition q cause esc r) := fencePartition_spares s q cause esc r
  have dropped := status_dropOn spared member busy trivial running clear lasts_partitionReset
  rw [resetPartition_begins calm free]
  generalize s.fencePartition q cause esc r = u at dropped
  have ended : KeepsStatus stPartitionReset (u.dropOn (enginesOf q) stPartitionReset) (u.endPartition q (s.testsOn q)) :=
    ((KeepsStatus.refl _).of_ports (dropWrites_ports _ _)).foldl
      (fun _ c h => abortCmd_keepsStatus lasts_partitionReset (ranksFirst_self _) h c.1 c.2) _
  have shut : KeepsStatus stPartitionReset _ ((u.endPartition q (s.testsOn q)).updPart q Partition.testsEnded) := ended.of_ports rfl
  have after := afterRecords_keepsStatus lasts_partitionReset (shut.of_ports (departOwn_ports _ (s.grouped (enginesOf q))))
  exact after _ _ dropped

end

/-! ### Level 4: a module reset -/

/-- R331: a trigger while a module reset runs, after a power-cycle request, or without AUX_3V3 is recorded only. -/
theorem resetModule_wide {s : State} (wide : s.wideReset = true) (cause : Nat) (esc : Bool) (r : ErrRec) :
    s.resetModule cause esc .running r = s.recordOnly r := by
  have cause_of : (s.rcv.powerCycle || !s.powered) = true ∨ s.rcv.modReset ≠ .none := by
    rw [State.wideReset, Bool.or_assoc, Bool.or_eq_true, bne_iff_ne] at wide
    exact wide.symm
  unfold State.resetModule
  by_cases later : (s.rcv.powerCycle || !s.powered) = true
  · rw [if_pos later]
  · rw [if_neg later, if_pos (cause_of.resolve_left later)]
    rfl

/-- The state of a module whose writes are discarded and whose host links drop, before a module reset clears it. -/
def State.dropModule (s : State) (cause : Nat) (r : ErrRec) : State :=
  (((s.postErr { r with action := 5, cause := cause }).ledgerReset r.unit r.index 4 cause 0).spoilWrites (Tab.keysBelow 64 s.engines)).dropHosts

section
variable {s : State} (calm : s.wideReset = false) (cause : Nat) (esc : Bool) (hold : ModReset) (r : ErrRec)
include calm

/-- R328, R332: a module reset clears the module and counts. -/
theorem resetModule_begins : ∃ runs, s.resetModule cause esc hold r =
    { (s.dropModule cause r).clearModule with
      rcv := { ((s.dropModule cause r).clearModule.rcv.note 4 cause 0 0 esc) with
        modReset := hold, moduleResets := satAdd 16 s.rcv.moduleResets 1, swRuns := runs } } := by
  obtain ⟨idle, noCycle, powered⟩ := State.wideReset_eq_false.1 calm
  unfold State.resetModule
  rw [if_neg (by simp [noCycle, powered]), if_neg (by simp [idle])]
  exact ⟨_, rfl⟩

end

/-! ### What a module reset keeps (R9, R332) -/

theorem dropHosts_peer (s : State) : s.dropHosts.peer = s.peer := by
  unfold State.dropHosts
  refine foldl_same State.peer (fun s p => ?_) _ s
  split <;> rfl

theorem dropModule_peer (s : State) (cause : Nat) (r : ErrRec) : (s.dropModule cause r).peer = s.peer := by
  have spoiled := spoilWrites_spoiled ((s.postErr { r with action := 5, cause := cause }).ledgerReset r.unit r.index 4 cause 0)
    (Tab.keysBelow 64 s.engines)
  exact (dropHosts_peer _).trans (spoiled.peer.trans (postErr_posted s _).peer)

theorem settlePages_peer (s : State) : s.settlePages.peer = s.peer := by
  unfold State.settlePages
  refine foldl_same State.peer (fun s m => ?_) _ s
  extract_lets k s1
  have retired : s1.peer = s.peer := by
    refine foldl_same State.peer ?_ _ s
    intro s g
    exact (postErr_posted _ _).peer
  exact retired

theorem clearModule_peer (s : State) : s.clearModule.peer = s.peer.atReset := congrArg PeerBlock.atReset (settlePages_peer s)

theorem dropModule_hk (s : State) (cause : Nat) (r : ErrRec) : (s.dropModule cause r).hk = s.hk := by
  have aged : May true := ⟨rfl⟩
  have dropped : Within { age := true } s (s.dropModule cause r) :=
    dropHosts_within _ (spoilWrites_within _ (ledgerReset_within _ (postErr_within _ (.refl s) _) _ _ _ _ _) _)
  exact dropped.hk rfl

theorem clearModule_hk (s : State) : s.clearModule.hk = s.hk := by
  have aged : May true := ⟨rfl⟩
  unfold State.clearModule
  extract_lets s1
  have settled : s1.hk = s.hk := (settlePages_within (rch := { age := true }) s (.refl s)).hk rfl
  clear_value s1
  exact settled

theorem clearModule_cleared (s : State) : s.clearModule.ctxs = [] ∧ s.clearModule.engines = [] ∧ s.clearModule.mem.hbm = [] ∧
    s.clearModule.boot.ready = false ∧ s.clearModule.sec.locked = false := ⟨rfl, rfl, rfl, rfl, rfl⟩

/-- What a module reset leaves (R9, R328, R332): it cleared contexts, engines, HBM and the set-up lock, ended READY and counted. -/
structure ModuleCleared (s t : State) (hold : ModReset) (esc : Bool) : Prop where
  ctxs : t.ctxs = []
  engines : t.engines = []
  hbm : t.mem.hbm = []
  ready : t.boot.ready = false
  unlocked : t.sec.locked = false
  modReset : t.rcv.modReset = hold
  level : t.rcv.lastLevel = 4
  escalated : t.rcv.escalated = esc
  counted : t.rcv.moduleResets = satAdd 16 s.rcv.moduleResets 1
  peer : t.peer = s.peer.atReset
  hk : t.hk = s.hk

theorem resetModule_cleared {s : State} (calm : s.wideReset = false) (cause : Nat) (esc : Bool) (hold : ModReset) (r : ErrRec) :
    ModuleCleared s (s.resetModule cause esc hold r) hold esc := by
  obtain ⟨runs, begins⟩ := resetModule_begins calm cause esc hold r
  have peer := (clearModule_peer (s.dropModule cause r)).trans (congrArg PeerBlock.atReset (dropModule_peer s cause r))
  have hk := (clearModule_hk (s.dropModule cause r)).trans (dropModule_hk s cause r)
  obtain ⟨ctxs, engines, hbm, ready, unlocked⟩ := clearModule_cleared (s.dropModule cause r)
  rw [begins]
  generalize (s.dropModule cause r).clearModule = u at peer hk ctxs engines hbm ready unlocked
  exact ⟨ctxs, engines, hbm, ready, unlocked, rfl, rfl, rfl, rfl, peer, hk⟩

theorem ModuleCleared.of_sw {s s1 u t : State} {hold : ModReset} {esc : Bool} (took : SwOf s s1) (h : ModuleCleared s1 u hold esc)
    (gave : SwOf u t) : ModuleCleared s t hold esc := by
  obtain ⟨l, n, runs, rfl⟩ := took
  obtain ⟨l', n', runs', rfl⟩ := gave
  obtain ⟨ctxs, engines, hbm, ready, unlocked, modReset, level, escalated, counted, peer, hk⟩ := h
  exact ⟨ctxs, engines, hbm, ready, unlocked, modReset, level, escalated, counted, peer, hk⟩

end Sys2Proof.Machine
end

section
/-!
SUPPORT. The completions of an engine reset and of a partition reset: what comes back at its reset values (00 R9; 13 R328, R335, R337).
-/

namespace Sys2Proof.Machine

open Sys2Proof

theorem Engine.atReset_atReset (g : Engine) : g.atReset.atReset = g.atReset := rfl

/-- An engine at its reset values has no task, no stream, no named tile and no count. -/
theorem State.eng_atReset {s : State} {e : Eng} {g : Engine} (h : s.eng e = g.atReset) :
    (∀ k, s.slot e k = {}) ∧ (∀ i, s.strm e i = {}) ∧ (∀ a, s.named e a = {}) ∧ (s.eng e).counts = [] := by
  unfold State.slot State.strm State.named
  rw [h]
  exact ⟨fun _ => rfl, fun _ => rfl, fun _ => rfl, rfl⟩

theorem foldl_atReset_eng (l : List Eng) (s : State) (d : Eng) :
    (l.foldl (fun s e => s.updEng e Engine.atReset) s).eng d = if d ∈ l then (s.eng d).atReset else s.eng d := by
  induction l generalizing s with
  | nil => rfl
  | cons e l ih =>
    rw [List.foldl_cons, ih, State.eng_updEng]
    by_cases own : d = e
    · subst own
      simp [Engine.atReset_atReset]
    · simp [own]

section
variable {s : State}

theorem exec_engineResetComplete {e : Eng} (reset : s.rcv.inReset.getLsbD e.val = true) (calm : s.wideReset = false) :
    exec (.engineResetComplete e) s = .next { s.updEng e Engine.atReset with
      rcv := RcvBlock.swDone { s.rcv with inReset := s.rcv.inReset &&& ~~~engBit e } } := by
  show Host.Outcome.next (ite _ _ _) = _
  rw [if_neg (by rw [reset, calm]; decide)]
  rfl

/-- The partition and its engines at their reset values. -/
def State.partitionAtReset (s : State) (q : Part) : State :=
  (enginesOf q).foldl (fun s e => s.updEng e Engine.atReset) (s.updPart q Partition.atReset)

theorem partitionAtReset_eng (s : State) (q : Part) (d : Eng) :
    (s.partitionAtReset q).eng d = if partOf d = q then (s.eng d).atReset else s.eng d := by
  unfold State.partitionAtReset
  rw [foldl_atReset_eng]
  simp [enginesOf, State.eng]

theorem partitionAtReset_part (s : State) (q r : Part) :
    (s.partitionAtReset q).part r = if r = q then (s.part q).atReset else s.part r := by
  have parts : (s.partitionAtReset q).parts = (s.updPart q Partition.atReset).parts :=
    foldl_same State.parts (f := fun s e => s.updEng e Engine.atReset) (fun _ _ => rfl) (enginesOf q) _
  rw [← State.part_updPart, State.part, parts, State.part]

theorem partitionAtReset_rcv (s : State) (q : Part) : (s.partitionAtReset q).rcv = s.rcv :=
  foldl_same State.rcv (f := fun s e => s.updEng e Engine.atReset) (fun _ _ => rfl) (enginesOf q) _

theorem exec_partitionResetComplete {q : Part} (reset : s.rcv.partInReset.getLsbD q.val = true) (calm : s.wideReset = false) :
    exec (.partitionResetComplete q) s = .next { s.partitionAtReset q with
      rcv := RcvBlock.swDone { (s.partitionAtReset q).rcv with
        partInReset := (s.partitionAtReset q).rcv.partInReset &&& ~~~(BitVec.ofNat 8 (2 ^ q.val)) } } := by
  show Host.Outcome.next (ite _ _ _) = _
  rw [if_neg (by rw [reset, calm]; decide)]
  rfl

end

/-! ### The commands that begin a reset -/

section
variable {s : State} {i : Instr} {cause : BitVec 8}

/-- R328, R334: an engine reset. -/
theorem exec_engineReset_begins {e : Eng} {n : Nat} (h : i = .engineReset e cause ∧ n = cause.toNat ∨ i = .swresetEngine e ∧ n = 0x09)
    (calm : s.wideReset = false) (free : s.inReset e = false) :
    ∃ t, exec i s = .next t ∧ t.rcv.noSw = (s.rcv.engineReset e n false).noSw ∧
      ∀ k, (k, s.slot e k) ∈ s.slotsOf e → (s.cmd (s.slot e k).port (s.slot e k).tag).phase = .running →
        (s.cmd (s.slot e k).port (s.slot e k).tag).op ≠ 0x0F → (s.cmd (s.slot e k).port (s.slot e k).tag).status = none →
        (t.cmd (s.slot e k).port (s.slot e k).tag).status = some stDropped := by
  obtain ⟨s1, r, t, took, gave, ran⟩ := exec_engineReset_or_swreset s h
  have calm1 := took.wideReset.trans calm
  have free1 := (took.inReset e).trans free
  refine ⟨t, ran, ?_, fun k busy running noTest clear => ?_⟩
  · rw [gave.noSw, resetEngine_rcv calm1 free1, engineReset_noSw took]
  · have dropped := status_resetEngine calm1 free1 n false r (k := k)
    simp only [took.slot, took.slotsOf, took.cmd] at dropped
    rw [gave.cmd]
    exact dropped busy running noTest clear

/-- R331: an engine reset inside a scope in reset. -/
theorem exec_engineReset_records {e : Eng} {n : Nat} (h : i = .engineReset e cause ∧ n = cause.toNat ∨ i = .swresetEngine e ∧ n = 0x09)
    (reset : s.inReset e = true) : ∃ t u, exec i s = .next t ∧ SwOf u t ∧ u.rcv.noSw = s.rcv.noSw ∧ u.engines = s.engines ∧
      ∀ p g, u.cmd p g = s.cmd p g := by
  obtain ⟨s1, r, t, took, gave, ran⟩ := exec_engineReset_or_swreset s h
  rw [resetEngine_inReset ((took.inReset e).trans reset)] at gave
  have posted := recordOnly_posted s1 r
  refine ⟨t, _, ran, gave, ?_, ?_, fun p g => (posted.toReported.cmd p g).trans (took.cmd p g)⟩
  · rw [posted.rcv, took.noSw]
  · rw [posted.engines, took.rest]

/-- R328, R334, R365: a partition reset. -/
theorem exec_partitionReset_begins {q : Part} (h : i = .partitionReset q cause ∨ i = .swresetPartition q)
    (calm : s.wideReset = false) (free : s.rcv.partInReset.getLsbD q.val = false) :
    ∃ t n, exec i s = .next t ∧ t.rcv.noSw = (s.rcv.partitionReset q n false).noSw ∧
      ∀ e k, partOf e = q → (k, s.slot e k) ∈ s.slotsOf e → (s.cmd (s.slot e k).port (s.slot e k).tag).phase = .running →
        (s.cmd (s.slot e k).port (s.slot e k).tag).status = none →
        (t.cmd (s.slot e k).port (s.slot e k).tag).status = some stPartitionReset := by
  obtain ⟨s1, n, r, t, took, gave, ran⟩ := exec_partitionReset_or_swreset s h
  have calm1 := took.wideReset.trans calm
  have free1 : s1.rcv.partInReset.getLsbD q.val = false := by
    rw [← free]
    exact congrArg (fun b => b.partInReset.getLsbD q.val) took.noSw
  refine ⟨t, n, ran, ?_, fun e k on busy running clear => ?_⟩
  · rw [gave.noSw, resetPartition_rcv calm1 free1, partitionReset_noSw took]
  · have ended := status_resetPartition calm1 free1 n false r on (k := k)
    simp only [took.slot, took.slotsOf, took.cmd] at ended
    rw [gave.cmd]
    exact ended busy running clear

/-- R331: a module reset while a wider reset runs, after a power-cycle request or without AUX_3V3. -/
theorem exec_moduleReset_records (h : i = .moduleReset cause ∨ i = .swresetModule) (wide : s.wideReset = true) :
    ∃ t, exec i s = .next t ∧ t.ctxs = s.ctxs ∧ t.engines = s.engines ∧ t.mem.hbm = s.mem.hbm ∧ t.rcv.noSw = s.rcv.noSw ∧
      t.boot = s.boot ∧ t.peer = s.peer := by
  obtain ⟨s1, n, r, t, took, gave, ran⟩ := exec_moduleReset_or_swreset s h
  rw [resetModule_wide (took.wideReset.trans wide)] at gave
  have posted := recordOnly_posted s1 r
  refine ⟨t, ran, ?_, ?_, ?_, ?_, ?_, ?_⟩
  · rw [gave.rest, ← posted.ctxs.trans (congrArg State.ctxs took.rest)]
  · rw [gave.rest, ← posted.engines.trans (congrArg State.engines took.rest)]
  · rw [gave.rest, ← posted.hbm.trans (congrArg (·.mem.hbm) took.rest)]
  · rw [gave.noSw, posted.rcv, took.noSw]
  · rw [gave.rest, ← posted.boot.trans (congrArg State.boot took.rest)]
  · rw [gave.rest, ← posted.peer.trans (congrArg State.peer took.rest)]

end

end Sys2Proof.Machine
end

section

open Sys2Proof Sys2Proof.Machine

/-- Settles O40: each reset reaches its level's rule through its own command or SWRESET; a status that DROPPED or PARTITION_RESET has given lasts
through what follows. -/
theorem resetsFenceTheirScopeAndEndItsCommands : Obligations.ResetsFenceTheirScopeAndEndItsCommands := by
  refine ⟨?engine, ?engineDone, ?partition, ?partitionDone, ?module⟩
  case engine =>
    intro e cause s i n h calm
    constructor
    · intro free
      obtain ⟨t, ran, rcv, ends⟩ := exec_engineReset_begins h calm free
      refine ⟨t, ran, (congrArg RcvBlock.inReset rcv :), (congrArg RcvBlock.fence rcv :), (congrArg RcvBlock.lastLevel rcv :),
        (congrArg RcvBlock.cause rcv :), (congrArg RcvBlock.engine rcv :), (congrArg RcvBlock.escalated rcv :), (congrArg RcvBlock.partFence rcv :), ?_⟩
      rintro p g running ⟨k, busy, rfl, rfl⟩ noTest clear
      exact ends k busy running noTest clear
    · intro reset
      obtain ⟨t, u, ran, gave, rcv, engines, cmds⟩ := exec_engineReset_records h reset
      have rcv_t := gave.noSw.trans rcv
      exact ⟨t, ran, (congrArg RcvBlock.inReset rcv_t :), (congrArg RcvBlock.fence rcv_t :), (congrArg State.engines gave.rest).trans engines,
        fun p g => (gave.cmd p g).trans (cmds p g)⟩
  case engineDone =>
    intro e s reset calm
    have own : (s.updEng e Engine.atReset).eng e = (s.eng e).atReset := State.eng_updEng_same ..
    obtain ⟨slots, strms, named, counts⟩ := State.eng_atReset own
    exact ⟨_, exec_engineResetComplete reset calm, rfl, rfl, slots, strms, named, counts, (congrArg Engine.minLog2 own :),
      (congrArg Engine.qlimit own :), fun d other => State.eng_updEng_ne _ e _ other, rfl⟩
  case partition =>
    intro q cause s i h calm free
    obtain ⟨t, n, ran, rcv, ends⟩ := exec_partitionReset_begins h calm free
    refine ⟨t, ran, (congrArg RcvBlock.partInReset rcv :), (congrArg RcvBlock.partFence rcv :), (congrArg RcvBlock.lastLevel rcv :),
      (congrArg RcvBlock.partition rcv :), ?_⟩
    rintro e p g on running ⟨k, busy, rfl, rfl⟩ clear
    exact ends e k on busy running clear
  case partitionDone =>
    intro q s reset calm
    have own : (s.partitionAtReset q).part q = (s.part q).atReset := (partitionAtReset_part s q q).trans (if_pos rfl)
    have engines (e : Eng) (on : partOf e = q) := State.eng_atReset ((partitionAtReset_eng s q e).trans (if_pos on))
    refine ⟨_, exec_partitionResetComplete reset calm, (congrArg RcvBlock.partFence (partitionAtReset_rcv s q) :),
      (congrArg (fun b : RcvBlock => b.partInReset &&& ~~~(BitVec.ofNat 8 (2 ^ q.val))) (partitionAtReset_rcv s q) :),
      fun e on => ⟨(engines e on).1, (engines e on).2.1⟩, fun e off => (partitionAtReset_eng s q e).trans (if_neg off),
      (congrArg Partition.items own :), (congrArg Partition.scale own :), (congrArg Partition.planCode own :), (congrArg Partition.regTotal own :),
      fun r other => (partitionAtReset_part s q r).trans (if_neg other)⟩
  case module =>
    intro cause s i h
    constructor
    · intro wide
      obtain ⟨t, ran, ctxs, engines, hbm, rcv, boot, peer⟩ := exec_moduleReset_records h wide
      exact ⟨t, ran, ctxs, engines, hbm, (congrArg RcvBlock.lastLevel rcv :), (congrArg RcvBlock.moduleResets rcv :), boot, peer⟩
    · intro calm
      obtain ⟨s1, n, r, t, took, gave, ran⟩ := exec_moduleReset_or_swreset s h
      obtain ⟨ctxs, engines, hbm, ready, unlocked, modReset, level, -, counted, peer, hk⟩ :=
        (resetModule_cleared (took.wideReset.trans calm) n false .running r).of_sw took gave
      exact ⟨t, ran, ctxs, engines, hbm, ready, unlocked, modReset, level, counted, (congrArg PeerBlock.nodeId peer :),
        (congrArg PeerBlock.valid peer :), hk⟩

end

section
/-!
SUPPORT. Escalation: a missed deadline puts engines in reset one after the other, and a power-cycle request fences the whole module
(13 R328, R330, R333).
-/

namespace Sys2Proof.Machine

open Sys2Proof

/-! ### Bits of a scope's masks -/

theorem getLsbD_or_engBit (m : W64) (e d : Eng) : (m ||| engBit e).getLsbD d.val = (m.getLsbD d.val || decide (d = e)) := by
  have bit : (engBit e).getLsbD d.val = decide (d = e) := by
    simp only [engBit, BitVec.getLsbD_ofNat, Nat.testBit_two_pow, d.isLt, decide_true, Bool.true_and, eq_comm, Fin.ext_iff]
  rw [BitVec.getLsbD_or, bit]

theorem getLsbD_or_partBit (m : BitVec 8) (q : Part) : (m ||| BitVec.ofNat 8 (2 ^ q.val)).getLsbD q.val = true := by
  have bit : (BitVec.ofNat 8 (2 ^ q.val)).getLsbD q.val = true := by
    simp only [BitVec.getLsbD_ofNat, Nat.testBit_two_pow, q.isLt, decide_true, Bool.true_and]
  rw [BitVec.getLsbD_or, bit, Bool.or_true]

/-! ### Engines that are reset one after the other -/

section
variable {s : State} (calm : s.wideReset = false) (cause : Nat) (esc : Bool) (r : Eng → ErrRec)
include calm

/-- An engine reset puts its engine in reset, leaves the others in theirs, and starts no wider reset. -/
theorem resetEngine_puts (e : Eng) (r : ErrRec) : (s.resetEngine e cause esc r).wideReset = false ∧
    ∀ d, d = e ∨ s.inReset d = true → (s.resetEngine e cause esc r).inReset d = true := by
  have aged : May true := ⟨rfl⟩
  have pwr := (resetEngine_within (rch := { rcv := true, age := true, dbg := true }) s (.refl s) e cause esc r).pwr rfl
  cases reset : s.inReset e with
  | true =>
    have rcv : (s.resetEngine e cause esc r).rcv = s.rcv := by rw [resetEngine_inReset reset, (recordOnly_posted s r).rcv]
    refine ⟨(State.wideReset_congr (congrArg _ rcv) (congrArg _ rcv) pwr).trans calm, fun d h => ?_⟩
    have before : s.inReset d = true := h.elim (fun own => own ▸ reset) id
    unfold State.inReset at before ⊢
    rw [rcv]
    exact before
  | false =>
    have rcv := resetEngine_rcv calm reset cause esc r
    refine ⟨(State.wideReset_congr (congrArg RcvBlock.modReset rcv :) (congrArg RcvBlock.powerCycle rcv :) pwr).trans calm, fun d h => ?_⟩
    unfold State.inReset at h ⊢
    rw [rcv, Bool.or_eq_true]
    show (s.rcv.inReset ||| engBit e).getLsbD d.val = true ∨ s.rcv.partInReset.getLsbD (partOf d).val = true
    rw [getLsbD_or_engBit, Bool.or_eq_true, decide_eq_true_eq]
    rw [Bool.or_eq_true] at h
    tauto

theorem foldl_resetEngine_puts (es : List Eng) : ∀ d, d ∈ es ∨ s.inReset d = true →
    (es.foldl (fun s e => s.resetEngine e cause esc (r e)) s).inReset d = true := by
  induction es generalizing s with
  | nil => exact fun d h => h.resolve_left (List.not_mem_nil)
  | cons e es ih =>
    intro d h
    obtain ⟨calm1, puts⟩ := resetEngine_puts calm cause esc e (r e)
    refine ih calm1 d ?_
    rw [List.mem_cons, or_assoc] at h
    obtain own | rest | before := h
    · exact .inr (puts d (.inl own))
    · exact .inl rest
    · exact .inr (puts d (.inr before))

end

/-! ### Level 5: a power-cycle request (R333) -/

/-- What holds once a power cycle is asked for: the module is fenced with every partition, its transmitters are off, MOD_ALERT_N is asserted,
and the event is out. -/
structure CycleAsked (t : State) (cause : Nat) (esc : Bool) : Prop where
  powerCycle : t.rcv.powerCycle = true
  fenceAll : t.rcv.fenceAll = true
  modReset : t.rcv.modReset = .none
  partFence : t.rcv.partFence = 0xFF
  txOff : t.peer.txOff = true
  alert : t.pwr.alertN = false
  event : t.out.getLast? = some (.pldmEvent "power-cycle request" cause)
  escalated : t.rcv.escalated = esc
  cycleCause : t.rcv.cycleCause = cause

theorem CycleAsked.isolated {t : State} {cause : Nat} {esc : Bool} (h : CycleAsked t cause esc) (e : Eng) : t.isolated e = true := by
  simp [State.isolated, h.fenceAll]

theorem followPort_peer (s : State) (p : Port) : (s.followPort p).peer = s.peer := by
  unfold State.followPort
  extract_lets down
  refine foldl_same State.peer ?_ _ s
  exact fun _ _ => rfl

theorem requestCycle_asks {s : State} (noCycle : s.rcv.powerCycle = false) (powered : s.powered = true) (cause stage : Nat) (esc : Bool)
    (r : ErrRec) : CycleAsked (s.requestCycle cause stage esc r) cause esc := by
  have ctxs : May true := ⟨rfl⟩
  unfold State.requestCycle
  rw [if_neg (by rw [noCycle, powered]; decide)]
  extract_lets s0 s1 s2 pb rc pw bb db s3
  have asked : s3.rcv.powerCycle = true ∧ s3.rcv.fenceAll = true ∧ s3.rcv.modReset = .none ∧ s3.rcv.partFence = 0xFF ∧
      s3.peer.txOff = true ∧ s3.pwr.alertN = false ∧ s3.rcv.escalated = esc ∧ s3.rcv.cycleCause = cause :=
    ⟨rfl, rfl, rfl, rfl, rfl, rfl, rfl, rfl⟩
  clear_value s3
  have followed : Within { ctxs := true } s3 ((s3.followPort 0).followPort 1) := followPort_within _ (followPort_within _ (.refl s3) 0) 1
  have rcv := followed.rcv rfl
  have pwr := followed.pwr rfl
  have peer : ((s3.followPort 0).followPort 1).peer = s3.peer := (followPort_peer _ 1).trans (followPort_peer s3 0)
  rw [← rcv, ← pwr, ← peer] at asked
  obtain ⟨powerCycle, fenceAll, modReset, partFence, txOff, alert, escalated, cycleCause⟩ := asked
  exact ⟨powerCycle, fenceAll, modReset, partFence, txOff, alert, List.getLast?_concat .., escalated, cycleCause⟩

/-- R331, R425: without AUX_3V3 nothing is requested. -/
theorem requestCycle_unpowered {s : State} (dark : s.powered = false) (cause stage : Nat) (esc : Bool) (r : ErrRec) :
    s.requestCycle cause stage esc r = s := by
  unfold State.requestCycle State.recordOnly
  rw [dark]
  simp

/-- R343: what had been retired stays retired. -/
theorem requestCycle_retired (s : State) (cause stage : Nat) (esc : Bool) (r : ErrRec) (m : Stack) :
    (s.stack m).retired <+: ((s.requestCycle cause stage esc r).stack m).retired :=
  (requestCycle_keeps s (.refl s) cause stage esc r).retired m

end Sys2Proof.Machine
end

section

open Sys2Proof Sys2Proof.Machine

/-- Settles O41: a missed deadline starts the next level on the same scope, and the last level's request fences the whole module. -/
theorem missedDeadlinesEscalate : Obligations.MissedDeadlinesEscalate := by
  refine ⟨?context, ?engine, ?partition, ?module, ?unpowered, ?request, fun s cycle => ?again⟩
  case context =>
    intro c s aborting calm
    refine ⟨_, (show Host.Outcome.next (ite _ _ _) = _ by rw [if_neg (not_not_intro aborting)]), ?_⟩
    rintro e ⟨k, busy, own⟩
    refine foldl_resetEngine_puts calm 0x08 true (fun e => { cls := 6, unit := 0, index := e.val }) _ e (.inl ?_)
    exact List.mem_filter.2 ⟨List.mem_finRange e, List.any_eq_true.2 ⟨_, busy, beq_iff_eq.2 own⟩⟩
  case engine =>
    intro e s reset calm free
    have rcv := resetPartition_rcv calm free 0x08 true { cls := 6, unit := 1, index := (partOf e).val }
    refine ⟨_, (show Host.Outcome.next (ite _ _ _) = _ by rw [if_neg (by rw [reset, calm]; decide)]), ?_⟩
    rw [rcv]
    exact ⟨getLsbD_or_partBit _ _, rfl, rfl, rfl⟩
  case partition =>
    intro q s reset calm
    have cleared := resetModule_cleared calm 0x08 true .running { cls := 6, unit := 1, index := q.val }
    exact ⟨_, (show Host.Outcome.next (ite _ _ _) = _ by rw [if_neg (by rw [reset]; decide)]), cleared.modReset, cleared.escalated,
      cleared.ready⟩
  case module =>
    intro s running noCycle powered mainOn
    have late : ¬(s.rcv.modReset = .none ∨ s.rcv.modReset = .heldSupply ∨ (!s.pwr.mainOn) = true) := by
      obtain h | h := running <;> simp [h, mainOn]
    have asked := requestCycle_asks noCycle powered 0x08 0 true { cls := 6, unit := 5 }
    exact ⟨_, (show Host.Outcome.next (ite _ _ _) = _ by rw [if_neg late]),
      ⟨asked.powerCycle, asked.fenceAll, asked.modReset, asked.partFence, asked.txOff, asked.alert, ⟨_, asked.event⟩, asked.isolated,
        fun m _ => requestCycle_retired s _ _ _ _ m⟩, asked.escalated⟩
  case unpowered => exact fun cause s dark => congrArg Host.Outcome.next (requestCycle_unpowered dark _ _ _ _)
  case request =>
    intro cause s noCycle powered
    have asked := requestCycle_asks noCycle powered cause.toNat 0 false
      { cls := classOfCause cause.toNat, unit := (unitOfCause cause.toNat 5 0 0).1, index := (unitOfCause cause.toNat 5 0 0).2 }
    exact ⟨_, rfl, ⟨asked.powerCycle, asked.fenceAll, asked.modReset, asked.partFence, asked.txOff, asked.alert, ⟨_, asked.event⟩,
      asked.isolated, fun m _ => requestCycle_retired s _ _ _ _ m⟩, asked.cycleCause⟩
  case again =>
    show Host.Outcome.next (ite _ _ _) = _
    rw [if_pos cycle]
    rfl

end

section
/-!
SUPPORT. The steps of CHECKPOINT and RESTORE, and what follows them where no packet waits and no collective is at work (13 R344 to R350).
-/

namespace Sys2Proof.Machine

open Sys2Proof

/-! ### What follows a step -/

theorem retryWaiting_of_none {s : State} (quiet : s.peer.waiting = []) : s.retryWaiting = s := by
  have same : { s with peer := { s.peer with waiting := [] } } = s := by rw [← quiet]
  unfold State.retryWaiting
  rw [quiet]
  exact same

theorem syncColls_of_none {s : State} (noColl : ∀ p g, (s.cmd p g).op ≠ 0x0A) : s.syncColls = s := by
  have none_at_work : (s.cmds.filter fun x => x.2.2.op == 0x0A && x.2.2.phase == .running && x.2.2.coll.active) = [] := by
    refine List.filter_eq_nil_iff.2 fun x m => ?_
    obtain ⟨own, -⟩ := State.mem_cmds.1 (show (x.1, x.2.1, x.2.2) ∈ s.cmds from m)
    simp [own, noColl]
  unfold State.syncColls
  rw [none_at_work]
  rfl

theorem afterRecords_of_quiet {s : State} (quiet : s.peer.waiting = []) (noColl : ∀ p g, (s.cmd p g).op ≠ 0x0A) : s.afterRecords = s := by
  unfold State.afterRecords
  rw [syncColls_of_none noColl, retryWaiting_of_none quiet]

/-- Where no packet waits, unmarking changes lists of pages alone, and marks no page. -/
theorem unmark_of_quiet {s : State} (quiet : s.peer.waiting = []) (p : Port) (g : Tag) : ∃ marked awaited torn,
    s.unmark p g = { s with mem := { s.mem with marked := marked, awaited := awaited, torn := torn } } ∧ marked ⊆ s.mem.marked := by
  unfold State.unmark
  extract_lets c left rest
  exact ⟨rest, _, _, retryWaiting_of_none quiet, List.filter_subset_self _⟩

theorem mem_marked_of_unmark {s : State} (quiet : s.peer.waiting = []) {p : Port} {g : Tag} {m : Nat × Nat}
    (h : m ∈ (s.unmark p g).mem.marked) : m ∈ s.mem.marked := by
  obtain ⟨marked, awaited, torn, e, subset⟩ := unmark_of_quiet quiet p g
  rw [e] at h
  exact subset h

theorem unmark_cmd {s : State} (quiet : s.peer.waiting = []) (p : Port) (g : Tag) (q : Port) (j : Tag) :
    (s.unmark p g).cmd q j = s.cmd q j := by
  obtain ⟨marked, awaited, torn, e, -⟩ := unmark_of_quiet quiet p g
  rw [e]
  rfl

/-! ### The command at work -/

theorem snapSlot_running {s : State} {p : Port} {g : Tag} {op k : Nat} {x : Eng × SlotNo × Slot} (slot : s.snapSlot p g op k = some x) :
    (s.cmd p g).phase = .running ∧ (s.cmd p g).op = op := by
  unfold State.snapSlot at slot
  split at slot
  · next running => simpa [State.running] using running
  · cases slot

/-- A CHECKPOINT or RESTORE whose work is done ends with the digest in AUX0 and AUX1. -/
def Cmd.digestDone (c : Cmd) : Cmd :=
  { c with aux0 := c.snap.digest % 2 ^ 32, aux1 := c.snap.digest / 2 ^ 32, phase := .ended }

theorem updCmd_digestAux_doneCmd (s : State) (p : Port) (g : Tag) :
    (s.updCmd p g Cmd.digestAux).doneCmd p g = s.updCmd p g Cmd.digestDone := State.updCmd_updCmd s p g _ _

/-! ### CHECKPOINT -/

/-- The page of a CHECKPOINT's own that a write waits for. -/
def State.dueFor (s : State) (p : Port) (g : Tag) : Option Nat := s.mem.awaited.find? fun a => s.mem.marked.contains (tagField p g, a)

section
variable {s : State} {p : Port} {g : Tag} {e : Eng} {k : SlotNo} {v : Slot}
  (slot : s.snapSlot p g 0x0D (s.cmd p g).sectionAt = some (e, k, v))
include slot

theorem exec_checkpoint_readsEarly {page : Nat} (due : s.dueFor p g = some page) {t : State} (read : s.readEarly p g page = .ok t) :
    exec (.checkpoint p g) s = .next t := by
  show execCheckpoint p g s = _
  unfold State.dueFor at due
  simp only [execCheckpoint, slot, due, read, State.orWait]

variable (noneDue : s.dueFor p g = none)
include noneDue

theorem exec_checkpoint_saves (left : (s.cmd p g).progress < (s.cmd p g).snapSecs) {b : List Byte} (whole : (s.cmd p g).section_ = some b)
    {t : State} (saved : s.saveSection p g e b = .ok t) : exec (.checkpoint p g) s = .next t := by
  show execCheckpoint p g s = _
  unfold State.dueFor at noneDue
  simp only [execCheckpoint, slot, noneDue, if_pos left, whole, saved, State.orWait]

theorem exec_checkpoint_reads (left : (s.cmd p g).progress < (s.cmd p g).snapSecs) (part : (s.cmd p g).section_ = none)
    (landed : (s.cmd p g).readPos e (s.cmd p g).progress + (s.cmd p g).snap.cur.length + (s.cmd p g).snapPiece.2 ≤
      s.landedTo (s.roleStrm e p g 0)) {t : State} (read : s.readPiece p g = .ok t) : exec (.checkpoint p g) s = .next t := by
  show execCheckpoint p g s = _
  unfold State.dueFor at noneDue
  simp only [execCheckpoint, slot, noneDue, if_pos left, part, if_pos landed, read, State.orWait]

theorem exec_checkpoint_makesHeader (all : (s.cmd p g).progress = (s.cmd p g).snapSecs) (image : (s.cmd p g).digestOnly = false)
    (acked : s.snapAcked p g = true) : exec (.checkpoint p g) s = .next (s.setHeader p g e) := by
  show execCheckpoint p g s = _
  unfold State.dueFor at noneDue
  simp only [execCheckpoint, slot, noneDue, all, lt_irrefl, if_false, image, acked, Bool.not_true, Bool.false_eq_true, if_true]

theorem exec_checkpoint_ends (done : ((s.cmd p g).snapSecs < (s.cmd p g).progress ∧ s.snapAcked p g = true) ∨
      ((s.cmd p g).snapSecs ≤ (s.cmd p g).progress ∧ (s.cmd p g).digestOnly = true)) :
    exec (.checkpoint p g) s = .next (s.updCmd p g Cmd.digestDone) := by
  have past : ¬(s.cmd p g).progress < (s.cmd p g).snapSecs := by omega
  show execCheckpoint p g s = _
  unfold State.dueFor at noneDue
  simp only [execCheckpoint, slot, noneDue, if_neg past, updCmd_digestAux_doneCmd]
  cases only : (s.cmd p g).digestOnly with
  | true => rw [if_pos rfl]
  | false =>
    obtain ⟨beyond, acked⟩ := done.resolve_right fun h => by rw [only] at h; exact Bool.false_ne_true h.2
    rw [if_neg Bool.false_ne_true, acked, if_neg (by decide), if_neg (Nat.ne_of_gt beyond)]

end

/-- A page that is read out of turn is unmarked (R345). -/
theorem readEarly_unmarks {s : State} (quiet : s.peer.waiting = []) {p : Port} {g : Tag} {page : Nat} {t : State}
    (read : s.readEarly p g page = .ok t) : (tagField p g, page) ∉ t.mem.marked := by
  unfold State.readEarly at read
  extract_lets c at read
  cases taken : eachE (fun x => (s.pieceBytes c x).map fun b => (x.1, b)) (s.piecesOn c page) with
  | error _ => rw [taken] at read; cases read
  | ok bs =>
    rw [taken] at read
    cases read
    intro marked
    exact absurd (List.of_mem_filter (mem_marked_of_unmark (by exact quiet) marked)) (by simp)

/-- A section that is saved enters the digest, and its CRC is noted. -/
def Cmd.sectionSaved (c : Cmd) (b : List Byte) : Cmd :=
  { c with progress := c.progress + 1, snap := { c.snap with
    cur := [], crcs := c.snap.crcs ++ [crc32 b]
    digest := if c.progress < c.snap.tensors.length then crc64From c.snap.digest b else c.snap.digest } }

theorem storeImage_cmd {s t : State} {p : Port} {g : Tag} {e : Eng} {off : Nat} {b : List Byte} (stored : s.storeImage p g e off b = .ok t) :
    ∃ out, t.cmd p g = { s.cmd p g with snap := { (s.cmd p g).snap with out := out } } := by
  unfold State.storeImage at stored
  extract_lets c at stored
  split at stored
  · injection stored with stored
    rw [← stored]
    exact ⟨_, State.cmd_updCmd_same ..⟩
  · have only := vwrite_onlyMemory stored
    exact ⟨(s.cmd p g).snap.out, by rw [only]; rfl⟩

theorem saveSection_cmd {s t : State} {p : Port} {g : Tag} {e : Eng} {b : List Byte} (saved : s.saveSection p g e b = .ok t) :
    ∃ out, t.cmd p g = { (s.cmd p g).sectionSaved b with snap := { ((s.cmd p g).sectionSaved b).snap with out := out } } := by
  have own : (s.updCmd p g fun c => c.sectionSaved b).cmd p g = (s.cmd p g).sectionSaved b := State.cmd_updCmd_same ..
  unfold State.saveSection at saved
  extract_lets c s1 at saved
  split at saved
  · injection saved with saved
    exact ⟨((s.cmd p g).sectionSaved b).snap.out, saved ▸ own⟩
  · obtain ⟨out, stored⟩ := storeImage_cmd saved
    exact ⟨out, stored.trans (by rw [show s1.cmd p g = _ from own])⟩

/-- The next piece of a tensor joins what has been read of it. -/
theorem readPiece_cmd {s t : State} (quiet : s.peer.waiting = []) {p : Port} {g : Tag} (read : s.readPiece p g = .ok t) :
    ∃ b early, t.cmd p g = { s.cmd p g with snap := { (s.cmd p g).snap with cur := (s.cmd p g).snap.cur ++ b, early := early } } := by
  unfold State.readPiece at read
  extract_lets c x at read
  cases taken : s.pieceBytes c x with
  | error _ => rw [taken] at read; cases read
  | ok b =>
    rw [taken] at read
    cases read
    refine ⟨b, _, (unmark_cmd (by exact quiet) p g p g).trans (State.cmd_updCmd_same ..)⟩

/-- R347, R349: the header that is made; a peer is sent it, and memory has it only as the command completes. -/
def Cmd.headerMade (c : Cmd) (e : Eng) (h : List Byte) : Cmd :=
  { c with progress := c.progress + 1, snap := { c.snap with
    header := h, out := if c.atPeer then Tab.upd [] c.snap.out e.val (· ++ h) else c.snap.out } }

theorem setHeader_eq (s : State) (p : Port) (g : Tag) (e : Eng) :
    s.setHeader p g e = s.updCmd p g fun _ => (s.cmd p g).headerMade e (s.snapHeader (s.cmd p g)) := by
  unfold State.setHeader
  extract_lets c h s1
  split
  · next peer =>
    unfold State.setDown
    rw [State.updCmd_updCmd]
    refine State.updCmd_congr _ p g ?_
    simp only [Cmd.headerMade, if_pos peer, c, h]
  · next here =>
    refine State.updCmd_congr _ p g ?_
    simp only [Cmd.headerMade, if_neg here, c, h]

/-! ### RESTORE -/

section
variable {s : State} {p : Port} {g : Tag} {e : Eng} {k : SlotNo} {v : Slot}
  (slot : s.snapSlot p g 0x0E (s.cmd p g).loadAt = some (e, k, v))
include slot

theorem exec_restore_steps {t : State} (step : s.restoreStep e p g = .ok t) : exec (.restore p g) s = .next t.afterRecords := by
  show execRestore p g s = _
  simp only [execRestore, slot, step, Except.map, State.orWait]

end

section
variable {s : State} {p : Port} {g : Tag} {e : Eng} (header : (s.cmd p g).snap.header ≠ [])
include header

theorem restoreStep_loads {b : List Byte} {s1 : State} (left : (s.cmd p g).progress < fld (s.cmd p g).snap.header 6 2)
    (tensor : (secEntry (s.cmd p g).snap.header (s.cmd p g).progress).1 = 1)
    (loaded : s.loadImage e p g ((s.cmd p g).loadPos e (s.cmd p g).progress) (secEntry (s.cmd p g).snap.header (s.cmd p g).progress).2.2.1
      (secEntry (s.cmd p g).snap.header (s.cmd p g).progress).2.2.2.1 = .ok (some b))
    (agrees : crc32 b = (secEntry (s.cmd p g).snap.header (s.cmd p g).progress).2.1)
    (stored : s.vwrite (s.cmd p g).ctx (secEntry (s.cmd p g).snap.header (s.cmd p g).progress).2.2.2.2 b = .ok s1) :
    s.restoreStep e p g = .ok (s1.updCmd p g fun c =>
      { c with progress := c.progress + 1, snap := { c.snap with digest := crc64From c.snap.digest b } }) := by
  unfold State.restoreStep
  extract_lets c h
  rw [if_neg (by rw [List.isEmpty_iff]; exact header), if_neg (Nat.not_le.2 left)]
  split
  next kind crc off n src entry =>
    rw [show secEntry (s.cmd p g).snap.header (s.cmd p g).progress = _ from entry] at tensor loaded agrees stored
    dsimp only at tensor loaded agrees stored
    subst tensor
    rw [show s.loadImage e p g (c.loadPos e c.progress) off n = .ok (some b) from loaded]
    refine (if_neg (not_not_intro agrees)).trans ?_
    rw [show s.writeSection c 1 src b = .ok s1 from stored]
    rfl

theorem restoreStep_ends (all : fld (s.cmd p g).snap.header 6 2 ≤ (s.cmd p g).progress)
    (agrees : (s.cmd p g).snap.digest = fld (s.cmd p g).snap.header 24 8) : s.restoreStep e p g = .ok (s.updCmd p g Cmd.digestDone) := by
  unfold State.restoreStep
  extract_lets c h
  rw [if_neg (by rw [List.isEmpty_iff]; exact header), if_pos all, if_pos agrees, updCmd_digestAux_doneCmd]
  rfl

theorem restoreStep_faults (all : fld (s.cmd p g).snap.header 6 2 ≤ (s.cmd p g).progress)
    (differs : (s.cmd p g).snap.digest ≠ fld (s.cmd p g).snap.header 24 8) :
    s.restoreStep e p g = .ok ((s.spoil (s.cmd p g) 0).faultCmd p g) := by
  unfold State.restoreStep
  extract_lets c h
  rw [if_neg (by rw [List.isEmpty_iff]; exact header), if_pos all, if_neg differs]
  rfl

end

end Sys2Proof.Machine
end

section

open Sys2Proof Sys2Proof.Machine

/-- Settles O22: each step of CHECKPOINT and of RESTORE is one of the rules above; a RESTORE whose digest differs ends as its abort says, and
nothing that follows takes the status back. -/
theorem checkpointAndRestoreGoSectionBySection : Obligations.CheckpointAndRestoreGoSectionBySection := by
  intro p g s e k v c n due quiet
  refine ⟨fun slot => ⟨?early, ?save, ?read, ?header, ?done⟩, fun slot header noColl => ⟨?load, fun all => ⟨?ends, ?faults⟩⟩⟩
  case early => exact fun page t isDue read => ⟨exec_checkpoint_readsEarly slot isDue read, readEarly_unmarks quiet read⟩
  case save =>
    intro b t noneDue left whole saved
    obtain ⟨out, own⟩ := saveSection_cmd saved
    refine ⟨exec_checkpoint_saves slot noneDue left whole saved, ?_⟩
    rw [own]
    exact ⟨rfl, rfl, rfl⟩
  case read =>
    intro t noneDue left part landed read
    obtain ⟨b, early, own⟩ := readPiece_cmd quiet read
    refine ⟨exec_checkpoint_reads slot noneDue left part landed read, ?_⟩
    rw [own]
    exact ⟨⟨b, rfl⟩, rfl⟩
  case header =>
    intro noneDue all image acked
    have own : (s.setHeader p g e).cmd p g = c.headerMade e (s.snapHeader c) := by rw [setHeader_eq, State.cmd_updCmd_same]
    refine ⟨_, exec_checkpoint_makesHeader slot noneDue all image acked, ?_⟩
    rw [own]
    exact ⟨setHeader_eq s p g e, rfl, congrArg (· + 1) all, (snapSlot_running slot).1, rfl⟩
  case done => exact fun noneDue done => exec_checkpoint_ends slot noneDue done
  case load =>
    intro b s1 left tensor loaded agrees stored
    rw [exec_restore_steps slot (restoreStep_loads header left tensor loaded agrees stored), afterRecords_of_quiet]
    · rw [vwrite_onlyMemory stored]
      exact quiet
    · intro q j
      rw [State.cmd_updCmd, vwrite_onlyMemory stored]
      split
      · exact noColl p g
      · exact noColl q j
  case ends =>
    intro agrees
    rw [exec_restore_steps slot (restoreStep_ends header all agrees), afterRecords_of_quiet (by exact quiet)]
    · rfl
    · intro q j
      rw [State.cmd_updCmd]
      split
      · exact noColl p g
      · exact noColl q j
  case faults =>
    intro differs clear
    have fault : (((s.spoil c 0).faultCmd p g).cmd p g).status = some stFaultAbort :=
      status_abortCmd_running (by rw [spoil_cmd]; exact (snapSlot_running slot).1) (by rw [spoil_cmd]; exact clear) lasts_faultAbort
    exact ⟨_, exec_restore_steps slot (restoreStep_faults header all differs), afterRecords_keepsStatus lasts_faultAbort (.refl _) p g fault⟩

end
